-- ==== Sys2Proof/Word.lean ====
section
/-! DEFINITION. Word.lean: the word types of Crija (R21, R42, R55). -/

namespace Sys2Proof

/-- A 32-bit register or instruction word (R42, R55). -/
abbrev Word := BitVec 32

/-- A 64-bit value: a register pair or a virtual address (R55). -/
abbrev Dword := BitVec 64

/-- One byte of memory, of an eyelet or of pillow. -/
abbrev Byte := BitVec 8

end Sys2Proof
end

