-- ==== Sys2Proof/Machine/Bits.lean ====
section
/-! DEFINITION. Bits.lean: fields of words, byte order and sign extension (R21, R22). -/

namespace Sys2Proof.Machine

/-- x[lo + n - 1 : lo] as an unsigned number (R22). -/
def fld {w : Nat} (x : BitVec w) (lo n : Nat) : Nat := (x.toNat >>> lo) % 2 ^ n

/-- Bit i of x. -/
def bit {w : Nat} (x : BitVec w) (i : Nat) : Bool := x.getLsbD i

/-- The low n bits of x read as a two's-complement number (sext of R22). -/
def sextNat (x n : Nat) : Int :=
  let y := x % 2 ^ n
  if n ≠ 0 ∧ 2 ^ (n - 1) ≤ y then (y : Int) - 2 ^ n else y

/-- sext(x, n) to the width of its destination. -/
def sextTo (w : Nat) (x n : Nat) : BitVec w := BitVec.ofInt w (sextNat x n)

/-- A 64-bit value from the even (low) and odd (high) register of a pair (R55). -/
def pair64 (lo hi : Word) : Dword := hi ++ lo

/-- The low half of a pair value. -/
def lo32 (x : Dword) : Word := x.setWidth 32

/-- The high half of a pair value. -/
def hi32 (x : Dword) : Word := (x >>> 32).setWidth 32

/-- Little-endian bytes of x, n of them (R21). -/
def leBytes (x n : Nat) : List Byte := (List.range n).map fun i => BitVec.ofNat 8 (x >>> (8 * i))

/-- The number that little-endian bytes hold (R21). -/
def leNat : List Byte → Nat
  | [] => 0
  | b :: bs => b.toNat + 256 * leNat bs

/-- sat(x, lo, hi) of R22. -/
def satInt (x lo hi : Int) : Int := if x < lo then lo else if hi < x then hi else x

end Sys2Proof.Machine
end

