-- ==== Sys2Proof/Syntax.lean ====
section
/-! DEFINITION. Syntax.lean: the operand names of Crija (R27, R44, R45) and the ONE inductive of the
opcode table, one constructor per row: 216 instructions, and 106 machine events that no word encodes. -/

namespace Sys2Proof

/-- Window-relative vector register v0 to v63 (R44). -/
abbrev Vec := Fin 64
/-- Scalar register s0 to s31 (R44). -/
abbrev Sreg := Fin 32
/-- Eyelet e0 to e15 (R44). -/
abbrev Eye := Fin 16
/-- Mask register k0 to k11 (R44). -/
abbrev Msk := Fin 12
/-- Completion flag f0 to f11 (R45). -/
abbrev Flag := Fin 12
/-- Named barrier b0 to b15 (R45). -/
abbrev Bar := Fin 16
/-- Stage ring q0 to q7 (R45). -/
abbrev Ring := Fin 8
/-- Accumulator a0 to a3 (R45). -/
abbrev Acc := Fin 4
/-- Tile descriptor td0 to td7 (R45). -/
abbrev Td := Fin 8
/-- The unsigned 7-bit immediate of field B (R42). -/
abbrev Imm := BitVec 7

/-- A value that can be read: kind rd of R45. -/
inductive Rd where
  | v (n : Vec)
  | s (n : Sreg)
  | zero
  | lane
  | cordid
  | stat
  deriving DecidableEq, Repr

/-- A written vector or scalar register: kind wr of R45. -/
inductive Wr where
  | v (n : Vec)
  | s (n : Sreg)
  deriving DecidableEq, Repr

/-- Operand B of a form whose literal policy is opt (R43). -/
inductive Src where
  | reg (r : Rd)
  | lit (x : Word)
  deriving DecidableEq, Repr

/-- Size modifiers of eyelet loads, in the order of their opcodes (R49). -/
inductive LdSize where
  | ub | sb | uh | sh | w | d
  deriving DecidableEq, Repr

/-- Size modifiers of eyelet stores, in the order of their opcodes (R49). -/
inductive StSize where
  | b | h | w | d
  deriving DecidableEq, Repr

/-- Size modifiers of pillow loads and stores, in the order of their opcodes (R49). -/
inductive PilSize where
  | w | d | q
  deriving DecidableEq, Repr

/-- The decode causes that an instruction word alone can raise (R51, orders 1 to 4). -/
inductive DecodeCause where
  | opcUnmapped | litStray | litMissing | opndKind
  deriving DecidableEq, Repr

/-- Why an eyelet last closed (R152). -/
inductive Reason where
  | none | close | shoot | disc | ecc | sys | fill
  deriving DecidableEq, Repr

/-- One register write of a fixed-latency or completed form: the destination is bound at issue (R96). -/
inductive RegWrite where
  | v (phys lane : Nat) (x : Word)
  | s (n : Nat) (x : Word)
  | k (n : Nat) (x : Word)
  | td (d w : Nat) (x : Word)
  deriving DecidableEq, Repr

/-- A chain in flight (R141 to R143): its descriptor as copied when it was checked, its literal and fpctl at issue,
the first element of the block in hand, its next operation and the running values of the block, the cycles in a row that
forms of the slot have held the vector unit, and the words of both input streams as they stood at issue. -/
structure ChainJob where
  words : List Word
  lit : Word
  fz : Byte
  j : Nat
  i : Nat
  t : List Word
  held : Nat
  in0 : List Word
  in1 : List Word
  deriving DecidableEq, Repr

/-- A store message on its way to the home of a line (R155): physical line number and bytes by offset, the eyelet that it was
sent through, and a number that grows with the issue order of its cord. -/
structure StoreMsg where
  core : Nat
  cord : Nat
  line : Nat
  bytes : List (Nat × Byte)
  eye : Nat := 0
  tok : Nat := 0
  deriving DecidableEq, Repr

/-- One lane of an atomic (R209): lane, byte offset, operand and the expected value of atomcas. -/
structure AtomLane where
  lane : Nat
  off : Nat
  b : Dword
  cmp : Dword
  deriving DecidableEq, Repr

/-- An atomic on its way to its home (R209 to R214); kind 0 atom, 1 atomcas, 2 atomred; eye and tok as in a store's message. -/
structure AtomReq where
  core : Nat
  cord : Nat
  line : Nat
  kind : Nat
  op : Nat
  ty : Nat
  lanes : List AtomLane
  dst : Option Wr
  wb : Nat
  acq : Bool
  flag : Option Flag
  sysAtomic : Bool
  eye : Nat := 0
  tok : Nat := 0
  deriving DecidableEq, Repr

/-- What a flushr or disc walks (R221, R222): runs of physical lines still to visit, the stamp of each home slice once the
flush has started, the requests to homes on other devices whose answers are awaited, by number and device, and, of a walk for
another device, that device with its number of the request and the whole range (R376, R377). -/
structure FlushJob where
  runs : List (Nat × Nat)
  stamps : Option (List (Nat × Nat)) := .none
  away : List (Nat × Nat) := []
  back : Option (Nat × Nat × List (Nat × Nat)) := .none
  deriving DecidableEq, Repr

/-- One addition to a bounded-sum region on its way to the picot cache (R228); gen is the definition of the region that it
is meant for (R239). -/
structure Addition where
  cord : Nat
  core : Nat
  ctx : Nat
  rgn : Nat
  addr : Nat
  val : Word
  tok : Nat
  gen : Nat
  deriving DecidableEq, Repr

/-- The reads of an acquire in flight (R156, R202, R203): the drains that its region lines force; what the acquire itself
returns, which is read first and at one moment (R204): whole lines that opens bring, and the halves that an ldl.acq reads; then
the other halves of open eyelets still to be read at their homes, and the halves and lines read. An eyelet is named by its
number and the token of its binding; true stands for the upper half. -/
structure Refresh where
  forced : Option (List (Nat × Nat × Nat))
  fills : List (Nat × Nat)
  first : List (Nat × Nat × Bool)
  todo : List (Nat × Nat × Bool)
  got : List (Nat × Nat × Bool × List Byte)
  lines : List (Nat × Nat × List Byte)
  deriving DecidableEq, Repr

/-- Who hears that additions were performed at a home (R230, R234). -/
inductive AddBack where
  | op (cord tok : Nat)
  | drain
  deriving DecidableEq, Repr

/-- FP32 additions to words of one granule, one line or one word, performed as one update (R228, R230, R309), with the
cluster and region they come from, a number that orders those of one cluster, the rollback group they work for, and the
queue of their launch (R378). owes names the additions that tripped the drain, by cord and token (R234). -/
structure HomeAdds where
  cl : Nat
  ctx : Nat
  rgn : Nat
  id : Nat
  by_ : Option (Nat × Nat)
  q : Option Nat
  adds : List (Nat × Word)
  back : AddBack
  owes : List (Nat × Nat) := []
  deriving DecidableEq, Repr

/-- One destination line of a drain on its way home (R309): whether its elements are added, their format, and
their encodings by byte offset. -/
structure DrainLine where
  line : Nat
  add : Bool
  fmt : Nat
  elems : List (Nat × Nat)
  deriving DecidableEq, Repr

/-- A piece of a bobbin command on its way (R252, R253): row and byte of the row, the source pieces still to read
(physical addresses, or pillow offsets) with their lengths, the bytes read, and where in memory they go (none: to
pillow, granule by granule from the byte `off`). -/
structure BobPiece where
  row : Nat
  off : Nat
  mem : Bool
  reads : List (Nat × Nat)
  got : List Byte
  dst : Option Nat
  deriving DecidableEq, Repr

/-- A memory write of the bobbin (R253): physical address, bytes, and the TYPE of a scadd. -/
structure BobWrite where
  addr : Nat
  bytes : List Byte
  add : Option Nat
  deriving DecidableEq, Repr

/-- What a tlbi waits for (R361): recalls, drains of cluster, context and region, and the matrix forms and bobbin
commands, by core and number, that translated the pages. -/
structure TlbiJob where
  rids : List Nat
  drains : List (Nat × Nat × Nat)
  forms : List (Nat × Nat)
  commands : List (Nat × Nat)
  deriving DecidableEq, Repr

/-- Where an uncorrectable error lies (R364). -/
inductive EccPlace where
  | registers (c : Nat)
  | eyelet (c e : Nat)
  | line (line : Nat)
  | granule (cl granule : Nat)
  | command (q : Nat)
  deriving DecidableEq, Repr

/-- What a host node does to memory: through an adapter to a device (R393), or to memory of its own (R394). An atomic is of
the kinds, operations and types of R209 to R213 on one word (R215). -/
inductive HostAccess where
  | read (addr n : Nat)
  | write (addr : Nat) (bytes : List Byte)
  | atomic (addr kind op ty : Nat) (b cmp : Dword)
  deriving DecidableEq, Repr

/-- A message that the fabric interfaces receive from another device (R377, R378, R381, R383, R392). A core of another
device is named 1,000 × (its device + 1) + its number there, and its cluster likewise; a region is named by the global
addresses of its 64 KiB pages. Of a recall, ids are those of the interface to its cores, once they are sent; of a fill,
first tells that the interface of the die held no line of the region before (R381), tol is the eyelet's tolerance in a
bounded-sum region with the pages of the region, and forced the drains that it has forced (R232). tolerate asks the master of
a region for what a read of a tolerance forces; add and update bring additions and drained lines to their home here. walk asks
the homes here to flush or to discard runs of lines, and walked is the answer of another device, with what its homes then hold
of the lines discarded. A write or store to a line of another device tells of its home there (log entry 57). -/
inductive RemoteMsg where
  | recall (line : Nat) (reason : Reason) (rid : Nat) (ids : Option (List Nat))
  | ack (rid : Nat)
  | fill (dev die line : Nat) (first : Bool) (tol : Option (Word × List Nat)) (forced : Option (List (Nat × Nat × Nat)))
  | leave (dev die line : Nat)
  | read (dev addr n : Nat)
  | write (dev addr : Nat) (bytes : List Byte)
  | store (m : StoreMsg)
  | atom (r : AtomReq)
  | add (u : HomeAdds)
  | update (dev : Nat) (x : DrainLine)
  | ownerLoss (dev core line : Nat) (words : Word)
  | lossAck (core line : Nat) (words : Word)
  | define (dev ctx : Nat) (phys : List Nat) (bnd dtol : Word)
  | free (dev ctx : Nat) (phys : List Nat)
  | shareRequest (cl : Nat) (phys : List Nat)
  | shareReturn (cl : Nat) (phys : List Nat) (units : Nat) (trim : Bool)
  | defined (ctx : Nat) (phys : List Nat) (status : Nat)
  | freed (ctx : Nat) (phys : List Nat)
  | grant (cl : Nat) (phys : List Nat) (units : Nat)
  | trim (cl : Nat) (phys : List Nat)
  | force (cl : Nat) (phys : List Nat)
  | tolerate (dev : Nat) (phys : List Nat) (tol : Word) (rid : Nat) (forced : Option (List (Nat × Nat × Nat)))
  | tolerated (rid : Nat)
  | query (dev cord tok : Nat) (phys : List Nat)
  | queried (cord tok : Nat) (x : Word)
  | walk (dev : Nat) (drop : Bool) (runs : List (Nat × Nat)) (rid : Nat)
  | walked (rid : Nat) (lines : List (Nat × List Byte))
  | signal (q : Nat) (t : Word)
  deriving DecidableEq, Repr

/-- A message that leaves the device for another device, a host adapter or the module's management controller (R377,
R378, R381, R383, R392, R393, R403, R407). -/
inductive OutMsg where
  | signal (q : Nat) (t : Word)
  | reply (bytes : List Byte)
  | done (line : Nat)
  | olds (line : Nat) (old : List (Nat × Dword))
  | notice (die line : Nat) (reason : Reason) (rid : Nat)
  | ack (line rid : Nat)
  | ownerLoss (core line : Nat) (words : Word)
  | lossAck (core line : Nat) (words : Word)
  | define (ctx : Nat) (phys : List Nat) (bnd dtol : Word)
  | free (ctx : Nat) (phys : List Nat)
  | shareRequest (cl : Nat) (phys : List Nat)
  | shareReturn (cl : Nat) (phys : List Nat) (units : Nat) (trim : Bool)
  | tolerate (phys : List Nat) (tol : Word) (rid : Nat)
  | tolerated (rid : Nat)
  | query (cord tok : Nat) (phys : List Nat)
  | queried (cord tok : Nat) (x : Word)
  | defined (ctx : Nat) (phys : List Nat) (status : Nat)
  | freed (ctx : Nat) (phys : List Nat)
  | grant (cl : Nat) (phys : List Nat) (units : Nat)
  | trim (cl : Nat) (phys : List Nat)
  | force (cl : Nat) (phys : List Nat)
  | walk (drop : Bool) (runs : List (Nat × Nat)) (rid : Nat)
  | walked (rid : Nat) (lines : List (Nat × List Byte))
  | health (record : List Word)
  | trip
  deriving DecidableEq, Repr

/-- A firmware image as it is read from the module (R404): its content, the digest and security version of its header,
and both signatures with the root keys they name. -/
structure Image where
  content : List Byte
  digest : BitVec 384
  version : Word
  ecdsa : List Byte
  ecdsaKey : List Byte
  lms : List Byte
  lmsKey : List Byte
  deriving DecidableEq, Repr

/-- A command of the debugger needle that acts on the device (R194, R315): a pattern loaded into a queue, a breakpoint
set or deleted, a cause to catch, the scoreboard to read, and run. -/
inductive NeedleCmd where
  | load (q : Nat)
  | setBreak (va : Dword)
  | delete (va : Dword)
  | catches (code : Nat)
  | board
  | run
  deriving DecidableEq, Repr

/-- The rows of spec/opcode_table.json. What an event acts on stands in an Event, not in its row. -/
inductive Instr where
  /-- NOP (R102): Does nothing; used as padding for distance bits. -/
  | nop
  /-- BRA (R99): Unconditional branch to a literal target, taking effect at the end of the clause. -/
  | bra (lit : Word)
  /-- BRK (R99): Branches each active lane whose bit is set in the mask register. -/
  | brk (k : Msk) (lit : Word)
  /-- BRZ (R99): Branches each active lane whose operand is zero. -/
  | brz (a : Rd) (lit : Word)
  /-- BRNZ (R99): Branches each active lane whose operand is not zero. -/
  | brnz (a : Rd) (lit : Word)
  /-- JMP (R99): Jumps each active lane to a 64-bit register address. -/
  | jmp (a b : Rd)
  /-- CALL (R99): Writes the fall-through address to D and branches to the literal target. -/
  | call (d : Wr) (lit : Word)
  /-- RET (R99): Branches each active lane to the 64-bit address held in the A pair. -/
  | ret (a : Rd)
  /-- MEET (R100): Sets the meeting register of each active lane to the literal address, or clears it. -/
  | meet (lit : Word)
  /-- JOIN (R100): Sets the cord's join mask from a mask register and tests the meeting release. -/
  | join (k : Msk)
  /-- LEAVE (R100): Removes the lanes of a mask register from the join mask and tests the meeting release. -/
  | leave (k : Msk)
  /-- WAITK (R100): Makes each active thread wait at its fall-through address until the threads of the mask have arrived. -/
  | waitk (k : Msk)
  /-- KSET (R101): Writes the literal mask, restricted to the active lanes, to a mask register. -/
  | kset (d : Msk) (lit : Word)
  /-- KMOV (R101): Copies one mask register to another. -/
  | kmov (d a : Msk)
  /-- KAND (R101): Writes the bitwise and of two mask registers. -/
  | kand (d a b : Msk)
  /-- KOR (R101): Writes the bitwise or of two mask registers. -/
  | kor (d a b : Msk)
  /-- KXOR (R101): Writes the bitwise exclusive or of two mask registers. -/
  | kxor (d a b : Msk)
  /-- KNOT (R101): Writes the bitwise inverse of a mask register. -/
  | knot (d a : Msk)
  /-- KPOP (R101): Writes the number of set bits of a mask register into each active lane. -/
  | kpop (d : Wr) (a : Msk)
  /-- ELECT (R101): Writes a mask holding only the lowest active set lane of the source mask. -/
  | elect (d a : Msk)
  /-- EXIT (R102): Ends the active threads at the end of the clause, as a release. -/
  | exit
  /-- YIELD (R102): Makes the cord the youngest in its issue slot. -/
  | yield
  /-- SLEEP (R102): Puts the active threads to sleep for 64 × n cycles from the end of the clause. -/
  | sleep (n : Imm)
  /-- WINB (R103): Sets the cord's register window base to 16 × n. -/
  | winb (n : Imm)
  /-- XACQ (R103): Requests n extended register blocks for the whole cord and stalls until they are granted. -/
  | xacq (n : Imm)
  /-- XREL (R103): Returns the cord's n highest extended register blocks to the pool. -/
  | xrel (n : Imm)
  /-- ADD (R110): Adds A and a register or literal B, modulo 2^W. -/
  | add (w : Bool) (d : Wr) (a : Rd) (b : Src)
  /-- SUB (R110): Subtracts a register or literal B from A. -/
  | sub (w : Bool) (d : Wr) (a : Rd) (b : Src)
  /-- MUL (R110): Writes the low W bits of the product. -/
  | mul (w : Bool) (d : Wr) (a : Rd) (b : Src)
  /-- MULH (R110): Writes the high W bits of the signed product. -/
  | mulh (w : Bool) (d : Wr) (a : Rd) (b : Src)
  /-- MAD (R110): Adds the product of A and B to D. -/
  | mad (w : Bool) (d : Wr) (a : Rd) (b : Src)
  /-- NEG (R111): Writes the two's-complement negation of A. -/
  | neg (w : Bool) (d : Wr) (a : Rd)
  /-- ABS (R111): Writes the absolute value of signed A. -/
  | abs (w : Bool) (d : Wr) (a : Rd)
  /-- MIN (R110): Writes the smaller operand as a signed value. -/
  | min (w : Bool) (d : Wr) (a : Rd) (b : Src)
  /-- MAX (R110): Writes the larger operand as a signed value. -/
  | max (w : Bool) (d : Wr) (a : Rd) (b : Src)
  /-- MINU (R110): Writes the smaller operand as an unsigned value. -/
  | minu (w : Bool) (d : Wr) (a : Rd) (b : Src)
  /-- MAXU (R110): Writes the larger operand as an unsigned value. -/
  | maxu (w : Bool) (d : Wr) (a : Rd) (b : Src)
  /-- AND (R110): Writes the bitwise and. -/
  | and (w : Bool) (d : Wr) (a : Rd) (b : Src)
  /-- OR (R110): Writes the bitwise or. -/
  | or (w : Bool) (d : Wr) (a : Rd) (b : Src)
  /-- XOR (R110): Writes the bitwise exclusive or. -/
  | xor (w : Bool) (d : Wr) (a : Rd) (b : Src)
  /-- NOT (R111): Writes the bitwise inverse of A. -/
  | not (w : Bool) (d : Wr) (a : Rd)
  /-- ANDN (R110): Writes A and not B. -/
  | andn (w : Bool) (d : Wr) (a : Rd) (b : Src)
  /-- SHL (R112): Shifts A left by the count in B. -/
  | shl (w : Bool) (d : Wr) (a : Rd) (b : Src)
  /-- SHR (R112): Shifts A right logically by the count in B. -/
  | shr (w : Bool) (d : Wr) (a : Rd) (b : Src)
  /-- SAR (R112): Shifts A right arithmetically by the count in B. -/
  | sar (w : Bool) (d : Wr) (a : Rd) (b : Src)
  /-- ROT (R112): Rotates A left by the count in B. -/
  | rot (w : Bool) (d : Wr) (a : Rd) (b : Src)
  /-- POPC (R111): Counts the set bits of A. -/
  | popc (w : Bool) (d : Wr) (a : Rd)
  /-- CLZ (R111): Counts the leading clear bits of A. -/
  | clz (w : Bool) (d : Wr) (a : Rd)
  /-- CTZ (R111): Counts the trailing clear bits of A. -/
  | ctz (w : Bool) (d : Wr) (a : Rd)
  /-- BREV (R111): Reverses the bits of A. -/
  | brev (w : Bool) (d : Wr) (a : Rd)
  /-- BFX (R113): Extracts a bit field of A, static or per lane, with optional sign extension. -/
  | bfx (w : Bool) (d : Wr) (a b : Rd) (lit : Word)
  /-- BFI (R113): Inserts the low bits of A into a bit field of D. -/
  | bfi (w : Bool) (d : Wr) (a b : Rd) (lit : Word)
  /-- PRMT (R114): Builds each result byte from a selected byte of A or B. -/
  | prmt (d : Wr) (a b : Rd) (lit : Word)
  /-- SEL (R115): Selects A or B per lane by a mask register bit. -/
  | sel (w : Bool) (d : Wr) (a b : Rd) (lit : Word)
  /-- CMP (R115): Compares A and B, writing 1 or 0 and optionally a mask register. -/
  | cmp (w : Bool) (d : Wr) (a b : Rd) (lit : Word)
  /-- CMPV (R115): Compares A and B, writing all ones or 0 and optionally a mask register. -/
  | cmpv (w : Bool) (d : Wr) (a b : Rd) (lit : Word)
  /-- MOV (R111): Copies A bit for bit. -/
  | mov (w : Bool) (d : Wr) (a : Rd)
  /-- MOVL (R111): Writes the 32-bit literal. -/
  | movl (d : Wr) (lit : Word)
  /-- LEA (R116): Forms a 64-bit address from a base pair, a scaled index and a displacement. -/
  | lea (d : Wr) (a b : Rd) (lit : Word)
  /-- DIVU (R117): Unsigned division in the slot's divide unit, with a fixed result on division by zero. -/
  | divu (w : Bool) (d : Wr) (a : Rd) (b : Src)
  /-- DIVS (R117): Signed division truncating toward zero. -/
  | divs (w : Bool) (d : Wr) (a : Rd) (b : Src)
  /-- REMU (R117): Unsigned remainder. -/
  | remu (w : Bool) (d : Wr) (a : Rd) (b : Src)
  /-- REMS (R117): Signed remainder with the sign of the dividend. -/
  | rems (w : Bool) (d : Wr) (a : Rd) (b : Src)
  /-- ADDC (R110): Writes the carry out of the unsigned sum of A and B. -/
  | addc (w : Bool) (d : Wr) (a : Rd) (b : Src)
  /-- ADD_IMM (R110): Adds an unsigned 7-bit immediate to A. -/
  | addImm (w : Bool) (d : Wr) (a : Rd) (n : Imm)
  /-- SUB_IMM (R110): Subtracts an unsigned 7-bit immediate from A. -/
  | subImm (w : Bool) (d : Wr) (a : Rd) (n : Imm)
  /-- MUL_IMM (R110): Multiplies A by a 7-bit immediate. -/
  | mulImm (w : Bool) (d : Wr) (a : Rd) (n : Imm)
  /-- MIN_IMM (R110): Signed minimum with a 7-bit immediate. -/
  | minImm (w : Bool) (d : Wr) (a : Rd) (n : Imm)
  /-- MAX_IMM (R110): Signed maximum with a 7-bit immediate. -/
  | maxImm (w : Bool) (d : Wr) (a : Rd) (n : Imm)
  /-- MINU_IMM (R110): Unsigned minimum with a 7-bit immediate. -/
  | minuImm (w : Bool) (d : Wr) (a : Rd) (n : Imm)
  /-- MAXU_IMM (R110): Unsigned maximum with a 7-bit immediate. -/
  | maxuImm (w : Bool) (d : Wr) (a : Rd) (n : Imm)
  /-- AND_IMM (R110): Bitwise and with a 7-bit immediate. -/
  | andImm (w : Bool) (d : Wr) (a : Rd) (n : Imm)
  /-- OR_IMM (R110): Bitwise or with a 7-bit immediate. -/
  | orImm (w : Bool) (d : Wr) (a : Rd) (n : Imm)
  /-- XOR_IMM (R110): Bitwise exclusive or with a 7-bit immediate. -/
  | xorImm (w : Bool) (d : Wr) (a : Rd) (n : Imm)
  /-- SHL_IMM (R112): Shifts left by an immediate count. -/
  | shlImm (w : Bool) (d : Wr) (a : Rd) (n : Imm)
  /-- SHR_IMM (R112): Shifts right logically by an immediate count. -/
  | shrImm (w : Bool) (d : Wr) (a : Rd) (n : Imm)
  /-- SAR_IMM (R112): Shifts right arithmetically by an immediate count. -/
  | sarImm (w : Bool) (d : Wr) (a : Rd) (n : Imm)
  /-- ROT_IMM (R112): Rotates left by an immediate count. -/
  | rotImm (w : Bool) (d : Wr) (a : Rd) (n : Imm)
  /-- FADD (R124): FP32 addition with round to nearest even. -/
  | fadd (d : Wr) (a : Rd) (b : Src)
  /-- FSUB (R124): FP32 subtraction. -/
  | fsub (d : Wr) (a : Rd) (b : Src)
  /-- FMUL (R124): FP32 multiplication. -/
  | fmul (d : Wr) (a : Rd) (b : Src)
  /-- FFMA (R124): FP32 fused multiply-add into D with one rounding. -/
  | ffma (d : Wr) (a : Rd) (b : Src)
  /-- FMIN (R124): FP32 minimum with −0 below +0. -/
  | fmin (d : Wr) (a : Rd) (b : Src)
  /-- FMAX (R124): FP32 maximum with −0 below +0. -/
  | fmax (d : Wr) (a : Rd) (b : Src)
  /-- FNEG (R125): Inverts bit 31 of A. -/
  | fneg (d : Wr) (a : Rd)
  /-- FABS (R125): Clears bit 31 of A. -/
  | fabs (d : Wr) (a : Rd)
  /-- FCMP (R126): Compares FP32 operands by a condition, writing a result and optionally a mask. -/
  | fcmp (d : Wr) (a b : Rd) (lit : Word)
  /-- FCLASS (R127): Writes the class mask of an FP32 value after operand flushing. -/
  | fclass (d : Wr) (a : Rd)
  /-- FRND (R128): Rounds FP32 A to an integral FP32 value by the mode in B. -/
  | frnd (d : Wr) (a : Rd) (n : Imm)
  /-- FDIV (R129): Correctly rounded FP32 division in the special-function unit. -/
  | fdiv (d : Wr) (a : Rd) (b : Src)
  /-- FRCP (R129): Correctly rounded FP32 reciprocal. -/
  | frcp (d : Wr) (a : Rd)
  /-- FRSQ (R129): Correctly rounded FP32 reciprocal square root. -/
  | frsq (d : Wr) (a : Rd)
  /-- FSQRT (R129): Correctly rounded FP32 square root. -/
  | fsqrt (d : Wr) (a : Rd)
  /-- FEXP2 (R129): Correctly rounded FP32 power of two. -/
  | fexp2 (d : Wr) (a : Rd)
  /-- FLOG2 (R129): Correctly rounded FP32 base-2 logarithm. -/
  | flog2 (d : Wr) (a : Rd)
  /-- FSIN (R129): Correctly rounded FP32 sine. -/
  | fsin (d : Wr) (a : Rd)
  /-- FCOS (R129): Correctly rounded FP32 cosine. -/
  | fcos (d : Wr) (a : Rd)
  /-- FTANH (R129): Correctly rounded FP32 hyperbolic tangent. -/
  | ftanh (d : Wr) (a : Rd)
  /-- DADD (R130): FP64 addition on register pairs. -/
  | dadd (d : Wr) (a : Rd) (b : Src)
  /-- DSUB (R130): FP64 subtraction. -/
  | dsub (d : Wr) (a : Rd) (b : Src)
  /-- DMUL (R130): FP64 multiplication. -/
  | dmul (d : Wr) (a : Rd) (b : Src)
  /-- DFMA (R130): FP64 fused multiply-add into D. -/
  | dfma (d : Wr) (a : Rd) (b : Src)
  /-- DMIN (R130): FP64 minimum. -/
  | dmin (d : Wr) (a : Rd) (b : Src)
  /-- DMAX (R130): FP64 maximum. -/
  | dmax (d : Wr) (a : Rd) (b : Src)
  /-- DCMP (R126): Compares FP64 operands by a condition. -/
  | dcmp (d : Wr) (a b : Rd) (lit : Word)
  /-- DDIV (R129): Correctly rounded FP64 division. -/
  | ddiv (d : Wr) (a b : Rd)
  /-- DSQRT (R129): Correctly rounded FP64 square root. -/
  | dsqrt (d : Wr) (a : Rd)
  /-- HADD2 (R131): Adds two packed FP16 pairs element by element. -/
  | hadd2 (d : Wr) (a : Rd) (b : Src)
  /-- HMUL2 (R131): Multiplies two packed FP16 pairs element by element. -/
  | hmul2 (d : Wr) (a : Rd) (b : Src)
  /-- HFMA2 (R131): Fused multiply-add on packed FP16 pairs into D. -/
  | hfma2 (d : Wr) (a : Rd) (b : Src)
  /-- SHFL (R134): Reads A from the source lane named in B. -/
  | shfl (d : Wr) (a : Rd) (b : Src)
  /-- SHFLD (R134): Reads A from a lane at a distance and mode given in B. -/
  | shfld (d : Wr) (a : Rd) (b : Src)
  /-- VOTE (R135): Computes a ballot, any, all or uniform vote across active lanes. -/
  | vote (d : Wr) (a : Rd) (lit : Word)
  /-- REDU (R137): Reduces the lanes in a fixed binary tree. -/
  | redu (d : Wr) (a : Rd) (lit : Word)
  /-- SCAN (R138): Computes an inclusive or exclusive prefix scan in a fixed order. -/
  | scan (d : Wr) (a : Rd) (lit : Word)
  /-- CHAIN (R141): Checks a pillow descriptor and starts a stream of up to eight FP32 element-wise operations. -/
  | chain (a : Rd) (lit : Word)
  /-- FPCR (R132): Reads fpctl. -/
  | fpcr (d : Wr)
  /-- FPCW (R132): Writes fpctl. -/
  | fpcw (a : Rd)
  /-- FPCS (R132): Sets bits of fpctl. -/
  | fpcs (a : Rd)
  /-- FPCC (R132): Clears bits of fpctl. -/
  | fpcc (a : Rd)
  /-- CVT (R73): Converts one value per lane between formats under a rounding mode. -/
  | cvt (d : Wr) (a b : Rd) (lit : Word)
  /-- CVTSC (R74): Scales by an E8 value and converts with one rounding. -/
  | cvtsc (d : Wr) (a b : Rd) (lit : Word)
  /-- PACK (R75): Converts A and B and packs both results into D at a position. -/
  | pack (d : Wr) (a b : Rd) (lit : Word)
  /-- UNPK (R76): Extracts and converts one element of a packed word. -/
  | unpk (d : Wr) (a b : Rd) (lit : Word)
  /-- SCFIND (R77): Computes one E8 scale per group of lanes from the largest FP32 magnitude. -/
  | scfind (d a : Vec) (b : Rd)
  /-- TCLASS (R78): Classifies the raw encoding of a format into a bit mask. -/
  | tclass (d : Wr) (a : Rd) (n : Imm)
  /-- OPEN (R150): Translates an address, binds its line to an eyelet and starts the fill. -/
  | openLine (d : Eye) (a b : Rd)
  /-- OPEN_ACQ (R150): Opens a line as an acquire, refreshing the cord's other eyelets. -/
  | openAcq (d : Eye) (a b : Rd)
  /-- OPENF (R151): Opens the distinct lines of the active lanes into a run of eyelets and writes selectors. -/
  | openf (d a : Vec) (b : Rd) (lit : Word)
  /-- CLOSE (R152): Closes an eyelet, cancelling any fill, and removes the sharer registration. -/
  | close (e : Eye)
  /-- EQRY (R152): Writes an eyelet's state, reason, permissions and address. -/
  | eqry (d : Wr) (e : Eye)
  /-- ERFR (R152): Refetches the unowned words of an eyelet from the home. -/
  | erfr (e : Eye)
  /-- LDL (R154): Loads from an eyelet at an immediate offset. -/
  | ldl (z : LdSize) (d : Wr) (e : Eye) (n : Imm)
  /-- LDL_REG (R154): Loads from an eyelet at a register offset. -/
  | ldlReg (z : LdSize) (d : Wr) (e : Eye) (b : Rd)
  /-- LDL_ACQ (R154): Acquires, then loads from an eyelet at an immediate offset. -/
  | ldlAcq (z : LdSize) (d : Wr) (e : Eye) (n : Imm)
  /-- LDL_ACQ_REG (R154): Acquires, then loads from an eyelet at a register offset. -/
  | ldlAcqReg (z : LdSize) (d : Wr) (e : Eye) (b : Rd)
  /-- LDLX (R154): Loads through a per-lane selected eyelet at an immediate offset. -/
  | ldlx (z : LdSize) (d : Wr) (a : Vec) (n : Imm)
  /-- LDLX_REG (R154): Loads through a per-lane selected eyelet at a register offset. -/
  | ldlxReg (z : LdSize) (d : Wr) (a : Vec) (b : Rd)
  /-- STL (R155): Stores into an eyelet at an immediate offset and sends the bytes to the home. -/
  | stl (z : StSize) (d : Rd) (e : Eye) (n : Imm)
  /-- STL_REG (R155): Stores into an eyelet at a register offset. -/
  | stlReg (z : StSize) (d : Rd) (e : Eye) (b : Rd)
  /-- STL_REL (R155): Stores as a release at an immediate offset. -/
  | stlRel (z : StSize) (d : Rd) (e : Eye) (n : Imm)
  /-- STL_REL_REG (R155): Stores as a release at a register offset. -/
  | stlRelReg (z : StSize) (d : Rd) (e : Eye) (b : Rd)
  /-- STLX (R155): Stores through a per-lane selected eyelet at an immediate offset. -/
  | stlx (z : StSize) (d : Rd) (a : Vec) (n : Imm)
  /-- STLX_REG (R155): Stores through a per-lane selected eyelet at a register offset. -/
  | stlxReg (z : StSize) (d : Rd) (a : Vec) (b : Rd)
  /-- LOCK (R163): Pins each named line at its home under the context's quota and writes a status per lane. -/
  | lock (d : Wr) (a b : Rd)
  /-- UNLK (R163): Releases the context's lock on each named line. -/
  | unlk (a b : Rd)
  /-- PREFL (R163): Starts a fetch of each named line into its home slice as a hint. -/
  | prefl (a b : Rd)
  /-- WAITC_LD (R208): Stalls the cord until ldcnt reads n or less. -/
  | waitcLd (n : Imm)
  /-- WAITC_ST (R208): Stalls the cord until stcnt reads n or less. -/
  | waitcSt (n : Imm)
  /-- ATOM (R212): Performs an atomic read-modify-write at the home and returns the old value. -/
  | atom (d : Wr) (e : Eye) (b : Rd) (lit : Word)
  /-- ATOMCAS (R213): Performs a compare-exchange at the home and returns the old value. -/
  | atomcas (d : Wr) (e : Eye) (b : Rd) (lit : Word)
  /-- ATOMRED (R214): Performs an atomic update at the home with no result. -/
  | atomred (e : Eye) (b : Rd) (lit : Word)
  /-- SEAL (R216): Closes each lane's copy batch and returns its number. -/
  | sealBatch (d : Wr)
  /-- WAITB (R216): Waits until the named copy batches are complete, then refreshes. -/
  | waitb (a : Rd)
  /-- FLUSHR (R221): Writes dirty lines of a range back to backing memory. -/
  | flushr (a b : Rd) (lit : Word)
  /-- DISC (R222): Discards the dirty data of a range at its homes after recalling sharers. -/
  | disc (a b : Rd) (lit : Word)
  /-- TSTV (R219): Writes an eyelet's VOK and VTRY from its last versioned open. -/
  | tstv (d : Wr) (e : Eye)
  /-- OPENV (R218): Opens a versioned run of lines as an acquire, retrying until stable. -/
  | openv (d : Eye) (a b : Rd)
  /-- BSDEF (R238): Defines a bounded-sum region at its master. -/
  | bsdef (d : Wr) (a b : Rd) (lit : Word)
  /-- BSFREE (R239): Drains every holder of a region and removes it. -/
  | bsfree (a : Rd)
  /-- OPENT (R240): Opens a line with a tolerance for bounded-sum reads. -/
  | opent (d : Eye) (a b : Rd) (lit : Word)
  /-- VADS (R241): Sends one FP32 addition per lane into a bounded-sum region. -/
  | vads (d : Rd) (e : Eye) (b : Rd)
  /-- BSDRN (R242): Drains the cluster's picot cache for the named regions. -/
  | bsdrn (a : Rd)
  /-- BSQRY (R243): Reads a region record or the cluster's share. -/
  | bsqry (d : Wr) (a : Rd) (lit : Word)
  /-- LDP (R173): Loads from the motif's pillow. -/
  | ldp (z : PilSize) (d : Wr) (a : Rd) (n : Imm)
  /-- LDP_WF_TAKE (R172): Wait-full pillow load that clears the full-empty bits it reads and acquires. -/
  | ldpWfTake (z : PilSize) (d : Wr) (a : Rd) (n : Imm)
  /-- LDP_WF_PEEK (R172): Wait-full pillow load that leaves the full-empty bits and acquires. -/
  | ldpWfPeek (z : PilSize) (d : Wr) (a : Rd) (n : Imm)
  /-- STP (R174): Stores into the motif's pillow at one moment for all lanes. -/
  | stp (z : PilSize) (d : Rd) (a : Rd) (n : Imm)
  /-- FESET (R175): Sets the full-empty bit of each named granule. -/
  | feset (a : Rd) (n : Imm)
  /-- FECLR (R175): Clears the full-empty bit of each named granule. -/
  | feclr (a : Rd) (n : Imm)
  /-- FEQRY (R175): Reads the full-empty bit of each lane's granule. -/
  | feqry (d : Wr) (a : Rd) (n : Imm)
  /-- BARA (R180): Registers an arrival on a named barrier and continues. -/
  | bara (b : Bar) (n : Imm)
  /-- BARW (R180): Registers an arrival and waits for the phase to complete. -/
  | barw (b : Bar) (n : Imm)
  /-- BARX (R180): Arrives with the fixed count, counted at issue, without a release. -/
  | barx (b : Bar)
  /-- BARQ (R181): Reads a barrier's phase, expected count and arrivals. -/
  | barq (d : Wr) (b : Bar)
  /-- SRACQ (R187): Grants the next stage ring slot to a producer cord. -/
  | sracq (d : Wr) (q : Ring)
  /-- SRPUB (R188): Publishes an acquired ring slot as a release. -/
  | srpub (q : Ring) (b : Rd)
  /-- SRWAIT (R188): Waits until a ring slot is published in a phase, then acquires. -/
  | srwait (q : Ring) (b : Rd)
  /-- SRFREE (R188): Frees a published ring slot once the cord's pillow loads have read. -/
  | srfree (q : Ring) (b : Rd)
  /-- SRQRY (R189): Reads a stage ring's state. -/
  | srqry (d : Wr) (q : Ring)
  /-- PEERARR (R184): Registers an arrival on a barrier of another motif on the cluster. -/
  | peerarr (k : Bar) (b : Rd) (lit : Word)
  /-- TDSET (R274): Copies eight scalar registers into a tile descriptor. -/
  | tdset (d : Td) (a : Sreg)
  /-- TDMOD (R275): Writes one descriptor word or adds to BASE or SCALE. -/
  | tdmod (d : Td) (a : Rd) (n : Imm)
  /-- TDQ (R276): Reads one tile descriptor word. -/
  | tdq (d : Wr) (t : Td) (n : Imm)
  /-- AZERO (R288): Queues a clear of an accumulator and its side registers. -/
  | azero (d : Acc)
  /-- ALD (R289): Queues a load of two accumulator rows or side registers from vector registers. -/
  | ald (d : Acc) (a : Vec) (n : Imm)
  /-- AST (R290): Queues a store of two accumulator rows or side registers to vector registers. -/
  | ast (d : Vec) (a : Acc) (n : Imm)
  /-- APROM (R291): Queues a promotion of a float accumulator. -/
  | aprom (d : Acc)
  /-- ACVT (R292): Queues a conversion of an accumulator to another mode. -/
  | acvt (d : Acc) (n : Imm)
  /-- MMA (R280): Checks and translates two tile descriptors and queues a 64 × 64 tile multiply. -/
  | mma (d : Acc) (a b : Td)
  /-- MMA_ACC (R306): Queues a multiply whose A operand is another accumulator converted on read. -/
  | mmaAcc (d a : Acc) (b : Td)
  /-- MMAS (R301): Queues a 4:8 sparse multiply after checking its metadata. -/
  | mmas (d : Acc) (a b : Td) (lit : Word)
  /-- MMAST (R301): Queues a transposed 4:8 sparse multiply after checking transposability. -/
  | mmast (d : Acc) (a b : Td) (lit : Word)
  /-- AMAXU (R304): Queues an online softmax step updating row maxima, probabilities and sums. -/
  | amaxu (d : Acc)
  /-- ARSC (R305): Queues a rescale of an output tile by the score tile's maximum change. -/
  | arsc (d a : Acc)
  /-- ADRN (R309): Queues a drain of an accumulator to memory as store, add or withheld add. -/
  | adrn (a : Acc) (b : Td) (lit : Word)
  /-- CMPR (R297): Compresses each lane's group of eight bytes to four kept values and metadata. -/
  | cmpr (d a b : Vec)
  /-- MTCHK (R298): Checks four blocks of metadata for well-formedness and transposability. -/
  | mtchk (d : Wr) (a : Vec)
  /-- LAUNCH (R338): Translates a launch record and, as a release, enqueues it on a queue of the device. -/
  | launch (d : Wr) (a b : Rd)
  /-- POST (R339): Combines a value into the pattern's result word at its home as a release. -/
  | post (a : Rd) (n : Imm)
  /-- PHADV (R337): Advances the context's eviction phase counter. -/
  | phadv (n : Imm)
  /-- IDEND (R336): Ends the motif's discardable idempotent prefix. -/
  | idend
  /-- TRAP (R354): Raises the software trap with number n. -/
  | trap (n : Imm)
  /-- RTE (R349): Returns from a trap handler at the end of the clause, resuming the recorded clause. -/
  | rte
  /-- CSRR (R353): Reads a control register. -/
  | csrr (d : Wr) (lit : Word)
  /-- CSRW (R353): Writes a control register. -/
  | csrw (a : Rd) (lit : Word)
  /-- CSRS (R353): Sets bits of a control register. -/
  | csrs (a : Rd) (lit : Word)
  /-- CSRC (R353): Clears bits of a control register. -/
  | csrc (a : Rd) (lit : Word)
  /-- BOBQ (R263): Reads the motif's bobbin ring state, drop counter, fault status or journal use. -/
  | bobq (d : Wr) (q : Fin 4)
  /-- DTLD (R362): Reads the context's decode table on this core. -/
  | dtld
  /-- TLBI (R361): Invalidates translations and recalls eyelets on pages, with system privilege. -/
  | tlbi (a b : Rd)
  /-- BRKPT (R355): Stops the cord when the core is armed by the debugger, otherwise raises bkpt. -/
  | brkpt (n : Imm)
  /-- HALT (R356): Stops every thread of the cord until the debug path resumes it. -/
  | halt
  /-- ARED (R388): Joins a domain-wide reduction of a pillow buffer as a release. -/
  | ared (d : Wr) (a b : Rd) (lit : Word)
  /-- ACOL (R391): Joins a collective over memory buffers described in pillow. -/
  | acol (a b : Rd) (lit : Word)
  /-- RSIG (R392): As a release, writes a new QTAIL to a queue on another device. -/
  | rsig (a b : Rd) (lit : Word)
  /-- CLAUSE_START (R82): A PC group whose header wait flags read zero fetches and checks its clause header and starts issuing. -/
  | clauseStart
  /-- CLAUSE_END (R85): After the last slot issues, transfer decisions take effect and the cord regroups and rotates. -/
  | clauseEnd
  /-- CORD_URGENT (R88): A cord eligible and unchosen for 48 counted cycles becomes urgent. -/
  | cordUrgent
  /-- SLEEP_EXPIRY (R102): A sleeping thread becomes ready after its 64 × n cycles. -/
  | sleepExpiry
  /-- XACQ_GRANT (R97): Pending extended-block requests are granted whole in request order once blocks are free. -/
  | xacqGrant
  /-- FIXED_LATENCY_WRITE (R83): A fixed-latency result is written to its register H cycles after issue. -/
  | fixedLatencyWrite
  /-- DIVIDE_COMPLETE (R118): A divide writes its lanes and decrements its flag 24 or 40 cycles after entering the unit. -/
  | divideComplete
  /-- SPECIAL_FUNCTION_COMPLETE (R122): A special-function form writes its result and decrements its flag after its result time. -/
  | specialFunctionComplete
  /-- CHAIN_COMPLETE (R143): The chain sequencer finishes writing the output stream and decrements the flag. -/
  | chainComplete
  /-- PAGE_WALK_END (R146): A page-table walk ends with a translation or fault, releasing the held issue slot. -/
  | pageWalkEnd
  /-- FILL_COMPLETE (R147): A line fill arrives, the eyelet becomes open, ldcnt falls and the flag decrements. -/
  | fillComplete
  /-- FILL_FAILURE (R148): A fill fails, leaving the eyelet closed with reason ECC or FILL and decrementing the flag. -/
  | fillFailure
  /-- ERFR_COMPLETE (R152): An eyelet refresh writes the unowned words and completes. -/
  | erfrComplete
  /-- ACQUIRE_COMPLETE (R202): The refreshes of an acquire finish and the acquiring form completes. -/
  | acquireComplete
  /-- OPENV_ATTEMPT_END (R218): An openv attempt compares its version words and retries or completes. -/
  | openvAttemptEnd
  /-- RECALL_AT_CORE (R157): A recall closes the eyelets of a line with a reason and cancels fills and refreshes. -/
  | recallAtCore
  /-- RECALL_ACK (R158): The core acknowledges a recall once the home has acknowledged every earlier store. -/
  | recallAck
  /-- DEBUG_RECALL (R373): needle recalls an eyelet of a held cord through the debug path with reason SYS. -/
  | debugRecall
  /-- STORE_AT_HOME (R200): A store message reaches its home, which notifies the owner if needed and performs it. -/
  | storeAtHome
  /-- OWNER_LOSS_NOTICE (R200): A core receives an owner-loss notice, clears the word's OWN bits and acknowledges. -/
  | ownerLossNotice
  /-- STORE_ACK (R196): A home acknowledgement of a store, atomic, vads, adrn line or post lowers stcnt. -/
  | storeAck
  /-- ATOMIC_AT_HOME (R209): The home's update unit performs an atomic's lanes as one indivisible update. -/
  | atomicAtHome
  /-- ATOMIC_RESULT (R212): An atomic's result returns, updating D and the eyelet copies and decrementing ldcnt and the flag. -/
  | atomicResult
  /-- RELEASE_TAKES_EFFECT (R201): A pending release takes effect once stcnt reads 0 and earlier pillow accesses are performed. -/
  | releaseTakesEffect
  /-- WAIT_FULL_LOAD_SERVICE (R172): A pending wait-full load whose granules are all full reads them, optionally empties them, and acquires. -/
  | waitFullLoadService
  /-- PILLOW_LOAD_RESULT (R173): A plain pillow load or feqry writes its result 13 + P or 14 cycles after issue. -/
  | pillowLoadResult
  /-- LOCK_COMPLETE (R163): A lock completes once every line it locked is present in its slice. -/
  | lockComplete
  /-- FLUSHR_COMPLETE (R221): The flush walker has written back and had acknowledged every stamped dirty line. -/
  | flushrComplete
  /-- DISC_AT_HOME (R222): A discard reaches a line's home, which recalls every eyelet holding it. -/
  | discAtHome
  /-- DISC_DROP (R222): After every recall acknowledgement the home drops the line's dirty data. -/
  | discDrop
  /-- TLBI_COMPLETE (R361): Invalidation, recalls, drains and dependent work have finished and the flag decrements. -/
  | tlbiComplete
  /-- DTLD_COMPLETE (R362): The decode table has been read and takes effect. -/
  | dtldComplete
  /-- ADDITION_AT_PICOT (R228): An addition reaches the cluster's picot cache and is withheld, passed through or starts a drain. -/
  | additionAtPicot
  /-- PASS_THROUGH_ADD (R228): A passed-through addition or drained granule is performed at the home. -/
  | passThroughAdd
  /-- PICOT_DRAIN_COMPLETE (R230): Every home has acknowledged a drain; the share returns to the master and T clears. -/
  | picotDrainComplete
  /-- SHARE_REQUEST (R231): The master receives a share request, trims if needed and grants or refuses. -/
  | shareRequest
  /-- SHARE_GRANT (R231): A picot cache receives its share and starts withholding. -/
  | shareGrant
  /-- TRIM (R231): A holder receives a trim and returns units beyond its tracker. -/
  | trim
  /-- SHARE_RETURN (R231): The master receives returned units. -/
  | shareReturn
  /-- FORCED_DRAIN (R232): A holder receives a forced drain from the master for a tolerant read. -/
  | forcedDrain
  /-- TOLERANT_READ_SERVICE (R232): Once forced drains complete, the home serves a fill or refresh of a region line. -/
  | tolerantReadService
  /-- REGION_TABLE_UPDATE_COMPLETE (R227): A bsdef or bsfree has reached every core of the context and its flag decrements. -/
  | regionTableUpdateComplete
  /-- BSQRY_RESULT (R243): The region record read at the master returns and the flag decrements. -/
  | bsqryResult
  /-- BOBBIN_TAKE (R249): The bobbin takes a published command into a free journal entry and starts it. -/
  | bobbinTake
  /-- BOBBIN_PAGE_REACH (R255): A command first reaches a page and translates it through the open TLB. -/
  | bobbinPageReach
  /-- BOBBIN_INDEX_READ (R253): The bobbin reads eight index-list entries at one moment and drops out-of-range indices. -/
  | bobbinIndexRead
  /-- BOBBIN_DATA_RETURN (R253): Read data returns and the bobbin writes pillow granules or sends memory writes. -/
  | bobbinDataReturn
  /-- BOBBIN_WRITE_ACK (R256): A home acknowledges a bobbin memory write. -/
  | bobbinWriteAck
  /-- BOBBIN_COMPLETION_RECORD (R256): A complete command, in sequence order, writes its status, raises DONE and DROPS, arrives and completes batches. -/
  | bobbinCompletionRecord
  /-- TAMBOUR_FORM_START (R277): The form at the queue head starts when the array is free, operands fetched and a token granted. -/
  | tambourFormStart
  /-- TILE_FETCH_LINE (R282): An operand line arrives at the tile fetch unit and is pinned if possible. -/
  | tileFetchLine
  /-- TAMBOUR_OCCUPANCY_END (R282): A form leaves the array and its pins are released. -/
  | tambourOccupancyEnd
  /-- TAMBOUR_FORM_COMPLETE (R277): A matrix form writes its results and decrements its flag. -/
  | tambourFormComplete
  /-- ADRN_LINE_ACK (R310): A drained line is acknowledged or withheld; when all are, stcnt and the flag fall. -/
  | adrnLineAck
  /-- ADRN_VERSION_PERFORMED (R311): An all-or-nothing drain's version update is performed, letting the next phase proceed. -/
  | adrnVersionPerformed
  /-- POST_AT_HOME (R339): The result word's home combines a posted value by RMODE. -/
  | postAtHome
  /-- QTAIL_WRITE (R317): A write of QTAIL enqueues records unless it exceeds room or moves back. -/
  | qtailWrite
  /-- QUEUE_SUSPEND (R331): Setting SUSP pre-empts and holds the queue's running pattern. -/
  | queueSuspend
  /-- QUEUE_UNSUSPEND (R318): Clearing SUSP lets the queue's saved motifs be released again. -/
  | queueUnsuspend
  /-- RECORD_TAKE (R323): The command processor takes the record at QHEAD of a chosen startable queue and checks it. -/
  | recordTake
  /-- RECORD_START (R324): Once scoreboard space is free, the record starts and its result word is cleared. -/
  | recordStart
  /-- MOTIF_PLACEMENT (R326): A releasable motif is offered to cores in rotation and placed on the first that admits it. -/
  | motifPlacement
  /-- MOTIF_SAVE (R357): Once in-flight work, bobbin commands and counters have settled, the motif is saved or discarded. -/
  | motifSave
  /-- MOTIF_RETIREMENT (R329): After its cords end and its stores, commands and drains complete, the motif retires as a release. -/
  | motifRetirement
  /-- PATTERN_COMPLETION (R330): After the last retirement and drains, the result is read, a successor chosen and STATUS written. -/
  | patternCompletion
  /-- SUCCESSOR_ENQUEUE (R330): The chosen successor record is copied into its queue once there is room. -/
  | successorEnqueue
  /-- KNOT_DETECTOR_READING (R191): Every 16,384 cycles the knot detector reads every blkst and the pricking scoreboards. -/
  | knotDetectorReading
  /-- TRAP_ENTRY (R345): After earlier work completes, the trap record is written, other threads parked and the handler entered. -/
  | trapEntry
  /-- ASYNC_TRAP_DELIVERY (R350): A pending knot, bob_fault or topo is delivered at the cord's next issue point. -/
  | asyncTrapDelivery
  /-- PIPE_ERR (R363): A residue or parity checker mismatch kills the launch. -/
  | pipeErr
  /-- ECC_UNCORRECTABLE (R364): An uncorrectable error is detected and handled by where it lies. -/
  | eccUncorrectable
  /-- CORRECTABLE_ERROR (R364): A correctable error is corrected in place and counted. -/
  | correctableError
  /-- LAUNCH_KILL_FINISH (R366): After in-flight work and drains, the killed record's STATUS is written and QHEAD advances. -/
  | launchKillFinish
  /-- CONTEXT_KILL (R366): Writing KILL stops every cord of the context and disables its queues. -/
  | contextKill
  /-- CTXEV_CLEAR (R359): Writing 1 to a CTXEV bit clears that event. -/
  | ctxevClear
  /-- CLUSTER_LEAVES_SERVICE (R370): A defective core takes its cluster out of service, pre-empting its motifs. -/
  | clusterLeavesService
  /-- SCHEDULE_ENTRY_WRITE (R164): A write of an eviction schedule entry's word 0 with V set makes the entry take effect. -/
  | scheduleEntryWrite
  /-- AR_ROUND_COMPLETE (R388): Every member of a round has joined; the reduction is written and the calls acquire. -/
  | arRoundComplete
  /-- AR_ROUND_TIMEOUT (R385): A round not gathered within TMO ends with status 5. -/
  | arRoundTimeout
  /-- ACOL_COMPLETE (R391): Every destination line of a collective is acknowledged and STATUS is written. -/
  | acolComplete
  /-- LINK_CRC_RETRY (R375): A flit failing its link CRC is sent again on the same link. -/
  | linkCrcRetry
  /-- LINK_FAILURE (R375): A failed link is removed from routing. -/
  | linkFailure
  /-- DESTINATION_UNREACHABLE (R378): Outstanding and new messages to an unreachable destination fail. -/
  | destinationUnreachable
  /-- REMOTE_NOTICE (R381): A fabric interface receives a recall, discard or lost-mark notice and passes it to its cores. -/
  | remoteNotice
  /-- HOST_ACCESS (R393): A host read or write arrives through a host adapter, in path order. -/
  | hostAccess
  /-- ADAPTER_ATOMIC (R215): The host adapter performs a device atomic on a host word. -/
  | adapterAtomic
  /-- REGISTER_WRITE (R316): A write to a device register with no behaviour of its own stores its fields. -/
  | registerWrite
  /-- RESET (R396): Reset starts bring-up. -/
  | reset
  /-- FIRMWARE_VERIFY_DONE (R404): Firmware image verification ends, moving to CALIB or FAILED. -/
  | firmwareVerifyDone
  /-- CALIBRATION_DONE (R396): Clock, bridge, DRAM and link training end. -/
  | calibrationDone
  /-- INIT_DONE (R396): Memory zeroing and core tests end, entering EARLY with ERDY set. -/
  | initDone
  /-- LPDDR_TRAINING_DONE (R396): LPDDR-6 training and zeroing end, ready for full service. -/
  | lpddrTrainingDone
  /-- BRINGUP_TIMEOUT (R396): A bring-up step exceeds its bound. -/
  | bringupTimeout
  /-- POWER_WINDOW (R401): At each 1 µs window boundary tokens are granted and power limits applied. -/
  | powerWindow
  /-- PWRCTL_WRITE (R402): A PWRCTL write saturates its limits and applies at the next window. -/
  | pwrctlWrite
  /-- THERMAL_THROTTLE (R403): Temperature reaching TLIM cuts grants to 8 tokens. -/
  | thermalThrottle
  /-- CLOCK_HALVE (R403): Temperature reaching TLIM + 5 °C halves the clock and sets THR. -/
  | clockHalve
  /-- THR_CLEAR (R403): THR clears after THOT stays below TLIM for 1 ms. -/
  | thrClear
  /-- THERMAL_TRIP (R403): At 115 °C every clock stops and the device enters TRIPPED. -/
  | thermalTrip
  /-- POWER_REMOVAL (R400): Removing power loses all device state. -/
  | powerRemoval
  /-- ATTESTATION_REQUEST (R405): Writing BUSY in ATTREQ starts an attestation report. -/
  | attestationRequest
  /-- ATTESTATION_COMPLETE (R405): The signed report is written and BUSY clears. -/
  | attestationComplete
  /-- DEBUG_RESUME (R356): The debug path resumes a halted or breakpoint-stopped cord at the next slot. -/
  | debugResume
  /-- ILLEGAL_WORD_ISSUE (R51): A slot whose instruction word matches no legal form reaches issue and raises opc_unmapped, lit_stray, lit_missing or opnd_kind with no effect. -/
  | illegalWordIssue
  /-- HLTHBASE_WRITE (R406): A write of HLTHBASE sets the health ring and makes the controller write the kind-4 records owed for clusters left out of service at bring-up. -/
  | hlthbaseWrite
  /-- PREFL_FETCH_COMPLETE (R163): A line fetched by prefl arrives in its home slice, which chooses a victim way for it. -/
  | preflFetchComplete
  deriving DecidableEq, Repr

/-- A machine event with what it is about: which cord, line, form or register. The event's row of the opcode
table is its constructor of Instr. -/
inductive Event where
  | clauseStart (c : Nat)
  | clauseEnd (c : Nat)
  | cordUrgent (c : Nat)
  | sleepExpiry (c l : Nat)
  | xacqGrant (core : Nat)
  | fixedLatencyWrite (c : Nat) (ws : List RegWrite)
  | divideComplete (c : Nat) (f : Flag) (ws : List RegWrite)
  | specialFunctionComplete (c : Nat) (f : Flag) (ws : List RegWrite)
  | chainComplete (c : Nat) (f : Flag) (job : ChainJob)
  | pageWalkEnd (c : Nat) (pages : List Nat)
  | fillComplete (c e tok : Nat) (lo hi : Option (List Byte))
  | fillFailure (c e tok : Nat) (reason : Reason)
  | erfrComplete (c e tok : Nat) (lo hi : Option (List Byte))
  | acquireComplete (c tok : Nat) (r : Refresh)
  | openvAttemptEnd (c tok : Nat)
  | recallAtCore (core line : Nat) (reason : Reason) (rid : Nat)
  | recallAck (rid upto : Nat) (only : Option (Nat × Nat))
  | debugRecall (c e : Nat)
  | storeAtHome (m : StoreMsg)
  | ownerLossNotice (core line : Nat) (words : Word)
  | storeAck (c line eye tok : Nat)
  | atomicAtHome (r : AtomReq)
  | atomicResult (r : AtomReq) (olds : List (Nat × Dword)) (cells : List (Nat × Byte))
  | releaseTakesEffect (c : Nat)
  | waitFullLoadService (m k : Nat)
  | pillowLoadResult (c : Nat) (f : Flag) (ws : List RegWrite)
  | lockComplete (c : Nat) (f : Flag) (ws : List RegWrite)
  | flushrComplete (c : Nat) (f : Flag) (job : FlushJob)
  | discAtHome (c : Nat) (f : Flag) (job : FlushJob)
  | discDrop (c : Nat) (f : Flag) (job : FlushJob) (rids : List Nat)
  | tlbiComplete (c : Nat) (f : Flag) (job : TlbiJob)
  | dtldComplete (c : Nat) (f : Flag) (pa : Option Nat) (core ctx : Nat)
  | additionAtPicot (x : Addition)
  | passThroughAdd (u : HomeAdds)
  | picotDrainComplete (cl ctx rgn : Nat)
  | shareRequest (cl ctx rgn : Nat)
  | shareGrant (cl ctx rgn units : Nat)
  | trim (cl ctx rgn : Nat)
  | shareReturn (cl ctx rgn units : Nat) (trim : Bool) (ws : List (Nat × Nat))
  | forcedDrain (cl ctx rgn upto : Nat) (ws : List (Nat × Nat))
  | tolerantReadService (c e tok : Nat) (forced : Option (List (Nat × Nat × Nat)))
  | regionTableUpdateComplete (c : Nat) (f : Flag) (ctx rgn : Nat) (ws : List RegWrite)
  | bsqryResult (c : Nat) (f : Flag) (ctx rgn sel : Nat) (ws : List RegWrite)
  | bobbinTake (core : Nat)
  | bobbinPageReach (core j va : Nat) (w : Bool)
  | bobbinIndexRead (core j : Nat)
  | bobbinDataReturn (core j : Nat) (x : BobPiece)
  | bobbinWriteAck (core j : Nat) (x : Option BobWrite)
  | bobbinCompletionRecord (m : Nat)
  | tambourFormStart (core : Nat)
  | tileFetchLine (core q half : Nat) (forced : Option (List (Nat × Nat × Nat)))
  | tambourOccupancyEnd (core q : Nat)
  | tambourFormComplete (core q : Nat)
  | adrnLineAck (core q : Nat) (x : Option DrainLine)
  | adrnVersionPerformed (core q : Nat)
  | postAtHome (c : Nat) (f : Flag) (v : Word) (b0 : Bool)
  | qtailWrite (q : Nat) (t : Word)
  | queueSuspend (q : Nat)
  | queueUnsuspend (q : Nat)
  | recordTake (q : Nat)
  | recordStart (q : Nat)
  | motifPlacement (q idx : Nat)
  | motifSave (m : Nat)
  | motifRetirement (m : Nat)
  | patternCompletion (q : Nat)
  | successorEnqueue (q : Nat)
  | knotDetectorReading
  | trapEntry (c : Nat)
  | asyncTrapDelivery (c : Nat)
  | pipeErr (c slot checker : Nat)
  | eccUncorrectable (w : EccPlace)
  | correctableError (unit : Word)
  | launchKillFinish (q code : Nat)
  | contextKill (ctx : Nat)
  | ctxevClear (ctx : Nat) (bits : Word)
  | clusterLeavesService (cl : Nat)
  | scheduleEntryWrite (slice : Option Nat) (i : Nat) (w0 : Dword)
  | arRoundComplete (g k : Nat)
  | arRoundTimeout (g k : Nat)
  | acolComplete (g k : Nat)
  | linkCrcRetry (link : Nat)
  | linkFailure (link : Nat)
  | destinationUnreachable (dev : Nat)
  | remoteNotice (x : RemoteMsg)
  | hostAccess (adapter : Nat) (x : HostAccess)
  | adapterAtomic (r : AtomReq) (olds : Option (List (Nat × Dword)))
  | registerWrite (addr : Nat) (v : Dword)
  | mappingChange (page : Nat) (spread : Bool)
  | loaderVector (ctx : Nat) (v : Dword)
  | reset
  | firmwareVerifyDone
  | calibrationDone (failure : Nat) (links : Nat)
  | initDone (failure : Nat) (good : Dword)
  | lpddrTrainingDone (channels : Nat)
  | bringupTimeout (stage : Nat)
  | powerWindow (pavg thot : Nat)
  | pwrctlWrite (v : Word)
  | thermalThrottle (t : Nat)
  | clockHalve (t : Nat)
  | thrClear
  | thermalTrip
  | powerRemoval
  | attestationRequest (v : Dword)
  | attestationComplete
  | debugResume (c : Nat)
  | needle (x : NeedleCmd)
  | illegalWordIssue (cause : DecodeCause) (word : Word)
  | hlthbaseWrite (v : Dword)
  | preflFetchComplete (line : Nat)
  deriving DecidableEq, Repr

/-- The row of the opcode table that an event is an occurrence of. -/
def Event.row : Event → Instr
  | .clauseStart .. => .clauseStart
  | .clauseEnd .. => .clauseEnd
  | .cordUrgent .. => .cordUrgent
  | .sleepExpiry .. => .sleepExpiry
  | .xacqGrant .. => .xacqGrant
  | .fixedLatencyWrite .. => .fixedLatencyWrite
  | .divideComplete .. => .divideComplete
  | .specialFunctionComplete .. => .specialFunctionComplete
  | .chainComplete .. => .chainComplete
  | .pageWalkEnd .. => .pageWalkEnd
  | .fillComplete .. => .fillComplete
  | .fillFailure .. => .fillFailure
  | .erfrComplete .. => .erfrComplete
  | .acquireComplete .. => .acquireComplete
  | .openvAttemptEnd .. => .openvAttemptEnd
  | .recallAtCore .. => .recallAtCore
  | .recallAck .. => .recallAck
  | .debugRecall .. => .debugRecall
  | .storeAtHome .. => .storeAtHome
  | .ownerLossNotice .. => .ownerLossNotice
  | .storeAck .. => .storeAck
  | .atomicAtHome .. => .atomicAtHome
  | .atomicResult .. => .atomicResult
  | .releaseTakesEffect .. => .releaseTakesEffect
  | .waitFullLoadService .. => .waitFullLoadService
  | .pillowLoadResult .. => .pillowLoadResult
  | .lockComplete .. => .lockComplete
  | .flushrComplete .. => .flushrComplete
  | .discAtHome .. => .discAtHome
  | .discDrop .. => .discDrop
  | .tlbiComplete .. => .tlbiComplete
  | .dtldComplete .. => .dtldComplete
  | .additionAtPicot .. => .additionAtPicot
  | .passThroughAdd .. => .passThroughAdd
  | .picotDrainComplete .. => .picotDrainComplete
  | .shareRequest .. => .shareRequest
  | .shareGrant .. => .shareGrant
  | .trim .. => .trim
  | .shareReturn .. => .shareReturn
  | .forcedDrain .. => .forcedDrain
  | .tolerantReadService .. => .tolerantReadService
  | .regionTableUpdateComplete .. => .regionTableUpdateComplete
  | .bsqryResult .. => .bsqryResult
  | .bobbinTake .. => .bobbinTake
  | .bobbinPageReach .. => .bobbinPageReach
  | .bobbinIndexRead .. => .bobbinIndexRead
  | .bobbinDataReturn .. => .bobbinDataReturn
  | .bobbinWriteAck .. => .bobbinWriteAck
  | .bobbinCompletionRecord .. => .bobbinCompletionRecord
  | .tambourFormStart .. => .tambourFormStart
  | .tileFetchLine .. => .tileFetchLine
  | .tambourOccupancyEnd .. => .tambourOccupancyEnd
  | .tambourFormComplete .. => .tambourFormComplete
  | .adrnLineAck .. => .adrnLineAck
  | .adrnVersionPerformed .. => .adrnVersionPerformed
  | .postAtHome .. => .postAtHome
  | .qtailWrite .. => .qtailWrite
  | .queueSuspend .. => .queueSuspend
  | .queueUnsuspend .. => .queueUnsuspend
  | .recordTake .. => .recordTake
  | .recordStart .. => .recordStart
  | .motifPlacement .. => .motifPlacement
  | .motifSave .. => .motifSave
  | .motifRetirement .. => .motifRetirement
  | .patternCompletion .. => .patternCompletion
  | .successorEnqueue .. => .successorEnqueue
  | .knotDetectorReading => .knotDetectorReading
  | .trapEntry .. => .trapEntry
  | .asyncTrapDelivery .. => .asyncTrapDelivery
  | .pipeErr .. => .pipeErr
  | .eccUncorrectable .. => .eccUncorrectable
  | .correctableError .. => .correctableError
  | .launchKillFinish .. => .launchKillFinish
  | .contextKill .. => .contextKill
  | .ctxevClear .. => .ctxevClear
  | .clusterLeavesService .. => .clusterLeavesService
  | .scheduleEntryWrite .. => .scheduleEntryWrite
  | .arRoundComplete .. => .arRoundComplete
  | .arRoundTimeout .. => .arRoundTimeout
  | .acolComplete .. => .acolComplete
  | .linkCrcRetry .. => .linkCrcRetry
  | .linkFailure .. => .linkFailure
  | .destinationUnreachable .. => .destinationUnreachable
  | .remoteNotice .. => .remoteNotice
  | .hostAccess .. => .hostAccess
  | .adapterAtomic .. => .adapterAtomic
  | .registerWrite .. => .registerWrite
  | .mappingChange .. => .registerWrite
  | .loaderVector .. => .registerWrite
  | .reset => .reset
  | .firmwareVerifyDone => .firmwareVerifyDone
  | .calibrationDone .. => .calibrationDone
  | .initDone .. => .initDone
  | .lpddrTrainingDone .. => .lpddrTrainingDone
  | .bringupTimeout .. => .bringupTimeout
  | .powerWindow .. => .powerWindow
  | .pwrctlWrite .. => .pwrctlWrite
  | .thermalThrottle .. => .thermalThrottle
  | .clockHalve .. => .clockHalve
  | .thrClear => .thrClear
  | .thermalTrip => .thermalTrip
  | .powerRemoval => .powerRemoval
  | .attestationRequest .. => .attestationRequest
  | .attestationComplete => .attestationComplete
  | .debugResume .. => .debugResume
  | .needle .. => .debugResume
  | .illegalWordIssue .. => .illegalWordIssue
  | .hlthbaseWrite .. => .hlthbaseWrite
  | .preflFetchComplete .. => .preflFetchComplete

end Sys2Proof
end

