-- ==== Sys2Proof/Machine/Literals.lean ====
section
/-! DEFINITION. Literals.lean: which operand names fit a pair or a quad (R45), and which literal words the
entries accept (a literal that breaks its field rules counts as a bad operand field, R69, R109, R119, R210). -/

namespace Sys2Proof

open Machine

/-- A readable name that a pair field accepts: an even register, or zero (R44, R45). -/
def Rd.pairOk : Rd → Bool
  | .v n => n.val % 2 == 0
  | .s n => n.val % 2 == 0
  | .zero => true
  | _ => false

/-- A written name that a pair field accepts (R45). -/
def Wr.pairOk : Wr → Bool
  | .v n => n.val % 2 == 0
  | .s n => n.val % 2 == 0

/-- A readable name that a quad field accepts (R44). -/
def Rd.quadOk : Rd → Bool
  | .v n => n.val % 4 == 0
  | .s n => n.val % 4 == 0
  | _ => false

/-- A written name that a quad field accepts (R44). -/
def Wr.quadOk : Wr → Bool
  | .v n => n.val % 4 == 0
  | .s n => n.val % 4 == 0

/-- Operand B of an opt form that reads a pair: a literal supplies it (R43). -/
def Src.pairOk : Src → Bool
  | .reg r => r.pairOk
  | .lit _ => true

/-- Mask number of a compare literal: 0 to 11, or 15 for none (R115, R126, R135). -/
def maskCodeOk (k : Nat) : Bool := decide (k < 12) || k == 15

/-- Format codes of 64-bit values (R68). -/
def fmt64 (f : Nat) : Bool := f == 6 || f == 7 || f == 11

/-- The IEEE-style formats (R68). -/
def fmtIeee (f : Nat) : Bool := decide (8 ≤ f) && decide (f ≤ 11)

/-- Width of an element of a packed word, for the codes that pack and unpk accept (R75, R76). -/
def packWidth (f : Nat) : Option Nat :=
  if f == 2 || f == 3 || f == 8 || f == 9 then some 16
  else if f == 0 || f == 1 || f == 12 then some 8
  else if f == 13 then some 6
  else none

/-- The bit-field literal (R113), for width W; ins is true for bfi. -/
def bitfieldLitOk (W : Nat) (ins : Bool) (b : Rd) (lit : Word) : Bool :=
  fld lit 15 17 == 0 && (!ins || !bit lit 13) &&
  if bit lit 14 then fld lit 6 7 == 0 && fld lit 0 6 == 0
  else b == .zero && decide (1 ≤ fld lit 6 7) && decide (fld lit 0 6 + fld lit 6 7 ≤ W)

/-- The compare literal of cmp and cmpv (R115). -/
def cmpLitOk (lit : Word) : Bool := fld lit 8 24 == 0 && maskCodeOk (fld lit 4 4) && decide (fld lit 0 4 ≤ 9)

/-- The float compare literal (R126). -/
def fcmpLitOk (lit : Word) : Bool := fld lit 9 23 == 0 && maskCodeOk (fld lit 4 4) && decide (fld lit 0 4 < 8)

/-- The vote literal (R135). -/
def voteLitOk (lit : Word) : Bool := fld lit 8 24 == 0 && maskCodeOk (fld lit 4 4) && fld lit 2 2 == 0

/-- The reduction literal (R136). -/
def redLitOk (isScan : Bool) (lit : Word) : Bool :=
  fld lit 9 23 == 0 && (isScan || !bit lit 8) &&
  (let t := fld lit 4 4
   let o := fld lit 0 4
   (decide (4 ≤ t) && decide (t ≤ 7) && decide (o ≤ 5)) || ((t == 10 || t == 11) && decide (o ≤ 2)))

/-- The field rules of the conversion literal that all four forms share (R69). -/
def convLitOk (lit : Word) : Bool :=
  fld lit 16 16 == 0 && decide (fld lit 8 3 ≤ 4) && fld lit 0 4 != 15 && (!bit lit 11 || fmtIeee (fld lit 0 4))

/-- The atomic literal (R210); kind 0 atom, 1 atomcas, 2 atomred. -/
def atomLitOk (kind : Nat) (lit : Word) : Bool :=
  let t := fld lit 12 4
  let o := fld lit 8 4
  fld lit 19 13 == 0 && !bit lit 7 && (kind != 2 || !bit lit 16) &&
  ((decide (4 ≤ t) && decide (t ≤ 7)) || t == 10) && decide (o ≤ 6) && (kind != 1 || o == 0) &&
  (kind != 2 || o != 6) && (t != 10 || !(decide (3 ≤ o) && decide (o ≤ 5))) &&
  (!bit lit 18 || decide (fld lit 0 7 ≤ 95))

/-- An atomic literal selects a 64-bit type (R210). -/
def atom64 (lit : Word) : Bool := fld lit 12 4 == 6 || fld lit 12 4 == 7

/-- The tolerance literal of opent: neither NaN nor negative; minus zero reads as zero (R240). -/
def tolLitOk (lit : Word) : Bool :=
  decide (fld lit 0 31 ≤ 0x7F800000) && (!bit lit 31 || fld lit 0 31 == 0)

/-- The adrn literal (R307), apart from the rule on SATF, which needs the destination format. -/
def adrnLitOk (lit : Word) : Bool :=
  fld lit 8 24 == 0 && !bit lit 3 && fld lit 4 2 != 3 && !(bit lit 7 && fld lit 4 2 == 2) && decide (fld lit 0 3 ≤ 3)

/-- The literal of ared and acol (R388); col is true for acol. -/
def collLitOk (col : Bool) (lit : Word) : Bool :=
  let t := fld lit 12 4
  let o := fld lit 8 4
  let k := fld lit 17 3
  fld lit 20 12 == 0 && fld lit 0 4 == 0 && (if col then decide (k ≤ 3) && fld lit 4 4 == 0 else k == 0) &&
  ((decide (4 ≤ t) && decide (t ≤ 7) && decide (o ≤ 5)) || ((t == 10 || t == 11) && decide (o ≤ 2))) &&
  (!bit lit 16 || (t == 10 && o == 0)) && (!(col && decide (2 ≤ k)) || o == 0)

end Sys2Proof
end

