-- ==== Sys2Proof/WellFormed.lean ====
section
/-! DEFINITION. WellFormed.lean: the operand rules that an instruction's word and literal alone decide
(R44, R45 and the entries); a word that breaks them raises opnd_kind (R51). An event carries no word. -/

namespace Sys2Proof

open Machine

/-- The operands and the literal are ones that the entry accepts. -/
def Instr.wf (i : Instr) : Bool :=
  match i with
  | .nop => true
  | .bra _ => true
  | .brk _ _ => true
  | .brz _ _ => true
  | .brnz _ _ => true
  | .jmp _ _ => true
  | .call d _ => d.pairOk
  | .ret a => a.pairOk
  | .meet _ => true
  | .join _ => true
  | .leave _ => true
  | .waitk _ => true
  | .kset _ _ => true
  | .kmov _ _ => true
  | .kand _ _ _ => true
  | .kor _ _ _ => true
  | .kxor _ _ _ => true
  | .knot _ _ => true
  | .kpop _ _ => true
  | .elect _ _ => true
  | .exit => true
  | .yield => true
  | .sleep _ => true
  | .winb _ => true
  | .xacq _ => true
  | .xrel _ => true
  | .add w d a b => !w || (d.pairOk && a.pairOk && b.pairOk)
  | .sub w d a b => !w || (d.pairOk && a.pairOk && b.pairOk)
  | .mul w d a b => !w || (d.pairOk && a.pairOk && b.pairOk)
  | .mulh w d a b => !w || (d.pairOk && a.pairOk && b.pairOk)
  | .mad w d a b => !w || (d.pairOk && a.pairOk && b.pairOk)
  | .neg w d a => !w || (d.pairOk && a.pairOk)
  | .abs w d a => !w || (d.pairOk && a.pairOk)
  | .min w d a b => !w || (d.pairOk && a.pairOk && b.pairOk)
  | .max w d a b => !w || (d.pairOk && a.pairOk && b.pairOk)
  | .minu w d a b => !w || (d.pairOk && a.pairOk && b.pairOk)
  | .maxu w d a b => !w || (d.pairOk && a.pairOk && b.pairOk)
  | .and w d a b => !w || (d.pairOk && a.pairOk && b.pairOk)
  | .or w d a b => !w || (d.pairOk && a.pairOk && b.pairOk)
  | .xor w d a b => !w || (d.pairOk && a.pairOk && b.pairOk)
  | .not w d a => !w || (d.pairOk && a.pairOk)
  | .andn w d a b => !w || (d.pairOk && a.pairOk && b.pairOk)
  | .shl w d a _ => !w || (d.pairOk && a.pairOk)
  | .shr w d a _ => !w || (d.pairOk && a.pairOk)
  | .sar w d a _ => !w || (d.pairOk && a.pairOk)
  | .rot w d a _ => !w || (d.pairOk && a.pairOk)
  | .popc w d a => !w || (d.pairOk && a.pairOk)
  | .clz w d a => !w || (d.pairOk && a.pairOk)
  | .ctz w d a => !w || (d.pairOk && a.pairOk)
  | .brev w d a => !w || (d.pairOk && a.pairOk)
  | .bfx w d a b lit => (!w || (d.pairOk && a.pairOk)) && bitfieldLitOk (if w then 64 else 32) false b lit
  | .bfi w d a b lit => (!w || (d.pairOk && a.pairOk)) && bitfieldLitOk (if w then 64 else 32) true b lit
  | .prmt _ _ _ lit => fld lit 16 16 == 0
  | .sel w d a b lit => (!w || (d.pairOk && a.pairOk && b.pairOk)) && decide (lit.toNat < 12)
  | .cmp w d a b lit => (!w || (d.pairOk && a.pairOk && b.pairOk)) && cmpLitOk lit
  | .cmpv w d a b lit => (!w || (d.pairOk && a.pairOk && b.pairOk)) && cmpLitOk lit
  | .mov w d a => !w || (d.pairOk && a.pairOk)
  | .movl _ _ => true
  | .lea d a _ lit => d.pairOk && a.pairOk && fld lit 4 4 == 0
  | .divu w d a b => !w || (d.pairOk && a.pairOk && b.pairOk)
  | .divs w d a b => !w || (d.pairOk && a.pairOk && b.pairOk)
  | .remu w d a b => !w || (d.pairOk && a.pairOk && b.pairOk)
  | .rems w d a b => !w || (d.pairOk && a.pairOk && b.pairOk)
  | .addc w d a b => !w || (d.pairOk && a.pairOk && b.pairOk)
  | .addImm w d a _ => !w || (d.pairOk && a.pairOk)
  | .subImm w d a _ => !w || (d.pairOk && a.pairOk)
  | .mulImm w d a _ => !w || (d.pairOk && a.pairOk)
  | .minImm w d a _ => !w || (d.pairOk && a.pairOk)
  | .maxImm w d a _ => !w || (d.pairOk && a.pairOk)
  | .minuImm w d a _ => !w || (d.pairOk && a.pairOk)
  | .maxuImm w d a _ => !w || (d.pairOk && a.pairOk)
  | .andImm w d a _ => !w || (d.pairOk && a.pairOk)
  | .orImm w d a _ => !w || (d.pairOk && a.pairOk)
  | .xorImm w d a _ => !w || (d.pairOk && a.pairOk)
  | .shlImm w d a _ => !w || (d.pairOk && a.pairOk)
  | .shrImm w d a _ => !w || (d.pairOk && a.pairOk)
  | .sarImm w d a _ => !w || (d.pairOk && a.pairOk)
  | .rotImm w d a _ => !w || (d.pairOk && a.pairOk)
  | .fadd _ _ _ => true
  | .fsub _ _ _ => true
  | .fmul _ _ _ => true
  | .ffma _ _ _ => true
  | .fmin _ _ _ => true
  | .fmax _ _ _ => true
  | .fneg _ _ => true
  | .fabs _ _ => true
  | .fcmp _ _ _ lit => fcmpLitOk lit
  | .fclass _ _ => true
  | .frnd _ _ n => decide (n.toNat ≤ 3)
  | .fdiv _ _ _ => true
  | .frcp _ _ => true
  | .frsq _ _ => true
  | .fsqrt _ _ => true
  | .fexp2 _ _ => true
  | .flog2 _ _ => true
  | .fsin _ _ => true
  | .fcos _ _ => true
  | .ftanh _ _ => true
  | .dadd d a b => d.pairOk && a.pairOk && b.pairOk
  | .dsub d a b => d.pairOk && a.pairOk && b.pairOk
  | .dmul d a b => d.pairOk && a.pairOk && b.pairOk
  | .dfma d a b => d.pairOk && a.pairOk && b.pairOk
  | .dmin d a b => d.pairOk && a.pairOk && b.pairOk
  | .dmax d a b => d.pairOk && a.pairOk && b.pairOk
  | .dcmp _ a b lit => a.pairOk && b.pairOk && fcmpLitOk lit
  | .ddiv d a b => d.pairOk && a.pairOk && b.pairOk
  | .dsqrt d a => d.pairOk && a.pairOk
  | .hadd2 _ _ _ => true
  | .hmul2 _ _ _ => true
  | .hfma2 _ _ _ => true
  | .shfl _ _ _ => true
  | .shfld _ _ _ => true
  | .vote _ _ lit => voteLitOk lit
  | .redu d a lit => redLitOk false lit && (!fmt64 (fld lit 4 4) || (d.pairOk && a.pairOk))
  | .scan d a lit => redLitOk true lit && (!fmt64 (fld lit 4 4) || (d.pairOk && a.pairOk))
  | .chain _ lit => fld lit 17 15 == 0
  | .fpcr _ => true
  | .fpcw _ => true
  | .fpcs _ => true
  | .fpcc _ => true
  | .cvt d a _ lit => convLitOk lit && (!fmt64 (fld lit 0 4) || d.pairOk) && (!fmt64 (fld lit 4 4) || a.pairOk) && !bit lit 12 && fld lit 13 3 == 0
  | .cvtsc d a _ lit => convLitOk lit && (!fmt64 (fld lit 0 4) || d.pairOk) && (!fmt64 (fld lit 4 4) || a.pairOk) && fld lit 8 3 != 4 && fld lit 13 3 == 0 && fld lit 4 4 != 15
  | .pack _ _ _ lit => convLitOk lit && fld lit 8 3 != 4 && !bit lit 12 && !fmt64 (fld lit 4 4) && fld lit 4 4 != 15 &&
      (match packWidth (fld lit 0 4) with | some 16 => fld lit 13 3 == 0 | some _ => decide (fld lit 13 3 ≤ 1) | none => false)
  | .unpk d _ _ lit => convLitOk lit && (!fmt64 (fld lit 0 4) || d.pairOk) && fld lit 8 3 != 4 && !bit lit 12 && fld lit 13 3 == 0 && (packWidth (fld lit 4 4)).isSome
  | .scfind _ _ _ => true
  | .tclass _ a n => decide (n.toNat ≤ 15) && (!fmt64 n.toNat || a.pairOk)
  | .openLine _ _ _ => true
  | .openAcq _ _ _ => true
  | .openf _ _ _ lit => fld lit 5 27 == 0
  | .close _ => true
  | .eqry _ _ => true
  | .erfr _ => true
  | .ldl z d _ _ => z != .d || d.pairOk
  | .ldlReg z d _ _ => z != .d || d.pairOk
  | .ldlAcq z d _ _ => z != .d || d.pairOk
  | .ldlAcqReg z d _ _ => z != .d || d.pairOk
  | .ldlx z d _ _ => z != .d || d.pairOk
  | .ldlxReg z d _ _ => z != .d || d.pairOk
  | .stl z d _ _ => z != .d || d.pairOk
  | .stlReg z d _ _ => z != .d || d.pairOk
  | .stlRel z d _ _ => z != .d || d.pairOk
  | .stlRelReg z d _ _ => z != .d || d.pairOk
  | .stlx z d _ _ => z != .d || d.pairOk
  | .stlxReg z d _ _ => z != .d || d.pairOk
  | .lock _ _ _ => true
  | .unlk _ _ => true
  | .prefl _ _ => true
  | .waitcLd _ => true
  | .waitcSt _ => true
  | .atom d _ b lit => atomLitOk 0 lit && (!atom64 lit || (d.pairOk && b.pairOk))
  | .atomcas d _ b lit => atomLitOk 1 lit && (!atom64 lit || (d.pairOk && b.pairOk))
  | .atomred _ b lit => atomLitOk 2 lit && (!atom64 lit || b.pairOk)
  | .sealBatch _ => true
  | .waitb _ => true
  | .flushr _ _ lit => fld lit 27 5 == 0
  | .disc _ _ lit => fld lit 27 5 == 0
  | .tstv _ _ => true
  | .openv _ _ _ => true
  | .bsdef _ a _ lit => (match a with | .s k => k.val % 4 == 0 | _ => false) && fld lit 4 28 == 0
  | .bsfree _ => true
  | .opent _ _ _ lit => tolLitOk lit
  | .vads _ _ _ => true
  | .bsdrn _ => true
  | .bsqry _ _ lit => fld lit 2 30 == 0
  | .ldp z d _ _ => (match z with | .w => true | .d => d.pairOk | .q => d.quadOk)
  | .ldpWfTake z d _ _ => (match z with | .w => true | .d => d.pairOk | .q => d.quadOk)
  | .ldpWfPeek z d _ _ => (match z with | .w => true | .d => d.pairOk | .q => d.quadOk)
  | .stp z d _ _ => (match z with | .w => true | .d => d.pairOk | .q => d.quadOk)
  | .feset _ _ => true
  | .feclr _ _ => true
  | .feqry _ _ _ => true
  | .bara _ _ => true
  | .barw _ _ => true
  | .barx _ => true
  | .barq _ _ => true
  | .sracq _ _ => true
  | .srpub _ _ => true
  | .srwait _ _ => true
  | .srfree _ _ => true
  | .srqry _ _ => true
  | .peerarr _ _ lit => fld lit 7 25 == 0
  | .tdset _ a => a.val % 8 == 0
  | .tdmod _ _ _ => true
  | .tdq _ _ n => decide (n.toNat ≤ 7)
  | .azero _ => true
  | .ald _ _ _ => true
  | .ast _ _ _ => true
  | .aprom _ => true
  | .acvt _ n => decide (n.toNat ≤ 2)
  | .mma _ _ _ => true
  | .mmaAcc _ _ _ => true
  | .mmas _ _ _ lit => fld lit 6 26 == 0
  | .mmast _ _ _ lit => fld lit 6 26 == 0
  | .amaxu _ => true
  | .arsc _ _ => true
  | .adrn _ _ lit => adrnLitOk lit
  | .cmpr d a b => a.val % 2 == 0 && d != b
  | .mtchk _ _ => true
  | .launch _ _ _ => true
  | .post _ _ => true
  | .phadv _ => true
  | .idend => true
  | .trap _ => true
  | .rte => true
  | .csrr _ lit => fld lit 12 20 == 0 && !(decide (0xB00 ≤ lit.toNat) && decide (lit.toNat ≤ 0xB03))
  | .csrw _ lit => fld lit 12 20 == 0
  | .csrs _ lit => fld lit 12 20 == 0
  | .csrc _ lit => fld lit 12 20 == 0
  | .bobq _ _ => true
  | .dtld => true
  | .tlbi _ _ => true
  | .brkpt _ => true
  | .halt => true
  | .ared _ _ _ lit => collLitOk false lit
  | .acol _ _ lit => collLitOk true lit
  | .rsig _ _ lit => fld lit 6 26 == 0
  | .clauseStart => true
  | .clauseEnd => true
  | .cordUrgent => true
  | .sleepExpiry => true
  | .xacqGrant => true
  | .fixedLatencyWrite => true
  | .divideComplete => true
  | .specialFunctionComplete => true
  | .chainComplete => true
  | .pageWalkEnd => true
  | .fillComplete => true
  | .fillFailure => true
  | .erfrComplete => true
  | .acquireComplete => true
  | .openvAttemptEnd => true
  | .recallAtCore => true
  | .recallAck => true
  | .debugRecall => true
  | .storeAtHome => true
  | .ownerLossNotice => true
  | .storeAck => true
  | .atomicAtHome => true
  | .atomicResult => true
  | .releaseTakesEffect => true
  | .waitFullLoadService => true
  | .pillowLoadResult => true
  | .lockComplete => true
  | .flushrComplete => true
  | .discAtHome => true
  | .discDrop => true
  | .tlbiComplete => true
  | .dtldComplete => true
  | .additionAtPicot => true
  | .passThroughAdd => true
  | .picotDrainComplete => true
  | .shareRequest => true
  | .shareGrant => true
  | .trim => true
  | .shareReturn => true
  | .forcedDrain => true
  | .tolerantReadService => true
  | .regionTableUpdateComplete => true
  | .bsqryResult => true
  | .bobbinTake => true
  | .bobbinPageReach => true
  | .bobbinIndexRead => true
  | .bobbinDataReturn => true
  | .bobbinWriteAck => true
  | .bobbinCompletionRecord => true
  | .tambourFormStart => true
  | .tileFetchLine => true
  | .tambourOccupancyEnd => true
  | .tambourFormComplete => true
  | .adrnLineAck => true
  | .adrnVersionPerformed => true
  | .postAtHome => true
  | .qtailWrite => true
  | .queueSuspend => true
  | .queueUnsuspend => true
  | .recordTake => true
  | .recordStart => true
  | .motifPlacement => true
  | .motifSave => true
  | .motifRetirement => true
  | .patternCompletion => true
  | .successorEnqueue => true
  | .knotDetectorReading => true
  | .trapEntry => true
  | .asyncTrapDelivery => true
  | .pipeErr => true
  | .eccUncorrectable => true
  | .correctableError => true
  | .launchKillFinish => true
  | .contextKill => true
  | .ctxevClear => true
  | .clusterLeavesService => true
  | .scheduleEntryWrite => true
  | .arRoundComplete => true
  | .arRoundTimeout => true
  | .acolComplete => true
  | .linkCrcRetry => true
  | .linkFailure => true
  | .destinationUnreachable => true
  | .remoteNotice => true
  | .hostAccess => true
  | .adapterAtomic => true
  | .registerWrite => true
  | .reset => true
  | .firmwareVerifyDone => true
  | .calibrationDone => true
  | .initDone => true
  | .lpddrTrainingDone => true
  | .bringupTimeout => true
  | .powerWindow => true
  | .pwrctlWrite => true
  | .thermalThrottle => true
  | .clockHalve => true
  | .thrClear => true
  | .thermalTrip => true
  | .powerRemoval => true
  | .attestationRequest => true
  | .attestationComplete => true
  | .debugResume => true
  | .illegalWordIssue => true
  | .hlthbaseWrite => true
  | .preflFetchComplete => true

end Sys2Proof
end

