-- ==== Sys2Proof/Decode.lean ====
section
/-! DEFINITION. Decode.lean: the default opcode map (R49), the decoder with its causes in the order of R51,
and the encoder written from the same tables (R42, R44, R49). -/

namespace Sys2Proof

open Machine

/-- Literal policy of an opcode (R43). -/
inductive Policy where
  | none | opt | must
  deriving DecidableEq, Repr

/-- One row of map 0: its literal policy, and the instruction that fields D, A, B and the literal give. -/
structure Row where
  pol : Policy
  build : Nat → Nat → Nat → Option Word → Option Instr

/-- A field value below n. -/
def finOf (n : Nat) (x : Nat) : Option (Fin n) := if h : x < n then some ⟨x, h⟩ else none

/-- Kind rd (R44, R45). -/
def rdOf (x : Nat) : Option Rd :=
  if h : x < 64 then some (.v ⟨x, h⟩)
  else if h : x - 64 < 32 then some (.s ⟨x - 64, h⟩)
  else if x = 124 then some .zero
  else if x = 125 then some .lane
  else if x = 126 then some .cordid
  else if x = 127 then some .stat
  else none

/-- Kind wr (R44, R45). -/
def wrOf (x : Nat) : Option Wr :=
  if h : x < 64 then some (.v ⟨x, h⟩) else if h : x - 64 < 32 then some (.s ⟨x - 64, h⟩) else none

/-- Kind sc (R44). -/
def sregOf (x : Nat) : Option Sreg := if x < 64 then none else finOf 32 (x - 64)

/-- Kind eye (R44). -/
def eyeOf (x : Nat) : Option Eye := if x < 96 then none else finOf 16 (x - 96)

/-- Kind msk (R44). -/
def mskOf (x : Nat) : Option Msk := if x < 112 then none else finOf 12 (x - 112)

/-- Kind imm7 (R45). -/
def immOf (x : Nat) : Option Imm := some (BitVec.ofNat 7 x)

/-- Operand B of an opt form: a literal replaces it, and field B must then be 0 (R43). -/
def srcOf (b : Nat) : Option Word → Option Src
  | some x => if b = 0 then some (.lit x) else none
  | none => (rdOf b).map .reg

/-- csrr whose literal is 0x0B00 + sel, sel from 0 to 3, is bobq (R263). -/
def csrForm (d : Wr) (lit : Word) : Instr :=
  if h : 0xB00 ≤ lit.toNat ∧ lit.toNat ≤ 0xB03 then .bobq d ⟨lit.toNat - 0xB00, by omega⟩ else .csrr d lit

/-- Field value of a readable name (R44). -/
def Rd.field : Rd → Nat
  | .v n => n.val
  | .s n => 64 + n.val
  | .zero => 124
  | .lane => 125
  | .cordid => 126
  | .stat => 127

/-- Field value of a written name (R44). -/
def Wr.field : Wr → Nat
  | .v n => n.val
  | .s n => 64 + n.val

/-- Field B of an opt form: 0 under a literal (R43). -/
def Src.field : Src → Nat
  | .reg r => r.field
  | .lit _ => 0

/-- The literal of an opt form. -/
def Src.litWord : Src → Option Word
  | .reg _ => none
  | .lit x => some x

/-- Position of a size in the order of its opcodes (R49). -/
def LdSize.index : LdSize → Nat
  | .ub => 0 | .sb => 1 | .uh => 2 | .sh => 3 | .w => 4 | .d => 5

/-- Position of a size in the order of its opcodes (R49). -/
def StSize.index : StSize → Nat
  | .b => 0 | .h => 1 | .w => 2 | .d => 3

/-- Position of a size in the order of its opcodes (R49). -/
def PilSize.index : PilSize → Nat
  | .w => 0 | .d => 1 | .q => 2

/-- Control, OPC 0x000 to 0x07F (R49). -/
def ctlRow (i : Nat) : Option Row :=
  match i with
  | 0x0 => some ⟨.none, fun d a b _ => if d = 0 ∧ a = 0 ∧ b = 0 then  some (.nop) else none⟩
  | 0x1 => some ⟨.must, fun d a b lit => if d = 0 ∧ a = 0 ∧ b = 0 then  some (.bra (lit.getD 0)) else none⟩
  | 0x2 => some ⟨.must, fun d a b lit => if d = 0 ∧ b = 0 then (mskOf a).bind fun ya => some (.brk ya (lit.getD 0)) else none⟩
  | 0x3 => some ⟨.must, fun d a b lit => if d = 0 ∧ b = 0 then (rdOf a).bind fun ya => some (.brz ya (lit.getD 0)) else none⟩
  | 0x4 => some ⟨.must, fun d a b lit => if d = 0 ∧ b = 0 then (rdOf a).bind fun ya => some (.brnz ya (lit.getD 0)) else none⟩
  | 0x5 => some ⟨.none, fun d a b _ => if d = 0 then (rdOf a).bind fun ya => (rdOf b).bind fun yb => some (.jmp ya yb) else none⟩
  | 0x6 => some ⟨.must, fun d a b lit => if a = 0 ∧ b = 0 then (wrOf d).bind fun yd => some (.call yd (lit.getD 0)) else none⟩
  | 0x7 => some ⟨.none, fun d a b _ => if d = 0 ∧ b = 0 then (rdOf a).bind fun ya => some (.ret ya) else none⟩
  | 0x8 => some ⟨.must, fun d a b lit => if d = 0 ∧ a = 0 ∧ b = 0 then  some (.meet (lit.getD 0)) else none⟩
  | 0x9 => some ⟨.none, fun d a b _ => if d = 0 ∧ b = 0 then (mskOf a).bind fun ya => some (.join ya) else none⟩
  | 0xa => some ⟨.none, fun d a b _ => if d = 0 ∧ b = 0 then (mskOf a).bind fun ya => some (.leave ya) else none⟩
  | 0xb => some ⟨.none, fun d a b _ => if d = 0 ∧ b = 0 then (mskOf a).bind fun ya => some (.waitk ya) else none⟩
  | 0xc => some ⟨.must, fun d a b lit => if a = 0 ∧ b = 0 then (mskOf d).bind fun yd => some (.kset yd (lit.getD 0)) else none⟩
  | 0xd => some ⟨.none, fun d a b _ => if b = 0 then (mskOf d).bind fun yd => (mskOf a).bind fun ya => some (.kmov yd ya) else none⟩
  | 0xe => some ⟨.none, fun d a b _ => (mskOf d).bind fun yd => (mskOf a).bind fun ya => (mskOf b).bind fun yb => some (.kand yd ya yb)⟩
  | 0xf => some ⟨.none, fun d a b _ => (mskOf d).bind fun yd => (mskOf a).bind fun ya => (mskOf b).bind fun yb => some (.kor yd ya yb)⟩
  | 0x10 => some ⟨.none, fun d a b _ => (mskOf d).bind fun yd => (mskOf a).bind fun ya => (mskOf b).bind fun yb => some (.kxor yd ya yb)⟩
  | 0x11 => some ⟨.none, fun d a b _ => if b = 0 then (mskOf d).bind fun yd => (mskOf a).bind fun ya => some (.knot yd ya) else none⟩
  | 0x12 => some ⟨.none, fun d a b _ => if b = 0 then (wrOf d).bind fun yd => (mskOf a).bind fun ya => some (.kpop yd ya) else none⟩
  | 0x13 => some ⟨.none, fun d a b _ => if b = 0 then (mskOf d).bind fun yd => (mskOf a).bind fun ya => some (.elect yd ya) else none⟩
  | 0x14 => some ⟨.none, fun d a b _ => if d = 0 ∧ a = 0 ∧ b = 0 then  some (.exit) else none⟩
  | 0x15 => some ⟨.none, fun d a b _ => if d = 0 ∧ a = 0 ∧ b = 0 then  some (.yield) else none⟩
  | 0x16 => some ⟨.none, fun d a b _ => if d = 0 ∧ a = 0 then (immOf b).bind fun yb => some (.sleep yb) else none⟩
  | 0x17 => some ⟨.none, fun d a b _ => if d = 0 ∧ a = 0 then (immOf b).bind fun yb => some (.winb yb) else none⟩
  | 0x18 => some ⟨.none, fun d a b _ => if d = 0 ∧ a = 0 then (immOf b).bind fun yb => some (.xacq yb) else none⟩
  | 0x19 => some ⟨.none, fun d a b _ => if d = 0 ∧ a = 0 then (immOf b).bind fun yb => some (.xrel yb) else none⟩
  | _ => none

/-- Integer and address, OPC 0x080 to 0x0FF; i is the index of the base form and w selects the `.64` form (R49). -/
def intRow (w : Bool) (i : Nat) : Option Row :=
  match i with
  | 0x0 => some ⟨.opt, fun d a b lit => (wrOf d).bind fun yd => (rdOf a).bind fun ya => (srcOf b lit).bind fun yb => some (.add w yd ya yb)⟩
  | 0x1 => some ⟨.opt, fun d a b lit => (wrOf d).bind fun yd => (rdOf a).bind fun ya => (srcOf b lit).bind fun yb => some (.sub w yd ya yb)⟩
  | 0x2 => some ⟨.opt, fun d a b lit => (wrOf d).bind fun yd => (rdOf a).bind fun ya => (srcOf b lit).bind fun yb => some (.mul w yd ya yb)⟩
  | 0x3 => some ⟨.opt, fun d a b lit => (wrOf d).bind fun yd => (rdOf a).bind fun ya => (srcOf b lit).bind fun yb => some (.mulh w yd ya yb)⟩
  | 0x4 => some ⟨.opt, fun d a b lit => (wrOf d).bind fun yd => (rdOf a).bind fun ya => (srcOf b lit).bind fun yb => some (.mad w yd ya yb)⟩
  | 0x5 => some ⟨.none, fun d a b _ => if b = 0 then (wrOf d).bind fun yd => (rdOf a).bind fun ya => some (.neg w yd ya) else none⟩
  | 0x6 => some ⟨.none, fun d a b _ => if b = 0 then (wrOf d).bind fun yd => (rdOf a).bind fun ya => some (.abs w yd ya) else none⟩
  | 0x7 => some ⟨.opt, fun d a b lit => (wrOf d).bind fun yd => (rdOf a).bind fun ya => (srcOf b lit).bind fun yb => some (.min w yd ya yb)⟩
  | 0x8 => some ⟨.opt, fun d a b lit => (wrOf d).bind fun yd => (rdOf a).bind fun ya => (srcOf b lit).bind fun yb => some (.max w yd ya yb)⟩
  | 0x9 => some ⟨.opt, fun d a b lit => (wrOf d).bind fun yd => (rdOf a).bind fun ya => (srcOf b lit).bind fun yb => some (.minu w yd ya yb)⟩
  | 0xa => some ⟨.opt, fun d a b lit => (wrOf d).bind fun yd => (rdOf a).bind fun ya => (srcOf b lit).bind fun yb => some (.maxu w yd ya yb)⟩
  | 0xb => some ⟨.opt, fun d a b lit => (wrOf d).bind fun yd => (rdOf a).bind fun ya => (srcOf b lit).bind fun yb => some (.and w yd ya yb)⟩
  | 0xc => some ⟨.opt, fun d a b lit => (wrOf d).bind fun yd => (rdOf a).bind fun ya => (srcOf b lit).bind fun yb => some (.or w yd ya yb)⟩
  | 0xd => some ⟨.opt, fun d a b lit => (wrOf d).bind fun yd => (rdOf a).bind fun ya => (srcOf b lit).bind fun yb => some (.xor w yd ya yb)⟩
  | 0xe => some ⟨.none, fun d a b _ => if b = 0 then (wrOf d).bind fun yd => (rdOf a).bind fun ya => some (.not w yd ya) else none⟩
  | 0xf => some ⟨.opt, fun d a b lit => (wrOf d).bind fun yd => (rdOf a).bind fun ya => (srcOf b lit).bind fun yb => some (.andn w yd ya yb)⟩
  | 0x10 => some ⟨.opt, fun d a b lit => (wrOf d).bind fun yd => (rdOf a).bind fun ya => (srcOf b lit).bind fun yb => some (.shl w yd ya yb)⟩
  | 0x11 => some ⟨.opt, fun d a b lit => (wrOf d).bind fun yd => (rdOf a).bind fun ya => (srcOf b lit).bind fun yb => some (.shr w yd ya yb)⟩
  | 0x12 => some ⟨.opt, fun d a b lit => (wrOf d).bind fun yd => (rdOf a).bind fun ya => (srcOf b lit).bind fun yb => some (.sar w yd ya yb)⟩
  | 0x13 => some ⟨.opt, fun d a b lit => (wrOf d).bind fun yd => (rdOf a).bind fun ya => (srcOf b lit).bind fun yb => some (.rot w yd ya yb)⟩
  | 0x14 => some ⟨.none, fun d a b _ => if b = 0 then (wrOf d).bind fun yd => (rdOf a).bind fun ya => some (.popc w yd ya) else none⟩
  | 0x15 => some ⟨.none, fun d a b _ => if b = 0 then (wrOf d).bind fun yd => (rdOf a).bind fun ya => some (.clz w yd ya) else none⟩
  | 0x16 => some ⟨.none, fun d a b _ => if b = 0 then (wrOf d).bind fun yd => (rdOf a).bind fun ya => some (.ctz w yd ya) else none⟩
  | 0x17 => some ⟨.none, fun d a b _ => if b = 0 then (wrOf d).bind fun yd => (rdOf a).bind fun ya => some (.brev w yd ya) else none⟩
  | 0x18 => some ⟨.must, fun d a b lit => (wrOf d).bind fun yd => (rdOf a).bind fun ya => (rdOf b).bind fun yb => some (.bfx w yd ya yb (lit.getD 0))⟩
  | 0x19 => some ⟨.must, fun d a b lit => (wrOf d).bind fun yd => (rdOf a).bind fun ya => (rdOf b).bind fun yb => some (.bfi w yd ya yb (lit.getD 0))⟩
  | 0x1a => if w then none else some ⟨.must, fun d a b lit => (wrOf d).bind fun yd => (rdOf a).bind fun ya => (rdOf b).bind fun yb => some (.prmt yd ya yb (lit.getD 0))⟩
  | 0x1b => some ⟨.must, fun d a b lit => (wrOf d).bind fun yd => (rdOf a).bind fun ya => (rdOf b).bind fun yb => some (.sel w yd ya yb (lit.getD 0))⟩
  | 0x1c => some ⟨.must, fun d a b lit => (wrOf d).bind fun yd => (rdOf a).bind fun ya => (rdOf b).bind fun yb => some (.cmp w yd ya yb (lit.getD 0))⟩
  | 0x1d => some ⟨.must, fun d a b lit => (wrOf d).bind fun yd => (rdOf a).bind fun ya => (rdOf b).bind fun yb => some (.cmpv w yd ya yb (lit.getD 0))⟩
  | 0x1e => some ⟨.none, fun d a b _ => if b = 0 then (wrOf d).bind fun yd => (rdOf a).bind fun ya => some (.mov w yd ya) else none⟩
  | 0x1f => if w then none else some ⟨.must, fun d a b lit => if a = 0 ∧ b = 0 then (wrOf d).bind fun yd => some (.movl yd (lit.getD 0)) else none⟩
  | 0x20 => if w then none else some ⟨.must, fun d a b lit => (wrOf d).bind fun yd => (rdOf a).bind fun ya => (rdOf b).bind fun yb => some (.lea yd ya yb (lit.getD 0))⟩
  | 0x21 => some ⟨.opt, fun d a b lit => (wrOf d).bind fun yd => (rdOf a).bind fun ya => (srcOf b lit).bind fun yb => some (.divu w yd ya yb)⟩
  | 0x22 => some ⟨.opt, fun d a b lit => (wrOf d).bind fun yd => (rdOf a).bind fun ya => (srcOf b lit).bind fun yb => some (.divs w yd ya yb)⟩
  | 0x23 => some ⟨.opt, fun d a b lit => (wrOf d).bind fun yd => (rdOf a).bind fun ya => (srcOf b lit).bind fun yb => some (.remu w yd ya yb)⟩
  | 0x24 => some ⟨.opt, fun d a b lit => (wrOf d).bind fun yd => (rdOf a).bind fun ya => (srcOf b lit).bind fun yb => some (.rems w yd ya yb)⟩
  | 0x25 => some ⟨.opt, fun d a b lit => (wrOf d).bind fun yd => (rdOf a).bind fun ya => (srcOf b lit).bind fun yb => some (.addc w yd ya yb)⟩
  | 0x28 => some ⟨.none, fun d a b _ => (wrOf d).bind fun yd => (rdOf a).bind fun ya => (immOf b).bind fun yb => some (.addImm w yd ya yb)⟩
  | 0x29 => some ⟨.none, fun d a b _ => (wrOf d).bind fun yd => (rdOf a).bind fun ya => (immOf b).bind fun yb => some (.subImm w yd ya yb)⟩
  | 0x2a => some ⟨.none, fun d a b _ => (wrOf d).bind fun yd => (rdOf a).bind fun ya => (immOf b).bind fun yb => some (.mulImm w yd ya yb)⟩
  | 0x2b => some ⟨.none, fun d a b _ => (wrOf d).bind fun yd => (rdOf a).bind fun ya => (immOf b).bind fun yb => some (.minImm w yd ya yb)⟩
  | 0x2c => some ⟨.none, fun d a b _ => (wrOf d).bind fun yd => (rdOf a).bind fun ya => (immOf b).bind fun yb => some (.maxImm w yd ya yb)⟩
  | 0x2d => some ⟨.none, fun d a b _ => (wrOf d).bind fun yd => (rdOf a).bind fun ya => (immOf b).bind fun yb => some (.minuImm w yd ya yb)⟩
  | 0x2e => some ⟨.none, fun d a b _ => (wrOf d).bind fun yd => (rdOf a).bind fun ya => (immOf b).bind fun yb => some (.maxuImm w yd ya yb)⟩
  | 0x2f => some ⟨.none, fun d a b _ => (wrOf d).bind fun yd => (rdOf a).bind fun ya => (immOf b).bind fun yb => some (.andImm w yd ya yb)⟩
  | 0x30 => some ⟨.none, fun d a b _ => (wrOf d).bind fun yd => (rdOf a).bind fun ya => (immOf b).bind fun yb => some (.orImm w yd ya yb)⟩
  | 0x31 => some ⟨.none, fun d a b _ => (wrOf d).bind fun yd => (rdOf a).bind fun ya => (immOf b).bind fun yb => some (.xorImm w yd ya yb)⟩
  | 0x32 => some ⟨.none, fun d a b _ => (wrOf d).bind fun yd => (rdOf a).bind fun ya => (immOf b).bind fun yb => some (.shlImm w yd ya yb)⟩
  | 0x33 => some ⟨.none, fun d a b _ => (wrOf d).bind fun yd => (rdOf a).bind fun ya => (immOf b).bind fun yb => some (.shrImm w yd ya yb)⟩
  | 0x34 => some ⟨.none, fun d a b _ => (wrOf d).bind fun yd => (rdOf a).bind fun ya => (immOf b).bind fun yb => some (.sarImm w yd ya yb)⟩
  | 0x35 => some ⟨.none, fun d a b _ => (wrOf d).bind fun yd => (rdOf a).bind fun ya => (immOf b).bind fun yb => some (.rotImm w yd ya yb)⟩
  | _ => none

/-- Float and cross-lane, OPC 0x100 to 0x17F (R49). -/
def fltRow (i : Nat) : Option Row :=
  match i with
  | 0x0 => some ⟨.opt, fun d a b lit => (wrOf d).bind fun yd => (rdOf a).bind fun ya => (srcOf b lit).bind fun yb => some (.fadd yd ya yb)⟩
  | 0x1 => some ⟨.opt, fun d a b lit => (wrOf d).bind fun yd => (rdOf a).bind fun ya => (srcOf b lit).bind fun yb => some (.fsub yd ya yb)⟩
  | 0x2 => some ⟨.opt, fun d a b lit => (wrOf d).bind fun yd => (rdOf a).bind fun ya => (srcOf b lit).bind fun yb => some (.fmul yd ya yb)⟩
  | 0x3 => some ⟨.opt, fun d a b lit => (wrOf d).bind fun yd => (rdOf a).bind fun ya => (srcOf b lit).bind fun yb => some (.ffma yd ya yb)⟩
  | 0x4 => some ⟨.opt, fun d a b lit => (wrOf d).bind fun yd => (rdOf a).bind fun ya => (srcOf b lit).bind fun yb => some (.fmin yd ya yb)⟩
  | 0x5 => some ⟨.opt, fun d a b lit => (wrOf d).bind fun yd => (rdOf a).bind fun ya => (srcOf b lit).bind fun yb => some (.fmax yd ya yb)⟩
  | 0x6 => some ⟨.none, fun d a b _ => if b = 0 then (wrOf d).bind fun yd => (rdOf a).bind fun ya => some (.fneg yd ya) else none⟩
  | 0x7 => some ⟨.none, fun d a b _ => if b = 0 then (wrOf d).bind fun yd => (rdOf a).bind fun ya => some (.fabs yd ya) else none⟩
  | 0x8 => some ⟨.must, fun d a b lit => (wrOf d).bind fun yd => (rdOf a).bind fun ya => (rdOf b).bind fun yb => some (.fcmp yd ya yb (lit.getD 0))⟩
  | 0x9 => some ⟨.none, fun d a b _ => if b = 0 then (wrOf d).bind fun yd => (rdOf a).bind fun ya => some (.fclass yd ya) else none⟩
  | 0xa => some ⟨.none, fun d a b _ => (wrOf d).bind fun yd => (rdOf a).bind fun ya => (immOf b).bind fun yb => some (.frnd yd ya yb)⟩
  | 0xb => some ⟨.opt, fun d a b lit => (wrOf d).bind fun yd => (rdOf a).bind fun ya => (srcOf b lit).bind fun yb => some (.fdiv yd ya yb)⟩
  | 0xc => some ⟨.none, fun d a b _ => if b = 0 then (wrOf d).bind fun yd => (rdOf a).bind fun ya => some (.frcp yd ya) else none⟩
  | 0xd => some ⟨.none, fun d a b _ => if b = 0 then (wrOf d).bind fun yd => (rdOf a).bind fun ya => some (.frsq yd ya) else none⟩
  | 0xe => some ⟨.none, fun d a b _ => if b = 0 then (wrOf d).bind fun yd => (rdOf a).bind fun ya => some (.fsqrt yd ya) else none⟩
  | 0xf => some ⟨.none, fun d a b _ => if b = 0 then (wrOf d).bind fun yd => (rdOf a).bind fun ya => some (.fexp2 yd ya) else none⟩
  | 0x10 => some ⟨.none, fun d a b _ => if b = 0 then (wrOf d).bind fun yd => (rdOf a).bind fun ya => some (.flog2 yd ya) else none⟩
  | 0x11 => some ⟨.none, fun d a b _ => if b = 0 then (wrOf d).bind fun yd => (rdOf a).bind fun ya => some (.fsin yd ya) else none⟩
  | 0x12 => some ⟨.none, fun d a b _ => if b = 0 then (wrOf d).bind fun yd => (rdOf a).bind fun ya => some (.fcos yd ya) else none⟩
  | 0x13 => some ⟨.none, fun d a b _ => if b = 0 then (wrOf d).bind fun yd => (rdOf a).bind fun ya => some (.ftanh yd ya) else none⟩
  | 0x20 => some ⟨.opt, fun d a b lit => (wrOf d).bind fun yd => (rdOf a).bind fun ya => (srcOf b lit).bind fun yb => some (.dadd yd ya yb)⟩
  | 0x21 => some ⟨.opt, fun d a b lit => (wrOf d).bind fun yd => (rdOf a).bind fun ya => (srcOf b lit).bind fun yb => some (.dsub yd ya yb)⟩
  | 0x22 => some ⟨.opt, fun d a b lit => (wrOf d).bind fun yd => (rdOf a).bind fun ya => (srcOf b lit).bind fun yb => some (.dmul yd ya yb)⟩
  | 0x23 => some ⟨.opt, fun d a b lit => (wrOf d).bind fun yd => (rdOf a).bind fun ya => (srcOf b lit).bind fun yb => some (.dfma yd ya yb)⟩
  | 0x24 => some ⟨.opt, fun d a b lit => (wrOf d).bind fun yd => (rdOf a).bind fun ya => (srcOf b lit).bind fun yb => some (.dmin yd ya yb)⟩
  | 0x25 => some ⟨.opt, fun d a b lit => (wrOf d).bind fun yd => (rdOf a).bind fun ya => (srcOf b lit).bind fun yb => some (.dmax yd ya yb)⟩
  | 0x26 => some ⟨.must, fun d a b lit => (wrOf d).bind fun yd => (rdOf a).bind fun ya => (rdOf b).bind fun yb => some (.dcmp yd ya yb (lit.getD 0))⟩
  | 0x27 => some ⟨.none, fun d a b _ => (wrOf d).bind fun yd => (rdOf a).bind fun ya => (rdOf b).bind fun yb => some (.ddiv yd ya yb)⟩
  | 0x28 => some ⟨.none, fun d a b _ => if b = 0 then (wrOf d).bind fun yd => (rdOf a).bind fun ya => some (.dsqrt yd ya) else none⟩
  | 0x30 => some ⟨.opt, fun d a b lit => (wrOf d).bind fun yd => (rdOf a).bind fun ya => (srcOf b lit).bind fun yb => some (.hadd2 yd ya yb)⟩
  | 0x31 => some ⟨.opt, fun d a b lit => (wrOf d).bind fun yd => (rdOf a).bind fun ya => (srcOf b lit).bind fun yb => some (.hmul2 yd ya yb)⟩
  | 0x32 => some ⟨.opt, fun d a b lit => (wrOf d).bind fun yd => (rdOf a).bind fun ya => (srcOf b lit).bind fun yb => some (.hfma2 yd ya yb)⟩
  | 0x40 => some ⟨.opt, fun d a b lit => (wrOf d).bind fun yd => (rdOf a).bind fun ya => (srcOf b lit).bind fun yb => some (.shfl yd ya yb)⟩
  | 0x41 => some ⟨.opt, fun d a b lit => (wrOf d).bind fun yd => (rdOf a).bind fun ya => (srcOf b lit).bind fun yb => some (.shfld yd ya yb)⟩
  | 0x42 => some ⟨.must, fun d a b lit => if b = 0 then (wrOf d).bind fun yd => (rdOf a).bind fun ya => some (.vote yd ya (lit.getD 0)) else none⟩
  | 0x43 => some ⟨.must, fun d a b lit => if b = 0 then (wrOf d).bind fun yd => (rdOf a).bind fun ya => some (.redu yd ya (lit.getD 0)) else none⟩
  | 0x44 => some ⟨.must, fun d a b lit => if b = 0 then (wrOf d).bind fun yd => (rdOf a).bind fun ya => some (.scan yd ya (lit.getD 0)) else none⟩
  | 0x45 => some ⟨.must, fun d a b lit => if d = 0 ∧ b = 0 then (rdOf a).bind fun ya => some (.chain ya (lit.getD 0)) else none⟩
  | 0x70 => some ⟨.none, fun d a b _ => if a = 0 ∧ b = 0 then (wrOf d).bind fun yd => some (.fpcr yd) else none⟩
  | 0x71 => some ⟨.none, fun d a b _ => if d = 0 ∧ b = 0 then (rdOf a).bind fun ya => some (.fpcw ya) else none⟩
  | 0x72 => some ⟨.none, fun d a b _ => if d = 0 ∧ b = 0 then (rdOf a).bind fun ya => some (.fpcs ya) else none⟩
  | 0x73 => some ⟨.none, fun d a b _ => if d = 0 ∧ b = 0 then (rdOf a).bind fun ya => some (.fpcc ya) else none⟩
  | _ => none

/-- Conversion, OPC 0x180 to 0x1FF (R49). -/
def cvtRow (i : Nat) : Option Row :=
  match i with
  | 0x0 => some ⟨.must, fun d a b lit => (wrOf d).bind fun yd => (rdOf a).bind fun ya => (rdOf b).bind fun yb => some (.cvt yd ya yb (lit.getD 0))⟩
  | 0x1 => some ⟨.must, fun d a b lit => (wrOf d).bind fun yd => (rdOf a).bind fun ya => (rdOf b).bind fun yb => some (.cvtsc yd ya yb (lit.getD 0))⟩
  | 0x2 => some ⟨.must, fun d a b lit => (wrOf d).bind fun yd => (rdOf a).bind fun ya => (rdOf b).bind fun yb => some (.pack yd ya yb (lit.getD 0))⟩
  | 0x3 => some ⟨.must, fun d a b lit => (wrOf d).bind fun yd => (rdOf a).bind fun ya => (rdOf b).bind fun yb => some (.unpk yd ya yb (lit.getD 0))⟩
  | 0x4 => some ⟨.none, fun d a b _ => (finOf 64 d).bind fun yd => (finOf 64 a).bind fun ya => (rdOf b).bind fun yb => some (.scfind yd ya yb)⟩
  | 0x5 => some ⟨.none, fun d a b _ => (wrOf d).bind fun yd => (rdOf a).bind fun ya => (immOf b).bind fun yb => some (.tclass yd ya yb)⟩
  | _ => none

/-- Eyelet, memory and ordering, OPC 0x200 to 0x27F (R49). -/
def memRow (i : Nat) : Option Row :=
  match i with
  | 0x0 => some ⟨.none, fun d a b _ => (eyeOf d).bind fun yd => (rdOf a).bind fun ya => (rdOf b).bind fun yb => some (.openLine yd ya yb)⟩
  | 0x1 => some ⟨.none, fun d a b _ => (eyeOf d).bind fun yd => (rdOf a).bind fun ya => (rdOf b).bind fun yb => some (.openAcq yd ya yb)⟩
  | 0x2 => some ⟨.must, fun d a b lit => (finOf 64 d).bind fun yd => (finOf 64 a).bind fun ya => (rdOf b).bind fun yb => some (.openf yd ya yb (lit.getD 0))⟩
  | 0x3 => some ⟨.none, fun d a b _ => if a = 0 ∧ b = 0 then (eyeOf d).bind fun yd => some (.close yd) else none⟩
  | 0x4 => some ⟨.none, fun d a b _ => if b = 0 then (wrOf d).bind fun yd => (eyeOf a).bind fun ya => some (.eqry yd ya) else none⟩
  | 0x5 => some ⟨.none, fun d a b _ => if a = 0 ∧ b = 0 then (eyeOf d).bind fun yd => some (.erfr yd) else none⟩
  | 0x8 => some ⟨.none, fun d a b _ => (wrOf d).bind fun yd => (eyeOf a).bind fun ya => (immOf b).bind fun yb => some (.ldl .ub yd ya yb)⟩
  | 0x9 => some ⟨.none, fun d a b _ => (wrOf d).bind fun yd => (eyeOf a).bind fun ya => (immOf b).bind fun yb => some (.ldl .sb yd ya yb)⟩
  | 0xa => some ⟨.none, fun d a b _ => (wrOf d).bind fun yd => (eyeOf a).bind fun ya => (immOf b).bind fun yb => some (.ldl .uh yd ya yb)⟩
  | 0xb => some ⟨.none, fun d a b _ => (wrOf d).bind fun yd => (eyeOf a).bind fun ya => (immOf b).bind fun yb => some (.ldl .sh yd ya yb)⟩
  | 0xc => some ⟨.none, fun d a b _ => (wrOf d).bind fun yd => (eyeOf a).bind fun ya => (immOf b).bind fun yb => some (.ldl .w yd ya yb)⟩
  | 0xd => some ⟨.none, fun d a b _ => (wrOf d).bind fun yd => (eyeOf a).bind fun ya => (immOf b).bind fun yb => some (.ldl .d yd ya yb)⟩
  | 0x10 => some ⟨.none, fun d a b _ => (wrOf d).bind fun yd => (eyeOf a).bind fun ya => (rdOf b).bind fun yb => some (.ldlReg .ub yd ya yb)⟩
  | 0x11 => some ⟨.none, fun d a b _ => (wrOf d).bind fun yd => (eyeOf a).bind fun ya => (rdOf b).bind fun yb => some (.ldlReg .sb yd ya yb)⟩
  | 0x12 => some ⟨.none, fun d a b _ => (wrOf d).bind fun yd => (eyeOf a).bind fun ya => (rdOf b).bind fun yb => some (.ldlReg .uh yd ya yb)⟩
  | 0x13 => some ⟨.none, fun d a b _ => (wrOf d).bind fun yd => (eyeOf a).bind fun ya => (rdOf b).bind fun yb => some (.ldlReg .sh yd ya yb)⟩
  | 0x14 => some ⟨.none, fun d a b _ => (wrOf d).bind fun yd => (eyeOf a).bind fun ya => (rdOf b).bind fun yb => some (.ldlReg .w yd ya yb)⟩
  | 0x15 => some ⟨.none, fun d a b _ => (wrOf d).bind fun yd => (eyeOf a).bind fun ya => (rdOf b).bind fun yb => some (.ldlReg .d yd ya yb)⟩
  | 0x18 => some ⟨.none, fun d a b _ => (wrOf d).bind fun yd => (eyeOf a).bind fun ya => (immOf b).bind fun yb => some (.ldlAcq .ub yd ya yb)⟩
  | 0x19 => some ⟨.none, fun d a b _ => (wrOf d).bind fun yd => (eyeOf a).bind fun ya => (immOf b).bind fun yb => some (.ldlAcq .sb yd ya yb)⟩
  | 0x1a => some ⟨.none, fun d a b _ => (wrOf d).bind fun yd => (eyeOf a).bind fun ya => (immOf b).bind fun yb => some (.ldlAcq .uh yd ya yb)⟩
  | 0x1b => some ⟨.none, fun d a b _ => (wrOf d).bind fun yd => (eyeOf a).bind fun ya => (immOf b).bind fun yb => some (.ldlAcq .sh yd ya yb)⟩
  | 0x1c => some ⟨.none, fun d a b _ => (wrOf d).bind fun yd => (eyeOf a).bind fun ya => (immOf b).bind fun yb => some (.ldlAcq .w yd ya yb)⟩
  | 0x1d => some ⟨.none, fun d a b _ => (wrOf d).bind fun yd => (eyeOf a).bind fun ya => (immOf b).bind fun yb => some (.ldlAcq .d yd ya yb)⟩
  | 0x20 => some ⟨.none, fun d a b _ => (wrOf d).bind fun yd => (eyeOf a).bind fun ya => (rdOf b).bind fun yb => some (.ldlAcqReg .ub yd ya yb)⟩
  | 0x21 => some ⟨.none, fun d a b _ => (wrOf d).bind fun yd => (eyeOf a).bind fun ya => (rdOf b).bind fun yb => some (.ldlAcqReg .sb yd ya yb)⟩
  | 0x22 => some ⟨.none, fun d a b _ => (wrOf d).bind fun yd => (eyeOf a).bind fun ya => (rdOf b).bind fun yb => some (.ldlAcqReg .uh yd ya yb)⟩
  | 0x23 => some ⟨.none, fun d a b _ => (wrOf d).bind fun yd => (eyeOf a).bind fun ya => (rdOf b).bind fun yb => some (.ldlAcqReg .sh yd ya yb)⟩
  | 0x24 => some ⟨.none, fun d a b _ => (wrOf d).bind fun yd => (eyeOf a).bind fun ya => (rdOf b).bind fun yb => some (.ldlAcqReg .w yd ya yb)⟩
  | 0x25 => some ⟨.none, fun d a b _ => (wrOf d).bind fun yd => (eyeOf a).bind fun ya => (rdOf b).bind fun yb => some (.ldlAcqReg .d yd ya yb)⟩
  | 0x28 => some ⟨.none, fun d a b _ => (wrOf d).bind fun yd => (finOf 64 a).bind fun ya => (immOf b).bind fun yb => some (.ldlx .ub yd ya yb)⟩
  | 0x29 => some ⟨.none, fun d a b _ => (wrOf d).bind fun yd => (finOf 64 a).bind fun ya => (immOf b).bind fun yb => some (.ldlx .sb yd ya yb)⟩
  | 0x2a => some ⟨.none, fun d a b _ => (wrOf d).bind fun yd => (finOf 64 a).bind fun ya => (immOf b).bind fun yb => some (.ldlx .uh yd ya yb)⟩
  | 0x2b => some ⟨.none, fun d a b _ => (wrOf d).bind fun yd => (finOf 64 a).bind fun ya => (immOf b).bind fun yb => some (.ldlx .sh yd ya yb)⟩
  | 0x2c => some ⟨.none, fun d a b _ => (wrOf d).bind fun yd => (finOf 64 a).bind fun ya => (immOf b).bind fun yb => some (.ldlx .w yd ya yb)⟩
  | 0x2d => some ⟨.none, fun d a b _ => (wrOf d).bind fun yd => (finOf 64 a).bind fun ya => (immOf b).bind fun yb => some (.ldlx .d yd ya yb)⟩
  | 0x30 => some ⟨.none, fun d a b _ => (wrOf d).bind fun yd => (finOf 64 a).bind fun ya => (rdOf b).bind fun yb => some (.ldlxReg .ub yd ya yb)⟩
  | 0x31 => some ⟨.none, fun d a b _ => (wrOf d).bind fun yd => (finOf 64 a).bind fun ya => (rdOf b).bind fun yb => some (.ldlxReg .sb yd ya yb)⟩
  | 0x32 => some ⟨.none, fun d a b _ => (wrOf d).bind fun yd => (finOf 64 a).bind fun ya => (rdOf b).bind fun yb => some (.ldlxReg .uh yd ya yb)⟩
  | 0x33 => some ⟨.none, fun d a b _ => (wrOf d).bind fun yd => (finOf 64 a).bind fun ya => (rdOf b).bind fun yb => some (.ldlxReg .sh yd ya yb)⟩
  | 0x34 => some ⟨.none, fun d a b _ => (wrOf d).bind fun yd => (finOf 64 a).bind fun ya => (rdOf b).bind fun yb => some (.ldlxReg .w yd ya yb)⟩
  | 0x35 => some ⟨.none, fun d a b _ => (wrOf d).bind fun yd => (finOf 64 a).bind fun ya => (rdOf b).bind fun yb => some (.ldlxReg .d yd ya yb)⟩
  | 0x38 => some ⟨.none, fun d a b _ => (rdOf d).bind fun yd => (eyeOf a).bind fun ya => (immOf b).bind fun yb => some (.stl .b yd ya yb)⟩
  | 0x39 => some ⟨.none, fun d a b _ => (rdOf d).bind fun yd => (eyeOf a).bind fun ya => (immOf b).bind fun yb => some (.stl .h yd ya yb)⟩
  | 0x3a => some ⟨.none, fun d a b _ => (rdOf d).bind fun yd => (eyeOf a).bind fun ya => (immOf b).bind fun yb => some (.stl .w yd ya yb)⟩
  | 0x3b => some ⟨.none, fun d a b _ => (rdOf d).bind fun yd => (eyeOf a).bind fun ya => (immOf b).bind fun yb => some (.stl .d yd ya yb)⟩
  | 0x3c => some ⟨.none, fun d a b _ => (rdOf d).bind fun yd => (eyeOf a).bind fun ya => (rdOf b).bind fun yb => some (.stlReg .b yd ya yb)⟩
  | 0x3d => some ⟨.none, fun d a b _ => (rdOf d).bind fun yd => (eyeOf a).bind fun ya => (rdOf b).bind fun yb => some (.stlReg .h yd ya yb)⟩
  | 0x3e => some ⟨.none, fun d a b _ => (rdOf d).bind fun yd => (eyeOf a).bind fun ya => (rdOf b).bind fun yb => some (.stlReg .w yd ya yb)⟩
  | 0x3f => some ⟨.none, fun d a b _ => (rdOf d).bind fun yd => (eyeOf a).bind fun ya => (rdOf b).bind fun yb => some (.stlReg .d yd ya yb)⟩
  | 0x40 => some ⟨.none, fun d a b _ => (rdOf d).bind fun yd => (eyeOf a).bind fun ya => (immOf b).bind fun yb => some (.stlRel .b yd ya yb)⟩
  | 0x41 => some ⟨.none, fun d a b _ => (rdOf d).bind fun yd => (eyeOf a).bind fun ya => (immOf b).bind fun yb => some (.stlRel .h yd ya yb)⟩
  | 0x42 => some ⟨.none, fun d a b _ => (rdOf d).bind fun yd => (eyeOf a).bind fun ya => (immOf b).bind fun yb => some (.stlRel .w yd ya yb)⟩
  | 0x43 => some ⟨.none, fun d a b _ => (rdOf d).bind fun yd => (eyeOf a).bind fun ya => (immOf b).bind fun yb => some (.stlRel .d yd ya yb)⟩
  | 0x44 => some ⟨.none, fun d a b _ => (rdOf d).bind fun yd => (eyeOf a).bind fun ya => (rdOf b).bind fun yb => some (.stlRelReg .b yd ya yb)⟩
  | 0x45 => some ⟨.none, fun d a b _ => (rdOf d).bind fun yd => (eyeOf a).bind fun ya => (rdOf b).bind fun yb => some (.stlRelReg .h yd ya yb)⟩
  | 0x46 => some ⟨.none, fun d a b _ => (rdOf d).bind fun yd => (eyeOf a).bind fun ya => (rdOf b).bind fun yb => some (.stlRelReg .w yd ya yb)⟩
  | 0x47 => some ⟨.none, fun d a b _ => (rdOf d).bind fun yd => (eyeOf a).bind fun ya => (rdOf b).bind fun yb => some (.stlRelReg .d yd ya yb)⟩
  | 0x48 => some ⟨.none, fun d a b _ => (rdOf d).bind fun yd => (finOf 64 a).bind fun ya => (immOf b).bind fun yb => some (.stlx .b yd ya yb)⟩
  | 0x49 => some ⟨.none, fun d a b _ => (rdOf d).bind fun yd => (finOf 64 a).bind fun ya => (immOf b).bind fun yb => some (.stlx .h yd ya yb)⟩
  | 0x4a => some ⟨.none, fun d a b _ => (rdOf d).bind fun yd => (finOf 64 a).bind fun ya => (immOf b).bind fun yb => some (.stlx .w yd ya yb)⟩
  | 0x4b => some ⟨.none, fun d a b _ => (rdOf d).bind fun yd => (finOf 64 a).bind fun ya => (immOf b).bind fun yb => some (.stlx .d yd ya yb)⟩
  | 0x4c => some ⟨.none, fun d a b _ => (rdOf d).bind fun yd => (finOf 64 a).bind fun ya => (rdOf b).bind fun yb => some (.stlxReg .b yd ya yb)⟩
  | 0x4d => some ⟨.none, fun d a b _ => (rdOf d).bind fun yd => (finOf 64 a).bind fun ya => (rdOf b).bind fun yb => some (.stlxReg .h yd ya yb)⟩
  | 0x4e => some ⟨.none, fun d a b _ => (rdOf d).bind fun yd => (finOf 64 a).bind fun ya => (rdOf b).bind fun yb => some (.stlxReg .w yd ya yb)⟩
  | 0x4f => some ⟨.none, fun d a b _ => (rdOf d).bind fun yd => (finOf 64 a).bind fun ya => (rdOf b).bind fun yb => some (.stlxReg .d yd ya yb)⟩
  | 0x50 => some ⟨.none, fun d a b _ => (wrOf d).bind fun yd => (rdOf a).bind fun ya => (rdOf b).bind fun yb => some (.lock yd ya yb)⟩
  | 0x51 => some ⟨.none, fun d a b _ => if d = 0 then (rdOf a).bind fun ya => (rdOf b).bind fun yb => some (.unlk ya yb) else none⟩
  | 0x52 => some ⟨.none, fun d a b _ => if d = 0 then (rdOf a).bind fun ya => (rdOf b).bind fun yb => some (.prefl ya yb) else none⟩
  | 0x58 => some ⟨.none, fun d a b _ => if d = 0 ∧ a = 0 then (immOf b).bind fun yb => some (.waitcLd yb) else none⟩
  | 0x59 => some ⟨.none, fun d a b _ => if d = 0 ∧ a = 0 then (immOf b).bind fun yb => some (.waitcSt yb) else none⟩
  | 0x5a => some ⟨.must, fun d a b lit => (wrOf d).bind fun yd => (eyeOf a).bind fun ya => (rdOf b).bind fun yb => some (.atom yd ya yb (lit.getD 0))⟩
  | 0x5b => some ⟨.must, fun d a b lit => (wrOf d).bind fun yd => (eyeOf a).bind fun ya => (rdOf b).bind fun yb => some (.atomcas yd ya yb (lit.getD 0))⟩
  | 0x5c => some ⟨.must, fun d a b lit => if d = 0 then (eyeOf a).bind fun ya => (rdOf b).bind fun yb => some (.atomred ya yb (lit.getD 0)) else none⟩
  | 0x5d => some ⟨.none, fun d a b _ => if a = 0 ∧ b = 0 then (wrOf d).bind fun yd => some (.sealBatch yd) else none⟩
  | 0x5e => some ⟨.none, fun d a b _ => if d = 0 ∧ b = 0 then (rdOf a).bind fun ya => some (.waitb ya) else none⟩
  | 0x5f => some ⟨.must, fun d a b lit => if d = 0 then (rdOf a).bind fun ya => (rdOf b).bind fun yb => some (.flushr ya yb (lit.getD 0)) else none⟩
  | 0x60 => some ⟨.must, fun d a b lit => if d = 0 then (rdOf a).bind fun ya => (rdOf b).bind fun yb => some (.disc ya yb (lit.getD 0)) else none⟩
  | 0x61 => some ⟨.none, fun d a b _ => if b = 0 then (wrOf d).bind fun yd => (eyeOf a).bind fun ya => some (.tstv yd ya) else none⟩
  | 0x62 => some ⟨.none, fun d a b _ => (eyeOf d).bind fun yd => (rdOf a).bind fun ya => (rdOf b).bind fun yb => some (.openv yd ya yb)⟩
  | 0x68 => some ⟨.must, fun d a b lit => (wrOf d).bind fun yd => (rdOf a).bind fun ya => (rdOf b).bind fun yb => some (.bsdef yd ya yb (lit.getD 0))⟩
  | 0x69 => some ⟨.none, fun d a b _ => if d = 0 ∧ b = 0 then (rdOf a).bind fun ya => some (.bsfree ya) else none⟩
  | 0x6a => some ⟨.must, fun d a b lit => (eyeOf d).bind fun yd => (rdOf a).bind fun ya => (rdOf b).bind fun yb => some (.opent yd ya yb (lit.getD 0))⟩
  | 0x6b => some ⟨.none, fun d a b _ => (rdOf d).bind fun yd => (eyeOf a).bind fun ya => (rdOf b).bind fun yb => some (.vads yd ya yb)⟩
  | 0x6c => some ⟨.none, fun d a b _ => if d = 0 ∧ b = 0 then (rdOf a).bind fun ya => some (.bsdrn ya) else none⟩
  | 0x6d => some ⟨.must, fun d a b lit => if b = 0 then (wrOf d).bind fun yd => (rdOf a).bind fun ya => some (.bsqry yd ya (lit.getD 0)) else none⟩
  | _ => none

/-- Pillow and synchronisation, OPC 0x280 to 0x2FF (R49). -/
def pilRow (i : Nat) : Option Row :=
  match i with
  | 0x0 => some ⟨.none, fun d a b _ => (wrOf d).bind fun yd => (rdOf a).bind fun ya => (immOf b).bind fun yb => some (.ldp .w yd ya yb)⟩
  | 0x1 => some ⟨.none, fun d a b _ => (wrOf d).bind fun yd => (rdOf a).bind fun ya => (immOf b).bind fun yb => some (.ldp .d yd ya yb)⟩
  | 0x2 => some ⟨.none, fun d a b _ => (wrOf d).bind fun yd => (rdOf a).bind fun ya => (immOf b).bind fun yb => some (.ldp .q yd ya yb)⟩
  | 0x4 => some ⟨.none, fun d a b _ => (wrOf d).bind fun yd => (rdOf a).bind fun ya => (immOf b).bind fun yb => some (.ldpWfTake .w yd ya yb)⟩
  | 0x5 => some ⟨.none, fun d a b _ => (wrOf d).bind fun yd => (rdOf a).bind fun ya => (immOf b).bind fun yb => some (.ldpWfTake .d yd ya yb)⟩
  | 0x6 => some ⟨.none, fun d a b _ => (wrOf d).bind fun yd => (rdOf a).bind fun ya => (immOf b).bind fun yb => some (.ldpWfTake .q yd ya yb)⟩
  | 0x8 => some ⟨.none, fun d a b _ => (wrOf d).bind fun yd => (rdOf a).bind fun ya => (immOf b).bind fun yb => some (.ldpWfPeek .w yd ya yb)⟩
  | 0x9 => some ⟨.none, fun d a b _ => (wrOf d).bind fun yd => (rdOf a).bind fun ya => (immOf b).bind fun yb => some (.ldpWfPeek .d yd ya yb)⟩
  | 0xa => some ⟨.none, fun d a b _ => (wrOf d).bind fun yd => (rdOf a).bind fun ya => (immOf b).bind fun yb => some (.ldpWfPeek .q yd ya yb)⟩
  | 0x10 => some ⟨.none, fun d a b _ => (rdOf d).bind fun yd => (rdOf a).bind fun ya => (immOf b).bind fun yb => some (.stp .w yd ya yb)⟩
  | 0x11 => some ⟨.none, fun d a b _ => (rdOf d).bind fun yd => (rdOf a).bind fun ya => (immOf b).bind fun yb => some (.stp .d yd ya yb)⟩
  | 0x12 => some ⟨.none, fun d a b _ => (rdOf d).bind fun yd => (rdOf a).bind fun ya => (immOf b).bind fun yb => some (.stp .q yd ya yb)⟩
  | 0x14 => some ⟨.none, fun d a b _ => if d = 0 then (rdOf a).bind fun ya => (immOf b).bind fun yb => some (.feset ya yb) else none⟩
  | 0x15 => some ⟨.none, fun d a b _ => if d = 0 then (rdOf a).bind fun ya => (immOf b).bind fun yb => some (.feclr ya yb) else none⟩
  | 0x16 => some ⟨.none, fun d a b _ => (wrOf d).bind fun yd => (rdOf a).bind fun ya => (immOf b).bind fun yb => some (.feqry yd ya yb)⟩
  | 0x18 => some ⟨.none, fun d a b _ => if d = 0 then (finOf 16 a).bind fun ya => (immOf b).bind fun yb => some (.bara ya yb) else none⟩
  | 0x19 => some ⟨.none, fun d a b _ => if d = 0 then (finOf 16 a).bind fun ya => (immOf b).bind fun yb => some (.barw ya yb) else none⟩
  | 0x1a => some ⟨.none, fun d a b _ => if d = 0 ∧ b = 0 then (finOf 16 a).bind fun ya => some (.barx ya) else none⟩
  | 0x1b => some ⟨.none, fun d a b _ => if b = 0 then (wrOf d).bind fun yd => (finOf 16 a).bind fun ya => some (.barq yd ya) else none⟩
  | 0x20 => some ⟨.none, fun d a b _ => if b = 0 then (wrOf d).bind fun yd => (finOf 8 a).bind fun ya => some (.sracq yd ya) else none⟩
  | 0x21 => some ⟨.none, fun d a b _ => if d = 0 then (finOf 8 a).bind fun ya => (rdOf b).bind fun yb => some (.srpub ya yb) else none⟩
  | 0x22 => some ⟨.none, fun d a b _ => if d = 0 then (finOf 8 a).bind fun ya => (rdOf b).bind fun yb => some (.srwait ya yb) else none⟩
  | 0x23 => some ⟨.none, fun d a b _ => if d = 0 then (finOf 8 a).bind fun ya => (rdOf b).bind fun yb => some (.srfree ya yb) else none⟩
  | 0x24 => some ⟨.none, fun d a b _ => if b = 0 then (wrOf d).bind fun yd => (finOf 8 a).bind fun ya => some (.srqry yd ya) else none⟩
  | 0x28 => some ⟨.must, fun d a b lit => if d = 0 then (finOf 16 a).bind fun ya => (rdOf b).bind fun yb => some (.peerarr ya yb (lit.getD 0)) else none⟩
  | _ => none

/-- Matrix, OPC 0x300 to 0x37F (R49). -/
def matRow (i : Nat) : Option Row :=
  match i with
  | 0x0 => some ⟨.none, fun d a b _ => if b = 0 then (finOf 8 d).bind fun yd => (sregOf a).bind fun ya => some (.tdset yd ya) else none⟩
  | 0x1 => some ⟨.none, fun d a b _ => (finOf 8 d).bind fun yd => (rdOf a).bind fun ya => (immOf b).bind fun yb => some (.tdmod yd ya yb)⟩
  | 0x2 => some ⟨.none, fun d a b _ => (wrOf d).bind fun yd => (finOf 8 a).bind fun ya => (immOf b).bind fun yb => some (.tdq yd ya yb)⟩
  | 0x8 => some ⟨.none, fun d a b _ => if a = 0 ∧ b = 0 then (finOf 4 d).bind fun yd => some (.azero yd) else none⟩
  | 0x9 => some ⟨.none, fun d a b _ => (finOf 4 d).bind fun yd => (finOf 64 a).bind fun ya => (immOf b).bind fun yb => some (.ald yd ya yb)⟩
  | 0xa => some ⟨.none, fun d a b _ => (finOf 64 d).bind fun yd => (finOf 4 a).bind fun ya => (immOf b).bind fun yb => some (.ast yd ya yb)⟩
  | 0xb => some ⟨.none, fun d a b _ => if a = 0 ∧ b = 0 then (finOf 4 d).bind fun yd => some (.aprom yd) else none⟩
  | 0xc => some ⟨.none, fun d a b _ => if a = 0 then (finOf 4 d).bind fun yd => (immOf b).bind fun yb => some (.acvt yd yb) else none⟩
  | 0x10 => some ⟨.none, fun d a b _ => (finOf 4 d).bind fun yd => (finOf 8 a).bind fun ya => (finOf 8 b).bind fun yb => some (.mma yd ya yb)⟩
  | 0x11 => some ⟨.none, fun d a b _ => (finOf 4 d).bind fun yd => (finOf 4 a).bind fun ya => (finOf 8 b).bind fun yb => some (.mmaAcc yd ya yb)⟩
  | 0x12 => some ⟨.must, fun d a b lit => (finOf 4 d).bind fun yd => (finOf 8 a).bind fun ya => (finOf 8 b).bind fun yb => some (.mmas yd ya yb (lit.getD 0))⟩
  | 0x13 => some ⟨.must, fun d a b lit => (finOf 4 d).bind fun yd => (finOf 8 a).bind fun ya => (finOf 8 b).bind fun yb => some (.mmast yd ya yb (lit.getD 0))⟩
  | 0x18 => some ⟨.none, fun d a b _ => if a = 0 ∧ b = 0 then (finOf 4 d).bind fun yd => some (.amaxu yd) else none⟩
  | 0x19 => some ⟨.none, fun d a b _ => if b = 0 then (finOf 4 d).bind fun yd => (finOf 4 a).bind fun ya => some (.arsc yd ya) else none⟩
  | 0x20 => some ⟨.must, fun d a b lit => if d = 0 then (finOf 4 a).bind fun ya => (finOf 8 b).bind fun yb => some (.adrn ya yb (lit.getD 0)) else none⟩
  | 0x28 => some ⟨.none, fun d a b _ => (finOf 64 d).bind fun yd => (finOf 64 a).bind fun ya => (finOf 64 b).bind fun yb => some (.cmpr yd ya yb)⟩
  | 0x29 => some ⟨.none, fun d a b _ => if b = 0 then (wrOf d).bind fun yd => (finOf 64 a).bind fun ya => some (.mtchk yd ya) else none⟩
  | _ => none

/-- Launch, system and fabric, OPC 0x380 to 0x3FF (R49). -/
def sysRow (i : Nat) : Option Row :=
  match i with
  | 0x0 => some ⟨.none, fun d a b _ => (wrOf d).bind fun yd => (rdOf a).bind fun ya => (rdOf b).bind fun yb => some (.launch yd ya yb)⟩
  | 0x1 => some ⟨.none, fun d a b _ => if d = 0 then (rdOf a).bind fun ya => (immOf b).bind fun yb => some (.post ya yb) else none⟩
  | 0x2 => some ⟨.none, fun d a b _ => if d = 0 ∧ a = 0 then (immOf b).bind fun yb => some (.phadv yb) else none⟩
  | 0x3 => some ⟨.none, fun d a b _ => if d = 0 ∧ a = 0 ∧ b = 0 then  some (.idend) else none⟩
  | 0x10 => some ⟨.none, fun d a b _ => if d = 0 ∧ a = 0 then (immOf b).bind fun yb => some (.trap yb) else none⟩
  | 0x11 => some ⟨.none, fun d a b _ => if d = 0 ∧ a = 0 ∧ b = 0 then  some (.rte) else none⟩
  | 0x12 => some ⟨.must, fun d a b lit => if a = 0 ∧ b = 0 then (wrOf d).bind fun yd => some (csrForm yd (lit.getD 0)) else none⟩
  | 0x13 => some ⟨.must, fun d a b lit => if d = 0 ∧ b = 0 then (rdOf a).bind fun ya => some (.csrw ya (lit.getD 0)) else none⟩
  | 0x14 => some ⟨.must, fun d a b lit => if d = 0 ∧ b = 0 then (rdOf a).bind fun ya => some (.csrs ya (lit.getD 0)) else none⟩
  | 0x15 => some ⟨.must, fun d a b lit => if d = 0 ∧ b = 0 then (rdOf a).bind fun ya => some (.csrc ya (lit.getD 0)) else none⟩
  | 0x16 => some ⟨.none, fun d a b _ => if d = 0 ∧ a = 0 ∧ b = 0 then  some (.dtld) else none⟩
  | 0x17 => some ⟨.none, fun d a b _ => if d = 0 then (rdOf a).bind fun ya => (rdOf b).bind fun yb => some (.tlbi ya yb) else none⟩
  | 0x18 => some ⟨.none, fun d a b _ => if d = 0 ∧ a = 0 then (immOf b).bind fun yb => some (.brkpt yb) else none⟩
  | 0x19 => some ⟨.none, fun d a b _ => if d = 0 ∧ a = 0 ∧ b = 0 then  some (.halt) else none⟩
  | 0x20 => some ⟨.must, fun d a b lit => (wrOf d).bind fun yd => (rdOf a).bind fun ya => (rdOf b).bind fun yb => some (.ared yd ya yb (lit.getD 0))⟩
  | 0x21 => some ⟨.must, fun d a b lit => if d = 0 then (rdOf a).bind fun ya => (rdOf b).bind fun yb => some (.acol ya yb (lit.getD 0)) else none⟩
  | 0x22 => some ⟨.must, fun d a b lit => if d = 0 then (rdOf a).bind fun ya => (rdOf b).bind fun yb => some (.rsig ya yb (lit.getD 0)) else none⟩
  | _ => none

/-- The row of an internal operation number of map 0 (R49); none when it is unassigned. -/
def opRow (op : Nat) : Option Row :=
  match op / 128 with
  | 0 => ctlRow (op % 128)
  | 1 => if op % 128 < 0x40 then intRow false (op % 128) else intRow true (op % 128 - 0x40)
  | 2 => fltRow (op % 128)
  | 3 => cvtRow (op % 128)
  | 4 => memRow (op % 128)
  | 5 => pilRow (op % 128)
  | 6 => matRow (op % 128)
  | 7 => sysRow (op % 128)
  | _ => none

/-- The checks of R51 in order, for internal operation op (none: the table entry is invalid), fields of the
word and its literal. -/
def decodeOp (op : Option Nat) (w : Word) (lit : Option Word) : Except DecodeCause Instr :=
  match op.bind opRow with
  | none => .error .opcUnmapped
  | some r =>
    if r.pol = .none ∧ bit w 0 then .error .litStray
    else if r.pol = .must ∧ ¬ bit w 0 then .error .litMissing
    else
      match r.build (fld w 15 7) (fld w 8 7) (fld w 1 7) (if bit w 0 then lit else none) with
      | none => .error .opndKind
      | some i => if i.wf then .ok i else .error .opndKind

/-- An instruction word with its literal under the built-in map 0 (R42, R49). -/
def decode (w : Word) (lit : Option Word) : Except DecodeCause Instr := decodeOp (some (fld w 22 10)) w lit

/-- The instruction at the head of a byte string, and the rest; none when the string is too short for the
word, or for the literal that its L bit announces (R42). -/
def decodeBytes (bs : List Byte) : Option (Except DecodeCause Instr × List Byte) :=
  if bs.length < 4 then none
  else
    let w : Word := BitVec.ofNat 32 (leNat (bs.take 4))
    let rest := bs.drop 4
    if bit w 0 then
      if rest.length < 4 then none
      else some (decode w (some (BitVec.ofNat 32 (leNat (rest.take 4)))), rest.drop 4)
    else some (decode w none, rest)

/-- The fields of an instruction word and its literal (R42). -/
structure Enc where
  op : Nat
  d : Nat
  a : Nat
  b : Nat
  lit : Option Word
  deriving DecidableEq, Repr

/-- The instruction word that the fields give (R42). -/
def Enc.word (e : Enc) : Word :=
  BitVec.ofNat 32 (e.op * 2 ^ 22 + e.d * 2 ^ 15 + e.a * 2 ^ 8 + e.b * 2 + if e.lit.isSome then 1 else 0)

/-- The fields of an instruction under map 0; none for an event, which no word encodes. -/
def Instr.enc (i : Instr) : Option Enc :=
  match i with
  | .nop => some ⟨0x0, 0, 0, 0, none⟩
  | .bra lit => some ⟨0x1, 0, 0, 0, some lit⟩
  | .brk k lit => some ⟨0x2, 0, (112 + k.val), 0, some lit⟩
  | .brz a lit => some ⟨0x3, 0, a.field, 0, some lit⟩
  | .brnz a lit => some ⟨0x4, 0, a.field, 0, some lit⟩
  | .jmp a b => some ⟨0x5, 0, a.field, b.field, none⟩
  | .call d lit => some ⟨0x6, d.field, 0, 0, some lit⟩
  | .ret a => some ⟨0x7, 0, a.field, 0, none⟩
  | .meet lit => some ⟨0x8, 0, 0, 0, some lit⟩
  | .join k => some ⟨0x9, 0, (112 + k.val), 0, none⟩
  | .leave k => some ⟨0xa, 0, (112 + k.val), 0, none⟩
  | .waitk k => some ⟨0xb, 0, (112 + k.val), 0, none⟩
  | .kset d lit => some ⟨0xc, (112 + d.val), 0, 0, some lit⟩
  | .kmov d a => some ⟨0xd, (112 + d.val), (112 + a.val), 0, none⟩
  | .kand d a b => some ⟨0xe, (112 + d.val), (112 + a.val), (112 + b.val), none⟩
  | .kor d a b => some ⟨0xf, (112 + d.val), (112 + a.val), (112 + b.val), none⟩
  | .kxor d a b => some ⟨0x10, (112 + d.val), (112 + a.val), (112 + b.val), none⟩
  | .knot d a => some ⟨0x11, (112 + d.val), (112 + a.val), 0, none⟩
  | .kpop d a => some ⟨0x12, d.field, (112 + a.val), 0, none⟩
  | .elect d a => some ⟨0x13, (112 + d.val), (112 + a.val), 0, none⟩
  | .exit => some ⟨0x14, 0, 0, 0, none⟩
  | .yield => some ⟨0x15, 0, 0, 0, none⟩
  | .sleep n => some ⟨0x16, 0, 0, n.toNat, none⟩
  | .winb n => some ⟨0x17, 0, 0, n.toNat, none⟩
  | .xacq n => some ⟨0x18, 0, 0, n.toNat, none⟩
  | .xrel n => some ⟨0x19, 0, 0, n.toNat, none⟩
  | .add w d a b => some ⟨(0x80 + if w then 0x40 else 0), d.field, a.field, b.field, b.litWord⟩
  | .sub w d a b => some ⟨(0x81 + if w then 0x40 else 0), d.field, a.field, b.field, b.litWord⟩
  | .mul w d a b => some ⟨(0x82 + if w then 0x40 else 0), d.field, a.field, b.field, b.litWord⟩
  | .mulh w d a b => some ⟨(0x83 + if w then 0x40 else 0), d.field, a.field, b.field, b.litWord⟩
  | .mad w d a b => some ⟨(0x84 + if w then 0x40 else 0), d.field, a.field, b.field, b.litWord⟩
  | .neg w d a => some ⟨(0x85 + if w then 0x40 else 0), d.field, a.field, 0, none⟩
  | .abs w d a => some ⟨(0x86 + if w then 0x40 else 0), d.field, a.field, 0, none⟩
  | .min w d a b => some ⟨(0x87 + if w then 0x40 else 0), d.field, a.field, b.field, b.litWord⟩
  | .max w d a b => some ⟨(0x88 + if w then 0x40 else 0), d.field, a.field, b.field, b.litWord⟩
  | .minu w d a b => some ⟨(0x89 + if w then 0x40 else 0), d.field, a.field, b.field, b.litWord⟩
  | .maxu w d a b => some ⟨(0x8a + if w then 0x40 else 0), d.field, a.field, b.field, b.litWord⟩
  | .and w d a b => some ⟨(0x8b + if w then 0x40 else 0), d.field, a.field, b.field, b.litWord⟩
  | .or w d a b => some ⟨(0x8c + if w then 0x40 else 0), d.field, a.field, b.field, b.litWord⟩
  | .xor w d a b => some ⟨(0x8d + if w then 0x40 else 0), d.field, a.field, b.field, b.litWord⟩
  | .not w d a => some ⟨(0x8e + if w then 0x40 else 0), d.field, a.field, 0, none⟩
  | .andn w d a b => some ⟨(0x8f + if w then 0x40 else 0), d.field, a.field, b.field, b.litWord⟩
  | .shl w d a b => some ⟨(0x90 + if w then 0x40 else 0), d.field, a.field, b.field, b.litWord⟩
  | .shr w d a b => some ⟨(0x91 + if w then 0x40 else 0), d.field, a.field, b.field, b.litWord⟩
  | .sar w d a b => some ⟨(0x92 + if w then 0x40 else 0), d.field, a.field, b.field, b.litWord⟩
  | .rot w d a b => some ⟨(0x93 + if w then 0x40 else 0), d.field, a.field, b.field, b.litWord⟩
  | .popc w d a => some ⟨(0x94 + if w then 0x40 else 0), d.field, a.field, 0, none⟩
  | .clz w d a => some ⟨(0x95 + if w then 0x40 else 0), d.field, a.field, 0, none⟩
  | .ctz w d a => some ⟨(0x96 + if w then 0x40 else 0), d.field, a.field, 0, none⟩
  | .brev w d a => some ⟨(0x97 + if w then 0x40 else 0), d.field, a.field, 0, none⟩
  | .bfx w d a b lit => some ⟨(0x98 + if w then 0x40 else 0), d.field, a.field, b.field, some lit⟩
  | .bfi w d a b lit => some ⟨(0x99 + if w then 0x40 else 0), d.field, a.field, b.field, some lit⟩
  | .prmt d a b lit => some ⟨0x9a, d.field, a.field, b.field, some lit⟩
  | .sel w d a b lit => some ⟨(0x9b + if w then 0x40 else 0), d.field, a.field, b.field, some lit⟩
  | .cmp w d a b lit => some ⟨(0x9c + if w then 0x40 else 0), d.field, a.field, b.field, some lit⟩
  | .cmpv w d a b lit => some ⟨(0x9d + if w then 0x40 else 0), d.field, a.field, b.field, some lit⟩
  | .mov w d a => some ⟨(0x9e + if w then 0x40 else 0), d.field, a.field, 0, none⟩
  | .movl d lit => some ⟨0x9f, d.field, 0, 0, some lit⟩
  | .lea d a b lit => some ⟨0xa0, d.field, a.field, b.field, some lit⟩
  | .divu w d a b => some ⟨(0xa1 + if w then 0x40 else 0), d.field, a.field, b.field, b.litWord⟩
  | .divs w d a b => some ⟨(0xa2 + if w then 0x40 else 0), d.field, a.field, b.field, b.litWord⟩
  | .remu w d a b => some ⟨(0xa3 + if w then 0x40 else 0), d.field, a.field, b.field, b.litWord⟩
  | .rems w d a b => some ⟨(0xa4 + if w then 0x40 else 0), d.field, a.field, b.field, b.litWord⟩
  | .addc w d a b => some ⟨(0xa5 + if w then 0x40 else 0), d.field, a.field, b.field, b.litWord⟩
  | .addImm w d a n => some ⟨(0xa8 + if w then 0x40 else 0), d.field, a.field, n.toNat, none⟩
  | .subImm w d a n => some ⟨(0xa9 + if w then 0x40 else 0), d.field, a.field, n.toNat, none⟩
  | .mulImm w d a n => some ⟨(0xaa + if w then 0x40 else 0), d.field, a.field, n.toNat, none⟩
  | .minImm w d a n => some ⟨(0xab + if w then 0x40 else 0), d.field, a.field, n.toNat, none⟩
  | .maxImm w d a n => some ⟨(0xac + if w then 0x40 else 0), d.field, a.field, n.toNat, none⟩
  | .minuImm w d a n => some ⟨(0xad + if w then 0x40 else 0), d.field, a.field, n.toNat, none⟩
  | .maxuImm w d a n => some ⟨(0xae + if w then 0x40 else 0), d.field, a.field, n.toNat, none⟩
  | .andImm w d a n => some ⟨(0xaf + if w then 0x40 else 0), d.field, a.field, n.toNat, none⟩
  | .orImm w d a n => some ⟨(0xb0 + if w then 0x40 else 0), d.field, a.field, n.toNat, none⟩
  | .xorImm w d a n => some ⟨(0xb1 + if w then 0x40 else 0), d.field, a.field, n.toNat, none⟩
  | .shlImm w d a n => some ⟨(0xb2 + if w then 0x40 else 0), d.field, a.field, n.toNat, none⟩
  | .shrImm w d a n => some ⟨(0xb3 + if w then 0x40 else 0), d.field, a.field, n.toNat, none⟩
  | .sarImm w d a n => some ⟨(0xb4 + if w then 0x40 else 0), d.field, a.field, n.toNat, none⟩
  | .rotImm w d a n => some ⟨(0xb5 + if w then 0x40 else 0), d.field, a.field, n.toNat, none⟩
  | .fadd d a b => some ⟨0x100, d.field, a.field, b.field, b.litWord⟩
  | .fsub d a b => some ⟨0x101, d.field, a.field, b.field, b.litWord⟩
  | .fmul d a b => some ⟨0x102, d.field, a.field, b.field, b.litWord⟩
  | .ffma d a b => some ⟨0x103, d.field, a.field, b.field, b.litWord⟩
  | .fmin d a b => some ⟨0x104, d.field, a.field, b.field, b.litWord⟩
  | .fmax d a b => some ⟨0x105, d.field, a.field, b.field, b.litWord⟩
  | .fneg d a => some ⟨0x106, d.field, a.field, 0, none⟩
  | .fabs d a => some ⟨0x107, d.field, a.field, 0, none⟩
  | .fcmp d a b lit => some ⟨0x108, d.field, a.field, b.field, some lit⟩
  | .fclass d a => some ⟨0x109, d.field, a.field, 0, none⟩
  | .frnd d a n => some ⟨0x10a, d.field, a.field, n.toNat, none⟩
  | .fdiv d a b => some ⟨0x10b, d.field, a.field, b.field, b.litWord⟩
  | .frcp d a => some ⟨0x10c, d.field, a.field, 0, none⟩
  | .frsq d a => some ⟨0x10d, d.field, a.field, 0, none⟩
  | .fsqrt d a => some ⟨0x10e, d.field, a.field, 0, none⟩
  | .fexp2 d a => some ⟨0x10f, d.field, a.field, 0, none⟩
  | .flog2 d a => some ⟨0x110, d.field, a.field, 0, none⟩
  | .fsin d a => some ⟨0x111, d.field, a.field, 0, none⟩
  | .fcos d a => some ⟨0x112, d.field, a.field, 0, none⟩
  | .ftanh d a => some ⟨0x113, d.field, a.field, 0, none⟩
  | .dadd d a b => some ⟨0x120, d.field, a.field, b.field, b.litWord⟩
  | .dsub d a b => some ⟨0x121, d.field, a.field, b.field, b.litWord⟩
  | .dmul d a b => some ⟨0x122, d.field, a.field, b.field, b.litWord⟩
  | .dfma d a b => some ⟨0x123, d.field, a.field, b.field, b.litWord⟩
  | .dmin d a b => some ⟨0x124, d.field, a.field, b.field, b.litWord⟩
  | .dmax d a b => some ⟨0x125, d.field, a.field, b.field, b.litWord⟩
  | .dcmp d a b lit => some ⟨0x126, d.field, a.field, b.field, some lit⟩
  | .ddiv d a b => some ⟨0x127, d.field, a.field, b.field, none⟩
  | .dsqrt d a => some ⟨0x128, d.field, a.field, 0, none⟩
  | .hadd2 d a b => some ⟨0x130, d.field, a.field, b.field, b.litWord⟩
  | .hmul2 d a b => some ⟨0x131, d.field, a.field, b.field, b.litWord⟩
  | .hfma2 d a b => some ⟨0x132, d.field, a.field, b.field, b.litWord⟩
  | .shfl d a b => some ⟨0x140, d.field, a.field, b.field, b.litWord⟩
  | .shfld d a b => some ⟨0x141, d.field, a.field, b.field, b.litWord⟩
  | .vote d a lit => some ⟨0x142, d.field, a.field, 0, some lit⟩
  | .redu d a lit => some ⟨0x143, d.field, a.field, 0, some lit⟩
  | .scan d a lit => some ⟨0x144, d.field, a.field, 0, some lit⟩
  | .chain a lit => some ⟨0x145, 0, a.field, 0, some lit⟩
  | .fpcr d => some ⟨0x170, d.field, 0, 0, none⟩
  | .fpcw a => some ⟨0x171, 0, a.field, 0, none⟩
  | .fpcs a => some ⟨0x172, 0, a.field, 0, none⟩
  | .fpcc a => some ⟨0x173, 0, a.field, 0, none⟩
  | .cvt d a b lit => some ⟨0x180, d.field, a.field, b.field, some lit⟩
  | .cvtsc d a b lit => some ⟨0x181, d.field, a.field, b.field, some lit⟩
  | .pack d a b lit => some ⟨0x182, d.field, a.field, b.field, some lit⟩
  | .unpk d a b lit => some ⟨0x183, d.field, a.field, b.field, some lit⟩
  | .scfind d a b => some ⟨0x184, d.val, a.val, b.field, none⟩
  | .tclass d a n => some ⟨0x185, d.field, a.field, n.toNat, none⟩
  | .openLine d a b => some ⟨0x200, (96 + d.val), a.field, b.field, none⟩
  | .openAcq d a b => some ⟨0x201, (96 + d.val), a.field, b.field, none⟩
  | .openf d a b lit => some ⟨0x202, d.val, a.val, b.field, some lit⟩
  | .close e => some ⟨0x203, (96 + e.val), 0, 0, none⟩
  | .eqry d e => some ⟨0x204, d.field, (96 + e.val), 0, none⟩
  | .erfr e => some ⟨0x205, (96 + e.val), 0, 0, none⟩
  | .ldl z d e n => some ⟨(0x208 + z.index), d.field, (96 + e.val), n.toNat, none⟩
  | .ldlReg z d e b => some ⟨(0x210 + z.index), d.field, (96 + e.val), b.field, none⟩
  | .ldlAcq z d e n => some ⟨(0x218 + z.index), d.field, (96 + e.val), n.toNat, none⟩
  | .ldlAcqReg z d e b => some ⟨(0x220 + z.index), d.field, (96 + e.val), b.field, none⟩
  | .ldlx z d a n => some ⟨(0x228 + z.index), d.field, a.val, n.toNat, none⟩
  | .ldlxReg z d a b => some ⟨(0x230 + z.index), d.field, a.val, b.field, none⟩
  | .stl z d e n => some ⟨(0x238 + z.index), d.field, (96 + e.val), n.toNat, none⟩
  | .stlReg z d e b => some ⟨(0x23c + z.index), d.field, (96 + e.val), b.field, none⟩
  | .stlRel z d e n => some ⟨(0x240 + z.index), d.field, (96 + e.val), n.toNat, none⟩
  | .stlRelReg z d e b => some ⟨(0x244 + z.index), d.field, (96 + e.val), b.field, none⟩
  | .stlx z d a n => some ⟨(0x248 + z.index), d.field, a.val, n.toNat, none⟩
  | .stlxReg z d a b => some ⟨(0x24c + z.index), d.field, a.val, b.field, none⟩
  | .lock d a b => some ⟨0x250, d.field, a.field, b.field, none⟩
  | .unlk a b => some ⟨0x251, 0, a.field, b.field, none⟩
  | .prefl a b => some ⟨0x252, 0, a.field, b.field, none⟩
  | .waitcLd n => some ⟨0x258, 0, 0, n.toNat, none⟩
  | .waitcSt n => some ⟨0x259, 0, 0, n.toNat, none⟩
  | .atom d e b lit => some ⟨0x25a, d.field, (96 + e.val), b.field, some lit⟩
  | .atomcas d e b lit => some ⟨0x25b, d.field, (96 + e.val), b.field, some lit⟩
  | .atomred e b lit => some ⟨0x25c, 0, (96 + e.val), b.field, some lit⟩
  | .sealBatch d => some ⟨0x25d, d.field, 0, 0, none⟩
  | .waitb a => some ⟨0x25e, 0, a.field, 0, none⟩
  | .flushr a b lit => some ⟨0x25f, 0, a.field, b.field, some lit⟩
  | .disc a b lit => some ⟨0x260, 0, a.field, b.field, some lit⟩
  | .tstv d e => some ⟨0x261, d.field, (96 + e.val), 0, none⟩
  | .openv d a b => some ⟨0x262, (96 + d.val), a.field, b.field, none⟩
  | .bsdef d a b lit => some ⟨0x268, d.field, a.field, b.field, some lit⟩
  | .bsfree a => some ⟨0x269, 0, a.field, 0, none⟩
  | .opent d a b lit => some ⟨0x26a, (96 + d.val), a.field, b.field, some lit⟩
  | .vads d e b => some ⟨0x26b, d.field, (96 + e.val), b.field, none⟩
  | .bsdrn a => some ⟨0x26c, 0, a.field, 0, none⟩
  | .bsqry d a lit => some ⟨0x26d, d.field, a.field, 0, some lit⟩
  | .ldp z d a n => some ⟨(0x280 + z.index), d.field, a.field, n.toNat, none⟩
  | .ldpWfTake z d a n => some ⟨(0x284 + z.index), d.field, a.field, n.toNat, none⟩
  | .ldpWfPeek z d a n => some ⟨(0x288 + z.index), d.field, a.field, n.toNat, none⟩
  | .stp z d a n => some ⟨(0x290 + z.index), d.field, a.field, n.toNat, none⟩
  | .feset a n => some ⟨0x294, 0, a.field, n.toNat, none⟩
  | .feclr a n => some ⟨0x295, 0, a.field, n.toNat, none⟩
  | .feqry d a n => some ⟨0x296, d.field, a.field, n.toNat, none⟩
  | .bara b n => some ⟨0x298, 0, b.val, n.toNat, none⟩
  | .barw b n => some ⟨0x299, 0, b.val, n.toNat, none⟩
  | .barx b => some ⟨0x29a, 0, b.val, 0, none⟩
  | .barq d b => some ⟨0x29b, d.field, b.val, 0, none⟩
  | .sracq d q => some ⟨0x2a0, d.field, q.val, 0, none⟩
  | .srpub q b => some ⟨0x2a1, 0, q.val, b.field, none⟩
  | .srwait q b => some ⟨0x2a2, 0, q.val, b.field, none⟩
  | .srfree q b => some ⟨0x2a3, 0, q.val, b.field, none⟩
  | .srqry d q => some ⟨0x2a4, d.field, q.val, 0, none⟩
  | .peerarr k b lit => some ⟨0x2a8, 0, k.val, b.field, some lit⟩
  | .tdset d a => some ⟨0x300, d.val, (64 + a.val), 0, none⟩
  | .tdmod d a n => some ⟨0x301, d.val, a.field, n.toNat, none⟩
  | .tdq d t n => some ⟨0x302, d.field, t.val, n.toNat, none⟩
  | .azero d => some ⟨0x308, d.val, 0, 0, none⟩
  | .ald d a n => some ⟨0x309, d.val, a.val, n.toNat, none⟩
  | .ast d a n => some ⟨0x30a, d.val, a.val, n.toNat, none⟩
  | .aprom d => some ⟨0x30b, d.val, 0, 0, none⟩
  | .acvt d n => some ⟨0x30c, d.val, 0, n.toNat, none⟩
  | .mma d a b => some ⟨0x310, d.val, a.val, b.val, none⟩
  | .mmaAcc d a b => some ⟨0x311, d.val, a.val, b.val, none⟩
  | .mmas d a b lit => some ⟨0x312, d.val, a.val, b.val, some lit⟩
  | .mmast d a b lit => some ⟨0x313, d.val, a.val, b.val, some lit⟩
  | .amaxu d => some ⟨0x318, d.val, 0, 0, none⟩
  | .arsc d a => some ⟨0x319, d.val, a.val, 0, none⟩
  | .adrn a b lit => some ⟨0x320, 0, a.val, b.val, some lit⟩
  | .cmpr d a b => some ⟨0x328, d.val, a.val, b.val, none⟩
  | .mtchk d a => some ⟨0x329, d.field, a.val, 0, none⟩
  | .launch d a b => some ⟨0x380, d.field, a.field, b.field, none⟩
  | .post a n => some ⟨0x381, 0, a.field, n.toNat, none⟩
  | .phadv n => some ⟨0x382, 0, 0, n.toNat, none⟩
  | .idend => some ⟨0x383, 0, 0, 0, none⟩
  | .trap n => some ⟨0x390, 0, 0, n.toNat, none⟩
  | .rte => some ⟨0x391, 0, 0, 0, none⟩
  | .csrr d lit => some ⟨0x392, d.field, 0, 0, some lit⟩
  | .csrw a lit => some ⟨0x393, 0, a.field, 0, some lit⟩
  | .csrs a lit => some ⟨0x394, 0, a.field, 0, some lit⟩
  | .csrc a lit => some ⟨0x395, 0, a.field, 0, some lit⟩
  | .dtld => some ⟨0x396, 0, 0, 0, none⟩
  | .tlbi a b => some ⟨0x397, 0, a.field, b.field, none⟩
  | .brkpt n => some ⟨0x398, 0, 0, n.toNat, none⟩
  | .halt => some ⟨0x399, 0, 0, 0, none⟩
  | .ared d a b lit => some ⟨0x3a0, d.field, a.field, b.field, some lit⟩
  | .acol a b lit => some ⟨0x3a1, 0, a.field, b.field, some lit⟩
  | .rsig a b lit => some ⟨0x3a2, 0, a.field, b.field, some lit⟩
  | .bobq d q => some ⟨0x392, d.field, 0, 0, some (BitVec.ofNat 32 (0xB00 + q.val))⟩
  | _ => none

/-- The words of an instruction under map 0: its word, then its literal. -/
def encode (i : Instr) : List Word :=
  match i.enc with
  | none => []
  | some e => e.word :: e.lit.toList

/-- The instruction that a table word of nbits bits stands for: the word in little-endian byte order (R21),
followed by a literal word of its own bits above 31, which are 0 when the table gives them none. -/
def decodeTableWord (nbits w : Nat) : Option Instr :=
  match decodeBytes (leBytes (w % 2 ^ nbits) 8) with
  | some (.ok i, _) => some i
  | _ => none

end Sys2Proof
end

