-- ==== Sys2Proof/Machine/Float.lean ====
section
/-! DEFINITION. Float.lean: the number formats bit by bit, exact values, and every rounding the spec names
(R55 to R71, R120). -/

namespace Sys2Proof.Machine

/-- An exact value: (-1)^neg × m × 2^e, an infinity, or not a number (NaN and NaR, R70). -/
inductive Num where
  | nan
  | inf (neg : Bool)
  | fin (neg : Bool) (m : Nat) (e : Int)
  deriving DecidableEq, Repr

/-- Rounding modes of R65, R69 and R71; sr carries u. -/
inductive Rm where
  | rne | rz | ru | rd | sr (u : Nat)
  deriving DecidableEq, Repr

/-- 2^e for a natural part of an integer exponent. -/
def pow2 (e : Int) : Nat := 2 ^ e.toNat

/-- (n, d) scaled so that n / d = num / den × 2^e. -/
def scaled (num den : Nat) (e : Int) : Nat × Nat := (num * pow2 e, den * pow2 (-e))

def Rm.isSr : Rm → Bool
  | .sr _ => true
  | _ => false

/-- num / den × 2^e as a multiple of 2^q, rounded: the exact quotient and remainder decide (R22, R65, R71). -/
def roundAt (rm : Rm) (neg : Bool) (num den : Nat) (e q : Int) : Nat :=
  let (n, d) := scaled num den (e - q)
  let k := n / d
  let r := n % d
  let up : Bool :=
    match rm with
    | .rne => decide (d < 2 * r) || (decide (2 * r = d) && decide (k % 2 = 1))
    | .rz => false
    | .ru => decide (0 < r) && !neg
    | .rd => decide (0 < r) && neg
    | .sr u => decide (2 ^ 16 ≤ r * 2 ^ 16 / d + u)
  if up then k + 1 else k

/-- floor(log2(num / den × 2^e)) for a positive value. -/
def floorLog2 (num den : Nat) (e : Int) : Int :=
  let l : Int := (num.log2 : Int) - den.log2
  let (n, d) := scaled num den (-l)
  e + if n < d then l - 1 else l

/-- An IEEE-style format: exponent bits, fraction bits (R57). -/
structure Ieee where
  eb : Nat
  fb : Nat
  deriving DecidableEq, Repr

def fp16 : Ieee := ⟨5, 10⟩
def bf16 : Ieee := ⟨8, 7⟩
def fp32 : Ieee := ⟨8, 23⟩
def fp64 : Ieee := ⟨11, 52⟩
/-- The exponent and fraction of A26 (R64). -/
def a26 : Ieee := ⟨8, 17⟩

def Ieee.bias (f : Ieee) : Int := 2 ^ (f.eb - 1) - 1
def Ieee.width (f : Ieee) : Nat := 1 + f.eb + f.fb
def Ieee.signBit (f : Ieee) (neg : Bool) : Nat := if neg then 2 ^ (f.eb + f.fb) else 0
/-- The infinity of a sign (R57). -/
def Ieee.infBits (f : Ieee) (neg : Bool) : Nat := f.signBit neg + (2 ^ f.eb - 1) * 2 ^ f.fb
/-- The largest finite value of a sign (R57). -/
def Ieee.maxBits (f : Ieee) (neg : Bool) : Nat := f.infBits neg - 1
/-- The canonical quiet NaN (R57, R58). -/
def Ieee.nanBits (f : Ieee) : Nat := f.infBits false + 2 ^ (f.fb - 1)

def Ieee.expOf (f : Ieee) (x : Nat) : Nat := x / 2 ^ f.fb % 2 ^ f.eb
def Ieee.fracOf (f : Ieee) (x : Nat) : Nat := x % 2 ^ f.fb
def Ieee.negOf (f : Ieee) (x : Nat) : Bool := decide (x / 2 ^ (f.eb + f.fb) % 2 = 1)
def Ieee.isSub (f : Ieee) (x : Nat) : Bool := f.expOf x == 0 && f.fracOf x != 0

/-- decode(F, x) for an IEEE-style format (R57, R70), before any flush. -/
def Ieee.decode (f : Ieee) (x : Nat) : Num :=
  let s := f.negOf x
  if f.expOf x = 2 ^ f.eb - 1 then (if f.fracOf x = 0 then .inf s else .nan)
  else if f.expOf x = 0 then .fin s (f.fracOf x) (1 - f.bias - f.fb)
  else .fin s (2 ^ f.fb + f.fracOf x) (f.expOf x - f.bias - f.fb)

/-- The result on overflow (R70). -/
def Ieee.overflow (f : Ieee) (rm : Rm) (sat neg : Bool) : Nat :=
  if sat then f.maxBits neg
  else
    match rm with
    | .rne => f.infBits neg
    | .rz | .sr _ => f.maxBits neg
    | .ru => if neg then f.maxBits neg else f.infBits neg
    | .rd => if neg then f.infBits neg else f.maxBits neg

/-- The positive value num / den × 2^e rounded to the format, with subnormals when sub is set; without them
the exponent is first unbounded and a result below the least normal becomes zero of its sign (R64, R70); under sr such a value
lies between the magnitudes 0 and the least normal (R71). -/
def Ieee.round (f : Ieee) (sub : Bool) (rm : Rm) (sat neg : Bool) (num den : Nat) (e : Int) : Nat :=
  if num = 0 then f.signBit neg
  else
    let qmin : Int := 1 - f.bias - f.fb
    let q0 := floorLog2 num den e - f.fb
    if !sub && rm.isSr && decide (q0 < qmin) then f.signBit neg + roundAt rm neg num den e (1 - f.bias) * 2 ^ f.fb
    else
    let q := if sub then max q0 qmin else q0
    let k := roundAt rm neg num den e q
    let (k, q) := if k = 2 ^ (f.fb + 1) then (2 ^ f.fb, q + 1) else (k, q)
    if k < 2 ^ f.fb then f.signBit neg + k
    else
      let x : Int := q + f.fb + f.bias
      if x ≤ 0 then f.signBit neg
      else if (2 ^ f.eb - 1 : Int) ≤ x then f.overflow rm sat neg
      else f.signBit neg + x.toNat * 2 ^ f.fb + (k - 2 ^ f.fb)

/-- encode(F, x) for an IEEE-style format (R70), before any flush. -/
def Ieee.encode (f : Ieee) (sub : Bool) (rm : Rm) (sat : Bool) : Num → Nat
  | .nan => f.nanBits
  | .inf s => if sat then f.maxBits s else f.infBits s
  | .fin s m e => f.round sub rm sat s m 1 e

/-- A subnormal becomes zero of its sign when the flush bit is set (R67). -/
def Ieee.flush (f : Ieee) (on : Bool) (x : Nat) : Nat := if on && f.isSub x then f.signBit (f.negOf x) else x

/-- An A26 value from its 32-bit word: bits [5:0] ignored, no subnormals (R64). -/
def decodeA26 (x : Nat) : Num :=
  let y := x / 64
  if a26.expOf y = 0 then .fin (a26.negOf y) 0 0 else a26.decode y

/-- encode(A26, x): the word holds the FP32 encoding with bits [5:0] clear (R64, R70). -/
def encodeA26 (rm : Rm) (sat : Bool) (x : Num) : Nat := a26.encode false rm sat x * 64

/-- Length of the run of bits equal to b from bit i - 1 of x downward (R59). -/
def runLen (x : Nat) (b : Bool) : Nat → Nat
  | 0 => 0
  | i + 1 => if x.testBit i == b then 1 + runLen x b i else 0

/-- A tapered encoding of n + 1 bits with es exponent bits (R59, R61); NaR decodes as not a number. -/
def decodeTap (n es : Nat) (t : Nat) : Num :=
  let t := t % 2 ^ (n + 1)
  if t = 0 then .fin false 0 0
  else if t = 2 ^ n then .nan
  else
    let neg := t.testBit n
    let p := if neg then 2 ^ (n + 1) - t else t
    let one := p.testBit (n - 1)
    let m := runLen p one n
    let k : Int := if one then m - 1 else -m
    let left := n - (m + 1)
    let (ex, fb) := if es = 1 ∧ 0 < left then ((if p.testBit (left - 1) then 1 else 0), left - 1) else (0, left)
    .fin neg (2 ^ fb + p % 2 ^ fb) (k * 2 ^ es + ex - fb)

/-- Conversion to a tapered format (R65): n bits kept of the extended encoding, largest magnitude 2^top. -/
def encodeTap (n es : Nat) (top : Int) (rm : Rm) : Num → Nat
  | .nan => 2 ^ n
  | .inf s => if s then 2 ^ n + 1 else 2 ^ n - 1
  | .fin s m e =>
    if m = 0 then 0
    else
      let lg := floorLog2 m 1 e
      let p : Nat :=
        if top < lg ∨ (lg = top ∧ m ≠ pow2 (top - e)) then 2 ^ n - 1
        else if lg < -top then 1
        else
          let k := lg / 2 ^ es
          let ex := (lg % 2 ^ es).toNat
          let (reg, rl) : Nat × Nat := if 0 ≤ k then (2 ^ (k.toNat + 2) - 2, k.toNat + 2) else (1, (-k).toNat + 1)
          -- the string read as a number: head + (x / 2^lg), with one fraction bit group below it
          let head := reg * 2 ^ es + ex - 1
          let (fn, fd) := scaled m 1 (e - lg)
          roundAt rm s (head * fd + fn) fd ((n : Int) - rl - es) 0
      if s then 2 ^ (n + 1) - p else p

/-- |x| exactly as a rational is never needed: an exact integer rounding by rm (R70). -/
def roundInt (rm : Rm) (neg : Bool) (m : Nat) (e : Int) : Int :=
  let k : Int := roundAt rm neg m 1 e 0
  if neg then -k else k

/-- Least and largest value of an integer format (R56, R68). -/
def intRange (code : Nat) : Int × Int :=
  match code with
  | 0 => (-2 ^ 7, 2 ^ 7 - 1) | 1 => (0, 2 ^ 8 - 1) | 2 => (-2 ^ 15, 2 ^ 15 - 1) | 3 => (0, 2 ^ 16 - 1)
  | 4 => (-2 ^ 31, 2 ^ 31 - 1) | 5 => (0, 2 ^ 32 - 1) | 6 => (-2 ^ 63, 2 ^ 63 - 1) | _ => (0, 2 ^ 64 - 1)

/-- Width of a format in a register (R68). -/
def fmtWidth (code : Nat) : Nat :=
  match code with
  | 0 | 1 | 12 | 15 => 8 | 2 | 3 | 8 | 9 => 16 | 4 | 5 | 10 | 14 => 32 | 13 => 6 | _ => 64

def fmtSigned (code : Nat) : Bool := code == 0 || code == 2 || code == 4 || code == 6

/-- The IEEE-style format of a code (R68). -/
def ieeeOf (code : Nat) : Ieee := if code = 8 then fp16 else if code = 9 then bf16 else if code = 11 then fp64 else fp32

/-- Operand flush bit of an IEEE-style code in fpctl (R66). -/
def ofz (fz : Byte) (code : Nat) : Bool := bit fz (2 * (code - 8))
/-- Result flush bit of an IEEE-style code in fpctl (R66). -/
def rfz (fz : Byte) (code : Nat) : Bool := bit fz (2 * (code - 8) + 1)

/-- The value of an integer as an exact number. -/
def ofInt (x : Int) : Num := .fin (decide (x < 0)) x.natAbs 0

/-- decode(F, w) with the operand flush of R67 (R70). -/
def decodeFmt (fz : Byte) (code : Nat) (w : Nat) : Num :=
  let x := w % 2 ^ fmtWidth code
  match code with
  | 12 => decodeTap 7 1 x
  | 13 => decodeTap 5 0 x
  | 14 => decodeA26 x
  | 15 => if x = 255 then .nan else .fin false 1 ((x : Int) - 127)
  | 8 | 9 | 10 | 11 => (ieeeOf code).decode ((ieeeOf code).flush (ofz fz code) x)
  | _ => if fmtSigned code then ofInt (sextNat x (fmtWidth code)) else .fin false x 0

/-- encode(F, x) under a rounding mode and SATF, with the result flush of R67 (R70); the encoding in its width. -/
def encodeFmt (fz : Byte) (code : Nat) (rm : Rm) (sat : Bool) (x : Num) : Nat :=
  match code with
  | 12 => encodeTap 7 1 12 rm x
  | 13 => encodeTap 5 0 4 rm x
  | 14 => encodeA26 rm sat x
  | 8 | 9 | 10 | 11 => (ieeeOf code).flush (rfz fz code) ((ieeeOf code).encode true rm sat x)
  | _ =>
    let (lo, hi) := intRange code
    let v : Int :=
      match x with
      | .nan => 0
      | .inf s => if s then lo else hi
      | .fin s m e => satInt (roundInt rm s m e) lo hi
    (v % 2 ^ fmtWidth code).toNat

/-- A result as it sits in a 32-bit register: signed integer formats sign-extended, others zero-extended (R55). -/
def place32 (code : Nat) (x : Nat) : Word := if fmtSigned code then sextTo 32 x (fmtWidth code) else BitVec.ofNat 32 x

/-- Negation of an exact value. -/
def Num.neg : Num → Num
  | .nan => .nan
  | .inf s => .inf (!s)
  | .fin s m e => .fin (!s) m e

/-- The signed multiple of 2^q that a finite value is, for q at most its exponent. -/
def mant (s : Bool) (m : Nat) (e q : Int) : Int := (if s then -1 else 1) * ((m * pow2 (e - q) : Nat) : Int)

/-- Exact sum (R120): NaN on opposite infinities; an exact zero of opposite signs is +0. -/
def Num.add : Num → Num → Num
  | .nan, _ => .nan
  | _, .nan => .nan
  | .inf s, .inf t => if s = t then .inf s else .nan
  | .inf s, _ => .inf s
  | _, .inf t => .inf t
  | .fin s m e, .fin t n f =>
    let q := min e f
    let v := mant s m e q + mant t n f q
    if v = 0 then .fin (s && t) 0 0 else .fin (decide (v < 0)) v.natAbs q

/-- Exact product (R120): ∞ × 0 is NaN. -/
def Num.mul : Num → Num → Num
  | .nan, _ => .nan
  | _, .nan => .nan
  | .inf s, .inf t => .inf (s != t)
  | .inf s, .fin t n _ => if n = 0 then .nan else .inf (s != t)
  | .fin s m _, .inf t => if m = 0 then .nan else .inf (s != t)
  | .fin s m e, .fin t n f => .fin (s != t) (m * n) (e + f)

/-- Exact scaling by 2^k. -/
def Num.scale (x : Num) (k : Int) : Num :=
  match x with
  | .fin s m e => .fin s m (e + k)
  | y => y

/-- a < b for values that are numbers; -0 equals +0 (R126). -/
def Num.lt : Num → Num → Bool
  | .nan, _ => false
  | _, .nan => false
  | .inf s, .inf t => s && !t
  | .inf s, .fin _ _ _ => s
  | .fin _ _ _, .inf t => !t
  | .fin s m e, .fin t n f => decide (mant s m e (min e f) < mant t n f (min e f))

/-- a = b for values that are numbers. -/
def Num.eq (a b : Num) : Bool := a != .nan && b != .nan && !Num.lt a b && !Num.lt b a

def Num.isNeg : Num → Bool
  | .nan => false
  | .inf s => s
  | .fin s _ _ => s

/-- fmin and fmax on encodings already flushed as operands (R124): -0 < +0, and a NaN yields the other operand. -/
def Ieee.minmax (f : Ieee) (mx : Bool) (a b : Nat) : Nat :=
  let x := f.decode a
  let y := f.decode b
  if x = .nan then (if y = .nan then f.nanBits else b)
  else if y = .nan then a
  else
    let less := Num.lt x y || (Num.eq x y && x.isNeg && !y.isNeg)
    if less != mx then a else b

/-- One two-operand IEEE-style operation: operands flushed, exact result rounded once with rne, result flushed (R120). -/
def Ieee.op2 (f : Ieee) (oz rz : Bool) (g : Num → Num → Num) (a b : Nat) : Nat :=
  f.flush rz (f.encode true .rne false (g (f.decode (f.flush oz a)) (f.decode (f.flush oz b))))

/-- fma: A × B + D with one rounding (R120, R124). -/
def Ieee.fma (f : Ieee) (oz rz : Bool) (a b d : Nat) : Nat :=
  f.flush rz (f.encode true .rne false
    (Num.add (Num.mul (f.decode (f.flush oz a)) (f.decode (f.flush oz b))) (f.decode (f.flush oz d))))

/-- fmin, fmax with both flushes (R124). -/
def Ieee.minmaxZ (f : Ieee) (oz rz mx : Bool) (a b : Nat) : Nat :=
  f.flush rz (f.minmax mx (f.flush oz a) (f.flush oz b))

/-- rne(a / b) with the special operands of R123. -/
def Ieee.div (f : Ieee) (oz rz : Bool) (a b : Nat) : Nat :=
  f.flush rz <|
    match f.decode (f.flush oz a), f.decode (f.flush oz b) with
    | .nan, _ => f.nanBits
    | _, .nan => f.nanBits
    | .inf _, .inf _ => f.nanBits
    | .inf s, .fin t _ _ => f.infBits (s != t)
    | .fin s _ _, .inf t => f.signBit (s != t)
    | .fin s m e, .fin t n g =>
      if n = 0 then (if m = 0 then f.nanBits else f.infBits (s != t))
      else if m = 0 then f.signBit (s != t)
      else f.round true .rne false (s != t) m n (e - g)

/-- floor(sqrt(x)) for x < 4^n, bit by bit. -/
def isqrt (x : Nat) : Nat → Nat → Nat
  | 0, r => r
  | i + 1, r => if (r + 2 ^ i) * (r + 2 ^ i) ≤ x then isqrt x i (r + 2 ^ i) else isqrt x i r

/-- A positive value given by its floor at a fine scale and whether it is exact: a sticky bit below the floor. -/
def Ieee.roundSticky (f : Ieee) (k : Nat) (exact : Bool) (e : Int) : Nat :=
  f.round true .rne false false (2 * k + if exact then 0 else 1) 1 (e - 1)

/-- rne(sqrt(a)) (R123). -/
def Ieee.sqrt (f : Ieee) (oz rz : Bool) (a : Nat) : Nat :=
  f.flush rz <|
    match f.decode (f.flush oz a) with
    | .nan => f.nanBits
    | .inf s => if s then f.nanBits else f.infBits false
    | .fin s m e =>
      if m = 0 then f.signBit s
      else if s then f.nanBits
      else
        let (m, e) := if e % 2 = 0 then (m, e) else (2 * m, e - 1)
        let x := m * 2 ^ 256
        let k := isqrt x 160 0
        f.roundSticky k (k * k == x) (e / 2 - 128)

/-- rne(1 / sqrt(a)) (R123). -/
def Ieee.rsqrt (f : Ieee) (oz rz : Bool) (a : Nat) : Nat :=
  f.flush rz <|
    match f.decode (f.flush oz a) with
    | .nan => f.nanBits
    | .inf s => if s then f.nanBits else f.signBit false
    | .fin s m e =>
      if m = 0 then f.infBits s
      else if s then f.nanBits
      else
        let (m, e) := if e % 2 = 0 then (m, e) else (2 * m, e - 1)
        let k := isqrt (2 ^ 320 / m) 160 0
        f.roundSticky k (k * k * m == 2 ^ 320) (-(e / 2) - 160)

/-- frnd: FP32 to an integral value (R128). -/
def frnd32 (oz rz : Bool) (rm : Rm) (a : Nat) : Nat :=
  let a := fp32.flush oz a
  fp32.flush rz <|
    match fp32.decode a with
    | .nan => fp32.nanBits
    | .inf _ => a
    | .fin s m e => if 0 ≤ e ∨ m = 0 then a else fp32.round true .rne false s (roundAt rm s m 1 e 0) 1 0

/-- The float conditions of R126, on flushed operands. -/
def fcond (cc : Nat) (a b : Num) : Bool :=
  let un := a == .nan || b == .nan
  match cc with
  | 0 => Num.eq a b
  | 1 => !Num.eq a b
  | 2 => Num.lt a b
  | 3 => Num.lt a b || Num.eq a b
  | 4 => Num.lt b a
  | 5 => Num.lt b a || Num.eq a b
  | 6 => un
  | _ => !un

/-- The mask of tclass for a raw encoding (R78). -/
def tclassMask (code : Nat) (w : Nat) : Word :=
  let x := w % 2 ^ fmtWidth code
  let mk (b : List Bool) : Word := BitVec.ofNat 32 ((b.zipIdx.map fun (v, i) => if v then 2 ^ i else 0).sum)
  match code with
  | 8 | 9 | 10 | 11 | 14 =>
    let f := if code = 14 then a26 else ieeeOf code
    let x := if code = 14 then x / 64 else x
    let ex := f.expOf x
    let fr := f.fracOf x
    let top := 2 ^ f.eb - 1
    let zero := decide (ex = 0) && (decide (fr = 0) || code == 14)
    let sub := decide (ex = 0) && decide (fr ≠ 0) && code != 14
    let quiet := decide (ex = top) && decide (2 ^ (f.fb - 1) ≤ fr)
    let sig := decide (ex = top) && decide (fr ≠ 0) && !quiet
    mk [zero, quiet, sig, decide (ex = top) && decide (fr = 0), sub, decide (ex ≠ 0) && decide (ex ≠ top), f.negOf x,
      decide (ex = top - 1) && decide (fr = 2 ^ f.fb - 1),
      if code = 14 then decide (ex = 1) && decide (fr = 0) else decide (ex = 0) && decide (fr = 1)]
  | 12 | 13 =>
    let n := if code = 12 then 7 else 5
    let nar := decide (x = 2 ^ n)
    mk [decide (x = 0), nar, false, false, false, decide (x ≠ 0) && !nar, decide (2 ^ n < x),
      decide (x = 2 ^ n - 1) || decide (x = 2 ^ n + 1), decide (x = 1) || decide (x = 2 ^ (n + 1) - 1)]
  | 15 =>
    mk [false, decide (x = 255), false, false, false, decide (x ≠ 255), false, decide (x = 254), decide (x = 0)]
  | _ =>
    let v : Int := if fmtSigned code then sextNat x (fmtWidth code) else x
    let (lo, hi) := intRange code
    mk [decide (v = 0), false, false, false, false, decide (v ≠ 0), decide (v < 0), decide (v = lo) || decide (v = hi),
      decide (v = 1) || decide (v = -1)]

end Sys2Proof.Machine
end

