-- ==== Sys2Proof/Config.lean ====
section
/-! DEFINITION. Config.lean: what the spec leaves open, as constants without a body: nothing in Lean can
evaluate one or prove a value of it. Each is named in the assumption log. -/

namespace Sys2Proof

/-- Cycles that variable-latency work takes beyond its least latency (R147, R277; log entry 2). -/
opaque Config.freeDelay : Nat → Nat

/-- Which of the 160 slices of the backing die is the home of a line (R16, R18; log entry 5). -/
opaque Config.homeSlice : Nat → Nat

/-- Which of the 256 sets of its slice a line falls into (R161; log entry 5). -/
opaque Config.l2Set : Nat → Nat

/-- Which entry a full open TLB replaces (R146; log entry 6). -/
opaque Config.tlbVictim : Nat → Nat

/-- What the other members of the domain contribute to a round of a collective group: for each other rank in
rank order its literal, its NB or COUNT and its source bytes; none when some member never calls (R385; log entry 8). -/
opaque Config.peerCalls : Nat → Nat → Option (List (Nat × Word × Nat × List Byte))

/-- Whether the tables of the other members agree with rank 0's (R385; log entry 8). -/
opaque Config.peerTablesAgree : Nat → Nat → Bool

/-- Where the switches split a range of ranks of a group: PM1, first rank, length (R389; log entry 16). -/
opaque Config.treeSplit : Nat → Nat → Nat → Nat

/-- What the sensors and the arbiter's power model say: average power, hottest sensor, tokens granted (R401 to R403;
log entry 17). -/
opaque Config.measured : Nat → Nat

/-- How and when a bring-up step of this device ends (R396; log entry 18). -/
opaque Config.bringup : Nat → Nat

/-- A host adapter of this number is attached (R379, R393; log entry 9). -/
opaque Config.adapterAttached : Nat → Bool

/-- The firmware images that the module holds at a reset, in the order of R404; none for a missing or malformed one
(R404; log entry 53). -/
opaque Config.flash : Nat → Nat → Option Image

/-- The fused hashes of the two root public keys, of ECDSA and of LMS (R404; log entry 53). -/
opaque Config.fusedKeyHash : Bool → BitVec 384

/-- The fused floor of an image's security version (R404; log entry 53). -/
opaque Config.versionFloor : Nat → Word

/-- The bytes of the device's serial number (R405; log entry 10). -/
opaque Config.serial : Nat → Byte

/-- Bytes of an attestation report that rest on keys and identity the spec does not give (R405; log entry 10). -/
opaque Config.attestationByte : Nat → Nat → Byte

/-- Which old value the other agents left for a load that races (R142, R205; log entry 11). -/
opaque Config.raceChoice : Nat → Bool

/-- A byte of the device register window where the spec names no register (R17; log entry 12). -/
opaque Config.windowByte : Nat → Byte

/-- A value that an entry does not state (log entry 15). -/
opaque Config.unstated : Nat → Word

end Sys2Proof
end

