-- ==== Sys2Proof/Machine/SMap.lean ====
section
/-! DEFINITION. SMap.lean: sparse maps from numbers as sorted lists of pairs in one canonical form: keys
strictly rising, and no entry equal to what an unlisted key reads as. Memory, register files, pillow and tiles use it. -/

namespace Sys2Proof.Machine

/-- A sparse map: (key, value) pairs. -/
abbrev SMap (α : Type) := List (Nat × α)

namespace SMap

variable {α : Type}

/-- The value of key k; d when k is not listed. -/
def get (d : α) (m : SMap α) (k : Nat) : α :=
  match m with
  | [] => d
  | (k', v) :: m => if k = k' then v else get d m k

/-- Lists (k, v), in key order, in place of any entry for k that stands there. -/
def insert (m : SMap α) (k : Nat) (v : α) : SMap α :=
  match m with
  | [] => [(k, v)]
  | (k', v') :: m =>
    if k < k' then (k, v) :: (k', v') :: m
    else if k = k' then (k, v) :: m
    else (k', v') :: insert m k v

/-- Removes every entry for k. -/
def erase (m : SMap α) (k : Nat) : SMap α := m.filter fun e => e.1 != k

/-- Writes v at k; writing what an unlisted key reads as removes the entry. -/
def set [DecidableEq α] (d : α) (m : SMap α) (k : Nat) (v : α) : SMap α :=
  if v = d then m.erase k else m.insert k v

/-- Keys strictly rising. -/
def sorted : SMap α → Bool
  | [] => true
  | [_] => true
  | (k, _) :: (k', v') :: m => decide (k < k') && sorted ((k', v') :: m)

/-- The canonical form. -/
def wf [DecidableEq α] (d : α) (m : SMap α) : Bool := sorted m && m.all fun e => decide (e.2 ≠ d)

/-- Writes several pairs, in list order. -/
def setAll [DecidableEq α] (d : α) (m : SMap α) : List (Nat × α) → SMap α
  | [] => m
  | (k, v) :: ws => setAll d (set d m k v) ws

/-- Changes the value at k. -/
def upd [DecidableEq α] (d : α) (m : SMap α) (k : Nat) (f : α → α) : SMap α := set d m k (f (get d m k))

end SMap

end Sys2Proof.Machine
end

