-- ==== Sys2Proof/Machine/State.lean ====
section
/-! DEFINITION. State.lean: everything the spec gives the machine, as plain data, and the state after reset.
Tables that are mostly at their start value (register files, pillow, barriers, eyelets, memory) are sparse maps. -/

namespace Sys2Proof.Machine

/-- STATE of an eyelet (R144). -/
inductive EyeState where
  | closed | filling | opened
  deriving DecidableEq, Repr

/-- One eyelet (R144), with the fields of R218 and R226, the system-atomic attribute of R146, the token of its binding, and
the cycle from which its fill may end (R147). -/
structure Eyelet where
  st : EyeState := .closed
  reason : Reason := .none
  vla : Nat := 0
  pla : Nat := 0
  w : Bool := false
  rmt : Bool := false
  fep : BitVec 8 := 0
  own : Word := 0
  data : SMap Byte := []
  vok : Bool := false
  vtry : Nat := 0
  rgn : Nat := 31
  rgnGen : Nat := 0
  tol : Word := 0
  sysAtomic : Bool := false
  tok : Nat := 0
  due : Nat := 0
  deriving DecidableEq, Repr

/-- Thread state (R79). -/
inductive TState where
  | ready | held | waiting (k : Nat) | sleeping (until_ : Nat) | exited
  deriving DecidableEq, Repr

/-- One thread: control state (R79), parking (R345), the last instruction for the distance rule (R83), and
its copy-batch state (R195). A batch is its number and the sequence numbers not yet complete. -/
structure Thread where
  st : TState := .exited
  pc : Dword := 0
  mr : Dword := 0
  parked : Bool := false
  lastC : Nat := 0
  lastH : Nat := 0
  bseq : BitVec 16 := 0
  batches : List (Nat × List Nat) := []
  unsealed : List Nat := []
  deriving DecidableEq, Repr

/-- A pending transfer decision (R85), made at issue and applied at the clause end. -/
inductive Transfer where
  | none
  | jump (dests : List (Nat × Dword))
  | exit
  | yield
  | sleep (n : Nat)
  | waitk (k : Nat)
  | rte
  deriving DecidableEq, Repr

/-- The clause that the executing group issues (R41, R42): header, slots with their literals, the decode table
that held when the header was fetched (none: the built-in map 0, R54), the slot that issues next, ACT, the
decision of R85, cycle and hold of the last issue (R83), whether a slot of it has issued, and the fall-through of a clause whose
decision alone is taken, without a fetch (R349). -/
structure Clause where
  on : Bool := false
  hdrA : Dword := 0
  hdr : Word := 0
  words : List (Word × Option Word) := []
  tab : Option (List Word) := .none
  slot : Nat := 0
  act : Word := 0
  xf : Transfer := .none
  lastC : Nat := 0
  lastH : Nat := 0
  any : Bool := false
  fall : Option Dword := .none
  deriving DecidableEq, Repr

/-- MODE of an accumulator (R270). -/
inductive TMode where
  | z | f | i | d
  deriving DecidableEq, Repr

/-- The encoding of minus infinity in FP32, which M and MP start at (R270). -/
def negInf32 : Word := 0xFF800000

/-- One accumulator (R270, R295): content and shadow by element 64 × row + column, side registers by row. -/
structure Tile where
  mode : TMode := .z
  c : SMap Dword := []
  sh : SMap Word := []
  nstep : Nat := 0
  m : SMap Word := []
  mp : SMap Word := []
  l : SMap Word := []
  nrow : Nat := 64
  ncol : Nat := 64
  deriving DecidableEq, Repr

/-- Trap causes (R344). -/
inductive Cause where
  | hdrRsvd | opcUnmapped | litStray | litMissing | opndKind | flagAbsent | regIllegal | convIllegal | pcAlign
  | ctlDup | xregBad | chainDesc | roleBad | priv | csrBad | addrFault | permFault | xlatFault | openDiv
  | eyeClosed | eyeOffset | eyeSel | pilRange | pilAlign | pilRsvd | barMismatch | ringState | knot | peerBad
  | rangeBad | batchBad | verSpan | bsBad | bsRegion | bobNotify | bobFault | accRange | tdBad | mmaFmt
  | accMode | metaBad | soft | bkpt | pipeErr | topo | rteBad
  deriving DecidableEq, Repr

/-- The trap record (R346). -/
structure TrapRec where
  v : Bool := false
  xfer : Bool := false
  slot : Nat := 0
  rnx : Bool := false
  rslot : Nat := 0
  cause : Nat := 0
  hdr : Dword := 0
  info : Dword := 0
  tract : Word := 0
  deriving DecidableEq, Repr

/-- A raised cause that waits for the V-class work of R345 step 2. -/
structure PendTrap where
  cause : Cause
  info : Dword
  slot : Nat
  rslot : Nat
  rnx : Bool
  boundary : Bool
  hdr : Dword
  act : Word
  deriving DecidableEq, Repr

/-- An asynchronous cause that waits for its delivery (R350): for a knot, the blocked slot it is recorded at, or
the lowest thread whose wait was withdrawn (R191). -/
structure Async where
  cause : Cause
  info : Dword
  slot : Option Nat := .none
  lane : Option Nat := .none
  deriving DecidableEq, Repr

/-- What a cord that issues nothing more waits for; halted, armed and caught are its stops through the debug path: after
halt or an armed brkpt, at a breakpoint, and at a caught cause (R194, R315, R355, R356). -/
inductive Wait where
  | none
  | barw (b : Nat)
  | srwait (q s : Nat) (p : Bool)
  | acquire (tok : Nat)
  | halted
  | armed
  | caught
  deriving DecidableEq, Repr

/-- The blocked kind shown by blkst, with its object and data (R190). -/
structure Blk where
  kind : Nat := 0
  obj : Nat := 0
  data : Nat := 0
  deriving DecidableEq, Repr

/-- The arguments of a launch that waits for its release (R338): the target queue, the physical address of the
record and the register writes of the status. -/
structure LaunchReq where
  flag : Flag
  q : Nat
  src : Nat
  dst : List RegWrite
  deriving DecidableEq, Repr

/-- A call of ared or acol (R384 to R391): group, round, cord, literal, pillow offset, descriptor, contribution, physical
runs of source and destination, register writes of the status, and the status once it is known. -/
structure CollCall where
  g : Nat
  round : Nat
  cord : Nat
  mid : Nat
  flag : Flag
  col : Bool
  lit : Word
  off : Nat
  desc : List Word
  src : List Byte
  srcRuns : List (Nat × Nat)
  dst : List RegWrite
  dstRuns : List (Nat × Nat)
  status : Option Nat
  deriving DecidableEq, Repr

/-- What a release does when it takes effect (R201). follow and followAtom are no releases: they leave the core behind a
release or a drain of a number below upto that holds words of theirs, so that the home performs them in cord order (R207,
R310). A notify carries its place among those of its motif (R248). -/
inductive RelKind where
  | store (m : StoreMsg)
  | atom (r : AtomReq)
  | arrive (b : Nat)
  | peer (mid b n : Nat)
  | publish (q s : Nat)
  | free (q s : Nat) (p : Bool)
  | notify (n : Nat) (t0 t2 : BitVec 16) (lanes : Word)
  | post (f : Flag) (v : Word) (b0 : Bool)
  | launch (x : LaunchReq)
  | rsig (dev q : Nat) (t : Word)
  | coll (x : CollCall)
  | follow (m : StoreMsg) (upto : Nat)
  | followAtom (r : AtomReq) (upto : Nat)
  deriving DecidableEq, Repr

/-- A pending release; own is what it counts in stcnt itself, loads the wait-full loads before it (R188, R201). -/
structure Release where
  kind : RelKind
  own : Nat
  loads : List Nat := []
  deriving DecidableEq, Repr

/-- What an outstanding multi-part form does when its last part ends: an openv reads its version word again, or for the
next attempt (version); a load has its eyelet and its lanes, with the bytes of the eyelet that its cord owned
when it issued and owns still, until its value is read; an atomic brings the cord's eyelets up to date by the bytes of its
line (R154, R212, R218). -/
inductive OpKind where
  | plain
  | versioned (first n t v1 : Nat) (dead : Bool)
  | version (first n t : Nat) (dead : Bool)
  | wakeBarw
  | wakeWait
  | reopen
  | load (z : LdSize) (d : Wr) (wb : Nat) (e : Nat) (lanes : List (Nat × Nat)) (kept : List (Nat × Byte))
  | drain (core q : Nat)
  | atom (line : Nat) (cells : List (Nat × Byte))
  deriving DecidableEq, Repr

/-- An outstanding form: its flag (R81), parts left, ldcnt and stcnt it returns at its end, what its end does, the register
writes of its completion, and the cycle before which an acquire does not end it (R173). -/
structure Op where
  tok : Nat
  flag : Option Flag := .none
  left : Nat := 0
  ld : Nat := 0
  stc : Nat := 0
  kind : OpKind := .plain
  writes : List RegWrite := []
  due : Nat := 0
  deriving DecidableEq, Repr

/-- One page of a context (R18); bad stands for an invalid or unreadable table entry (R166). The page-table
format is not in the spec: DESIGN CHOICE, log entry 4. -/
structure Page where
  ctx : Nat
  va : Nat
  big : Bool
  pa : Nat
  r : Bool
  w : Bool
  sysAtomic : Bool
  bad : Bool
  deriving DecidableEq, Repr

/-- Where a group resumes inside a clause: its first slot (8 stands for the clause end), the decision already made,
its lanes, the clause's header, and the fall-through of the clause that made the decision (R349, R360). -/
structure Resume where
  slot : Nat
  xf : Transfer
  tract : Word
  hdr : Dword
  ft : Dword := 0
  deriving DecidableEq, Repr

/-- What the knot detector saw of a blocked cord at its last reading: its blkst and the cords that could wake it (0 stands for a
waker that is no cord) (R191). -/
structure Seen where
  blk : Blk
  wakers : List Nat
  deriving DecidableEq, Repr

/-- One cord (R79, R80, R144, R195, R270, R272, R346); fetched holds a header that waits for its WAIT flags: its address,
its word and the decode table that held when it was fetched (R54, R99); fit tells whether the cord was eligible when this
cycle's choice began, none while its slot was held (R88). -/
structure Cord where
  cid : Nat := 0
  live : Bool := false
  mid : Nat := 0
  ctx : Nat := 0
  core : Nat := 0
  slot : Nat := 0
  idx : Nat := 0
  role : Nat := 2
  pri : Bool := false
  age : Nat := 0
  count : Nat := 0
  urgent : Bool := false
  regs : Nat := 16
  xmax : Nat := 0
  nacc : Nat := 0
  threads : SMap Thread := []
  rotP : Nat := 31
  chosen : Option Dword := .none
  v : SMap Word := []
  s : SMap Word := []
  k : SMap Word := []
  f : SMap Nat := []
  jm : Word := 0
  wb : Nat := 0
  xblk : Nat := 0
  xgrant : Nat := 0
  ovf : Bool := false
  topo : Bool := false
  cl : Clause := {}
  fpctl : Byte := 0
  mprom : BitVec 6 := 15
  ldcnt : Nat := 0
  stcnt : Nat := 0
  epoch : BitVec 8 := 0
  trapvec : Dword := 0
  trap : TrapRec := {}
  trapXf : Transfer := .none
  trapFt : Dword := 0
  pend : Option PendTrap := .none
  async : List Async := []
  eyes : SMap Eyelet := []
  tds : SMap Word := []
  tiles : SMap Tile := []
  amode : SMap TMode := []
  ops : List Op := []
  rels : List Release := []
  wait : Wait := .none
  blk : Blk := {}
  seen : Option Seen := .none
  stallAt : Nat := 0
  issuedAt : Nat := 0
  fit : Option Bool := .none
  chain : Bool := false
  skipBrk : Bool := false
  walked : List (Nat × Option Page) := []
  resume : Option Resume := .none
  refetch : Bool := false
  fetched : Option (Dword × Word × Option (List Word)) := .none
  tabFault : Option (Cause × Dword) := .none
  deriving DecidableEq, Repr

/-- One named barrier (R176); reg counts arrivals registered and not yet counted (R178). -/
structure Bar where
  ph : Bool := false
  exp : Nat := 0
  arr : Nat := 0
  am : Word := 0
  wm : Word := 0
  reg : Nat := 0
  deriving DecidableEq, Repr

/-- One stage ring (R185) with its declaration (R319). -/
structure RingSt where
  dcl : Bool := false
  prod : Nat := 0
  cons : Nat := 0
  h : Nat := 0
  hp : Bool := false
  st : SMap Nat := []
  sp : SMap Bool := []
  own : SMap Nat := []
  deriving DecidableEq, Repr

/-- A pending wait-full load (R172): lanes with their offsets, destination bound at issue, and the cycle before which its result
is not written (R173). -/
structure WfLoad where
  k : Nat
  cord : Nat
  take : Bool
  z : Nat
  lanes : List (Nat × Nat)
  dst : Wr
  wb : Nat
  flag : Flag
  due : Nat
  deriving DecidableEq, Repr

/-- A published command: its sequence, its publishing cord and the active lanes of the notify store (R248). -/
structure BobPub where
  seq : Nat
  cord : Nat
  lanes : Word
  deriving DecidableEq, Repr

/-- A command in the issue journal (R249, R253, R256): the entry as read at the take, the pages it has reached, the
row and byte of its next piece, the index entries read (none: out of range), whether it waits for a page or an
index read, its drops and first fault, pieces in hand, memory writes not yet acknowledged, and the rest of a source half-line whose first bytes
ended a destination line (carry, R253). -/
structure JEntry where
  j : Nat
  mid : Nat
  pub : BobPub
  w : List Word
  trans : List Page := []
  row : Nat := 0
  off : Nat := 0
  idx : List (Option Nat) := []
  waiting : Bool := false
  drops : Nat := 0
  fault : Nat := 0
  feSet : Bool := false
  pieces : Nat := 0
  acks : Nat := 0
  carry : List Byte := []
  complete : Bool := false
  deriving DecidableEq, Repr

/-- Where a motif stands (R328, R331). -/
inductive MStatus where
  | unreleased | running | saved | discarding | retired
  deriving DecidableEq, Repr

/-- One motif (R12, R14): identity, pillow and its place (R167, R171), barriers, rings, pending loads, bobbin ring
(R247) with the notify stores issued and in effect (R248), pre-emption (R331, R335, R336), the cycle from which it stops the cords
(R357) and the motif it was pre-empted for, its drains at retirement (R234), its places in the order of residence and of release
(R331, R409), and what of its barriers, rings and granules has not changed since a blocked cord named it at the last reading of
the knot detector (R191). -/
structure Motif where
  mid : Nat := 0
  queue : Nat := 0
  idx : Nat := 0
  x : Nat := 0
  y : Nat := 0
  z : Nat := 0
  core : Nat := 0
  status : MStatus := .unreleased
  ctx : Nat := 0
  copies : Nat := 0
  matrices : Nat := 0
  vectors : Nat := 0
  regs : Nat := 16
  xregs : Nat := 0
  pb : Nat := 0
  pil : SMap Byte := []
  fe : SMap Bool := []
  bars : SMap Bar := []
  shadow : SMap Bar := []
  rings : SMap RingSt := []
  wf : List WfLoad := []
  tail : BitVec 16 := 0
  notified : BitVec 16 := 0
  done : BitVec 16 := 0
  drops : Word := 0
  fstat : Word := 0
  pubs : List BobPub := []
  notices : Nat := 0
  noticed : Nat := 0
  replays : List JEntry := []
  pastIdend : Bool := false
  saving : Bool := false
  saveAt : Nat := 0
  discard : Bool := false
  base : Nat := 0
  madeFor : Option (Nat × Nat) := .none
  drains : Option (List (Nat × Nat × Nat)) := .none
  startOrd : Nat := 0
  relOrd : Nat := 0
  watch : List (Nat × Nat) := []
  deriving DecidableEq, Repr

/-- A holder of a share of a region (R230, R231): a cluster of this device, or 1,000 × (device + 1) + a cluster of another
one (R383). -/
structure Holder where
  cl : Nat
  units : Nat
  draining : Bool
  deriving DecidableEq, Repr

/-- A bounded-sum region with its master's record (R225, R231): phys holds the global addresses of its 64 KiB pages, joined
the contexts of other devices that share the record, by device and number; the record of a region whose master is on another
device stands there, and left tells that it has taken this context's bsfree (R383). -/
structure Region where
  n : Nat
  gen : Nat
  base : Nat
  size : Nat
  bnd : Word
  dtol : Word
  free : Nat
  holders : List Holder := []
  asking : List Nat := []
  trims : Nat := 0
  closing : Bool := false
  phys : List Nat := []
  joined : List (Nat × Nat) := []
  left : Bool := false
  deriving DecidableEq, Repr

/-- What a queued matrix form works on (R268): descriptors, registers and metadata are copied at issue, with the
accumulators named. sparse carries the group metadata of compressed row r at key 12 × r + group (R299). -/
inductive TWork where
  | azero (d : Nat)
  | ald (d view : Nat) (vals : List (Nat × Dword)) (sides : List (Nat × Word × Word × Word))
  | ast (x a view p : Nat)
  | aprom (d : Nat)
  | acvt (d : Nat) (m : TMode)
  | mma (d : Nat) (a b : List Word)
  | sparse (tr : Bool) (d : Nat) (a b : List Word) (groups : List (Nat × Nat))
  | mmaAcc (d a : Nat) (b : List Word)
  | amaxu (d : Nat)
  | arsc (d a : Nat)
  | adrn (a : Nat) (b : List Word) (lit : Word)
  deriving DecidableEq, Repr

/-- Where a matrix form stands: queued, occupying the array or the accumulator port, or past its occupancy (R277). -/
inductive TPhase where
  | queued | occupying | leaving
  deriving DecidableEq, Repr

/-- A matrix form in the tambour (R268, R277): its translations, the half-lines still to fetch and those fetched,
the lines it pins and those read without a pin, with the number of their stay in L2 (R282), its tokens, occupancy and completion time as fixed at issue
(R399), what it has computed, and for a drain its lines, the version updates performed (R311)
the outstanding form it belongs to (R310), and the regions of its context as it issued (R309). -/
structure TForm where
  q : Nat
  cord : Nat
  ctx : Nat
  flag : Flag
  work : TWork
  nm1 : Nat := 15
  trans : List Page := []
  sent : Bool := true
  need : List Nat := []
  got : List (Nat × List Byte) := []
  vas : List (Nat × Nat) := []
  pinned : List Nat := []
  loose : List (Nat × Nat) := []
  tokens : Nat := 1
  occ : Nat := 0
  lat : Nat := 0
  phase : TPhase := .queued
  tile : Option Tile := .none
  writes : List RegWrite := []
  lines : List DrainLine := []
  version : Nat := 0
  opTok : Nat := 0
  regions : List Region := []
  deriving DecidableEq, Repr

/-- One core: open TLB (R146), decode tables as last read (R54), slot and unit
occupancy per issue slot (R118, R121, R122), with the cord that holds a slot before its form issues (R146, R220), tambour queue (R268), xacq requests (R97), blocks that xrel returned in the cycle
before xrelAt (R103), bobbin journal (R249), debug arming (R355). -/
structure Core where
  core : Nat := 0
  tlb : List Page := []
  tabs : List (Nat × Option (List Word)) := []
  holdUntil : SMap Nat := []
  holder : SMap Nat := []
  slotUsed : SMap Nat := []
  vecFree : SMap Nat := []
  divFree : SMap Nat := []
  sfuFree : SMap Nat := []
  xchFree : SMap Nat := []
  tq : List TForm := []
  arrayFree : Nat := 0
  xreqs : List (Nat × Nat) := []
  xrelAt : Nat := 0
  xrelN : Nat := 0
  journal : List JEntry := []
  bobLast : Nat := 0
  armed : Bool := false
  deriving DecidableEq, Repr

/-- A line present in an L2 slice (R161, R165, R221, R364); born numbers its stay there. -/
structure L2Line where
  line : Nat
  slice : Nat
  set : Nat
  way : Nat
  dirty : Bool := false
  stamp : Nat := 0
  pins : Nat := 0
  lockers : List Nat := []
  born : Nat := 0
  deriving DecidableEq, Repr

/-- A bsdef that waits for the answer of a master on another device (R383): its cord and flag, its context, the register
writes of the status, and the region. -/
structure Defining where
  cord : Nat
  flag : Flag
  ctx : Nat
  dst : List RegWrite
  new : Region
  deriving DecidableEq, Repr

/-- A granule of withheld sums: sixteen FP32 partials, unlisted ones at minus zero (R228),
and the rollback group and the queue of its first addition. owes names an addition that tripped the drain and counts as
performed at the home alone, by cord and token (R234). -/
structure Granule where
  ctx : Nat
  rgn : Nat
  addr : Nat
  by_ : Option (Nat × Nat)
  q : Option Nat
  parts : SMap Word
  owes : List (Nat × Nat) := []
  deriving DecidableEq, Repr

/-- A tracker of a picot cache (R228, R230): acks counts granules on their way home; a drain also waits for the
additions numbered below upto that passed through, and tells the forms in waiters of its end. -/
structure Tracker where
  ctx : Nat
  rgn : Nat
  units : Nat
  t : Word := 0
  draining : Bool := false
  acks : Nat := 0
  upto : Nat := 0
  waiters : List (Nat × Nat) := []
  deriving DecidableEq, Repr

/-- The picot cache of a cluster (R228, R229), oldest granule first. -/
structure Picot where
  cl : Nat := 0
  granules : List Granule := []
  trackers : List Tracker := []
  asked : List (Nat × Nat) := []
  deriving DecidableEq, Repr

/-- A context and its register block (R52, R161, R164, R352, R359); vec is what the loader puts into trapvec of the cords that
start in it (R352). -/
structure Ctx where
  id : Nat := 0
  en : Bool := false
  sys : Bool := false
  ev : BitVec 3 := 0
  saveBase : Dword := 0
  saveSize : Word := 0
  snapBase : Dword := 0
  snapSize : Word := 0
  kcode : Nat := 0
  quota : BitVec 16 := 0
  locks : List Nat := []
  evphase : BitVec 16 := 0
  vec : Dword := 0
  decbase : Dword := 0
  regions : List Region := []
  saved : List (Nat × Nat) := []
  deriving DecidableEq, Repr

/-- One command queue (R316): QBASE, QCTL, QHEAD and QTAIL. -/
structure Queue where
  base : Dword := 0
  ctl : Word := 0x00400000
  head : Word := 0
  tail : Word := 0
  deriving DecidableEq, Repr

/-- Where a taken record stands (R324, R330, R366, R369). -/
inductive PState where
  | waiting | running | completing | killing (code : Nat) | rolling (code : Nat)
  deriving DecidableEq, Repr

/-- A launch that runs or is held (R324, R327, R328): the record as copied at the take, its entry's virtual and its
result word's physical address, the released and retired motifs, the predecessors of a list pricking, the drains of
R234 that it waits for, the 4 KiB units of the area that its scoreboard has (R327), the order of its take and of its start (R331), its
replays (R369), and whether QHEAD has passed its entry. -/
structure Pattern where
  q : Nat := 0
  ctx : Nat := 0
  rcd : List Word := []
  entry : Nat := 0
  res : Nat := 0
  st : PState := .waiting
  released : SMap Bool := []
  retired : SMap Bool := []
  preds : List (List Nat) := []
  sb : Nat := 0
  sbAt : List Nat := []
  stuck : Option (SMap Bool) := .none
  drains : Option (List (Nat × Nat × Nat)) := .none
  ord : Nat := 0
  started : Nat := 0
  replays : Nat := 0
  advanced : Bool := false
  deriving DecidableEq, Repr

/-- An enqueue that is to be made: the target queue and the physical address of the record that is copied into it, or the
words already copied (R330 step 7, R367); or the QTAIL that an rsig wrote, its record being in place (R392). -/
structure Enq where
  q : Nat
  src : Nat
  words : Option (List Word)
  tail : Option Word := .none
  deriving DecidableEq, Repr

/-- A rollback epoch of a group (R367): snapshots by 64 KiB granule with the inside, FOREIGN and EXPOSED marks, held
enqueues and STATUS writes (context, address, value), and the launches of the epoch in start order. -/
structure Epoch where
  ctx : Nat
  grp : Nat
  snaps : List (Nat × List (Nat × Byte) × Bool × Bool × Bool)
  held : List Enq
  status : List (Nat × Nat × Word)
  recs : List Pattern
  deriving DecidableEq, Repr

/-- A peer arrival that waits for a saved motif (R183). -/
structure PeerEntry where
  cl : Nat
  mid : Nat
  b : Nat
  n : Nat
  deriving DecidableEq, Repr

/-- An eviction schedule entry (R164). -/
structure SchedEntry where
  w0 : Dword := 0
  w1 : Dword := 0
  deriving DecidableEq, Repr

/-- A collective group table (R384), its call count and its open calls (R385). -/
structure Group where
  ctl : Word := 0
  ranks : SMap Nat := []
  calls : Nat := 0
  closed : List Nat := []
  deriving DecidableEq, Repr

/-- STATE of DEVSTAT (R396, R397, R403). -/
inductive DevState where
  | reset | verify | calib | init | early | full | failed | tripped | off
  deriving DecidableEq, Repr

/-- Registers of bring-up, power, security and health, and of the Réseau (R371, R380, R397 to R407). -/
structure Dev where
  st : DevState := .reset
  erdy : Bool := false
  frdy : Bool := false
  repl : Bool := false
  degr : Bool := false
  fcode : Nat := 0
  lpch : Nat := 0
  lpddrReady : Bool := false
  plim : Nat := 2300
  tlim : Nat := 100
  pwrNext : Option Word := .none
  pavg : Nat := 0
  thot : Nat := 0
  thr : Bool := false
  lim : Bool := false
  cool : Nat := 0
  tokens : SMap Nat := []
  attBuf : Nat := 0
  attBusy : Bool := false
  hlthBase : Dword := 0
  hlthHead : Word := 0
  owed : List (Nat × List Word) := []
  images : List (Option Image) := []
  correctable : SMap Nat := []
  mismatches : Nat := 0
  join : Bool := false
  links : BitVec 36 := 0
  retries : Nat := 0
  devno : Nat := 0
  lost : List Nat := []
  clusters : BitVec 40 := 0xFFFFFFFFFF
  leaving : BitVec 40 := 0
  us : Nat := 0
  cpsb : Dword := 0
  deriving DecidableEq, Repr

/-- An entry of a die's table of remote sharers (R381): the 512-byte region, its sharer dies by device and die, and whether
a registration on the region went to the overflow count. -/
structure RemoteEntry where
  die : Nat
  region : Nat
  dies : List (Nat × Nat)
  full : Bool
  deriving DecidableEq, Repr

/-- The debugger needle, as far as it acts on the device (R194, R315, R355): the queue of the pattern it has loaded, the
codes of the causes it catches, whether a run has not returned yet, and the queue of the pattern whose bobbins and releases
it holds from the return of a run to the next run (R266, R341). -/
structure Needle where
  loaded : Option Nat := .none
  catches : List Nat := []
  running : Bool := false
  held : Option Nat := .none
  deriving DecidableEq, Repr

/-- An item of the agenda: a machine event and the cycle from which it may happen (DESIGN CHOICE, log entry 1). -/
structure Due where
  at_ : Nat
  what : Event
  deriving DecidableEq, Repr

/-- The whole machine; `now` is the event that is happening (the MODEL's own field, log entry 1),
`spread` lists the 32 MiB physical pages with spread mapping (R18), `outbox` what left the device for another device, a host adapter or the module's controller, `remote` and `overflow` the home dies' record of
remote sharers (R381), `losing` the cores of other devices, with lines, whose acknowledgement of an owner loss is awaited (R200, R377),
`defining` and `asked` what masters on other devices have not yet answered (R383), `l2Count` the lines that have come into L2 so far, `needle` and `breaks` what needle has set
through the debug path (R194), and `counted` one more than the last cycle whose choice has been judged (R88). -/
structure State where
  cycle : Nat := 0
  fresh : Nat := 0
  agenda : List Due := []
  now : Option Event := .none
  cord : Cord := {}
  cords : List Cord := []
  motif : Motif := {}
  motifs : List Motif := []
  cores : List Core := []
  mem : SMap Byte := []
  backing : SMap Byte := []
  l2 : List L2Line := []
  l2Count : Nat := 0
  flushCtr : SMap Nat := []
  owners : List (Nat × Nat) := []
  losing : List (Nat × Nat) := []
  lostLines : List Nat := []
  sched : SMap SchedEntry := []
  pages : List Page := []
  spread : List Nat := []
  ctxs : List Ctx := []
  picots : List Picot := []
  queues : SMap Queue := []
  patterns : List Pattern := []
  epochs : List Epoch := []
  peers : List PeerEntry := []
  recalls : List (Nat × Nat × Nat) := []
  groups : SMap Group := []
  calls : List CollCall := []
  dev : Dev := {}
  remote : List RemoteEntry := []
  overflow : SMap Nat := []
  defining : List Defining := []
  asked : List Nat := []
  outbox : List (Nat × OutMsg) := []
  needle : Needle := {}
  breaks : List Dword := []
  succs : List Enq := []
  rrQueue : SMap Nat := []
  rrPattern : SMap Nat := []
  rrCore : Nat := 0
  counted : Nat := 0
  knotAt : Nat := 0
  lastPath : List (Nat × Nat × Nat) := []
  deriving DecidableEq, Repr

/-- Reasons the machine stops. -/
inductive Fault where
  /-- Raised by step alone: every clock has stopped after a thermal trip, or power is removed, and no event
  stands in the agenda (R400, R403). Safe: nothing runs where the hardware would run. -/
  | clocksStopped
  deriving DecidableEq, Repr

/-- Reasons an instruction has no meaning. -/
inductive Refusal where
  /-- Raised by exec's arm of an instruction that is not modelled. Safe: a claim about it cannot be proved. -/
  | notModelled (mnemonic : String)
  deriving DecidableEq, Repr

/-- The machine right after reset (R396): DEVSTAT in RESET, power limits at their reset values, every queue with
LOG2N 4, no context, cord or motif, memory with nothing listed, and the event that starts bring-up due. Every page has
near mapping (R18 gives none after reset: DESIGN CHOICE, log entry 50). -/
def State.reset : State := { agenda := [⟨0, .reset⟩] }

end Sys2Proof.Machine
end

