-- ==== Sys2Proof/Machine/Operands.lean ====
section
/-! DEFINITION. Operands.lean: what each operand form reads and where each destination writes (R44, R45, R80,
R96, R104, R105). -/

namespace Sys2Proof.Machine

/-- Lanes of a mask, lowest first. -/
def lanesOf (m : Word) : List Nat := (List.range 32).filter fun l => bit m l

/-- The lowest lane of a mask; 0 for an empty one. -/
def lowest (m : Word) : Nat := (lanesOf m).headD 0

/-- The mask of a list of lanes. -/
def maskOf (ls : List Nat) : Word := ls.foldl (fun m l => m ||| (1 <<< l)) 0

/-- The mask of the lanes for which p holds. -/
def maskWhere (p : Nat → Bool) : Word := maskOf ((List.range 32).filter p)

/-- Physical registers a thread owns (R96). -/
def Cord.own (c : Cord) : Nat := c.regs + 16 * c.xblk

def Cord.vreg (c : Cord) (n l : Nat) : Word := SMap.get 0 c.v ((c.wb + n) * 32 + l)
def Cord.sreg (c : Cord) (n : Nat) : Word := SMap.get 0 c.s n
def Cord.kreg (c : Cord) (n : Nat) : Word := SMap.get 0 c.k n
def Cord.flagOf (c : Cord) (n : Nat) : Nat := SMap.get 0 c.f n
def Cord.thread (c : Cord) (l : Nat) : Thread := SMap.get {} c.threads l
def Cord.setThread (c : Cord) (l : Nat) (t : Thread) : Cord := { c with threads := SMap.set {} c.threads l t }
def Cord.eye (c : Cord) (e : Nat) : Eyelet := SMap.get {} c.eyes e
def Cord.setEye (c : Cord) (e : Nat) (x : Eyelet) : Cord := { c with eyes := SMap.set {} c.eyes e x }
def Cord.tile (c : Cord) (a : Nat) : Tile := SMap.get {} c.tiles a
def Cord.setTile (c : Cord) (a : Nat) (x : Tile) : Cord := { c with tiles := SMap.set {} c.tiles a x }

/-- ACT, the active lanes of the executing group (R79). -/
def Cord.act (c : Cord) : Word := c.cl.act

/-- A thread that has not exited (R79). -/
def Thread.live (t : Thread) : Bool := t.st != .exited

/-- A thread that can be in the executing group: ready and not parked (R79, R345). -/
def Thread.ready (t : Thread) : Bool := t.st == .ready && !t.parked

def Cord.liveMask (c : Cord) : Word := maskWhere fun l => (c.thread l).live
def Cord.readyMask (c : Cord) : Word := maskWhere fun l => (c.thread l).ready

/-- Lanes of the ready threads whose next header is at pc (R79). -/
def Cord.groupAt (c : Cord) (pc : Dword) : Word :=
  maskWhere fun l => (c.thread l).ready && (c.thread l).pc == pc

/-- DIV of stat: the live threads are not all in one ready PC group (R80). -/
def Cord.div (c : Cord) : Bool := c.liveMask != c.groupAt (c.thread (lowest c.liveMask)).pc

/-- The cord status word (R80). -/
def Cord.stat (c : Cord) : Word :=
  BitVec.ofNat 32 (c.role * 2 ^ 14 + c.slot * 2 ^ 12 + c.xblk * 2 ^ 8 + c.wb / 16 * 2 ^ 4
    + (if c.ovf then 8 else 0) + (if c.topo then 4 else 0) + (if c.pri then 2 else 0) + if c.div then 1 else 0)

/-- A source read in lane l (R104). -/
def Cord.rd (c : Cord) (r : Rd) (l : Nat) : Word :=
  match r with
  | .v n => c.vreg n l
  | .s n => c.sreg n
  | .zero => 0
  | .lane => BitVec.ofNat 32 l
  | .cordid => BitVec.ofNat 32 c.idx
  | .stat => c.stat

/-- Register n above a source name, read in lane l; zero stays 0 (R45). -/
def Cord.rdAt (c : Cord) (r : Rd) (k l : Nat) : Word :=
  match r with
  | .v n => c.vreg (n + k) l
  | .s n => c.sreg (n + k)
  | r => c.rd r l

/-- A pair source read in lane l (R45, R55). -/
def Cord.rd64 (c : Cord) (r : Rd) (l : Nat) : Dword := pair64 (c.rdAt r 0 l) (c.rdAt r 1 l)

/-- Operand B of an opt form (R43). -/
def Cord.src (c : Cord) (b : Src) (l : Nat) : Word :=
  match b with
  | .reg r => c.rd r l
  | .lit x => x

/-- Operand B of an opt `.64` integer form: a literal is sign-extended (R43, R107). -/
def Cord.src64 (c : Cord) (b : Src) (l : Nat) : Dword :=
  match b with
  | .reg r => c.rd64 r l
  | .lit x => x.signExtend 64

/-- D read as a source (R45). -/
def wrRd (d : Wr) : Rd :=
  match d with
  | .v n => .v n
  | .s n => .s n

/-- The lanes on which a form with destination d runs: every active lane, or once, as the lowest (R104). -/
def Cord.runLanes (c : Cord) (d : Wr) : List Nat :=
  match d with
  | .v _ => lanesOf c.act
  | .s _ => [lowest c.act]

/-- A source read as under cord execution, for forms without a D (R104, R119). -/
def Cord.once (c : Cord) (r : Rd) : Word := c.rd r (lowest c.act)
def Cord.once64 (c : Cord) (lo hi : Rd) : Nat := (c.once lo).toNat + (c.once hi).toNat * 2 ^ 32

/-- The write of one register word, k names above d, bound at issue (R96). -/
def Cord.bind (c : Cord) (d : Wr) (k l : Nat) (x : Word) : RegWrite :=
  match d with
  | .v n => .v (c.wb + n + k) l x
  | .s n => .s (n + k) x

/-- Words f l, lowest register first, written to d and above it in every lane the form runs on (R104). -/
def Cord.writes (c : Cord) (d : Wr) (f : Nat → List Word) : List RegWrite :=
  (c.runLanes d).flatMap fun l => (f l).zipIdx.map fun (x, k) => c.bind d k l x

def Cord.writes32 (c : Cord) (d : Wr) (f : Nat → Word) : List RegWrite := c.writes d fun l => [f l]
def Cord.writes64 (c : Cord) (d : Wr) (f : Nat → Dword) : List RegWrite := c.writes d fun l => [lo32 (f l), hi32 (f l)]

/-- One value for the cord: every active lane of a vector D takes it (R104, R237). -/
def Cord.writesOnce (c : Cord) (d : Wr) (x : Word) : List RegWrite := c.writes32 d fun _ => x

/-- A completed register write (R84). -/
def Cord.apply (c : Cord) (w : RegWrite) : Cord :=
  match w with
  | .v p l x => { c with v := SMap.set 0 c.v (p * 32 + l) x }
  | .s n x => { c with s := SMap.set 0 c.s n x }
  | .k n x => { c with k := SMap.set 0 c.k n x }
  | .td d w x => { c with tds := SMap.set 0 c.tds (d * 8 + w) x }

def Cord.applyAll (c : Cord) (ws : List RegWrite) : Cord := ws.foldl Cord.apply c

/-- Vector names that a source of k registers names: first and count (R96). -/
def rdVecs (r : Rd) (k : Nat) : List (Nat × Nat) :=
  match r with
  | .v n => [(n.val, k)]
  | _ => []

def wrVecs (d : Wr) (k : Nat) : List (Nat × Nat) :=
  match d with
  | .v n => [(n.val, k)]
  | _ => []

def srcVecs (b : Src) (k : Nat) : List (Nat × Nat) :=
  match b with
  | .reg r => rdVecs r k
  | _ => []

/-- Every named vector register lies in the registers that the thread owns (R96). -/
def Cord.owns (c : Cord) (vs : List (Nat × Nat)) : Bool := vs.all fun (n, k) => decide (c.wb + n + k ≤ c.own)

/-- Word w of tile descriptor d (R272). -/
def Cord.td (c : Cord) (d w : Nat) : Word := SMap.get 0 c.tds (d * 8 + w)

end Sys2Proof.Machine
end

