-- ==== Sys2Proof/Machine/Flags.lean ====
section
/-! DEFINITION. Flags.lean: completion flags, outstanding counters, latency classes, and the conditions of the
compares (R47, R81, R83, R115, R126, R196). -/

namespace Sys2Proof.Machine

/-- Latency classes (R47). -/
inductive Lat where
  | i4 | f6 | d10 | l6 | x (h : Nat) | v | n
  deriving DecidableEq, Repr

/-- H of R83. -/
def Lat.hold : Lat → Nat
  | .i4 => 4
  | .f6 => 6
  | .l6 => 6
  | .d10 => 10
  | .x h => h
  | .v => 1
  | .n => 1

/-- Adds to a completion flag (R81). -/
def Cord.flagUp (c : Cord) (f : Nat) : Cord := { c with f := SMap.upd 0 c.f f (· + 1) }
def Cord.flagDown (c : Cord) (f : Nat) : Cord := { c with f := SMap.upd 0 c.f f (· - 1) }

/-- Header fields of the executing clause (R41). -/
def hdrCount (h : Word) : Nat := fld h 29 3
def hdrWait (h : Word) (f : Nat) : Bool := bit h (17 + f)
def hdrDist (h : Word) (n : Nat) : Bool := bit h (1 + n)

/-- The flag that slot n of a clause attaches to; none for 15 (R41). -/
def hdrFlag (h : Word) (n : Nat) : Option Flag :=
  let x := if n < 4 then fld h 13 4 else fld h 9 4
  if h : x < 12 then some ⟨x, h⟩ else none

/-- The header rules of R41. -/
def hdrOk (h : Word) : Bool :=
  let legal (x : Nat) := decide (x < 12) || x == 15
  !bit h 0 && legal (fld h 13 4) && legal (fld h 9 4) && fld h (2 + hdrCount h) (7 - hdrCount h) == 0

/-- The flag of the slot that issues. -/
def Cord.slotFlag (c : Cord) : Option Flag := hdrFlag c.cl.hdr c.cl.slot

/-- The flag of the slot, where R48 has been checked. -/
def Cord.flag (c : Cord) : Flag := c.slotFlag.getD 0

/-- Every flag of the header's WAIT field reads zero (R82). -/
def Cord.waitMet (c : Cord) (h : Word) : Bool :=
  (List.range 12).all fun f => !hdrWait h f || c.flagOf f == 0

/-- The integer conditions of R115. -/
def icond {w : Nat} (cc : Nat) (a b : BitVec w) : Bool :=
  match cc with
  | 0 => a == b
  | 1 => a != b
  | 2 => a.slt b
  | 3 => a.sle b
  | 4 => b.slt a
  | 5 => b.sle a
  | 6 => a.ult b
  | 7 => a.ule b
  | 8 => b.ult a
  | _ => b.ule a

/-- A mask register written by a compare or vote: bits outside ACT stay (R115, R126, R135). -/
def Cord.maskMerge (c : Cord) (k : Nat) (t : Nat → Bool) : List RegWrite :=
  if k = 15 then [] else [.k k ((c.kreg k &&& ~~~c.act) ||| (maskWhere t &&& c.act))]

end Sys2Proof.Machine
end

