-- ==== Sys2Proof/Machine/Ops.lean ====
section
/-! DEFINITION. Ops.lean: the named operations over cords, motifs, cores and the agenda; issuing a form with the
checks of R343; taking a trap (R345 to R347) and returning from one (R349). -/

namespace Sys2Proof.Machine

/-- The outcome of one step of this machine. -/
abbrev Out := Host.Outcome State Fault Refusal

/-! Cords, motifs, cores and contexts by number. -/

def State.findCord (s : State) (c : Nat) : Option Cord := (s.cord :: s.cords).find? fun x => x.live && x.cid == c

/-- The record of a cord, which stays after its end until its motif retires or is discarded. -/
def State.cordRec (s : State) (c : Nat) : Option Cord := (s.cord :: s.cords).find? fun x => x.cid == c

/-- Every cord that has started and not ended. -/
def State.allCords (s : State) : List Cord := (s.cord :: s.cords).filter (·.live)

def State.mapCords (f : Cord → Cord) (s : State) : State := { s with cord := f s.cord, cords := s.cords.map f }

def State.onCord (c : Nat) (f : Cord → Cord) (s : State) : State := s.mapCords fun x => if x.cid = c then f x else x

/-- Changes the focused cord, the one whose instruction executes. -/
def State.onSelf (f : Cord → Cord) (s : State) : State := { s with cord := f s.cord }

def State.allMotifs (s : State) : List Motif := (s.motif :: s.motifs).filter (·.mid != 0)

def State.findMotif (s : State) (m : Nat) : Option Motif := s.allMotifs.find? (·.mid == m)

def State.mapMotifs (f : Motif → Motif) (s : State) : State := { s with motif := f s.motif, motifs := s.motifs.map f }

def State.onMotif (m : Nat) (f : Motif → Motif) (s : State) : State :=
  s.mapMotifs fun x => if x.mid = m then f x else x

/-- Brings motif m to the focus. -/
def State.focusMotif (m : Nat) (s : State) : State :=
  if s.motif.mid = m then s
  else
    match s.motifs.find? (·.mid == m) with
    | none => s
    | some x =>
      let rest := s.motifs.filter (·.mid != m)
      { s with motif := x, motifs := if s.motif.mid = 0 then rest else s.motif :: rest }

/-- Brings cord c and its motif to the focus. -/
def State.focus (c : Nat) (s : State) : State :=
  if s.cord.cid = c then s.focusMotif s.cord.mid
  else
    match s.cords.find? (·.cid == c) with
    | none => s
    | some x =>
      let rest := s.cords.filter (·.cid != c)
      State.focusMotif x.mid { s with cord := x, cords := if s.cord.cid = 0 then rest else s.cord :: rest }

/-- Cords of a motif, in order of their numbers within it. -/
def State.cordsOf (s : State) (m : Nat) : List Cord :=
  let cs := s.allCords.filter (·.mid == m)
  (List.range 32).flatMap fun i => cs.filter (·.idx == i)

def State.coreOf (s : State) (k : Nat) : Core := (s.cores.find? (·.core == k)).getD { core := k }

def State.onCore (k : Nat) (f : Core → Core) (s : State) : State :=
  if s.cores.any (·.core == k) then { s with cores := s.cores.map fun x => if x.core = k then f x else x }
  else { s with cores := s.cores ++ [f { core := k }] }

/-- The package number of the cluster of a core (R8, R371). -/
def clusterOf (core : Nat) : Nat := core / 16
/-- The die of a core (R8). -/
def dieOf (core : Nat) : Nat := core / 160

def State.ctxOf (s : State) (i : Nat) : Ctx := (s.ctxs.find? (·.id == i)).getD { id := i }

def State.onCtx (i : Nat) (f : Ctx → Ctx) (s : State) : State :=
  if s.ctxs.any (·.id == i) then { s with ctxs := s.ctxs.map fun x => if x.id = i then f x else x }
  else { s with ctxs := s.ctxs ++ [f { id := i }] }

def State.picotOf (s : State) (cl : Nat) : Picot := (s.picots.find? (·.cl == cl)).getD { cl := cl }

def State.onPicot (cl : Nat) (f : Picot → Picot) (s : State) : State :=
  if s.picots.any (·.cl == cl) then { s with picots := s.picots.map fun x => if x.cl = cl then f x else x }
  else { s with picots := s.picots ++ [f { cl := cl }] }

/-- The running or held pattern of a queue (R318). -/
def State.patternOf (s : State) (q : Nat) : Option Pattern := s.patterns.find? fun p => p.q == q && p.st != .waiting

def State.onPattern (q : Nat) (f : Pattern → Pattern) (s : State) : State :=
  { s with patterns := s.patterns.map fun x => if x.q = q ∧ x.st ≠ .waiting then f x else x }

def State.queueOf (s : State) (q : Nat) : Queue := SMap.get {} s.queues q
def State.onQueue (q : Nat) (f : Queue → Queue) (s : State) : State := { s with queues := SMap.upd {} s.queues q f }

/-! The agenda and free values. -/

/-- A fresh number: a token, a name, or the argument of a free value. -/
def State.tick (s : State) : State := { s with fresh := s.fresh + 1 }

/-- Puts an event d cycles ahead. -/
def State.after (d : Nat) (i : Event) (s : State) : State := { s with agenda := s.agenda ++ [⟨s.cycle + d, i⟩] }

/-- An event whose least latency is d and whose delay beyond it the spec leaves free (log entry 2). -/
def State.afterFree (d : Nat) (i : Event) (s : State) : State :=
  State.after (d + Config.freeDelay s.fresh) i s.tick

/-- An event of a message from a core to a home slice: never before an earlier one of the same path (R198). -/
def State.afterPath (core home d : Nat) (i : Event) (s : State) : State :=
  let t := s.cycle + d + Config.freeDelay s.fresh
  let last := ((s.lastPath.find? fun p => p.1 == core && p.2.1 == home).map (·.2.2)).getD 0
  let due := max t last
  let path := (core, home, due) :: s.lastPath.filter fun p => !(p.1 == core && p.2.1 == home)
  { s.tick with agenda := s.agenda ++ [⟨due, i⟩], lastPath := path }

/-- An event of messages from a core to several home slices, after every earlier one of each path (R198). -/
def State.afterPaths (core : Nat) (homes : List Nat) (d : Nat) (i : Event) (s : State) : State :=
  let t := s.cycle + d + Config.freeDelay s.fresh
  let mine (p : Nat × Nat × Nat) : Bool := p.1 == core && homes.contains p.2.1
  let due := (s.lastPath.filter mine).foldl (fun m p => max m p.2.2) t
  let path := homes.map (fun h => (core, h, due)) ++ s.lastPath.filter fun p => !mine p
  { s.tick with agenda := s.agenda ++ [⟨due, i⟩], lastPath := path }

/-- Removes agenda items. -/
def State.cancel (p : Event → Bool) (s : State) : State := { s with agenda := s.agenda.filter fun d => !p d.what }

def isFixedWrite (c : Nat) : Event → Bool
  | .fixedLatencyWrite c' _ => c' == c
  | _ => false

/-- The pending fixed-latency writes of a cord. -/
def State.pendingWrites (s : State) (c : Nat) : List Due := s.agenda.filter fun d => isFixedWrite c d.what

def insertDue (d : Due) : List Due → List Due
  | [] => [d]
  | x :: xs => if d.at_ < x.at_ then d :: x :: xs else x :: insertDue d xs

/-- Agenda items by time, those of one time in the order they were put. -/
def sortDue (l : List Due) : List Due := l.foldl (fun acc d => insertDue d acc) []

/-! Outcome of trying to issue a form. -/

/-- What issuing a form comes to: it issues with its effect, it raises a cause (R342), or it stalls on a
resource (R87) with what blkst shows (R190). -/
inductive Res where
  | done (s : State)
  | trap (k : Cause) (info : Dword)
  | stall (b : Blk) (s : State)
  deriving DecidableEq, Repr

/-- Whether a form occupies the vector unit or the exchange network, and for how long (R121). -/
inductive Unit_ where
  | none
  | vec (n : Nat)
  | net
  deriving DecidableEq, Repr

/-- What R343 checks of a form before its own causes. -/
structure Form where
  lat : Lat
  vecs : List (Nat × Nat) := []
  role : Option Nat := .none
  whole : Bool := false
  priv : Bool := false
  unit : Unit_ := .none
  deriving DecidableEq, Repr

/-- The instruction word that issues (R346 trinfo). -/
def Cord.word (c : Cord) : Dword := (((c.cl.words[c.cl.slot]?).map Prod.fst).getD 0).setWidth 64

/-- System privilege of the cord's context (R352). -/
def State.sys (s : State) : Bool := (s.ctxOf s.cord.ctx).sys

/-- The checks of R48 and of R343 steps 2 to 5, with the resource stalls of R81 and R121. -/
def Form.check (f : Form) (s : State) : Option Res :=
  let c := s.cord
  let core := s.coreOf c.core
  if f.lat = .v ∧ c.slotFlag = .none then some (.trap .flagAbsent c.word)
  else if !c.owns f.vecs then some (.trap .regIllegal c.word)
  else if f.role.isSome ∧ f.role ≠ some c.role then some (.trap .roleBad c.word)
  else if f.whole ∧ c.act ≠ 0xFFFFFFFF then some (.trap .convIllegal (c.act.setWidth 64))
  else if f.priv ∧ !s.sys then some (.trap .priv c.word)
  else if f.lat = .v ∧ 63 ≤ c.flagOf c.flag.val then some (.stall {} s)
  else
    match f.unit with
    | .none => .none
    | .vec _ => if s.cycle < SMap.get 0 core.vecFree c.slot then some (.stall {} s) else .none
    | .net => if s.cycle < SMap.get 0 core.xchFree c.slot then some (.stall {} s) else .none

/-- The issue of a form: its unit is taken, its flag rises (R81), and the clause moves to its next slot (R83). -/
def Form.issued (f : Form) (s : State) : State :=
  let c := s.cord
  let take (x : Core) : Core :=
    let x := { x with slotUsed := SMap.set 0 x.slotUsed c.slot (s.cycle + 1), holder := SMap.set 0 x.holder c.slot 0 }
    match f.unit with
    | .none => x
    | .vec n => { x with vecFree := SMap.set 0 x.vecFree c.slot (s.cycle + n) }
    | .net => { x with xchFree := SMap.set 0 x.xchFree c.slot (s.cycle + 4) }
  let c := if f.lat = .v then c.flagUp c.flag.val else c
  let cl := { c.cl with slot := c.cl.slot + 1, lastC := s.cycle, lastH := f.lat.hold, any := true }
  State.onCore c.core take
    { s with cord := { c with cl := cl, count := 0, urgent := false, issuedAt := s.cycle, blk := {}, walked := [] } }

/-! Traps. -/

/-- The code of a cause (R344). -/
def Cause.code : Cause → Nat
  | .hdrRsvd => 0x01 | .opcUnmapped => 0x02 | .litStray => 0x03 | .litMissing => 0x04 | .opndKind => 0x05
  | .flagAbsent => 0x06 | .regIllegal => 0x07 | .convIllegal => 0x08 | .pcAlign => 0x09 | .ctlDup => 0x0A
  | .xregBad => 0x0B | .chainDesc => 0x0C | .roleBad => 0x0D | .priv => 0x0E | .csrBad => 0x0F
  | .addrFault => 0x10 | .permFault => 0x11 | .xlatFault => 0x12 | .openDiv => 0x13 | .eyeClosed => 0x14
  | .eyeOffset => 0x15 | .eyeSel => 0x16 | .pilRange => 0x18 | .pilAlign => 0x19 | .pilRsvd => 0x1A
  | .barMismatch => 0x1B | .ringState => 0x1C | .knot => 0x1D | .peerBad => 0x1E | .rangeBad => 0x20
  | .batchBad => 0x21 | .verSpan => 0x22 | .bsBad => 0x23 | .bsRegion => 0x24 | .bobNotify => 0x28
  | .bobFault => 0x29 | .accRange => 0x30 | .tdBad => 0x31 | .mmaFmt => 0x32 | .accMode => 0x33
  | .metaBad => 0x34 | .soft => 0x38 | .bkpt => 0x39 | .pipeErr => 0x3A | .topo => 0x3B | .rteBad => 0x3C

/-- Every V-class instruction of the cord is complete but for its pending wait-full loads (R345 step 2). -/
def State.quiet (s : State) (c : Cord) : Bool :=
  let wf := ((s.findMotif c.mid).map (·.wf)).getD []
  (List.range 12).all fun f => c.flagOf f == (wf.filter fun w => w.cord == c.cid && w.flag.val == f).length

/-- Steps 1 and 2 of R345 are over: what has issued has written its results, each in its own cycle (R133, R351), and nothing
of the V class is outstanding. -/
def State.trapReady (s : State) (c : Cord) : Bool := (s.pendingWrites c.cid).isEmpty && s.quiet c

/-- A launch is killed: release stops, and every motif of it is to be discarded (R366 step 1). -/
def State.killLaunch (q code : Nat) (s : State) : State :=
  let stop (p : Pattern) : Pattern :=
    match p.st with
    | .killing _ | .rolling _ => p
    | _ => { p with st := .killing code }
  let drop (m : Motif) : Motif :=
    if m.queue = q ∧ m.status ≠ .retired then { m with saving := true, discard := true } else m
  (s.onPattern q stop).mapMotifs drop

/-- A handler stands in trapvec (R345 step 3, R352). -/
def Cord.handler (c : Cord) : Dword := c.trapvec &&& 0xFFFFFFFFFFFFFFFC

/-- A motif of the pattern that needle has loaded. -/
def State.loaded (s : State) (m : Motif) : Bool := s.needle.loaded == some m.queue

/-- needle catches a cause of a motif's cord (R315). -/
def State.catches (s : State) (m : Motif) (k : Cause) : Bool := s.loaded m && s.needle.catches.contains k.code

/-- needle, stopped after a run returned, holds the pattern of a queue (R266, R341). -/
def State.holds (s : State) (q : Nat) : Bool := s.needle.held == some q

/-- It holds a core's bobbin (R266). -/
def State.bobHeldAt (s : State) (core : Nat) : Bool :=
  s.allMotifs.any fun m => s.holds m.queue && m.core == core && m.status == .running

/-- A run of needle returns: until the next one the loaded pattern is held (R194, R266, R341). -/
def State.runEnds (s : State) : State :=
  if s.needle.running then { s with needle := { s.needle with running := false, held := s.needle.loaded } } else s

/-- A cord of a motif has raised a cause; run returns when needle catches it (R315). -/
def State.raised (m : Motif) (k : Cause) (s : State) : State := if s.catches m k then s.runEnds else s

/-- The word after the clause's last instruction word or its literal (R85). -/
def fallThrough (hdrA : Dword) (words : List (Word × Option Word)) : Dword :=
  hdrA + BitVec.ofNat 64 (4 + (words.map fun (_, l) => if l.isSome then 8 else 4).sum)

def Clause.ft (cl : Clause) : Dword := cl.fall.getD (fallThrough cl.hdrA cl.words)

/-- A thread of the trapping group at the handler, or another live one parked (R345 steps 5 and 6). -/
def Thread.toHandler (t : Thread) (mine : Bool) (v : Dword) : Thread :=
  if !t.live then t else if mine then { t with pc := v, st := .ready, parked := false } else { t with parked := true }

/-- R345 steps 3 to 6 for the focused cord: the launch is killed when there is no handler or one is active,
otherwise the record of R346 is written and the trapping group starts at the handler, before which a caught cause stops
the cord. A caught cause ends needle's run in each case (R315). -/
def State.enterTrap (p : PendTrap) (s : State) : State :=
  let s := s.raised s.motif p.cause
  let c := s.cord
  if c.handler = 0 then State.killLaunch s.motif.queue 0x23 { s with cord := { c with pend := .none } }
  else if c.trap.v then State.killLaunch s.motif.queue 0x22 { s with cord := { c with pend := .none } }
  else
    let xf := if p.boundary then Transfer.none else c.cl.xf
    let move (ts : SMap Thread) (l : Nat) : SMap Thread :=
      let t := SMap.get {} ts l
      let t := if bit p.act l ∧ c.cl.any then { t with lastC := c.cl.lastC, lastH := c.cl.lastH } else t
      SMap.set {} ts l (t.toHandler (bit p.act l) c.handler)
    let r : TrapRec :=
      { v := true, xfer := xf != .none, slot := p.slot, rnx := p.rnx, rslot := p.rslot, cause := p.cause.code,
        hdr := p.hdr, info := p.info, tract := p.act }
    { s with cord := { c with
        trap := r, trapXf := xf, trapFt := c.cl.ft, pend := .none, cl := {}, chosen := some c.handler,
        wait := if s.catches s.motif p.cause then .caught else .none, blk := {}, skipBrk := false,
        rotP := lowest p.act, resume := .none, refetch := false, fetched := .none, threads := (List.range 32).foldl move c.threads } }

/-- The focused cord, which the slot has chosen, keeps its issue slot to itself until its form issues or traps (R88, R146,
R220). -/
def State.keepSlot (s : State) : State :=
  State.onSelf (fun c => { c with count := 0, urgent := false, fit := .none }) <|
    s.onCore s.cord.core fun x => { x with holder := SMap.set 0 x.holder s.cord.slot s.cord.cid }

/-- The focused cord holds no issue slot. -/
def State.freeSlot (s : State) : State :=
  s.onCore s.cord.core fun x =>
    if SMap.get 0 x.holder s.cord.slot = s.cord.cid then { x with holder := SMap.set 0 x.holder s.cord.slot 0 } else x

/-- Raises a cause in the focused cord: R345 steps 1 and 2, then the handler, at once or when the writes and the V-class
work under way have ended (TRAP_ENTRY). What raises a cause does not issue, so its issue slot may choose another cord in the
same cycle (DESIGN CHOICE, log entry 63). -/
def State.raiseWith (p : PendTrap) (s : State) : State :=
  let s := s.freeSlot.onSelf fun c => { c with pend := some p, count := 0, urgent := false, fit := .none, walked := [] }
  if s.trapReady s.cord then s.enterTrap p else s

/-- Where rte resumes after a cause of a slot: soft and bkpt resume after it, others at it (R347). At the last slot, where those two
set RNX, RSLOT is SLOT (DESIGN CHOICE, log entry 63). -/
def Cord.pendAt (c : Cord) (k : Cause) (info : Dword) : PendTrap :=
  let next := k == .soft || k == .bkpt
  let last := decide (hdrCount c.cl.hdr ≤ c.cl.slot)
  { cause := k, info := info, slot := c.cl.slot, rslot := if next && !last then c.cl.slot + 1 else c.cl.slot,
    rnx := next && last, boundary := false, hdr := c.cl.hdrA, act := c.cl.act }

/-- Taking an exception: the one operation every precise cause of a slot goes through (R342, R345 to R347). -/
def State.raise (k : Cause) (info : Dword) (s : State) : State := s.raiseWith (s.cord.pendAt k info)

/-- What becomes of an attempt to issue a form. -/
def Form.settle (f : Form) (s : State) : Res → State
  | .done s' => f.issued s'
  | .trap k info => s.raise k info
  | .stall b s' => s'.onSelf fun c => { c with blk := b, stallAt := s.cycle + 1 }

/-- Issues a form whose own checks and effect are body (R342, R343, R87). -/
def runForm (f : Form) (s : State) (body : State → Res) : Out :=
  .next (f.settle s ((f.check s).getD (body s)))

/-- A fixed-latency result: written H cycles after issue (R83). -/
def State.write (lat : Lat) (ws : List RegWrite) (s : State) : State :=
  if ws.isEmpty then s else s.after lat.hold (.fixedLatencyWrite s.cord.cid ws)

/-- A form that only computes registers from registers. -/
def runRegs (f : Form) (s : State) (ws : Cord → List RegWrite) : Out :=
  runForm f s fun s => .done (s.write f.lat (ws s.cord))

/-- Unparks every thread (R345, R349). -/
def Cord.unpark (c : Cord) : Cord :=
  { c with threads := (List.range 32).foldl (fun ts l => SMap.upd {} ts l fun t => { t with parked := false }) c.threads }

/-- Return from a handler, at the end of rte's clause (R349): the handler's group goes back to the recorded
clause, to resume at RSLOT; with RNX it goes on to next, the pending decision or the fall-through. A header address with
bits [1:0] not clear is fetched where it stands (DESIGN CHOICE, log entry 51). -/
def Cord.returnFrom (c : Cord) : Cord :=
  let r := c.trap
  let move (ts : SMap Thread) (l : Nat) : SMap Thread :=
    if bit r.tract l then SMap.upd {} ts l fun t => if t.live then { t with pc := r.hdr } else t else ts
  let xf := if r.xfer then c.trapXf else .none
  { c.unpark with
    trap := { r with v := false }, threads := (List.range 32).foldl move c.unpark.threads,
    chosen := some r.hdr, fetched := .none, resume := some ⟨if r.rnx then 8 else r.rslot, xf, r.tract, r.hdr, c.trapFt⟩ }

/-! Completion flags and counters of outstanding work. -/

/-- The work of a V-class form is complete: its writes are made and its flag decrements in one cycle (R81). -/
def State.complete (c : Nat) (f : Flag) (ws : List RegWrite) (s : State) : State :=
  s.onCord c fun x => (x.applyAll ws).flagDown f.val

/-- An event of a cord that has ended or been discarded does nothing. -/
def State.ifCord (c : Nat) (s : State) (g : Cord → State) : Out :=
  match s.findCord c with
  | none => .next s
  | some x => .next (g x)

/-- Either counter stays within 255 (R196). -/
def Cord.roomLd (c : Cord) (n : Nat) : Bool := decide (c.ldcnt + n ≤ 255)
def Cord.roomSt (c : Cord) (n : Nat) : Bool := decide (c.stcnt + n ≤ 255)

def State.stDown (c n : Nat) (s : State) : State := s.onCord c fun x => { x with stcnt := x.stcnt - n }
def State.ldDown (c n : Nat) (s : State) : State := s.onCord c fun x => { x with ldcnt := x.ldcnt - n }

/-- A release that reaches past its motif, which ends the idempotent part (R336); an rsig acts as a launch (R392). -/
def RelKind.outside : RelKind → Bool
  | .store _ | .atom _ | .peer .. | .notify .. | .post .. | .launch _ | .rsig .. => true
  | _ => false

/-- Puts a release in the cord's order of pending releases, with what it counts in stcnt itself (R201). -/
def State.release (k : RelKind) (own : Nat) (s : State) : State :=
  let wf := s.motif.wf.filter fun w => w.cord == s.cord.cid
  let s := { s with motif := { s.motif with pastIdend := s.motif.pastIdend || k.outside } }
  s.onSelf fun c => { c with rels := c.rels ++ [⟨k, own, wf.map (·.k)⟩], stcnt := c.stcnt + own }

end Sys2Proof.Machine
end

