-- ==== Sys2Proof/Machine/Mem.lean ====
section
/-! DEFINITION. Mem.lean: the address map and homes (R16 to R18, R379), the L2 slices (R161, R165, R221),
memory content and who may see it change (R199, R200, R367), and translation (R146, R166). -/

namespace Sys2Proof.Machine

/-! Addresses. -/

def lineOf (a : Nat) : Nat := a / 128
def devOf (a : Nat) : Nat := a / 2 ^ 54 % 1024
def localOf (a : Nat) : Nat := a % 2 ^ 54

/-- The device register window of R17. -/
def inWindow (a : Nat) : Bool := decide (0x3F0000000000 ≤ localOf a) && decide (localOf a < 0x400000000000)
def isLpddr (a : Nat) : Bool := decide (0x10000000000 ≤ localOf a) && decide (localOf a < 0x30000000000)
def isDram (a : Nat) : Bool := decide (localOf a < 0x4800000000)

/-- The address names this device (R379). -/
def State.isLocal (s : State) (a : Nat) : Bool := devOf a == s.dev.devno

/-- The checks of R17, R379 and R398 on a translated address. -/
def State.mapFault (s : State) (sys : Bool) (a : Nat) : Option Cause :=
  if 960 ≤ devOf a then (if Config.adapterAttached (devOf a - 960) then none else some .addrFault)
  else if 900 ≤ devOf a then some .addrFault
  else if inWindow a then (if sys then none else some .permFault)
  else if isDram a then none
  else if isLpddr a then (if s.dev.st = .early && s.isLocal a then some .addrFault else none)
  else some .addrFault

/-- The die that backs and homes an address: by the map, or by A[13:12] in a page with spread mapping (R17, R18). -/
def State.dieOfAddr (s : State) (a : Nat) : Nat :=
  let x := localOf a
  if inWindow a then 0
  else if s.spread.contains (x / 2 ^ 25) then x / 4096 % 4
  else if isDram a then x / 0x1200000000
  else (x - 0x10000000000) / 0x8000000000

/-- The home slice of a line, 160 × die + 16 × cluster + slice; other devices' homes lie above 1,000, and a host
adapter is one home (R16, R394). -/
def State.homeOf (s : State) (line : Nat) : Nat :=
  let a := line * 128
  let k := s.dieOfAddr a * 160 + Config.homeSlice line % 160
  if s.isLocal a then k else if 960 ≤ devOf a then 1000 * (devOf a + 1) else 1000 * (devOf a + 1) + k

/-! L2 slices. -/

/-- A line that an L2 slice of this device may hold (R16, R147). -/
def State.cacheable (s : State) (line : Nat) : Bool := s.isLocal (line * 128) && !inWindow (line * 128)

def State.l2Find (s : State) (line : Nat) : Option L2Line := s.l2.find? (·.line == line)

def L2Line.pinned (x : L2Line) : Bool := decide (0 < x.pins) || !x.lockers.isEmpty

/-- V of a schedule entry's word 0 (R164). -/
def SchedEntry.v (e : SchedEntry) : Bool := bit e.w0 63

/-- The lowest-numbered valid entry of a slice whose range holds a line (R164). A write of word 1 to an entry that is valid
counts at once (DESIGN CHOICE, log entry 63). -/
def State.schedFor (s : State) (slice line : Nat) : Option SchedEntry :=
  ((List.range 64).map fun i => SMap.get {} s.sched (slice * 64 + i)).find? fun e =>
    let g := localOf (line * 128) / 4096
    e.v && decide (fld e.w0 0 42 ≤ g) && decide (g ≤ fld e.w1 0 42)

/-- The rank of R165: lower goes first; the way number decides within one rank. -/
def State.victimRank (s : State) (x : L2Line) : Nat :=
  match s.schedFor x.slice x.line with
  | none => 0
  | some e =>
    let ph := fld e.w1 48 16
    let passed := decide (ph < (s.ctxOf (fld e.w0 42 12)).evphase.toNat)
    if passed then 1 + ph else 2 ^ 16 + 1 + ph

/-- The victim way among the ways of a set, and the line it holds (R165). -/
def State.victim (s : State) (slice set : Nat) : Nat × Option L2Line :=
  let ls := s.l2.filter fun x => x.slice == slice && x.set == set
  match (List.range 16).find? fun w => ls.all (·.way != w) with
  | some w => (w, none)
  | none =>
    let key (x : L2Line) : Nat := s.victimRank x * 16 + x.way
    match (ls.filter fun x => !x.pinned).foldl (fun (b : Option L2Line) x =>
        match b with
        | none => some x
        | some y => if key x < key y then some x else some y) none with
    | some x => (x.way, some x)
    | none => (0, none)

/-- The bytes of a line as address and byte pairs. -/
def lineCells (m : SMap Byte) (line : Nat) : List (Nat × Byte) :=
  (List.range 128).map fun i => (line * 128 + i, SMap.get 0 m (line * 128 + i))

/-- Dirty data of a line goes to its backing memory (R165, R221). -/
def State.writeBack (line : Nat) (s : State) : State :=
  { s with backing := SMap.setAll 0 s.backing (lineCells s.mem line),
           l2 := s.l2.map fun x => if x.line = line then { x with dirty := false } else x }

/-- Brings a line into its slice, replacing a victim (R165). -/
def State.l2Fetch (line : Nat) (s : State) : State :=
  if !s.cacheable line || (s.l2Find line).isSome then s
  else
    let slice := s.homeOf line
    let set := Config.l2Set line % 256
    let (way, old) := s.victim slice set
    let s :=
      match old with
      | none => s
      | some x =>
        let s := if x.dirty then s.writeBack x.line else s
        { s with l2 := s.l2.filter (·.line != x.line) }
    { s with l2 := s.l2 ++ [{ line := line, slice := slice, set := set, way := way, born := s.l2Count }], l2Count := s.l2Count + 1 }

/-- A write makes the line dirty; from clean it records the slice's flush counter as its stamp (R221). -/
def State.l2Dirty (line : Nat) (s : State) : State :=
  let s := s.l2Fetch line
  let mark (x : L2Line) : L2Line :=
    if x.line = line ∧ !x.dirty then { x with dirty := true, stamp := SMap.get 0 s.flushCtr x.slice } else x
  { s with l2 := s.l2.map mark }

/-! Least latencies. -/

/-- The row of R147's table for a core and a line: present in L2, fetched from stacked DRAM, from LPDDR-6. For a line of
another device it depends on what lies in that device's L2, which is the least (R377); for a host's memory none is stated. -/
def State.leastRow (s : State) (core line : Nat) : Nat × Nat × Nat :=
  let h := s.homeOf line
  if 960 ≤ devOf (line * 128) then (2, 2, 2)
  else if 1000 ≤ h then (520, 520, 520)
  else if h / 16 = clusterOf core then (28, 124, 218)
  else if h / 160 = dieOf core then (44, 140, 234)
  else (72, 168, 262)

/-- The least latency of an open by R147. -/
def State.leastOpen (s : State) (core line : Nat) : Nat :=
  let (l2, dram, lp) := s.leastRow core line
  if (s.l2Find line).isSome || inWindow (line * 128) then l2 else if isLpddr (line * 128) then lp else dram

/-! Rollback bookkeeping (R367). -/

/-- Who writes or reads: a context and rollback group, or another agent. -/
abbrev Agent := Option (Nat × Nat)

/-- ROLLGRP of a pattern's record (R319). -/
def Pattern.rollgrp (p : Pattern) : Nat := fld (p.rcd.getD 5 0) 16 16

/-- The agent that a queue's running pattern is. -/
def State.agentOf (s : State) (q : Nat) : Agent := (s.patternOf q).map fun p => (p.ctx, p.rollgrp)

def State.agentOfCord (s : State) (c : Nat) : Agent :=
  ((s.cord :: s.cords).find? (·.cid == c)).bind fun x => (s.findMotif x.mid).bind fun m => s.agentOf m.queue

/-- A physical address lies in a writable page of a context. -/
def State.writablePage (s : State) (ctx a : Nat) : Bool :=
  s.pages.any fun p => p.ctx == ctx && p.w && !p.bad &&
    (if p.big then p.pa / 2 ^ 25 == a / 2 ^ 25 else p.pa / 2 ^ 16 == a / 2 ^ 16)

/-- Snapshots that the snapshot area of a context holds: 64 KiB of content and a 64-byte record each (R359, R367). -/
def State.snapRoom (s : State) (ctx : Nat) : Nat := (s.ctxOf ctx).snapSize.toNat * 4096 / (65536 + 64)

/-- One epoch before a write by an agent to address a: the granule is snapshot at the first write and marked;
none when the snapshot area is full (R367). -/
def State.epochWrite (s : State) (by_ : Agent) (a : Nat) (e : Epoch) : Option Epoch :=
  if !s.writablePage e.ctx a then some e
  else
    let g := a / 65536
    let mine := by_ == some (e.ctx, e.grp)
    if e.snaps.any (·.1 == g) then
      some { e with snaps := e.snaps.map fun x =>
        if x.1 = g then (x.1, x.2.1, x.2.2.1 || mine, x.2.2.2.1 || !mine, x.2.2.2.2) else x }
    else if s.snapRoom e.ctx ≤ e.snaps.length then none
    else some { e with snaps := e.snaps ++ [(g, s.mem.filter fun c => c.1 / 65536 == g, mine, !mine, false)] }

/-- A launch of an epoch whose snapshot area is full is killed (R367). -/
def State.killGroup (ctx grp code : Nat) (s : State) : State :=
  (s.patterns.filter fun p => p.ctx == ctx && p.rollgrp == grp && p.st != .waiting).foldl
    (fun s p => s.killLaunch p.q code) s

/-- Every epoch takes notice of a write; false when one of them refuses it. -/
def State.noteWrite (by_ : Agent) (a : Nat) (s : State) : State × Bool :=
  s.epochs.foldl (fun (r : State × Bool) e =>
    match r.1.epochWrite by_ a e with
    | some e' => ({ r.1 with epochs := r.1.epochs.map fun x => if x.ctx = e.ctx ∧ x.grp = e.grp then e' else x }, r.2)
    | none => (r.1.killGroup e.ctx e.grp 0x25, false)) (s, true)

/-- A read by a foreign agent of a granule that a group has written marks it EXPOSED (R367). -/
def State.noteRead (by_ : Agent) (a : Nat) (s : State) : State :=
  { s with epochs := s.epochs.map fun e =>
      if by_ == some (e.ctx, e.grp) then e
      else { e with snaps := e.snaps.map fun x =>
        if x.1 = a / 65536 then (x.1, x.2.1, x.2.2.1, x.2.2.2.1, x.2.2.2.2 || x.2.2.1) else x } }

/-! Content of memory. -/

def State.byte (s : State) (a : Nat) : Byte := SMap.get 0 s.mem a
def State.bytes (s : State) (a n : Nat) : List Byte := (List.range n).map fun i => s.byte (a + i)
def State.num (s : State) (a n : Nat) : Nat := leNat (s.bytes a n)

/-- Bytes placed at an address. -/
def cellsAt (a : Nat) (bs : List Byte) : List (Nat × Byte) := bs.zipIdx.map fun (b, i) => (a + i, b)

/-- The home performs a write of cells of one line, for all its bytes at one moment (R199); it takes the line into
its slice as dirty, and a write of the whole line clears a lost mark (R364). -/
def State.poke (ws : List (Nat × Byte)) (s : State) : State :=
  match ws with
  | [] => s
  | w :: _ =>
    let line := lineOf w.1
    let s := { s with mem := SMap.setAll 0 s.mem ws }
    s.l2Dirty line

/-- A write by an agent whose effects a rollback must undo (R367). -/
def State.homeWrite (by_ : Agent) (ws : List (Nat × Byte)) (s : State) : State :=
  match ws with
  | [] => s
  | w :: _ =>
    let (s, ok) := s.noteWrite by_ w.1
    if ok then s.poke ws else s

def State.lost (s : State) (line : Nat) : Bool := s.lostLines.contains line
def State.unlose (line : Nat) (s : State) : State := { s with lostLines := s.lostLines.filter (· != line) }
def State.lose (line : Nat) (s : State) : State :=
  { s with lostLines := if s.lost line then s.lostLines else s.lostLines ++ [line] }

/-! Devices that cannot be reached (R378). -/

/-- The device that is the home of a line cannot be reached. -/
def State.unreachable (s : State) (line : Nat) : Bool := s.dev.lost.contains (devOf (line * 128))

/-- A message of a cord is lost on its way to an unreachable device: its launch is killed with code 0x20 (R378). -/
def State.messageLost (c : Nat) (s : State) : State :=
  match (s.cordRec c).bind fun x => s.findMotif x.mid with
  | none => s
  | some m => s.killLaunch m.queue 0x20

/-! Other devices. -/

/-- A message leaves the device (R376). -/
def State.sendOut (dest : Nat) (m : OutMsg) (s : State) : State := { s with outbox := s.outbox ++ [(dest, m)] }

/-- A core or cluster is one of another device: 1,000 × (device + 1) + its number there (R377, R383). -/
def isRemote (k : Nat) : Bool := decide (1000 ≤ k)

/-- The device of such a core or cluster. -/
def remoteDev (k : Nat) : Nat := k / 1000 - 1

/-! Owners (R200). A core of another device hears of a loss through the fabric (R377, log entry 57). -/

/-- A pending load of a cord keeps what it owned of a line, but for the words that are lost (R154, R200). -/
def Cord.loseKept (line : Nat) (ws : Word) (c : Cord) (o : Op) : Op :=
  match o.kind with
  | .load z d wb e lanes kept =>
    if (c.eye e).pla = line then { o with kind := .load z d wb e lanes (kept.filter fun k => !bit ws (k.1 / 4)) } else o
  | _ => o

/-- A cord owns words of a line no more, in any of its eyelets (R200). -/
def Cord.clearOwn (line : Nat) (ws : Word) (c : Cord) : Cord :=
  { c with
    eyes := c.eyes.map fun (e, x) => (e, if x.st = .opened ∧ x.pla = line then { x with own := x.own &&& ~~~ws } else x),
    ops := c.ops.map (c.loseKept line ws) }

/-- An owner-loss notice at a core (R200 step 1). -/
def State.ownerLoss (core line : Nat) (ws : Word) (s : State) : State :=
  if isRemote core then s.sendOut (remoteDev core) (.ownerLoss (core % 1000) line ws)
  else s.mapCords fun c => if c.core = core then c.clearOwn line ws else c

/-- Words of a line that the bytes of a write touch. -/
def wordsOf (offs : List Nat) : Word := maskOf ((List.range 32).filter fun w => offs.any fun o => o / 4 == w)

/-- Before a write of words of a line by core by_ (none for any other writer), every other owner hears of it and
the new owner is recorded (R200). -/
def State.takeOwner (by_ : Option Nat) (line : Nat) (ws : Word) (s : State) : State :=
  let addrs := (lanesOf ws).map fun w => line * 32 + w
  let others := s.owners.filter fun o => addrs.contains o.1 && some o.2 != by_
  let s := others.foldl (fun s o => s.ownerLoss o.2 line (maskOf [o.1 % 32])) s
  let rest := s.owners.filter fun o => !addrs.contains o.1
  { s with owners := match by_ with | none => rest | some k => rest ++ addrs.map fun a => (a, k) }

/-! Translation (R146, R166). -/

def Page.covers (p : Page) (ctx va : Nat) : Bool :=
  p.ctx == ctx && if p.big then p.va / 2 ^ 25 == va / 2 ^ 25 else p.va / 2 ^ 16 == va / 2 ^ 16

/-- The physical address of a virtual one in a page. -/
def Page.addr (p : Page) (va : Nat) : Nat := p.pa + va % (if p.big then 2 ^ 25 else 2 ^ 16)

/-- What the page table holds for a virtual address of a context. -/
def State.walk (s : State) (ctx va : Nat) : Option Page := s.pages.find? fun p => p.covers ctx va

/-- What a form needs of a page. -/
inductive Need where
  | r | w | rw
  deriving DecidableEq, Repr

def Need.met (n : Need) (p : Page) : Bool :=
  match n with
  | .r => p.r
  | .w => p.w
  | .rw => p.r && p.w

/-- The checks on a translation, in the order of R146. -/
def State.pageFault (s : State) (sys : Bool) (n : Need) (va : Nat) : Option Page → Option Cause
  | none => some .addrFault
  | some p =>
    if p.bad then some .xlatFault
    else
      match s.mapFault sys (p.addr va) with
      | some k => some k
      | none => if n.met p then none else some .permFault

/-- The open TLB's answer, or that of the walk the stalled form has waited for; none on a miss. -/
def State.lookup (s : State) (c : Cord) (va : Nat) : Option (Option Page) :=
  match (s.coreOf c.core).tlb.find? fun p => p.covers c.ctx va with
  | some p => some (some p)
  | none => (c.walked.find? fun w => w.1 == va / 2 ^ 16).map (·.2)

/-- What a translation comes to: a walk for which the slot is held, the fault of the lowest faulting address,
or one page for each address. -/
inductive Xl where
  | walk (s : State)
  | fault (k : Cause) (va : Nat)
  | ok (s : State) (ps : List Page)

/-- Holds the issue slot of the focused cord until a cycle (R146). -/
def State.holdSlot (until_ : Nat) (s : State) : State :=
  s.onCore s.cord.core fun x =>
    { x with holdUntil := SMap.set 0 x.holdUntil s.cord.slot (max until_ (SMap.get 0 x.holdUntil s.cord.slot)) }

/-- Least time of a walk: four table lines, one after another, each at least a fill (R146). -/
def leastWalk : Nat := 4 * 28

/-- The missed pages are walked in parallel, the slot held until the last walk ends (R146). -/
def State.startWalk (pages : List Nat) (s : State) : State :=
  let due := s.cycle + leastWalk + Config.freeDelay s.fresh
  State.holdSlot due { s.keepSlot.tick with agenda := s.agenda ++ [⟨due, .pageWalkEnd s.cord.cid pages⟩] }

/-- The lowest faulting address of a list, with its cause. -/
def lowestFault (l : List (Nat × Cause)) : Option (Nat × Cause) :=
  l.foldl (fun b x =>
    match b with
    | none => some x
    | some y => if x.1 < y.1 then some x else some y) none

/-- Translates addresses, each with what the form needs of its page, at the issue of the focused cord's form (R146). On
a hit the slot is held for two cycles, as R146 says, where R84's worked table issues the next form one cycle after an open
(DEDUCED, log entry 63). -/
def State.xlate (vns : List (Nat × Need)) (s : State) : Xl :=
  let c := s.cord
  let missed := ((vns.filter fun v => (s.lookup c v.1).isNone).map (·.1 / 2 ^ 16)).eraseDups
  if !missed.isEmpty then .walk (s.startWalk missed)
  else
    let got := vns.map fun (va, n) => (va, n, ((s.lookup c va).getD none))
    match lowestFault (got.filterMap fun (va, n, p) => (s.pageFault s.sys n va p).map fun k => (va, k)) with
    | some (va, k) => .fault k va
    | none => .ok (if c.walked.isEmpty then s.holdSlot (s.cycle + 2) else s) (got.filterMap (·.2.2))

/-- A body that goes on with the pages of its addresses, each with its own need. -/
def withNeeds (vns : List (Nat × Need)) (s : State) (k : List Page → State → Res) : Res :=
  match s.xlate vns with
  | .walk s' => .stall {} s'
  | .fault c va => .trap c (BitVec.ofNat 64 va)
  | .ok s' ps => k ps s'

/-- A body that goes on with the pages of its addresses. -/
def withPages (vas : List Nat) (n : Need) (s : State) (k : List Page → State → Res) : Res :=
  withNeeds (vas.map fun va => (va, n)) s k

/-- A 64 KiB page of the open TLB's index, one entry for each of its starts. -/
def pageStarts (a n : Nat) : List Nat :=
  if n = 0 then []
  else (List.range ((a + n - 1) / 65536 - a / 65536 + 1)).map fun i => if i = 0 then a else (a / 65536 + i) * 65536

/-- The physical runs of a range of virtual addresses, page by page: start and length. -/
def physRuns (a n : Nat) (ps : List Page) : List (Nat × Nat) :=
  ((pageStarts a n).zip ps).map fun (va, p) => (p.addr va, min (a + n) ((va / 65536 + 1) * 65536) - va)

/-- A new entry of the open TLB; a full one replaces the entry Config names (R146, log entry 6). -/
def State.tlbInsert (core : Nat) (p : Page) (s : State) : State :=
  let put (x : Core) : Core :=
    if x.tlb.contains p then x
    else if x.tlb.length < 64 then { x with tlb := x.tlb ++ [p] }
    else { x with tlb := x.tlb.eraseIdx (Config.tlbVictim s.fresh % 64) ++ [p] }
  State.onCore core put s.tick

/-- A page-table walk ends, with a translation or a fault, and the held slot goes on (R146). -/
def execPageWalkEnd (s : State) : Out :=
  match s.now with
  | some (.pageWalkEnd c pages) =>
    s.ifCord c fun x =>
      let found := pages.map fun k => (k, s.walk x.ctx (k * 65536))
      let s := found.foldl (fun s f => match f.2 with | some p => if p.bad then s else s.tlbInsert x.core p | none => s) s
      s.onCord c fun x => { x with walked := x.walked ++ found }
  | _ => .next s

end Sys2Proof.Machine
end

