-- ==== Sys2Proof/Machine/Regs.lean ====
section
/-! DEFINITION. Regs.lean: the device register window (R164, R316, R327, R359, R380, R384, R397, R402, R405,
R407): what each register reads, and what a write to one comes to. -/

namespace Sys2Proof.Machine

/-- The registers of the window that the spec names. -/
inductive Reg where
  | sched (slice i : Nat) (hi : Bool)
  | schedAll (i : Nat) (hi : Bool)
  | qbase (q : Nat)
  | qctl (q : Nat)
  | qhead (q : Nat)
  | qtail (q : Nat)
  | cpsb
  | ctxctl (c : Nat)
  | ctxev (c : Nat)
  | saveBase (c : Nat)
  | saveSize (c : Nat)
  | snapBase (c : Nat)
  | snapSize (c : Nat)
  | kcode (c : Nat)
  | rsid
  | group (g : Nat)
  | rankPair (g k : Nat)
  | devstat
  | pwrctl
  | pwrstat
  | attreq
  | hlthbase
  | hlthhead
  deriving DecidableEq, Repr

/-- The register that a window address lies in, with its first address and its bytes. -/
def regAt (a : Nat) : Option (Reg × Nat × Nat) :=
  let x := localOf a
  let b8 := x / 8 * 8
  let b4 := x / 4 * 4
  if 0x3F1000000000 ≤ x ∧ x < 0x3F1000000000 + 640 * 0x400 then
    let o := x - 0x3F1000000000
    some (.sched (o / 0x400) (o % 0x400 / 16) (decide (8 ≤ o % 16)), b8, 8)
  else if 0x3F1000100000 ≤ x ∧ x < 0x3F1000100000 + 0x400 then
    let o := x - 0x3F1000100000
    some (.schedAll (o / 16) (decide (8 ≤ o % 16)), b8, 8)
  else if 0x3F2000000000 ≤ x ∧ x < 0x3F2000001000 then
    let q := (x - 0x3F2000000000) / 64
    match (x - 0x3F2000000000) % 64 / 4 with
    | 0 | 1 => some (.qbase q, b8, 8)
    | 2 => some (.qctl q, b4, 4)
    | 4 => some (.qhead q, b4, 4)
    | 5 => some (.qtail q, b4, 4)
    | _ => none
  else if 0x3F2000001000 ≤ x ∧ x < 0x3F2000001008 then some (.cpsb, b8, 8)
  else if 0x3F2000100000 ≤ x ∧ x < 0x3F2000100000 + 64 * 4096 then
    let c := (x - 0x3F2000100000) / 64
    match (x - 0x3F2000100000) % 64 / 4 with
    | 0 => some (.ctxctl c, b4, 4)
    | 1 => some (.ctxev c, b4, 4)
    | 2 | 3 => some (.saveBase c, b8, 8)
    | 4 => some (.saveSize c, b4, 4)
    | 6 | 7 => some (.snapBase c, b8, 8)
    | 8 => some (.snapSize c, b4, 4)
    | 9 => some (.kcode c, b4, 4)
    | _ => none
  else if 0x3F3000000000 ≤ x ∧ x < 0x3F3000000004 then some (.rsid, b4, 4)
  else if 0x3F3000010000 ≤ x ∧ x < 0x3F3000010000 + 64 * 0x1000 then
    let g := (x - 0x3F3000010000) / 0x1000
    let o := (x - 0x3F3000010000) % 0x1000
    if o < 4 then some (.group g, b4, 4)
    else if 0x100 ≤ o ∧ o < 0x100 + 1800 then some (.rankPair g ((o - 0x100) / 4), b4, 4)
    else none
  else if 0x3F4000000000 ≤ x ∧ x < 0x3F4000000004 then some (.devstat, b4, 4)
  else if 0x3F4000000100 ≤ x ∧ x < 0x3F4000000104 then some (.pwrctl, b4, 4)
  else if 0x3F4000000108 ≤ x ∧ x < 0x3F400000010C then some (.pwrstat, b4, 4)
  else if 0x3F4000000200 ≤ x ∧ x < 0x3F4000000208 then some (.attreq, b8, 8)
  else if 0x3F4000000300 ≤ x ∧ x < 0x3F4000000308 then some (.hlthbase, b8, 8)
  else if 0x3F4000000308 ≤ x ∧ x < 0x3F400000030C then some (.hlthhead, b4, 4)
  else none

/-- STATE of DEVSTAT (R397). -/
def DevState.code : DevState → Nat
  | .reset => 0 | .verify => 1 | .calib => 2 | .init => 3 | .early => 4 | .full => 5 | .failed => 6 | .tripped => 7
  | .off => 0

def flagBit (b : Bool) (i : Nat) : Nat := if b then 2 ^ i else 0

/-- DEVSTAT (R397). -/
def Dev.devstat (d : Dev) : Nat :=
  d.st.code * 2 ^ 28 + flagBit d.erdy 27 + flagBit d.frdy 26 + flagBit d.repl 25 + flagBit d.degr 24
    + d.fcode % 256 * 2 ^ 16 + d.lpch % 64

/-- Links in service (R380). -/
def Dev.linkCount (d : Dev) : Nat := ((List.range 36).filter fun i => bit d.links i).length

/-- RSID (R380). -/
def Dev.rsid (d : Dev) : Nat := flagBit d.join 31 + d.linkCount * 2 ^ 20 + d.devno % 1024

/-- PWRSTAT (R402). -/
def Dev.pwrstat (d : Dev) : Nat := d.pavg % 2 ^ 16 * 2 ^ 16 + d.thot % 256 * 2 ^ 8 + flagBit d.thr 7 + flagBit d.lim 6

/-- Clusters whose cores are in service (R371). -/
def Dev.clcount (d : Dev) : Nat := ((List.range 40).filter fun i => bit d.clusters i).length

/-- What a register of the window reads; none for the every-slice window, which names no register to read. -/
def State.regVal (s : State) : Reg → Option Nat
  | .sched slice i hi =>
    let e := SMap.get {} s.sched (slice * 64 + i)
    some (if hi then e.w1 else e.w0).toNat
  | .schedAll _ _ => none
  | .qbase q => some (s.queueOf q).base.toNat
  | .qctl q => some (s.queueOf q).ctl.toNat
  | .qhead q => some (s.queueOf q).head.toNat
  | .qtail q => some (s.queueOf q).tail.toNat
  | .cpsb => some s.dev.cpsb.toNat
  | .ctxctl c => some (flagBit (s.ctxOf c).en 31 + flagBit (s.ctxOf c).sys 30)
  | .ctxev c => some (s.ctxOf c).ev.toNat
  | .saveBase c => some (s.ctxOf c).saveBase.toNat
  | .saveSize c => some (s.ctxOf c).saveSize.toNat
  | .snapBase c => some (s.ctxOf c).snapBase.toNat
  | .snapSize c => some (s.ctxOf c).snapSize.toNat
  | .kcode c => some (s.ctxOf c).kcode
  | .rsid => some s.dev.rsid
  | .group g => some (SMap.get {} s.groups g).ctl.toNat
  | .rankPair g k =>
    let r := (SMap.get {} s.groups g).ranks
    some (SMap.get 0 r (2 * k) % 2 ^ 16 + SMap.get 0 r (2 * k + 1) % 2 ^ 16 * 2 ^ 16)
  | .devstat => some s.dev.devstat
  | .pwrctl => some (s.dev.plim * 2 ^ 8 + s.dev.tlim)
  | .pwrstat => some s.dev.pwrstat
  | .attreq => some (s.dev.attBuf * 4096 + flagBit s.dev.attBusy 0)
  | .hlthbase => some s.dev.hlthBase.toNat
  | .hlthhead => some s.dev.hlthHead.toNat

/-- A byte of the window. -/
def State.regByte (s : State) (a : Nat) : Byte :=
  match regAt a with
  | none => Config.windowByte (localOf a)
  | some (r, base, _) =>
    match s.regVal r with
    | none => Config.windowByte (localOf a)
    | some v => BitVec.ofNat 8 (v >>> (8 * (localOf a - base)))

/-- A byte that a fill, refresh or other read at the home of an address gets (R147). -/
def State.homeByte (s : State) (a : Nat) : Byte := if s.isLocal a && inWindow a then s.regByte a else s.byte a

def State.homeBytes (s : State) (a n : Nat) : List Byte := (List.range n).map fun i => s.homeByte (a + i)

/-- The event that a write of value v to a register is (R164, R316, R359, R402, R405, R407); none for a
read-only register, whose write has no effect. -/
def Reg.event (r : Reg) (base : Nat) (v : Nat) : Option Event :=
  match r with
  | .sched slice i hi =>
    some (if hi then .registerWrite base (BitVec.ofNat 64 v) else .scheduleEntryWrite (some slice) i (BitVec.ofNat 64 v))
  | .schedAll i hi =>
    some (if hi then .registerWrite base (BitVec.ofNat 64 v) else .scheduleEntryWrite none i (BitVec.ofNat 64 v))
  | .qhead _ | .rsid | .devstat | .pwrstat | .hlthhead => none
  | .qtail q => some (.qtailWrite q (BitVec.ofNat 32 v))
  | .ctxev c => some (.ctxevClear c (BitVec.ofNat 32 v))
  | .pwrctl => some (.pwrctlWrite (BitVec.ofNat 32 v))
  | .attreq => some (.attestationRequest (BitVec.ofNat 64 v))
  | .hlthbase => some (.hlthbaseWrite (BitVec.ofNat 64 v))
  | _ => some (.registerWrite base (BitVec.ofNat 64 v))

/-- Events that happen in this cycle before any other. -/
def State.soon (is : List Event) (s : State) : State := { s with agenda := is.map (fun i => ⟨s.cycle, i⟩) ++ s.agenda }

/-- The write of a register that the bytes of a store make: the bytes that the store leaves alone as they read. Of CTXEV they
are written 0, which clears nothing, and so are those of a word of the every-slice schedule window, which names no register to
read (DESIGN CHOICE, log entry 54). -/
def State.regWrite (s : State) (ws : List (Nat × Byte)) (x : Reg × Nat × Nat) : Option Event :=
  let (r, base, n) := x
  let old (i : Nat) : Byte := match r with | .ctxev _ => 0 | .schedAll _ _ => 0 | _ => s.regByte (base + i)
  r.event base (leNat ((List.range n).map fun i => ((ws.find? fun w => localOf w.1 == base + i).map (·.2)).getD (old i)))

/-- A store of bytes to the window writes each register it touches once, before anything else happens (R316, R393). -/
def State.regStore (ws : List (Nat × Byte)) (s : State) : State :=
  s.soon (((ws.filterMap fun w => regAt w.1).eraseDups).filterMap (s.regWrite ws))

/-- A write of cells of one line at its home, whatever the home is (R16, R199). -/
def State.performWrite (by_ : Agent) (ws : List (Nat × Byte)) (s : State) : State :=
  match ws with
  | [] => s
  | w :: _ => if s.isLocal w.1 && inWindow w.1 then s.regStore ws else s.homeWrite by_ ws

/-- QCTL as it stands after a write: reserved bits 0, LOG2N at least 4 (R316). -/
def qctlWrite (v : Word) : Word :=
  let v := v &&& 0xE3F00FFF
  if fld v 20 4 < 4 then setBits v else v
where
  setBits (v : Word) : Word := (v &&& 0xFF0FFFFF) ||| 0x00400000

def qEn (q : Queue) : Bool := bit q.ctl 31
def qDl (q : Queue) : Bool := bit q.ctl 30
def qSusp (q : Queue) : Bool := bit q.ctl 29
def qPri (q : Queue) : Nat := fld q.ctl 24 2
def qSize (q : Queue) : Nat := 2 ^ fld q.ctl 20 4
def qCtx (q : Queue) : Nat := fld q.ctl 0 12

/-- Local lines of a 32 MiB page. -/
def State.onPage (s : State) (page line : Nat) : Bool := s.isLocal (line * 128) && localOf (line * 128) / 2 ^ 25 == page

/-- No eyelet of any device is bound to a line of a 32 MiB page, and no line of it is pinned (R18). -/
def State.pageIdle (s : State) (page : Nat) : Bool :=
  s.allCords.all (fun c => c.eyes.all fun (_, y) => y.st == .closed || !s.onPage page y.pla) &&
  s.remote.all (fun r => !s.onPage page (4 * r.region)) && s.l2.all fun x => !(x.pinned && s.onPage page x.line)

/-- System software selects the mapping of a 32 MiB page: on one with an open eyelet or a pinned line the change does not take
effect; L2 holds no line of the page afterwards, dirty ones being written back (R18; log entry 50). -/
def State.selectMapping (page : Nat) (spread : Bool) (s : State) : State :=
  if !s.pageIdle page then s
  else
    let s := (s.l2.filter fun x => x.dirty && s.onPage page x.line).foldl (fun s x => s.writeBack x.line) s
    let rest := s.spread.filter (· != page)
    { s with l2 := s.l2.filter fun x => !s.onPage page x.line, spread := if spread then rest ++ [page] else rest }

/-- A write to a register whose fields it only stores; QCTL's SUSP and CTXCTL's KILL start their events (R316,
R327, R331, R359, R384). A context number that is enabled anew after a kill is no new context here: EN leaves evphase as it is (R164,
DESIGN CHOICE, log entry 54). The selection of a page's mapping, whose interface the spec leaves open, is an event of this
form (R18, log entry 50), and so is what the loader puts into trapvec of a context's cords (R352, log entry 61). Records that a change of QBASE, LOG2N, CTX or CPSB
affects are read from the new location from then on (R334 allows either; DESIGN CHOICE, log entry 54). -/
def execRegisterWrite (s : State) : Out :=
  match s.now with
  | some (.registerWrite addr v) =>
    .next <|
      match regAt addr with
      | some (.qbase q, _, _) => s.onQueue q fun x => { x with base := v &&& 0xFFFFFFFFFFFFFF80 }
      | some (.qctl q, _, _) =>
        let old := s.queueOf q
        let new := qctlWrite (lo32 v)
        let s := s.onQueue q fun x => { x with ctl := (new &&& 0xDFFFFFFF) ||| (x.ctl &&& 0x20000000) }
        if bit new 29 ∧ !qSusp old then s.soon [.queueSuspend q]
        else if !bit new 29 ∧ qSusp old then s.soon [.queueUnsuspend q]
        else s
      | some (.cpsb, _, _) => { s with dev := { s.dev with cpsb := v } }
      | some (.ctxctl c, _, _) =>
        let s := s.onCtx c fun x => { x with en := bit v 31, sys := bit v 30 }
        if bit v 29 then s.soon [.contextKill c] else s
      | some (.saveBase c, _, _) => s.onCtx c fun x => { x with saveBase := v }
      | some (.saveSize c, _, _) => s.onCtx c fun x => { x with saveSize := lo32 v }
      | some (.snapBase c, _, _) => s.onCtx c fun x => { x with snapBase := v }
      | some (.snapSize c, _, _) => s.onCtx c fun x => { x with snapSize := lo32 v }
      | some (.kcode c, _, _) => s.onCtx c fun x => { x with kcode := fld v 0 8 }
      | some (.group g, _, _) =>
        { s with groups := SMap.upd {} s.groups g fun x => { x with ctl := lo32 v &&& 0x83FFFFFF } }
      | some (.rankPair g k, _, _) =>
        { s with groups := SMap.upd {} s.groups g fun x =>
            { x with ranks := SMap.set 0 (SMap.set 0 x.ranks (2 * k) (fld v 0 16)) (2 * k + 1) (fld v 16 16) } }
      | some (.sched slice i true, _, _) =>
        { s with sched := SMap.upd {} s.sched (slice * 64 + i) fun e => { e with w1 := v &&& 0xFFFF03FFFFFFFFFF } }
      | some (.schedAll i true, _, _) =>
        { s with sched := (List.range 640).foldl (fun m k =>
            SMap.upd {} m (k * 64 + i) fun e => { e with w1 := v &&& 0xFFFF03FFFFFFFFFF }) s.sched }
      | _ => s
  | some (.mappingChange page spread) => .next (s.selectMapping page spread)
  | some (.loaderVector ctx v) => .next (s.onCtx ctx fun x => { x with vec := v &&& 0xFFFFFFFFFFFFFFFD })
  | _ => .next s

/-- A schedule entry's word 0 is written, in one slice or in every slice of the device (R164). -/
def execScheduleEntryWrite (s : State) : Out :=
  match s.now with
  | some (.scheduleEntryWrite slice i w0) =>
    let put (m : SMap SchedEntry) (k : Nat) : SMap SchedEntry :=
      SMap.upd {} m (k * 64 + i) fun e => { e with w0 := w0 &&& 0x803FFFFFFFFFFFFF }
    .next { s with sched := match slice with | some k => put s.sched k | none => (List.range 640).foldl put s.sched }
  | _ => .next s

/-- QTAIL takes t unless that exceeds the room or moves it back (R317). -/
def Queue.setTail (q : Queue) (t : Word) : Queue :=
  let ahead := (t - q.head).toNat
  if qSize q < ahead ∨ ahead < (q.tail - q.head).toNat then q else { q with tail := t }

/-- A write of QTAIL (R317). -/
def execQtailWrite (s : State) : Out :=
  match s.now with
  | some (.qtailWrite q t) =>
    .next (s.onQueue q fun x => x.setTail t)
  | _ => .next s

/-- Writing 1 to bits of CTXEV clears those events (R359). -/
def execCtxevClear (s : State) : Out :=
  match s.now with
  | some (.ctxevClear ctx bits) =>
    .next (s.onCtx ctx fun x => { x with ev := x.ev &&& ~~~(bits.setWidth 3) })
  | _ => .next s

end Sys2Proof.Machine
end

