-- ==== Sys2Proof/Machine/Outstanding.lean ====
section
/-! DEFINITION. Outstanding.lean: forms with several parts in flight (R81, R196), what their last part does, and
the loads that read an eyelet at a completion (R154). -/

namespace Sys2Proof.Machine

/-! Host adapters. -/

/-- A write that a host adapter still owes for an atomic on a line that it has read (R215). -/
def adapterWrite (line : Nat) (d : Due) : Bool :=
  match d.what with
  | .adapterAtomic r (some _) => r.line == line
  | _ => false

/-- The next access of the device to a line of a host: an adapter that has read the line for an atomic writes it first, so
that one order holds both (R199, R215). -/
def State.settleAdapter (line : Nat) (again : Event) (s : State) : State :=
  match s.agenda.find? (adapterWrite line) with
  | none => { s with agenda := ⟨s.cycle, again⟩ :: s.agenda }
  | some d => { s with agenda := ⟨s.cycle, d.what⟩ :: ⟨s.cycle, again⟩ :: s.agenda.erase d }

/-! Messages that a home cannot perform yet. -/

/-- A message on its way to a home: where it comes from (a core; 1,000 × (n + 1) for device or adapter n; the bobbin of a core;
a picot cache), the lines that it is for, and its number in issue order. -/
structure Passage where
  src : Nat
  line : Nat
  n : Nat
  tok : Nat
  deriving DecidableEq, Repr

/-- Two messages of one source that keep their order: they have a line in common (R198, R254, R376). -/
def Passage.meets (a b : Passage) : Bool := a.src == b.src && decide (a.line < b.line + b.n) && decide (b.line < a.line + a.n)

/-- The source that a core stands for: its device, when that is another one. -/
def sourceOf (core : Nat) : Nat := if isRemote core then core / 1000 * 1000 else core

/-- The source that an adapter is; its accesses all keep their order, whatever their lines (R393). -/
def adapterPassage (adapter tok : Nat) : Passage := ⟨1000 * (960 + adapter + 1), 0, 2 ^ 64, tok⟩

/-- The numbers of a cord's eyelets that are not closed. -/
def Cord.inUse (x : Cord) : List Nat := (List.range 16).filter fun e => (x.eye e).st != .closed

/-- What an acquire itself returns is still to be read: the lines that it opens, or the halves that its load reads. -/
def gathering (r : Refresh) : Bool := !(r.fills.isEmpty && r.first.isEmpty)

/-- The eyelets that an acquire has still to read. -/
def Cord.toRead (x : Cord) (r : Refresh) : List Nat := if gathering r then x.inUse else (r.todo.map (·.1)).eraseDups

/-- The passages of an event that is a message to a home. -/
def State.passages (s : State) (i : Event) : List Passage :=
  let eyes (c tok : Nat) (es : Cord → List Nat) : List Passage :=
    match s.findCord c with
    | none => []
    | some x => (es x).map fun e => ⟨x.core, (x.eye e).pla, 1, tok⟩
  let form (core q line : Nat) : List Passage :=
    [⟨core, line, 1, (((s.coreOf core).tq.find? (·.q == q)).map fun f => max f.q f.opTok).getD s.fresh⟩]
  let runs (c : Nat) (rs : List (Nat × Nat)) : List Passage :=
    match s.findCord c with
    | none => []
    | some x => rs.map fun r => ⟨x.core, r.1, r.2, s.fresh⟩
  let away (dev line n : Nat) : List Passage := [⟨1000 * (dev + 1), line, n, s.fresh⟩]
  let from_ (core line tok : Nat) : List Passage :=
    if 961000 ≤ core then [adapterPassage (core / 1000 - 961) tok] else [⟨sourceOf core, line, 1, tok⟩]
  match i with
  | .storeAtHome m => from_ m.core m.line m.tok
  | .atomicAtHome r => from_ r.core r.line r.tok
  | .fillComplete c e tok _ _ | .erfrComplete c e tok _ _ | .tolerantReadService c e tok _ => eyes c tok fun _ => [e]
  | .acquireComplete c tok r => eyes c tok fun x => x.toRead r
  | .openvAttemptEnd c tok =>
    eyes c tok fun x => (x.ops.filter (·.tok == tok)).filterMap fun o =>
      match o.kind with
      | .versioned first .. | .version first .. => some first
      | _ => none
  | .tileFetchLine core q half _ => form core q (half / 2)
  | .adrnLineAck core q (some l) => form core q l.line
  | .flushrComplete c _ j | .discAtHome c _ j =>
    match j.back with
    | some (dev, _) => j.runs.flatMap fun r => away dev r.1 r.2
    | none => runs c j.runs
  | .bobbinWriteAck core _ (some x) => [⟨10000000 + core, lineOf x.addr, 1, s.fresh⟩]
  | .passThroughAdd u => u.adds.map fun x => ⟨2000000 + u.cl, lineOf x.1, 1, s.fresh⟩
  | .hostAccess adapter _ => [adapterPassage adapter s.fresh]
  | .remoteNotice (.fill dev _ line _ _ _) | .remoteNotice (.update dev { line := line, .. }) => away dev line 1
  | .remoteNotice (.read dev a _) | .remoteNotice (.write dev a _) => away dev (lineOf a) 1
  | .remoteNotice (.store m) => from_ m.core m.line s.fresh
  | .remoteNotice (.atom r) => from_ r.core r.line s.fresh
  | .remoteNotice (.walk dev _ rs _) => rs.flatMap fun r => away dev r.1 r.2
  | _ => []

/-- A home cannot perform a message yet: it comes again in the next cycle, and the messages behind it, from a number on, keep
their order after it (R198, R254, R376, R393). -/
def State.hold (upto : Nat) (again : Event) (s : State) : State :=
  let mine := s.passages again
  let behind (d : Due) : Bool := (s.passages d.what).any fun p => decide (upto ≤ p.tok) && mine.any p.meets
  { s with agenda := ⟨s.cycle + 1, again⟩ :: s.agenda.map fun d => if behind d then { d with at_ := max d.at_ (s.cycle + 1) } else d }

/-! Owners that hear of a write first (R200). -/

/-- Other cores own words that a writer is about to write (R200). -/
def State.owedNotices (s : State) (by_ : Option Nat) (line : Nat) (ws : Word) : List (Nat × Word) :=
  let mine := (s.owners.filter fun o => o.1 / 32 == line && bit ws (o.1 % 32) && some o.2 != by_)
  ((mine.map (·.2)).eraseDups).map fun q => (q, maskOf ((mine.filter (·.2 == q)).map fun o => o.1 % 32))

/-- A notice leaves for an owner on another device, unless one of this line is on its way to it (R377). -/
def State.noticeAway (line : Nat) (s : State) (n : Nat × Word) : State :=
  { s.sendOut (remoteDev n.1) (.ownerLoss (n.1 % 1000) line n.2) with losing := s.losing ++ [(n.1, line)] }

/-- Notices go to the owners before a write is performed, and the write waits behind them: it comes again once the cores of this
device have heard, and again until those of other devices have acknowledged, ahead of what came after it (R198, R200, R377). -/
def State.notifyFirst (ns : List (Nat × Word)) (line : Nat) (again : Event) (s : State) : State :=
  let here := ns.filter fun n => !isRemote n.1
  let new := ns.filter fun n => isRemote n.1 && !s.losing.contains (n.1, line)
  let s := new.foldl (State.noticeAway line) s
  if here.isEmpty then s.hold 0 again
  else
    let es := here.map fun (q, ws) => Event.ownerLossNotice q line ws
    { s with agenda := (es ++ [again]).map (fun e => ⟨s.cycle, e⟩) ++ s.agenda }

/-- The acknowledgement of an owner on another device: it owns the words no more (R200, R377). -/
def State.ownerAck (core line : Nat) (ws : Word) (s : State) : State :=
  { s with
    owners := s.owners.filter fun o => !(o.1 / 32 == line && bit ws (o.1 % 32) && o.2 == core),
    losing := s.losing.filter (· != (core, line)) }

/-! Access to the data of an eyelet. -/

def ldBytes : LdSize → Nat
  | .ub => 1 | .sb => 1 | .uh => 2 | .sh => 2 | .w => 4 | .d => 8

def stBytes : StSize → Nat
  | .b => 1 | .h => 2 | .w => 4 | .d => 8

def pilBytes : PilSize → Nat
  | .w => 4 | .d => 8 | .q => 16

/-- Register words that a value of a load size fills (R154). -/
def ldWords (z : LdSize) (x : Nat) : List Word :=
  match z with
  | .sb => [sextTo 32 x 8]
  | .sh => [sextTo 32 x 16]
  | .d => [BitVec.ofNat 32 x, BitVec.ofNat 32 (x / 2 ^ 32)]
  | _ => [BitVec.ofNat 32 x]

def Eyelet.num (x : Eyelet) (o n : Nat) : Nat := leNat ((List.range n).map fun i => SMap.get 0 x.data (o + i))

/-- A line of bytes put into an eyelet, but for the words of a mask. -/
def Eyelet.fill (x : Eyelet) (base : Nat) (bs : List Byte) (keep : Word) : Eyelet :=
  { x with data := SMap.setAll 0 x.data ((bs.zipIdx.map fun (b, i) => (base + i, b)).filter fun e => !bit keep (e.1 / 4)) }

/-- The register writes of a load, with its destination bound at issue (R96, R154). -/
def loadWrites (z : LdSize) (d : Wr) (wb : Nat) (x : Nat → Nat) (lanes : List (Nat × Nat)) : List RegWrite :=
  lanes.flatMap fun (l, o) => (ldWords z (x o)).zipIdx.map fun (v, k) =>
    match d with
    | .v n => .v (wb + n + k) l v
    | .s n => .s (n + k) v

/-! Outstanding forms. -/

/-- Puts an outstanding form of the focused cord in place; its token is the fresh number at this moment. -/
def State.open_ (o : Op) (s : State) : State :=
  State.tick (s.onSelf fun c => { c with ops := c.ops ++ [{ o with tok := s.fresh }] })

/-- Words of a line that an atomic changed take their home value in every eyelet of the cord that holds it, no longer
owned (R209). -/
def Cord.atomCopy (line : Nat) (cells : List (Nat × Byte)) (c : Cord) : Cord :=
  let ws := wordsOf (cells.map (·.1))
  { c with
    eyes := c.eyes.map fun (e, y) =>
      (e, if y.st = .opened ∧ y.pla = line then { y with data := SMap.setAll 0 y.data cells, own := y.own &&& ~~~ws } else y),
    ops := c.ops.map (c.loseKept line ws) }

/-- The end of an outstanding form: registers are written, an atomic's eyelets brought up to date, and its flag and
counters fall in one cycle (R81, R196, R212). -/
def Cord.endOp (c : Cord) (o : Op) : Cord :=
  let c := c.applyAll o.writes
  let c := match o.kind with | .atom line cells => c.atomCopy line cells | _ => c
  let c := match o.flag with | some f => c.flagDown f.val | none => c
  let wait := match o.kind with | .wakeBarw => Wait.none | .wakeWait => Wait.none | _ => c.wait
  { c with ops := c.ops.filter (·.tok != o.tok), ldcnt := c.ldcnt - o.ld, stcnt := c.stcnt - o.stc, wait := wait }

/-- The stores of a cord that their homes have not performed, in the order issued: those in messages, then those that wait with
its releases (R155, R201). -/
def State.storesOf (s : State) (c : Nat) : List StoreMsg :=
  let sent := s.agenda.filterMap fun d =>
    match d.what with
    | .storeAtHome m => if m.cord = c ∧ !isRemote m.core then some m else none
    | _ => none
  sent ++ (((s.cordRec c).map (·.rels)).getD []).filterMap fun r =>
    match r.kind with
    | .store m | .follow m _ => some m
    | _ => none

/-- Bytes of a line that a cord has stored and its home has not performed, by offset. -/
def State.inFlight (s : State) (c line : Nat) : List (Nat × Byte) :=
  (s.storesOf c).flatMap fun m => if m.line = line then m.bytes else []

/-- Those that it had stored when its form of a number issued. -/
def State.inFlightTo (s : State) (c line tok : Nat) : List (Nat × Byte) :=
  (s.storesOf c).flatMap fun m => if m.line = line ∧ m.tok ≤ tok then m.bytes else []

/-- Bytes from an offset on with cells laid over them, the last cell of an offset standing. -/
def layOver (base : Nat) (bs : List Byte) (cells : List (Nat × Byte)) : List Byte :=
  bs.zipIdx.map fun (b, i) => ((cells.reverse.find? fun c => c.1 == base + i).map (·.2)).getD b

/-- A fill whose read is sent now ends no earlier than the least latency of R147 from here. -/
def State.setDue (c e : Nat) (s : State) : State :=
  match s.findCord c with
  | none => s
  | some x =>
    let y := x.eye e
    s.onCord c fun x => x.setEye e { y with due := max y.due (s.cycle + s.leastOpen x.core y.pla) }

/-- Sends the read of a fill to the home of the line; a line of a region is served by R232 (R147, R198). -/
def State.sendFill (c e tok : Nat) (s : State) : State :=
  match s.findCord c with
  | none => s
  | some x =>
    let y := x.eye e
    let least := s.leastOpen x.core y.pla
    let s := s.setDue c e
    s.afterPath x.core (s.homeOf y.pla) (least / 2)
      (if y.rgn = 31 then .fillComplete c e tok none none else .tolerantReadService c e tok none)

/-- The reads of an acquire leave for their homes: of what it opens, of what its load reads, and of the eyelets that it
refreshes (R147, R156, R198). -/
def State.sendReads (c tok : Nat) (r : Refresh) (s : State) : State :=
  match s.findCord c with
  | none => s
  | some x =>
    let lines := (x.toRead r).map fun e => (x.eye e).pla
    let least := (lines.map fun l => s.leastOpen x.core l / 2).foldl max 1
    let s := r.fills.foldl (fun s f => s.setDue c f.1) s
    s.afterPaths x.core (lines.map s.homeOf).eraseDups least (.acquireComplete c tok r)

/-- An outstanding form of a cord goes on as another kind, with so many parts. -/
def State.setOp (c : Nat) (o : Op) (left : Nat) (k : OpKind) (s : State) : State :=
  s.onCord c fun x => { x with ops := x.ops.map fun p => if p.tok = o.tok then { o with left := left, kind := k } else p }

/-- The home of an openv's version word is asked for it (R198, R218). -/
def State.askVersion (c : Nat) (o : Op) (first : Nat) (s : State) : State :=
  match s.findCord c with
  | none => s
  | some x =>
    let line := (x.eye first).pla
    s.afterPath x.core (s.homeOf line) (s.leastOpen x.core line / 2) (.openvAttemptEnd c o.tok)

/-- Attempt t of an openv begins with the version word (R218). -/
def State.attempt (c : Nat) (o : Op) (first n t : Nat) (dead : Bool) (s : State) : State :=
  (s.setOp c o 0 (.version first n t dead)).askVersion c o first

/-- The version word of an attempt has been read: every line is filled, one whose last fill failed among them; a line
that a close or recall took from the run is not (R152, R218). -/
def State.fillRun (c : Nat) (o : Op) (first n t v1 : Nat) (dead : Bool) (s : State) : State :=
  match s.findCord c with
  | none => s
  | some x =>
    let again (e : Nat) : Bool := (x.eye e).tok == o.tok && ((x.eye e).st == .filling || !dead)
    let es := ((List.range n).map (first + ·)).filter again
    let bind (x : Cord) (e : Nat) : Cord := x.setEye e { x.eye e with st := .filling, reason := .none }
    let s := (s.setOp c o 1 (.versioned first n t v1 dead)).onCord c fun x => es.foldl bind x
    if es.isEmpty then s.askVersion c o first else s.sendReads c o.tok ⟨none, es.map fun e => (e, o.tok), [], [], [], []⟩

/-- A form leaves the tambour. -/
def State.dropForm (core q : Nat) (s : State) : State :=
  s.onCore core fun x => { x with tq := x.tq.filter (·.q != q) }

/-- A drain is over: its form leaves the tambour once it has left the array (R277, R310). -/
def State.dropDrain (core q : Nat) (s : State) : State :=
  s.onCore core fun x => { x with tq := x.tq.filter fun f => f.q != q || f.phase == .occupying }

/-- A part of an outstanding form ends. With the last one the form ends, or an openv compares its version words
or makes its first attempt (R81, R218). -/
def State.opPart (c tok : Nat) (s : State) : State :=
  match s.cordRec c with
  | none => s
  | some x =>
    match x.ops.find? (·.tok == tok) with
    | none => s
    | some o =>
      let s := s.onCord c fun x => { x with ops := x.ops.map fun p => if p.tok = tok then { p with left := p.left - 1 } else p }
      if 1 < o.left then s
      else
        match o.kind with
        | .versioned first n 0 _ dead => s.attempt c o first n 1 dead
        | .versioned first _ _ _ _ => s.askVersion c o first
        | .drain core q => State.dropDrain core q (s.onCord c fun x => x.endOp o)
        | _ => s.onCord c fun x => x.endOp o

/-- Several parts of one form end. -/
def State.opParts (c tok : Nat) : Nat → State → State
  | 0, s => s
  | n + 1, s => State.opParts c tok n (s.opPart c tok)

/-- The kind of an outstanding form. -/
def Cord.opKind (c : Cord) (tok : Nat) : OpKind := ((c.ops.find? (·.tok == tok)).map (·.kind)).getD .plain

def OpKind.versionedRun : OpKind → Bool
  | .versioned .. | .version .. => true
  | _ => false

end Sys2Proof.Machine
end

