-- ==== Sys2Proof/Machine/BoundedSums.lean ====
section
/-! DEFINITION. BoundedSums.lean: regions and their masters (R225 to R227), the picot caches (R228 to R230),
shares (R231), tolerant reads (R232), regions that devices share (R383), and bsdef, bsfree, bsdrn, bsqry (R237 to R243). -/

namespace Sys2Proof.Machine

/-! Regions. -/

def Region.has (r : Region) (va : Nat) : Bool := decide (r.base ≤ va) && decide (va < r.base + r.size)

/-- The region record at its master. -/
def State.region (s : State) (ctx n : Nat) : Option Region := (s.ctxOf ctx).regions.find? (·.n == n)

def State.onRegion (ctx n : Nat) (f : Region → Region) (s : State) : State :=
  s.onCtx ctx fun x => { x with regions := x.regions.map fun r => if r.n = n then f r else r }

/-- The region that holds a virtual address (R226). -/
def State.regionAt (s : State) (ctx va : Nat) : Option Region := (s.ctxOf ctx).regions.find? (·.has va)

/-- The region of an eyelet; none once it is freed (R227). -/
def State.eyeRegion (s : State) (ctx : Nat) (x : Eyelet) : Option Region :=
  (s.region ctx x.rgn).bind fun r => if r.gen = x.rgnGen then some r else none

def f32 (x : Word) : Num := fp32.decode x.toNat

/-- k units of BND / 1,024 (R231). -/
def Region.share (r : Region) (k : Nat) : Num := Num.mul (.fin false k 0) ((f32 r.bnd).scale (-10))

/-- The fewest units whose share is at least t: ceil(T / u) (R231). -/
def Region.ceilUnits (r : Region) (t : Num) : Nat := ((List.range 1025).find? fun k => !Num.lt (r.share k) t).getD 1024

/-- A holder's place among all by device, die and cluster, seen from a device (R232). -/
def Holder.place (dev : Nat) (h : Holder) : Nat := if isRemote h.cl then h.cl else 1000 * (dev + 1) + h.cl

/-- The holder of the largest share, of equal ones the lowest by device, die and cluster (R232). -/
def largestHolder (dev : Nat) (hs : List Holder) : Option Holder :=
  hs.foldl (fun b h =>
    match b with
    | none => some h
    | some y => if y.units < h.units ∨ (y.units = h.units ∧ h.place dev < y.place dev) then some h else some y) none

/-- Holders that a read of this tolerance forces: the largest share first, while the sum exceeds it (R232). -/
def Region.forced (r : Region) (dev : Nat) (tol : Num) : Nat → List Holder → List Nat
  | 0, _ => []
  | n + 1, hs =>
    if Num.lt tol (r.share (hs.map (·.units)).sum) then
      match largestHolder dev hs with
      | none => []
      | some h => h.cl :: r.forced dev tol n (hs.filter (·.cl != h.cl))
    else []

/-- A message from a core to the picot cache of its cluster, or from there, in the order sent. -/
def picotKey (cl : Nat) : Nat := 2000000 + cl

/-- The master of a region as an end of a path (R376, R383). -/
def masterKey (ctx rgn : Nat) : Nat := 4000000 + ctx * 2 ^ 64 + rgn

/-- A message of a region's master to a holder, in the order sent: across the fabric to one of another device (R383). -/
def State.fromMaster (cl ctx rgn : Nat) (i : Event) (m : Nat → List Nat → OutMsg) (s : State) : State :=
  if isRemote cl then s.sendOut (remoteDev cl) (m (cl % 1000) (((s.region ctx rgn).map (·.phys)).getD []))
  else s.afterPath (masterKey ctx rgn) (picotKey cl) 1 i

/-- The other device on which the master of a region stands: that of the region's first line (R225, R383). -/
def State.masterAway (s : State) (phys : List Nat) : Option Nat :=
  match phys with
  | [] => none
  | a :: _ => if s.isLocal a then none else some (devOf a)

/-- A message of a picot cache to a region's master, in the order sent: across the fabric to one on another device (R383). -/
def State.toMaster (cl ctx rgn : Nat) (i : Event) (m : List Nat → OutMsg) (s : State) : State :=
  let phys := ((s.region ctx rgn).map (·.phys)).getD []
  match s.masterAway phys with
  | none => s.afterPath (picotKey cl) (masterKey ctx rgn) 1 i
  | some dev => s.sendOut dev (m phys)

/-- What a picot cache still waits for, among what reads and drains wait for, of a master on another device: a number from here
on, with its device. -/
def askKey : Nat := 1000000000

/-- A master on another device is asked for what a read of a tolerance forces; its answer is awaited (R232, R383). -/
def State.askMaster (dev : Nat) (phys : List Nat) (tol : Word) (s : State) : List (Nat × Nat × Nat) × State :=
  let rid := s.fresh
  ([(askKey + rid, dev, 0)], State.sendOut dev (.tolerate phys tol rid) { s.tick with asked := s.asked ++ [rid] })

/-- Forced drains go to holders of a region (R232). -/
def State.forceDrains (ctx n : Nat) (cls : List Nat) (s : State) : State :=
  let mark (r : Region) : Region :=
    { r with holders := r.holders.map fun h => if cls.contains h.cl then { h with draining := true } else h }
  cls.foldl (fun s cl => s.fromMaster cl ctx n (.forcedDrain cl ctx n 0 []) .force) (s.onRegion ctx n mark)

/-- What a read of tolerance tol in a region forces: R232 steps 1 to 3. -/
def State.forceRegion (ctx : Nat) (r : Region) (tol : Word) (s : State) : List (Nat × Nat × Nat) × State :=
  match s.masterAway r.phys with
  | some dev => s.askMaster dev r.phys tol
  | none =>
  let cls := r.forced s.dev.devno (f32 tol) r.holders.length r.holders
  (cls.map fun cl => (cl, ctx, r.n), s.forceDrains ctx r.n cls)

/-- What a read of an eyelet's line forces (R232). -/
def State.forceFor (ctx : Nat) (x : Eyelet) (s : State) : List (Nat × Nat × Nat) × State :=
  match s.eyeRegion ctx x with
  | none => ([], s)
  | some r => s.forceRegion ctx r x.tol

/-! Picot caches. -/

/-- The context and region under which a cluster's cache holds its share of a region: its own, but of contexts here that have joined
one record on another device the first, since they share one set of shares (R383). -/
def State.shareKey (s : State) (ctx rgn : Nat) : Nat × Nat :=
  match s.region ctx rgn with
  | none => (ctx, rgn)
  | some r =>
    if (s.masterAway r.phys).isNone then (ctx, rgn)
    else (s.ctxs.findSome? fun x => (x.regions.find? (·.phys == r.phys)).map fun y => (x.id, y.n)).getD (ctx, rgn)

def State.tracker (s : State) (cl ctx rgn : Nat) : Option Tracker :=
  (s.picotOf cl).trackers.find? fun t => t.ctx == ctx && t.rgn == rgn

/-- The drain of a cache of this device has been asked for, or is under way. -/
def State.drainsNow (s : State) (cl ctx rgn : Nat) : Bool :=
  ((s.tracker cl ctx rgn).map (·.draining)).getD false || s.agenda.any fun d =>
    match d.what with
    | .forcedDrain k c r _ _ => k == cl && c == ctx && r == rgn
    | _ => false

/-- The master still waits for the share of a holder it has forced; of a master on another device its answer is awaited, or the
drain of a cache here. -/
def State.owing (s : State) (h : Nat × Nat × Nat) : Bool :=
  if askKey ≤ h.1 then s.asked.contains (h.1 - askKey) && !s.dev.lost.contains h.2.1
  else
    match s.region h.2.1 h.2.2 with
    | none => false
    | some r =>
      if (s.masterAway r.phys).isSome then s.drainsNow h.1 h.2.1 h.2.2
      else r.holders.any fun x => x.cl == h.1 && x.draining

/-- A drain of a region in every holder, or in those of one cluster (R234, R383), and what then is waited for. -/
def State.drainRegion (ctx : Nat) (r : Region) (cl : Option Nat) (s : State) : List (Nat × Nat × Nat) × State :=
  match s.masterAway r.phys, cl with
  | some dev, none => s.askMaster dev r.phys 0
  | some _, some k =>
    let (c, n) := s.shareKey ctx r.n
    if (s.tracker k c n).isSome then ([(k, c, n)], s.forceDrains c n [k]) else ([], s)
  | none, _ =>
    let cls := (r.holders.filter fun h => cl.isNone || cl == some h.cl).map (·.cl)
    (cls.map fun k => (k, ctx, r.n), s.forceDrains ctx r.n cls)

/-- A drain of every region of a context (R234). -/
def State.drainCtx (ctx : Nat) (cl : Option Nat) (s : State) : List (Nat × Nat × Nat) × State :=
  (s.ctxOf ctx).regions.foldl (fun a r =>
    let (l, s) := a.2.drainRegion ctx r cl
    (a.1 ++ l, s)) ([], s)

def State.onTracker (cl ctx rgn : Nat) (f : Tracker → Tracker) (s : State) : State :=
  s.onPicot cl fun p => { p with trackers := p.trackers.map fun t => if t.ctx = ctx ∧ t.rgn = rgn then f t else t }

/-- Updates on their way to a home in one message, in the order that the cache sends them (R228, R230, R241). -/
def State.sendAdds (u : HomeAdds) (s : State) : State :=
  s.afterPath (picotKey u.cl) (s.homeOf (lineOf ((u.adds.map (·.1)).headD 0))) 1 (.passThroughAdd { u with id := s.fresh })

/-- A granule leaves its cache for its home as one update of its 16 elements (R229, R230). -/
def State.sendGranule (cl : Nat) (g : Granule) (s : State) : State :=
  let adds := (List.range 16).map fun i => (g.addr + 4 * i, SMap.get 0x80000000 g.parts i)
  let u : HomeAdds := { cl := cl, ctx := g.ctx, rgn := g.rgn, id := 0, by_ := g.by_, q := g.q, adds := adds, back := .drain, owes := g.owes }
  let s := s.onPicot cl fun p => { p with granules := p.granules.filter (· != g) }
  State.sendAdds u (s.onTracker cl g.ctx g.rgn fun t => { t with acks := t.acks + 1 })

/-- A cache starts to drain a region: R230 steps 1 and 2. -/
def State.startDrain (cl ctx rgn upto : Nat) (ws : List (Nat × Nat)) (s : State) : State :=
  let s := s.onTracker cl ctx rgn fun t => { t with draining := true, upto := max t.upto upto, waiters := t.waiters ++ ws }
  let gs := (s.picotOf cl).granules.filter fun g => g.ctx == ctx && g.rgn == rgn
  let s := gs.foldl (fun s g => s.sendGranule cl g) s
  s.afterFree 1 (.picotDrainComplete cl ctx rgn)

/-- An addition on its way home that passed through this cache (R228), numbered below a bound. -/
def passing (cl ctx rgn upto : Nat) : Event → Bool
  | .passThroughAdd u => u.cl == cl && u.ctx == ctx && u.rgn == rgn && decide (u.id < upto)
  | _ => false

/-- The exact partial, and the new tracker value, of an addition to partial p under T (R228). -/
def addPartial (p t a : Word) : Word × Word :=
  let pn := BitVec.ofNat 32 (fp32.op2 false false Num.add p.toNat a.toNat)
  let d := match Num.add (f32 pn) (f32 p).neg with
    | .fin _ m e => Num.fin false m e
    | .inf _ => .inf false
    | .nan => .nan
  (pn, BitVec.ofNat 32 (fp32.encode true .ru false (Num.add (f32 t) d)))

/-- The queue of the launch of a cord. -/
def State.launchOf (s : State) (c : Nat) : Option Nat := ((s.cordRec c).bind fun x => s.findMotif x.mid).map (·.queue)

/-- Additions of one form go home in one update, past the cache (R228, R309). -/
def State.passAll (x : Addition) (adds : List (Nat × Word)) (s : State) : State :=
  s.sendAdds { cl := clusterOf x.core, ctx := x.ctx, rgn := x.rgn, id := 0, by_ := s.agentOfCord x.cord, q := s.launchOf x.cord,
               adds := adds, back := .op x.cord x.tok }

/-- An addition goes home by itself (R228). -/
def State.passThrough (x : Addition) (s : State) : State := s.passAll x [(x.addr, x.val)]

/-- Another addition of the same form to the line of one. -/
def sameLine (x : Addition) (d : Due) : Option Addition :=
  match d.what with
  | .additionAtPicot y => if y.cord = x.cord ∧ y.tok = x.tok ∧ lineOf y.addr = lineOf x.addr then some y else none
  | _ => none

/-- An addition to a region that is no more: those of a drain go home line by line, each line as one update (R228, R309). -/
def State.passFreed (x : Addition) (s : State) : State :=
  match ((s.cordRec x.cord).map (·.opKind x.tok)).getD .plain with
  | .drain _ _ =>
    let adds := (x :: s.agenda.filterMap (sameLine x)).map fun y => (y.addr, y.val)
    State.passAll x adds { s with agenda := s.agenda.filter fun d => (sameLine x d).isNone }
  | _ => s.passThrough x

/-- A partial takes its new value; a full cache drains its oldest granule for a new one (R228, R229). -/
def State.putPartial (cl : Nat) (x : Addition) (v : Word) (s : State) : State :=
  let ga := x.addr / 64 * 64
  let i := x.addr % 64 / 4
  let here (g : Granule) : Bool := g.ctx == x.ctx && g.rgn == x.rgn && g.addr == ga
  let put (g : Granule) : Granule := if here g = true then { g with parts := SMap.set 0x80000000 g.parts i v } else g
  if (s.picotOf cl).granules.any here then s.onPicot cl fun p => { p with granules := p.granules.map put }
  else
    let s :=
      match (s.picotOf cl).granules with
      | [] => s
      | g :: _ => if (s.picotOf cl).granules.length ≥ 8192 then s.sendGranule cl g else s
    let new : Granule :=
      { ctx := x.ctx, rgn := x.rgn, addr := ga, by_ := s.agentOfCord x.cord, q := s.launchOf x.cord, parts := SMap.set 0x80000000 [] i v }
    s.onPicot cl fun p => { p with granules := p.granules ++ [new] }

/-- What partial p of an addition's word reads in the cache (R228). -/
def State.partialOf (s : State) (cl : Nat) (x : Addition) : Word :=
  (((s.picotOf cl).granules.find? fun g => g.ctx == x.ctx && g.rgn == x.rgn && g.addr == x.addr / 64 * 64).map
    fun g => SMap.get 0x80000000 g.parts (x.addr % 64 / 4)).getD 0x80000000

/-- The cache asks the master for a share unless it already waits for one, or its 64 trackers are in use or promised to the
shares it waits for (R228, R229, R231). -/
def State.askShare (cl ctx rgn : Nat) (s : State) : State :=
  let p := s.picotOf cl
  if p.asked.contains (ctx, rgn) ∨ 64 ≤ p.trackers.length + p.asked.length then s
  else State.toMaster cl ctx rgn (.shareRequest cl ctx rgn) (.shareRequest cl) (s.onPicot cl fun p => { p with asked := p.asked ++ [(ctx, rgn)] })

/-- An addition that trips the drain of its region counts as performed only when its granule is (R234). -/
def State.oweGranule (cl : Nat) (x : Addition) (s : State) : State :=
  let owe (g : Granule) : Granule :=
    if g.ctx = x.ctx ∧ g.rgn = x.rgn ∧ g.addr = x.addr / 64 * 64 then { g with owes := g.owes ++ [(x.cord, x.tok)] } else g
  s.onPicot cl fun p => { p with granules := p.granules.map owe }

/-- An addition reaches the cluster's picot cache (R228); one meant for a region that has been freed since goes home (R239). -/
def execAdditionAtPicot (s : State) : Out :=
  match s.now with
  | some (.additionAtPicot x) =>
    let cl := clusterOf x.core
    .next <|
      match s.region x.ctx x.rgn with
      | none => s.passFreed x
      | some r =>
        if r.gen ≠ x.gen then s.passFreed x
        else
        let (ctx, rgn) := s.shareKey x.ctx x.rgn
        let x := { x with ctx := ctx, rgn := rgn }
        match s.tracker cl x.ctx x.rgn with
        | none => if r.closing || ((s.region ctx rgn).any (·.closing)) then s.passThrough x else (s.askShare cl x.ctx x.rgn).passThrough x
        | some t =>
          if t.draining then s.passThrough x
          else
            let (pn, tn) := addPartial (s.partialOf cl x) t.t x.val
            let s := s.putPartial cl x pn
            let finite := match f32 x.val with | .fin _ _ _ => true | _ => false
            if finite && !Num.lt (r.share t.units) (f32 tn) && f32 tn != .nan then
              State.opPart x.cord x.tok (s.onTracker cl x.ctx x.rgn fun t => { t with t := tn })
            else State.startDrain cl x.ctx x.rgn 0 [] (s.oweGranule cl x)
  | _ => .next s

/-- The cells of one word after an FP32 addition at its home (R228). -/
def State.addWord (s : State) (a : Nat) (v : Word) : List (Nat × Byte) :=
  cellsAt a (leBytes (fp32.op2 false false Num.add (s.num a 4) v.toNat) 4)

/-- Additions are performed at the home as one update (R228, R230); one that cannot reach its home kills its launch (R378). -/
def State.performAdds (u : HomeAdds) (s : State) : State :=
  match u.adds with
  | [] => s
  | (a, _) :: _ =>
    let line := lineOf a
    let perform (s : State) : State :=
      let s := s.takeOwner none line (wordsOf (u.adds.map fun x => x.1 % 128))
      u.adds.foldl (fun s x => s.performWrite u.by_ (s.addWord x.1 x.2)) s
    let lost (s : State) : State :=
      match u.back, u.q with
      | .op c _, _ => s.messageLost c
      | .drain, some q => s.killLaunch q 0x20
      | .drain, none => s
    let s := if s.unreachable line then lost s else perform s
    let s := u.owes.foldl (fun s w => s.opPart w.1 w.2) s
    match u.back with
    | .op c tok => s.opParts c tok u.adds.length
    | .drain =>
      if isRemote u.cl then s.sendOut (remoteDev u.cl) (.done line)
      else s.onTracker u.cl u.ctx u.rgn fun t => { t with acks := t.acks - 1 }

/-- A passed-through addition or a drained granule is performed at the home, after the notices of R200 (R228, R230). -/
def execPassThroughAdd (s : State) : Out :=
  match s.now with
  | some (.passThroughAdd u) =>
    .next <|
      match u.adds.map fun x => lineOf x.1 with
      | [] => s.performAdds u
      | line :: _ =>
        if s.unreachable line then s.performAdds u
        else if s.agenda.any (adapterWrite line) then s.settleAdapter line (.passThroughAdd u)
        else
          match s.owedNotices none line (wordsOf (u.adds.map fun x => x.1 % 128)) with
          | n :: ns => s.notifyFirst (n :: ns) line (.passThroughAdd u)
          | [] => s.performAdds u
  | _ => .next s

/-- Every home has acknowledged: the whole share goes back to the master and T clears (R230 step 3). -/
def execPicotDrainComplete (s : State) : Out :=
  match s.now with
  | some (.picotDrainComplete cl ctx rgn) =>
    .next <|
      match s.tracker cl ctx rgn with
      | none => s
      | some t =>
        if !t.draining then s
        else if t.acks ≠ 0 ∨ s.agenda.any (fun d => passing cl ctx rgn t.upto d.what) then
          s.after 1 (.picotDrainComplete cl ctx rgn)
        else
          let away := (s.masterAway (((s.region ctx rgn).map (·.phys)).getD [])).isSome
          let s := s.onPicot cl fun p => { p with trackers := p.trackers.filter fun t => !(t.ctx == ctx && t.rgn == rgn) }
          let s := s.toMaster cl ctx rgn (.shareReturn cl ctx rgn t.units false t.waiters) fun p => .shareReturn cl p t.units false
          if away then t.waiters.foldl (fun s w => s.opPart w.1 w.2) s else s
  | _ => .next s

/-! Shares. -/

/-- The master grants min(64, unallocated) units, or refuses (R231). While a bsfree drains the region it refuses, and caches do
not ask (DESIGN CHOICE, log entry 63). -/
def State.grant (cl ctx rgn : Nat) (s : State) : State :=
  let send (g : Nat) (s : State) : State := s.fromMaster cl ctx rgn (.shareGrant cl ctx rgn g) fun k p => .grant k p g
  match s.region ctx rgn with
  | none => send 0 s
  | some r =>
    let g := if r.closing ∨ 256 ≤ r.holders.length then 0 else min 64 r.free
    send g (if g = 0 then s else s.onRegion ctx rgn fun r => { r with free := r.free - g, holders := r.holders ++ [⟨cl, g, false⟩] })

/-- Grants to every cache that asked while trims were out, in the order they asked (R231). -/
def State.grantAsking (ctx rgn : Nat) (s : State) : State :=
  match s.region ctx rgn with
  | none => s
  | some r =>
    if r.trims ≠ 0 then s
    else r.asking.foldl (fun s cl => s.grant cl ctx rgn) (s.onRegion ctx rgn fun r => { r with asking := [] })

/-- The master receives a request: with fewer than 64 units unallocated it first trims every holder (R231). It grants once every
holder that it trimmed has answered; a request that comes in the meantime waits with the others, and no further trim goes out for
it (DESIGN CHOICE, log entry 63). -/
def State.requestShare (cl ctx rgn : Nat) (s : State) : State :=
  match s.region ctx rgn with
  | none => s.grant cl ctx rgn
  | some r =>
    if r.closing ∨ 256 ≤ r.holders.length ∨ 64 ≤ r.free then s.grant cl ctx rgn
    else
      let s := s.onRegion ctx rgn fun r => { r with asking := r.asking ++ [cl] }
      if r.trims ≠ 0 then s
      else
        let s := s.onRegion ctx rgn fun r => { r with trims := r.holders.length }
        let s := r.holders.foldl (fun s h => s.fromMaster h.cl ctx rgn (.trim h.cl ctx rgn) .trim) s
        s.grantAsking ctx rgn

/-- A request of a cache of this device arrives (R231). -/
def execShareRequest (s : State) : Out :=
  match s.now with
  | some (.shareRequest cl ctx rgn) => .next (s.requestShare cl ctx rgn)
  | _ => .next s

/-- A cache receives its share and starts to withhold; 0 units is a refusal (R231). -/
def execShareGrant (s : State) : Out :=
  match s.now with
  | some (.shareGrant cl ctx rgn units) =>
    let s := s.onPicot cl fun p => { p with asked := p.asked.filter (· != (ctx, rgn)) }
    .next <|
      if units = 0 then s
      else s.onPicot cl fun p => { p with trackers := p.trackers ++ [{ ctx := ctx, rgn := rgn, units := units }] }
  | _ => .next s

/-- A holder that is not draining keeps ceil(T / u) units and returns the rest (R231). -/
def execTrim (s : State) : Out :=
  match s.now with
  | some (.trim cl ctx rgn) =>
    .next <|
      match s.tracker cl ctx rgn, s.region ctx rgn with
      | some t, some r =>
        let keep := if t.draining then t.units else min t.units (r.ceilUnits (f32 t.t))
        let s := s.onTracker cl ctx rgn fun t => { t with units := keep }
        s.toMaster cl ctx rgn (.shareReturn cl ctx rgn (t.units - keep) true [])
          fun p => .shareReturn cl p (t.units - keep) true
      | _, _ => s.toMaster cl ctx rgn (.shareReturn cl ctx rgn 0 true []) fun p => .shareReturn cl p 0 true
  | _ => .next s

/-- The master receives units: the answer to a trim, or the whole share after a drain (R230, R231). -/
def State.takeShare (cl ctx rgn units : Nat) (trim : Bool) (s : State) : State :=
  let back (r : Region) : Region :=
    if trim then
      { r with free := r.free + units, trims := r.trims - 1,
               holders := r.holders.map fun h => if h.cl = cl then { h with units := h.units - units } else h }
    else { r with free := r.free + units, holders := r.holders.filter (·.cl != cl) }
  let s := s.onRegion ctx rgn back
  if trim then s.grantAsking ctx rgn else s

/-- Units of a cache of this device come back, and the forms that waited for its drain go on (R230, R231, R242). -/
def execShareReturn (s : State) : Out :=
  match s.now with
  | some (.shareReturn cl ctx rgn units trim ws) =>
    .next (ws.foldl (fun s w => s.opPart w.1 w.2) (s.takeShare cl ctx rgn units trim))
  | _ => .next s

/-- Additions of a cord to a region, from forms before a token, that have not reached the picot cache: those of a drain that has
not started among them (R242, R310). -/
def State.addsAhead (s : State) (ctx rgn c upto : Nat) : Bool :=
  (s.agenda.any fun d =>
    match d.what with
    | .additionAtPicot x => x.cord == c && x.ctx == ctx && x.rgn == rgn && decide (x.tok < upto)
    | _ => false)
  || s.cores.any fun k => k.tq.any fun f =>
    match f.work with
    | .adrn _ _ lit => f.cord == c && decide (f.opTok < upto) && fld lit 4 2 == 2 && f.phase == .queued
    | _ => false

/-- A holder receives a forced drain, or a drain that bsdrn or another event of R234 asks for: it covers what has passed
through before it came, and waits for what the cord of a bsdrn has still to add (R242). Without a share its waiters go on once those
additions are performed. -/
def execForcedDrain (s : State) : Out :=
  match s.now with
  | some (.forcedDrain cl ctx rgn upto ws) =>
    let ahead := ws.any fun w => s.addsAhead ctx rgn w.1 w.2
    let again := upto
    let upto := if upto = 0 ∧ ws ≠ [] then s.fresh else upto
    .next <|
      if ahead then s.after 1 (.forcedDrain cl ctx rgn again ws)
      else
      let (ctx, rgn) := s.shareKey ctx rgn
      match s.tracker cl ctx rgn with
      | some _ => s.startDrain cl ctx rgn upto ws
      | none =>
        if s.agenda.any fun d => passing cl ctx rgn upto d.what then s.after 1 (.forcedDrain cl ctx rgn upto ws)
        else ws.foldl (fun s w => s.opPart w.1 w.2) s
  | _ => .next s

/-! Instructions. -/

/-- A form of the class V that executes once for the cord (R237). -/
def onceForm (vs : List (Nat × Nat)) : Form := { lat := .v, vecs := vs }

def overlaps (a n b m : Nat) : Bool := decide (a < b + m) && decide (b < a + n)

/-- The number under which records stand that only contexts of other devices have defined (R383): no context has it. -/
def foreignCtx : Nat := 4096

/-- Two global ranges begin at the same line, that of their master (R225, R383). -/
def sameStart (p q : List Nat) : Bool := p.head? == q.head?

/-- The record over a global range that a context of another device has defined, and none here has joined (R383). -/
def State.foreignRegion (s : State) (phys : List Nat) : Option Region :=
  (s.ctxOf foreignCtx).regions.find? fun r => sameStart r.phys phys

/-- A record over a range has the values of a bsdef: N, which the pages show, BND and DTOL (R383). -/
def Region.agrees (r : Region) (phys : List Nat) (bnd dtol : Word) : Bool := r.phys == phys && r.bnd == bnd && r.dtol == dtol

/-- The region of a bsdef: a new one with 1,024 units unallocated and no holders, or the record that contexts of other
devices share over the same global range, which goes on refusing shares while a bsfree of one of them drains it (R238, R239,
R383). -/
def State.define (ctx : Nat) (new : Region) (s : State) : State :=
  let put (r : Region) (s : State) : State := State.tick (s.onCtx ctx fun x => { x with regions := x.regions ++ [r] })
  match s.foreignRegion new.phys with
  | none => put new s
  | some r =>
    let joined := { new with free := r.free, holders := r.holders, asking := r.asking, trims := r.trims, joined := r.joined,
                             closing := r.closing }
    put joined (s.onCtx foreignCtx fun x => { x with regions := x.regions.filter (·.n != r.n) })

/-- The status of a bsdef by the region table of its context, definitions that wait for their master among it, and by a record
here over the same global range with other values (R238, R383). -/
def State.defineStatus (s : State) (ctx k : Nat) (new : Region) : Nat :=
  let rs := (s.ctxOf ctx).regions ++ (s.defining.filter fun d => d.ctx == ctx).map (·.new)
  let other := (s.foreignRegion new.phys).any fun r => !r.agrees new.phys new.bnd new.dtol
  if rs.any (·.n == k) then 1
  else if (rs.any fun r => overlaps new.base new.size r.base r.size) || other then 2 else 0

/-- bsdef (R238); a region whose first line lies on another device is recorded by the master there, whose answer is awaited
(R383). A DTOL of -0 is 0. -/
def execBsdef (d : Wr) (a b : Rd) (lit : Word) (s : State) : Out :=
  runForm (onceForm (wrVecs d 1 ++ rdVecs b 1)) s fun s =>
    let c := s.cord
    let l := lowest c.act
    let base := (pair64 (c.rdAt a 0 l) (c.rdAt a 1 l)).toNat
    let bnd := c.rdAt a 2 l
    let dtol := if c.rdAt a 3 l = 0x80000000 then 0 else c.rdAt a 3 l
    let n := (c.once b).toNat
    let okBnd := match f32 bnd with | .fin false m _ => m != 0 | _ => false
    let okTol := match f32 dtol with | .nan => false | .inf neg => !neg | .fin neg m _ => !neg || m == 0
    if base % 65536 ≠ 0 ∨ n = 0 ∨ 2 ^ 25 < n ∨ !okBnd ∨ !okTol then .trap .bsBad 0
    else
      withPages (pageStarts base (n * 65536)) .w s fun ps s =>
        let k := fld lit 0 4
        let phys := (physRuns base (n * 65536) ps).map (·.1)
        let new : Region :=
          { n := k, gen := s.fresh, base := base, size := n * 65536, bnd := bnd, dtol := dtol, free := 1024, phys := phys }
        let st := s.defineStatus c.ctx k new
        let answer (s : State) : State :=
          s.afterFree 1 (.regionTableUpdateComplete c.cid c.flag c.ctx 31 (c.writesOnce d (BitVec.ofNat 32 st)))
        if st ≠ 0 then .done (answer s)
        else
          match s.masterAway phys with
          | none => .done (answer (s.define c.ctx new))
          | some dev =>
            if s.dev.lost.contains dev then .done ((answer s).messageLost c.cid)
            else
            .done (State.sendOut dev (.define c.ctx phys bnd dtol)
              { s with defining := s.defining ++ [⟨c.cid, c.flag, c.ctx, c.writesOnce d 0, new⟩] })

/-- bsfree (R239); the master on another device drains its holders (R383). trinfo is 31 when the reserved bits of the selector are
set, whatever it names: it then names no region (DESIGN CHOICE, log entry 63). -/
def execBsfree (a : Rd) (s : State) : Out :=
  runForm (onceForm (rdVecs a 1)) s fun s =>
    let c := s.cord
    let x := c.once a
    let k := fld x 0 4
    match (if fld x 4 28 ≠ 0 then none else s.region c.ctx k) with
    | none => .trap .bsRegion (if fld x 4 28 ≠ 0 then 31 else BitVec.ofNat 64 k)
    | some r =>
      let s := s.onRegion c.ctx k fun r => { r with closing := true }
      let s :=
        match s.masterAway r.phys with
        | some dev => s.sendOut dev (.free c.ctx r.phys)
        | none => s.forceDrains c.ctx k (r.holders.map fun (h : Holder) => h.cl)
      .done (s.afterFree 1 (.regionTableUpdateComplete c.cid c.flag c.ctx k []))

/-- Share traffic of a region that is still on its way. -/
def shareTraffic (ctx rgn : Nat) : Event → Bool
  | .shareRequest _ c r | .shareGrant _ c r _ | .shareReturn _ c r _ _ _ | .trim _ c r => c == ctx && r == rgn
  | _ => false

/-- A freed region leaves its context's table; contexts of other devices that share its record keep it (R239, R383). -/
def State.dropRegion (ctx : Nat) (r : Region) (s : State) : State :=
  let s := s.onCtx ctx fun x => { x with regions := x.regions.filter (·.n != r.n) }
  if r.joined.isEmpty then s
  else State.tick (s.onCtx foreignCtx fun x => { x with regions := x.regions ++ [{ r with n := s.fresh, closing := false }] })

/-- A bsdef or bsfree has reached every core; a freed region goes once every share is back (R227, R239). -/
def execRegionTableUpdateComplete (s : State) : Out :=
  match s.now with
  | some (.regionTableUpdateComplete c f ctx rgn ws) =>
    .next <|
      match s.region ctx rgn with
      | some r =>
        if r.closing then
          let away := match s.masterAway r.phys with | some dev => !r.left && !s.dev.lost.contains dev | none => false
          if away then s.after 1 (.regionTableUpdateComplete c f ctx rgn ws)
          else if !r.holders.isEmpty ∨ s.agenda.any fun d => shareTraffic ctx rgn d.what then
            State.after 1 (.regionTableUpdateComplete c f ctx rgn ws)
              (s.forceDrains ctx rgn ((r.holders.filter fun h => !h.draining).map (·.cl)))
          else
            (s.dropRegion ctx r).complete c f ws
        else s.complete c f ws
      | none => s.complete c f ws
  | _ => .next s

/-- bsdrn (R242). -/
def execBsdrn (a : Rd) (s : State) : Out :=
  runForm (onceForm (rdVecs a 1)) s fun s =>
    let c := s.cord
    let x := c.once a
    let k := fld x 0 4
    if fld x 5 27 ≠ 0 then .trap .bsRegion 31
    else if !bit x 4 ∧ (s.region c.ctx k).isNone then .trap .bsRegion (BitVec.ofNat 64 k)
    else
      let named := if bit x 4 then (s.ctxOf c.ctx).regions.map (·.n) else [k]
      let named := if named.isEmpty then [31] else named
      let tok := s.fresh
      let s := s.open_ { tok := 0, flag := some c.flag, left := named.length }
      let cl := clusterOf c.core
      .done (named.foldl (fun s n => s.afterPath c.core (picotKey cl) 1 (.forcedDrain cl c.ctx n 0 [(c.cid, tok)])) s)

/-- The word that bsqry reads (R243): 0 when the region has been removed since its check (DESIGN CHOICE, log entry 63). -/
def State.bsqryWord (s : State) (cl ctx rgn sel : Nat) : Word :=
  match s.region ctx rgn with
  | none => 0
  | some r =>
    match sel with
    | 0 =>
      let maxu := ((largestHolder s.dev.devno r.holders).map (·.units)).getD 0
      BitVec.ofNat 32 (r.holders.length * 2 ^ 23 + maxu * 2 ^ 11 + r.free)
    | 1 => BitVec.ofNat 32 (((s.tracker cl (s.shareKey ctx rgn).1 (s.shareKey ctx rgn).2).map (·.units)).getD 0)
    | 2 => ((s.tracker cl (s.shareKey ctx rgn).1 (s.shareKey ctx rgn).2).map (·.t)).getD 0
    | _ => r.bnd

/-- A write whose value is known only now. -/
def putValue (x : Word) : RegWrite → RegWrite
  | .v p l _ => .v p l x
  | .s n _ => .s n x
  | .k n _ => .k n x
  | .td d w _ => .td d w x

/-! Masters on other devices (R383). -/

/-- The answer of a master to a bsdef: the region is recorded, or its status is that of the master. -/
def State.masterDefined (ctx : Nat) (phys : List Nat) (status : Nat) (s : State) : State :=
  match s.defining.find? fun d => d.ctx == ctx && d.new.phys == phys with
  | none => s
  | some d =>
    let s := { s with defining := s.defining.erase d }
    let s := if status = 0 then State.tick (s.onCtx ctx fun x => { x with regions := x.regions ++ [{ d.new with gen := s.fresh }] }) else s
    s.afterFree 1 (.regionTableUpdateComplete d.cord d.flag ctx 31 (d.dst.map (putValue (BitVec.ofNat 32 status))))

/-- The answer of a master to a bsfree of a context. -/
def State.masterFreed (ctx : Nat) (phys : List Nat) (s : State) : State :=
  s.onCtx ctx fun x => { x with regions := x.regions.map fun r => if r.phys = phys ∧ r.closing then { r with left := true } else r }

/-- The context and region of this device that a message of a master elsewhere to a cluster is for: of those over its range one
that the condition holds of. -/
def State.joinedHere (s : State) (phys : List Nat) (p : Nat → Nat → Bool) : Option (Nat × Nat) :=
  if (s.masterAway phys).isNone then none
  else s.ctxs.findSome? fun x => (x.regions.find? fun r => r.phys == phys && p x.id r.n).map fun r => (x.id, r.n)

/-- Units from a master elsewhere reach a cache that has asked; what no cache has asked for goes back (R231). -/
def State.masterGrant (cl : Nat) (phys : List Nat) (units : Nat) (s : State) : State :=
  match s.joinedHere phys fun c n => (s.picotOf cl).asked.contains (c, n) with
  | some (c, n) => s.after 0 (.shareGrant cl c n units)
  | none =>
    match s.masterAway phys with
    | some dev => if units = 0 then s else s.sendOut dev (.shareReturn cl phys units false)
    | none => s

/-- A trim or a forced drain of a master elsewhere reaches a cache; one that holds no share answers a trim with no units (R231,
R232). -/
def State.masterAsks (cl : Nat) (phys : List Nat) (trim : Bool) (s : State) : State :=
  match s.joinedHere phys fun c n => (s.tracker cl c n).isSome with
  | some (c, n) => s.after 0 (if trim then .trim cl c n else .forcedDrain cl c n 0 [])
  | none =>
    match s.masterAway phys with
    | some dev => if trim then s.sendOut dev (.shareReturn cl phys 0 true) else s
    | none => s

/-- The word of a bsqry returns from a master elsewhere (R243). -/
def State.masterQueried (c tok : Nat) (x : Word) (s : State) : State :=
  State.opPart c tok (s.onCord c fun y =>
    { y with ops := y.ops.map fun o => if o.tok = tok then { o with writes := o.writes.map (putValue x) } else o })

/-! Contexts of other devices (R383). -/

/-- The region whose record lies over a global range: its context and its number. -/
def State.recordOver (s : State) (phys : List Nat) : Option (Nat × Region) :=
  if (s.masterAway phys).isSome then none else s.ctxs.findSome? fun x => (x.regions.find? (·.phys == phys)).map fun r => (x.id, r)

/-- The record of a region that begins where a global range begins, if its master is here: its context and the region. -/
def State.recordFrom (s : State) (phys : List Nat) : Option (Nat × Region) :=
  if (s.masterAway phys).isSome then none else s.ctxs.findSome? fun x => (x.regions.find? fun r => sameStart r.phys phys).map fun r => (x.id, r)

/-- A bsdef of a context of another device (R383): it joins the record over its range, if there is one with its values. -/
def State.remoteDefine (dev ctx : Nat) (phys : List Nat) (bnd dtol : Word) (s : State) : State :=
  if (s.masterAway phys).isSome then s
  else
  match s.recordFrom phys with
  | some (c, r) =>
    if r.agrees phys bnd dtol then
      (s.onRegion c r.n fun r => { r with joined := r.joined ++ [(dev, ctx)] }).sendOut dev (.defined ctx phys 0)
    else s.sendOut dev (.defined ctx phys 2)
  | none =>
    let new : Region :=
      { n := s.fresh, gen := s.fresh, base := 0, size := 0, bnd := bnd, dtol := dtol, free := 1024, phys := phys, joined := [(dev, ctx)] }
    State.sendOut dev (.defined ctx phys 0) (State.tick (s.onCtx foreignCtx fun x => { x with regions := x.regions ++ [new] }))

/-- A bsfree of a context of another device: every holder drains, and the last joined context removes the record (R383). -/
def State.remoteFree (dev ctx : Nat) (phys : List Nat) (s : State) : State :=
  match s.recordOver phys with
  | none => s.sendOut dev (.freed ctx phys)
  | some (c, r) =>
    if !r.holders.isEmpty then
      let s := s.onRegion c r.n fun r => { r with closing := true }
      State.after 1 (.remoteNotice (.free dev ctx phys))
        (s.forceDrains c r.n ((r.holders.filter fun h => !h.draining).map (·.cl)))
    else
      let leaving (i : Event) : Bool := match i with | .regionTableUpdateComplete _ _ x n _ => x == c && n == r.n | _ => false
      let left := r.joined.erase (dev, ctx)
      let s := s.onRegion c r.n fun r => { r with joined := left, closing := s.agenda.any fun d => leaving d.what }
      let s := if c = foreignCtx ∧ left.isEmpty then s.onCtx c fun x => { x with regions := x.regions.filter (·.n != r.n) } else s
      s.sendOut dev (.freed ctx phys)

/-- bsqry (R243); the master on another device is asked for its record (R383). -/
def execBsqry (d : Wr) (a : Rd) (lit : Word) (s : State) : Out :=
  runForm (onceForm (wrVecs d 1 ++ rdVecs a 1)) s fun s =>
    let c := s.cord
    let x := c.once a
    let k := fld x 0 4
    if fld x 4 28 ≠ 0 then .trap .bsRegion 31
    else
      match s.region c.ctx k with
      | none => .trap .bsRegion (BitVec.ofNat 64 k)
      | some r =>
        match (if fld lit 0 2 = 0 then s.masterAway r.phys else none) with
        | some dev =>
          let tok := s.fresh
          if s.dev.lost.contains dev then .done (s.messageLost c.cid |>.afterFree 1 (.bsqryResult c.cid c.flag c.ctx k 0 (c.writesOnce d 0)))
          else
          .done (State.sendOut dev (.query c.cid tok r.phys)
            (s.open_ { tok := 0, flag := some c.flag, left := 1, writes := c.writesOnce d 0 }))
        | none => .done (s.afterFree 1 (.bsqryResult c.cid c.flag c.ctx k (fld lit 0 2) (c.writesOnce d 0)))

/-- The region record, read at the master and the cluster at one moment, returns (R243). -/
def execBsqryResult (s : State) : Out :=
  match s.now with
  | some (.bsqryResult c f ctx rgn sel ws) =>
    s.ifCord c fun x => s.complete c f (ws.map (putValue (s.bsqryWord (clusterOf x.core) ctx rgn sel)))
  | _ => .next s

end Sys2Proof.Machine
end

