-- ==== Sys2Proof/Machine/Tiles.lean ====
section
/-! DEFINITION. Tiles.lean: tile descriptors and the memory that they name (R272, R273, R279, R281, R309), and the drains of a
cord that still owe words of a line (R310). -/

namespace Sys2Proof.Machine

/-! Descriptor fields (R272). -/

abbrev Desc := List Word

def Desc.word (d : Desc) (i : Nat) : Word := List.getD d i 0
def Desc.base (d : Desc) : Nat := d.word 0 |>.toNat |> (· + (d.word 1).toNat * 2 ^ 32)
def Desc.stride (d : Desc) : Nat := (d.word 2).toNat
def Desc.scale (d : Desc) : Nat := (d.word 3).toNat + (d.word 4).toNat * 2 ^ 32
def Desc.cext (d : Desc) : Nat := fld (d.word 5) 16 8
def Desc.rows (d : Desc) : Nat := fld (d.word 5) 8 7
def Desc.fmt (d : Desc) : Nat := fld (d.word 5) 4 4
def Desc.sp (d : Desc) : Bool := bit (d.word 5) 3
def Desc.scen (d : Desc) : Bool := bit (d.word 5) 2

/-- Descriptor d of a cord as a list of its words. -/
def Cord.desc (c : Cord) (d : Nat) : Desc := (List.range 8).map (c.td d)

/-- What every user of a descriptor checks: reserved parts 0, BASE and STRIDE multiples of 16 (R273, R308). -/
def Desc.plainOk (d : Desc) : Bool :=
  d.word 6 == 0 && d.word 7 == 0 && d.word 5 &&& 0xFF008003 == 0 && d.base % 16 == 0 && d.stride % 16 == 0

/-- K of a format (R279). -/
def kOf (fmt : Nat) : Nat :=
  match fmt with
  | 13 => 64 | 12 => 48 | 0 => 48 | 9 => 24 | _ => 6

/-- R273 with limits on rows and columns, SP as the form needs it, and a list of formats. -/
def Desc.ok (d : Desc) (fmts : List Nat) (sp : Bool) (cols : Nat) : Bool :=
  d.plainOk && decide (d.rows ≤ 64) && fmts.contains d.fmt && decide (d.cext ≤ cols) && d.sp == sp &&
    (!d.scen || d.fmt == 12 || d.fmt == 13)

/-- Address of row r (R272). -/
def Desc.row (d : Desc) (r : Nat) : Nat := (d.base + r * d.stride) % 2 ^ 64

/-- Bytes of a row that are read (R281, R296). -/
def Desc.rowBytes (d : Desc) : Nat :=
  if d.sp then 4 * ((d.cext + 7) / 8) else (d.cext * fmtWidth d.fmt + 7) / 8

/-- The byte runs of an operand that its fetch reads (R281). -/
def Desc.runs (d : Desc) : List (Nat × Nat) :=
  let rows := if d.cext = 0 then [] else (List.range d.rows).map fun r => (d.row r, d.rowBytes)
  let scales := if d.scen && d.cext != 0 && d.rows != 0 then [(d.scale, d.rows)] else []
  rows ++ scales

/-- Starts of the runs and of every further page that they reach, for translation. -/
def runStarts (rs : List (Nat × Nat)) : List Nat := (rs.flatMap fun (a, n) => (pageStarts a n).map (· % 2 ^ 64)).eraseDups

/-- Virtual half-lines that runs touch. -/
def runHalves (rs : List (Nat × Nat)) : List Nat :=
  (rs.flatMap fun (a, n) =>
    if n = 0 then [] else (List.range ((a + n - 1) / 64 - a / 64 + 1)).map fun i => (a / 64 + i) % 2 ^ 58).eraseDups

/-- A virtual address through the translations that a form holds. -/
def xaddr (ps : List Page) (ctx va : Nat) : Nat := ((ps.find? fun p => p.covers ctx va).map fun p => p.addr va).getD 0

/-- Bytes of a destination element. -/
def drainBytes (fmt : Nat) : Nat := fmtWidth fmt / 8

/-- The byte runs that a drain writes. -/
def Desc.drainRuns (d : Desc) : List (Nat × Nat) :=
  if d.cext = 0 then [] else (List.range d.rows).map fun r => (d.row r, d.cext * drainBytes d.fmt)

/-! Drains under way. -/

/-- The lines of a run of bytes: start and length of each piece. -/
def linePieces (r : Nat × Nat) : List (Nat × Nat) :=
  let (a, n) := r
  if n = 0 then []
  else
    (List.range ((a + n - 1) / 128 - a / 128 + 1)).map fun i =>
      let x := max a ((a / 128 + i) * 128)
      (x, min (a + n) ((a / 128 + i + 1) * 128) - x)

/-- The words of a physical line that a drain writes. -/
def TForm.drainWords (f : TForm) (d : Desc) (line : Nat) : Word :=
  (d.drainRuns.flatMap linePieces).foldl (fun ws (a, n) =>
    let pa := xaddr f.trans f.ctx (a % 2 ^ 64)
    if lineOf pa = line then ws ||| wordsOf ((List.range n).map (pa % 128 + ·)) else ws) 0

/-- A drain has not performed a line of it: its lines have not left, or this one is on its way (R309, R311). -/
def State.drainPending (s : State) (core : Nat) (f : TForm) (lit : Word) (line : Nat) : Bool :=
  f.phase == .queued || (bit lit 7 && f.version == 0) ||
    s.agenda.any fun d =>
      match d.what with
      | .adrnLineAck k q (some l) => k == core && q == f.q && l.line == line
      | _ => false

/-- Words of a line that the drains of a cord issued before a token have still to write there: a drain of MODE 0 or 1 is a store
in cord order (R310), which what the cord sends to them or reads of them later stays behind (R205, R207). -/
def State.drainOwes (s : State) (c line upto : Nat) : Word :=
  match s.cordRec c with
  | none => 0
  | some x =>
    (s.coreOf x.core).tq.foldl (fun ws f =>
      match f.work with
      | .adrn _ d lit =>
        if f.cord = c ∧ f.opTok < upto ∧ fld lit 4 2 ≠ 2 ∧ s.drainPending x.core f lit line then ws ||| f.drainWords d line else ws
      | _ => ws) 0

end Sys2Proof.Machine
end

