-- ==== Sys2Proof/Machine/Eyelets.lean ====
section
/-! DEFINITION. Eyelets.lean: opening, filling, refreshing and recalling lines (R144 to R160, R202, R203, R218,
R240), loads and stores through eyelets (R153 to R155), owners at the home (R200), and vads (R241). -/

namespace Sys2Proof.Machine

/-! Work in flight on an eyelet. -/

/-- The read of a fill or of an erfr that is in flight for an eyelet. -/
def readOf (c e : Nat) : Event → Option Nat
  | .fillComplete c' e' t _ _ | .fillFailure c' e' t _ | .tolerantReadService c' e' t _ | .erfrComplete c' e' t _ _ =>
    if c' = c ∧ e' = e then some t else none
  | _ => none

/-- Marks an openv as ended by a close (R152). -/
def Cord.killRun (c : Cord) (tok : Nat) : Cord :=
  let dead (o : Op) : Op :=
    match o.kind with
    | .versioned first n t v1 _ => if o.tok = tok then { o with kind := .versioned first n t v1 true } else o
    | .version first n t _ => if o.tok = tok then { o with kind := .version first n t true } else o
    | _ => o
  { c with ops := c.ops.map dead }

/-- One read of an eyelet has ended, by completing, failing or being cancelled: ldcnt falls by one for the line; an openv
returns its lines together at its end (R152, R157, R196). -/
def State.readEnded (c tok : Nat) (s : State) : State :=
  match s.findCord c with
  | none => s
  | some x => if (x.opKind tok).versionedRun then s else State.opPart c tok (s.ldDown c 1)

/-- The acquires of a cord whose reads are in flight, by token. -/
def acquireOf (c : Nat) (d : Due) : Option (Nat × Refresh) :=
  match d.what with
  | .acquireComplete c' t r => if c' = c then some (t, r) else none
  | _ => none

/-- The reads of every acquire of a cord change. -/
def State.onAcquires (c : Nat) (f : Refresh → Refresh) (s : State) : State :=
  let go (i : Event) : Event :=
    match i with
    | .acquireComplete c' t r => if c' = c then .acquireComplete c' t (f r) else i
    | i => i
  { s with agenda := s.agenda.map fun d => { d with what := go d.what } }

/-- A line that an acquire opens into an eyelet is opened no more. -/
def dropFill (e : Nat) (r : Refresh) : Refresh :=
  { r with fills := r.fills.filter (·.1 != e), lines := r.lines.filter (·.1 != e) }

/-- Every fill in flight on an eyelet is cancelled (R152, R157). So is an erfr in flight on an open one, whose flag and ldcnt fall at
once as those of a fill do, of which the rules say nothing (DESIGN CHOICE, log entry 63). -/
def State.dropReads (c e : Nat) (s : State) : State :=
  let mine (r : Refresh) : List Nat := (r.fills ++ r.lines.map fun l => (l.1, l.2.1)).filterMap fun f => if f.1 = e then some f.2 else none
  let toks := (s.agenda.filterMap fun d => readOf c e d.what).eraseDups ++ (s.agenda.filterMap (acquireOf c)).flatMap fun j => mine j.2
  let s := State.onAcquires c (dropFill e) (s.cancel fun i => (readOf c e i).isSome)
  let s := s.onCord c fun x => if (x.eye e).st = .filling then x.killRun (x.eye e).tok else x
  toks.foldl (fun s t => s.readEnded c t) s

/-- Closes an eyelet with a reason: a close, a recall, a failed fill or the end of the cord (R152, R157, R160). -/
def State.closeEye (c e : Nat) (r : Reason) (s : State) : State :=
  match s.findCord c with
  | none => s
  | some x =>
    if (x.eye e).st = .closed then s
    else State.onCord c (fun x => x.setEye e { x.eye e with st := .closed, reason := r }) (s.dropReads c e)

/-- A failed fill leaves the eyelet closed (R148); a failed erfr does the same. An openv whose fill fails goes on: its next
attempt fills the line again (R218). -/
def State.failFill (c e tok : Nat) (reason : Reason) (s : State) : State :=
  State.readEnded c tok (s.onCord c fun x => x.setEye e { x.eye e with st := .closed, reason := reason })

/-- FILL_FAILURE (R148). -/
def execFillFailure (s : State) : Out :=
  match s.now with
  | some (.fillFailure c e tok reason) => s.ifCord c fun _ => s.failFill c e tok reason
  | _ => .next s

/-- Why a read at the home of a line fails (R148, R364, R379). -/
def State.readFails (s : State) (line : Nat) : Option Reason :=
  if s.lost line then some .ecc else if s.dev.lost.contains (devOf (line * 128)) then some .fill else none

/-- One 64-byte half of a line, as its home reads it at one moment (R206); a foreign reader is noted (R367). -/
def State.readHalf (s : State) (by_ : Agent) (line : Nat) (hi : Bool) : List Byte × State :=
  let a := line * 128 + if hi then 64 else 0
  (s.homeBytes a 64, (s.l2Fetch line).noteRead by_ a)

/-- A half of a line captured for an eyelet: halves of the same eyelet captured before and not yet arrived, and what an
atomic still has to bring, give way to the later read, so that no load runs backwards (R205). Of two eyelets that hold one line
each goes by its own reads (R147, R152; DEDUCED, log entry 56). -/
def State.recapture (c e line : Nat) (hi : Bool) (bs : List Byte) (s : State) : State :=
  let base := if hi then 64 else 0
  let half (lo h : Option (List Byte)) : Option (List Byte) × Option (List Byte) := if hi then (lo, h.map fun _ => bs) else (lo.map fun _ => bs, h)
  let newer (i : Event) : Event :=
    match i with
    | .fillComplete c' e' t lo h => if c' = c ∧ e' = e then .fillComplete c' e' t (half lo h).1 (half lo h).2 else i
    | .erfrComplete c' e' t lo h => if c' = c ∧ e' = e then .erfrComplete c' e' t (half lo h).1 (half lo h).2 else i
    | i => i
  let cells := bs.zipIdx.map fun (b, i) => (base + i, b)
  let reads (r : Refresh) : Refresh :=
    { r with got := r.got.map fun g => if g.1 = e ∧ g.2.2.1 = hi then (g.1, g.2.1, hi, bs) else g,
             lines := r.lines.map fun l => if l.1 = e then (l.1, l.2.1, layOver 0 l.2.2 cells) else l }
  let fresh (k : Nat × Byte) : Nat × Byte := if k.1 / 64 * 64 = base then (k.1, bs.getD (k.1 - base) k.2) else k
  let op (o : Op) : Op :=
    match o.kind with
    | .atom l cells => if l = line then { o with kind := .atom l (cells.map fresh) } else o
    | _ => o
  State.onAcquires c reads <| State.onCord c (fun x => { x with ops := x.ops.map op })
    { s with agenda := s.agenda.map fun d => { d with what := newer d.what } }

/-- One half of a line as its home reads it for an eyelet of a cord, with the cord's own stores that the home has not
performed laid over it (R198, R205, R206). -/
def State.capture (s : State) (c e line : Nat) (hi : Bool) : List Byte × State :=
  let (b, t) := s.readHalf (s.agentOfCord c) line hi
  let bs := layOver (if hi then 64 else 0) b (s.inFlight c line)
  (bs, t.recapture c e line hi bs)

/-- A result of an atomic of the cord on a line that its home has performed is on its way back: a read of the line is
served behind it (R205, R209). -/
def State.resultsOut (s : State) (c line : Nat) : Bool :=
  s.agenda.any fun d =>
    match d.what with
    | .atomicResult r _ _ => r.cord == c && r.line == line
    | _ => false

/-- What the cord asked of a line with the form of a token waits: behind a result of an atomic on its way back, and behind the
lines of an earlier drain of the cord (R205, R209, R310). -/
def State.readWaits (s : State) (c tok line : Nat) : Bool := s.resultsOut c line || s.drainOwes c line tok != 0

/-- A line put into an eyelet, but for the words that the cord owns. -/
def Eyelet.arrive (x : Eyelet) (lo hi : List Byte) (keep : Word) : Eyelet := (x.fill 0 lo keep).fill 64 hi keep

/-- A fill is read at the home, a half at a time, and then arrives: the eyelet opens, OWN clears and FEP takes the
epoch (R147, R206). -/
def execFillComplete (s : State) : Out :=
  match s.now with
  | some (.fillComplete c e tok lo hi) =>
    s.ifCord c fun x =>
      let line := (x.eye e).pla
      let wait := (x.eye e).due - s.cycle
      match s.readFails line with
      | some r => s.after 0 (.fillFailure c e tok r)
      | none =>
        match lo, hi with
        | some lo, some hi =>
          State.readEnded c tok (s.onCord c fun x =>
            x.setEye e { (x.eye e).arrive lo hi 0 with st := .opened, own := 0, fep := x.epoch })
        | some _, none =>
          if s.readWaits c tok line then s.after 1 (.fillComplete c e tok lo none)
          else
            let (b, s) := s.capture c e line true
            s.afterFree wait (.fillComplete c e tok lo (some b))
        | none, some _ =>
          if s.readWaits c tok line then s.after 1 (.fillComplete c e tok none hi)
          else
            let (b, s) := s.capture c e line false
            s.afterFree wait (.fillComplete c e tok (some b) hi)
        | none, none =>
          if s.readWaits c tok line then s.after 1 (.fillComplete c e tok none none)
          else
            let first := Config.raceChoice s.fresh
            let (b, s) := s.capture c e line first
            s.afterFree 0 (if first then .fillComplete c e tok none (some b) else .fillComplete c e tok (some b) none)
  | _ => .next s

/-- An erfr reads the home, a half at a time, and writes the words that the cord does not own (R152). -/
def execErfrComplete (s : State) : Out :=
  match s.now with
  | some (.erfrComplete c e tok lo hi) =>
    s.ifCord c fun x =>
      let line := (x.eye e).pla
      let wait := s.leastOpen x.core line - s.leastOpen x.core line / 2
      match s.readFails line with
      | some r => s.after 0 (.fillFailure c e tok r)
      | none =>
        match lo, hi with
        | some lo, some hi =>
          State.readEnded c tok (s.onCord c fun x => x.setEye e { (x.eye e).arrive lo hi (x.eye e).own with fep := x.epoch })
        | some _, none =>
          if s.readWaits c tok line then s.after 1 (.erfrComplete c e tok lo none)
          else
            let (b, s) := s.capture c e line true
            s.afterFree wait (.erfrComplete c e tok lo (some b))
        | none, _ =>
          if s.readWaits c tok line then s.after 1 (.erfrComplete c e tok none hi)
          else
            let (b, s) := s.capture c e line false
            s.afterFree 0 (.erfrComplete c e tok (some b) hi)
  | _ => .next s

/-- A fill or erfr of a region line: the master forces drains, waits for the shares it forced, and the home
serves the read from its current words (R232). -/
def execTolerantReadService (s : State) : Out :=
  match s.now with
  | some (.tolerantReadService c e tok forced) =>
    s.ifCord c fun x =>
      let (fs, s) := match forced with
        | some fs => (fs, s)
        | none => s.forceFor x.ctx (x.eye e)
      if fs.any fun h => s.owing h then s.after 1 (.tolerantReadService c e tok (some fs))
      else if (x.eye e).st = .filling then s.after 0 (.fillComplete c e tok none none)
      else s.after 0 (.erfrComplete c e tok none none)
  | _ => .next s

/-! Acquires. -/

/-- An acquire whose opens have not arrived reads everything again (R203). -/
def readAgain (r : Refresh) : Refresh := ⟨none, r.fills ++ r.lines.map (fun l => (l.1, l.2.1)), r.first, [], [], []⟩

/-- The eyelets that an attempt of an openv fills (R218). -/
def Cord.runOf (x : Cord) (o : Op) : List Nat := x.inUse.filter fun e => (x.eye e).tok == o.tok && (x.eye e).st == .filling

/-- The last fills of an openv's attempt are asked for again, whether they have arrived or not: they become part of no eyelet
before the run ends (R203, R218). -/
def State.resendRun (c : Nat) (x : Cord) (o : Op) (s : State) : State :=
  match o.kind with
  | .versioned first n t v1 dead =>
    let es := x.runOf o
    if t = 0 ∨ es.isEmpty ∨ (s.agenda.filterMap (acquireOf c)).any fun j => j.1 == o.tok then s
    else
      let asked (i : Event) : Bool := match i with | .openvAttemptEnd c' t' => c' == c && t' == o.tok | _ => false
      State.sendReads c o.tok ⟨none, es.map fun e => (e, o.tok), [], [], [], []⟩
        ((s.cancel asked).setOp c o 1 (.versioned first n t v1 dead))
  | _ => s

/-- The fills of a cord in flight are read again when an acquire begins (R203). -/
def State.resendFills (c : Nat) (s : State) : State :=
  let filling (e : Nat) : Bool := ((s.findCord c).map fun x => (x.eye e).st == .filling).getD false
  let fills := (s.agenda.filterMap fun d =>
    match d.what with
    | .fillComplete c' e t _ _ | .tolerantReadService c' e t _ => if c' = c ∧ filling e then some (e, t) else none
    | _ => none)
  let opens (r : Refresh) : Bool := !(r.fills.isEmpty && r.lines.isEmpty)
  let jobs := (s.agenda.filterMap (acquireOf c)).filter fun j => opens j.2
  let gone (i : Event) : Bool :=
    match i with
    | .fillComplete c' e _ _ _ | .tolerantReadService c' e _ _ => c' == c && filling e
    | .acquireComplete c' _ r => c' == c && opens r
    | _ => false
  let s := fills.foldl (fun s f => s.sendFill c f.1 f.2) (s.cancel gone)
  let s := jobs.foldl (fun s j => s.sendReads c j.1 (readAgain j.2)) s
  match s.findCord c with
  | none => s
  | some x => x.ops.foldl (fun s o => s.resendRun c x o) s

/-- An acquire of a cord begins for the outstanding form tok: EPOCH advances, fills in flight are read again, and what the
acquire opens (fills), what its load reads (first) and the open eyelets behind the new epoch, or all of them when it wraps, are to
be read (R202, R203). -/
def State.beginAcquireOf (c tok : Nat) (fills : List (Nat × Nat)) (first : List (Nat × Nat × Bool)) (s : State) : State :=
  let s := s.onCord c fun x => { x with epoch := x.epoch + 1 }
  let s := s.resendFills c
  match s.findCord c with
  | none => s
  | some x =>
    let stale := x.eyes.filter fun (_, y) => y.st == .opened && (x.epoch == 0 || decide (y.fep < x.epoch))
    let todo := stale.flatMap fun (e, y) => [(e, y.tok, false), (e, y.tok, true)]
    s.sendReads c tok ⟨none, fills, first, todo, [], []⟩

/-- An acquire that returns no value of its own. -/
def State.beginAcquire (c tok : Nat) (s : State) : State := s.beginAcquireOf c tok [] []

/-- What the eyelets of a refresh force (R232). -/
def State.forceAll (ctx : Nat) (ys : List Eyelet) (s : State) : List (Nat × Nat × Nat) × State :=
  ys.foldl (fun r y =>
    let (fs, s) := r.2.forceFor ctx y
    (r.1 ++ fs, s)) ([], s)

/-- The refreshed words of one half reach their eyelet, but for those that the cord owns, if the eyelet still has the
binding (R156, R157). -/
def Cord.refreshHalf (x : Cord) (g : Nat × Nat × Bool × List Byte) : Cord :=
  let (e, tok, hi, bs) := g
  let y := x.eye e
  if y.st = .opened ∧ y.tok = tok then x.setEye e { y.fill (if hi then 64 else 0) bs y.own with fep := x.epoch } else x

/-- A line that an acquire opens arrives in its eyelet, which opens, or waits for the end of its openv (R147, R218). -/
def State.landLine (c : Nat) (l : Nat × Nat × List Byte) (s : State) : State :=
  let (e, tok, bs) := l
  let land (x : Cord) : Cord :=
    let y := { (x.eye e).arrive (bs.take 64) (bs.drop 64) 0 with fep := x.epoch }
    x.setEye e (if (x.opKind tok).versionedRun then y else { y with st := .opened, own := 0 })
  State.readEnded c tok (s.onCord c land)

/-- A line that an acquire opens is read at its home. -/
def State.gatherLine (c : Nat) (r : List (Nat × Nat × List Byte) × State) (f : Nat × Nat) : List (Nat × Nat × List Byte) × State :=
  let (got, s) := r
  match (s.findCord c).map fun x => x.eye f.1 with
  | none => r
  | some y =>
    match s.readFails y.pla with
    | some why => (got, s.failFill c f.1 f.2 why)
    | none =>
      let (lo, s) := s.capture c f.1 y.pla false
      let (hi, s) := s.capture c f.1 y.pla true
      (got ++ [(f.1, f.2, lo ++ hi)], s)

/-- A half of an open eyelet is read at its home for a refresh; a read that fails closes the eyelet (R148, R156). -/
def State.gatherHalf (c : Nat) (r : List (Nat × Nat × Bool × List Byte) × State) (h : Nat × Nat × Bool) :
    List (Nat × Nat × Bool × List Byte) × State :=
  let (got, s) := r
  let (e, tok, hi) := h
  match (s.findCord c).map fun x => x.eye e with
  | none => r
  | some y =>
    if y.st = .closed ∨ y.tok ≠ tok then r
    else
      match s.readFails y.pla with
      | some why => if y.st = .opened then (got, s.closeEye c e why) else r
      | none =>
        let (b, s) := s.capture c e y.pla hi
        (got ++ [(e, tok, hi, b)], s)

/-- The value of an ldl.acq is bound as its home gives it, with the stores of its cord that were on their way when it issued, and
what the cord owns of it as the eyelet has it, which no refresh changes (R154, R202, R205); the load of an eyelet that has been
closed since reads what stands there. -/
def State.bindLoad (c tok : Nat) (first : List (Nat × Nat × Bool)) (s : State) : State :=
  let bind (x : Cord) (o : Op) : Op :=
    match o.kind with
    | .load z d wb e lanes kept =>
      let y := x.eye e
      let home : Eyelet := Eyelet.fill {} 0 (layOver 0 (s.homeBytes (y.pla * 128) 128) (s.inFlightTo c y.pla tok ++ kept)) 0
      let y := if y.st = .opened ∧ (first.any fun f => f.2.1 == y.tok) ∧ (s.readFails y.pla).isNone then home else y
      { o with kind := .plain, writes := o.writes ++ loadWrites z d wb (fun off => y.num off (ldBytes z)) lanes }
    | _ => o
  s.onCord c fun x => { x with ops := x.ops.map fun o => if o.tok = tok then bind x o else o }

/-- An earlier acquire of the cord has not yet read what it returns, or is an openv that has not ended. -/
def State.acquiresAhead (s : State) (x : Cord) (tok : Nat) : Bool :=
  (s.agenda.filterMap (acquireOf x.cid)).any (fun j => decide (j.1 < tok) && gathering j.2) ||
    x.ops.any fun o => decide (o.tok < tok) && o.kind.versionedRun

/-- What an acquire returns is read at one moment, and then every other eyelet of the cord is to be read: so whatever happens
before the release that it synchronizes with is in each of them (R204, R205, R207), the drains that they force anew with it (R233).
A later openv reads the lines of its attempts after this moment itself (R218). -/
def State.gather (x : Cord) (tok : Nat) (r : Refresh) (s : State) : State :=
  let s := s.bindLoad x.cid tok r.first
  let (lines, s) := r.fills.foldl (State.gatherLine x.cid) ([], s)
  let (got, s) := r.first.foldl (State.gatherHalf x.cid) ([], s)
  let other (e : Nat) : List (Nat × Nat × Bool) :=
    let y := x.eye e
    if r.fills.any (·.1 == e) ∨ (y.st = .filling ∧ (x.opKind y.tok).versionedRun = true) then []
    else [false, true].filterMap fun hi => if r.first.any (fun f => f.1 == e && f.2.2 == hi) then none else some (e, (x.eye e).tok, hi)
  s.afterFree 0 (.acquireComplete x.cid tok ⟨none, [], [], x.inUse.flatMap other, got, lines⟩)

/-- The last read of an acquire has been made: when its results can have arrived (R147). -/
def State.landWait (s : State) (x : Cord) (r : Refresh) (e : Option Nat) : Nat :=
  let back := match e with | some e => s.leastOpen x.core (x.eye e).pla - s.leastOpen x.core (x.eye e).pla / 2 | none => 0
  r.lines.foldl (fun m l => max m ((x.eye l.1).due - s.cycle)) back

/-- The reads of an acquire: the drains that its region lines force (R232), what it returns, its refreshes one half after
another, and the arrival of all of them, with which the acquiring form goes on (R156, R202). -/
def State.acquireStep (x : Cord) (tok : Nat) (r : Refresh) (s : State) : State :=
  let c := x.cid
  let asked := (r.fills.map (·.1) ++ r.first.map (·.1)).map fun e => (x.eye e).pla
  if gathering r && (s.acquiresAhead x tok || asked.any (s.readWaits c tok)) then s.after 1 (.acquireComplete c tok r)
  else
    let es := x.toRead r
    let (fs, s) := match r.forced with
      | some fs => (fs, s)
      | none => s.forceAll x.ctx (es.map x.eye)
    let r := { r with forced := some fs }
    if fs.any fun h => s.owing h then s.after 1 (.acquireComplete c tok r)
    else if gathering r then s.gather x tok r
    else
      match r.todo with
      | [] =>
        let due := ((x.ops.find? (·.tok == tok)).map (·.due)).getD 0
        if s.cycle < due then s.after (due - s.cycle) (.acquireComplete c tok r)
        else
        let s := s.onCord c fun x => r.got.foldl Cord.refreshHalf x
        State.opPart c tok (r.lines.foldl (fun s l => s.landLine c l) s)
      | h :: rest =>
        if (x.eye h.1).st ≠ .closed ∧ s.resultsOut c (x.eye h.1).pla then s.after 1 (.acquireComplete c tok r)
        else
          let (got, s) := State.gatherHalf c (r.got, s) h
          s.afterFree (if rest.isEmpty then s.landWait x r (some h.1) else 0) (.acquireComplete c tok { r with todo := rest, got := got })

/-- ACQUIRE_COMPLETE (R202). -/
def execAcquireComplete (s : State) : Out :=
  match s.now with
  | some (.acquireComplete c tok r) => s.ifCord c fun x => s.acquireStep x tok r
  | _ => .next s

/-- Cells of a line with newer ones in place of those of the same offset. -/
def layCells (cells newer : List (Nat × Byte)) : List (Nat × Byte) :=
  cells.map fun k => (k.1, ((newer.reverse.find? fun n => n.1 == k.1).map (·.2)).getD k.2)

/-- Bytes that a cord stores, or that its atomic leaves, also reach what it has captured of the line and not yet received,
the results of its atomics among it (R205). -/
def State.patchReads (c line : Nat) (bs : List (Nat × Byte)) (s : State) : State :=
  let holds (e : Nat) : Bool := ((s.findCord c).map fun x => (x.eye e).pla == line).getD false
  let half (base : Nat) (h : Option (List Byte)) : Option (List Byte) := h.map fun b => layOver base b bs
  let patch (i : Event) : Event :=
    match i with
    | .fillComplete c' e t lo hi => if c' = c ∧ holds e then .fillComplete c' e t (half 0 lo) (half 64 hi) else i
    | .erfrComplete c' e t lo hi => if c' = c ∧ holds e then .erfrComplete c' e t (half 0 lo) (half 64 hi) else i
    | .atomicResult r olds cells => if r.cord = c ∧ r.line = line then .atomicResult r olds (layCells cells bs) else i
    | i => i
  let reads (r : Refresh) : Refresh :=
    { r with got := r.got.map fun g => if holds g.1 then (g.1, g.2.1, g.2.2.1, layOver (if g.2.2.1 then 64 else 0) g.2.2.2 bs) else g,
             lines := r.lines.map fun l => if holds l.1 then (l.1, l.2.1, layOver 0 l.2.2 bs) else l }
  let op (o : Op) : Op :=
    match o.kind with
    | .atom l cells => if l = line then { o with kind := .atom l (layCells cells bs) } else o
    | _ => o
  State.onAcquires c reads <| State.onCord c (fun x => { x with ops := x.ops.map op })
    { s with agenda := s.agenda.map fun d => { d with what := patch d.what } }

/-! Opens. -/

/-- Binds an eyelet of the focused cord to the line of an address: the old binding closes, STATE is filling and
REASON NONE, with W, RMT, the region and the tolerance recorded (R146, R147, R226). The old line stays until the fill brings
the new one: a load that was issued before and reads the eyelet after its acquire finds either (R154). -/
def State.bindEye (e va : Nat) (p : Page) (tok : Nat) (tol : Option Word) (s : State) : State :=
  let c := s.cord
  let s := s.dropReads c.cid e
  let pa := p.addr va
  let r := s.regionAt c.ctx (va / 128 * 128)
  let y : Eyelet :=
    { st := .filling, vla := va / 128, pla := pa / 128, w := p.w, rmt := !s.isLocal pa, tok := tok,
      rgn := (r.map (·.n)).getD 31, rgnGen := (r.map (·.gen)).getD 0,
      tol := tol.getD ((r.map (·.dtol)).getD 0), sysAtomic := p.sysAtomic, data := (c.eye e).data }
  s.onSelf fun c => c.setEye e y

/-- Lanes of the focused cord's form with the 64-bit addresses that two sources give. -/
def Cord.addrs (c : Cord) (a b : Rd) (lanes : List Nat) : List Nat := lanes.map fun l => (pair64 (c.rd a l) (c.rd b l)).toNat

/-- Opens of lines into eyelets by one instruction, after their translation: one flag, ldcnt by line, and an
acquire that begins first (R147, R150, R151). -/
def State.openAll (acq : Bool) (ws : List RegWrite) (tol : Option Word) (es : List (Nat × Nat × Page)) (s : State) : State :=
  let c := s.cord
  let tok := s.fresh
  let n := es.length
  let s := s.open_ { tok := 0, flag := some c.flag, left := n + if acq then 1 else 0, writes := ws }
  let s := s.onSelf fun c => { c with ldcnt := c.ldcnt + n }
  let s := es.foldl (fun s (e, va, p) => s.bindEye e va p tok tol) s
  if acq then s.beginAcquireOf c.cid tok (es.map fun (e, _, _) => (e, tok)) []
  else es.foldl (fun s (e, _, _) => s.sendFill c.cid e tok) s

/-- open, open.acq and opent (R150, R240). -/
def runOpen (acq : Bool) (tol : Option Word) (d : Eye) (a b : Rd) (s : State) : Out :=
  runForm { lat := .v, vecs := rdVecs a 1 ++ rdVecs b 1 } s fun s =>
    let xs := s.cord.addrs a b (lanesOf s.cord.act)
    let x := xs.headD 0
    if xs.any fun y => y / 128 != x / 128 then .trap .openDiv (BitVec.ofNat 64 x)
    else if !s.cord.roomLd 1 then .stall {} s
    else
      withPages [x] .r s fun ps s =>
        .done (s.openAll acq [] tol (ps.map fun p => (d.val, x, p)))

/-- open (R150). -/
def execOpenLine (d : Eye) (a b : Rd) (s : State) : Out := runOpen false none d a b s

/-- open.acq (R150). -/
def execOpenAcq (d : Eye) (a b : Rd) (s : State) : Out := runOpen true none d a b s

/-- opent (R240). -/
def execOpent (d : Eye) (a b : Rd) (lit : Word) (s : State) : Out := runOpen false (some lit) d a b s

/-- openf (R151): distinct lines by lowest lane, selectors, stat.OVF, and one open for each line served. -/
def execOpenf (d a : Vec) (b : Rd) (lit : Word) (s : State) : Out :=
  runForm { lat := .v, vecs := [(d.val, 1), (a.val, 1)] ++ rdVecs b 1 } s fun s =>
    let c := s.cord
    let lanes := lanesOf c.act
    let xs := c.addrs (.v a) b lanes
    let lines := (xs.map (· / 128)).eraseDups
    let first := fld lit 0 4
    let n := min lines.length (16 - first)
    let served := (lines.take n).map (· * 128)
    if !c.roomLd n then .stall {} s
    else
      withPages served .r s fun ps s =>
        let sel (l : Nat) : Word :=
          let i := lines.idxOf ((pair64 (c.vreg a l) (c.rd b l)).toNat / 128)
          if i < n then BitVec.ofNat 32 (first + i) else 0xFF
        let ws := c.writes32 (.v d) sel
        let s := s.onSelf fun c => { c with ovf := decide (n < lines.length) }
        .done (s.openAll (bit lit 4) ws none ((served.zip ps).zipIdx.map fun ((va, p), i) => (first + i, va, p)))

/-- openv (R218): an acquire, then attempts. -/
def execOpenv (d : Eye) (a b : Rd) (s : State) : Out :=
  runForm { lat := .v, vecs := rdVecs a 1 ++ rdVecs b 1 } s fun s =>
    let c := s.cord
    let xs := c.addrs a b (lanesOf c.act)
    let x := xs.headD 0
    let n := x % 16 + 1
    if xs.any fun y => y != x then .trap .openDiv (BitVec.ofNat 64 x)
    else if x / 16 % 8 ≠ 0 ∨ 16 < d.val + n then .trap .verSpan (BitVec.ofNat 64 x)
    else if !c.roomLd n then .stall {} s
    else
      let vas := (List.range n).map fun i => (x / 128 + i) * 128 % 2 ^ 64
      withPages vas .r s fun ps s =>
        let tok := s.fresh
        let s := s.open_ { tok := 0, flag := some c.flag, left := 1, ld := n, kind := .versioned d.val n 0 0 false }
        let s := s.onSelf fun c => { c with ldcnt := c.ldcnt + n }
        let s := ((vas.zip ps).zipIdx).foldl (fun s ((va, p), i) => s.bindEye (d.val + i) va p tok none) s
        .done (s.beginAcquire c.cid tok)

/-- An openv ends: its filling eyelets open with VOK and VTRY (R218). -/
def State.endRun (c : Nat) (o : Op) (first n t : Nat) (ok : Bool) (s : State) : State :=
  let settle (x : Cord) (e : Nat) : Cord :=
    let y := x.eye e
    if y.st = .filling ∧ y.tok = o.tok then x.setEye e { y with st := .opened, own := 0, fep := x.epoch, vok := ok, vtry := t }
    else x
  s.onCord c fun x => (((List.range n).map (first + ·)).foldl settle x).endOp o

/-- An eyelet of an openv holds what was read before the last acquire of its cord began (R203). -/
def Cord.staleRun (x : Cord) (o : Op) : Bool := (x.runOf o).any fun e => (x.eye e).fep != x.epoch

/-- The version word of an openv is read: before the fills of an attempt, or after them, when the two words decide (R218). -/
def execOpenvAttemptEnd (s : State) : Out :=
  match s.now with
  | some (.openvAttemptEnd c tok) =>
    s.ifCord c fun x =>
      match x.ops.find? (·.tok == tok) with
      | none => s
      | some o =>
        match o.kind with
        | .version first n t dead =>
          if dead ∧ 1 < t ∧ !x.staleRun o then s.endRun c o first n (t - 1) false
          else s.fillRun c o first n t (leNat (s.homeBytes ((x.eye first).pla * 128) 8)) dead
        | .versioned first n t v1 dead =>
          let v2 := leNat (s.homeBytes ((x.eye first).pla * 128) 8)
          let ok := v1 % 2 == 0 && v1 == v2
          if !dead ∧ !ok ∧ t < 16 then s.attempt c o first n (t + 1) false
          else s.endRun c o first n t (ok && !dead)
        | _ => s
  | _ => .next s

/-- close (R152). -/
def execClose (e : Eye) (s : State) : Out :=
  runForm { lat := .n } s fun s => .done (s.closeEye s.cord.cid e.val .close)

def reasonCode : Reason → Nat
  | .none => 0 | .close => 1 | .shoot => 2 | .disc => 3 | .ecc => 4 | .sys => 5 | .fill => 6

def eyeCode : EyeState → Nat
  | .closed => 0 | .filling => 1 | .opened => 2

/-- The eqry word (R152). -/
def Eyelet.query (x : Eyelet) : Word :=
  BitVec.ofNat 32 (eyeCode x.st * 2 ^ 30 + reasonCode x.reason * 2 ^ 27 + (if x.w then 2 ^ 26 else 0)
    + (if x.rmt then 2 ^ 25 else 0) + x.vla % 2 ^ 25)

/-- eqry (R152). -/
def execEqry (d : Wr) (e : Eye) (s : State) : Out :=
  runRegs { lat := .i4, vecs := wrVecs d 1 } s fun c => c.writes32 d fun _ => (c.eye e.val).query

/-- trinfo of eye_closed: VLA, REASON and the eyelet (R159, R344). -/
def Cord.closedInfo (c : Cord) (e : Nat) : Dword :=
  BitVec.ofNat 64 ((c.eye e).vla * 128 + reasonCode (c.eye e).reason * 16 + e)

/-- tstv (R219). -/
def execTstv (d : Wr) (e : Eye) (s : State) : Out :=
  runForm { lat := .i4, vecs := wrVecs d 1 } s fun s =>
    let y := s.cord.eye e.val
    if y.st = .closed then .trap .eyeClosed (s.cord.closedInfo e.val)
    else
      .done (s.write .i4 (s.cord.writes32 d fun _ => BitVec.ofNat 32 (y.vtry % 32 * 16 + if y.vok then 1 else 0)))

/-- erfr (R152): every word the cord does not own is read again. -/
def execErfr (e : Eye) (s : State) : Out :=
  runForm { lat := .v } s fun s =>
    let c := s.cord
    let y := c.eye e.val
    match y.st with
    | .closed => .trap .eyeClosed (c.closedInfo e.val)
    | .filling => .stall {} s
    | .opened =>
      if !c.roomLd 1 then .stall {} s
      else
        let tok := s.fresh
        let s := s.open_ { tok := 0, flag := some c.flag, left := 1 }
        let s := s.onSelf fun c => { c with ldcnt := c.ldcnt + 1 }
        .done (s.afterPath c.core (s.homeOf y.pla) (s.leastOpen c.core y.pla / 2)
          (if y.rgn = 31 then .erfrComplete c.cid e.val tok none none else .tolerantReadService c.cid e.val tok none))

/-! Loads and stores. -/

def Cord.lanes (c : Cord) : List Nat := lanesOf c.act

/-- A lane's access: lane, eyelet and byte offset. -/
abbrev Access := Nat × Nat × Nat

/-- The checks of R153 on the lanes that take part, in order, after any selector check; store tells whether
condition 4 applies. A filling eyelet stalls. Of several lanes with a closed eyelet, or without W, the lowest gives trinfo, of which
R153 says nothing (DESIGN CHOICE, log entry 63). -/
def State.checkLanes (as : List Access) (z : Nat) (store : Bool) (s : State) (k : State → Res) : Res :=
  let c := s.cord
  match as.find? fun a => (c.eye a.2.1).st == .closed with
  | some a => .trap .eyeClosed (c.closedInfo a.2.1)
  | none =>
    if as.any fun a => (c.eye a.2.1).st == .filling then .stall {} s
    else
      match as.find? fun a => a.2.2 % z != 0 || decide (128 < a.2.2 + z) with
      | some a => .trap .eyeOffset (BitVec.ofNat 64 a.1)
      | none =>
        match (if store then as.find? fun a => !(c.eye a.2.1).w else none) with
        | some a => .trap .permFault (BitVec.ofNat 64 ((c.eye a.2.1).vla * 128 + a.2.2))
        | none => k s

/-- The selectors of ldlx and stlx: 0xFF takes no part, 16 to 254 raise eye_sel (R153). -/
def State.checkSel (a : Vec) (lanes : List Nat) (off : Nat → Nat) (s : State) (k : List Access → Res) : Res :=
  let sel (l : Nat) : Nat := (s.cord.vreg a l).toNat % 256
  match lanes.find? fun l => decide (16 ≤ sel l) && sel l != 255 with
  | some l => .trap .eyeSel (BitVec.ofNat 64 l)
  | none => k ((lanes.filter fun l => sel l != 255).map fun l => (l, sel l, off l))

/-- Lanes of an eyelet form with offsets. -/
def onEye (e : Eye) (lanes : List Nat) (off : Nat → Nat) : List Access := lanes.map fun l => (l, e.val, off l)

def wideWr (z : LdSize) : Nat := if z = .d then 2 else 1

/-- The accesses whose values a load writes: with a scalar D that of the lowest active lane (R104, R154). -/
def Cord.loading (c : Cord) (d : Wr) (as : List Access) : List Access := as.filter fun a => (c.runLanes d).contains a.1

/-- A hitting load: every active lane is checked, whatever D is (R153, R154). -/
def State.load (z : LdSize) (d : Wr) (as : List Access) (s : State) : Res :=
  s.checkLanes as (ldBytes z) false fun s =>
    let c := s.cord
    .done (s.write .l6 ((c.loading d as).flatMap fun (l, e, o) => loadWrites z d c.wb (fun o => (c.eye e).num o (ldBytes z)) [(l, o)]))

/-- ldl with an immediate offset (R153, R154). -/
def execLdl (z : LdSize) (d : Wr) (e : Eye) (n : Imm) (s : State) : Out :=
  runForm { lat := .l6, vecs := wrVecs d (wideWr z) } s fun s =>
    s.load z d (onEye e s.cord.lanes fun _ => n.toNat * ldBytes z)

/-- ldl with a register offset (R153, R154). -/
def execLdlReg (z : LdSize) (d : Wr) (e : Eye) (b : Rd) (s : State) : Out :=
  runForm { lat := .l6, vecs := wrVecs d (wideWr z) ++ rdVecs b 1 } s fun s =>
    s.load z d (onEye e s.cord.lanes fun l => (s.cord.rd b l).toNat)

/-- ldlx with an immediate offset (R153, R154). -/
def execLdlx (z : LdSize) (d : Wr) (a : Vec) (n : Imm) (s : State) : Out :=
  runForm { lat := .l6, vecs := wrVecs d (wideWr z) ++ [(a.val, 1)] } s fun s =>
    s.checkSel a s.cord.lanes (fun _ => n.toNat * ldBytes z) fun as => s.load z d as

/-- ldlx with a register offset (R153, R154). -/
def execLdlxReg (z : LdSize) (d : Wr) (a : Vec) (b : Rd) (s : State) : Out :=
  runForm { lat := .l6, vecs := wrVecs d (wideWr z) ++ [(a.val, 1)] ++ rdVecs b 1 } s fun s =>
    s.checkSel a s.cord.lanes (fun l => (s.cord.rd b l).toNat) fun as => s.load z d as

/-- ldl.acq (R154): the acquire first, then the eyelet is read. -/
def State.loadAcq (z : LdSize) (d : Wr) (e : Eye) (as : List Access) (s : State) : Res :=
  s.checkLanes as (ldBytes z) false fun s =>
    let c := s.cord
    let tok := s.fresh
    let y := c.eye e.val
    let mine := c.loading d as
    let kept := ((List.range 128).filter fun i => bit y.own (i / 4)).map fun i => (i, SMap.get 0 y.data i)
    let kind := OpKind.load z d c.wb e.val (mine.map fun (l, _, o) => (l, o)) kept
    let halves := (mine.map fun (_, _, o) => decide (64 ≤ o)).eraseDups
    let s := s.open_ { tok := 0, flag := some c.flag, left := 1, kind := kind }
    .done (s.beginAcquireOf c.cid tok [] (halves.map fun hi => (e.val, y.tok, hi)))

/-- ldl.acq with an immediate offset (R153, R154). -/
def execLdlAcq (z : LdSize) (d : Wr) (e : Eye) (n : Imm) (s : State) : Out :=
  runForm { lat := .v, vecs := wrVecs d (wideWr z) } s fun s =>
    s.loadAcq z d e (onEye e s.cord.lanes fun _ => n.toNat * ldBytes z)

/-- ldl.acq with a register offset (R153, R154). -/
def execLdlAcqReg (z : LdSize) (d : Wr) (e : Eye) (b : Rd) (s : State) : Out :=
  runForm { lat := .v, vecs := wrVecs d (wideWr z) ++ rdVecs b 1 } s fun s =>
    s.loadAcq z d e (onEye e s.cord.lanes fun l => (s.cord.rd b l).toNat)

/-- The bytes of D that a store of size z writes in lane l (R155). -/
def Cord.storeVal (c : Cord) (z : StSize) (d : Rd) (l : Nat) : List Byte :=
  leBytes ((c.rdAt d 0 l).toNat + if z = .d then (c.rdAt d 1 l).toNat * 2 ^ 32 else 0) (stBytes z)

/-- Bytes of one line written into every open eyelet of the cord that holds it, OWN set for every word touched
(R145, R155); other cords of the core lose those words (R200 step 2). -/
def State.storeLine (line : Nat) (bs : List (Nat × Byte)) (s : State) : State :=
  let c := s.cord
  let ws := wordsOf (bs.map (·.1))
  let put (y : Eyelet) : Eyelet :=
    if y.st = .opened ∧ y.pla = line then { y with data := SMap.setAll 0 y.data bs, own := y.own ||| ws } else y
  let s := s.mapCords fun x => if x.cid ≠ c.cid ∧ x.core = c.core then x.clearOwn line ws else x
  State.patchReads c.cid line bs (s.onSelf fun c => { c with eyes := c.eyes.map fun (e, y) => (e, put y) })

/-- The message of a store leaves the core for the home of its line (R155, R198). -/
def State.sendStore (m : StoreMsg) (s : State) : State :=
  s.afterPath m.core (s.homeOf m.line) ((s.leastRow m.core m.line).1 / 2) (.storeAtHome m)

/-- Bytes that the lanes of a store leave on a line, by offset, the higher lane's standing (R155). -/
def Cord.lineBytes (c : Cord) (z : StSize) (d : Rd) (as : List Access) (line : Nat) : List (Nat × Byte) :=
  (as.filter fun a => (c.eye a.2.1).pla == line).foldl
    (fun m (l, _, o) => (cellsAt o (c.storeVal z d l)).foldl (fun m (k, b) => SMap.insert m k b) m) []

/-- The message of a store for one eyelet: the bytes that its lanes name, as the whole store leaves them (R155). -/
def Cord.storeMsg (c : Cord) (z : StSize) (d : Rd) (as : List Access) (e tok : Nat) : StoreMsg :=
  let named (k : Nat) : Bool := as.any fun a => a.2.1 == e && decide (a.2.2 ≤ k) && decide (k < a.2.2 + stBytes z)
  let line := (c.eye e).pla
  { core := c.core, cord := c.cid, line := line, bytes := (c.lineBytes z d as line).filter fun k => named k.1,
    eye := e, tok := tok }

/-- Bytes of an operand of an atomic type (R210). -/
def atomBytes (ty : Nat) : Nat := if ty = 6 ∨ ty = 7 then 8 else 4

/-- Offsets of the bytes that the lanes of an atomic name. -/
def atomOffs (r : AtomReq) : List Nat := r.lanes.flatMap fun x => (List.range (atomBytes r.ty)).map (x.off + ·)

/-- Words of a line that an entry of the order of pending releases is to write. -/
def RelKind.holds (line : Nat) : RelKind → Word
  | .store m | .follow m _ => if m.line = line then wordsOf (m.bytes.map (·.1)) else 0
  | .atom r | .followAtom r _ => if r.line = line then wordsOf (atomOffs r) else 0
  | _ => 0

/-- A pending release or an unfinished drain of the focused cord is to write one of these words: what the cord sends to them now
leaves behind it (R207, R310). -/
def State.heldBack (s : State) (line : Nat) (ws : Word) : Bool :=
  s.cord.rels.any (fun r => r.kind.holds line &&& ws != 0) || s.drainOwes s.cord.cid line s.fresh &&& ws != 0

/-- A store's message leaves, waits for its release, or follows a release or a drain that holds words of it (R155, R201, R207, R310). -/
def State.putStore (rel : Bool) (m : StoreMsg) (s : State) : State :=
  if rel then s.release (.store m) 1
  else if s.heldBack m.line (wordsOf (m.bytes.map (·.1))) then s.release (.follow m s.fresh) 1
  else State.sendStore m (s.onSelf fun c => { c with stcnt := c.stcnt + 1 })

/-- The effect of a store on lanes whose checks have passed: the eyelets on each line are written, and one message goes
for each eyelet named (R155). -/
def State.store (rel : Bool) (z : StSize) (d : Rd) (as : List Access) (s : State) : Res :=
  s.checkLanes as (stBytes z) true fun s =>
    let c := s.cord
    let es := (as.map (·.2.1)).eraseDups
    let lines := (es.map fun e => (c.eye e).pla).eraseDups
    if !c.roomSt es.length then .stall {} s
    else
      let n := s.fresh
      let s := lines.foldl (fun s line => s.storeLine line (c.lineBytes z d as line)) s
      .done (es.foldl (fun s e => s.putStore rel (c.storeMsg z d as e n)) s)

def wideRd (z : StSize) : Nat := if z = .d then 2 else 1

/-- stl with an immediate offset (R153, R155). -/
def execStl (z : StSize) (d : Rd) (e : Eye) (n : Imm) (s : State) : Out :=
  runForm { lat := .n, vecs := rdVecs d (wideRd z) } s fun s =>
    s.store false z d (onEye e s.cord.lanes fun _ => n.toNat * stBytes z)

/-- stl with a register offset (R153, R155). -/
def execStlReg (z : StSize) (d : Rd) (e : Eye) (b : Rd) (s : State) : Out :=
  runForm { lat := .n, vecs := rdVecs d (wideRd z) ++ rdVecs b 1 } s fun s =>
    s.store false z d (onEye e s.cord.lanes fun l => (s.cord.rd b l).toNat)

/-- stl.rel with an immediate offset (R155, R201). -/
def execStlRel (z : StSize) (d : Rd) (e : Eye) (n : Imm) (s : State) : Out :=
  runForm { lat := .n, vecs := rdVecs d (wideRd z) } s fun s =>
    s.store true z d (onEye e s.cord.lanes fun _ => n.toNat * stBytes z)

/-- stl.rel with a register offset (R155, R201). -/
def execStlRelReg (z : StSize) (d : Rd) (e : Eye) (b : Rd) (s : State) : Out :=
  runForm { lat := .n, vecs := rdVecs d (wideRd z) ++ rdVecs b 1 } s fun s =>
    s.store true z d (onEye e s.cord.lanes fun l => (s.cord.rd b l).toNat)

/-- stlx with an immediate offset (R153, R155). -/
def execStlx (z : StSize) (d : Rd) (a : Vec) (n : Imm) (s : State) : Out :=
  runForm { lat := .n, vecs := rdVecs d (wideRd z) ++ [(a.val, 1)] } s fun s =>
    s.checkSel a s.cord.lanes (fun _ => n.toNat * stBytes z) fun as => s.store false z d as

/-- stlx with a register offset (R153, R155). -/
def execStlxReg (z : StSize) (d : Rd) (a : Vec) (b : Rd) (s : State) : Out :=
  runForm { lat := .n, vecs := rdVecs d (wideRd z) ++ [(a.val, 1)] ++ rdVecs b 1 } s fun s =>
    s.checkSel a s.cord.lanes (fun l => (s.cord.rd b l).toNat) fun as => s.store false z d as

/-! The home of a store. -/

/-- A core hears that it no longer owns words of a line: OWN clears in every eyelet of every cord (R200). -/
def execOwnerLossNotice (s : State) : Out :=
  match s.now with
  | some (.ownerLossNotice core line words) =>
    let s := s.ownerLoss core line words
    .next { s with owners := s.owners.filter fun o => !(o.1 / 32 == line && bit words (o.1 % 32) && o.2 == core) }
  | _ => .next s

/-- The last ldl.acq of the cord, of a token below a bound, that has still to read a line: a write of the cord to the line that
issued after it is performed behind it (R205). -/
def State.loadAhead (s : State) (core c line upto : Nat) : Option Nat :=
  if isRemote core then none
  else
    let mine := (s.agenda.filterMap (acquireOf c)).filter fun j =>
      decide (j.1 < upto) && j.2.first.any fun f => ((s.findCord c).map fun x => (x.eye f.1).pla == line).getD false
    (mine.map (·.1)).foldl (fun m t => some (match m with | none => t | some n => max n t)) none

/-- A store message reaches its home: other owners hear of it first; then all its bytes are performed at one
moment, the core becomes the owner, and the store is acknowledged (R199, R200), across the fabric to a core of another
device (R377). -/
def execStoreAtHome (s : State) : Out :=
  match s.now with
  | some (.storeAtHome m) =>
    let ws := wordsOf (m.bytes.map (·.1))
    .next <|
      if s.unreachable m.line then State.messageLost m.cord (s.stDown m.cord 1)
      else if s.agenda.any (adapterWrite m.line) then s.settleAdapter m.line (.storeAtHome m)
      else
      match s.loadAhead m.core m.cord m.line m.tok, s.owedNotices (some m.core) m.line ws with
      | some t, _ => s.hold (t + 1) (.storeAtHome m)
      | none, n :: ns => s.notifyFirst (n :: ns) m.line (.storeAtHome m)
      | none, [] =>
        let s := s.takeOwner (some m.core) m.line ws
        let s := s.performWrite (s.agentOfCord m.cord) (m.bytes.map fun (o, b) => (m.line * 128 + o, b))
        if isRemote m.core then s.sendOut (remoteDev m.core) (.done m.line)
        else s.afterFree ((s.leastRow m.core m.line).1 / 2) (.storeAck m.cord m.line m.eye m.tok)
  | _ => .next s

/-- The home's acknowledgement arrives: stcnt falls by 1 (R155, R196). -/
def execStoreAck (s : State) : Out :=
  match s.now with
  | some (.storeAck c _ _ _) =>
    .next (s.stDown c 1)
  | _ => .next s

/-! Recalls. -/

/-- A core closes every eyelet of every cord that holds a line, and owes its acknowledgement (R157, R158). -/
def execRecallAtCore (s : State) : Out :=
  match s.now with
  | some (.recallAtCore core line reason rid) =>
    let held := (s.allCords.filter (·.core == core)).flatMap fun c =>
      (c.eyes.filter fun (_, y) => y.st != .closed && y.pla == line).map fun (e, _) => (c.cid, e)
    let s := held.foldl (fun s (c, e) => s.closeEye c e reason) s
    .next (s.afterFree 1 (.recallAck rid (s.fresh + 1) none))
  | _ => .next s

/-- A store or atomic of a core to a line, issued before a moment, that its home has not acknowledged; those through one eyelet of
one cord alone, when that is what was recalled (R158, R373). -/
def State.storesOut (s : State) (core line upto : Nat) (only : Option (Nat × Nat)) : Bool :=
  let mine (c e tok : Nat) : Bool := decide (tok < upto) && (only.isNone || only == some (c, e))
  (s.agenda.any fun d =>
    match d.what with
    | .storeAtHome m => m.core == core && m.line == line && mine m.cord m.eye m.tok
    | .atomicAtHome r | .adapterAtomic r _ => r.core == core && r.line == line && mine r.cord r.eye r.tok
    | .storeAck c l e t => l == line && mine c e t && ((s.cord :: s.cords).any fun x => x.cid == c && x.core == core)
    | _ => false)
  || ((s.cord :: s.cords).any fun x => x.core == core && x.rels.any fun r =>
    match r.kind with
    | .store m | .follow m _ => m.line == line && mine m.cord m.eye m.tok
    | .atom a | .followAtom a _ => a.line == line && mine a.cord a.eye a.tok
    | _ => false)

/-- The core acknowledges a recall once the home has acknowledged every store issued before it (R158). -/
def execRecallAck (s : State) : Out :=
  match s.now with
  | some (.recallAck rid upto only) =>
    .next <|
      match s.recalls.find? (·.1 == rid) with
      | none => s
      | some (_, core, line) =>
        if s.storesOut core line upto only then s.after 1 (.recallAck rid upto only)
        else { s with recalls := s.recalls.filter (·.1 != rid) }
  | _ => .next s

/-- Cores whose cords hold a line: what the directories and filters know (R147, R157). -/
def State.sharers (s : State) (line : Nat) : List Nat :=
  ((s.allCords.filter fun c => c.eyes.any fun (_, y) => y.st != .closed && y.pla == line).map (·.core)).eraseDups

/-- Every sharer of a line on this device is recalled; the numbers of the recalls whose acknowledgements are awaited
(R157, R158). -/
def State.recallHere (line : Nat) (reason : Reason) (s : State) : List Nat × State :=
  (s.sharers line).foldl (fun r core =>
    let rid := r.2.fresh
    let s := State.tick { r.2 with recalls := r.2.recalls ++ [(rid, core, line)] }
    (r.1 ++ [rid], s.afterFree 1 (.recallAtCore core line reason rid))) ([], s)

/-- The die that is the home of a line of this device. -/
def State.homeDie (s : State) (line : Nat) : Nat := s.homeOf line / 160

/-- The entry of the remote table for the region of a line (R381). -/
def State.remoteEntry (s : State) (line : Nat) : Option RemoteEntry :=
  s.remote.find? fun r => r.die == s.homeDie line && r.region == line / 4

/-- The number under which a broadcast leaves: every die of every device (R381). -/
def everyDevice : Nat := 2000

/-- Where a notice for a line goes beyond this device, by device and die: to the sharer dies of its region's entry, or, while
the overflow count of its die is above 0 and the entry is absent or overflowed, to every one (R381). -/
def State.noticeDies (s : State) (line : Nat) : List (Nat × Nat) :=
  if !s.isLocal (line * 128) then []
  else
    let beyond := decide (0 < SMap.get 0 s.overflow (s.homeDie line))
    match s.remoteEntry line with
    | none => if beyond then [(everyDevice, 0)] else []
    | some r => if r.full && beyond then [(everyDevice, 0)] else r.dies.filter fun d => !s.dev.lost.contains d.1

/-- A notice goes to the fabric interfaces, whose acknowledgements are awaited (R377, R381). -/
def State.noticeOut (line : Nat) (reason : Reason) (s : State) : List Nat × State :=
  (s.noticeDies line).foldl (fun r d =>
    let rid := r.2.fresh
    let s := State.tick { r.2 with recalls := r.2.recalls ++ [(rid, 1000 * (d.1 + 1) + d.2, line)] }
    (r.1 ++ [rid], s.sendOut d.1 (.notice d.2 line reason rid))) ([], s)

/-- Every sharer of a line is recalled, on this device and on others (R157, R381). -/
def State.recallLine (line : Nat) (reason : Reason) (s : State) : List Nat × State :=
  let (here, s) := s.recallHere line reason
  let (there, s) := s.noticeOut line reason
  (here ++ there, s)

/-- A home marks a line lost; the mark goes to the sharers on other devices, where it acts as a recall with REASON ECC
(R364, R381, log entry 57). -/
def State.markLost (line : Nat) (s : State) : State :=
  if s.lost line then s else ((s.lose line).noticeOut line .ecc).2

/-- A die of another device registers on the region of a line (R381). -/
def State.register (dev die line : Nat) (s : State) : State :=
  let k := s.homeDie line
  let here (r : RemoteEntry) : Bool := r.die == k && r.region == line / 4
  let more (s : State) : State := { s with overflow := SMap.upd 0 s.overflow k (· + 1) }
  match s.remoteEntry line with
  | none =>
    if 65536 ≤ (s.remote.filter (·.die == k)).length then more s
    else { s with remote := s.remote ++ [⟨k, line / 4, [(dev, die)], false⟩] }
  | some r =>
    if r.dies.contains (dev, die) then s
    else if r.dies.length < 8 then
      { s with remote := s.remote.map fun r => if here r then { r with dies := r.dies ++ [(dev, die)] } else r }
    else more { s with remote := s.remote.map fun r => if here r then { r with full := true } else r }

/-- A die of another device deregisters; an entry that names no die is freed, its mark with it (R381). -/
def State.deregister (dev die line : Nat) (s : State) : State :=
  let k := s.homeDie line
  let here (r : RemoteEntry) : Bool := r.die == k && r.region == line / 4
  let less (s : State) : State := { s with overflow := SMap.upd 0 s.overflow k (· - 1) }
  match s.remoteEntry line with
  | none => less s
  | some r =>
    if !r.dies.contains (dev, die) then less s
    else
      let drop (r : RemoteEntry) : RemoteEntry := if here r then { r with dies := r.dies.erase (dev, die) } else r
      { s with remote := (s.remote.map drop).filter fun r => !r.dies.isEmpty }

/-- Some of these recalls are not yet acknowledged. -/
def State.recalling (s : State) (rids : List Nat) : Bool := s.recalls.any fun r => rids.contains r.1

/-- One eyelet of a cord is recalled, and its core owes the acknowledgement (R157, R158). -/
def State.recallEye (c e : Nat) (r : Reason) (s : State) : State :=
  match s.findCord c with
  | none => s
  | some x =>
    if (x.eye e).st = .closed then s
    else
      let rid := s.fresh
      let s := State.tick { s with recalls := s.recalls ++ [(rid, x.core, (x.eye e).pla)] }
      (s.closeEye c e r).afterFree 1 (.recallAck rid (rid + 1) (some (c, e)))

/-- An explicit recall through the debug path (R157, R373). -/
def execDebugRecall (s : State) : Out :=
  match s.now with
  | some (.debugRecall c e) =>
    s.ifCord c fun _ => s.recallEye c e .sys
  | _ => .next s

/-! Additions to regions. -/

/-- OWN bits of words of a line clear in every open eyelet of the cord that holds it (R145, R241). -/
def State.disown (line : Nat) (offs : List Nat) (s : State) : State := s.onSelf fun c => c.clearOwn line (wordsOf offs)

/-- vads (R241). -/
def execVads (d : Rd) (e : Eye) (b : Rd) (s : State) : Out :=
  runForm { lat := .n, vecs := rdVecs d 1 ++ rdVecs b 1 } s fun s =>
    let as := onEye e s.cord.lanes fun l => (s.cord.rd b l).toNat
    s.checkLanes as 4 true fun s =>
      let c := s.cord
      let y := c.eye e.val
      match s.eyeRegion c.ctx y with
      | none => .trap .bsRegion (BitVec.ofNat 64 y.rgn)
      | some r =>
        if !c.roomSt 1 then .stall {} s
        else
          let tok := s.fresh
          let s := s.open_ { tok := 0, left := as.length, stc := 1 }
          let s := s.onSelf fun c => { c with stcnt := c.stcnt + 1 }
          let add (a : Access) : Addition :=
            { cord := c.cid, core := c.core, ctx := c.ctx, rgn := r.n, addr := y.pla * 128 + a.2.2, val := c.rd d a.1, tok := tok,
              gen := r.gen }
          let s := as.foldl (fun s a => s.afterPath c.core (picotKey (clusterOf c.core)) 1 (.additionAtPicot (add a))) s
          .done (s.disown y.pla (as.map (·.2.2)))

end Sys2Proof.Machine
end

