-- ==== Sys2Proof/Machine/Pillow.lean ====
section
/-! DEFINITION. Pillow.lean: pillow memory and full-empty bits (R167 to R175), named barriers and peer arrivals
(R176 to R184), stage rings (R185 to R189), the notify store (R246, R248), and chain (R139 to R143). -/

namespace Sys2Proof.Machine

/-! Pillow. -/

def Motif.pilNum (m : Motif) (o n : Nat) : Nat := leNat ((List.range n).map fun i => SMap.get 0 m.pil (o + i))

def Motif.full (m : Motif) (g : Nat) : Bool := SMap.get false m.fe g

def Motif.bar (m : Motif) (i : Nat) : Bar := SMap.get {} m.bars i

def Motif.ring (m : Motif) (q : Nat) : RingSt := SMap.get {} m.rings q

/-- A motif after a change of its barriers, rings or pillow: the objects that changed leave those which have stood since the last
reading of the knot detector: barriers (0), rings (1) and granules (2) by number (R191). -/
def Motif.changed (old new : Motif) : Motif :=
  let same (o : Nat × Nat) : Bool :=
    match o.1 with
    | 0 => old.bar o.2 == new.bar o.2
    | 1 => old.ring o.2 == new.ring o.2
    | _ => old.full o.2 == new.full o.2 && old.pilNum (16 * o.2) 16 == new.pilNum (16 * o.2) 16
  { new with watch := new.watch.filter same }

def Motif.pilPut (m : Motif) (o : Nat) (bs : List Byte) : Motif :=
  m.changed { m with pil := SMap.setAll 0 m.pil (cellsAt o bs) }

/-- Full-empty bits of granules (R171). -/
def Motif.setFull (m : Motif) (gs : List Nat) (v : Bool) : Motif :=
  m.changed { m with fe := SMap.setAll false m.fe (gs.map fun g => (g, v)) }

def Motif.setBar (m : Motif) (i : Nat) (b : Bar) : Motif := m.changed { m with bars := SMap.set {} m.bars i b }

def Motif.setRing (m : Motif) (q : Nat) (r : RingSt) : Motif := m.changed { m with rings := SMap.set {} m.rings q r }

/-- The launch declares a stage ring (R168). -/
def Motif.hasRings (m : Motif) : Bool := m.rings.any fun (_, r) => r.dcl

/-- BA, the start of the bobbin area (R245); none in a motif with no copy cord. -/
def Motif.ba (m : Motif) : Option Nat :=
  if m.copies = 0 then none else some (m.pb - if m.hasRings then 2192 else 2064)

/-- Bytes that pillow forms may not touch: ring control blocks and the control bytes of the bobbin area (R168, R246). -/
def Motif.reserved (m : Motif) : List (Nat × Nat) :=
  (if m.hasRings then [(m.pb - 128, 128)] else []) ++ match m.ba with | some b => [(b + 0x800, 16)] | none => []

def touches (l : List (Nat × Nat)) (o n : Nat) : Bool := l.any fun (a, k) => decide (o < a + k) && decide (a < o + n)

/-- The checks of R173 on the offsets of lanes: alignment, range, reserved bytes; info is the offset. -/
def Motif.check (m : Motif) (align : Bool) (z : Nat) (os : List Nat) : Option (Cause × Nat) :=
  match (if align then os.find? fun o => o % z != 0 else none) with
  | some o => some (.pilAlign, o)
  | none =>
    match os.find? fun o => decide (m.pb < o + z) with
    | some o => some (.pilRange, o)
    | none => (os.find? fun o => touches m.reserved o z).map fun o => (.pilRsvd, o)

/-- o[l] of R173 and R175. -/
def pilOff (c : Cord) (a : Rd) (n : Imm) (z l : Nat) : Nat := ((c.rd a l).toNat + n.toNat * z) % 2 ^ 32

/-- P: the most distinct words that the lanes touch in one of the 32 banks (R173). -/
def bankLoad (os : List Nat) (z : Nat) : Nat :=
  let ws := (os.flatMap fun o => (List.range (z / 4)).map fun i => o / 4 + i).eraseDups
  ((List.range 32).map fun b => (ws.filter fun w => w % 32 == b).length).foldl max 0

/-- The words of a pillow access of z bytes. -/
def pilWords (x z : Nat) : List Word := (List.range (z / 4)).map fun i => BitVec.ofNat 32 (x / 2 ^ (32 * i))

/-- The lanes whose values a form writes to D: a scalar D is written once, from the lowest (R104, R173). -/
def Wr.lanes (d : Wr) (los : List (Nat × Nat)) : List (Nat × Nat) :=
  match d with
  | .v _ => los
  | .s _ => los.take 1

/-- Register writes of a pillow load, its destination bound at issue (R173). -/
def pilWrites (d : Wr) (wb z : Nat) (m : Motif) (lanes : List (Nat × Nat)) : List RegWrite :=
  (Wr.lanes d lanes).flatMap fun (l, o) => (pilWords (m.pilNum o z) z).zipIdx.map fun (v, k) =>
    match d with
    | .v n => .v (wb + n + k) l v
    | .s n => .s (n + k) v

/-- A pillow form whose active lanes are all checked before any effect, whatever D is (R173, R175). -/
def runPillow (f : Form) (align : Bool) (z : Nat) (off : Cord → Nat → Nat) (s : State)
    (k : List (Nat × Nat) → State → Res) : Out :=
  runForm f s fun s =>
    let los := s.cord.lanes.map fun l => (l, off s.cord l)
    match s.motif.check align z (los.map (·.2)) with
    | some (c, o) => .trap c (BitVec.ofNat 64 o)
    | none => k los s

/-- ldp (R173): read at its moment, written 13 + P cycles after issue. -/
def execLdp (z : PilSize) (d : Wr) (a : Rd) (n : Imm) (s : State) : Out :=
  let b := pilBytes z
  runPillow { lat := .v, vecs := wrVecs d (b / 4) ++ rdVecs a 1 } true b (fun c => pilOff c a n b) s
    fun los s =>
      let c := s.cord
      .done (s.after (13 + bankLoad (los.map (·.2)) b) (.pillowLoadResult c.cid c.flag (pilWrites d c.wb b s.motif los)))

/-- The result of a plain ldp or a feqry is written (R173, R175). -/
def execPillowLoadResult (s : State) : Out :=
  match s.now with
  | some (.pillowLoadResult c f ws) =>
    .next (s.complete c f ws)
  | _ => .next s

/-- A wait-full load becomes pending; where it can be served at once its moment is before that of any later access (R169, R172,
R173). -/
def runWaitFull (take : Bool) (z : PilSize) (d : Wr) (a : Rd) (n : Imm) (s : State) : Out :=
  let b := pilBytes z
  runPillow { lat := .v, vecs := wrVecs d (b / 4) ++ rdVecs a 1 } true b (fun c => pilOff c a n b) s
    fun los s =>
      let c := s.cord
      let w : WfLoad := { k := s.fresh, cord := c.cid, take := take, z := b, lanes := los, dst := d, wb := c.wb, flag := c.flag,
                          due := s.cycle + 13 + bankLoad (los.map (·.2)) b }
      .done { s.tick with motif := { s.motif with wf := s.motif.wf ++ [w] } }

/-- ldp.wf.take (R172, R173). -/
def execLdpWfTake (z : PilSize) (d : Wr) (a : Rd) (n : Imm) (s : State) : Out := runWaitFull true z d a n s

/-- ldp.wf.peek (R172, R173). -/
def execLdpWfPeek (z : PilSize) (d : Wr) (a : Rd) (n : Imm) (s : State) : Out := runWaitFull false z d a n s

/-- Granules of a wait-full load. -/
def WfLoad.granules (w : WfLoad) : List Nat := w.lanes.map fun x => x.2 / 16

/-- A pending wait-full load can be served: its granules are full and no earlier one needs any of them (R172). -/
def Motif.servable (m : Motif) (w : WfLoad) : Bool :=
  let earlier := m.wf.takeWhile (·.k != w.k)
  w.granules.all m.full && earlier.all fun e => e.granules.all fun g => !w.granules.contains g

/-- A call of ared or acol, which is never withdrawn (R387). -/
def RelKind.isCall : RelKind → Bool
  | .coll _ => true
  | _ => false

/-- Notify stores of a motif take effect in the order in which they issued, whichever cords issue them (R248). -/
def RelKind.inTurn (m : Motif) : RelKind → Bool
  | .notify n _ _ _ => m.noticed == n
  | _ => true

/-- A pending release that the save of its motif waits for: it counts in stcnt, or is a call (R357 step 5, R387). -/
def Release.awaited (r : Release) : Bool := r.own != 0 || r.kind.isCall

/-- A pending release that a save waits for waits for the wait-full load: it is of the load's cord, or stands in another cord of the
motif behind a notify store whose turn comes after one of the load's cord (R201, R248, R387). -/
def State.heldRelease (s : State) (w : WfLoad) : Bool :=
  match s.cordRec w.cord with
  | none => false
  | some c =>
    let m := (s.findMotif c.mid).getD {}
    let mine := c.rels.filter fun r => r.loads.contains w.k
    let behind (x : Cord) : Bool := (x.rels.dropWhile fun r => r.kind.inTurn m).any (·.awaited)
    mine.any (·.awaited) ||
      ((mine.any fun r => match r.kind with | .notify .. => true | _ => false) &&
        (s.cord :: s.cords).any fun x => x.mid == c.mid && x.cid != c.cid && behind x)

/-- A wait-full load of a motif is served now. While the motif is being saved it stays pending (R357 step 1), unless a release
that keeps stcnt from 0 waits for it (R357 step 5), or a call, which completes before the save (R387; log entry 62). -/
def State.serves (s : State) (m : Motif) (w : WfLoad) : Bool := m.servable w && (!m.saving || s.heldRelease w)

/-- Service: every lane reads its bytes and .take clears the bits at one moment; the acquire follows, and the
load completes after its refresh, no sooner than a plain load would (R172, R173). -/
def execWaitFullLoadService (s : State) : Out :=
  match s.now with
  | some (.waitFullLoadService m k) =>
    .next <|
      match (s.findMotif m).bind fun x => x.wf.find? (·.k == k) with
      | none => s
      | some w =>
        let x := (s.findMotif m).getD {}
        if !s.serves x w then s
        else
          let o : Op := { tok := s.fresh, flag := some w.flag, left := 1, writes := pilWrites w.dst w.wb w.z x w.lanes, due := w.due }
          let s := State.tick (s.onCord w.cord fun c => { c with ops := c.ops ++ [o] })
          let s := s.onMotif m fun x =>
            let x := { x with wf := x.wf.filter (·.k != k) }
            if w.take then x.setFull w.granules false else x
          let s := s.onCord w.cord fun c => { c with rels := c.rels.map fun r => { r with loads := r.loads.filter (· != k) } }
          s.beginAcquire w.cord o.tok
  | _ => .next s

/-- What lane l stores (R174). -/
def Cord.pilVal (c : Cord) (d : Rd) (z l : Nat) : List Byte :=
  (List.range (z / 4)).flatMap fun i => leBytes (c.rdAt d i l).toNat 4

/-- The notify store of R248; for the batches of R216 its commands count as published from its issue (log entry 24). -/
def State.notify (d : Rd) (s : State) : Res :=
  let c := s.cord
  let v := c.rd d (lowest c.act)
  let t2 : BitVec 16 := v.setWidth 16
  let t0 := s.motif.notified
  let p := (t2 - t0).toNat
  if c.role ≠ 0 then .trap .roleBad c.word
  else if fld v 16 16 ≠ 0 ∨ 64 < p + (t0 - s.motif.done).toNat then .trap .bobNotify (v.setWidth 64)
  else
    let seqs := (List.range p).map fun i => (t0 + BitVec.ofNat 16 i).toNat
    let publish (ts : SMap Thread) (l : Nat) : SMap Thread :=
      SMap.upd {} ts l fun t => { t with unsealed := t.unsealed ++ seqs }
    let n := s.motif.notices
    let s := { s with motif := { s.motif with notified := t2, notices := n + 1 }, cord := { c with threads := c.lanes.foldl publish c.threads } }
    .done (s.release (.notify n t0 t2 c.act) 0)

/-- stp (R174): all lanes at one moment, the higher-numbered lane's byte standing; or the notify store (R248). -/
def execStp (z : PilSize) (d : Rd) (a : Rd) (n : Imm) (s : State) : Out :=
  let b := pilBytes z
  runForm { lat := .n, vecs := rdVecs d (b / 4) ++ rdVecs a 1 } s fun s =>
    let c := s.cord
    let os := c.lanes.map fun l => pilOff c a n b l
    let word := match s.motif.ba with | some x => b == 4 && os.all (· == x + 0x800) | none => false
    if word then s.notify d
    else
      match s.motif.check true b os with
      | some (k, o) => .trap k (BitVec.ofNat 64 o)
      | none => .done { s with motif := (c.lanes.zip os).foldl (fun m (l, o) => m.pilPut o (c.pilVal d b l)) s.motif }

/-- A full-empty form on every active lane's granule (R175). -/
def runFull (v : Bool) (a : Rd) (n : Imm) (s : State) : Out :=
  runForm { lat := .n, vecs := rdVecs a 1 } s fun s =>
    let c := s.cord
    let os := c.lanes.map fun l => pilOff c a n 16 l
    match s.motif.check false 1 os with
    | some (k, o) => .trap k (BitVec.ofNat 64 o)
    | none => .done { s with motif := s.motif.setFull (os.map (· / 16)) v }

/-- feset (R175). -/
def execFeset (a : Rd) (n : Imm) (s : State) : Out := runFull true a n s

/-- feclr (R175). -/
def execFeclr (a : Rd) (n : Imm) (s : State) : Out := runFull false a n s

/-- feqry (R175): 14 cycles after issue. -/
def execFeqry (d : Wr) (a : Rd) (n : Imm) (s : State) : Out :=
  runPillow { lat := .v, vecs := wrVecs d 1 ++ rdVecs a 1 } false 1 (fun c => pilOff c a n 16) s
    fun los s =>
      let c := s.cord
      let ws := (Wr.lanes d los).map fun (l, o) => c.bind d 0 l (if s.motif.full (o / 16) then 1 else 0)
      .done (s.after 14 (.pillowLoadResult c.cid c.flag ws))

/-! Named barriers. -/

/-- What registering an arrival comes to (R177). -/
inductive Reg1 where
  | ok (b : Bar)
  | stall
  | mismatch
  deriving DecidableEq, Repr

/-- Registers an arrival with count n; cord is none for peers and the bobbin, which have no AM bit (R177, R182). -/
def Bar.register (b : Bar) (cord : Option Nat) (n : Nat) : Reg1 :=
  let mine := match cord with | some c => bit b.am c | none => false
  if n = 0 then .mismatch
  else if mine then .stall
  else if b.exp ≠ 0 ∧ n ≠ b.exp then .mismatch
  else
    .ok { b with exp := n, reg := b.reg + 1, am := match cord with | some c => b.am ||| maskOf [c] | none => b.am }

/-- A registered arrival is counted (R177, R178). -/
def Bar.count (b : Bar) : Bar := { b with arr := min 127 (b.arr + 1), reg := b.reg - 1 }

/-- The phase is complete (R178). -/
def Bar.complete (b : Bar) : Bool := b.exp != 0 && decide (b.exp ≤ b.arr) && b.reg == 0

/-- The barrier at the start of its next phase (R178). -/
def Bar.next (b : Bar) : Bar := { ph := !b.ph }

/-- trinfo of bar_mismatch (R344). -/
def barInfo (n : Nat) (b : Bar) : Dword := BitVec.ofNat 64 (b.exp * 128 + n)

/-- A cord that waited goes on with an acquire, and issues again after its refresh (R178, R188). -/
def State.wakeAcquire (c : Nat) (kind : OpKind) (s : State) : State :=
  let o : Op := { tok := s.fresh, left := 1, kind := kind }
  let s := State.tick (s.onCord c fun x => { x with ops := x.ops ++ [o], wait := .acquire o.tok })
  s.beginAcquire c o.tok

/-- Completes the phase of a barrier if it is complete: PH toggles, the rest clears, and every cord that waits is
released (R178). -/
def State.phaseTest (m i : Nat) (s : State) : State :=
  match s.findMotif m with
  | none => s
  | some x =>
    let b := x.bar i
    if !b.complete then s
    else
      let s := s.onMotif m fun x => x.setBar i b.next
      ((s.cordsOf m).filter fun c => bit b.wm c.idx && c.wait == .barw i).foldl (fun s c => s.wakeAcquire c.cid .wakeBarw) s

/-- A registered arrival is counted (R177): ARR rises and the phase may complete. -/
def State.countArrival (m i : Nat) (s : State) : State :=
  State.phaseTest m i (s.onMotif m fun x => x.setBar i (x.bar i).count)

/-- Registers the focused cord's arrival (R177), or stalls with kind 2 or raises bar_mismatch. -/
def State.arrive (i n : Nat) (s : State) (k : State → Res) : Res :=
  let b := s.motif.bar i
  match b.register (some s.cord.idx) n with
  | .mismatch => .trap .barMismatch (barInfo n b)
  | .stall => .stall ⟨2, i, 0⟩ s
  | .ok b => k { s with motif := s.motif.setBar i b }

/-- bara (R180). -/
def execBara (b : Sys2Proof.Bar) (n : Imm) (s : State) : Out :=
  runForm { lat := .n } s fun s => s.arrive b.val n.toNat fun s => .done (s.release (.arrive b.val) 0)

/-- barw (R180): WM is set and the cord issues nothing more until the phase completes and its acquire ends. -/
def execBarw (b : Sys2Proof.Bar) (n : Imm) (s : State) : Out :=
  runForm { lat := .n } s fun s => s.arrive b.val n.toNat fun s =>
    let x := s.motif.bar b.val
    let s := { s with motif := s.motif.setBar b.val { x with wm := x.wm ||| maskOf [s.cord.idx] } }
    .done ((s.onSelf fun c => { c with wait := .barw b.val }).release (.arrive b.val) 0)

/-- barx (R180): counted at issue with the phase's count. -/
def execBarx (b : Sys2Proof.Bar) (s : State) : Out :=
  runForm { lat := .n } s fun s =>
    let x := s.motif.bar b.val
    if x.exp = 0 then .trap .barMismatch (barInfo 0 x)
    else s.arrive b.val x.exp fun s => .done (s.countArrival s.motif.mid b.val)

/-- barq (R181). -/
def execBarq (d : Wr) (b : Sys2Proof.Bar) (s : State) : Out :=
  runForm { lat := .i4, vecs := wrVecs d 1 } s fun s =>
    let x := s.motif.bar b.val
    let w := (if x.ph then 2 ^ 31 else 0) + (if bit x.am s.cord.idx then 2 ^ 30 else 0) + x.exp * 2 ^ 7 + x.arr
    .done (s.write .i4 (s.cord.writes32 d fun _ => BitVec.ofNat 32 w))

/-! Peer arrivals. -/

/-- The motif that peerarr names, if R182 allows it: resident on the cluster, or saved with its last residence there. -/
def State.peer (s : State) (idx : Nat) : Option Motif :=
  s.motifs.find? fun m => m.queue == s.motif.queue && m.idx == idx && clusterOf m.core == clusterOf s.cord.core &&
    (m.status == .running || m.status == .saved)

/-- The barrier that a peer arrival registers on: the shadow while the target is saved (R183). -/
def Motif.peerBar (m : Motif) (i : Nat) : Bar := if m.status = .saved then SMap.get {} m.shadow i else m.bar i

def Motif.setPeerBar (m : Motif) (i : Nat) (b : Bar) : Motif :=
  if m.status = .saved then { m with shadow := SMap.set {} m.shadow i b } else m.setBar i b

/-- Entries of a cluster's buffer in use or promised to registered arrivals (R183). -/
def State.bufferUse (s : State) (cl : Nat) : Nat :=
  let pending := ((s.allCords.filter fun c => clusterOf c.core == cl).map fun c =>
    (c.rels.filter fun r =>
      match r.kind with
      | .peer mid _ _ => ((s.findMotif mid).map fun m => m.status == .saved).getD false
      | _ => false).length).sum
  (s.peers.filter (·.cl == cl)).length + pending

/-- peerarr (R184). -/
def execPeerarr (k : Sys2Proof.Bar) (b : Rd) (lit : Word) (s : State) : Out :=
  runForm { lat := .n, vecs := rdVecs b 1 } s fun s =>
    let idx := (s.cord.once b).toNat
    match s.peer idx with
    | none => .trap .peerBad (BitVec.ofNat 64 idx)
    | some m =>
      let n := fld lit 0 7
      match (m.peerBar k.val).register none n with
      | .mismatch => .trap .barMismatch (barInfo n (m.peerBar k.val))
      | .stall => .stall {} s
      | .ok x =>
        if m.status = .saved ∧ 64 ≤ s.bufferUse (clusterOf s.cord.core) then .stall ⟨9, k.val, 0⟩ s
        else .done ((s.onMotif m.mid fun y => y.setPeerBar k.val x).release (.peer m.mid k.val n) 0)

/-- A peer arrival is counted at its target, or buffered with the shadow values (R183). One registered before its target was
saved is buffered even past 64 entries, for R183 stalls a peerarr at its issue only (DESIGN CHOICE, log entry 63). -/
def State.countPeer (cl mid i n : Nat) (s : State) : State :=
  match s.findMotif mid with
  | none => s
  | some m =>
    if m.status = .saved then
      let b := (m.peerBar i).count
      let b := if b.complete then b.next else b
      let s := s.onMotif mid fun x => x.setPeerBar i b
      { s with peers := s.peers ++ [⟨cl, mid, i, n⟩] }
    else s.countArrival mid i

/-! Stage rings. -/

/-- The srqry word (R189). -/
def RingSt.query (r : RingSt) : Word :=
  let sps := ((List.range 8).map fun i => if SMap.get false r.sp i then 2 ^ (16 + i) else 0).sum
  let sts := ((List.range 8).map fun i => SMap.get 0 r.st i * 4 ^ i).sum
  BitVec.ofNat 32 ((if r.dcl then 2 ^ 31 else 0) + (if r.hp then 2 ^ 27 else 0) + r.h * 2 ^ 24 + sps + sts)

def ringTrap (r : RingSt) : Res := .trap .ringState (r.query.setWidth 64)

/-- sracq (R187): slot H, once it is free. -/
def execSracq (d : Wr) (q : Ring) (s : State) : Out :=
  runForm { lat := .i4, vecs := wrVecs d 1 } s fun s =>
    let r := s.motif.ring q.val
    if !r.dcl ∨ s.cord.role ≠ r.prod then ringTrap r
    else if SMap.get 0 r.st r.h ≠ 0 then .stall ⟨3, q.val, 0⟩ s
    else
      let h := (r.h + 1) % 8
      let r' : RingSt :=
        { r with st := SMap.set 0 r.st r.h 1, sp := SMap.set false r.sp r.h r.hp, own := SMap.set 0 r.own r.h s.cord.idx,
                 h := h, hp := if h = 0 then !r.hp else r.hp }
      let v := r.h + if r.hp then 8 else 0
      .done (State.write .i4 (s.cord.writes32 d fun _ => BitVec.ofNat 32 v) { s with motif := s.motif.setRing q.val r' })

/-- Slot and phase of a descriptor (R185). -/
def slotOf (x : Word) : Nat × Bool := (fld x 0 3, bit x 3)

/-- srpub (R188). -/
def execSrpub (q : Ring) (b : Rd) (s : State) : Out :=
  runForm { lat := .n, vecs := rdVecs b 1 } s fun s =>
    let r := s.motif.ring q.val
    let (k, p) := slotOf (s.cord.once b)
    if !r.dcl ∨ s.cord.role ≠ r.prod ∨ SMap.get 0 r.st k ≠ 1 ∨ SMap.get false r.sp k ≠ p ∨ SMap.get 0 r.own k ≠ s.cord.idx then
      ringTrap r
    else .done (s.release (.publish q.val k) 0)

/-- srwait (R188). -/
def execSrwait (q : Ring) (b : Rd) (s : State) : Out :=
  runForm { lat := .n, vecs := rdVecs b 1 } s fun s =>
    let r := s.motif.ring q.val
    let (k, p) := slotOf (s.cord.once b)
    if !r.dcl ∨ s.cord.role ≠ r.cons then ringTrap r
    else if SMap.get 0 r.st k = 2 ∧ SMap.get false r.sp k = p then .done (s.wakeAcquire s.cord.cid .wakeWait)
    else .done (s.onSelf fun c => { c with wait := .srwait q.val k p })

/-- A slot becomes free (R188). -/
def Motif.freeSlot (m : Motif) (q k : Nat) (p : Bool) : Motif :=
  let r := m.ring q
  if SMap.get 0 r.st k = 2 ∧ SMap.get false r.sp k = p then m.setRing q { r with st := SMap.set 0 r.st k 0 } else m

/-- A slot becomes published, and the cords that wait for it in this phase go on (R188). -/
def State.publishSlot (m q k : Nat) (s : State) : State :=
  match s.findMotif m with
  | none => s
  | some x =>
    let r := x.ring q
    let s := s.onMotif m fun x => x.setRing q { r with st := SMap.set 0 r.st k 2 }
    ((s.cordsOf m).filter fun c => c.wait == .srwait q k (SMap.get false r.sp k)).foldl (fun s c => s.wakeAcquire c.cid .wakeWait) s

/-- srfree (R188): at once, or after the cord's pending wait-full loads have read. While one waits, ST still shows its slot
published, so a second one of the descriptor passes the checks of the table, and the free that takes effect later does nothing
(DESIGN CHOICE, log entry 63). -/
def execSrfree (q : Ring) (b : Rd) (s : State) : Out :=
  runForm { lat := .n, vecs := rdVecs b 1 } s fun s =>
    let r := s.motif.ring q.val
    let (k, p) := slotOf (s.cord.once b)
    if !r.dcl ∨ s.cord.role ≠ r.cons ∨ SMap.get 0 r.st k ≠ 2 ∨ SMap.get false r.sp k ≠ p then ringTrap r
    else if s.motif.wf.any (·.cord == s.cord.cid) then .done (s.release (.free q.val k p) 0)
    else .done { s with motif := s.motif.freeSlot q.val k p }

/-- srqry (R189). -/
def execSrqry (d : Wr) (q : Ring) (s : State) : Out :=
  runForm { lat := .i4, vecs := wrVecs d 1 } s fun s =>
    let r := s.motif.ring q.val
    if !r.dcl then ringTrap r
    else .done (s.write .i4 (s.cord.writes32 d fun _ => r.query))

/-! chain. -/

/-- Elements and operations of a chain literal (R139). -/
def chainN (lit : Word) : Nat := fld lit 0 14 + 1
def chainOps (lit : Word) : List Nat := List.range (fld lit 14 3 + 1)

/-- An operation word is legal (R140, R141). -/
def chainOpOk (w : Word) : Bool :=
  let k := fld w 28 4
  let src := fld w 26 2
  fld w 0 26 == 0 && decide (k ≤ 7) && src != 2 && ((k == 5 || k == 6) == (src == 3))

/-- The checks of R141 on descriptor words at offset a. -/
def Motif.chainOk (m : Motif) (a : Nat) (ws : List Word) (lit : Word) : Bool :=
  let bad := (if m.hasRings then [(m.pb - 128, 128)] else []) ++ match m.ba with | some b => [(b, 2064)] | none => []
  let inside (o n : Nat) : Bool := decide (o + n ≤ m.pb) && !touches bad o n
  let ops := (chainOps lit).map fun i => ws.getD (4 + i) 0
  let stream (k : Nat) : Bool := let o := (ws.getD k 0).toNat; o % 4 == 0 && inside o (4 * chainN lit)
  a % 16 == 0 && inside a 80 && ws.getD 3 0 == 0 && ops.all chainOpOk && stream 0 && stream 2 &&
    (!(ops.any fun w => fld w 26 2 == 0) || stream 1)

/-- chain (R139 to R142). The descriptor is read and checked in the cycle of issue, its stall of R141 having no cycle of its
own (DESIGN CHOICE, log entry 52); the sequencer may hold the vector unit from the next cycle on. -/
def execChain (a : Rd) (lit : Word) (s : State) : Out :=
  runForm { lat := .v, vecs := rdVecs a 1 } s fun s =>
    let c := s.cord
    if c.chain then .stall {} s
    else
      let o := (c.once a).toNat
      let word (x : Nat) : Word := BitVec.ofNat 32 (s.motif.pilNum x 4)
      let ws := (List.range 20).map fun i => word (o + 4 * i)
      if !s.motif.chainOk o ws lit then .trap .chainDesc (BitVec.ofNat 64 o)
      else
        let stream (k : Nat) : List Word := (List.range (chainN lit)).map fun j => word ((ws.getD k 0).toNat + 4 * j)
        let uses1 := (chainOps lit).any fun i => fld (ws.getD (4 + i) 0) 26 2 == 0
        let job : ChainJob :=
          { words := ws, lit := lit, fz := c.fpctl, j := 0, i := 0, t := [], held := 0, in0 := stream 0,
            in1 := if uses1 then stream 1 else [] }
        let s := s.onSelf fun c => { c with chain := true }
        .done (s.after 2 (.chainComplete c.cid c.flag job))

/-- One operation of a chain on FP32 encodings (R141); the running value and CONi are not flushed before min and max
(DESIGN CHOICE, log entry 52). -/
def chainOp (fz : Byte) (k : Nat) (t b : Nat) : Nat :=
  let z (x : Nat) : Nat := fp32.flush (rfz fz 10) x
  match k with
  | 0 => fp32.op2 false (rfz fz 10) Num.add t b
  | 1 => fp32.op2 false (rfz fz 10) (fun x y => Num.add x y.neg) t b
  | 2 => fp32.op2 false (rfz fz 10) Num.mul t b
  | 3 => z (fp32.minmax false t b)
  | 4 => z (fp32.minmax true t b)
  | 5 => t % 2 ^ 31
  | 6 => (t + 2 ^ 31) % 2 ^ 32
  | _ => fp32.op2 false (rfz fz 10) (fun x y => Num.add y x.neg) t b

/-- Stream k overlaps the output in part: neither apart from it nor equal to it (R142). -/
def chainPartly (job : ChainJob) (k : Nat) : Bool :=
  let a := (job.words.getD k 0).toNat
  let out := (job.words.getD 2 0).toNat
  let n := 4 * chainN job.lit
  a != out && touches [(out, n)] a n

/-- OUT equals a stream that the chain reads: then every element comes from the original inputs (R142). -/
def chainInPlace (job : ChainJob) : Bool :=
  job.words.getD 0 0 == job.words.getD 2 0 || (!job.in1.isEmpty && job.words.getD 1 0 == job.words.getD 2 0)

/-- An input word of element j: the current one; under a partial overlap with what the chain has written the original one
in place, otherwise either (R142, log entry 11). A block of 32 is read before it is written (log entry 52). -/
def chainInput (job : ChainJob) (m : Motif) (which : Nat) (j k : Nat) : Word :=
  let a := (job.words.getD which 0).toNat + 4 * j
  let cur : Word := BitVec.ofNat 32 (m.pilNum a 4)
  let orig := (if which = 0 then job.in0 else job.in1).getD j cur
  let written := chainPartly job which && touches [((job.words.getD 2 0).toNat, 4 * job.j)] a 4
  if written && (chainInPlace job || Config.raceChoice k) then orig else cur

/-- The elements of the block in hand. -/
def chainBlock (job : ChainJob) : List Nat := (List.range (min 32 (chainN job.lit - job.j))).map (job.j + ·)

/-- Operation i of a chain on element j of its block, whose running value is t (R141); choices count from n (R142). -/
def chainApply (job : ChainJob) (m : Motif) (n j : Nat) (t : Word) : Word :=
  let fin (x : Word) : Nat := fp32.flush (ofz job.fz 10) x.toNat
  let w := job.words.getD (4 + job.i) 0
  let t := if job.i = 0 then fin (chainInput job m 0 j (n + 2 * j)) else t.toNat
  let b := if fld w 26 2 = 0 then fin (chainInput job m 1 j (n + 2 * j + 1)) else (job.words.getD (12 + job.i) 0).toNat
  BitVec.ofNat 32 (chainOp job.fz (fld w 28 4) t b)

/-- The sequencer applies one operation to a block; after the last one its output words are performed (R141, R143). -/
def State.chainStep (c : Nat) (f : Flag) (job : ChainJob) (d : Nat) (x : Cord) (m : Motif) (s : State) : State :=
  let ts := (chainBlock job).zipIdx.map fun (j, k) => chainApply job m s.fresh j (job.t.getD k 0)
  let s := { s with fresh := s.fresh + 2 * chainN job.lit }
  if job.i + 1 < (chainOps job.lit).length then s.after d (.chainComplete c f { job with i := job.i + 1, t := ts, held := 0 })
  else
    let out := (job.words.getD 2 0).toNat
    let put (m : Motif) : Motif := ((chainBlock job).zip ts).foldl (fun m (j, v) => m.pilPut (out + 4 * j) (leBytes v.toNat 4)) m
    let s := s.onMotif x.mid put
    if job.j + 32 < chainN job.lit then
      s.after d (.chainComplete c f { job with j := job.j + 32, i := 0, t := [], held := 0 })
    else State.complete c f [] (s.onCord c fun x => { x with chain := false })

/-- The vector unit of a slot is taken up to a cycle. -/
def State.takeVec (core slot until_ : Nat) (s : State) : State :=
  s.onCore core fun k => { k with vecFree := SMap.set 0 k.vecFree slot until_ }

/-- The sequencer's cycle (R143). In the cycle after one in which no form held the slot's vector unit the operation of
that cycle takes effect; when forms have held it, the sequencer takes the unit once it is free, before another form issues, so
that at least one cycle in four is its (DESIGN CHOICE in which one, log entry 52). Chains of several cords of one slot share the
sequencer operation by operation, in the order of the agenda (DESIGN CHOICE, log entry 63). After the last output word the flag decrements (R142). -/
def execChainComplete (s : State) : Out :=
  match s.now with
  | some (.chainComplete c f job) =>
    .next <|
      match s.cordRec c with
      | none => s
      | some x =>
        match s.findMotif x.mid with
        | none => s
        | some m =>
          let free := SMap.get 0 (s.coreOf x.core).vecFree x.slot
          if free < s.cycle then State.chainStep c f job 1 x m (s.takeVec x.core x.slot s.cycle)
          else if 1 ≤ job.held ∧ free ≤ s.cycle then State.chainStep c f job 2 x m (s.takeVec x.core x.slot (s.cycle + 1))
          else s.after 1 (.chainComplete c f { job with held := job.held + 1 })
  | _ => .next s

end Sys2Proof.Machine
end

