-- ==== Sys2Proof/Machine/Integer.lean ====
section
/-! DEFINITION. Integer.lean: integer and address arithmetic (R104 to R118). -/

namespace Sys2Proof.Machine

/-- A function of words of any width W. -/
abbrev Bin := (n : Nat) → BitVec n → BitVec n → BitVec n
abbrev Una := (n : Nat) → BitVec n → BitVec n

/-- Registers an operand spans in a form of width 32 or 64 (R107). -/
def span (w : Bool) : Nat := if w then 2 else 1

def binForm (lat : Lat) (w : Bool) (d : Wr) (a : Rd) (b : Src) : Form :=
  { lat := lat, vecs := wrVecs d (span w) ++ rdVecs a (span w) ++ srcVecs b (span w) }

/-- The writes of a two-operand form, per lane or once (R104, R110). -/
def binWrites (w : Bool) (g : Bin) (d : Wr) (a : Rd) (b : Src) (c : Cord) : List RegWrite :=
  if w then c.writes64 d fun l => g 64 (c.rd64 a l) (c.src64 b l)
  else c.writes32 d fun l => g 32 (c.rd a l) (c.src b l)

/-- A two-operand form (R110); only mul, mulh and mad have another class in their `.64` forms (R49). -/
def runBin (lat : Lat) (w : Bool) (g : Bin) (d : Wr) (a : Rd) (b : Src) (s : State) : Out :=
  runRegs (binForm lat w d a b) s (binWrites w g d a b)

def lat64 (w : Bool) : Lat := if w then .d10 else .i4

/-- An immediate form: the imm7 is zero-extended (R107). -/
def runImm (lat : Lat) (w : Bool) (g : Bin) (d : Wr) (a : Rd) (n : Imm) (s : State) : Out :=
  runRegs { lat := lat, vecs := wrVecs d (span w) ++ rdVecs a (span w) } s fun c =>
    if w then c.writes64 d fun l => g 64 (c.rd64 a l) (n.setWidth 64)
    else c.writes32 d fun l => g 32 (c.rd a l) (n.setWidth 32)

/-- A one-operand form (R111). -/
def runUna (w : Bool) (g : Una) (d : Wr) (a : Rd) (s : State) : Out :=
  runRegs { lat := .i4, vecs := wrVecs d (span w) ++ rdVecs a (span w) } s fun c =>
    if w then c.writes64 d fun l => g 64 (c.rd64 a l) else c.writes32 d fun l => g 32 (c.rd a l)

/-- A shift or rotate by a count c from 0 to 255 (R112). -/
abbrev Shift := (n : Nat) → BitVec n → Nat → BitVec n

/-- A shift whose count is B[7:0], never a pair (R112). -/
def runShift (w : Bool) (g : Shift) (d : Wr) (a : Rd) (b : Src) (s : State) : Out :=
  runRegs { lat := .i4, vecs := wrVecs d (span w) ++ rdVecs a (span w) ++ srcVecs b 1 } s fun c =>
    if w then c.writes64 d fun l => g 64 (c.rd64 a l) (fld (c.src b l) 0 8)
    else c.writes32 d fun l => g 32 (c.rd a l) (fld (c.src b l) 0 8)

def runShiftImm (w : Bool) (g : Shift) (d : Wr) (a : Rd) (n : Imm) (s : State) : Out :=
  runRegs { lat := .i4, vecs := wrVecs d (span w) ++ rdVecs a (span w) } s fun c =>
    if w then c.writes64 d fun l => g 64 (c.rd64 a l) n.toNat else c.writes32 d fun l => g 32 (c.rd a l) n.toNat

/-! Results of the two-operand forms (R110). -/

def addBv : Bin := fun _ a b => a + b
def subBv : Bin := fun _ a b => a - b
def mulBv : Bin := fun _ a b => a * b
/-- High W bits of the signed product. -/
def mulhBv : Bin := fun n a b => BitVec.ofInt n (a.toInt * b.toInt / 2 ^ n)
def minBv : Bin := fun _ a b => if b.slt a then b else a
def maxBv : Bin := fun _ a b => if a.slt b then b else a
def minuBv : Bin := fun _ a b => if b.ult a then b else a
def maxuBv : Bin := fun _ a b => if a.ult b then b else a
def andBv : Bin := fun _ a b => a &&& b
def orBv : Bin := fun _ a b => a ||| b
def xorBv : Bin := fun _ a b => a ^^^ b
def andnBv : Bin := fun _ a b => a &&& ~~~b
/-- The carry out of the unsigned sum. -/
def addcBv : Bin := fun n a b => if 2 ^ n ≤ a.toNat + b.toNat then 1 else 0

/-! Results of the one-operand forms (R111). -/

def negBv : Una := fun _ a => -a
def absBv : Una := fun _ a => if a.msb then -a else a
def notBv : Una := fun _ a => ~~~a
def movBv : Una := fun _ a => a
def popcBv : Una := fun n a => BitVec.ofNat n ((List.range n).filter fun i => a.getLsbD i).length
/-- Clear bits above the highest set bit. -/
def clzBv : Una := fun n a => if a = 0 then BitVec.ofNat n n else BitVec.ofNat n (n - 1 - a.toNat.log2)
/-- Clear bits below the lowest set bit. -/
def ctzBv : Una := fun n a => BitVec.ofNat n (((List.range n).find? fun i => a.getLsbD i).getD n)
def brevBv : Una := fun n a =>
  BitVec.ofNat n ((List.range n).map fun i => if a.getLsbD i then 2 ^ (n - 1 - i) else 0).sum

/-! Shifts and rotate (R112). -/

def shlBv : Shift := fun n a c => if n ≤ c then 0 else a <<< c
def shrBv : Shift := fun n a c => if n ≤ c then 0 else a >>> c
def sarBv : Shift := fun n a c => if n ≤ c then (if a.msb then BitVec.allOnes n else 0) else a.sshiftRight c
def rotBv : Shift := fun n a c => (a <<< (c % n)) ||| (a >>> (n - c % n))

/-! Division (R117). -/

def divuBv : Bin := fun n a b => if b = 0 then BitVec.allOnes n else BitVec.ofNat n (a.toNat / b.toNat)
def remuBv : Bin := fun n a b => if b = 0 then a else BitVec.ofNat n (a.toNat % b.toNat)
/-- Truncated quotient; the overflow of the minimum by -1 wraps to the minimum. -/
def divsBv : Bin := fun n a b => if b = 0 then BitVec.allOnes n else BitVec.ofInt n (a.toInt.tdiv b.toInt)
def remsBv : Bin := fun n a b => if b = 0 then a else BitVec.ofInt n (a.toInt.tmod b.toInt)

/-- add (R110). -/
def execAdd (w : Bool) (d : Wr) (a : Rd) (b : Src) (s : State) : Out := runBin .i4 w addBv d a b s

/-- sub (R110). -/
def execSub (w : Bool) (d : Wr) (a : Rd) (b : Src) (s : State) : Out := runBin .i4 w subBv d a b s

/-- min (R110). -/
def execMin (w : Bool) (d : Wr) (a : Rd) (b : Src) (s : State) : Out := runBin .i4 w minBv d a b s

/-- max (R110). -/
def execMax (w : Bool) (d : Wr) (a : Rd) (b : Src) (s : State) : Out := runBin .i4 w maxBv d a b s

/-- minu (R110). -/
def execMinu (w : Bool) (d : Wr) (a : Rd) (b : Src) (s : State) : Out := runBin .i4 w minuBv d a b s

/-- maxu (R110). -/
def execMaxu (w : Bool) (d : Wr) (a : Rd) (b : Src) (s : State) : Out := runBin .i4 w maxuBv d a b s

/-- and (R110). -/
def execAnd (w : Bool) (d : Wr) (a : Rd) (b : Src) (s : State) : Out := runBin .i4 w andBv d a b s

/-- or (R110). -/
def execOr (w : Bool) (d : Wr) (a : Rd) (b : Src) (s : State) : Out := runBin .i4 w orBv d a b s

/-- xor (R110). -/
def execXor (w : Bool) (d : Wr) (a : Rd) (b : Src) (s : State) : Out := runBin .i4 w xorBv d a b s

/-- andn (R110). -/
def execAndn (w : Bool) (d : Wr) (a : Rd) (b : Src) (s : State) : Out := runBin .i4 w andnBv d a b s

/-- addc (R110). -/
def execAddc (w : Bool) (d : Wr) (a : Rd) (b : Src) (s : State) : Out := runBin .i4 w addcBv d a b s

/-- mul (R110); D10 in its `.64` form (R108). -/
def execMul (w : Bool) (d : Wr) (a : Rd) (b : Src) (s : State) : Out := runBin (lat64 w) w mulBv d a b s

/-- mulh (R110); D10 in its `.64` form (R108). -/
def execMulh (w : Bool) (d : Wr) (a : Rd) (b : Src) (s : State) : Out := runBin (lat64 w) w mulhBv d a b s

/-- mad (R110): D is read as the addend. -/
def execMad (w : Bool) (d : Wr) (a : Rd) (b : Src) (s : State) : Out :=
  runRegs (binForm (lat64 w) w d a b) s fun c =>
    if w then c.writes64 d fun l => c.rd64 (wrRd d) l + c.rd64 a l * c.src64 b l
    else c.writes32 d fun l => c.rd (wrRd d) l + c.rd a l * c.src b l

/-- add with an imm7 (R110). -/
def execAddImm (w : Bool) (d : Wr) (a : Rd) (n : Imm) (s : State) : Out := runImm .i4 w addBv d a n s

/-- sub with an imm7 (R110). -/
def execSubImm (w : Bool) (d : Wr) (a : Rd) (n : Imm) (s : State) : Out := runImm .i4 w subBv d a n s

/-- mul with an imm7 (R110); D10 in its `.64` form. -/
def execMulImm (w : Bool) (d : Wr) (a : Rd) (n : Imm) (s : State) : Out := runImm (lat64 w) w mulBv d a n s

/-- min with an imm7 (R110). -/
def execMinImm (w : Bool) (d : Wr) (a : Rd) (n : Imm) (s : State) : Out := runImm .i4 w minBv d a n s

/-- max with an imm7 (R110). -/
def execMaxImm (w : Bool) (d : Wr) (a : Rd) (n : Imm) (s : State) : Out := runImm .i4 w maxBv d a n s

/-- minu with an imm7 (R110). -/
def execMinuImm (w : Bool) (d : Wr) (a : Rd) (n : Imm) (s : State) : Out := runImm .i4 w minuBv d a n s

/-- maxu with an imm7 (R110). -/
def execMaxuImm (w : Bool) (d : Wr) (a : Rd) (n : Imm) (s : State) : Out := runImm .i4 w maxuBv d a n s

/-- and with an imm7 (R110). -/
def execAndImm (w : Bool) (d : Wr) (a : Rd) (n : Imm) (s : State) : Out := runImm .i4 w andBv d a n s

/-- or with an imm7 (R110). -/
def execOrImm (w : Bool) (d : Wr) (a : Rd) (n : Imm) (s : State) : Out := runImm .i4 w orBv d a n s

/-- xor with an imm7 (R110). -/
def execXorImm (w : Bool) (d : Wr) (a : Rd) (n : Imm) (s : State) : Out := runImm .i4 w xorBv d a n s

/-- neg (R111). -/
def execNeg (w : Bool) (d : Wr) (a : Rd) (s : State) : Out := runUna w negBv d a s

/-- abs (R111). -/
def execAbs (w : Bool) (d : Wr) (a : Rd) (s : State) : Out := runUna w absBv d a s

/-- not (R111). -/
def execNot (w : Bool) (d : Wr) (a : Rd) (s : State) : Out := runUna w notBv d a s

/-- mov (R111). -/
def execMov (w : Bool) (d : Wr) (a : Rd) (s : State) : Out := runUna w movBv d a s

/-- popc (R111). -/
def execPopc (w : Bool) (d : Wr) (a : Rd) (s : State) : Out := runUna w popcBv d a s

/-- clz (R111). -/
def execClz (w : Bool) (d : Wr) (a : Rd) (s : State) : Out := runUna w clzBv d a s

/-- ctz (R111). -/
def execCtz (w : Bool) (d : Wr) (a : Rd) (s : State) : Out := runUna w ctzBv d a s

/-- brev (R111). -/
def execBrev (w : Bool) (d : Wr) (a : Rd) (s : State) : Out := runUna w brevBv d a s

/-- shl (R112). -/
def execShl (w : Bool) (d : Wr) (a : Rd) (b : Src) (s : State) : Out := runShift w shlBv d a b s

/-- shl by an imm7 (R112). -/
def execShlImm (w : Bool) (d : Wr) (a : Rd) (n : Imm) (s : State) : Out := runShiftImm w shlBv d a n s

/-- shr (R112). -/
def execShr (w : Bool) (d : Wr) (a : Rd) (b : Src) (s : State) : Out := runShift w shrBv d a b s

/-- shr by an imm7 (R112). -/
def execShrImm (w : Bool) (d : Wr) (a : Rd) (n : Imm) (s : State) : Out := runShiftImm w shrBv d a n s

/-- sar (R112). -/
def execSar (w : Bool) (d : Wr) (a : Rd) (b : Src) (s : State) : Out := runShift w sarBv d a b s

/-- sar by an imm7 (R112). -/
def execSarImm (w : Bool) (d : Wr) (a : Rd) (n : Imm) (s : State) : Out := runShiftImm w sarBv d a n s

/-- rot (R112). -/
def execRot (w : Bool) (d : Wr) (a : Rd) (b : Src) (s : State) : Out := runShift w rotBv d a b s

/-- rot by an imm7 (R112). -/
def execRotImm (w : Bool) (d : Wr) (a : Rd) (n : Imm) (s : State) : Out := runShiftImm w rotBv d a n s

/-- movl (R111): the 32-bit literal. -/
def execMovl (d : Wr) (lit : Word) (s : State) : Out :=
  runRegs { lat := .i4, vecs := wrVecs d 1 } s fun c => c.writes32 d fun _ => lit

/-- Position and length of a bit field: from the literal, or per lane from B (R113). -/
def fieldOf (lit b : Word) : Nat × Nat := if bit lit 14 then (fld b 0 8, fld b 8 8) else (fld lit 0 6, fld lit 6 7)

/-- bfx (R113): bits at or above W belong to no field. -/
def bfxBv (n : Nat) (sgn : Bool) (p k : Nat) (a : BitVec n) : BitVec n :=
  let f := (a.toNat >>> p) % 2 ^ k
  if sgn then sextTo n f k else BitVec.ofNat n f

/-- bfi (R113). -/
def bfiBv (n p k : Nat) (a d : BitVec n) : BitVec n :=
  let m : BitVec n := BitVec.ofNat n ((2 ^ k - 1) * 2 ^ p)
  (d &&& ~~~m) ||| (BitVec.ofNat n (a.toNat * 2 ^ p) &&& m)

def fieldForm (w : Bool) (d : Wr) (a b : Rd) : Form :=
  { lat := .i4, vecs := wrVecs d (span w) ++ rdVecs a (span w) ++ rdVecs b 1 }

/-- bfx (R113). -/
def execBfx (w : Bool) (d : Wr) (a b : Rd) (lit : Word) (s : State) : Out :=
  runRegs (fieldForm w d a b) s fun c =>
    let g (n : Nat) (l : Nat) (x : BitVec n) : BitVec n :=
      bfxBv n (bit lit 13) (fieldOf lit (c.rd b l)).1 (fieldOf lit (c.rd b l)).2 x
    if w then c.writes64 d fun l => g 64 l (c.rd64 a l) else c.writes32 d fun l => g 32 l (c.rd a l)

/-- bfi (R113): D is read and written. -/
def execBfi (w : Bool) (d : Wr) (a b : Rd) (lit : Word) (s : State) : Out :=
  runRegs (fieldForm w d a b) s fun c =>
    let g (n : Nat) (l : Nat) (x y : BitVec n) : BitVec n :=
      bfiBv n (fieldOf lit (c.rd b l)).1 (fieldOf lit (c.rd b l)).2 x y
    if w then c.writes64 d fun l => g 64 l (c.rd64 a l) (c.rd64 (wrRd d) l)
    else c.writes32 d fun l => g 32 l (c.rd a l) (c.rd (wrRd d) l)

/-- One result byte of prmt: a byte of A or B, or its sign spread over the byte (R114). -/
def prmtByte (a b : Word) (sel : Nat) : Nat :=
  let x := fld (pair64 a b) (8 * (sel % 8)) 8
  if 8 ≤ sel then (if 128 ≤ x then 255 else 0) else x

/-- prmt (R114). -/
def execPrmt (d : Wr) (a b : Rd) (lit : Word) (s : State) : Out :=
  runRegs { lat := .i4, vecs := wrVecs d 1 ++ rdVecs a 1 ++ rdVecs b 1 } s fun c =>
    c.writes32 d fun l =>
      BitVec.ofNat 32 ((List.range 4).map fun i => prmtByte (c.rd a l) (c.rd b l) (fld lit (4 * i) 4) * 2 ^ (8 * i)).sum

def selForm (w : Bool) (d : Wr) (a b : Rd) : Form :=
  { lat := .i4, vecs := wrVecs d (span w) ++ rdVecs a (span w) ++ rdVecs b (span w) }

/-- sel (R115). -/
def execSel (w : Bool) (d : Wr) (a b : Rd) (lit : Word) (s : State) : Out :=
  runRegs (selForm w d a b) s fun c =>
    let p (l : Nat) : Rd := if bit (c.kreg (fld lit 0 4)) l then a else b
    if w then c.writes64 d fun l => c.rd64 (p l) l else c.writes32 d fun l => c.rd (p l) l

/-- The condition of a compare in lane l; under cord execution every lane has the lowest active lane's (R115). -/
def cmpAt (w : Bool) (d : Wr) (a b : Rd) (cc : Nat) (c : Cord) (l : Nat) : Bool :=
  let l := match d with | .v _ => l | .s _ => lowest c.act
  if w then icond cc (c.rd64 a l) (c.rd64 b l) else icond cc (c.rd a l) (c.rd b l)

/-- The writes of cmp and cmpv: t gives 1, or all ones (R115). -/
def cmpWrites (ones w : Bool) (d : Wr) (a b : Rd) (lit : Word) (c : Cord) : List RegWrite :=
  let t := cmpAt w d a b (fld lit 0 4) c
  (if w then c.writes64 d fun l => if t l then (if ones then BitVec.allOnes 64 else 1) else 0
   else c.writes32 d fun l => if t l then (if ones then BitVec.allOnes 32 else 1) else 0)
  ++ c.maskMerge (fld lit 4 4) t

/-- cmp (R115). -/
def execCmp (w : Bool) (d : Wr) (a b : Rd) (lit : Word) (s : State) : Out :=
  runRegs (selForm w d a b) s (cmpWrites false w d a b lit)

/-- cmpv (R115). -/
def execCmpv (w : Bool) (d : Wr) (a b : Rd) (lit : Word) (s : State) : Out :=
  runRegs (selForm w d a b) s (cmpWrites true w d a b lit)

/-- lea (R116). -/
def leaBv (a : Dword) (b lit : Word) : Dword :=
  let x : Dword := if bit lit 3 then b.signExtend 64 else b.setWidth 64
  a + (x <<< fld lit 0 3) + sextTo 64 (fld lit 8 24) 24

/-- lea (R116): a pair base, a scaled 32-bit index and a displacement. -/
def execLea (d : Wr) (a b : Rd) (lit : Word) (s : State) : Out :=
  runRegs { lat := .i4, vecs := wrVecs d 2 ++ rdVecs a 2 ++ rdVecs b 1 } s fun c =>
    c.writes64 d fun l => leaBv (c.rd64 a l) (c.rd b l) lit

/-- A divide: the slot's unit takes it every 8 or 16 cycles, and it writes 24 or 40 cycles later (R118); the
unit is busy for the width it has just taken, whatever width follows (DEDUCED, log entry 52). -/
def runDiv (w : Bool) (g : Bin) (d : Wr) (a : Rd) (b : Src) (s : State) : Out :=
  runForm (binForm .v w d a b) s fun s =>
    let c := s.cord
    if s.cycle < SMap.get 0 (s.coreOf c.core).divFree c.slot then .stall {} s
    else
      let s := s.onCore c.core fun x =>
        { x with divFree := SMap.set 0 x.divFree c.slot (s.cycle + if w then 16 else 8) }
      .done (s.after (if w then 40 else 24) (.divideComplete c.cid c.flag (binWrites w g d a b c)))

/-- divu (R117, R118). -/
def execDivu (w : Bool) (d : Wr) (a : Rd) (b : Src) (s : State) : Out := runDiv w divuBv d a b s

/-- divs (R117, R118). -/
def execDivs (w : Bool) (d : Wr) (a : Rd) (b : Src) (s : State) : Out := runDiv w divsBv d a b s

/-- remu (R117, R118). -/
def execRemu (w : Bool) (d : Wr) (a : Rd) (b : Src) (s : State) : Out := runDiv w remuBv d a b s

/-- rems (R117, R118). -/
def execRems (w : Bool) (d : Wr) (a : Rd) (b : Src) (s : State) : Out := runDiv w remsBv d a b s

/-- A divide writes its lanes, or its scalar D, and its flag decrements in the same cycle (R118). -/
def execDivideComplete (s : State) : Out :=
  match s.now with
  | some (.divideComplete c f ws) =>
    .next (s.complete c f ws)
  | _ => .next s

end Sys2Proof.Machine
end

