-- ==== Sys2Proof/Machine/Special.lean ====
section
/-! DEFINITION. Special.lean: fexp2, flog2, fsin, fcos and ftanh as exact values rounded once (R123, R129).
Each exact value is enclosed between two fixed-point numbers; where both ends round to one encoding, that is the
correctly rounded result, and where they do not the enclosure is taken again with twice the fraction bits (log entry 7). -/

namespace Sys2Proof.Machine

/-- An enclosure of a non-negative real: lo ≤ x × 2^p ≤ hi. -/
structure Encl where
  lo : Nat
  hi : Nat
  deriving DecidableEq, Repr

/-- Fraction bits of the enclosures of exp, log and tanh. -/
def encP : Nat := 256

/-- Product of two enclosures at p fraction bits. -/
def Encl.mul (p : Nat) (a b : Encl) : Encl := ⟨a.lo * b.lo / 2 ^ p, a.hi * b.hi / 2 ^ p + 1⟩

/-- Quotient by a positive whole number. -/
def Encl.divNat (a : Encl) (n : Nat) : Encl := ⟨a.lo / n, a.hi / n + 1⟩

def Encl.add (a b : Encl) : Encl := ⟨a.lo + b.lo, a.hi + b.hi⟩

/-- a - b for a value that is not negative. -/
def Encl.sub (a b : Encl) : Encl := ⟨a.lo - b.hi, a.hi - b.lo⟩

/-- Quotient of two enclosures at p fraction bits, the divisor above 0. -/
def Encl.div (p : Nat) (a b : Encl) : Encl := ⟨a.lo * 2 ^ p / b.hi, a.hi * 2 ^ p / b.lo + 1⟩

def Encl.one (p : Nat) : Encl := ⟨2 ^ p, 2 ^ p⟩

/-- 2 × atanh(1 / k) = sum of 2 / ((2i + 1) k^(2i + 1)), n terms and a bound on the rest. -/
def atanhInv (p k n : Nat) : Encl :=
  let go : Nat → Nat := fun n => ((List.range n).map fun i => 2 ^ (p + 1) / ((2 * i + 1) * k ^ (2 * i + 1))).sum
  ⟨go n, go n + n + 2⟩

/-- ln 2 = 2 atanh(1/3). -/
def ln2 (p : Nat) : Encl := atanhInv p 3 (p / 3 + 8)

/-- atan(1 / k) by its alternating series, as an enclosure. -/
def atanInv (p k n : Nat) : Encl :=
  let term (i : Nat) : Nat := 2 ^ p / ((2 * i + 1) * k ^ (2 * i + 1))
  let pos := ((List.range n).map fun i => if i % 2 = 0 then term i else 0).sum
  let neg := ((List.range n).map fun i => if i % 2 = 1 then term i else 0).sum
  ⟨pos - neg - n - 2, pos - neg + n + 2⟩

/-- π = 16 atan(1/5) - 4 atan(1/239). -/
def piEncl (p : Nat) : Encl :=
  let a := atanInv p 5 (p / 4 + 8)
  let b := atanInv p 239 (p / 15 + 8)
  ⟨16 * a.lo - 4 * b.hi, 16 * a.hi - 4 * b.lo⟩

/-- Sum of the Taylor terms of e^y for an enclosure of y in [0, 1), n terms and a bound on the rest. -/
def expTaylor (p : Nat) (y : Encl) : Nat → Nat → Encl → Encl
  | 0, _, t => ⟨0, 2 * t.hi + 1⟩
  | n + 1, k, t => t.add (expTaylor p y n (k + 1) ((t.mul p y).divNat (k + 1)))

/-- e^y for an enclosure of y in [0, 1). -/
def expEncl (p : Nat) (y : Encl) : Encl := expTaylor p y (p * 35 / 128) 0 (Encl.one p)

/-- Sum of alternating Taylor terms from t on: even powers for cos, odd for sin; y2 encloses y², y in [0, 1]. -/
def trigSum (p : Nat) (y2 : Encl) : Nat → Nat → Encl → Encl × Encl
  | 0, _, t => (⟨0, 2 * t.hi + 1⟩, ⟨0, 2 * t.hi + 1⟩)
  | n + 1, k, t =>
    let next := ((t.mul p y2).divNat (k + 1)).divNat (k + 2)
    let (pos, neg) := trigSum p y2 n (k + 2) next
    (t.add neg, pos)

def sinEncl (p : Nat) (y : Encl) : Encl :=
  let (a, b) := trigSum p (y.mul p y) (p * 3 / 32) 1 y
  a.sub b

def cosEncl (p : Nat) (y : Encl) : Encl :=
  let (a, b) := trigSum p (y.mul p y) (p * 3 / 32) 0 (Encl.one p)
  a.sub b

/-- ln(1 + u) pieces: 2 atanh(z) for an enclosure of z in [0, 1/3], n terms and a bound on the rest. -/
def atanhSum (p : Nat) (z2 : Encl) : Nat → Nat → Encl → Encl
  | 0, _, t => ⟨0, 2 * t.hi + 1⟩
  | n + 1, k, t => (t.divNat k).add (atanhSum p z2 n (k + 2) (t.mul p z2))

/-- ln(m / 2^f) for 2^f ≤ m < 2^(f + 1). -/
def lnEncl (p m f : Nat) : Encl :=
  let z : Encl := ⟨(m - 2 ^ f) * 2 ^ p / (m + 2 ^ f), (m - 2 ^ f) * 2 ^ p / (m + 2 ^ f) + 1⟩
  let s := atanhSum p (z.mul p z) (p / 3 + 8) 1 z
  ⟨2 * s.lo, 2 * s.hi⟩

/-- An exact magnitude times 2^e rounded once to FP32 (R123): v encloses the magnitude to any number p of fraction bits,
and p doubles, as often as the first number says, until both ends round to one encoding (log entry 7). -/
def roundEncl (rz neg : Bool) (e : Int) (v : Nat → Encl) : Nat → Nat → Word
  | 0, p => BitVec.ofNat 32 (fp32.flush rz (fp32.round true .rne false neg (v p).lo 1 (e - p)))
  | n + 1, p =>
    let x := v p
    let r (k : Nat) : Nat := fp32.round true .rne false neg k 1 (e - p)
    if x.lo ≠ 0 ∧ r x.lo = r x.hi then BitVec.ofNat 32 (fp32.flush rz (r x.lo)) else roundEncl rz neg e v n (2 * p)

/-- How often the precision of an enclosure doubles (log entry 7). -/
def encFuel : Nat := 16

/-- Absolute value of a finite operand as a fixed-point enclosure of p fraction bits. -/
def fixEncl (p m : Nat) (e : Int) : Encl :=
  let (n, d) := scaled m 1 (e + p)
  if n % d = 0 then ⟨n / d, n / d⟩ else ⟨n / d, n / d + 1⟩

/-- 2^v for an exact finite v = k + f: 2^k × e^(f ln 2), rounded once (R123, R303). -/
def exp2Num (rz : Bool) (s : Bool) (m : Nat) (e : Int) : Word :=
  if m = 0 then BitVec.ofNat 32 (fp32.encode true .rne false (.fin false 1 0))
  else if 10 < floorLog2 m 1 e then
    (if s then BitVec.ofNat 32 (fp32.flush rz (fp32.round true .rne false false 1 1 (-400)))
     else BitVec.ofNat 32 (fp32.infBits false))
  else
    -- every finite FP32 value, and the difference of two, is a whole multiple of 2^-160
    let q : Int := (if s then -1 else 1) * (m * pow2 (e + 160) : Nat)
    let k := q / 2 ^ 160
    let f := (q % 2 ^ 160).toNat
    if f = 0 then BitVec.ofNat 32 (fp32.flush rz (fp32.round true .rne false false 1 1 k))
    else
      let v (p : Nat) : Encl :=
        let y : Encl := ⟨f * 2 ^ (p - 160), f * 2 ^ (p - 160)⟩
        expEncl p (y.mul p (ln2 p))
      roundEncl rz false k v encFuel encP

/-- fexp2 (R123). -/
def fexp2Of (oz rz : Bool) (x : Word) : Word :=
  match fp32.decode (fp32.flush oz x.toNat) with
  | .nan => BitVec.ofNat 32 fp32.nanBits
  | .inf s => if s then 0 else BitVec.ofNat 32 (fp32.infBits false)
  | .fin s m e => exp2Num rz s m e

/-- flog2 (R123): e + ln(m) / ln 2. -/
def flog2Of (oz rz : Bool) (x : Word) : Word :=
  match fp32.decode (fp32.flush oz x.toNat) with
  | .nan => BitVec.ofNat 32 fp32.nanBits
  | .inf s => BitVec.ofNat 32 (if s then fp32.nanBits else fp32.infBits false)
  | .fin s m e =>
    if m = 0 then BitVec.ofNat 32 (fp32.infBits true)
    else if s then BitVec.ofNat 32 fp32.nanBits
    else
      let f := m.log2
      let k : Int := e + f
      if m = 2 ^ f then BitVec.ofNat 32 (fp32.encode true .rne false (ofInt k))
      else
        let v (p : Nat) : Encl :=
          let l := (lnEncl p m f).div p (ln2 p)
          let n := k.natAbs * 2 ^ p
          if 0 ≤ k then l.add ⟨n, n⟩ else Encl.sub ⟨n, n⟩ l
        roundEncl rz (decide (k < 0)) 0 v encFuel encP

/-- Fraction bits of the argument reduction of fsin and fcos. -/
def trigP : Nat := 640

/-- q of |x| = q × π/2 + y with 0 ≤ y < π/2. -/
def trigQuadrant (m : Nat) (e : Int) : Nat := 2 * (fixEncl trigP m e).lo / (piEncl trigP).hi

/-- y of |x| = q × π/2 + y, by an enclosure of p fraction bits. -/
def trigRest (p q m : Nat) (e : Int) : Encl :=
  let pi := piEncl p
  (fixEncl p m e).sub ⟨q * pi.lo / 2, q * pi.hi / 2 + 1⟩

/-- fsin and fcos (R123): the exact value by quadrant, rounded once. -/
def ftrigOf (cosine : Bool) (oz rz : Bool) (x : Word) : Word :=
  match fp32.decode (fp32.flush oz x.toNat) with
  | .nan => BitVec.ofNat 32 fp32.nanBits
  | .inf _ => BitVec.ofNat 32 fp32.nanBits
  | .fin s m e =>
    if m = 0 then BitVec.ofNat 32 (if cosine then fp32.encode true .rne false (.fin false 1 0) else fp32.signBit s)
    else
      let q := trigQuadrant m e
      let turn := if cosine then (q + 1) % 4 else q % 4
      let neg := (if cosine then false else s) != decide (2 ≤ turn)
      let v (p : Nat) : Encl := if turn % 2 = 0 then sinEncl p (trigRest p q m e) else cosEncl p (trigRest p q m e)
      roundEncl rz neg 0 v encFuel trigP

/-- ftanh (R123): (E - 1) / (E + 1) with E = e^(2|x|); above 16 it rounds to 1. -/
def ftanhOf (oz rz : Bool) (x : Word) : Word :=
  match fp32.decode (fp32.flush oz x.toNat) with
  | .nan => BitVec.ofNat 32 fp32.nanBits
  | .inf s => BitVec.ofNat 32 (fp32.encode true .rne false (.fin s 1 0))
  | .fin s m e =>
    if m = 0 then BitVec.ofNat 32 (fp32.signBit s)
    else if 4 ≤ floorLog2 m 1 e then BitVec.ofNat 32 (fp32.encode true .rne false (.fin s 1 0))
    else
      -- E = (e^(2|x| / 32))^32; the numerator is enclosed at a scale that keeps small operands exact enough
      let v (p : Nat) : Encl :=
        let t := expEncl p ((fixEncl p m (e + 1)).divNat 32)
        let t2 := t.mul p t
        let t4 := t2.mul p t2
        let t8 := t4.mul p t4
        let t16 := t8.mul p t8
        let t32 := t16.mul p t16
        (t32.sub (Encl.one p)).div p (t32.add (Encl.one p))
      roundEncl rz s 0 v encFuel 512

end Sys2Proof.Machine
end

