-- ==== Sys2Proof/Machine/VectorFloat.lean ====
section
/-! DEFINITION. VectorFloat.lean: FP32, FP64 and paired FP16 arithmetic, comparison, the special-function forms
and fpctl (R119 to R132). -/

namespace Sys2Proof.Machine

/-- Operand and result flush bits of FP16, FP32 and FP64 in fpctl (R66, R120). -/
def Cord.oz (c : Cord) (code : Nat) : Bool := ofz c.fpctl code
def Cord.rz (c : Cord) (code : Nat) : Bool := rfz c.fpctl code

/-- The vector-unit form of three operands of k registers each (R121). -/
def vecForm (lat : Lat) (cyc k : Nat) (d : Wr) (a : Rd) (b : Src) : Form :=
  { lat := lat, unit := .vec cyc, vecs := wrVecs d k ++ rdVecs a k ++ srcVecs b k }

/-- An FP32 literal widened exactly to FP64 (R30, R43). -/
def widen (x : Word) : Dword := BitVec.ofNat 64 (fp64.encode true .rne false (fp32.decode x.toNat))

/-- Operand B of an FP64 form (R43). -/
def Cord.srcF64 (c : Cord) (b : Src) (l : Nat) : Dword :=
  match b with
  | .reg r => c.rd64 r l
  | .lit x => widen x

/-- An FP32 form of A, B and D, with fpctl as at issue (R119, R124). -/
def runF32 (g : Bool → Bool → Nat → Nat → Nat → Nat) (d : Wr) (a : Rd) (b : Src) (s : State) : Out :=
  runRegs (vecForm .f6 1 1 d a b) s fun c =>
    c.writes32 d fun l =>
      BitVec.ofNat 32 (g (c.oz 10) (c.rz 10) (c.rd a l).toNat (c.src b l).toNat (c.rd (wrRd d) l).toNat)

/-- An FP64 form (R130). -/
def runF64 (g : Bool → Bool → Nat → Nat → Nat → Nat) (d : Wr) (a : Rd) (b : Src) (s : State) : Out :=
  runRegs (vecForm .d10 2 2 d a b) s fun c =>
    c.writes64 d fun l =>
      BitVec.ofNat 64 (g (c.oz 11) (c.rz 11) (c.rd64 a l).toNat (c.srcF64 b l).toNat (c.rd64 (wrRd d) l).toNat)

/-- A paired FP16 form: each half alone (R131). -/
def runF16 (g : Bool → Bool → Nat → Nat → Nat → Nat) (d : Wr) (a : Rd) (b : Src) (s : State) : Out :=
  runRegs (vecForm .f6 1 1 d a b) s fun c =>
    c.writes32 d fun l =>
      let h (i : Nat) : Nat :=
        g (c.oz 8) (c.rz 8) (fld (c.rd a l) (16 * i) 16) (fld (c.src b l) (16 * i) 16) (fld (c.rd (wrRd d) l) (16 * i) 16)
      BitVec.ofNat 32 (h 0 + h 1 * 2 ^ 16)

/-- Results of the arithmetic forms on flush bits, A, B and D, for any IEEE-style format (R120, R124). -/
def opAdd (f : Ieee) (oz rz : Bool) (a b _d : Nat) : Nat := f.op2 oz rz Num.add a b
def opSub (f : Ieee) (oz rz : Bool) (a b _d : Nat) : Nat := f.op2 oz rz (fun x y => Num.add x y.neg) a b
def opMul (f : Ieee) (oz rz : Bool) (a b _d : Nat) : Nat := f.op2 oz rz Num.mul a b
def opFma (f : Ieee) (oz rz : Bool) (a b d : Nat) : Nat := f.fma oz rz a b d
def opMin (f : Ieee) (oz rz : Bool) (a b _d : Nat) : Nat := f.minmaxZ oz rz false a b
def opMax (f : Ieee) (oz rz : Bool) (a b _d : Nat) : Nat := f.minmaxZ oz rz true a b

/-- fadd (R124). -/
def execFadd (d : Wr) (a : Rd) (b : Src) (s : State) : Out := runF32 (opAdd fp32) d a b s

/-- fsub (R124). -/
def execFsub (d : Wr) (a : Rd) (b : Src) (s : State) : Out := runF32 (opSub fp32) d a b s

/-- fmul (R124). -/
def execFmul (d : Wr) (a : Rd) (b : Src) (s : State) : Out := runF32 (opMul fp32) d a b s

/-- ffma (R124). -/
def execFfma (d : Wr) (a : Rd) (b : Src) (s : State) : Out := runF32 (opFma fp32) d a b s

/-- fmin (R124). -/
def execFmin (d : Wr) (a : Rd) (b : Src) (s : State) : Out := runF32 (opMin fp32) d a b s

/-- fmax (R124). -/
def execFmax (d : Wr) (a : Rd) (b : Src) (s : State) : Out := runF32 (opMax fp32) d a b s

/-- dadd (R130). -/
def execDadd (d : Wr) (a : Rd) (b : Src) (s : State) : Out := runF64 (opAdd fp64) d a b s

/-- dsub (R130). -/
def execDsub (d : Wr) (a : Rd) (b : Src) (s : State) : Out := runF64 (opSub fp64) d a b s

/-- dmul (R130). -/
def execDmul (d : Wr) (a : Rd) (b : Src) (s : State) : Out := runF64 (opMul fp64) d a b s

/-- dfma (R130). -/
def execDfma (d : Wr) (a : Rd) (b : Src) (s : State) : Out := runF64 (opFma fp64) d a b s

/-- dmin (R130). -/
def execDmin (d : Wr) (a : Rd) (b : Src) (s : State) : Out := runF64 (opMin fp64) d a b s

/-- dmax (R130). -/
def execDmax (d : Wr) (a : Rd) (b : Src) (s : State) : Out := runF64 (opMax fp64) d a b s

/-- hadd2 (R131). -/
def execHadd2 (d : Wr) (a : Rd) (b : Src) (s : State) : Out := runF16 (opAdd fp16) d a b s

/-- hmul2 (R131). -/
def execHmul2 (d : Wr) (a : Rd) (b : Src) (s : State) : Out := runF16 (opMul fp16) d a b s

/-- hfma2 (R131). -/
def execHfma2 (d : Wr) (a : Rd) (b : Src) (s : State) : Out := runF16 (opFma fp16) d a b s

def unaForm (d : Wr) (a : Rd) : Form := { lat := .f6, unit := .vec 1, vecs := wrVecs d 1 ++ rdVecs a 1 }

/-- fneg (R125): bit 31 inverted, fpctl not read. -/
def execFneg (d : Wr) (a : Rd) (s : State) : Out :=
  runRegs (unaForm d a) s fun c => c.writes32 d fun l => c.rd a l ^^^ 0x80000000

/-- fabs (R125). -/
def execFabs (d : Wr) (a : Rd) (s : State) : Out :=
  runRegs (unaForm d a) s fun c => c.writes32 d fun l => c.rd a l &&& 0x7FFFFFFF

/-- The writes of fcmp and dcmp from the condition per lane; under cord execution it is made once (R126). -/
def fcmpWrites (d : Wr) (lit : Word) (c : Cord) (cond : Nat → Bool) : List RegWrite :=
  let t (l : Nat) : Bool := cond (match d with | .v _ => l | .s _ => lowest c.act)
  c.writes32 d (fun l => if t l then (if bit lit 8 then 0xFFFFFFFF else 1) else 0) ++ c.maskMerge (fld lit 4 4) t

/-- fcmp (R126). -/
def execFcmp (d : Wr) (a b : Rd) (lit : Word) (s : State) : Out :=
  runRegs { lat := .f6, unit := .vec 1, vecs := wrVecs d 1 ++ rdVecs a 1 ++ rdVecs b 1 } s fun c =>
    let v (x : Word) : Num := fp32.decode (fp32.flush (c.oz 10) x.toNat)
    fcmpWrites d lit c fun l => fcond (fld lit 0 4) (v (c.rd a l)) (v (c.rd b l))

/-- dcmp (R126). -/
def execDcmp (d : Wr) (a b : Rd) (lit : Word) (s : State) : Out :=
  runRegs { lat := .d10, unit := .vec 2, vecs := wrVecs d 1 ++ rdVecs a 2 ++ rdVecs b 2 } s fun c =>
    let v (x : Dword) : Num := fp64.decode (fp64.flush (c.oz 11) x.toNat)
    fcmpWrites d lit c fun l => fcond (fld lit 0 4) (v (c.rd64 a l)) (v (c.rd64 b l))

/-- fclass (R127): the mask of tclass on the flushed operand; the sign bit follows A. -/
def execFclass (d : Wr) (a : Rd) (s : State) : Out :=
  runRegs (unaForm d a) s fun c => c.writes32 d fun l => tclassMask 10 (fp32.flush (c.oz 10) (c.rd a l).toNat)

/-- The rounding mode of a code 0 rne, 1 rz, 2 ru, 3 rd (R128). -/
def rmOf (n : Nat) : Rm := match n with | 0 => .rne | 1 => .rz | 2 => .ru | _ => .rd

/-- frnd (R128). -/
def execFrnd (d : Wr) (a : Rd) (n : Imm) (s : State) : Out :=
  runRegs (unaForm d a) s fun c =>
    c.writes32 d fun l => BitVec.ofNat 32 (frnd32 (c.oz 10) (c.rz 10) (rmOf n.toNat) (c.rd a l).toNat)

/-- A special-function form: the slot's unit accepts one every `every` cycles, and the result with the flag
comes `result` cycles later (R122). Between two different forms the interval is that of the one taken first (DEDUCED, log
entry 63). -/
def runSfu (every result : Nat) (vs : List (Nat × Nat)) (ws : Cord → List RegWrite) (s : State) : Out :=
  runForm { lat := .v, vecs := vs } s fun s =>
    let c := s.cord
    if s.cycle < SMap.get 0 (s.coreOf c.core).sfuFree c.slot then .stall {} s
    else
      let s := s.onCore c.core fun x => { x with sfuFree := SMap.set 0 x.sfuFree c.slot (s.cycle + every) }
      .done (s.after result (.specialFunctionComplete c.cid c.flag (ws c)))

/-- A one-operand FP32 special function (R129). -/
def runSfu1 (result : Nat) (g : Bool → Bool → Word → Word) (d : Wr) (a : Rd) (s : State) : Out :=
  runSfu 4 result (wrVecs d 1 ++ rdVecs a 1) (fun c => c.writes32 d fun l => g (c.oz 10) (c.rz 10) (c.rd a l)) s

/-- 1.0 in a format. -/
def Ieee.oneBits (f : Ieee) : Nat := f.bias.toNat * 2 ^ f.fb

/-- fdiv (R129). -/
def execFdiv (d : Wr) (a : Rd) (b : Src) (s : State) : Out :=
  runSfu 8 28 (wrVecs d 1 ++ rdVecs a 1 ++ srcVecs b 1) (fun c =>
    c.writes32 d fun l => BitVec.ofNat 32 (fp32.div (c.oz 10) (c.rz 10) (c.rd a l).toNat (c.src b l).toNat)) s

/-- frcp (R129). -/
def execFrcp (d : Wr) (a : Rd) (s : State) : Out :=
  runSfu1 20 (fun oz rz x => BitVec.ofNat 32 (fp32.div oz rz fp32.oneBits x.toNat)) d a s

/-- frsq (R129). -/
def execFrsq (d : Wr) (a : Rd) (s : State) : Out :=
  runSfu1 20 (fun oz rz x => BitVec.ofNat 32 (fp32.rsqrt oz rz x.toNat)) d a s

/-- fsqrt (R129). -/
def execFsqrt (d : Wr) (a : Rd) (s : State) : Out :=
  runSfu1 20 (fun oz rz x => BitVec.ofNat 32 (fp32.sqrt oz rz x.toNat)) d a s

/-- fexp2 (R129). -/
def execFexp2 (d : Wr) (a : Rd) (s : State) : Out := runSfu1 20 fexp2Of d a s

/-- flog2 (R129). -/
def execFlog2 (d : Wr) (a : Rd) (s : State) : Out := runSfu1 20 flog2Of d a s

/-- fsin (R129). -/
def execFsin (d : Wr) (a : Rd) (s : State) : Out := runSfu1 24 (ftrigOf false) d a s

/-- fcos (R129). -/
def execFcos (d : Wr) (a : Rd) (s : State) : Out := runSfu1 24 (ftrigOf true) d a s

/-- ftanh (R129). -/
def execFtanh (d : Wr) (a : Rd) (s : State) : Out := runSfu1 24 ftanhOf d a s

/-- ddiv (R129). -/
def execDdiv (d : Wr) (a b : Rd) (s : State) : Out :=
  runSfu 16 44 (wrVecs d 2 ++ rdVecs a 2 ++ rdVecs b 2) (fun c =>
    c.writes64 d fun l => BitVec.ofNat 64 (fp64.div (c.oz 11) (c.rz 11) (c.rd64 a l).toNat (c.rd64 b l).toNat)) s

/-- dsqrt (R129). -/
def execDsqrt (d : Wr) (a : Rd) (s : State) : Out :=
  runSfu 16 44 (wrVecs d 2 ++ rdVecs a 2) (fun c =>
    c.writes64 d fun l => BitVec.ofNat 64 (fp64.sqrt (c.oz 11) (c.rz 11) (c.rd64 a l).toNat)) s

/-- A special-function result is written and its flag decrements in the same cycle (R122). -/
def execSpecialFunctionComplete (s : State) : Out :=
  match s.now with
  | some (.specialFunctionComplete c f ws) =>
    .next (s.complete c f ws)
  | _ => .next s

/-- fpcr (R132). -/
def execFpcr (d : Wr) (s : State) : Out :=
  runRegs { lat := .i4, vecs := wrVecs d 1 } s fun c => c.writes32 d fun _ => c.fpctl.setWidth 32

/-- fpctl is written cord-wide, for the forms issued after it (R132). -/
def runFpctl (a : Rd) (g : Byte → Byte → Byte) (s : State) : Out :=
  runForm { lat := .i4, vecs := rdVecs a 1 } s fun s =>
    .done (s.onSelf fun c => { c with fpctl := g c.fpctl ((c.once a).setWidth 8) })

/-- fpcw (R132). -/
def execFpcw (a : Rd) (s : State) : Out := runFpctl a (fun _ x => x) s

/-- fpcs (R132). -/
def execFpcs (a : Rd) (s : State) : Out := runFpctl a (fun f x => f ||| x) s

/-- fpcc (R132). -/
def execFpcc (a : Rd) (s : State) : Out := runFpctl a (fun f x => f &&& ~~~x) s

end Sys2Proof.Machine
end

