-- ==== Sys2Proof/Machine/CrossLane.lean ====
section
/-! DEFINITION. CrossLane.lean: shuffles, votes, reductions and scans (R133 to R138). -/

namespace Sys2Proof.Machine

def netForm (n : Nat) (vs : List (Nat × Nat)) : Form := { lat := .x n, unit := .net, vecs := vs }

/-- shfl (R134): the source lane is B[4:0]; a lane that is not active can be read (R133). -/
def execShfl (d : Wr) (a : Rd) (b : Src) (s : State) : Out :=
  runRegs (netForm 12 (wrVecs d 1 ++ rdVecs a 1 ++ srcVecs b 1)) s fun c =>
    c.writes32 d fun l => c.rd a (fld (c.src b l) 0 5)

/-- The source lane of shfld (R134). -/
def shfldLane (b : Word) (l : Nat) : Nat :=
  let d := fld b 0 5
  match fld b 5 2 with
  | 0 => if d ≤ l then l - d else l
  | 1 => if l + d ≤ 31 then l + d else l
  | 2 => l ^^^ d
  | _ => (l + d) % 32

/-- shfld (R134). -/
def execShfld (d : Wr) (a : Rd) (b : Src) (s : State) : Out :=
  runRegs (netForm 16 (wrVecs d 1 ++ rdVecs a 1 ++ srcVecs b 1)) s fun c =>
    c.writes32 d fun l => c.rd a (shfldLane (c.src b l) l)

/-- The result of vote by mode (R135). -/
def voteResult (c : Cord) (a : Rd) (mode : Nat) : Word :=
  let act := lanesOf c.act
  let p (l : Nat) : Bool := c.rd a l != 0
  match mode with
  | 0 => maskOf (act.filter p)
  | 1 => if act.any p then 1 else 0
  | 2 => if act.all p then 1 else 0
  | _ => if act.all fun l => c.rd a l == c.rd a (lowest c.act) then 1 else 0

/-- vote (R135). -/
def execVote (d : Wr) (a : Rd) (lit : Word) (s : State) : Out :=
  runRegs (netForm 12 (wrVecs d 1 ++ rdVecs a 1)) s fun c =>
    let r := voteResult c a (fld lit 0 2)
    c.writesOnce d r ++ c.maskMerge (fld lit 4 4) fun l => if fld lit 0 2 = 0 then bit r l else r != 0

/-- Whether a reduction type is 64 bits wide (R136). -/
def red64 (lit : Word) : Bool := fld lit 4 4 == 6 || fld lit 4 4 == 7 || fld lit 4 4 == 11

/-- An integer function at the width of a type. -/
def atWidth (g : Bin) (w64 : Bool) (a b : Nat) : Nat :=
  if w64 then (g 64 (BitVec.ofNat 64 a) (BitVec.ofNat 64 b)).toNat else (g 32 (BitVec.ofNat 32 a) (BitVec.ofNat 32 b)).toNat

/-- op(a, b) of a type code and an operation code: add, min, max, and, or, xor (R136, R211, R389). -/
def reduceOp (rz : Bool) (ty op a b : Nat) : Nat :=
  let f := ieeeOf ty
  let fl := ty == 10 || ty == 11
  let sgn := ty == 4 || ty == 6
  let w := ty == 6 || ty == 7
  match op with
  | 0 => if fl then opAdd f false rz a b 0 else atWidth addBv w a b
  | 1 => if fl then opMin f false rz a b 0 else atWidth (if sgn then minBv else minuBv) w a b
  | 2 => if fl then opMax f false rz a b 0 else atWidth (if sgn then maxBv else maxuBv) w a b
  | 3 => atWidth andBv w a b
  | 4 => atWidth orBv w a b
  | _ => atWidth xorBv w a b

/-- The identity that stands in for an inactive lane (R136). -/
def reduceId (ty op : Nat) : Nat :=
  let f := ieeeOf ty
  let fl := ty == 10 || ty == 11
  let sgn := ty == 4 || ty == 6
  let w := if ty == 6 || ty == 7 then 64 else 32
  match op with
  | 0 => if fl then f.signBit true else 0
  | 1 => if fl then f.infBits false else if sgn then 2 ^ (w - 1) - 1 else 2 ^ w - 1
  | 2 => if fl then f.infBits true else if sgn then 2 ^ (w - 1) else 0
  | 3 => 2 ^ w - 1
  | _ => 0

/-- The lanes' values, the operand flush applied, with the identity in inactive lanes (R136). -/
def reduceInputs (c : Cord) (a : Rd) (lit : Word) : List Nat :=
  let ty := fld lit 4 4
  let fl := ty == 10 || ty == 11
  (List.range 32).map fun l =>
    if bit c.act l then
      let x := if red64 lit then (c.rd64 a l).toNat else (c.rd a l).toNat
      if fl then (ieeeOf ty).flush (c.oz ty) x else x
    else reduceId ty (fld lit 0 4)

/-- The fixed binary tree of R137; the lower lane is the left operand. -/
def reduceTree (op : Nat → Nat → Nat) (x : List Nat) : Nat :=
  let stage (x : List Nat) (d : Nat) : List Nat :=
    (List.range 32).map fun l => if l % (2 * d) = 0 then op (x.getD l 0) (x.getD (l + d) 0) else x.getD l 0
  ([1, 2, 4, 8, 16].foldl stage x).getD 0 0

/-- The fixed order of R138. -/
def scanList (op : Nat → Nat → Nat) (x : List Nat) : List Nat :=
  let stage (x : List Nat) (d : Nat) : List Nat :=
    (List.range 32).map fun l => if d ≤ l then op (x.getD (l - d) 0) (x.getD l 0) else x.getD l 0
  [1, 2, 4, 8, 16].foldl stage x

def redOp (c : Cord) (lit : Word) : Nat → Nat → Nat :=
  let ty := fld lit 4 4
  reduceOp ((ty == 10 || ty == 11) && c.rz ty) ty (fld lit 0 4)

/-- Words of a value of a reduction type. -/
def redWords (lit : Word) (x : Nat) : List Word :=
  if red64 lit then [BitVec.ofNat 32 x, BitVec.ofNat 32 (x / 2 ^ 32)] else [BitVec.ofNat 32 x]

def redVecs (d : Wr) (a : Rd) (lit : Word) : List (Nat × Nat) :=
  let k := if red64 lit then 2 else 1
  wrVecs d k ++ rdVecs a k

/-- redu (R137). -/
def execRedu (d : Wr) (a : Rd) (lit : Word) (s : State) : Out :=
  runRegs (netForm (if red64 lit then 40 else 32) (redVecs d a lit)) s fun c =>
    let r := reduceTree (redOp c lit) (reduceInputs c a lit)
    c.writes d fun _ => redWords lit r

/-- scan (R138): a scalar D takes the value of the highest active lane. -/
def execScan (d : Wr) (a : Rd) (lit : Word) (s : State) : Out :=
  runRegs (netForm (if red64 lit then 40 else 36) (redVecs d a lit)) s fun c =>
    let x := reduceInputs c a lit
    let x := if bit lit 8 then reduceId (fld lit 4 4) (fld lit 0 4) :: x.dropLast else x
    let r := scanList (redOp c lit) x
    let top := ((lanesOf c.act).getLast?).getD 0
    c.writes d fun l => redWords lit (r.getD (match d with | .v _ => l | .s _ => top) 0)

end Sys2Proof.Machine
end

