-- ==== Sys2Proof/Machine/Convert.lean ====
section
/-! DEFINITION. Convert.lean: the conversion instructions (R68 to R78). -/

namespace Sys2Proof.Machine

/-- Registers that a format spans (R55, R69). -/
def fmtSpan (code : Nat) : Nat := if fmt64 code then 2 else 1

/-- A value of a format read from a source name in lane l. -/
def Cord.rdFmt (c : Cord) (code : Nat) (r : Rd) (l : Nat) : Nat :=
  if fmt64 code then (c.rd64 r l).toNat else (c.rd r l).toNat

/-- A result of a format as its register words (R55). -/
def fmtWords (code x : Nat) : List Word :=
  if fmt64 code then [BitVec.ofNat 32 x, BitVec.ofNat 32 (x / 2 ^ 32)] else [place32 code x]

/-- RM of a conversion literal; sr takes u from B[15:0] (R69, R71). -/
def convRm (lit b : Word) : Rm :=
  match fld lit 8 3 with
  | 0 => .rne
  | 1 => .rz
  | 2 => .ru
  | 3 => .rd
  | _ => .sr (fld b 0 16)

def convForm (lit : Word) (d : Wr) (a b : Rd) : Form :=
  { lat := if fmt64 (fld lit 0 4) || fmt64 (fld lit 4 4) then .d10 else .f6,
    vecs := wrVecs d (fmtSpan (fld lit 0 4)) ++ rdVecs a (fmtSpan (fld lit 4 4)) ++ rdVecs b 1 }

/-- encode(DFMT, g(decode(SFMT, x))) under the literal's RM and SATF (R70). -/
def convert (c : Cord) (lit b : Word) (g : Num → Num) (x : Nat) : Nat :=
  encodeFmt c.fpctl (fld lit 0 4) (convRm lit b) (bit lit 11) (g (decodeFmt c.fpctl (fld lit 4 4) x))

/-- cvt (R73). -/
def execCvt (d : Wr) (a b : Rd) (lit : Word) (s : State) : Out :=
  runRegs (convForm lit d a b) s fun c =>
    c.writes d fun l => fmtWords (fld lit 0 4) (convert c lit (c.rd b l) id (c.rdFmt (fld lit 4 4) a l))

/-- The E8 scale of cvtsc: the exact value times or over 2^(E - 127); 0xFF makes it NaN (R74). -/
def scaleE8 (e : Nat) (inv : Bool) (x : Num) : Num :=
  if e = 255 then .nan else x.scale (if inv then 127 - (e : Int) else (e : Int) - 127)

/-- cvtsc (R74). -/
def execCvtsc (d : Wr) (a b : Rd) (lit : Word) (s : State) : Out :=
  runRegs (convForm lit d a b) s fun c =>
    c.writes d fun l =>
      fmtWords (fld lit 0 4)
        (convert c lit 0 (scaleE8 (fld (c.rd b l) 0 8) (bit lit 12)) (c.rdFmt (fld lit 4 4) a l))

/-- Bits [lo + n - 1 : lo] of a word replaced. -/
def setField (x : Word) (lo n v : Nat) : Word :=
  (x &&& ~~~(BitVec.ofNat 32 ((2 ^ n - 1) * 2 ^ lo))) ||| BitVec.ofNat 32 (v % 2 ^ n * 2 ^ lo)

/-- pack (R75): two results side by side in D. -/
def execPack (d : Wr) (a b : Rd) (lit : Word) (s : State) : Out :=
  runRegs (convForm lit d a b) s fun c =>
    let w := fmtWidth (fld lit 0 4)
    let lo := 2 * fld lit 13 3 * w
    c.writes32 d fun l =>
      let x := setField (c.rd (wrRd d) l) lo w (convert c lit 0 id (c.rd a l).toNat)
      setField x (lo + w) w (convert c lit 0 id (c.rd b l).toNat)

/-- unpk (R76): element N of a packed word. -/
def execUnpk (d : Wr) (a b : Rd) (lit : Word) (s : State) : Out :=
  runRegs (convForm lit d a b) s fun c =>
    let w := fmtWidth (fld lit 4 4)
    c.writes d fun l =>
      let n := if w = 16 then fld (c.rd b l) 0 1 else fld (c.rd b l) 0 2
      fmtWords (fld lit 0 4) (convert c lit 0 id (fld (c.rd a l) (n * w) w))

/-- The larger of two magnitudes, NaN above all. -/
def magMax (x y : Num) : Num :=
  let a (x : Num) : Num := match x with | .fin _ m e => .fin false m e | .inf _ => .inf false | .nan => .nan
  if x = .nan ∨ y = .nan then .nan else if Num.lt (a x) (a y) then a y else a x

/-- The E8 scale of a group from its largest magnitude (R77). -/
def scfindScale (m : Num) (t : Int) : Nat :=
  match m with
  | .nan => 0xFF
  | .inf _ => 0xFE
  | .fin _ k e => if k = 0 then 0x7F else (satInt (floorLog2 k 1 e - t + 127) 0 254).toNat

/-- scfind (R77): one scale per aligned group of lanes. -/
def execScfind (d a : Vec) (b : Rd) (s : State) : Out :=
  runRegs (netForm 16 ([(d.val, 1), (a.val, 1)] ++ rdVecs b 1)) s fun c =>
    let g := 4 * 2 ^ fld (c.once b) 8 2
    c.writes32 (.v d) fun l =>
      let ls := (lanesOf c.act).filter fun i => i / g == l / g
      let t := sextNat (fld (c.rd b (ls.headD 0)) 0 8) 8
      let m := ls.foldl (fun m i => magMax m (decodeFmt c.fpctl 10 (c.vreg a.val i).toNat)) (.fin false 0 0)
      BitVec.ofNat 32 (scfindScale m t)

/-- tclass (R78). -/
def execTclass (d : Wr) (a : Rd) (n : Imm) (s : State) : Out :=
  runRegs { lat := .f6, vecs := wrVecs d 1 ++ rdVecs a (fmtSpan n.toNat) } s fun c =>
    c.writes32 d fun l => tclassMask n.toNat (c.rdFmt n.toNat a l)

end Sys2Proof.Machine
end

