-- ==== Sys2Proof/Machine/Ordering.lean ====
section
/-! DEFINITION. Ordering.lean: counter waits (R208), atomics (R209 to R215), copy batches (R216), flush and
discard (R220 to R222), and the L2 forms lock, unlk and prefl (R161, R163). -/

namespace Sys2Proof.Machine

/-! Counter waits. -/

/-- waitc.ld (R208). -/
def execWaitcLd (n : Imm) (s : State) : Out :=
  runForm { lat := .n } s fun s => if s.cord.ldcnt ≤ n.toNat then .done s else .stall {} s

/-- waitc.st (R208). -/
def execWaitcSt (n : Imm) (s : State) : Out :=
  runForm { lat := .n } s fun s => if s.cord.stcnt ≤ n.toNat then .done s else .stall {} s

/-! Atomics. -/

/-- op(old, b) on integers of width W (R211). -/
def atomInt {w : Nat} (signed : Bool) (op : Nat) (old b : BitVec w) : BitVec w :=
  let less := if signed then old.slt b else old.ult b
  match op with
  | 0 => old + b
  | 1 => if less then old else b
  | 2 => if less then b else old
  | 3 => old &&& b
  | 4 => old ||| b
  | 5 => old ^^^ b
  | _ => b

/-- op(old, b) on FP32, without flush (R211). -/
def atomF32 (op : Nat) (old b : Word) : Word :=
  match op with
  | 0 => BitVec.ofNat 32 (fp32.op2 false false Num.add old.toNat b.toNat)
  | 1 => BitVec.ofNat 32 (fp32.minmaxZ false false false old.toNat b.toNat)
  | 2 => BitVec.ofNat 32 (fp32.minmaxZ false false true old.toNat b.toNat)
  | _ => b

/-- The value one lane's operation leaves (R211 to R214). -/
def atomResult (r : AtomReq) (x : AtomLane) (old : Dword) : Dword :=
  if r.kind = 1 then if old = x.cmp then x.b else old
  else if r.ty = 10 then (atomF32 r.op (lo32 old) (lo32 x.b)).setWidth 64
  else if atomBytes r.ty = 8 then atomInt (r.ty == 6) r.op old x.b
  else (atomInt (r.ty == 4) r.op (lo32 old) (lo32 x.b)).setWidth 64

/-- The operations of all lanes as one update of a line's bytes, lowest lane first: old values and changed bytes
by offset; a lane of atomcas that fails changes nothing (R209, R213). -/
def atomRun (r : AtomReq) (read : Nat → Byte) : List (Nat × Dword) × List (Nat × Byte) :=
  let z := atomBytes r.ty
  r.lanes.foldl (fun (olds, cells) x =>
    let cur (i : Nat) : Byte := ((cells.find? fun c => c.1 == x.off + i).map (·.2)).getD (read (x.off + i))
    let old : Dword := BitVec.ofNat 64 (leNat ((List.range z).map cur))
    let new := leBytes (atomResult r x old).toNat z
    let kept := cells.filter fun c => !(decide (x.off ≤ c.1) && decide (c.1 < x.off + z))
    (olds ++ [(x.lane, old)], if r.kind = 1 ∧ old ≠ x.cmp then cells else kept ++ cellsAt x.off new)) ([], [])

/-- The request leaves the core for the home of its line (R198). -/
def State.sendAtom (r : AtomReq) (s : State) : State :=
  s.afterPath r.core (s.homeOf r.line) ((s.leastRow r.core r.line).1 / 2) (.atomicAtHome r)

/-- The line is homed on a host node (R215, R379). -/
def isHostLine (line : Nat) : Bool := decide (960 ≤ devOf (line * 128))

/-- The home has performed an atomic: stcnt falls, and a result goes back with the home values of what it changed (R209,
R212, R214). What the cord has stored there since lies over them, and they reach what it had captured of the line before
(R205). To another device the old values go (R377). -/
def State.atomPerformed (r : AtomReq) (olds : List (Nat × Dword)) (cells : List (Nat × Byte)) (s : State) : State :=
  let at_ := cells.map fun (o, b) => (r.line * 128 + o, b)
  let s := s.takeOwner none r.line (wordsOf (cells.map (·.1)))
  let s := s.performWrite (s.agentOfCord r.cord) at_
  if isRemote r.core then s.sendOut (remoteDev r.core) (if r.kind = 2 then .done r.line else .olds r.line olds)
  else
    let s := s.stDown r.cord 1
    if r.kind = 2 then s
    else
      let cells := layCells cells (s.inFlight r.cord r.line)
      (s.patchReads r.cord r.line cells).afterFree ((s.leastRow r.core r.line).1 / 2) (.atomicResult r olds cells)

/-- An atomic whose old values and changed bytes are known is performed once every other owner of a changed word has heard
of it (R200, R209). -/
def State.atomDone (r : AtomReq) (again : Event) (x : List (Nat × Dword) × List (Nat × Byte)) (s : State) : State :=
  match s.owedNotices none r.line (wordsOf (x.2.map (·.1))) with
  | n :: ns => s.notifyFirst (n :: ns) r.line again
  | [] => s.atomPerformed r x.1 x.2

/-- The home performs an atomic as one indivisible update, after the notices of R200; a word of a host goes to
its adapter (R209, R215). -/
def execAtomicAtHome (s : State) : Out :=
  match s.now with
  | some (.atomicAtHome r) =>
    .next <|
      if s.unreachable r.line then
        let s := State.messageLost r.cord (s.stDown r.cord 1)
        match r.flag with
        | some f => State.complete r.cord f [] (s.ldDown r.cord 1)
        | none => s
      else
      match s.loadAhead r.core r.cord r.line r.tok with
      | some t => s.hold (t + 1) (.atomicAtHome r)
      | none =>
      if isHostLine r.line then s.settleAdapter r.line (.adapterAtomic r none)
      else s.atomDone r (.atomicAtHome r) (atomRun r fun o => s.byte (r.line * 128 + o))
  | _ => .next s

/-- The bytes that an adapter has read for an atomic (R215). -/
def adapterBefore (r : AtomReq) (o : List (Nat × Dword)) (off : Nat) : Byte :=
  match (r.lanes.zip o).find? fun x => decide (x.1.off ≤ off) && decide (off < x.1.off + atomBytes r.ty) with
  | some (x, _, v) => BitVec.ofNat 8 (v.toNat >>> (8 * (off - x.off)))
  | none => 0

/-- An atomic at a host adapter: forwarded whole with the system-atomic attribute, else a read and later a write
of the operation on what was read (R215). -/
def execAdapterAtomic (s : State) : Out :=
  match s.now with
  | some (.adapterAtomic r olds) =>
    .next <|
      match olds with
      | none =>
        let x := atomRun r fun o => s.byte (r.line * 128 + o)
        if r.sysAtomic then s.atomDone r (.adapterAtomic r none) x else s.afterFree 1 (.adapterAtomic r (some x.1))
      | some o =>
        s.atomDone r (.adapterAtomic r (some o)) (atomRun r (adapterBefore r o))
  | _ => .next s

/-- A write of the command processor, of a controller or of a call to a line of a host comes behind what its adapter still owes
for an atomic that has read the line (R199, R215). -/
def State.settleNow (line : Nat) (s : State) : State :=
  match s.agenda.find? (adapterWrite line) with
  | none => s
  | some d =>
    match d.what with
    | .adapterAtomic r (some o) =>
      let x := atomRun r (adapterBefore r o)
      State.atomPerformed r x.1 x.2 { s with agenda := s.agenda.erase d }
    | _ => s

/-- The register writes of a result: pairs for the 64-bit types, a scalar from the lowest lane (R212). -/
def atomWrites (r : AtomReq) (olds : List (Nat × Dword)) : List RegWrite :=
  let z : LdSize := if atomBytes r.ty = 8 then .d else .w
  match r.dst with
  | none => []
  | some d =>
    let ls := match d with | .v _ => olds | .s _ => olds.take 1
    ls.flatMap fun (l, v) => loadWrites z d r.wb (fun _ => v.toNat) [(l, 0)]

/-- The result returns: the acquire if one was asked for, then D, the eyelet copies, ldcnt and the flag (R212). -/
def execAtomicResult (s : State) : Out :=
  match s.now with
  | some (.atomicResult r olds cells) =>
    s.ifCord r.cord fun _ =>
      let o : Op :=
        { tok := s.fresh, flag := r.flag, left := 1, ld := 1, kind := .atom r.line cells, writes := atomWrites r olds }
      if r.acq then State.beginAcquire r.cord o.tok (State.tick (s.onCord r.cord fun c => { c with ops := c.ops ++ [o] }))
      else s.onCord r.cord fun c => c.endOp o
  | _ => .next s

/-- The vector register that holds the offsets, if the literal names one (R210). -/
def atomOff (lit : Word) : Option Rd :=
  if bit lit 18 then
    let n := fld lit 0 7
    if h : n < 64 then some (.v ⟨n, h⟩) else some (.s ⟨(n - 64) % 32, Nat.mod_lt _ (by decide)⟩)
  else none

/-- atom, atomcas and atomred at issue (R209, R212 to R214). On a line of the register window trinfo has the address of the lowest active
lane's access (DESIGN CHOICE, log entry 63). -/
def runAtom (kind : Nat) (d : Option Wr) (e : Eye) (b : Rd) (lit : Word) (s : State) : Out :=
  let z := atomBytes (fld lit 12 4)
  let w := z / 4
  let dv := match d with | some d => wrVecs d w | none => []
  let ov := match atomOff lit with | some r => rdVecs r 1 | none => []
  runForm { lat := if kind = 2 then .n else .v, vecs := dv ++ rdVecs b w ++ ov } s fun s =>
    let off (l : Nat) : Nat := match atomOff lit with | some r => (s.cord.rd r l).toNat | none => fld lit 0 7 * z
    let as := onEye e s.cord.lanes off
    s.checkLanes as z true fun s =>
      let c := s.cord
      let y := c.eye e.val
      if inWindow (y.pla * 128) then .trap .permFault (BitVec.ofNat 64 (y.vla * 128 + (as.head?.map (·.2.2)).getD 0))
      else if !c.roomSt 1 ∨ (kind ≠ 2 ∧ !c.roomLd 1) then .stall {} s
      else
        let wide (r : Rd) (l : Nat) : Dword := if z = 8 then c.rd64 r l else (c.rd r l).setWidth 64
        let cmp (l : Nat) : Dword := match d with | some d => wide (wrRd d) l | none => 0
        let lanes := as.map fun (l, _, o) => AtomLane.mk l o (wide b l) (cmp l)
        let r : AtomReq :=
          { core := c.core, cord := c.cid, line := y.pla, kind := kind, op := fld lit 8 4, ty := fld lit 12 4, lanes := lanes,
            dst := d, wb := c.wb, acq := bit lit 16, flag := if kind = 2 then none else some c.flag, sysAtomic := y.sysAtomic, eye := e.val, tok := s.fresh }
        let s := if kind = 2 then s.disown y.pla (atomOffs r) else s.onSelf fun c => { c with ldcnt := c.ldcnt + 1 }
        if bit lit 17 then .done (s.release (.atom r) 1)
        else if s.heldBack y.pla (wordsOf (atomOffs r)) then .done (s.release (.followAtom r s.fresh) 1)
        else .done (State.sendAtom r (s.onSelf fun c => { c with stcnt := c.stcnt + 1 }))

/-- atom (R212). -/
def execAtom (d : Wr) (e : Eye) (b : Rd) (lit : Word) (s : State) : Out := runAtom 0 (some d) e b lit s

/-- atomcas (R213). -/
def execAtomcas (d : Wr) (e : Eye) (b : Rd) (lit : Word) (s : State) : Out := runAtom 1 (some d) e b lit s

/-- atomred (R214). -/
def execAtomred (e : Eye) (b : Rd) (lit : Word) (s : State) : Out := runAtom 2 none e b lit s

/-! Copy batches. -/

/-- A sealed lane: its commands form batch BSEQ, which takes an entry unless it is empty (R216). -/
def Thread.seal (t : Thread) : Thread :=
  { t with bseq := t.bseq + 1, unsealed := [],
           batches := if t.unsealed.isEmpty then t.batches else t.batches ++ [(t.bseq.toNat, t.unsealed)] }

/-- seal (R216). -/
def execSealBatch (d : Wr) (s : State) : Out :=
  runForm { lat := .i4, vecs := wrVecs d 1 } s fun s =>
    let c := s.cord
    if c.lanes.any fun l => decide (8 ≤ (c.thread l).batches.length) then .stall {} s
    else
      let s := s.write .i4 (c.writes32 d fun l => (c.thread l).bseq.setWidth 32)
      .done (s.onSelf fun c => { c with threads := c.lanes.foldl (fun ts l => SMap.upd {} ts l Thread.seal) c.threads })

/-- Batch n of a thread and every earlier one are complete (R216). -/
def Thread.batchDone (t : Thread) (n : BitVec 16) : Bool :=
  t.batches.all fun b => decide ((t.bseq - BitVec.ofNat 16 b.1).toNat < (t.bseq - n).toNat)

/-- waitb (R216): it stalls until the batches are complete, then refreshes before the cord issues again. -/
def execWaitb (a : Rd) (s : State) : Out :=
  runForm { lat := .n, vecs := rdVecs a 1 } s fun s =>
    let c := s.cord
    let n (l : Nat) : BitVec 16 := (c.rd a l).setWidth 16
    match c.lanes.find? fun l => (c.thread l).bseq == n l with
    | some l => .trap .batchBad ((n l).setWidth 64)
    | none =>
      if !c.lanes.all fun l => (c.thread l).batchDone (n l) then .stall {} s
      else
        let tok := s.fresh
        let s := s.open_ { tok := 0, left := 1, kind := .wakeWait }
        let s := s.onSelf fun c => { c with wait := .acquire tok }
        .done (s.beginAcquire c.cid tok)

/-! Flush and discard. -/

/-- The range of flushr and disc (R220): start, and lines. -/
def Cord.range (c : Cord) (a b : Rd) (lit : Word) : Nat × Nat := (c.once64 a b, fld lit 0 27 + 1)

/-- The steps of R220 before any effect, then the form on the physical runs of its range. -/
def runRange (n : Need) (drop : Bool) (a b : Rd) (lit : Word) (s : State) (k : List (Nat × Nat) → State → State) : Out :=
  runForm { lat := .v, vecs := rdVecs a 1 ++ rdVecs b 1 } s fun s =>
    let (x, lines) := s.cord.range a b lit
    let starts := pageStarts x (lines * 128)
    withPages starts n s fun ps s =>
      let runs := physRuns x (lines * 128) ps
      let meets := drop && (s.ctxOf s.cord.ctx).regions.any fun r => overlaps x (lines * 128) r.base r.size
      if x % 128 ≠ 0 ∨ (runs.any fun r => inWindow r.1) ∨ meets then .trap .rangeBad (BitVec.ofNat 64 x)
      else if s.cord.stcnt ≠ 0 then .stall {} s.keepSlot
      else .done (k (runs.map fun (p, m) => (p / 128, m / 128)) s)

/-- The home slices of runs of lines. -/
def State.homesOf (s : State) (runs : List (Nat × Nat)) : List Nat :=
  (runs.flatMap fun (p, m) => (List.range m).map fun i => s.homeOf (p + i)).eraseDups

/-- A run of lines homed on another device (R379). -/
def State.runAway (s : State) (r : Nat × Nat) : Bool := devOf (r.1 * 128) != s.dev.devno && !isHostLine r.1

/-- The home slices of this device give their stamps and advance their counters, and each home on another device is asked for its
part of the range (R221, R222, R377). -/
def State.startJob (drop : Bool) (job : FlushJob) (s : State) : FlushJob × State :=
  let (out, here) := job.runs.partition s.runAway
  let homes := if drop then [] else s.homesOf here
  let ask (r : List (Nat × Nat) × State) (dev : Nat) : List (Nat × Nat) × State :=
    let (l, s) := r
    let mine := out.filter fun x => devOf (x.1 * 128) == dev
    (l ++ [(s.fresh, dev)], (s.sendOut dev (.walk drop mine s.fresh)).tick)
  let (away, s) := ((out.map fun x => devOf (x.1 * 128)).eraseDups).foldl ask ([], s)
  ({ job with runs := here, stamps := some (homes.map fun h => (h, SMap.get 0 s.flushCtr h)), away := away },
    { s with flushCtr := homes.foldl (fun m h => SMap.upd 0 m h fun k => (k + 1) % 2 ^ 32) s.flushCtr,
             asked := s.asked ++ away.map (·.1) })

/-- Every line of this device has been visited: a walk for another device answers it, a discard with the content that its lines have now;
one of this device ends once every other home has answered, and as a lost message when one of them is out of reach (R221, R222,
R377, R378, log entry 57). -/
def State.endJob (drop : Bool) (c : Nat) (f : Flag) (job : FlushJob) (again : Event) (s : State) : State :=
  match job.back with
  | some (dev, rid, runs) =>
    let lines := if drop then runs.flatMap fun r => (List.range r.2).map (r.1 + ·) else []
    s.sendOut dev (.walked rid (lines.map fun l => (l, s.homeBytes (l * 128) 128)))
  | none =>
    if job.away.any fun a => s.dev.lost.contains a.2 then (s.complete c f []).messageLost c
    else if job.away.any fun a => s.asked.contains a.1 then s.after 1 again
    else s.complete c f []

/-- flushr (R221): it goes to every home slice of the range, behind what its core has sent there (R198). -/
def execFlushr (a b : Rd) (lit : Word) (s : State) : Out :=
  runRange .r false a b lit s fun runs s =>
    s.afterPaths s.cord.core (s.homesOf runs) 1 (.flushrComplete s.cord.cid s.cord.flag { runs := runs })

/-- The flush starts at its home slices; then the walker visits one line after another, which it writes back if it is
dirty with a stamp of S or less; after the last line the flag decrements (R221). -/
def execFlushrComplete (s : State) : Out :=
  match s.now with
  | some (.flushrComplete c f job) =>
    .next <|
      match job.stamps with
      | none =>
        let (job, s) := s.startJob false job
        s.afterFree 0 (.flushrComplete c f job)
      | some stamps =>
        match job.runs with
        | [] => s.endJob false c f job (.flushrComplete c f job)
        | (_, 0) :: rest => s.after 0 (.flushrComplete c f { job with runs := rest })
        | (line, n + 1) :: rest =>
          let stamp := ((stamps.find? fun p => p.1 == s.homeOf line).map (·.2)).getD 0
          let old := (s.l2Find line).any fun x => x.dirty && decide (x.stamp ≤ stamp)
          let s := if old then s.writeBack line else s
          s.afterFree 0 (.flushrComplete c f { job with runs := (line + 1, n) :: rest })
  | _ => .next s

/-- disc (R222): it goes to every home of the range, behind what its core has sent there (R198). -/
def execDisc (a b : Rd) (lit : Word) (s : State) : Out :=
  runRange .w true a b lit s fun runs s =>
    s.afterPaths s.cord.core (s.homesOf runs) 1 (.discAtHome s.cord.cid s.cord.flag { runs := runs })

/-- The next line of a discard: its home recalls every eyelet that holds it, REASON DISC (R222 step 1). -/
def execDiscAtHome (s : State) : Out :=
  match s.now with
  | some (.discAtHome c f job) =>
    .next <|
      match job.stamps with
      | none =>
        let (job, s) := s.startJob true job
        s.after 0 (.discAtHome c f job)
      | some _ =>
        match job.runs with
        | [] => s.endJob true c f job (.discAtHome c f job)
        | (_, 0) :: rest => s.after 0 (.discAtHome c f { job with runs := rest })
        | (line, _ + 1) :: _ =>
          let (rids, s) := s.recallLine line .disc
          s.afterFree 1 (.discDrop c f job rids)
  | _ => .next s

/-- A home drops a line's data: content goes back to the backing bytes, a pin stays (R222 step 2). -/
def State.dropLine (by_ : Agent) (line : Nat) (s : State) : State :=
  if !s.cacheable line then s
  else
    let (s, ok) := s.noteWrite by_ (line * 128)
    if !ok then s
    else
      let s := s.takeOwner none line 0xFFFFFFFF
      { s with mem := SMap.setAll 0 s.mem (lineCells s.backing line),
               l2 := (s.l2.filter fun x => x.line != line || x.pinned).map fun x =>
                 if x.line = line then { x with dirty := false } else x }

/-- Once every recall is acknowledged the line's data is dropped, and the next line follows (R222). -/
def execDiscDrop (s : State) : Out :=
  match s.now with
  | some (.discDrop c f job rids) =>
    .next <|
      if s.recalling rids then s.after 1 (.discDrop c f job rids)
      else
        match job.runs with
        | (line, n + 1) :: rest =>
          match s.owedNotices none line 0xFFFFFFFF with
          | x :: xs => s.notifyFirst (x :: xs) line (.discDrop c f job rids)
          | [] => (s.dropLine (s.agentOfCord c) line).afterFree 0 (.discAtHome c f { job with runs := (line + 1, n) :: rest })
        | rs => s.after 0 (.discAtHome c f { job with runs := rs.drop 1 })
  | _ => .next s

/-! L2 forms. -/

/-- Ways of a line's set that hold a lock, and ways that hold any pin (R161). -/
def State.setPins (s : State) (line : Nat) : Nat × Nat :=
  let mine := s.l2.filter fun x => x.slice == s.homeOf line && x.set == Config.l2Set line % 256
  ((mine.filter fun x => !x.lockers.isEmpty).length, (mine.filter (·.pinned)).length)

/-- A pin of the tile fetch unit gives way in the set of a line that is to be locked while 8 of its ways are pinned: the forms
go on as with a line read without a pin (R161, R162; DEDUCED, log entry 32). -/
def State.givePin (line : Nat) (s : State) : State :=
  let (_, pinned) := s.setPins line
  let set (x : L2Line) : Bool := x.slice == s.homeOf line && x.set == Config.l2Set line % 256
  if pinned < 8 ∨ ((s.l2Find line).any (·.pinned)) = true then s
  else
    match s.l2.find? fun x => set x && decide (0 < x.pins) && x.lockers.isEmpty with
    | none => s
    | some y =>
      let loosen (f : TForm) : TForm :=
        if f.pinned.contains y.line then { f with pinned := f.pinned.filter (· != y.line), loose := f.loose ++ [(y.line, y.born)] } else f
      { s with
        l2 := s.l2.map fun x => if x.line = y.line then { x with pins := 0 } else x,
        cores := s.cores.map fun k => { k with tq := k.tq.map loosen } }

/-- One lane of lock (R163): its status, and the pin. -/
def State.lockLine (ctx line : Nat) (s : State) : Nat × State :=
  let x := s.ctxOf ctx
  let (locked, _) := s.setPins line
  if inWindow (line * 128) then (5, s)
  else if !s.isLocal (line * 128) then (4, s)
  else if x.locks.contains line then (1, s)
  else if x.quota.toNat = x.locks.length then (2, s)
  else if 6 ≤ locked then (3, s)
  else
    let s := (s.givePin line).l2Fetch line
    let pin (y : L2Line) : L2Line := if y.line = line then { y with lockers := y.lockers ++ [ctx] } else y
    let s := { s with l2 := s.l2.map pin }
    (0, s.onCtx ctx fun x => { x with locks := x.locks ++ [line] })

/-- A context's lock on a line is released (R163). -/
def State.unlockLine (ctx line : Nat) (s : State) : State :=
  let unpin (y : L2Line) : L2Line := if y.line = line then { y with lockers := y.lockers.filter (· != ctx) } else y
  let s := { s with l2 := s.l2.map unpin }
  s.onCtx ctx fun x => { x with locks := x.locks.filter (· != line) }

/-- lock (R163): lanes in order, one status each. -/
def execLock (d : Wr) (a b : Rd) (s : State) : Out :=
  runForm { lat := .v, vecs := wrVecs d 1 ++ rdVecs a 1 ++ rdVecs b 1 } s fun s =>
    let c := s.cord
    let lanes := c.runLanes d
    let vas := c.addrs a b lanes
    withPages vas .r s fun ps s =>
      let step (r : List RegWrite × State) (x : Nat × Nat × Page) : List RegWrite × State :=
        let (l, va, p) := x
        let (st, s) := r.2.lockLine c.ctx (lineOf (p.addr va))
        (r.1 ++ [c.bind d 0 l (BitVec.ofNat 32 st)], s)
      let (ws, s) := (lanes.zip (vas.zip ps)).foldl step ([], s)
      .done (s.afterFree 1 (.lockComplete c.cid c.flag ws))

/-- Every line that a lock pinned is present in its slice (R163). -/
def execLockComplete (s : State) : Out :=
  match s.now with
  | some (.lockComplete c f ws) =>
    .next (s.complete c f ws)
  | _ => .next s

/-- unlk (R163). -/
def execUnlk (a b : Rd) (s : State) : Out :=
  runForm { lat := .n, vecs := rdVecs a 1 ++ rdVecs b 1 } s fun s =>
    let c := s.cord
    let vas := c.addrs a b c.lanes
    withPages vas .r s fun ps s =>
      .done ((vas.zip ps).foldl (fun s (va, p) => s.unlockLine c.ctx (lineOf (p.addr va))) s)

/-- prefl (R163): a hint; an address that does not translate is dropped. -/
def execPrefl (a b : Rd) (s : State) : Out :=
  runForm { lat := .n, vecs := rdVecs a 1 ++ rdVecs b 1 } s fun s =>
    let c := s.cord
    let vas := c.addrs a b c.lanes
    let missed := ((vas.filter fun va => (s.lookup c va).isNone).map (· / 2 ^ 16)).eraseDups
    if !missed.isEmpty then .stall {} (s.startWalk missed)
    else
      let good := vas.filterMap fun va =>
        let p := (s.lookup c va).getD none
        match s.pageFault s.sys .r va p, p with
        | none, some p => some (lineOf (p.addr va))
        | _, _ => none
      let s := if c.walked.isEmpty ∧ !vas.isEmpty then s.holdSlot (s.cycle + 2) else s
      .done (good.eraseDups.foldl (fun s line => s.afterFree (s.leastOpen c.core line) (.preflFetchComplete line)) s)

/-- A prefetched line arrives in its home slice (R163, R165). -/
def execPreflFetchComplete (s : State) : Out :=
  match s.now with
  | some (.preflFetchComplete line) =>
    .next (s.l2Fetch line)
  | _ => .next s

end Sys2Proof.Machine
end

