-- ==== Sys2Proof/Machine/Tambour.lean ====
section
/-! DEFINITION. Tambour.lean: the descriptor forms (R274 to R276), the tambour's queue, fetch unit and timing (R267 to
R271, R277 to R283), accumulators and multiplies (R284 to R292), sparsity (R294 to R302), online softmax
(R303 to R306) and the drain path (R307 to R312). -/

namespace Sys2Proof.Machine

/-! Forms on tile descriptors. -/

def tdForm (vs : List (Nat × Nat)) : Form := { lat := .i4, vecs := vs, role := some 1, whole := true }

/-- tdset (R274). -/
def execTdset (d : Td) (a : Sreg) (s : State) : Out :=
  runRegs (tdForm []) s fun c => (List.range 8).map fun w => .td d.val w (c.sreg (a.val + w))

/-- A 64-bit field of a descriptor moved by sext(A, 32) (R275). -/
def tdMoved (c : Cord) (d w : Nat) (a : Word) : List RegWrite :=
  let x := pair64 (c.td d w) (c.td d (w + 1)) + a.signExtend 64
  [.td d w (lo32 x), .td d (w + 1) (hi32 x)]

/-- What tdmod writes for its sel (R275). -/
def tdmodWrites (c : Cord) (d sel : Nat) (x : Word) : List RegWrite :=
  if sel ≤ 7 then [.td d sel x] else if sel = 8 then tdMoved c d 0 x else tdMoved c d 3 x

/-- tdmod (R275); a sel above 9 is its own cause, after those of R343 steps 1 to 5. -/
def execTdmod (d : Td) (a : Rd) (n : Imm) (s : State) : Out :=
  runForm (tdForm (rdVecs a 1)) s fun s =>
    if 9 < n.toNat then .trap .opndKind s.cord.word
    else .done (s.write .i4 (tdmodWrites s.cord d.val n.toNat (s.cord.once a)))

/-- The pending fixed-latency writes of a cord as they will have left its registers. -/
def State.settled (s : State) : Cord :=
  (sortDue (s.pendingWrites s.cord.cid)).foldl (fun c d =>
    match d.what with
    | .fixedLatencyWrite _ ws => c.applyAll ws
    | _ => c) s.cord

/-- tdq (R276): as the descriptor stands after every earlier form of the cord has written it. -/
def execTdq (d : Wr) (t : Td) (n : Imm) (s : State) : Out :=
  runForm (tdForm (wrVecs d 1)) s fun s =>
    .done (s.write .i4 (s.cord.writesOnce d (s.settled.td t.val n.toNat)))

/-! The queue. -/

/-- The accumulators that a motif's matrix cords have each (R269). -/
def naccOf (m : Nat) : Nat := if m ≤ 2 then 4 else if m ≤ 4 then 2 else 1

def tForm (vs : List (Nat × Nat)) : Form := { lat := .v, vecs := vs, role := some 1, whole := true }

/-- The issue-side mode of an accumulator (R271). -/
def Cord.modeOf (c : Cord) (a : Nat) : TMode := SMap.get .z c.amode a

/-- R271 fails for a form that puts a tile in a mode. -/
def Cord.modeClash (c : Cord) (a : Nat) (m : TMode) : Bool := c.modeOf a != .z && c.modeOf a != m

def tq1 (n : Nat) : Word := BitVec.ofNat 32 n
def accTrap (k : Cause) (a : Nat) : Res := .trap k (BitVec.ofNat 64 a)

/-- The acc_range check of R280 step 1 on accumulators in order. -/
def Cord.accBad (c : Cord) (as : List Nat) : Option Nat := as.find? fun a => decide (c.nacc ≤ a)

/-- Forms not yet started (R268). -/
def Core.waiting (x : Core) : List TForm := x.tq.filter (·.phase == .queued)

/-- Half-lines of a form as a fetch request leaves for each of them (R198, R283). -/
def State.sendFetches (core : Nat) (f : TForm) (halves : List Nat) (s : State) : State :=
  halves.foldl (fun s h =>
    s.afterPath core (s.homeOf (h / 2)) (s.leastOpen core (h / 2)) (.tileFetchLine core f.q h .none)) s

def State.onForm (core q : Nat) (g : TForm → TForm) (s : State) : State :=
  s.onCore core fun x => { x with tq := x.tq.map fun f => if f.q = q then g f else f }

def State.form (s : State) (core q : Nat) : Option TForm := (s.coreOf core).tq.find? (·.q == q)

/-- Lines that a form fetches. -/
def TForm.lineCount (f : TForm) : Nat := ((f.vas.map fun v => v.1 / 2).eraseDups).length

/-- Queued forms fetch in queue order as far as the pin reserve of 384 lines allows (R162, R277). -/
def State.startFetches (core : Nat) (s : State) : State :=
  let x := s.coreOf core
  let held := ((x.tq.filter fun f => f.sent && f.phase != .leaving).map TForm.lineCount).sum
  let pick (r : List TForm × Nat × Bool) (f : TForm) : List TForm × Nat × Bool :=
    if f.sent || r.2.2 then r
    else if r.2.1 + f.lineCount ≤ 384 then (r.1 ++ [f], r.2.1 + f.lineCount, false) else (r.1, r.2.1, true)
  let (fs, _, _) := x.tq.foldl pick ([], held, false)
  fs.foldl (fun s f => State.sendFetches core f f.need (s.onForm core f.q fun f => { f with sent := true })) s

/-- A checked form enters the queue, a resource stall while the queue is full (R268); its flag rises at issue. -/
def State.enqueue (work : TWork) (occ lat : Nat) (ps : List Page) (halves : List Nat) (s : State) : State :=
  let c := s.cord
  let ps := ps.eraseDups
  let vas := halves.map fun h => (xaddr ps c.ctx (h * 64) / 64, h * 64)
  let f : TForm :=
    { q := s.fresh, cord := c.cid, ctx := c.ctx, flag := c.flag, work := work, nm1 := c.mprom.toNat, trans := ps,
      sent := false, need := vas.map (·.1), vas := vas, tokens := max 1 ((occ + 15) / 16), occ := occ, lat := lat }
  State.startFetches c.core (State.onCore c.core (fun x => { x with tq := x.tq ++ [f] }) s.tick)

def State.queueFull (s : State) : Bool := decide (16 ≤ ((s.coreOf s.cord.core).waiting).length)

/-- A form that needs no translation goes into the queue. -/
def State.queueForm (work : TWork) (occ lat : Nat) (s : State) : Res :=
  if s.queueFull then .stall {} s else .done (s.enqueue work occ lat [] [])

def State.setMode (a : Nat) (m : TMode) (s : State) : State :=
  s.onSelf fun c => { c with amode := SMap.set .z c.amode a m }

/-- What also changes when a form issues. -/
def Res.also (g : State → State) : Res → Res
  | .done s => .done (g s)
  | r => r

/-- A form that names accumulators: acc_range first, then its own body (R280 step 1). -/
def runAcc (vs : List (Nat × Nat)) (as : List Nat) (s : State) (k : State → Res) : Out :=
  runForm (tForm vs) s fun s =>
    match s.cord.accBad as with
    | some a => accTrap .accRange a
    | none => k s

/-- azero (R288). -/
def execAzero (d : Acc) (s : State) : Out :=
  runAcc [] [d.val] s fun s => Res.also (·.setMode d.val .z) (s.queueForm (.azero d.val) 4 8)

/-- Row of the side view, and row and columns of the others, that lane l carries (R287). -/
def viewRow (p l : Nat) : Nat := 2 * p + l / 16
def viewCol (l j : Nat) : Nat := 4 * (l % 16) + j

/-- The mode that a view of ald sets (R289). -/
def viewMode (view : Nat) : TMode := if view = 0 then .f else if view = 1 then .i else .d

/-- What ald reads at issue (R287, R289): elements by index, or M, MP and L by row. -/
def Cord.aldVals (c : Cord) (view p x : Nat) : List (Nat × Dword) :=
  (List.range 32).flatMap fun l => (List.range 4).map fun j =>
    let v := if view = 2 then pair64 (c.vreg (x + 2 * j) l) (c.vreg (x + 2 * j + 1) l) else (c.vreg (x + j) l).setWidth 64
    (64 * viewRow p l + viewCol l j, v)

def Cord.aldSides (c : Cord) (p x : Nat) : List (Nat × Word × Word × Word) :=
  (List.range 32).map fun l => (32 * p + l, c.vreg x l, c.vreg (x + 1) l, c.vreg (x + 2) l)

/-- The operand rules of a view: sel, the register's alignment, and the registers of its layout (R287). -/
def viewBad (c : Cord) (view p x : Nat) (wide : Bool) : Option Cause :=
  if view = 3 ∧ 1 < p then some .opndKind
  else if x % (if wide && view != 3 then 8 else 4) ≠ 0 then some .opndKind
  else if !c.owns [(x, if wide && view != 3 then 8 else 4)] then some .regIllegal
  else none

/-- ald (R289). -/
def execAld (d : Acc) (a : Vec) (n : Imm) (s : State) : Out :=
  runAcc [(a.val, 1)] [d.val] s fun s =>
    let view := fld n 5 2
    let p := fld n 0 5
    let c := s.cord
    if view ≠ 3 ∧ c.modeClash d.val (viewMode view) then accTrap .accMode d.val
    else
      match viewBad c view p a.val (view == 2) with
      | some k => .trap k c.word
      | none =>
        if view = 3 then s.queueForm (.ald d.val 3 [] (c.aldSides p a.val)) 2 8
        else Res.also (·.setMode d.val (viewMode view)) (s.queueForm (.ald d.val view (c.aldVals view p a.val) []) 2 8)

/-- Views that a mode allows (R290). -/
def viewAllowed (m : TMode) (view : Nat) : Bool := m == .z || m == .f || view == 0 || view == 3

/-- ast (R290). -/
def execAst (d : Vec) (a : Acc) (n : Imm) (s : State) : Out :=
  runAcc [(d.val, 1)] [a.val] s fun s =>
    let view := fld n 5 2
    let p := fld n 0 5
    let c := s.cord
    if !viewAllowed (c.modeOf a.val) view then accTrap .accMode a.val
    else
      match viewBad c view p d.val (c.modeOf a.val == .d) with
      | some k => .trap k c.word
      | none => s.queueForm (.ast (c.wb + d.val) a.val view p) 2 10

/-- aprom (R291). -/
def execAprom (d : Acc) (s : State) : Out := runAcc [] [d.val] s fun s => s.queueForm (.aprom d.val) 8 12

/-- acvt (R292). -/
def execAcvt (d : Acc) (n : Imm) (s : State) : Out :=
  runAcc [] [d.val] s fun s =>
    let m : TMode := if n.toNat = 0 then .f else if n.toNat = 1 then .i else .d
    Res.also (·.setMode d.val m) (s.queueForm (.acvt d.val m) 8 12)

/-- Early service (R277, R398). -/
def State.early (s : State) : Bool := s.dev.st == .early

def fmtTrap (a b : Nat) : Res := .trap .mmaFmt (BitVec.ofNat 64 (b * 16 + a))

/-- Translation of an operand fetch, and the queue entry (R280 step 5). -/
def State.queueFetch (work : TWork) (occ lat : Nat) (rs : List (Nat × Nat)) (s : State) : Res :=
  if s.queueFull then .stall {} s
  else withPages (runStarts rs) .r s fun ps s => .done (s.enqueue work occ lat ps (runHalves rs))

def mmaFmts : List Nat := [0, 9, 11, 12, 13]

/-- The accumulator mode of a format (R279). -/
def fmtMode (fmt : Nat) : TMode := if fmt = 0 then .i else if fmt = 11 then .d else .f

/-- mma (R280). -/
def execMma (d : Acc) (a b : Td) (s : State) : Out :=
  runAcc [] [d.val] s fun s =>
    let c := s.cord
    let x := c.desc a.val
    let y := c.desc b.val
    if !x.ok mmaFmts false (kOf x.fmt) then .trap .tdBad (BitVec.ofNat 64 a.val)
    else if !y.ok mmaFmts false (kOf y.fmt) then .trap .tdBad (BitVec.ofNat 64 b.val)
    else if x.fmt ≠ y.fmt ∨ (s.early ∧ (x.fmt = 13 ∨ x.fmt = 11)) then fmtTrap x.fmt y.fmt
    else if c.modeClash d.val (fmtMode x.fmt) then accTrap .accMode d.val
    else
      let occ := if x.fmt = 11 then 64 else if s.early then 32 else 16
      Res.also (·.setMode d.val (fmtMode x.fmt)) (s.queueFetch (.mma d.val x y) occ (occ + 8) (x.runs ++ y.runs))

/-- mma.acc (R306), its checks in the order of the entry: the modes, one tile twice, the descriptor, its format. -/
def execMmaAcc (d a : Acc) (b : Td) (s : State) : Out :=
  runAcc [] [d.val, a.val] s fun s =>
    let c := s.cord
    let y := c.desc b.val
    if c.modeOf a.val ≠ .f then accTrap .accMode a.val
    else if c.modeClash d.val .f then accTrap .accMode d.val
    else if d = a then .trap .opndKind c.word
    else if !y.ok (List.range 16) false 64 then .trap .tdBad (BitVec.ofNat 64 b.val)
    else if ¬[9, 12, 13].contains y.fmt ∨ (s.early ∧ y.fmt = 13) then fmtTrap (fld (Config.unstated s.fresh) 0 4) y.fmt
    else
      let k := if y.fmt = 13 then 16 else if y.fmt = 12 then 32 else 48
      let occ := if s.early then 2 * k else k
      Res.also (·.setMode d.val .f) (s.queueFetch (.mmaAcc d.val a.val y) occ (occ + 8) y.runs)

/-! Metadata (R299, R301). -/

/-- Registers of metadata read by a form: h, group, and the register, in increasing register order. -/
def metaRegs (x rows groups : Nat) : List (Nat × Nat × Nat) :=
  (List.range ((rows + 31) / 32)).flatMap fun h => (List.range groups).map fun g => (h, g, x + g + 12 * h)

/-- Index m of a metadata group (R296). -/
def metaIdx (w m : Nat) : Nat := w / 8 ^ m % 8

/-- A group whose four indices strictly increase (R296). -/
def groupOk (w : Nat) : Bool := decide (metaIdx w 0 < metaIdx w 1) && decide (metaIdx w 1 < metaIdx w 2) && decide (metaIdx w 2 < metaIdx w 3)

/-- Column i of a block of groups appears exactly four times (R298). -/
def blockOk (ws : List Nat) : Bool :=
  (List.range 8).all fun i => ((ws.flatMap fun w => (List.range 4).map (metaIdx w)).filter (· == i)).length == 4

/-- The first failure of the metadata scan of R301: register, lane, group. -/
def Cord.metaBad (c : Cord) (tr : Bool) (x rows groups : Nat) : Option (Nat × Nat × Nat) :=
  let scan (r : Nat × Nat × Nat) (b : Nat) : Option (Nat × Nat × Nat) :=
    let (h, g, reg) := r
    let lanes := ((List.range 8).map (8 * b + ·)).filter fun l => decide (32 * h + l < rows)
    let w (l : Nat) : Nat := fld (c.vreg reg l) 0 12
    match lanes.find? fun l => !groupOk (w l) with
    | some l => some (reg, l, g)
    | none => if tr && !lanes.isEmpty && !blockOk (lanes.map w) then some (reg, 8 * b, g) else none
  ((metaRegs x rows groups).flatMap fun r => (List.range 4).filterMap (scan r)).head?

/-- The group metadata of a compressed operand as the form takes it: key 12 × row + group. -/
def Cord.metaOf (c : Cord) (x rows groups : Nat) : List (Nat × Nat) :=
  (List.range rows).flatMap fun r => (List.range groups).map fun g =>
    (12 * r + g, fld (c.vreg (x + g + 12 * (r / 32)) (r % 32)) 0 12)

/-- mmas and mmast (R301). -/
def runSparse (tr : Bool) (d : Acc) (a b : Td) (lit : Word) (s : State) : Out :=
  runAcc [] [d.val] s fun s =>
    let c := s.cord
    let x := c.desc a.val
    let y := c.desc b.val
    let cols := if tr then 64 else 96
    let mode := fmtMode x.fmt
    let reg := fld lit 0 6
    let groups := (x.cext + 7) / 8
    let regs := metaRegs reg (if x.cext = 0 then 0 else x.rows) groups
    if !x.ok [0, 12] true cols ∨ (tr ∧ x.rows % 8 ≠ 0) then .trap .tdBad (BitVec.ofNat 64 a.val)
    else if !y.ok [0, 12] false cols then .trap .tdBad (BitVec.ofNat 64 b.val)
    else if x.fmt ≠ y.fmt then fmtTrap x.fmt y.fmt
    else if c.modeClash d.val mode then accTrap .accMode d.val
    else if regs.any fun r => decide (63 < r.2.2) then .trap .opndKind c.word
    else if !c.owns (regs.map fun r => (r.2.2, 1)) then .trap .regIllegal c.word
    else
      match c.metaBad tr reg x.rows groups with
      | some (r, l, g) => .trap .metaBad (BitVec.ofNat 64 (g * 2 ^ 16 + r * 2 ^ 8 + l * 8))
      | none =>
        let occ := if s.early then 32 else 16
        Res.also (·.setMode d.val mode) (s.queueFetch (.sparse tr d.val x y (c.metaOf reg x.rows groups)) occ (occ + 8) (x.runs ++ y.runs))

/-- mmas (R300 to R302). -/
def execMmas (d : Acc) (a b : Td) (lit : Word) (s : State) : Out := runSparse false d a b lit s

/-- mmast (R300 to R302). -/
def execMmast (d : Acc) (a b : Td) (lit : Word) (s : State) : Out := runSparse true d a b lit s

/-- amaxu (R304). -/
def execAmaxu (d : Acc) (s : State) : Out :=
  runAcc [] [d.val] s fun s =>
    if s.cord.modeOf d.val ≠ .f then accTrap .accMode d.val else s.queueForm (.amaxu d.val) 12 20

/-- arsc (R305). -/
def execArsc (d a : Acc) (s : State) : Out :=
  runAcc [] [d.val, a.val] s fun s =>
    if s.cord.modeOf a.val ≠ .f then accTrap .accMode a.val
    else if s.cord.modeClash d.val .f then accTrap .accMode d.val
    else s.queueForm (.arsc d.val a.val) 8 12

/-- Formats that a drain mode allows (R308). -/
def drainFmts (mode : Nat) : List Nat :=
  if mode = 0 then [0, 4, 8, 9, 10, 11, 12] else if mode = 1 then [4, 10, 11] else [10]

/-- The destination check of R308. -/
def Desc.drainOk (d : Desc) (lit : Word) : Bool :=
  let aon := bit lit 7
  d.plainOk && decide (d.rows ≤ 64) && decide (d.cext ≤ 64) && !d.sp && (drainFmts (fld lit 4 2)).contains d.fmt &&
    (!d.scen || (d.fmt == 12 && !aon)) && (!aon || d.scale % 8 == 0)

/-- Virtual lines of runs. -/
def runLines (rs : List (Nat × Nat)) : List Nat := ((runHalves rs).map fun h => h / 2 * 128).eraseDups

/-- SATF asks for an IEEE-style destination (R307). -/
def drainSatOk (d : Desc) (lit : Word) : Bool := !bit lit 6 || (decide (8 ≤ d.fmt) && decide (d.fmt ≤ 11))

/-- adrn at issue (R307, R308, R310). SATF with another destination raises opnd_kind before what the tile and the descriptor
raise (DESIGN CHOICE, log entry 63). -/
def execAdrn (a : Acc) (b : Td) (lit : Word) (s : State) : Out :=
  runForm (tForm []) s fun s =>
    let c := s.cord
    let y := c.desc b.val
    let rs := y.drainRuns
    if !drainSatOk y lit then .trap .opndKind c.word
    else
      match c.accBad [a.val] with
      | some k => accTrap .accRange k
      | none =>
        if !y.drainOk lit then .trap .tdBad (BitVec.ofNat 64 b.val)
        else if s.queueFull ∨ !c.roomSt 1 then .stall {} s
        else
          let ver := if bit lit 7 then [(y.scale, Need.w)] else []
          let scales := if y.scen && y.rows != 0 then (runStarts [(y.scale, y.rows)]).map fun v => (v, Need.r) else []
          withNeeds ((runStarts rs).map (fun v => (v, Need.w)) ++ ver ++ scales) s fun ps s =>
            if fld lit 4 2 = 2 ∧ (runLines rs).any fun v => (s.regionAt c.ctx v).isNone then .trap .bsRegion 31
            else
              let tok := s.fresh
              let s := s.open_ { tok := 0, flag := some c.flag, left := 1, stc := 1 }
              let s := s.onSelf fun c => { c with stcnt := c.stcnt + 1 }
              let q := s.fresh
              let kind (o : Op) : Op := if o.tok = tok then { o with kind := .drain c.core q } else o
              let s := s.onSelf fun c => { c with ops := c.ops.map kind }
              .done (State.onForm c.core q (fun f => { f with opTok := tok, regions := (s.ctxOf c.ctx).regions }) (s.enqueue (.adrn a.val y lit) 16 0 ps []))

/-! The tile fetch unit. -/

/-- The number of a line's stay in L2 (R282). -/
def State.stay (s : State) (line : Nat) : Nat := ((s.l2Find line).map (·.born)).getD 0

/-- A line is pinned for a form, unless its set already holds 8 pinned ways (R162, R282). -/
def State.pinLine (core q line : Nat) (s : State) : State :=
  let s := s.l2Fetch line
  let (_, pinned) := s.setPins line
  let have_ := (s.l2Find line).any (·.pinned)
  if !s.cacheable line then s
  else if 8 ≤ pinned ∧ !have_ then s.onForm core q fun f => { f with loose := f.loose ++ [(line, s.stay line)] }
  else
    let pin (x : L2Line) : L2Line := if x.line = line then { x with pins := x.pins + 1 } else x
    State.onForm core q (fun f => { f with pinned := f.pinned ++ [line] }) { s with l2 := s.l2.map pin }

/-- A half-line of an operand is read at its home at one moment; a region's line after the drains that its DTOL
forces; a lost line kills the launch (R282, R283, R364). What the form's cord has sent there before is behind it: the fetch waits for
its atomics and drains, and its stores lie over the bytes (R198, R205). -/
def execTileFetchLine (s : State) : Out :=
  match s.now with
  | some (.tileFetchLine core q half forced) =>
    .next <|
      match s.form core q with
      | none => s
      | some f =>
        if !f.need.contains half then s
        else
          let line := half / 2
          let va := ((f.vas.find? (·.1 == half)).map (·.2)).getD 0
          let r := s.regionAt f.ctx va
          let (fs, s) :=
            match forced, r with
            | some fs, _ => (fs, s)
            | none, some r => s.forceFor f.ctx { rgn := r.n, rgnGen := r.gen, tol := r.dtol }
            | none, none => ([], s)
          if (fs.any fun h => s.owing h) || s.readWaits f.cord f.q line then s.after 1 (.tileFetchLine core q half (some fs))
          else
            let bad := (s.readFails line).isSome
            let m := (s.cordRec f.cord).map (·.mid)
            let queue := ((m.bind s.findMotif).map (·.queue)).getD 0
            let s := if bad then s.killLaunch queue 0x20 else s
            let by_ := s.agentOfCord f.cord
            let (bs, s) := s.readHalf by_ line (half % 2 == 1)
            let bs := layOver (half % 2 * 64) bs (s.inFlightTo f.cord line f.q)
            let s := if f.pinned.contains line ∨ (f.loose.any fun l => l.1 == line) then s else s.pinLine core q line
            s.onForm core q fun f => { f with need := f.need.filter (· != half), got := f.got ++ [(half, bs)] }
  | _ => .next s

/-! Operand values. -/

/-- A byte of a fetched operand. -/
def TForm.byteAt (f : TForm) (va : Nat) : Byte :=
  let pa := xaddr f.trans f.ctx va
  ((f.got.find? (·.1 == pa / 64)).map fun g => g.2.getD (pa % 64) 0).getD 0

/-- The number at bit i of a row, w bits wide (R272). -/
def TForm.bitsAt (f : TForm) (row i w : Nat) : Nat :=
  let o := i / 8
  let n := (i % 8 + w + 7) / 8
  leNat ((List.range n).map fun k => f.byteAt ((row + o + k) % 2 ^ 64)) / 2 ^ (i % 8) % 2 ^ w

/-- The scale of a row; 127 without scales (R281). -/
def TForm.scaleOf (f : TForm) (d : Desc) (r : Nat) : Nat :=
  if d.scen then (f.byteAt ((d.scale + r) % 2 ^ 64)).toNat else 127

/-- decode × 2^(E - 127), NaN under the scale 0xFF (R281). -/
def scaled8 (fmt e bits : Nat) : Num := if e = 255 then .nan else (decodeFmt 0 fmt bits).scale ((e : Int) - 127)

def Num.zero : Num := .fin false 0 0

/-- Element k of row r of a dense operand, zero beyond its extents (R281). -/
def TForm.elem (f : TForm) (d : Desc) (r k : Nat) : Num :=
  let w := fmtWidth d.fmt
  if d.rows ≤ r ∨ d.cext ≤ k then Num.zero else scaled8 d.fmt (f.scaleOf d r) (f.bitsAt (d.row r) (k * w) w)

/-- w(r, k) of a compressed operand (R302). -/
def TForm.sparseElem (f : TForm) (d : Desc) (groups : List (Nat × Nat)) (r k : Nat) : Num :=
  let g := k / 8
  let w := SMap.get 0 groups (12 * r + g)
  if d.rows ≤ r ∨ d.cext ≤ k then Num.zero
  else
    match (List.range 4).find? fun m => metaIdx w m == k % 8 with
    | none => Num.zero
    | some m => scaled8 d.fmt (f.scaleOf d r) (f.byteAt ((d.row r + 4 * g + m) % 2 ^ 64)).toNat

/-! Accumulators. -/

def Tile.cAt (t : Tile) (i : Nat) : Dword := SMap.get 0 t.c i
def Tile.shAt (t : Tile) (i : Nat) : Word := SMap.get 0 t.sh i
def Tile.mAt (t : Tile) (r : Nat) : Word := SMap.get negInf32 t.m r
def Tile.mpAt (t : Tile) (r : Nat) : Word := SMap.get negInf32 t.mp r
def Tile.lAt (t : Tile) (r : Nat) : Word := SMap.get 0 t.l r

def enc32 (x : Num) : Word := BitVec.ofNat 32 (fp32.encode true .rne false x)

/-- S + C exactly (R270). -/
def Tile.sum (t : Tile) (i : Nat) : Num := Num.add (f32 (t.shAt i)) (decodeA26 (t.cAt i).toNat)

/-- V = rne(S + C) (R270). -/
def Tile.v (t : Tile) (i : Nat) : Word := enc32 (t.sum i)

/-- Elements f i for every index of a list, unlisted where equal to the default. -/
def tileMap {α : Type} [DecidableEq α] (d : α) (f : Nat → α) (is : List Nat) : SMap α :=
  (is.map fun i => (i, f i)).filter fun e => e.2 != d

def allElems : List Nat := List.range 4096

/-- Promotion (R286); every mode but F only clears NSTEP (R291). -/
def Tile.promote (t : Tile) : Tile :=
  if t.mode = .f then { t with sh := tileMap 0 t.v allElems, c := [], nstep := 0 } else { t with nstep := 0 }

/-- The integer that an exact whole value is. -/
def Num.toInt : Num → Int
  | .fin s m e => mant s m e 0 / 1
  | _ => 0

/-- One group added to an element's content (R284). -/
def addGroup (m : TMode) (c : Dword) (s : Num) : Dword :=
  match m with
  | .i => BitVec.ofNat 64 ((BitVec.ofInt 32 ((lo32 c).toInt + s.toInt)).toNat)
  | .d => BitVec.ofNat 64 (fp64.encode true .rne false (Num.add (fp64.decode c.toNat) s))
  | _ => BitVec.ofNat 64 (encodeA26 .rne false (Num.add (decodeA26 c.toNat) (decodeA26 (encodeA26 .rne false s))))

/-- The exact sum of products of a group (R284, R285). -/
def groupSum (a b : Nat → Num) (ks : List Nat) : Num := ks.foldl (fun s k => Num.add s (Num.mul (a k) (b k))) (.fin true 0 0)

/-- The effect of a multiply on a tile (R284, R295). -/
def Tile.multiply (t : Tile) (m : TMode) (a b : Nat → Nat → Num) (groups : List (List Nat)) (nm1 nrow ncol : Nat) : Tile :=
  let elem (i : Nat) : Dword :=
    groups.foldl (fun c ks => addGroup m c (groupSum (a (i / 64)) (b (i % 64)) ks)) (t.cAt i)
  let t := { t with c := tileMap 0 elem allElems, mode := m, nrow := nrow, ncol := ncol }
  if m = .f then
    let t := { t with nstep := (t.nstep + 1) % 128 }
    if t.nstep = nm1 + 1 then t.promote else t
  else t

/-- Runs of k that are summed together. -/
def groupsOf (k size : Nat) : List (List Nat) :=
  (List.range ((k + size - 1) / size)).map fun g => ((List.range size).map (g * size + ·)).filter (· < k)

/-- Conversion of a tile; one already in the mode, or in mode Z, only takes the mode (R292). -/
def Tile.convert (t : Tile) (m : TMode) : Tile :=
  let t' := { t with mode := m, nstep := 0 }
  let int (x : Num) : Dword := BitVec.ofNat 64 (encodeFmt 0 4 .rne false x)
  let num (i : Nat) : Num :=
    match t.mode with
    | .i => ofInt (lo32 (t.cAt i)).toInt
    | .d => fp64.decode (t.cAt i).toNat
    | _ => t.sum i
  if t.mode = .z ∨ t.mode = m then { t with mode := m }
  else
    match m with
    | .f => { t' with sh := tileMap 0 (fun i => enc32 (num i)) allElems, c := [] }
    | .i => { t' with c := tileMap 0 (fun i => int (num i)) allElems, sh := [] }
    | _ => { t' with c := tileMap 0 (fun i => BitVec.ofNat 64 (fp64.encode true .rne false (num i))) allElems, sh := [] }

/-- ald at its completion (R289). -/
def Tile.load (t : Tile) (view : Nat) (vals : List (Nat × Dword)) (sides : List (Nat × Word × Word × Word)) : Tile :=
  match view with
  | 0 =>
    { t with mode := .f, sh := SMap.setAll 0 t.sh (vals.map fun (i, x) => (i, lo32 x)),
             c := SMap.setAll 0 t.c (vals.map fun (i, _) => (i, 0)) }
  | 1 => { t with mode := .i, c := SMap.setAll 0 t.c (vals.map fun (i, x) => (i, (lo32 x).setWidth 64)) }
  | 2 => { t with mode := .d, c := SMap.setAll 0 t.c vals }
  | _ =>
    { t with m := SMap.setAll negInf32 t.m (sides.map fun (r, m, _, _) => (r, m)),
             mp := SMap.setAll negInf32 t.mp (sides.map fun (r, _, mp, _) => (r, mp)),
             l := SMap.setAll 0 t.l (sides.map fun (r, _, _, l) => (r, l)) }

/-- The extent record as ast writes it (R287). -/
def Tile.extent (t : Tile) : Word := BitVec.ofNat 32 (t.nrow % 128 + t.ncol % 128 * 256)

/-- The words that ast gives for an element under a view (R290). -/
def Tile.store (t : Tile) (view i : Nat) : List Word :=
  match t.mode, view with
  | .z, _ => [0]
  | .f, 0 => [t.v i]
  | .f, 1 => [t.shAt i]
  | .f, _ => [lo32 (t.cAt i)]
  | .i, _ => [lo32 (t.cAt i)]
  | .d, _ => [lo32 (t.cAt i), hi32 (t.cAt i)]

/-- The register writes of ast: x is the first physical register (R287, R290). -/
def Tile.astWrites (t : Tile) (x view p : Nat) : List RegWrite :=
  (List.range 32).flatMap fun l =>
    let ws :=
      if view = 3 then let r := 32 * p + l; [t.mAt r, t.mpAt r, t.lAt r, t.extent]
      else (List.range 4).flatMap fun j => t.store view (64 * viewRow p l + viewCol l j)
    ws.zipIdx.map fun (v, k) => .v (x + k) l v

/-- x - y for exponentials: equal infinities give 0 (R303). -/
def expDiff (x y : Num) : Num :=
  match x, y with
  | .inf s, .inf t => if s = t then Num.zero else .inf s
  | _, _ => Num.add x y.neg

/-- rne(2^(x - y)) (R303). -/
def exp2Diff (x y : Word) : Word :=
  match expDiff (f32 x) (f32 y) with
  | .nan => BitVec.ofNat 32 fp32.nanBits
  | .inf s => if s then 0 else BitVec.ofNat 32 (fp32.infBits false)
  | .fin s m e => exp2Num false s m e

/-- One row of amaxu: the new shadows of the row, M and L (R304). -/
def Tile.softRow (t : Tile) (i : Nat) : List (Nat × Word) × Word × Word :=
  let v (n : Nat) : Word := t.v (64 * i + n)
  let fmax (a b : Word) : Word := BitVec.ofNat 32 (fp32.minmax true a.toNat b.toNat)
  let mx := (List.range t.ncol).foldl (fun m n => fmax m (v n)) negInf32
  let mn := fmax (t.mAt i) mx
  let p (n : Nat) : Word := if n < t.ncol ∧ mn ≠ negInf32 then exp2Diff (v n) mn else 0
  let f := if mn = negInf32 then enc32 (.fin false 1 0) else exp2Diff (t.mAt i) mn
  let total := (List.range t.ncol).foldl (fun s n => Num.add s (f32 (p n))) (Num.mul (f32 (t.lAt i)) (f32 f))
  ((List.range 64).map fun n => (64 * i + n, p n), mn, enc32 total)

/-- amaxu (R304). -/
def Tile.softmax (t : Tile) : Tile :=
  (List.range t.nrow).foldl (fun u i =>
    let (ps, mn, l) := t.softRow i
    { u with sh := SMap.setAll 0 u.sh ps, c := SMap.setAll 0 u.c (ps.map fun x => (x.1, 0)),
             mp := SMap.set negInf32 u.mp i (t.mAt i), m := SMap.set negInf32 u.m i mn, l := SMap.set 0 u.l i l })
    { t with nstep := 0 }

/-- arsc on an output tile, with the side registers of the score tile (R305). -/
def Tile.rescale (t score : Tile) : Tile :=
  if t.mode ≠ .f then t
  else
    let f (i : Nat) : Word := exp2Diff (score.mpAt i) (score.mAt i)
    let fs := (List.range 64).map f
    { t with sh := tileMap 0 (fun i => enc32 (Num.mul (f32 (t.v i)) (f32 (fs.getD (i / 64) 0)))) allElems, c := [], nstep := 0 }

/-- The tile that a form writes, if it writes one. -/
def TWork.dest : TWork → Option Nat
  | .azero d => some d
  | .ald d _ _ _ => some d
  | .ast _ _ _ _ => none
  | .aprom d => some d
  | .acvt d _ => some d
  | .mma d _ _ => some d
  | .sparse _ d _ _ _ => some d
  | .mmaAcc d _ _ => some d
  | .amaxu d => some d
  | .arsc d _ => some d
  | .adrn _ _ _ => none

/-- The tiles that a form names. -/
def TWork.names : TWork → List Nat
  | .ast _ a _ _ => [a]
  | .mmaAcc d a _ => [d, a]
  | .arsc d a => [d, a]
  | .adrn a _ _ => [a]
  | w => w.dest.toList

/-- What the destination tile becomes, from the cord's tiles and operands as they are at the start (R284 to R306). -/
def TForm.effect (f : TForm) (c : Cord) : Option Tile :=
  match f.work with
  | .azero _ => some {}
  | .ald d view vals sides => some ((c.tile d).load view vals sides)
  | .aprom d => some (c.tile d).promote
  | .acvt d m => some ((c.tile d).convert m)
  | .mma d a b =>
    let k := kOf (Desc.fmt a)
    let size := if Desc.fmt a = 11 then 6 else 16
    some ((c.tile d).multiply (fmtMode (Desc.fmt a)) (f.elem a) (f.elem b) (groupsOf k size) f.nm1 (Desc.rows a) (Desc.rows b))
  | .sparse tr d a b groups =>
    let w := f.sparseElem a groups
    some ((c.tile d).multiply (fmtMode (Desc.fmt a)) (if tr then fun i k => w k i else w) (f.elem b)
      (groupsOf (if tr then 64 else 96) 32) f.nm1 (if tr then Desc.cext a else Desc.rows a) (Desc.rows b))
  | .mmaAcc d a b =>
    let t := c.tile a
    let fmt := Desc.fmt b
    let x (i k : Nat) : Num :=
      if i < t.nrow ∧ k < t.ncol then decodeFmt 0 fmt (encodeFmt 0 fmt .rne false (f32 (t.v (64 * i + k)))) else Num.zero
    some ((c.tile d).multiply .f x (f.elem b) (groupsOf 64 16) f.nm1 t.nrow (Desc.rows b))
  | .amaxu d => some (c.tile d).softmax
  | .arsc d a => some ((c.tile d).rescale (c.tile a))
  | .ast _ _ _ _ => none
  | .adrn _ _ _ => none

/-! Drains. -/

/-- The value of element (r, k) of a drained tile (R309). -/
def Tile.drained (t : Tile) (i : Nat) : Num :=
  match t.mode with
  | .z => Num.zero
  | .f => f32 (t.v i)
  | .i => ofInt (lo32 (t.cAt i)).toInt
  | .d => fp64.decode (t.cAt i).toNat

def drainRm (lit : Word) : Rm :=
  match fld lit 0 3 with
  | 0 => .rne | 1 => .rz | 2 => .ru | _ => .rd

/-- The physical address of the scale byte of a row (R308). -/
def TForm.scaleAt (f : TForm) (d : Desc) (r : Nat) : Nat := xaddr f.trans f.ctx ((d.scale + r) % 2 ^ 64)

/-- The lines of the scale bytes that a form reads as it starts (R308). -/
def TForm.scaleLines (f : TForm) : List Nat :=
  match f.work with
  | .adrn _ d _ => if Desc.scen d then ((List.range (Desc.rows d)).map fun r => lineOf (f.scaleAt d r)).eraseDups else []
  | _ => []

/-- Scale bytes wait for what the form's core has sent to their lines before it issued, and for its cord's atomics and drains there
(R198, R205, R308). -/
def State.scalesWait (s : State) (core : Nat) (f : TForm) : Bool :=
  let sent (line : Nat) (d : Due) : Bool :=
    match d.what with
    | .storeAtHome m => m.core == core && m.line == line && decide (m.tok ≤ f.opTok)
    | .atomicAtHome r => r.core == core && r.line == line && decide (r.tok ≤ f.opTok)
    | _ => false
  f.scaleLines.any fun line => s.readWaits f.cord f.opTok line || s.agenda.any (sent line)

/-- The read of the scale bytes: a line that is lost kills the launch (R308, R364, R367). -/
def State.readScales (f : TForm) (s : State) : State :=
  let by_ := s.agentOfCord f.cord
  let bad := f.scaleLines.any fun line => (s.readFails line).isSome
  let s := f.scaleLines.foldl (fun s line => State.noteRead by_ (line * 128) (s.l2Fetch line)) s
  if bad then s.messageLost f.cord else s

/-- The elements of a drain as physical address and encoding, row by row (R309); scales are read now, with the stores of the cord
that still wait with its releases (R205, R308). -/
def State.drainElems (s : State) (f : TForm) (t : Tile) (d : Desc) (lit : Word) : List (Nat × Nat) :=
  let scale (r : Nat) : Nat :=
    let pa := f.scaleAt d r
    if d.scen then leNat (layOver (pa % 128) [s.homeByte pa] (s.inFlightTo f.cord (lineOf pa) f.opTok)) else 127
  let z := drainBytes d.fmt
  (List.range d.rows).flatMap fun r =>
    let e := scale r
    (List.range d.cext).map fun k =>
      let x := t.drained (64 * r + k)
      let x := if e = 255 then .nan else x.scale (127 - (e : Int))
      (xaddr f.trans f.ctx ((d.row r + k * z) % 2 ^ 64), encodeFmt 0 d.fmt (drainRm lit) (bit lit 6) x)

/-- The lines of a drain (R309). -/
def drainLines (add : Bool) (fmt : Nat) (es : List (Nat × Nat)) : List DrainLine :=
  let lines := (es.map fun e => lineOf e.1).eraseDups
  lines.map fun l => ⟨l, add, fmt, (es.filter fun e => lineOf e.1 == l).map fun e => (e.1 % 128, e.2)⟩

/-- An outstanding form has n more parts. -/
def State.moreParts (c tok n : Nat) (s : State) : State :=
  s.onCord c fun x => { x with ops := x.ops.map fun o => if o.tok = tok then { o with left := o.left + n } else o }

/-- Lines leave for their homes (R309). -/
def State.sendLines (core : Nat) (f : TForm) (s : State) : State :=
  f.lines.foldl (fun s l =>
    s.afterPath core (s.homeOf l.line) ((s.leastRow core l.line).1 / 2) (.adrnLineAck core f.q (some l))) s

/-- Additions leave for the picot cache of the cluster, each for the region that held its address as the form issued; one freed since
is no longer there (R309 MODE 2). -/
def State.sendWithheld (core : Nat) (f : TForm) (d : Desc) (es : List (Nat × Nat)) (s : State) : State :=
  let n := d.cext
  (es.zipIdx).foldl (fun s (e, i) =>
    let va := (d.row (i / max 1 n) + i % max 1 n * 4) % 2 ^ 64
    let r := f.regions.find? (·.has va)
    let x : Addition :=
      { cord := f.cord, core := core, ctx := f.ctx, rgn := (r.map (·.n)).getD 31, addr := e.1, val := BitVec.ofNat 32 e.2,
        tok := f.opTok, gen := (r.map (·.gen)).getD 0 }
    s.afterPath core (picotKey (clusterOf core)) 1 (.additionAtPicot x)) s

/-- The drain of a tile starts: it reads the tile and sends its lines, or its first version update (R309, R311). -/
def State.startDrainForm (core : Nat) (f : TForm) (t : Tile) (d : Desc) (lit : Word) (s : State) : State :=
  let mode := fld lit 4 2
  let es := s.drainElems f t d lit
  let s := s.readScales f
  if mode = 2 then
    State.opPart f.cord f.opTok (State.sendWithheld core f d es (s.moreParts f.cord f.opTok es.length))
  else
    let f := { f with lines := drainLines (mode == 1) d.fmt es }
    let s := s.onForm core f.q fun g => { g with lines := f.lines }
    let s := s.moreParts f.cord f.opTok f.lines.length
    if bit lit 7 then
      let line := lineOf (xaddr f.trans f.ctx d.scale)
      s.afterPath core (s.homeOf line) ((s.leastRow core line).1 / 2) (.adrnVersionPerformed core f.q)
    else State.opPart f.cord f.opTok (State.sendLines core f s)

/-- New value of an element under an add at its home (R253, R309). -/
def drainAdd (fmt old y : Nat) : Nat :=
  if fmt = 4 then (old + y) % 2 ^ 32 else (ieeeOf fmt).op2 false false Num.add old y

/-- A line of a drain is performed as one update of its home; ownership clears first (R200, R309). -/
def State.drainPerform (by_ : Agent) (x : DrainLine) (s : State) : State :=
  let z := drainBytes x.fmt
  let base := x.line * 128
  let put (cells : List (Nat × Byte)) (e : Nat × Nat) : List (Nat × Byte) :=
    let cur (i : Nat) : Byte := ((cells.find? fun c => c.1 == base + e.1 + i).map (·.2)).getD (s.byte (base + e.1 + i))
    let y := if x.add then drainAdd x.fmt (leNat ((List.range z).map cur)) e.2 else e.2
    cells.filter (fun c => !(decide (base + e.1 ≤ c.1) && decide (c.1 < base + e.1 + z))) ++ cellsAt (base + e.1) (leBytes y z)
  let cells := x.elems.foldl put []
  let s := s.takeOwner none x.line (wordsOf (cells.map fun c => c.1 % 128))
  let s := if cells.length = 128 ∧ !x.add then s.unlose x.line else s
  s.performWrite by_ cells

/-- A drained line reaches its home and is performed, and then its acknowledgement arrives (R309, R310). An
all-or-nothing drain sends its last version update after the last of them (R311). -/
def execAdrnLineAck (s : State) : Out :=
  match s.now with
  | some (.adrnLineAck core q x) =>
    .next <|
      match s.form core q, x with
      | none, _ => s
      | some f, some l =>
        if s.unreachable l.line then s.after 0 (.adrnLineAck core q .none) |>.messageLost f.cord
        else if s.agenda.any (adapterWrite l.line) then s.settleAdapter l.line (.adrnLineAck core q (some l))
        else
        match s.loadAhead core f.cord l.line f.opTok, s.owedNotices none l.line (wordsOf (l.elems.flatMap fun e => (List.range (drainBytes l.fmt)).map (e.1 + ·))) with
        | some t, _ => s.hold (t + 1) (.adrnLineAck core q (some l))
        | none, n :: ns => s.notifyFirst (n :: ns) l.line (.adrnLineAck core q (some l))
        | none, [] => State.afterFree ((s.leastRow core l.line).1 / 2) (.adrnLineAck core q .none) (s.drainPerform (s.agentOfCord f.cord) l)
      | some f, none =>
        let s := s.opPart f.cord f.opTok
        let left := (((s.cordRec f.cord).bind fun c => c.ops.find? (·.tok == f.opTok)).map (·.left)).getD 0
        match f.work with
        | .adrn _ d lit =>
          if bit lit 7 ∧ left = 1 then
            let line := lineOf (xaddr f.trans f.ctx (Desc.scale d))
            s.afterPath core (s.homeOf line) ((s.leastRow core line).1 / 2) (.adrnVersionPerformed core q)
          else s
        | _ => s
  | _ => .next s

/-- The version word takes 1 more at its home: the first time the lines follow, the second time the drain is over (R311). -/
def execAdrnVersionPerformed (s : State) : Out :=
  match s.now with
  | some (.adrnVersionPerformed core q) =>
    .next <|
      match s.form core q with
      | none => s
      | some f =>
        match f.work with
        | .adrn _ d _ =>
          let a := xaddr f.trans f.ctx (Desc.scale d)
          let line := lineOf a
          if s.agenda.any (adapterWrite line) then s.settleAdapter line (.adrnVersionPerformed core q)
          else
          match s.owedNotices none line (wordsOf [a % 128, a % 128 + 4]) with
          | n :: ns => s.notifyFirst (n :: ns) line (.adrnVersionPerformed core q)
          | [] =>
            let perform (s : State) : State :=
              let s := s.takeOwner none line (wordsOf [a % 128, a % 128 + 4])
              s.performWrite (s.agentOfCord f.cord) (cellsAt a (leBytes (s.num a 8 + 1) 8))
            let s := if s.unreachable line then s.messageLost f.cord else perform s
            let again : Event := .adrnVersionPerformed core q
            if f.version ≠ 0 then s.opPart f.cord f.opTok
            else
              let s := s.onForm core q fun g => { g with version := 1 }
              if f.lines.isEmpty then s.afterPath core (s.homeOf line) ((s.leastRow core line).1 / 2) again
              else s.sendLines core f
        | _ => s
  | _ => .next s

/-! Start, occupancy and completion. -/

/-- A form that an earlier one still keeps from its tiles (R268). -/
def Core.tileBusy (x : Core) (f : TForm) : Bool :=
  (x.tq.takeWhile (·.q != f.q)).any fun g =>
    g.cord == f.cord && (match g.work.dest with | some d => f.work.names.contains d | none => false)

/-- Lines read without a pin and replaced since, be they back in L2 or not (R162, R282). -/
def State.replaced (s : State) (f : TForm) : List Nat :=
  (f.loose.filter fun l => (s.l2Find l.1).isNone || s.stay l.1 != l.2).map (·.1)

/-- The form at the head of a core's queue can start (R277, R401). -/
def State.canStart (s : State) (core : Nat) : Option TForm :=
  let x := s.coreOf core
  match x.waiting with
  | [] => none
  | f :: _ =>
    let free := x.tq.all fun g => g.phase != .occupying
    let held := SMap.get 0 s.dev.tokens (clusterOf core)
    if free && f.sent && f.need.isEmpty && decide (f.tokens ≤ held) && !x.tileBusy f && !s.scalesWait core f then some f else none

/-- The form at the head starts: it takes its tokens, reads its tiles and occupies the array (R277, R401). -/
def execTambourFormStart (s : State) : Out :=
  match s.now with
  | some (.tambourFormStart core) =>
    .next <|
      match s.canStart core with
      | none => s
      | some f =>
        let again := s.replaced f
        if !again.isEmpty then
          let halves := (f.vas.map (·.1)).filter fun h => again.contains (h / 2)
          let drop (g : TForm) : TForm :=
            { g with need := halves, got := g.got.filter fun x => !halves.contains x.1, loose := g.loose.filter fun l => !again.contains l.1 }
          State.sendFetches core f halves (s.onForm core f.q drop)
        else
          let c := (s.cordRec f.cord).getD {}
          let cl := clusterOf core
          let s := { s with dev := { s.dev with tokens := SMap.upd 0 s.dev.tokens cl (· - f.tokens) } }
          let ws := match f.work with | .ast x a view p => (c.tile a).astWrites x view p | _ => []
          let run (g : TForm) : TForm := { g with phase := .occupying, tile := f.effect c, writes := ws }
          let s := State.after f.occ (.tambourOccupancyEnd core f.q) (s.onForm core f.q run)
          match f.work with
          | .adrn a d lit => s.startDrainForm core f (c.tile a) d lit
          | _ => s.after f.lat (.tambourFormComplete core f.q)
  | _ => .next s

/-- Pins of a form are released (R282). -/
def State.unpin (lines : List Nat) (s : State) : State :=
  { s with l2 := s.l2.map fun x => if lines.contains x.line then { x with pins := x.pins - 1 } else x }

/-- The form is a drain whose last part has ended (R310). -/
def State.drainOver (s : State) (f : TForm) : Bool :=
  match f.work with
  | .adrn _ _ _ => ((s.cordRec f.cord).map fun c => c.ops.all (·.tok != f.opTok)).getD true
  | _ => false

/-- A form leaves the array or the port: its pins go, and the next form's fetch may use the reserve (R162, R282). -/
def execTambourOccupancyEnd (s : State) : Out :=
  match s.now with
  | some (.tambourOccupancyEnd core q) =>
    .next <|
      match s.form core q with
      | none => s
      | some f =>
        let s := State.startFetches core (State.unpin f.pinned (s.onForm core q fun g => { g with phase := .leaving, pinned := [] }))
        if s.drainOver f then s.dropForm core q else s
  | _ => .next s

/-- A form's results are written and its flag decrements (R277). -/
def execTambourFormComplete (s : State) : Out :=
  match s.now with
  | some (.tambourFormComplete core q) =>
    .next <|
      match s.form core q with
      | none => s
      | some f =>
        let s := s.dropForm core q
        let s :=
          match f.tile, f.work.dest with
          | some t, some d => s.onCord f.cord fun c => c.setTile d t
          | _, _ => s
        s.complete f.cord f.flag f.writes
  | _ => .next s

/-! The vector-unit forms of sparsity. -/

/-- |x| of a signed byte (R297). -/
def byteMag (x : Nat) : Nat := (sextNat x 8).natAbs

/-- The four kept indices of a group of eight bytes (R297). -/
def keptOf (x : Nat → Nat) : List Nat :=
  (List.range 8).filter fun j =>
    decide (((List.range 8).filter fun k => decide (byteMag (x j) < byteMag (x k)) || (byteMag (x k) == byteMag (x j) && decide (k < j))).length < 4)

/-- cmpr (R297). -/
def execCmpr (d a b : Vec) (s : State) : Out :=
  runRegs { lat := .f6, unit := .vec 1, vecs := [(d.val, 1), (a.val, 2), (b.val, 1)], whole := true } s fun c =>
    let x (l j : Nat) : Nat := fld (pair64 (c.vreg a.val l) (c.vreg (a.val + 1) l)) (8 * j) 8
    let vals (l : Nat) : Nat := leNat ((keptOf (x l)).map fun j => BitVec.ofNat 8 (x l j))
    let idxs (l : Nat) : Nat := (keptOf (x l)).foldr (fun j n => j + 8 * n) 0
    c.writes32 (.v d) (fun l => BitVec.ofNat 32 (vals l)) ++ c.writes32 (.v b) fun l => BitVec.ofNat 32 (idxs l)

/-- mtchk (R298). -/
def execMtchk (d : Wr) (a : Vec) (s : State) : Out :=
  runRegs { netForm 16 (wrVecs d 1 ++ [(a.val, 1)]) with whole := true } s fun c =>
    let w (l : Nat) : Nat := fld (c.vreg a.val l) 0 12
    let ok (b : Nat) : Bool :=
      let ws := (List.range 8).map fun i => w (8 * b + i)
      ws.all groupOk && blockOk ws
    c.writesOnce d (maskOf ((List.range 4).filter ok))

end Sys2Proof.Machine
end

