-- ==== Sys2Proof/Machine/Bobbin.lean ====
section
/-! DEFINITION. Bobbin.lean: the bobbin copy engine: commands and their checks (R250, R251), twist (R252), the work
of each kind (R253 to R255), completion and faults (R256, R257), taking commands (R249). -/

namespace Sys2Proof.Machine

/-! Commands. -/

abbrev Cmd := List Word

def Cmd.word (w : Cmd) (i : Nat) : Word := List.getD w i 0
def Cmd.num (w : Cmd) (i : Nat) : Nat := (w.word i).toNat
def Cmd.kind (w : Cmd) : Nat := fld (w.word 0) 28 4
def Cmd.dir (w : Cmd) : Nat := fld (w.word 0) 26 2
def Cmd.tw (w : Cmd) : Nat := fld (w.word 0) 24 2
def Cmd.be (w : Cmd) : Bool := bit (w.word 0) 23
def Cmd.bar (w : Cmd) : Nat := fld (w.word 0) 19 4
def Cmd.bcnt (w : Cmd) : Nat := fld (w.word 0) 12 7
def Cmd.ty (w : Cmd) : Nat := fld (w.word 0) 8 4
def Cmd.ma (w : Cmd) : Nat := w.num 4 + w.num 5 * 2 ^ 32
def Cmd.mb (w : Cmd) : Nat := w.num 6 + w.num 7 * 2 ^ 32
def Cmd.po (w : Cmd) : Nat := w.num 2

/-- copy or fill (R250). -/
def Cmd.flat (w : Cmd) : Bool := w.kind == 0 || w.kind == 5
/-- The gather family (R250). -/
def Cmd.family (w : Cmd) : Bool := w.kind == 2 || w.kind == 3 || w.kind == 4 || w.kind == 6 || w.kind == 7
/-- fgather and fscatter (R255). -/
def Cmd.fabric (w : Cmd) : Bool := w.kind == 6 || w.kind == 7
/-- Rows and row bytes; copy and fill are one row of LEN bytes. -/
def Cmd.count (w : Cmd) : Nat := if w.flat then 1 else fld (w.word 1) 16 16
def Cmd.rb (w : Cmd) : Nat := if w.flat then w.num 1 else fld (w.word 1) 0 16

/-- The destination is memory (R250). -/
def Cmd.toMem (w : Cmd) : Bool :=
  match w.kind with
  | 0 => w.dir == 1 || w.dir == 2
  | 1 => w.dir == 1
  | 5 => w.dir == 1
  | 3 | 4 | 7 => true
  | _ => false

/-- The source is memory (R250). -/
def Cmd.fromMem (w : Cmd) : Bool :=
  match w.kind with
  | 0 => w.dir == 0 || w.dir == 2
  | 1 => w.dir == 0
  | 2 | 6 => true
  | _ => false

/-- R251 step 1: every field holds a value that R250 allows. -/
def Cmd.fieldsOk (w : Cmd) : Bool :=
  let k := w.kind
  let common := decide (k ≤ 7) && fld (w.word 0) 0 8 == 0 && (if w.be then w.bcnt != 0 else w.bar == 0 && w.bcnt == 0) &&
    (if k = 4 then w.ty == 4 || w.ty == 10 else w.ty == 0)
  let inRange (x lo hi : Nat) : Bool := decide (lo ≤ x) && decide (x ≤ hi)
  common &&
    if w.flat then
      let copy := k == 0
      w.tw == 0 && (copy || decide (w.dir ≤ 1)) && inRange w.rb 16 (2 ^ 30) &&
        (!(if copy then w.dir == 2 else w.dir == 1) || w.po == 0) &&
        (!copy || w.dir == 3 || w.num 3 == 0) &&
        (!(if copy then w.dir == 3 else w.dir == 0) || w.ma == 0) && ((copy && w.dir == 2) || w.mb == 0)
    else
      inRange w.count 1 65535 && inRange w.rb 16 65520 &&
        if k = 1 then decide (w.dir ≤ 1) && decide (w.rb ≤ w.num 3) && w.mb == 0
        else w.dir == 0 && inRange (w.num 3) 1 (2 ^ 31 - 1)

/-- R251 step 2: multiples of 16, the index list of 4, and the needs of the twist. -/
def Cmd.alignOk (w : Cmd) : Bool :=
  let m16 (x : Nat) : Bool := x % 16 == 0
  m16 w.po && m16 w.ma && m16 w.rb &&
    (if w.kind = 0 then m16 (w.num 3) && m16 w.mb else if w.kind = 1 then m16 (w.num 3) else true) &&
    (!w.family || w.mb % 4 == 0) && (w.tw != 1 || w.rb % 128 == 0) && (w.tw != 2 || w.rb % 64 == 0)

/-- Pillow ranges of a command. -/
def Cmd.pilRanges (w : Cmd) : List (Nat × Nat) :=
  if w.flat then
    (if w.kind = 5 then (if w.dir = 0 then [(w.po, w.rb)] else [])
     else match w.dir with
      | 0 | 1 => [(w.po, w.rb)]
      | 3 => [(w.po, w.rb), (w.num 3, w.rb)]
      | _ => [])
  else [(w.po, w.count * w.rb)]

/-- Memory ranges of a command. -/
def Cmd.memRanges (w : Cmd) : List (Nat × Nat) :=
  match w.kind with
  | 0 => if w.dir = 2 then [(w.ma, w.rb), (w.mb, w.rb)] else if w.dir = 3 then [] else [(w.ma, w.rb)]
  | 1 => [(w.ma, (w.count - 1) * w.num 3 + w.rb)]
  | 5 => if w.dir = 1 then [(w.ma, w.rb)] else []
  | _ => [(w.ma, w.num 3 * w.rb), (w.mb, 4 * w.count)]

/-- R251 step 5. -/
def Cmd.overlap (w : Cmd) : Bool :=
  match w.kind with
  | 0 => (w.dir == 2 && overlaps w.ma w.rb w.mb w.rb) || (w.dir == 3 && overlaps w.po w.rb (w.num 3) w.rb)
  | 3 | 4 | 7 => overlaps w.mb (4 * w.count) w.ma (w.num 3 * w.rb)
  | _ => false

/-- The fault code of the checks at the take; 0 when they pass (R251). -/
def Cmd.check (w : Cmd) (ba : Nat) : Nat :=
  if !w.fieldsOk then 1
  else if !w.alignOk then 3
  else if w.pilRanges.any fun (o, n) => decide (ba < o + n) then 2
  else if w.memRanges.any fun (a, n) => decide (2 ^ 64 < a + n) then 5
  else if w.overlap then 4
  else 0

/-! Addresses. -/

/-- Granule j of row k under the twist (R252). -/
def Cmd.twist (w : Cmd) (k j : Nat) : Nat :=
  match w.tw with
  | 0 => j
  | 1 => j ^^^ (k % 8)
  | 2 => j ^^^ (k % 4)
  | _ => (j + k) % (w.rb / 16)

/-- Pillow offset of byte o of row k; second stands for the destination of a copy within pillow (R252). -/
def Cmd.pilAt (w : Cmd) (second : Bool) (k o : Nat) : Nat :=
  (if second then w.num 3 else w.po) + k * w.rb + 16 * w.twist k (o / 16) + o % 16

/-- The index of row k, once it is read. -/
def JEntry.index (e : JEntry) (k : Nat) : Option Nat := (e.idx.getD k .none)

/-- Virtual memory address of byte o of row k; second stands for the destination of a copy within memory. -/
def JEntry.memAt (e : JEntry) (second : Bool) (k o : Nat) : Nat :=
  let w : Cmd := e.w
  match w.kind with
  | 0 => (if second && w.dir == 2 then w.mb else w.ma) + o
  | 1 => w.ma + k * w.num 3 + o
  | 5 => w.ma + o
  | _ => w.ma + ((e.index k).getD 0) * w.rb + o

/-- A page that the command has reached. -/
def JEntry.page (e : JEntry) (ctx va : Nat) : Option Page := e.trans.find? fun p => p.covers ctx va

/-! Journal entries in a core. -/

def State.cmd (s : State) (core j : Nat) : Option JEntry := (s.coreOf core).journal.find? (·.j == j)

def State.onCmd (core j : Nat) (f : JEntry → JEntry) (s : State) : State :=
  s.onCore core fun x => { x with journal := x.journal.map fun e => if e.j = j then f e else e }

/-- A command stops at its first fault (R256). -/
def JEntry.fail (e : JEntry) (code : Nat) : JEntry := { e with fault := if e.fault = 0 then code else e.fault }

/-- The kinds whose rows may name one byte of memory more than once: their writes follow row or list order (R254). -/
def Cmd.ordered (w : Cmd) : Bool := w.kind == 1 || w.kind == 3 || w.kind == 4 || w.kind == 7

/-- What a command does next. -/
inductive BobNext where
  | finished
  | hold
  | reach (va : Nat) (w : Bool)
  | fail (code : Nat)
  | index
  | skip
  | piece (x : BobPiece) (n : Nat)
  deriving DecidableEq, Repr

/-- Pages not reached, or reached without the permission that the access needs (R255). -/
def JEntry.needs (e : JEntry) (ctx : Nat) (vas : List (Nat × Bool)) : Option BobNext :=
  match vas.find? fun v => (e.page ctx v.1).isNone with
  | some (va, w) => some (.reach va w)
  | none =>
    if vas.all fun v => ((e.page ctx v.1).map fun p => if v.2 then p.w else p.r).getD false then none else some (.fail 6)

/-- Pieces of n bytes at va that do not cross a unit. -/
def cutRuns (unit : Nat) (va : Nat) : Nat → Nat → List (Nat × Nat)
  | _, 0 => []
  | 0, _ => []
  | fuel + 1, n =>
    let m := min n (unit - va % unit)
    (va, m) :: cutRuns unit (va + m) fuel (n - m)

/-- Length of the piece at a row's byte: a granule where both sides are pillow, a 64-byte half-line read into
pillow, a line written to memory (R253). -/
def JEntry.pieceLen (e : JEntry) (drop : Bool) (k o : Nat) : Nat :=
  let w : Cmd := e.w
  let left := w.rb - o
  if w.toMem then min left (128 - e.memAt true k o % 128)
  else if w.fromMem && !drop then min left (64 - e.memAt false k o % 64)
  else min left 16

/-- A copy within memory whose source half-lines do not end where its destination lines do. -/
def Cmd.shifted (w : Cmd) : Bool := w.kind == 0 && w.dir == 2 && w.ma % 64 != w.mb % 64

/-- What a piece reads of memory: its bytes, and for a shifted copy what follows the bytes in hand to the end of the last
half-line, which is read at one moment (R253). -/
def JEntry.sources (e : JEntry) (k o n : Nat) : List (Nat × Nat) :=
  let w : Cmd := e.w
  if Cmd.shifted w then
    let a := e.memAt false k o + e.carry.length
    let last := e.memAt false k (o + n)
    if last ≤ a then [] else cutRuns 64 a 4 (min (e.memAt false k w.rb) ((last + 63) / 64 * 64) - a)
  else cutRuns 64 (e.memAt false k o) 4 n

/-- The piece at a position whose index, if it has one, has been read (R253). -/
def JEntry.pieceAt (e : JEntry) (ctx k o : Nat) : BobNext :=
  let w : Cmd := e.w
  let drop := w.family && (e.index k).isNone
  let n := e.pieceLen drop k o
  let phys (va : Nat) : Nat := ((e.page ctx va).map fun p => p.addr va).getD 0
  if drop && w.toMem then .skip
  else
    let srcs := if w.fromMem && !drop then e.sources k o n else []
    let dstVa := e.memAt true k o
    match e.needs ctx (srcs.map (fun r => (r.1, false)) ++ if w.toMem then [(dstVa, true)] else []) with
    | some x => x
    | none =>
      let value := (List.range (n / 4)).flatMap fun _ => leBytes (w.num 3) 4
      let zero := (List.range n).map fun _ => (0 : Byte)
      let fill := w.kind == 5
      let pil := (cutRuns 16 o 9 n).map fun r => (w.pilAt false k r.1, r.2)
      let reads := if fill || drop then [] else if w.fromMem then srcs.map fun r => (phys r.1, r.2) else pil
      .piece ⟨k, o, w.fromMem, reads, if fill then value else if drop then zero else e.carry, if w.toMem then some (phys dstVa) else none⟩ n

/-- What a command does next (R253, R255). -/
def JEntry.next (e : JEntry) (ctx : Nat) : BobNext :=
  let w : Cmd := e.w
  if e.fault ≠ 0 ∨ w.count ≤ e.row then .finished
  else if e.waiting ∨ 64 ≤ e.pieces ∨ ((w.ordered || Cmd.shifted w) ∧ 0 < e.pieces) then .hold
  else if w.family ∧ e.idx.length ≤ e.row then
    let k := e.idx.length
    let n := min 8 (w.count - k)
    match e.needs ctx [(w.mb + 4 * k, false), (w.mb + 4 * (k + n) - 1, false)] with
    | some x => x
    | none => .index
  else e.pieceAt ctx e.row e.off

/-- An index out of range drops its row, which counts as the command comes to it (R253). -/
def JEntry.drop (e : JEntry) : JEntry :=
  if Cmd.family e.w && e.off == 0 && (e.index e.row).isNone then { e with drops := e.drops + 1 } else e

/-- The position after n bytes. -/
def JEntry.advance (e : JEntry) (n : Nat) : JEntry :=
  let rb := Cmd.rb e.w
  if rb ≤ e.off + n then { e with row := e.row + 1, off := 0 } else { e with off := e.off + n }

/-- The key of the path that a command's messages take: the core's, or its die's tatting unit (R198, R255). -/
def JEntry.path (e : JEntry) (core : Nat) : Nat := if Cmd.fabric e.w then 3000 + dieOf core else core

/-- Sends the next read of a piece, or lets its next step happen. -/
def State.sendPiece (core : Nat) (e : JEntry) (x : BobPiece) (s : State) : State :=
  match x.mem, x.reads with
  | true, (a, _) :: _ =>
    s.afterPath (e.path core) (s.homeOf (lineOf a)) (s.leastOpen core (lineOf a)) (.bobbinDataReturn core e.j x)
  | _, _ => s.afterFree 1 (.bobbinDataReturn core e.j x)

/-- A command goes on: it starts what it can, up to n pieces. -/
def State.bobRun (core j : Nat) : Nat → State → State
  | 0, s => s
  | n + 1, s =>
    match s.cmd core j with
    | none => s
    | some e =>
      let ctx := ((s.findMotif e.mid).map (·.ctx)).getD 0
      match e.next ctx with
      | .finished => if e.pieces = 0 ∧ e.acks = 0 then s.onCmd core j fun e => { e with complete := true } else s
      | .hold => s
      | .reach va w => State.afterFree 1 (.bobbinPageReach core j va w) (s.onCmd core j fun e => { e with waiting := true })
      | .fail code => State.bobRun core j n (s.onCmd core j fun e => e.fail code)
      | .index => State.afterFree 1 (.bobbinIndexRead core j) (s.onCmd core j fun e => { e with waiting := true })
      | .skip => State.bobRun core j n (s.onCmd core j fun e => e.drop.advance (Cmd.rb e.w))
      | .piece x k =>
        let s := s.onCmd core j fun e => { e.drop.advance k with pieces := e.pieces + 1 }
        State.bobRun core j n (State.sendPiece core e x s)

def State.bobGo (core j : Nat) (s : State) : State := State.bobRun core j 66 s

/-! Taking commands. -/

/-- The published commands of a motif that are next to be taken: replays first (R249, R261). -/
def Motif.hasWork (m : Motif) : Bool := !m.replays.isEmpty || !m.pubs.isEmpty

/-- The motif whose command the bobbin takes next: in order of residence from the one after the last (R249, R409). -/
def State.bobPick (s : State) (core : Nat) : Option Motif :=
  let ms := s.allMotifs.filter fun m => m.core == core && m.status == .running && !m.saving && m.hasWork
  let least (l : List Motif) : Option Motif :=
    l.foldl (fun b m =>
      match b with
      | none => some m
      | some y => if m.startOrd < y.startOrd then some m else some y) none
  let x := s.coreOf core
  if s.bobHeldAt core ∨ 64 ≤ x.journal.length then none
  else
    match least (ms.filter fun m => decide (x.bobLast < m.startOrd)) with
    | some m => some m
    | none => least ms

/-- The bobbin takes a command into a free journal entry: it reads the entry at one moment and checks it (R249, R251). -/
def execBobbinTake (s : State) : Out :=
  match s.now with
  | some (.bobbinTake core) =>
    .next <|
      match s.bobPick core with
      | none => s
      | some m =>
        let s := s.onCore core fun x => { x with bobLast := m.startOrd }
        match m.replays, m.pubs with
        | e :: rest, _ =>
          let e : JEntry := if e.complete then { e with j := s.fresh } else { j := s.fresh, mid := m.mid, pub := e.pub, w := e.w }
          let s := s.tick.onMotif m.mid fun x => { x with replays := rest }
          State.bobGo core e.j (s.onCore core fun x => { x with journal := x.journal ++ [e] })
        | [], p :: rest =>
          let ba := m.ba.getD 0
          let at_ := ba + 0x20 * (p.seq % 64)
          let w : List Word := (List.range 8).map fun i => BitVec.ofNat 32 (m.pilNum (at_ + 4 * i) 4)
          let e : JEntry := { j := s.fresh, mid := m.mid, pub := p, w := w, fault := Cmd.check w ba }
          let s := s.tick.onMotif m.mid fun x => { x with pubs := rest }
          State.bobGo core e.j (s.onCore core fun x => { x with journal := x.journal ++ [e] })
        | [], [] => s
  | _ => .next s

/-- The fault code of a translation cause (R256). -/
def bobFaultOf : Cause → Nat
  | .addrFault => 5
  | .permFault => 6
  | _ => 7

/-- A command first reaches a page and translates it through the open TLB; a local kind stays on this device (R255). -/
def execBobbinPageReach (s : State) : Out :=
  match s.now with
  | some (.bobbinPageReach core j va w) =>
    .next <|
      match s.cmd core j with
      | none => s
      | some e =>
        let ctx := ((s.findMotif e.mid).map (·.ctx)).getD 0
        let p :=
          match (s.coreOf core).tlb.find? fun p => p.covers ctx va with
          | some p => some p
          | none => s.walk ctx va
        let bad :=
          match s.pageFault (s.ctxOf ctx).sys (if w then .w else .r) va p, p with
          | some k, _ => bobFaultOf k
          | none, some p => if !Cmd.fabric e.w && !s.isLocal (p.addr va) then 8 else 0
          | none, none => 5
        let s := match p with | some p => if p.bad then s else s.tlbInsert core p | none => s
        let reach (e : JEntry) : JEntry :=
          let e := { e with waiting := false }
          if bad ≠ 0 then e.fail bad else { e with trans := e.trans ++ p.toList }
        State.bobGo core j (s.onCmd core j reach)
  | _ => .next s

/-- Why a read of the bobbin fails: a lost line or an unreachable device (R256, R364, R378). -/
def State.bobReadFails (s : State) (line : Nat) : Nat :=
  if s.lost line then 10 else if s.dev.lost.contains (devOf (line * 128)) then 11 else 0

/-- Up to eight index entries are read at one moment; those out of range drop their rows (R253). -/
def execBobbinIndexRead (s : State) : Out :=
  match s.now with
  | some (.bobbinIndexRead core j) =>
    .next <|
      match s.cmd core j with
      | none => s
      | some e =>
        if s.bobHeldAt core then s.after 1 (.bobbinIndexRead core j)
        else
          let w : Cmd := e.w
          let ctx := ((s.findMotif e.mid).map (·.ctx)).getD 0
          let k := e.idx.length
          let n := min 8 (w.count - k)
          let addr (i : Nat) : Nat := let va := w.mb + 4 * (k + i); ((e.page ctx va).map fun p => p.addr va).getD 0
          let entry (i : Nat) : Option Nat :=
            let g := sextNat (leNat (s.homeBytes (addr i) 4)) 32
            if g < 0 ∨ (w.num 3 : Int) ≤ g then none else some g.toNat
          let bad := ((List.range n).map fun i => s.bobReadFails (lineOf (addr i))).foldl (fun b x => if b = 0 then x else b) 0
          let es := (List.range n).map entry
          let by_ := ((s.findMotif e.mid).map (·.queue)).bind s.agentOf
          let s := (List.range n).foldl (fun s i => s.noteRead by_ (addr i)) s
          let put (e : JEntry) : JEntry :=
            if bad ≠ 0 then { e.fail bad with waiting := false }
            else { e with waiting := false, idx := e.idx ++ es }
          State.bobGo core j (s.onCmd core j put)
  | _ => .next s

/-- A granule that the bobbin writes into pillow, with its full-empty bit (R171, R253). -/
def Motif.bobPut (m : Motif) (o : Nat) (bs : List Byte) : Motif :=
  (m.pilPut o bs).setFull [o / 16] true

/-- A piece is over; the command goes on. -/
def State.pieceDone (core j : Nat) (f : JEntry → JEntry) (s : State) : State :=
  State.bobGo core j (s.onCmd core j fun e => f { e with pieces := e.pieces - 1 })

/-- Read data returns: a half-line of memory or a granule of pillow is read at one moment, or, once all is read, a
granule of pillow is written or a memory write is sent (R253). -/
def execBobbinDataReturn (s : State) : Out :=
  match s.now with
  | some (.bobbinDataReturn core j x) =>
    .next <|
      match s.cmd core j with
      | none => s
      | some e =>
        let w : Cmd := e.w
        if s.bobHeldAt core then s.after 1 (.bobbinDataReturn core j x)
        else
          match x.reads with
          | (a, n) :: rest =>
            if x.mem then
              let bad := s.bobReadFails (lineOf a)
              if bad ≠ 0 then s.pieceDone core j fun e => e.fail bad
              else
                let by_ := ((s.findMotif e.mid).map (·.queue)).bind s.agentOf
                let bs := s.homeBytes a n
                State.sendPiece core e { x with reads := rest, got := x.got ++ bs } ((s.l2Fetch (lineOf a)).noteRead by_ a)
            else
              let m := (s.findMotif e.mid).getD {}
              let bs := (List.range n).map fun i => SMap.get 0 m.pil (a + i)
              State.sendPiece core e { x with reads := rest, got := x.got ++ bs } s
          | [] =>
            match x.dst with
            | some a =>
              let n := min x.got.length (128 - a % 128)
              let m : BobWrite := ⟨a, x.got.take n, if w.kind = 4 then some w.ty else none⟩
              let s := s.onCmd core j fun e => { e with acks := e.acks + 1, carry := x.got.drop n }
              let s := s.afterPath (e.path core) (s.homeOf (lineOf a)) ((s.leastRow core (lineOf a)).1 / 2) (.bobbinWriteAck core j (some m))
              s.pieceDone core j id
            | none =>
              let o := w.pilAt (w.kind == 0 && w.dir == 3) x.row x.off
              let s := s.onMotif e.mid fun m => m.bobPut o (x.got.take 16)
              let s := s.onCmd core j fun e => { e with feSet := true }
              let x' := { x with got := x.got.drop 16, off := x.off + 16 }
              if x'.got.isEmpty then s.pieceDone core j id else State.sendPiece core e x' s
  | _ => .next s

/-- A write of the bobbin at its home: every byte at one moment, elements added for a scadd; a whole line written
is no longer lost (R199, R253, R364). The element that a scadd adds to at a line marked lost is no data that the command reads, so it
gives no fault of code 10 (R256; DESIGN CHOICE, log entry 63). -/
def State.bobPerform (by_ : Agent) (x : BobWrite) (s : State) : State :=
  let line := lineOf x.addr
  let n := x.bytes.length
  let elem (i : Nat) : Nat := leNat ((List.range 4).map fun k => x.bytes.getD (4 * i + k) 0)
  let new (ty i : Nat) : List Byte := leBytes (drainAdd ty (leNat (s.homeBytes (x.addr + 4 * i) 4)) (elem i)) 4
  let bs :=
    match x.add with
    | none => x.bytes
    | some ty => (List.range (n / 4)).flatMap (new ty)
  let s := s.takeOwner none line (wordsOf ((List.range n).map fun i => x.addr % 128 + i))
  let s := if n = 128 ∧ x.add.isNone then s.unlose line else s
  s.performWrite by_ (cellsAt x.addr bs)

/-- A write of a command at its home. -/
def isBobWrite (core j : Nat) : Event → Bool
  | .bobbinWriteAck c k (some _) => c == core && k == j
  | _ => false

/-- While needle holds the bobbin, a write waits, and the later ones of its command behind it (R254, R266). -/
def State.holdWrites (core j : Nat) (x : Event) (s : State) : State :=
  let due (d : Due) : Bool := isBobWrite core j d.what && decide (d.at_ ≤ s.cycle)
  let later := (x :: (s.agenda.filter due).map (·.what)).map fun e => Due.mk (s.cycle + 1) e
  { s with agenda := later ++ s.agenda.filter fun d => !due d }

/-- A memory write of a command reaches its home and is performed, and then the home's acknowledgement arrives (R256). -/
def execBobbinWriteAck (s : State) : Out :=
  match s.now with
  | some (.bobbinWriteAck core j x) =>
    .next <|
      match s.cmd core j, x with
      | none, _ => s
      | some _, none => State.bobGo core j (s.onCmd core j fun e => { e with acks := e.acks - 1 })
      | some e, some m =>
        let line := lineOf m.addr
        if s.bobHeldAt core then s.holdWrites core j (.bobbinWriteAck core j x)
        else if s.dev.lost.contains (devOf m.addr) then
          State.bobGo core j (s.onCmd core j fun e => { e.fail 11 with acks := e.acks - 1 })
        else if s.agenda.any (adapterWrite line) then s.settleAdapter line (.bobbinWriteAck core j x)
        else
          match s.owedNotices none line (wordsOf ((List.range m.bytes.length).map fun i => m.addr % 128 + i)) with
          | n :: ns => s.notifyFirst (n :: ns) line (.bobbinWriteAck core j x)
          | [] =>
            let by_ := ((s.findMotif e.mid).map (·.queue)).bind s.agentOf
            State.afterFree ((s.leastRow core line).1 / 2) (.bobbinWriteAck core j none) (s.bobPerform by_ m)
  | _ => .next s

/-! Completion. -/

/-- The command of a motif whose completion is to be recorded next: the one of sequence DONE, once it is complete (R256). -/
def State.recordable (s : State) (m : Motif) : Option JEntry :=
  if s.bobHeldAt m.core ∨ m.status ≠ .running then none
  else (s.coreOf m.core).journal.find? fun e => e.mid == m.mid && e.complete && e.pub.seq == m.done.toNat

/-- The command status word (R256). -/
def statusWord (fault drops : Nat) : Word := BitVec.ofNat 32 (0xF0000000 + fault * 2 ^ 24 + min drops 65535)

/-- A command leaves the batches that hold it; an emptied batch is complete (R216, R256). -/
def Thread.batchDrop (t : Thread) (seq : Nat) : Thread :=
  { t with unsealed := t.unsealed.filter (· != seq),
           batches := (t.batches.map fun b => (b.1, b.2.filter (· != seq))).filter fun b => !b.2.isEmpty }

/-- The cord that receives bob_fault: the publisher, or the lowest-numbered live copy cord (R257). -/
def State.faultCord (s : State) (mid pub : Nat) : Option Nat :=
  let cs := s.cordsOf mid
  ((cs.find? (·.cid == pub)).orElse fun _ => cs.find? (·.role == 0)).map (·.cid)

/-- The motif's bobbin arrival on a barrier: registered and counted at one moment (R179). -/
def State.bobArrive (mid b n : Nat) (s : State) : State :=
  match ((s.findMotif mid).getD {}).bar b |>.register none n with
  | .ok x => State.countArrival mid b (s.onMotif mid fun m => m.setBar b x)
  | _ => s

/-- Recording a completion is one step: status word, DONE and DROPS, the arrival, the batches (R256), and for a
fault FSTAT and bob_fault (R257). Code 10 kills the launch, which ends a run of needle that catches bob_fault (R315, R364). -/
def execBobbinCompletionRecord (s : State) : Out :=
  match s.now with
  | some (.bobbinCompletionRecord mid) =>
    .next <|
      match s.findMotif mid with
      | none => s
      | some m =>
        match s.recordable m with
        | none => s
        | some e =>
          let w : Cmd := e.w
          let arrives := w.be && w.bcnt != 0
          let fits := match (m.bar w.bar).register none w.bcnt with | .ok _ => true | _ => false
          let fault := if e.fault = 0 ∧ arrives ∧ !fits then 9 else e.fault
          let at_ := m.ba.getD 0 + 0x20 * (e.pub.seq % 64)
          let rec_ (m : Motif) : Motif :=
            { m.bobPut at_ (leBytes (statusWord fault e.drops).toNat 4) with
              done := m.done + 1, drops := BitVec.ofNat 32 (min (2 ^ 32 - 1) (m.drops.toNat + e.drops)),
              fstat := if fault = 0 then m.fstat else BitVec.ofNat 32 (fault * 2 ^ 28 + e.pub.seq % 2 ^ 16) }
          let s := State.onCore m.core (fun x => { x with journal := x.journal.filter (·.j != e.j) }) (s.onMotif mid rec_)
          let s := if arrives && fits then s.bobArrive mid w.bar w.bcnt else s
          let batch (c : Cord) : Cord :=
            { c with threads := (lanesOf e.pub.lanes).foldl (fun ts l => SMap.upd {} ts l fun t => t.batchDrop e.pub.seq) c.threads }
          let s := s.onCord e.pub.cord batch
          if fault = 0 then s
          else
            let info : Dword := BitVec.ofNat 64 (fault * 2 ^ 28 + e.pub.seq % 2 ^ 16)
            let s :=
              match s.faultCord mid e.pub.cord with
              | some c => s.onCord c fun c => { c with async := c.async ++ [{ cause := .bobFault, info := info }] }
              | none => s
            if fault = 10 then
              State.killLaunch m.queue 0x20 (if (s.faultCord mid e.pub.cord).isSome then s.raised m .bobFault else s)
            else s
  | _ => .next s

/-- Journal entries in use by a motif and by its core (R263). -/
def State.journalUse (s : State) (m : Motif) : Nat × Nat :=
  let l := (s.coreOf m.core).journal
  ((l.filter (·.mid == m.mid)).length, l.length)

/-- The word that bobq reads (R263). -/
def State.bobWord (s : State) (m : Motif) (sel : Nat) : Word :=
  if m.ba.isNone then 0
  else
    match sel with
    | 0 => BitVec.ofNat 32 (m.done.toNat * 2 ^ 16 + m.tail.toNat)
    | 1 => m.drops
    | 2 => m.fstat
    | _ => let (a, b) := s.journalUse m; BitVec.ofNat 32 (a * 2 ^ 8 + b)

/-- bobq (R263). -/
def execBobq (d : Wr) (q : Fin 4) (s : State) : Out :=
  runForm { lat := .i4, vecs := wrVecs d 1 } s fun s =>
    .done (s.write .i4 (s.cord.writesOnce d (s.bobWord s.motif q.val)))

end Sys2Proof.Machine
end

