-- ==== Sys2Proof/Machine/Control.lean ====
section
/-! DEFINITION. Control.lean: the control forms (R85, R86, R91, R92, R94 to R103) and rte (R349). -/

namespace Sys2Proof.Machine

/-- Changes the threads of the lanes of a mask. -/
def Cord.mapThreads (c : Cord) (m : Word) (f : Nat → Thread → Thread) : Cord :=
  { c with threads := (lanesOf m).foldl (fun ts l => SMap.upd {} ts l (f l)) c.threads }

/-- Threads held at the address x (R91). -/
def Cord.heldAt (c : Cord) (x : Dword) : Word := maskWhere fun l => (c.thread l).st == .held && (c.thread l).pc == x

/-- Every thread whose JM bit is set has exited or is held at x (R91). -/
def Cord.meets (c : Cord) (x : Dword) : Bool :=
  (lanesOf c.jm).all fun l => !(c.thread l).live || bit (c.heldAt x) l

/-- The meeting release of R91: held threads at an address where all have met become ready, MR cleared. -/
def Cord.meetRelease (c : Cord) : Cord :=
  (List.range 32).foldl (fun c l =>
    if (c.thread l).st = .held ∧ c.meets (c.thread l).pc then
      c.mapThreads (c.heldAt (c.thread l).pc) fun _ t => { t with st := .ready, mr := 0 }
    else c) c

/-- Threads that wait on mask register k (R92). -/
def Cord.waitersOn (c : Cord) (k : Nat) : Word := maskWhere fun l => (c.thread l).st == .waiting k

/-- The release of R92: every thread named in k has exited or waits on k. -/
def Cord.waitkRelease (c : Cord) : Cord :=
  (List.range 12).foldl (fun c k =>
    if (lanesOf (c.kreg k)).all fun l => !(c.thread l).live || bit (c.waitersOn k) l then
      c.mapThreads (c.waitersOn k) fun _ t => { t with st := .ready }
    else c) c

/-- Both release tests (R91, R92). -/
def Cord.testReleases (c : Cord) : Cord := c.meetRelease.waitkRelease

/-- Decides a transfer for the clause end (R85); a second one raises ctl_dup (R86), and then a destination
that is not a multiple of 4 raises pc_align (R98). -/
def transfer (t : Transfer) (s : State) : Res :=
  if s.cord.cl.xf ≠ .none then .trap .ctlDup s.cord.word
  else
    let bad :=
      match t with
      | .jump ds => (ds.find? fun d => fld d.2 0 2 != 0).map (·.2)
      | _ => .none
    match bad with
    | some x => .trap .pcAlign x
    | .none => .done (s.onSelf fun c => { c with cl := { c.cl with xf := t } })

/-- The target of a literal branch: bits [63:32] are those of the clause header (R99). -/
def litTarget (c : Cord) (lit : Word) : Dword := pair64 lit (hi32 c.cl.hdrA)

/-- A branch: each active lane that takes it, with its destination (R99). -/
def branch (c : Cord) (take : Nat → Bool) (dest : Nat → Dword) : Transfer :=
  .jump (((lanesOf c.act).filter take).map fun l => (l, dest l))

def ctlForm (vs : List (Nat × Nat) := []) : Form := { lat := .i4, vecs := vs }

/-- nop (R102). -/
def execNop (s : State) : Out := runForm ctlForm s .done

/-- bra (R99). -/
def execBra (lit : Word) (s : State) : Out :=
  runForm ctlForm s fun s => transfer (branch s.cord (fun _ => true) fun _ => litTarget s.cord lit) s

/-- brk (R99). -/
def execBrk (k : Msk) (lit : Word) (s : State) : Out :=
  runForm ctlForm s fun s => transfer (branch s.cord (fun l => bit (s.cord.kreg k.val) l) fun _ => litTarget s.cord lit) s

/-- A source read per lane, or once for all active lanes when it is scalar (R99). -/
def execBrz (a : Rd) (lit : Word) (s : State) : Out :=
  runForm (ctlForm (rdVecs a 1)) s fun s =>
    transfer (branch s.cord (fun l => s.cord.rd a l == 0) fun _ => litTarget s.cord lit) s

/-- brnz (R99). -/
def execBrnz (a : Rd) (lit : Word) (s : State) : Out :=
  runForm (ctlForm (rdVecs a 1)) s fun s =>
    transfer (branch s.cord (fun l => s.cord.rd a l != 0) fun _ => litTarget s.cord lit) s

/-- jmp (R99): a 64-bit address from two names. -/
def execJmp (a b : Rd) (s : State) : Out :=
  runForm (ctlForm (rdVecs a 1 ++ rdVecs b 1)) s fun s =>
    transfer (branch s.cord (fun _ => true) fun l => pair64 (s.cord.rd a l) (s.cord.rd b l)) s

/-- call (R99): D takes the fall-through address, at I4 latency. -/
def execCall (d : Wr) (lit : Word) (s : State) : Out :=
  runForm (ctlForm (wrVecs d 2)) s fun s =>
    transfer (branch s.cord (fun _ => true) fun _ => litTarget s.cord lit)
      (s.write .i4 (s.cord.writes64 d fun _ => s.cord.cl.ft))

/-- ret (R99). -/
def execRet (a : Rd) (s : State) : Out :=
  runForm (ctlForm (rdVecs a 2)) s fun s => transfer (branch s.cord (fun _ => true) fun l => s.cord.rd64 a l) s

/-- meet (R100): MR of each active lane; 0 clears it. -/
def execMeet (lit : Word) (s : State) : Out :=
  runForm ctlForm s fun s =>
    if lit ≠ 0 ∧ fld lit 0 2 ≠ 0 then .trap .pcAlign (litTarget s.cord lit)
    else
      .done (s.onSelf fun c => c.mapThreads c.act fun _ t => { t with mr := if lit = 0 then 0 else litTarget c lit })

/-- join (R100): the join mask, then the test of R91. -/
def execJoin (k : Msk) (s : State) : Out :=
  runForm ctlForm s fun s => .done (s.onSelf fun c => { c with jm := c.kreg k.val }.meetRelease)

/-- leave (R100). -/
def execLeave (k : Msk) (s : State) : Out :=
  runForm ctlForm s fun s => .done (s.onSelf fun c => { c with jm := c.jm &&& ~~~c.kreg k.val }.meetRelease)

/-- waitk (R100): the active threads wait on k from the clause end. -/
def execWaitk (k : Msk) (s : State) : Out := runForm ctlForm s (transfer (.waitk k.val))

/-- A mask register is written whole, at I4 latency (R94, R101). -/
def runMask (d : Msk) (g : Cord → Word) (s : State) : Out :=
  runRegs ctlForm s fun c => [.k d.val (g c)]

/-- kset (R101): the literal, restricted to ACT. -/
def execKset (d : Msk) (lit : Word) (s : State) : Out := runMask d (fun c => lit &&& c.act) s

/-- kmov (R101). -/
def execKmov (d a : Msk) (s : State) : Out := runMask d (fun c => c.kreg a.val) s

/-- kand (R101). -/
def execKand (d a b : Msk) (s : State) : Out := runMask d (fun c => c.kreg a.val &&& c.kreg b.val) s

/-- kor (R101). -/
def execKor (d a b : Msk) (s : State) : Out := runMask d (fun c => c.kreg a.val ||| c.kreg b.val) s

/-- kxor (R101). -/
def execKxor (d a b : Msk) (s : State) : Out := runMask d (fun c => c.kreg a.val ^^^ c.kreg b.val) s

/-- knot (R101). -/
def execKnot (d a : Msk) (s : State) : Out := runMask d (fun c => ~~~c.kreg a.val) s

/-- kpop (R101): set bits of the whole mask. -/
def execKpop (d : Wr) (a : Msk) (s : State) : Out :=
  runRegs (ctlForm (wrVecs d 1)) s fun c =>
    c.writes32 d fun _ => BitVec.ofNat 32 (lanesOf (c.kreg a.val)).length

/-- elect (R101): the lowest set bit of kA and ACT alone. -/
def execElect (d a : Msk) (s : State) : Out :=
  runMask d (fun c => maskOf ((lanesOf (c.kreg a.val &&& c.act)).take 1)) s

/-- exit (R102). -/
def execExit (s : State) : Out := runForm ctlForm s (transfer .exit)

/-- yield (R102). -/
def execYield (s : State) : Out := runForm ctlForm s (transfer .yield)

/-- sleep (R102). -/
def execSleep (n : Imm) (s : State) : Out := runForm ctlForm s (transfer (.sleep n.toNat))

/-- winb (R103): the window base, from the next instruction on. -/
def execWinb (n : Imm) (s : State) : Out :=
  runForm ctlForm s fun s =>
    if 12 < n.toNat then .trap .regIllegal s.cord.word
    else .done (s.onSelf fun c => { c with wb := 16 * n.toNat })

/-- The cords resident on a core: those of its motifs, ended ones too, until the motif retires or is saved (R12). -/
def State.residents (s : State) (core : Nat) : List Cord :=
  (s.cord :: s.cords).filter fun c =>
    c.cid != 0 && c.core == core && (((s.findMotif c.mid).map fun m => m.status == .running).getD false)

/-- Blocks of a core's extended pool: the register file less the base registers of its resident cords (R97). -/
def State.poolSize (s : State) (core : Nat) : Nat := 256 - ((s.residents core).map fun c => (c.regs + 15) / 16).sum

/-- Blocks that xrel returned in this cycle, which the next cycle may grant (R103). -/
def State.justBack (s : State) (core : Nat) : Nat :=
  if (s.coreOf core).xrelAt = s.cycle + 1 then (s.coreOf core).xrelN else 0

/-- Blocks of the pool that no cord holds or has been granted, and that may be granted in this cycle (R97, R103). -/
def State.poolFree (s : State) (core : Nat) : Nat :=
  s.poolSize core - ((s.residents core).map fun c => c.xblk + c.xgrant).sum - s.justBack core

/-- The grant of n blocks: the new registers read 0 in every lane (R103). -/
def Cord.takeBlocks (c : Cord) (n : Nat) : Cord :=
  { c with xblk := c.xblk + n, xgrant := 0, v := c.v.filter fun e => !(decide (c.own * 32 ≤ e.1) && decide (e.1 < (c.own + 16 * n) * 32)) }

/-- xacq (R97, R103): whole-cord; the request stands from the first cycle in which only its blocks are wanting. -/
def execXacq (n : Imm) (s : State) : Out :=
  runForm { lat := .i4, whole := true } s fun s =>
    let c := s.cord
    let k := n.toNat
    if k = 0 ∨ c.xmax < c.xblk + k then .trap .xregBad c.word
    else
      let asked := (s.coreOf c.core).xreqs
      if c.xgrant = k ∨ (asked = [] ∧ k ≤ s.poolFree c.core) then .done (s.onSelf (·.takeBlocks k))
      else
        .stall ⟨8, 0, k⟩ <|
          if asked.any (·.1 == c.cid) then s
          else s.onCore c.core fun x => { x with xreqs := x.xreqs ++ [(c.cid, k)] }

/-- xrel (R97, R103): the highest blocks go back at once, their contents lost; the next cycle may grant them. -/
def execXrel (n : Imm) (s : State) : Out :=
  runForm { lat := .i4, whole := true } s fun s =>
    let c := s.cord
    let k := n.toNat
    if k = 0 ∨ c.xblk < k then .trap .xregBad c.word
    else
      let s := s.onCore c.core fun x => { x with xrelAt := s.cycle + 1, xrelN := s.justBack c.core + k }
      .done (s.onSelf fun c =>
        { c with xblk := c.xblk - k, v := c.v.filter fun e => decide (e.1 < (c.own - 16 * k) * 32) })

/-- Pending requests are granted whole, in request order, once their blocks are free (R97). -/
def execXacqGrant (s : State) : Out :=
  match s.now with
  | some (.xacqGrant core) =>
    .next <|
      match (s.coreOf core).xreqs with
      | [] => s
      | (c, k) :: rest =>
        if (s.findCord c).isNone then s.onCore core fun x => { x with xreqs := rest }
        else if s.poolFree core < k then s
        else State.onCord c (fun x => { x with xgrant := k }) (s.onCore core fun x => { x with xreqs := rest })
  | _ => .next s

/-- rte (R349): from a handler, with exactly the trapping group active; it takes effect at the clause end. -/
def execRte (s : State) : Out :=
  runForm { lat := .n } s fun s =>
    if !s.cord.trap.v ∨ s.cord.act ≠ s.cord.trap.tract then .trap .rteBad s.cord.word else transfer .rte s

end Sys2Proof.Machine
end

