-- ==== Sys2Proof/Machine/System.lean ====
section
/-! DEFINITION. System.lean: control registers (R352, R353), trap, brkpt and halt (R354 to R356), tlbi and dtld
(R361, R362), words that match no form (R51), and the entry of traps that waited (R345). -/

namespace Sys2Proof.Machine

/-! Control registers. -/

/-- The blkst word (R190). -/
def Blk.word (b : Blk) : Word := BitVec.ofNat 32 (b.kind % 16 * 2 ^ 28 + b.obj % 16 * 2 ^ 24 + b.data % 2 ^ 14)

/-- trcause (R346). -/
def TrapRec.word (r : TrapRec) : Word :=
  BitVec.ofNat 32 (flagBit r.v 31 + flagBit r.xfer 27 + r.slot % 8 * 2 ^ 24 + flagBit r.rnx 23 + r.rslot % 8 * 2 ^ 20 + r.cause % 256)

/-- decbase of a context holds BASE and MAP (R52). -/
def decbaseMask : Dword := 0xFFFFFFFFFFFFF00F

/-- What a control register reads for the focused cord; none for a number that R352 does not list. A cord that
issues is not blocked, so its own blkst reads 0 (R190). -/
def State.csr (s : State) (n : Nat) : Option Word :=
  let c := s.cord
  let x := s.ctxOf c.ctx
  match n with
  | 0x001 => some (c.fpctl.setWidth 32)
  | 0x010 => some (BitVec.ofNat 32 c.ldcnt)
  | 0x011 => some (BitVec.ofNat 32 c.stcnt)
  | 0x020 => some 0
  | 0x030 => some (BitVec.ofNat 32 (flagBit x.sys 31 + c.ctx % 4096))
  | 0x031 => some (BitVec.ofNat 32 s.dev.clcount)
  | 0x032 => some (lo32 (s.dev.clusters.setWidth 64))
  | 0x033 => some (hi32 (s.dev.clusters.setWidth 64))
  | 0x040 => some (lo32 c.trapvec)
  | 0x041 => some (hi32 c.trapvec)
  | 0x050 => some c.trap.word
  | 0x051 => some (lo32 c.trap.hdr)
  | 0x052 => some (hi32 c.trap.hdr)
  | 0x053 => some (lo32 c.trap.info)
  | 0x054 => some (hi32 c.trap.info)
  | 0x055 => some c.trap.tract
  | 0x060 => some (BitVec.ofNat 32 (x.locks.length % 2 ^ 16 * 2 ^ 16 + x.quota.toNat))
  | 0x061 => some (x.evphase.setWidth 32)
  | 0x070 => some (lo32 x.decbase)
  | 0x071 => some (hi32 x.decbase)
  | 0xC00 => some (c.mprom.setWidth 32)
  | _ => none

/-- The low or high half of a 64-bit register replaced. -/
def setHalf (x : Dword) (hi : Bool) (v : Word) : Dword := if hi then pair64 (lo32 x) v else pair64 v (hi32 x)

/-- A control register written; RO registers and fields keep their value (R352). -/
def State.csrSet (n : Nat) (v : Word) (s : State) : State :=
  let self (f : Cord → Cord) : State := s.onSelf f
  let ctx (f : Ctx → Ctx) : State := s.onCtx s.cord.ctx f
  match n with
  | 0x001 => self fun c => { c with fpctl := v.setWidth 8 }
  | 0x040 => self fun c => { c with trapvec := setHalf c.trapvec false (v &&& 0xFFFFFFFD) }
  | 0x041 => self fun c => { c with trapvec := setHalf c.trapvec true v }
  | 0x050 => self fun c => { c with trap := { c.trap with rnx := bit v 23, rslot := fld v 20 3 } }
  | 0x051 => self fun c => { c with trap := { c.trap with hdr := setHalf c.trap.hdr false v, xfer := false } }
  | 0x052 => self fun c => { c with trap := { c.trap with hdr := setHalf c.trap.hdr true v, xfer := false } }
  | 0x060 => ctx fun x => { x with quota := v.setWidth 16 }
  | 0x061 => ctx fun x => { x with evphase := v.setWidth 16 }
  | 0x070 => ctx fun x => { x with decbase := setHalf x.decbase false v &&& decbaseMask }
  | 0x071 => ctx fun x => { x with decbase := setHalf x.decbase true v }
  | 0xC00 => self fun c => { c with mprom := v.setWidth 6 }
  | _ => s

/-- Registers whose write needs system privilege (R352). -/
def csrPriv (n : Nat) : Bool := n == 0x060 || n == 0x061 || n == 0x070 || n == 0x071

/-- csrr (R353): the value once, written at I4 latency; reading clcount clears stat.TOPO (R372). -/
def execCsrr (d : Wr) (lit : Word) (s : State) : Out :=
  let n := fld lit 0 12
  runForm { lat := .i4, vecs := wrVecs d 1, priv := n == 0x020 } s fun s =>
    match s.csr n with
    | none => .trap .csrBad (BitVec.ofNat 64 n)
    | some v =>
      let s := s.write .i4 (s.cord.writesOnce d v)
      .done (if n = 0x031 then s.onSelf fun c => { c with topo := false } else s)

/-- csrw, csrs and csrc (R353): the write applies to the next instruction. -/
def runCsr (g : Word → Word → Word) (a : Rd) (lit : Word) (s : State) : Out :=
  let n := fld lit 0 12
  runForm { lat := .i4, vecs := rdVecs a 1, priv := csrPriv n } s fun s =>
    match s.csr n with
    | none => .trap .csrBad (BitVec.ofNat 64 n)
    | some v => .done (s.csrSet n (g v (s.cord.once a)))

/-- csrw (R353). -/
def execCsrw (a : Rd) (lit : Word) (s : State) : Out := runCsr (fun _ x => x) a lit s

/-- csrs (R353). -/
def execCsrs (a : Rd) (lit : Word) (s : State) : Out := runCsr (fun v x => v ||| x) a lit s

/-- csrc (R353). -/
def execCsrc (a : Rd) (lit : Word) (s : State) : Out := runCsr (fun v x => v &&& ~~~x) a lit s

/-! trap, brkpt and halt. -/

/-- trap (R354). -/
def execTrap (n : Imm) (s : State) : Out := runForm { lat := .n } s fun _ => .trap .soft (n.setWidth 64)

/-- The cord stops before its next slot until the debug path resumes it (R355, R356). -/
def State.stop (s : State) : Res := .done (s.onSelf fun c => { c with wait := .halted })

/-- brkpt (R355): on an armed core the cord stops, elsewhere it raises bkpt. -/
def execBrkpt (n : Imm) (s : State) : Out :=
  runForm { lat := .n } s fun s =>
    if (s.coreOf s.cord.core).armed then s.stop else .trap .bkpt (n.setWidth 64)

/-- halt (R356). -/
def execHalt (s : State) : Out := runForm { lat := .n, priv := true } s fun s => s.stop

/-! Words that match no form, and traps that waited. -/

/-- The trap cause of a decode cause (R51). -/
def decodeCause : DecodeCause → Cause
  | .opcUnmapped => .opcUnmapped
  | .litStray => .litStray
  | .litMissing => .litMissing
  | .opndKind => .opndKind

/-- A slot of the focused cord whose word matches no legal form reaches issue (R51). -/
def execIllegalWordIssue (s : State) : Out :=
  match s.now with
  | some (.illegalWordIssue cause word) => .next (s.raise (decodeCause cause) (word.setWidth 64))
  | _ => .next s

/-- A raised cause whose earlier V-class work has completed goes on to the handler (R345). -/
def execTrapEntry (s : State) : Out :=
  match s.now with
  | some (.trapEntry c) =>
    .next <|
      match s.findCord c with
      | none => s
      | some x =>
        match x.pend with
        | none => s
        | some p => if s.trapReady x then (s.focus c).enterTrap p else s
  | _ => .next s

/-! Translation control. -/

/-- A page that a tlbi of control word x names (R361). -/
def tlbiHits (x : Nat) (p : Page) : Bool :=
  let mine := p.ctx == x % 4096
  match x / 4096 % 4 with
  | 0 => mine && (if p.big then p.va / 2 ^ 25 == x / 2 ^ 25 else p.va / 2 ^ 16 == x / 2 ^ 16)
  | 1 => mine && p.va / 2 ^ 25 == x / 2 ^ 25
  | 2 => mine
  | _ => true

/-- Virtual addresses of a context that a tlbi names, as a range (R361). -/
def tlbiRange (x : Nat) : Nat × Nat :=
  match x / 4096 % 4 with
  | 0 => (x / 2 ^ 16 * 2 ^ 16, 2 ^ 16)
  | 1 => (x / 2 ^ 25 * 2 ^ 25, 2 ^ 25)
  | _ => (0, 2 ^ 64)

def tlbiCtx (x ctx : Nat) : Bool := x / 4096 % 4 == 3 || ctx == x % 4096

/-- A virtual address of a context on the pages that a tlbi names. -/
def tlbiCovers (x ctx va : Nat) : Bool :=
  let (a, n) := tlbiRange x
  tlbiCtx x ctx && decide (a ≤ va) && decide (va < a + n)

/-- The physical runs of the pages, from the translations that are removed and the page table. -/
def State.tlbiRuns (s : State) (x : Nat) : List (Nat × Nat) :=
  let hit := ((s.cores.flatMap (·.tlb)) ++ s.pages).filter fun p => tlbiHits x p && !p.bad
  hit.map fun p =>
    if p.big && x / 4096 % 4 == 0 then (p.addr (x / 2 ^ 16 * 2 ^ 16), 2 ^ 16) else (p.pa, if p.big then 2 ^ 25 else 2 ^ 16)

/-- The eyelets that are not closed, each with its cord. -/
def State.boundEyes (s : State) : List (Cord × Eyelet) :=
  s.allCords.flatMap fun c => (c.eyes.filter fun (_, y) => y.st != .closed).map fun (_, y) => (c, y)

/-- Lines that eyelets hold on the pages: those of the contexts by address, and of every cord by the physical page, be its
own page another alias of it (R157 step 3, R361). -/
def State.tlbiLines (s : State) (x : Nat) : List Nat :=
  let named := s.boundEyes.filter fun p => tlbiCovers x p.1.ctx (p.2.vla * 128)
  let pages := named.map fun p => p.2.pla / 512
  let runs := s.tlbiRuns x
  let hit (l : Nat) : Bool := pages.contains (l / 512) || runs.any fun r => decide (r.1 ≤ l * 128) && decide (l * 128 < r.1 + r.2)
  ((s.boundEyes.map (·.2.pla)).filter hit).eraseDups

/-- tlbi (R361): translations and locks go, recalls and drains begin. -/
def execTlbi (a b : Rd) (s : State) : Out :=
  runForm { lat := .v, vecs := rdVecs a 1 ++ rdVecs b 1, priv := true } s fun s =>
    let c := s.cord
    let x := c.once64 a b
    if x / 2 ^ 14 % 4 ≠ 0 then .trap .opndKind c.word
    else
      let lines := s.tlbiLines x
      let runs := s.tlbiRuns x
      let hitPage (p : Page) : Bool := tlbiHits x p
      let forms := s.cores.flatMap fun k => (k.tq.filter fun f => f.trans.any hitPage).map fun f => (k.core, f.q)
      let cmds := s.cores.flatMap fun k => (k.journal.filter fun e => e.trans.any hitPage).map fun e => (k.core, e.j)
      let s := { s with cores := s.cores.map fun (k : Core) => { k with tlb := k.tlb.filter fun p => !hitPage p } }
      let s := s.mapCords fun y => { y with walked := y.walked.filter fun w => !tlbiCovers x y.ctx (w.1 * 2 ^ 16) }
      let (rids, s) := lines.foldl (fun (r : List Nat × State) l =>
        let (ids, s) := r.2.recallHere l .shoot
        (r.1 ++ ids, s)) ([], s)
      let locked := s.ctxs.flatMap fun k =>
        if tlbiCtx x k.id then
          (k.locks.filter fun l => decide (2 ≤ x / 4096 % 4) || runs.any fun r => decide (r.1 ≤ l * 128) && decide (l * 128 < r.1 + r.2)).map
            fun l => (k.id, l)
        else []
      let s := locked.foldl (fun s p => s.unlockLine p.1 p.2) s
      let (ra, rn) := tlbiRange x
      let regions := s.ctxs.flatMap fun k =>
        if tlbiCtx x k.id then (k.regions.filter fun r => overlaps ra rn r.base r.size).map fun r => (k.id, r) else []
      let (drains, s) := regions.foldl (fun (a : List (Nat × Nat × Nat) × State) p =>
        let (l, s) := a.2.drainRegion p.1 p.2 none
        (a.1 ++ l, s)) ([], s)
      .done (s.afterFree 1 (.tlbiComplete c.cid c.flag ⟨rids, drains, forms, cmds⟩))

/-- Everything that a tlbi waits for has finished, and its flag decrements (R361). -/
def execTlbiComplete (s : State) : Out :=
  match s.now with
  | some (.tlbiComplete c f job) =>
    let busy := s.recalling job.rids || (job.drains.any fun h => s.owing h)
      || (job.forms.any fun p => (s.form p.1 p.2).isSome) || (job.commands.any fun p => (s.cmd p.1 p.2).isSome)
    .next (if busy then s.after 1 (.tlbiComplete c f job) else s.complete c f [])
  | _ => .next s

/-- BASE of a context's decode table; 0 selects map 0 (R52). -/
def Ctx.tableBase (x : Ctx) : Nat := (x.decbase &&& 0xFFFFFFFFFFFFF000).toNat

/-- The decode table at a physical address as it reads now (R53). -/
def State.readTable (s : State) (pa : Nat) : List Word :=
  (List.range 1024).map fun i => BitVec.ofNat 32 (leNat (s.homeBytes (pa + 4 * i) 4))

/-- The table of a context on a core from now on (R54). -/
def State.setTable (core ctx : Nat) (t : Option (List Word)) (s : State) : State :=
  s.onCore core fun x => { x with tabs := (x.tabs.filter fun p => p.1 != ctx) ++ [(ctx, t)] }

/-- dtld (R362): the table's page is translated at issue. -/
def execDtld (s : State) : Out :=
  runForm { lat := .v } s fun s =>
    let c := s.cord
    let base := (s.ctxOf c.ctx).tableBase
    if base = 0 then .done (s.afterFree 1 (.dtldComplete c.cid c.flag none c.core c.ctx))
    else withPages [base] .r s fun ps s => .done (s.afterFree 1 (.dtldComplete c.cid c.flag ((ps.head?).map fun p => p.addr base) c.core c.ctx))

/-- The table has been read and takes effect on the core, for every cord of the context there, whether the cord that asked for it
still lives or not (R54, R362). -/
def execDtldComplete (s : State) : Out :=
  match s.now with
  | some (.dtldComplete c f pa core ctx) => .next (State.complete c f [] (s.setTable core ctx (pa.map s.readTable)))
  | _ => .next s

end Sys2Proof.Machine
end

