-- ==== Sys2Proof/Machine/Clause.lean ====
section
/-! DEFINITION. Clause.lean: starting a clause (R41, R82, R194, R408), its end (R85, R90 to R92, R102), returning to a
recorded clause (R349), sleeping threads, fixed-latency writes, urgency (R88), blkst (R190) and the delivery of
asynchronous causes (R350). -/

namespace Sys2Proof.Machine

/-! Fetching a clause. -/

/-- A word of the cord's code through its context's translation, or the cause and address of the fault (R408). -/
def State.fetchWord (s : State) (c : Cord) (va : Dword) : Except (Cause × Dword) Word :=
  let a := va.toNat
  let p := s.walk c.ctx a
  match s.pageFault (s.ctxOf c.ctx).sys .r a p, p with
  | some k, _ => .error (k, va)
  | none, some p => .ok (BitVec.ofNat 32 (leNat (s.homeBytes (p.addr a) 4)))
  | none, none => .error (.addrFault, va)

/-- The n slots of a clause from an address on, each with the literal that its L bit announces (R42). -/
def State.fetchSlots (s : State) (c : Cord) : Nat → Dword → Except (Cause × Dword) (List (Word × Option Word))
  | 0, _ => .ok []
  | n + 1, va =>
    match s.fetchWord c va with
    | .error e => .error e
    | .ok w =>
      if bit w 0 then
        match s.fetchWord c (va + 4) with
        | .error e => .error e
        | .ok l =>
          match s.fetchSlots c n (va + 8) with
          | .error e => .error e
          | .ok r => .ok ((w, some l) :: r)
      else
        match s.fetchSlots c n (va + 4) with
        | .error e => .error e
        | .ok r => .ok ((w, none) :: r)

/-- The decode table that a context uses on a core; none is map 0 (R52, R54). -/
def State.tableOf (s : State) (core ctx : Nat) : Option (List Word) :=
  (((s.coreOf core).tabs.find? fun p => p.1 == ctx).map (·.2)).join

/-- The header at which a cord waits, with the decode table of its fetch: the one fetched before its WAIT flags were
evaluated, or one fetched now (R41, R54, R99). -/
def State.header (s : State) (c : Cord) (pc : Dword) : Except (Cause × Dword) (Word × Option (List Word)) :=
  match c.fetched.filter (·.1 == pc) with
  | some x => .ok x.2
  | none => (s.fetchWord c pc).map fun h => (h, s.tableOf c.core c.ctx)

/-! Groups. -/

/-- The ready group that rotation comes to after P (R90): its header. -/
def Cord.rotate (c : Cord) : Option Dword :=
  let lanes := (List.range 32).filter fun l => (c.thread l).ready && lowest (c.groupAt (c.thread l).pc) == l
  ((lanes.find? fun l => decide (c.rotP < l)).orElse fun _ => lanes.head?).map fun l => (c.thread l).pc

/-- Between clauses the cord comes to the group that rotation chooses, and keeps it (R90). -/
def Cord.rechoose (c : Cord) : Cord :=
  if c.cl.on || c.chosen.isSome || c.resume.isSome then c else { c with chosen := c.rotate }

/-- The cords of a motif have stopped for its save; in the cycle in which the pre-emption is decided they have not, so that a
trap of that cycle is taken first (R357). -/
def State.stopping (s : State) (m : Motif) : Bool := m.saving && decide (m.saveAt ≤ s.cycle)

/-- A cord may issue at all: its context runs, its motif is resident and not being saved, and no eyelet of it is
being reopened (R357, R359, R360). -/
def State.mayRun (s : State) (c : Cord) : Bool :=
  c.live && c.pend.isNone && (s.ctxOf c.ctx).en && !(c.ops.any fun o => o.kind == .reopen) &&
    (((s.findMotif c.mid).map fun m => m.status == .running && !s.stopping m).getD false)

/-! Starting a clause. -/

/-- What starting the next clause of a cord comes to. -/
inductive Start where
  | no
  | fault (p : PendTrap)
  | fetch (pc : Dword) (h : Word) (tab : Option (List Word))
  | armed
  | go (cl : Clause)
  deriving DecidableEq, Repr

/-- A cause raised against slot 0 of a clause before any slot of it issues (R51, R347, R408). -/
def boundaryTrap (k : Cause) (info : Dword) (hdr : Dword) (act : Word) : PendTrap :=
  { cause := k, info := info, slot := 0, rslot := 0, rnx := false, boundary := true, hdr := hdr, act := act }

/-- The cycle from which slot 0 may issue, less its own distance: the latest of what the threads' last
instructions allow (R83). -/
def Cord.gate (c : Cord) (act : Word) (dist : Bool) : Nat :=
  (lanesOf act).foldl (fun m l => max m ((c.thread l).lastC + if dist then (c.thread l).lastH else 1)) 0

/-- A cord saved inside a clause goes on from its resume point, with its header fetched again, once nothing it
was blocked in holds it (R360). -/
def Cord.view (c : Cord) : Cord :=
  if c.refetch && c.wait == .none then
    let k := if hdrCount c.cl.hdr < c.cl.slot then 8 else c.cl.slot
    { c with resume := some ⟨k, c.cl.xf, c.cl.act, c.cl.hdrA, c.cl.ft⟩, cl := {}, refetch := false }
  else c

/-- The header that a cord waits at, and the lanes of its group. -/
def Cord.target (c : Cord) : Option (Dword × Word) :=
  match c.resume with
  | some r =>
    let lanes := maskWhere fun l => bit r.tract l && (c.thread l).ready
    some (r.hdr, if r.slot = 0 ∧ r.xf = .none then c.groupAt r.hdr else lanes)
  | none => c.chosen.map fun pc => (pc, c.groupAt pc)

/-- The flag of the header's WAIT field that holds a cord back (R82): of several that do not read zero the lowest, which OBJ then shows
and which decides between kinds 5 and 10 (R190; DESIGN CHOICE, log entry 63). -/
def Cord.waitFlag (c : Cord) (h : Word) : Option Nat := (List.range 12).find? fun f => hdrWait h f && c.flagOf f != 0

/-- A breakpoint of needle on a header holds the cords of the pattern that it has loaded (R194). -/
def State.breaksAt (s : State) (c : Cord) (pc : Dword) : Bool :=
  s.breaks.contains pc && (s.findMotif c.mid).any s.loaded

/-- A decision that is all that is left of a clause: it is taken at once, and nothing is fetched (R349, R360). -/
def Cord.decided (c : Cord) (act : Word) : Option Clause :=
  match c.resume with
  | none => none
  | some r =>
    if r.slot = 8 ∧ r.xf ≠ .none then some { on := true, hdrA := r.hdr, slot := 1, act := act, xf := r.xf, fall := some r.ft } else none

/-- Starting the next clause (R82, R194, R349, R360, R408). -/
def State.tryStart (s : State) (c : Cord) : Start :=
  let c := c.view
  if !s.mayRun c || c.cl.on || c.wait != .none then .no
  else
    match c.target with
    | none => .no
    | some (pc, act) =>
      if act = 0 then .no
      else
        match c.decided act, c.tabFault with
        | some cl, _ => .go cl
        | none, some (k, info) => .fault (boundaryTrap k info pc act)
        | none, none =>
          match s.header c pc with
          | .error (k, info) => .fault (boundaryTrap k info pc act)
          | .ok (h, tab) =>
            let rnx := (c.resume.map fun r => r.slot == 8).getD false
            let at_ := if rnx then hdrCount h + 1 else (c.resume.map (·.slot)).getD 0
            if !hdrOk h then .fault (boundaryTrap .hdrRsvd (h.setWidth 64) pc act)
            else if !rnx && (c.waitFlag h).isSome then (if (c.fetched.map (·.1)) = some pc then .no else .fetch pc h tab)
            else if !rnx && decide (hdrCount h < at_) then .fault (boundaryTrap .hdrRsvd (h.setWidth 64) pc act)
            else
              match s.fetchSlots c (hdrCount h + 1) (pc + 4) with
              | .error (k, info) => .fault (boundaryTrap k info pc act)
              | .ok ws =>
                if at_ = 0 ∧ s.breaksAt c pc ∧ !c.skipBrk then .armed
                else
                  .go { on := true, hdrA := pc, hdr := h, words := ws, tab := tab, slot := at_, act := act,
                        xf := (c.resume.map (·.xf)).getD .none, lastC := c.gate act (hdrDist h 0 && c.resume.isNone) - 1, lastH := 1 }

/-- A group whose WAIT flags read zero starts its clause (R82), else its header is fetched and waits; or it is held at a
breakpoint (R194), or meets a fault of the fetch (R408). -/
def execClauseStart (s : State) : Out :=
  match s.now with
  | some (.clauseStart c) =>
    s.ifCord c fun x =>
      match s.tryStart x with
      | .no => s
      | .fetch pc h tab => s.onCord c fun x => { x with fetched := some (pc, h, tab) }
      | .armed => s.onCord c fun x => { x with wait := .armed }
      | .fault p => (s.focus c).raiseWith p |>.onCord c fun x => { x with tabFault := .none }
      | .go cl =>
        s.onCord c fun x =>
          { x with cl := cl, rotP := lowest cl.act, chosen := .none, resume := .none, refetch := false, fetched := .none,
                   skipBrk := false, blk := {}, count := 0, urgent := false }
  | _ => .next s

/-! The end of a clause. -/

/-- Where the decision of a clause takes lane l (R85, R102). -/
def Transfer.apply (xf : Transfer) (ft : Dword) (now l : Nat) (t : Thread) : Thread :=
  match xf with
  | .none => { t with pc := ft }
  | .yield => { t with pc := ft }
  | .jump ds => { t with pc := ((ds.find? fun d => d.1 == l).map (·.2)).getD ft }
  | .exit => { t with st := .exited }
  | .sleep n => if n = 0 then { t with pc := ft } else { t with pc := ft, st := .sleeping (now + 64 * n) }
  | .waitk k => { t with pc := ft, st := .waiting k }
  | .rte => t

/-- A ready thread at its meeting address with its JM bit set is held (R91). -/
def Cord.holdMet (c : Cord) : Cord :=
  let mid (l : Nat) : Bool := (c.resume.map fun r => bit r.tract l).getD false
  let hold (l : Nat) (t : Thread) : Thread :=
    if t.ready && t.mr != 0 && t.pc == t.mr && bit c.jm l && !mid l then { t with st := .held } else t
  c.mapThreads 0xFFFFFFFF hold

/-- Threads that stand at their meeting address are held, and the releases of R91 and R92 are tested; threads that a
release lets go may come to be held in their turn. -/
def Cord.regroup (c : Cord) : Cord := c.holdMet.testReleases.holdMet.testReleases

/-- Threads that come ready are held or regrouped at a clause boundary alone: at once between clauses, else at the end of
the executing one (R90, R91). -/
def Cord.atBoundary (c : Cord) : Cord := if c.cl.on then c else c.regroup.rechoose

/-- A handler whose threads have all exited is over (R348). -/
def Cord.dropHandler (c : Cord) : Cord :=
  if c.trap.v && (lanesOf c.trap.tract).all (fun l => !(c.thread l).live) then
    { c.unpark with trap := { c.trap with v := false } }
  else c

/-- A clause of the cord ends: its decision takes effect, and the threads are held, released and regrouped (R85,
R90 to R92, R345, R348, R349). -/
def Cord.endClause (c : Cord) (now fresh : Nat) : Cord :=
  let cl := c.cl
  let ft := cl.ft
  let step (l : Nat) (t : Thread) : Thread :=
    let t := if cl.any then { t with lastC := cl.lastC, lastH := cl.lastH } else t
    cl.xf.apply ft now l t
  let c := c.mapThreads cl.act step
  let c := { c with cl := {}, blk := {} }
  let c := if cl.xf = .exit then { c with jm := c.jm &&& ~~~cl.act } else c
  let c := if cl.xf = .rte then c.returnFrom else c
  let c := if cl.xf = .yield then { c with age := fresh, stallAt := now + 2 } else c
  c.dropHandler.regroup.rechoose

/-- A cord with no live thread ends: its blocks return and its eyelets close (R102, R160). -/
def State.endCord (c : Nat) (s : State) : State :=
  let s := (List.range 16).foldl (fun s e => s.closeEye c e .close) s
  s.onCord c fun x => { x with live := false, xblk := 0, xgrant := 0, chosen := .none }

/-- Threads that fall asleep at a clause end, with the cycles they sleep. -/
def Clause.sleepers (cl : Clause) : List Nat × Nat :=
  match cl.xf with
  | .sleep n => if n = 0 then ([], 0) else (lanesOf cl.act, 64 * n)
  | _ => ([], 0)

/-- The executing clause of a cord has issued its last slot, and nothing holds the cord there. -/
def State.clauseOver (s : State) (c : Cord) : Bool :=
  s.mayRun c && c.cl.on && !c.refetch && decide (hdrCount c.cl.hdr < c.cl.slot) && c.wait == .none

/-- CLAUSE_END (R85). -/
def execClauseEnd (s : State) : Out :=
  match s.now with
  | some (.clauseEnd c) =>
    s.ifCord c fun x =>
      if !s.clauseOver x then s
      else
        let (ls, n) := x.cl.sleepers
        let s := State.onCord c (fun x => x.endClause s.cycle (s.fresh + 1)) s.tick
        let s := ls.foldl (fun s l => s.after n (.sleepExpiry c l)) s
        match s.findCord c with
        | some x => if x.liveMask = 0 then s.endCord c else s
        | none => s
  | _ => .next s

/-- A sleeping thread becomes ready (R102), or held if it stands at its meeting address (R91). -/
def execSleepExpiry (s : State) : Out :=
  match s.now with
  | some (.sleepExpiry c l) =>
    let wake (t : Thread) : Thread :=
      match t.st with
      | .sleeping u => if u ≤ s.cycle then { t with st := .ready } else t
      | _ => t
    .next (s.onCord c fun x => (x.mapThreads (maskOf [l]) fun _ t => wake t).atBoundary)
  | _ => .next s

def isMaskWrite : RegWrite → Bool
  | .k _ _ => true
  | _ => false

/-- Fixed-latency results reach their registers (R83); a mask register tests the release of R92. Writes land in
the order of their cycles, so of two groups' writes of one mask the one completing later stands (DEDUCED, log entry 52). -/
def execFixedLatencyWrite (s : State) : Out :=
  match s.now with
  | some (.fixedLatencyWrite c ws) =>
    .next (s.onCord c fun x =>
      let x := x.applyAll ws
      if ws.any isMaskWrite then x.waitkRelease.atBoundary else x)
  | _ => .next s

/-- A cord that was eligible and not chosen for 48 counted cycles becomes urgent (R88). -/
def execCordUrgent (s : State) : Out :=
  match s.now with
  | some (.cordUrgent c) => .next (s.onCord c fun x => if 48 ≤ x.count then { x with urgent := true } else x)
  | _ => .next s

/-- A cord that the debug path resumes goes on: at the next slot after halt or brkpt, past the breakpoint of the clause
it stands at, or to the handler of a caught cause (R194, R315, R355, R356). -/
def Cord.debugGo (c : Cord) : Cord :=
  match c.wait with
  | .halted | .caught => { c with wait := .none }
  | .armed => { c with wait := .none, skipBrk := true }
  | _ => c

/-- A core is armed from when a motif of the loaded pattern becomes resident on it until that motif retires, is discarded or goes on
elsewhere; the save of the motif disarms nothing (R355; DESIGN CHOICE, log entry 55). -/
def State.armCore (core : Nat) (s : State) : State :=
  let armed := s.allMotifs.any fun m => s.loaded m && m.core == core
  s.onCore core fun k => { k with armed := armed }

/-! Blocked states. -/

/-- A flag whose outstanding work is wait-full loads alone: the granule of the oldest (R190), which is that of its lowest active
lane, full or not (DESIGN CHOICE, log entry 63). -/
def State.waitFullOnly (s : State) (c : Cord) (f : Nat) : Option Nat :=
  let mine := (((s.findMotif c.mid).map (·.wf)).getD []).filter fun w => w.cord == c.cid && w.flag.val == f
  if mine.length = c.flagOf f then (mine.head?).bind fun w => w.granules.head? else none

/-- What blkst shows of a cord (R190). -/
def State.blkst (s : State) (c : Cord) : Blk :=
  let c := c.view
  match c.wait with
  | .barw b => ⟨1, b, 0⟩
  | .srwait q k p => ⟨4, q, k + if p then 8 else 0⟩
  | .none =>
    if c.cl.on then c.blk
    else
      match c.target with
      | some (pc, act) =>
        if act = 0 ∨ (c.resume.map fun r => r.slot == 8) = some true then {}
        else
          match s.header c pc with
          | .error _ => {}
          | .ok (h, _) =>
            match c.waitFlag h with
            | none => {}
            | some f =>
              match s.waitFullOnly c f with
              | some g => ⟨5, f, g⟩
              | none => ⟨10, f, 0⟩
      | none =>
        match lanesOf c.liveMask with
        | [] => {}
        | l :: _ =>
          match (c.thread l).st with
          | .held => ⟨6, 0, lowest (maskWhere fun l => (c.thread l).st == .held)⟩
          | .waiting k => ⟨7, k, lowest (c.waitersOn k)⟩
          | _ => {}
  | _ => {}

/-! Asynchronous causes. -/

/-- The order in which pending causes are delivered (R350). -/
def asyncRank : Cause → Nat
  | .knot => 0
  | .bobFault => 1
  | _ => 2

/-- The pending cause that is delivered first. -/
def Cord.nextAsync (c : Cord) : Option Async :=
  c.async.foldl (fun b x =>
    match b with
    | none => some x
    | some y => if asyncRank x.cause < asyncRank y.cause then some x else some y) none

/-- What taking an asynchronous cause records (R347, R350): a knot at the blocked slot it was found at, anything
else at a clause boundary, for the group that starts next; an rte to slot 0 stands at one. -/
def Cord.asyncTrap (c : Cord) (a : Async) : Option PendTrap :=
  match a.slot with
  | some k =>
    let last := decide (hdrCount c.cl.hdr ≤ k)
    if c.cl.on then
      some { cause := a.cause, info := a.info, slot := k, rslot := if last then k else k + 1, rnx := last, boundary := false,
             hdr := c.cl.hdrA, act := c.cl.act }
    else none
  | none =>
    if c.cl.on || (c.resume.any fun r => r.slot != 0 || r.xf != .none) then none
    else
      match a.lane with
      | some l => if (c.thread l).ready then some (boundaryTrap a.cause a.info (c.thread l).pc (c.groupAt (c.thread l).pc)) else none
      | none => c.target.bind fun g => if g.2 = 0 then none else some (boundaryTrap a.cause a.info g.1 g.2)

/-- A cord counts as held or blocked for needle (R194). -/
def State.haltedFor (s : State) (c : Cord) : Bool :=
  let b := s.blkst c
  c.wait == .halted || c.wait == .armed || c.wait == .caught || (decide (1 ≤ b.kind) && decide (b.kind ≤ 9))

/-- run returns: every live cord of every running motif of the loaded pattern is held, halted or blocked (R194, R341). -/
def State.runReturns (s : State) : Bool :=
  let cs := s.allCords.filter fun c => ((s.findMotif c.mid).map fun m => s.loaded m && m.status == .running).getD false
  s.needle.running && !cs.isEmpty && cs.all s.haltedFor

/-- An asynchronous cause can be delivered to a cord now (R350). -/
def State.asyncDue (s : State) (c : Cord) : Option (Async × PendTrap) :=
  if !s.mayRun c || c.trap.v || c.wait != .none then none
  else c.nextAsync.bind fun a => (c.asyncTrap a).map fun p => (a, p)

/-- A pending cause is delivered at the cord's next issue point (R350). -/
def execAsyncTrapDelivery (s : State) : Out :=
  match s.now with
  | some (.asyncTrapDelivery c) =>
    s.ifCord c fun x =>
      match s.asyncDue x with
      | none => s
      | some (a, p) =>
        let drop (x : Cord) : Cord := { x with async := x.async.erase a }
        (State.focus c (s.onCord c drop)).raiseWith p
  | _ => .next s

end Sys2Proof.Machine
end

