-- ==== Sys2Proof/Machine/Crypto.lean ====
section
/-! DEFINITION. Crypto.lean: the functions that R404 names: SHA-384 and SHA-256, ECDSA P-384 with SHA-384, and
LMS_SHA256_M32_H10 with LMOTS_SHA256_N32_W4, after FIPS 180-4, FIPS 186 and RFC 8554 (PRESUMED, log entry 53). -/

namespace Sys2Proof.Machine

/-! Numbers as big-endian bytes. -/

/-- The n bytes of a number, the most significant first. -/
def beBytes (x n : Nat) : List Byte := (leBytes x n).reverse

/-- The number of bytes, the most significant first. -/
def beNat (bs : List Byte) : Nat := leNat bs.reverse

/-- The n bytes of a list from an offset on. -/
def slice (bs : List Byte) (o n : Nat) : List Byte := (bs.drop o).take n

/-! SHA-2. -/

def isPrime (n : Nat) : Bool := decide (2 ≤ n) && (List.range 21).all fun d => d < 2 || n == d || n % d != 0

/-- The first n primes, for n of at most 80. -/
def primes (n : Nat) : List Nat := ((List.range 420).filter isPrime).take n

/-- The largest r + x, x of b bits, whose k-th power is at most n. -/
def rootFrom (k n : Nat) : Nat → Nat → Nat
  | 0, r => r
  | b + 1, r => rootFrom k n b (if (r + 2 ^ b) ^ k ≤ n then r + 2 ^ b else r)

/-- The first w bits of the fraction of the k-th root of a prime. -/
def rootBits (k w p : Nat) : Nat := rootFrom k (p * 2 ^ (k * w)) (w + 5) 0 % 2 ^ w

/-- A member of the family: word width, rounds, and the rotations of its four functions. -/
structure Sha where
  w : Nat
  rounds : Nat
  big0 : Nat × Nat × Nat
  big1 : Nat × Nat × Nat
  small0 : Nat × Nat × Nat
  small1 : Nat × Nat × Nat
  deriving DecidableEq, Repr

def sha32 : Sha := ⟨32, 64, (2, 13, 22), (6, 11, 25), (7, 18, 3), (17, 19, 10)⟩
def sha64 : Sha := ⟨64, 80, (28, 34, 39), (14, 18, 41), (1, 8, 7), (19, 61, 6)⟩

/-- Three rotations together; with shift the third is a shift. -/
def shaMix {w : Nat} (r : Nat × Nat × Nat) (shift : Bool) (x : BitVec w) : BitVec w :=
  x.rotateRight r.1 ^^^ x.rotateRight r.2.1 ^^^ if shift then x >>> r.2.2 else x.rotateRight r.2.2

/-- The message with its padding: a bit 1, zeros and its length in bits, in whole blocks of 16 words. -/
def Sha.pad (f : Sha) (m : List Byte) : List Byte :=
  let block := 2 * f.w
  let used := m.length + 1 + f.w / 4
  m ++ [0x80] ++ (List.range ((block - used % block) % block)).map (fun _ => (0 : Byte)) ++ beBytes (8 * m.length) (f.w / 4)

/-- The words of a block, the last first, with those that the schedule adds. -/
def Sha.schedule (f : Sha) (block : List Byte) : List (BitVec f.w) :=
  let first := (List.range 16).map fun i => BitVec.ofNat f.w (beNat (slice block (i * (f.w / 8)) (f.w / 8)))
  let next (ws : List (BitVec f.w)) (_ : Nat) : List (BitVec f.w) :=
    let at_ (k : Nat) : BitVec f.w := ws.getD (k - 1) 0
    (shaMix f.small1 true (at_ 2) + at_ 7 + shaMix f.small0 true (at_ 15) + at_ 16) :: ws
  (List.range (f.rounds - 16)).foldl next first.reverse

/-- One round on the eight working words. -/
def Sha.round (f : Sha) (v : List (BitVec f.w)) (x : BitVec f.w × BitVec f.w) : List (BitVec f.w) :=
  match v with
  | [a, b, c, d, e, g, h, i] =>
    let t1 := i + shaMix f.big1 false e + ((e &&& g) ^^^ (~~~e &&& h)) + x.2 + x.1
    let t2 := shaMix f.big0 false a + ((a &&& b) ^^^ (a &&& c) ^^^ (b &&& c))
    [t1 + t2, a, b, c, d + t1, e, g, h]
  | v => v

/-- One block changes the hash value. -/
def Sha.block (f : Sha) (hash : List (BitVec f.w)) (block : List Byte) : List (BitVec f.w) :=
  let k := (primes f.rounds).map fun p => BitVec.ofNat f.w (rootBits 3 f.w p)
  List.zipWith (· + ·) hash (((f.schedule block).reverse.zip k).foldl f.round hash)

/-- The hash of a message from a start value. -/
def Sha.hash (f : Sha) (start : List Nat) (m : List Byte) : List Byte :=
  let bs := f.pad m
  let n := bs.length / (2 * f.w)
  let run := (List.range n).foldl (fun h i => f.block h (slice bs (i * (2 * f.w)) (2 * f.w))) (start.map (BitVec.ofNat f.w))
  run.flatMap fun x => beBytes x.toNat (f.w / 8)

/-- SHA-256 of a message. -/
def sha256 (m : List Byte) : List Byte := sha32.hash ((primes 8).map (rootBits 2 32)) m

/-- The 48 bytes of SHA-384 of a message. -/
def sha384Bytes (m : List Byte) : List Byte := (sha64.hash (((primes 16).drop 8).map (rootBits 2 64)) m).take 48

/-- SHA-384 of a message as a value of 48 bytes, the first byte in bits [7:0], so that memory holds its bytes in order (R21). -/
def sha384 (m : List Byte) : BitVec 384 := BitVec.ofNat 384 (leNat (sha384Bytes m))

/-! ECDSA over P-384. -/

def p384 : Nat := 2 ^ 384 - 2 ^ 128 - 2 ^ 96 + 2 ^ 32 - 1
def p384b : Nat := 0xB3312FA7E23EE7E4988E056BE3F82D19181D9C6EFE8141120314088F5013875AC656398D8A2ED19D2A85C8EDD3EC2AEF
def p384n : Nat := 0xFFFFFFFFFFFFFFFFFFFFFFFFFFFFFFFFFFFFFFFFFFFFFFFFC7634D81F4372DDF581A0DB248B0A77AECEC196ACCC52973
def p384G : Nat × Nat :=
  (0xAA87CA22BE8B05378EB1C71EF320AD746E1D3B628BA79B9859F741E082542A385502F25DBF55296C3A545E3872760AB7,
   0x3617DE4A96262C6F5D9E98BF9292DC29F8F41DBD289A147CE9DA3113B5F0B8C00A60B1CE1D7E819D7A431D7C90EA0E5F)

/-- The product of the squares of x that the lowest b bits of e select, modulo m. -/
def powMod (m e : Nat) : Nat → Nat → Nat → Nat
  | 0, _, acc => acc
  | b + 1, x, acc => powMod m (e / 2) b (x * x % m) (if e % 2 = 1 then acc * x % m else acc)

/-- The inverse modulo a prime of 384 bits. -/
def invMod (m x : Nat) : Nat := powMod m (m - 2) 384 (x % m) 1

/-- A point of the curve; none is the point at infinity. -/
abbrev Point := Option (Nat × Nat)

def onCurve (q : Nat × Nat) : Bool :=
  decide (q.1 < p384) && decide (q.2 < p384) && q.2 * q.2 % p384 == (q.1 * q.1 * q.1 + (p384 - 3) * q.1 + p384b) % p384

/-- The sum of two points. -/
def pointAdd (a b : Point) : Point :=
  match a, b with
  | none, _ => b
  | _, none => a
  | some (x, y), some (u, v) =>
    if x = u ∧ (y + v) % p384 = 0 then none
    else
      let l := if x = u then (3 * x * x + (p384 - 3)) * invMod p384 (2 * y) % p384 else (v + (p384 - y)) * invMod p384 (u + (p384 - x)) % p384
      let z := (l * l + (p384 - x) + (p384 - u)) % p384
      some (z, (l * (x + (p384 - z)) + (p384 - y)) % p384)

/-- The multiple of a point by the lowest b bits of k. -/
def pointMul : Nat → Nat → Point → Point
  | 0, _, _ => none
  | b + 1, k, q => pointAdd (if k % 2 = 1 then q else none) (pointMul b (k / 2) (pointAdd q q))

/-- A signature r, s of a message under the key x, y, each a number of 48 bytes. -/
def ecdsaVerifies (key m sig : List Byte) : Bool :=
  let q := (beNat (slice key 0 48), beNat (slice key 48 48))
  let r := beNat (slice sig 0 48)
  let t := beNat (slice sig 48 48)
  let ok (x : Nat) : Bool := decide (1 ≤ x) && decide (x < p384n)
  let w := invMod p384n t
  let u := beNat (sha384Bytes m) * w % p384n
  let v := r * w % p384n
  key.length == 96 && sig.length == 96 && ok r && ok t && onCurve q &&
    match pointAdd (pointMul 384 u (some p384G)) (pointMul 384 v (some q)) with
    | none => false
    | some (x, _) => x % p384n == r

/-! LMS. -/

/-- The i-th digit of 4 bits of a string. -/
def digit4 (bs : List Byte) (i : Nat) : Nat := (bs.getD (i / 2) 0).toNat / (if i % 2 = 0 then 16 else 1) % 16

/-- A digest with its checksum of 16 bits. -/
def withChecksum (q : List Byte) : List Byte := q ++ beBytes (((List.range 64).map fun i => 15 - digit4 q i).sum * 16) 2

/-- A hash chain of element i is followed from digit j, for n steps. -/
def lmotsChain (pre : List Byte) (i : Nat) : Nat → Nat → List Byte → List Byte
  | 0, _, y => y
  | n + 1, j, y => lmotsChain pre i n (j + 1) (sha256 (pre ++ beBytes i 2 ++ beBytes j 1 ++ y))

/-- The one-time public key that a signature of a message leads to: pre is the key's identifier with the number of the leaf. -/
def lmotsKey (pre m sig : List Byte) : List Byte :=
  let d := withChecksum (sha256 (pre ++ beBytes 0x8181 2 ++ slice sig 4 32 ++ m))
  let z (i : Nat) : List Byte := lmotsChain pre i (15 - digit4 d i) (digit4 d i) (slice sig (36 + 32 * i) 32)
  sha256 (pre ++ beBytes 0x8080 2 ++ (List.range 67).flatMap z)

/-- The root above node k with value y, by the rest of the path. -/
def lmsRoot (id : List Byte) (k : Nat) : List (List Byte) → List Byte → List Byte
  | [], y => y
  | x :: path, y =>
    lmsRoot id (k / 2) path (sha256 (id ++ beBytes (k / 2) 4 ++ beBytes 0x8383 2 ++ if k % 2 = 1 then x ++ y else y ++ x))

/-- A signature of a message under a key of 56 bytes: the two types, the identifier and the root. -/
def lmsVerifies (key m sig : List Byte) : Bool :=
  let id := slice key 8 16
  let q := beNat (slice sig 0 4)
  let pre := id ++ beBytes q 4
  let ots := slice sig 4 2180
  let leaf := sha256 (id ++ beBytes (1024 + q) 4 ++ beBytes 0x8282 2 ++ lmotsKey pre m ots)
  let path := (List.range 10).map fun i => slice sig (2188 + 32 * i) 32
  key.length == 56 && sig.length == 2508 && beNat (slice key 0 4) == 6 && beNat (slice key 4 4) == 3 && decide (q < 1024) &&
    beNat (slice ots 0 4) == 3 && beNat (slice sig 2184 4) == 6 && lmsRoot id (1024 + q) path leaf == slice key 24 32

end Sys2Proof.Machine
end

