-- ==== Sys2Proof/Machine/Launch.lean ====
section
/-! DEFINITION. Launch.lean: launch records (R319, R320), prickings (R327, R328), taking, checking and starting records
(R318, R322 to R324), enqueuing (R317), and launch, post, phadv and idend (R336 to R339). -/

namespace Sys2Proof.Machine

/-! Fields of a record (R319). -/

def Pattern.w (p : Pattern) (i : Nat) : Word := p.rcd.getD i 0
def Pattern.w64 (p : Pattern) (i : Nat) : Dword := pair64 (p.w i) (p.w (i + 1))
def Pattern.doe (p : Pattern) : Bool := bit (p.w 0) 15
def Pattern.rb (p : Pattern) : Bool := bit (p.w 0) 14
def Pattern.idp (p : Pattern) : Bool := bit (p.w 0) 13
def Pattern.whole (p : Pattern) : Bool := bit (p.w 0) 12
def Pattern.pre (p : Pattern) : Bool := bit (p.w 0) 11
def Pattern.rmode (p : Pattern) : Nat := fld (p.w 0) 9 2
def Pattern.entryPc (p : Pattern) : Dword := p.w64 2
def Pattern.gx (p : Pattern) : Nat := fld (p.w 4) 0 16
def Pattern.gy (p : Pattern) : Nat := fld (p.w 4) 16 16
def Pattern.gz (p : Pattern) : Nat := fld (p.w 5) 0 16
/-- N, the motifs of the grid. -/
def Pattern.size (p : Pattern) : Nat := p.gx * p.gy * p.gz
def Pattern.cpri (p : Pattern) : Bool := bit (p.w 6) 24
def Pattern.xregs (p : Pattern) : Nat := fld (p.w 6) 20 4
def Pattern.regs (p : Pattern) : Nat := 16 * (fld (p.w 6) 18 2 + 1)
def Pattern.vectors (p : Pattern) : Nat := fld (p.w 6) 12 6
def Pattern.matrices (p : Pattern) : Nat := fld (p.w 6) 6 6
def Pattern.copies (p : Pattern) : Nat := fld (p.w 6) 0 6
/-- n, the cords of a motif. -/
def Pattern.cordCount (p : Pattern) : Nat := p.copies + p.matrices + p.vectors
def Pattern.pillow (p : Pattern) : Nat := (p.w 7).toNat
def Pattern.ringByte (p : Pattern) (i : Nat) : Byte := BitVec.ofNat 8 ((p.w64 8).toNat / 256 ^ i)
def Pattern.order (p : Pattern) : Nat := fld (p.w 14) 4 3
def Pattern.nvec (p : Pattern) : Nat := fld (p.w 14) 2 2 + 1
def Pattern.kind (p : Pattern) : Nat := fld (p.w 14) 0 2
def Pattern.pdata (p : Pattern) : Dword := p.w64 16
def Pattern.sctl (p : Pattern) (i : Nat) : Byte := BitVec.ofNat 8 ((p.w 18).toNat / 256 ^ i)
def Pattern.scon (p : Pattern) (i : Nat) : Word := p.w (19 + i)
def Pattern.saddr (p : Pattern) (i : Nat) : Nat := (p.w64 (24 + 2 * i)).toNat

/-- A 4-bit two's complement component. -/
def sgn4 (x : Nat) : Int := if x < 8 then x else (x : Int) - 16

/-- Vector j of a pricking (R319): x, y, z. -/
def Pattern.vec (p : Pattern) (j : Nat) : Int × Int × Int :=
  let v := fld p.pdata (12 * j) 12
  (sgn4 (v % 16), sgn4 (v / 16 % 16), sgn4 (v / 256 % 16))

/-- The axes of an ORDER code, most significant first: 0 stands for x, 1 for y, 2 for z (R319). -/
def axesOf : Nat → Nat × Nat × Nat
  | 0 => (2, 1, 0)
  | 1 => (2, 0, 1)
  | 2 => (1, 2, 0)
  | 3 => (1, 0, 2)
  | 4 => (0, 2, 1)
  | _ => (0, 1, 2)

def axis {α : Type} (v : α × α × α) : Nat → α
  | 0 => v.1
  | 1 => v.2.1
  | _ => v.2.2

/-! Prickings (R328). -/

/-- x, y, z of a linear index (R320). -/
def Pattern.coord (p : Pattern) (m : Nat) : Nat × Nat × Nat := (m % p.gx, m / p.gx % p.gy, m / (p.gx * p.gy))

/-- The linear index of a point, if it lies inside the grid. -/
def Pattern.indexOf (p : Pattern) (v : Int × Int × Int) : Option Nat :=
  let inside (c : Int) (g : Nat) : Bool := decide (0 ≤ c) && decide (c < g)
  if inside v.1 p.gx && inside v.2.1 p.gy && inside v.2.2 p.gz then
    some (v.1.toNat + p.gx * (v.2.1.toNat + p.gy * v.2.2.toNat))
  else none

/-- The distinct predecessors of a motif (R328). -/
def Pattern.predsOf (p : Pattern) (m : Nat) : List Nat :=
  match p.kind with
  | 1 =>
    let (x, y, z) := p.coord m
    ((List.range p.nvec).filterMap fun j =>
      let (a, b, c) := p.vec j
      p.indexOf (x + a, y + b, z + c)).eraseDups
  | 2 => p.preds.getD m []
  | _ => []

/-- The motif at a place of the sweep order (R328). -/
def Pattern.sweep (p : Pattern) (k : Nat) : Nat :=
  if p.kind = 1 then
    let g := (p.gx, p.gy, p.gz)
    let (a, b, c) := axesOf p.order
    let at_ (i : Nat) : Nat :=
      if i = a then k / (axis g b * axis g c) else if i = b then k / axis g c % axis g b else k % axis g c
    at_ 0 + p.gx * (at_ 1 + p.gy * at_ 2)
  else k

/-- The pending counter of a motif: its distinct predecessors not yet retired (R328). -/
def Pattern.pending (p : Pattern) (m : Nat) : Nat := ((p.predsOf m).filter fun k => !SMap.get false p.retired k).length

/-- R328: the counter reads 0 and the motif has not been released. -/
def Pattern.releasable (p : Pattern) (m : Nat) : Bool := !SMap.get false p.released m && p.pending m == 0

/-- The first number from k on, within fuel, that has a property. -/
def firstUpTo (f : Nat → Bool) : Nat → Nat → Option Nat
  | 0, _ => none
  | n + 1, k => if f k then some k else firstUpTo f n (k + 1)

/-- The place of a motif in the sweep order (R328). -/
def Pattern.place (p : Pattern) (m : Nat) : Nat :=
  if p.kind = 1 then
    let g := (p.gx, p.gy, p.gz)
    let (a, b, c) := axesOf p.order
    let v := p.coord m
    (axis v a * axis g b + axis v b) * axis g c + axis v c
  else m

/-- The lowest releasable motif in sweep order (R328). -/
def Pattern.nextMotif (p : Pattern) : Option Nat := (firstUpTo (fun k => p.releasable (p.sweep k)) p.size 0).map p.sweep

/-- SB(N) (R327). -/
def sbSize (n kind : Nat) : Nat :=
  ((n + 7) / 8 + (n + 1) / 2 + (if kind = 2 then 32 * n else 0) + 4095) / 4096 * 4096

/-- Bytes of the scoreboard area (R327). -/
def State.sbArea (s : State) : Nat := fld s.dev.cpsb 0 12 * 4096

/-- The bytes of a scoreboard, in the order in which R327 names its parts: the retired bits and the pending counters, the lowest
motif in the lowest bits, and the list (log entry 33). -/
def Pattern.board (p : Pattern) : List Byte :=
  let n := p.size
  let bits (k : Nat) : Byte := BitVec.ofNat 8 (((List.range 8).map fun i => if SMap.get false p.retired (8 * k + i) then 2 ^ i else 0).sum)
  let count (m : Nat) : Nat := if m < n then p.pending m % 16 else 0
  let entry (l : List Nat) : List Byte := (List.range 8).flatMap fun i => leBytes (l.getD i 0xFFFFFFFF) 4
  (List.range ((n + 7) / 8)).map bits ++ ((List.range ((n + 1) / 2)).map fun k => BitVec.ofNat 8 (count (2 * k) + 16 * count (2 * k + 1))) ++
    if p.kind = 2 then p.preds.flatMap entry else []

/-- Bytes that a controller of the device writes at their homes, line by line; it is no agent of R367. -/
def State.deviceWrite (a : Nat) (bs : List Byte) (s : State) : State :=
  let cells := cellsAt a bs
  if inWindow a then s
  else ((cells.map fun c => lineOf c.1).eraseDups).foldl (fun s line =>
    let mine := cells.filter fun c => lineOf c.1 == line
    State.poke mine ((s.settleNow line).takeOwner none line (wordsOf (mine.map fun c => c.1 % 128)))) s

/-- Bytes of a scoreboard go to the units of the area that the pattern has (R327). -/
def State.putBoard (p : Pattern) (bs : List Byte) (s : State) : State :=
  let base := s.dev.cpsb.toNat / 4096 * 4096
  p.sbAt.zipIdx.foldl (fun s (u, i) => s.deviceWrite (base + 4096 * u) ((bs.drop (4096 * i)).take 4096)) s

/-- The scoreboard of a pattern is written back (R327). -/
def State.writeBoard (p : Pattern) (s : State) : State := s.putBoard p p.board

/-- The free units of the scoreboard area, lowest first (R324, R327). -/
def State.freeUnits (s : State) : List Nat :=
  let used := (s.patterns.filter (·.st != .waiting)).flatMap (·.sbAt)
  (List.range (fld s.dev.cpsb 0 12)).filter fun u => !used.contains u

/-! The launch check (R323). -/

/-- The physical address of a virtual one, or the cause of its fault. -/
def State.transl (s : State) (ctx : Nat) (n : Need) (va : Nat) : Except Cause Nat :=
  let p := s.walk ctx va
  match s.pageFault (s.ctxOf ctx).sys n va p, p with
  | some k, _ => .error k
  | none, some p => .ok (p.addr va)
  | none, none => .error .addrFault

/-- A reserved word or bit of the record is set, or VER is not 1 (R319, R323). -/
def Pattern.reservedBad (p : Pattern) : Bool :=
  let ring (i : Nat) : Bool :=
    let b := p.ringByte i
    if bit b 7 then bit b 6 || fld b 2 2 != 0 else b != 0
  fld (p.w 0) 28 4 != 1 || fld (p.w 0) 16 12 != 0 || fld (p.w 0) 0 9 != 0 || fld (p.w 6) 25 7 != 0 ||
    (List.range 8).any ring || fld (p.w 14) 7 25 != 0 || p.w 15 != 0 || p.w 23 != 0 ||
    ((List.range 4).any fun i => fld (p.sctl i) 0 4 != 0) ||
    (if p.kind = 0 then p.pdata != 0 else p.kind == 1 && p.pdata.toNat / 2 ^ (12 * p.nvec) != 0)

/-- Producer and consumer role of a declared ring. -/
def Pattern.ringRoles (p : Pattern) (i : Nat) : Nat × Nat := (fld (p.ringByte i) 4 2, fld (p.ringByte i) 0 2)

def Pattern.roleCords (p : Pattern) : Nat → Nat
  | 0 => p.copies
  | 1 => p.matrices
  | 2 => p.vectors
  | _ => 0

def Pattern.ringBad (p : Pattern) (i : Nat) : Bool :=
  let (a, b) := p.ringRoles i
  bit (p.ringByte i) 7 && (a == 3 || b == 3 || decide (b ≤ a) || p.roleCords a == 0 || p.roleCords b == 0)

/-- A vector whose first non-zero component in ORDER is not negative (R323). -/
def Pattern.vecBad (p : Pattern) (j : Nat) : Bool :=
  let (a, b, c) := axesOf p.order
  let v := p.vec j
  match [axis v a, axis v b, axis v c].find? (· != 0) with
  | none => true
  | some x => decide (0 < x)

/-- The checks on the record's own words, up to the pricking: codes 1 to 7; 0 when they pass (R323). -/
def Pattern.checkWords (p : Pattern) : Nat :=
  let n := p.cordCount
  let declared := (List.range 8).any fun i => bit (p.ringByte i) 7
  let need := (if 0 < p.copies then 2064 else 0) + if declared then 128 else 0
  if p.reservedBad then 1
  else if p.gx = 0 ∨ p.gy = 0 ∨ p.gz = 0 then 2
  else if n = 0 ∨ 32 < n ∨ 8 < p.matrices then 3
  else if 12 < p.xregs ∨ 524288 < n * p.regs * 128 + p.xregs * 2048 then 4
  else if p.pillow % 16 ≠ 0 ∨ 262144 < p.pillow ∨ p.pillow < need then 5
  else if (List.range 8).any p.ringBad then 6
  else if p.kind = 3 ∨ (p.whole ∧ p.kind ≠ 0) then 7
  else if p.kind = 1 ∧ (5 < p.order ∨ (List.range p.nvec).any p.vecBad) then 7
  else 0

/-- Entries of a list pricking from motif m on: 9 for a page that does not translate, 8 for an illegal index (R320, R323). -/
def State.readList (s : State) (p : Pattern) : Nat → Nat → Except Nat (List (List Nat))
  | 0, _ => .ok []
  | n + 1, m =>
    match s.transl p.ctx .r (p.pdata.toNat + 32 * m) with
    | .error _ => .error 9
    | .ok pa =>
      let ks := ((List.range 8).map fun i => leNat (s.homeBytes (pa + 4 * i) 4)).filter (· != 0xFFFFFFFF)
      match s.readList p n (m + 1) with
      | .error 9 => .error 9
      | r => if ks.any fun k => decide (p.size ≤ k) || k == m then .error 8 else r.map fun l => ks.eraseDups :: l

/-- The physical address of the result word, if it is one that a launch may have (R323). -/
def State.resultAt (s : State) (p : Pattern) : Option Nat :=
  match s.transl p.ctx .w (p.w64 12).toNat with
  | .ok pa => if inWindow pa then none else some pa
  | .error _ => none

/-- The launch check: the rejection code and the list of predecessors, or what the pattern starts with (R323). -/
def State.check (s : State) (p : Pattern) : Except Nat Pattern :=
  if p.checkWords ≠ 0 then .error p.checkWords
  else
    let list :=
      if p.kind ≠ 2 then .ok []
      else if 2 ^ 32 ≤ p.size ∨ fld p.pdata 0 5 ≠ 0 then .error 8
      else s.readList p p.size 0
    match list with
    | .error c => .error c
    | .ok l =>
      if fld (p.w 2) 0 2 ≠ 0 ∨ fld (p.w 12) 0 2 ≠ 0 then .error 9
      else
        match s.resultAt p with
        | none => .error 9
        | some res =>
          let succBad (i : Nat) : Bool := bit (p.sctl i) 7 && (fld (p.sctl i) 4 3 == 7 || p.saddr i / 64 % 2 == 1)
          let sb := if p.kind = 0 then 0 else sbSize p.size p.kind
          if (List.range 4).any succBad then .error 10
          else if s.sbArea < sb then .error 11
          else .ok { p with preds := l, res := res, sb := sb }

/-! Writes of the command processor. -/

/-- A plain write at its home of bytes of one line, by an agent: it clears word ownership (R200 step 3). -/
def State.plainWrite (by_ : Agent) (a : Nat) (bs : List Byte) (s : State) : State :=
  let s := (s.settleNow (lineOf a)).takeOwner none (lineOf a) (wordsOf ((List.range bs.length).map fun i => a % 128 + i))
  s.performWrite by_ (cellsAt a bs)

/-- Sets events of a context: LF, TOPO or RBK (R359). -/
def State.ctxEvent (ctx : Nat) (b : BitVec 3) (s : State) : State := s.onCtx ctx fun x => { x with ev := x.ev ||| b }

/-- The code of a kill or rejection, with the launch-fault event (R323, R366). -/
def State.launchFault (ctx code : Nat) (s : State) : State :=
  State.ctxEvent ctx 1 (s.onCtx ctx fun x => { x with kcode := code })

def statusOf (state succ code : Nat) : Word := BitVec.ofNat 32 (state * 2 ^ 28 + succ * 2 ^ 24 + code % 256 * 2 ^ 16)

/-- A STATUS value goes to an entry; a write that faults is dropped, with LF (R322). It is neither inside nor
foreign to a rollback group (R367). -/
def State.putStatus (ctx va : Nat) (v : Word) (s : State) : State :=
  match s.transl ctx .w va with
  | .ok pa =>
    if inWindow pa then s.ctxEvent ctx 1
    else State.poke (cellsAt pa (leBytes v.toNat 4)) ((s.settleNow (lineOf pa)).takeOwner none (lineOf pa) (wordsOf [pa % 128]))
  | .error _ => s.ctxEvent ctx 1

def State.status (p : Pattern) (state succ code : Nat) (s : State) : State :=
  s.putStatus p.ctx (p.entry + 4) (statusOf state succ code)

/-- Entry e of a queue (R317). -/
def entryVa (q : Queue) (e : Word) : Nat := (q.base.toNat + 128 * (e.toNat % qSize q)) % 2 ^ 64

/-- QHEAD advances. -/
def State.advance (q : Nat) (s : State) : State := s.onQueue q fun x => { x with head := x.head + 1 }

def Queue.room (q : Queue) : Bool := decide ((q.tail - q.head).toNat < qSize q)

/-- The 128 bytes of a record, as words. -/
def State.recordAt (s : State) (pa : Nat) : List Word :=
  (List.range 32).map fun i => BitVec.ofNat 32 (leNat (s.homeBytes (pa + 4 * i) 4))

/-- A record is copied to entry QTAIL, and QTAIL advances (R317, R330, R338). At an entry that no longer translates the copy is not
made, and QTAIL advances all the same (DESIGN CHOICE, log entry 20). -/
def State.copyRecord (by_ : Option Agent) (q : Nat) (ws : List Word) (s : State) : State :=
  let x := s.queueOf q
  let bs := ws.flatMap fun w => leBytes w.toNat 4
  let s :=
    match s.transl (qCtx x) .w (entryVa x x.tail) with
    | .error _ => s
    | .ok pa =>
      match by_ with
      | some a => s.plainWrite a pa bs
      | none => State.poke (cellsAt pa bs) ((s.settleNow (lineOf pa)).takeOwner none (lineOf pa) 0xFFFFFFFF)
  s.onQueue q fun x => { x with tail := x.tail + 1 }

/-! Taking and starting records. -/

/-- R318. -/
def State.startable (s : State) (q : Nat) : Bool :=
  let x := s.queueOf q
  qEn x && !qSusp x && !(s.patterns.any (·.q == q)) && x.head != x.tail

/-- Among numbers, the first from k on, wrapping (R409). -/
def nextFrom (k : Nat) (l : List Nat) : Option Nat := (l.find? fun x => decide (k ≤ x)).orElse fun _ => l.head?

/-- Queues and memory work: the command processor takes records (R398). -/
def Dev.working (d : Dev) : Bool := d.st == .early || d.st == .full

/-- The queue whose record the command processor takes next (R318, R409). -/
def State.queuePick (s : State) : Option Nat :=
  let qs := (List.range 64).filter s.startable
  let top := (qs.map fun q => qPri (s.queueOf q)).foldl max 0
  if !s.dev.working then none
  else nextFrom (SMap.get 0 s.rrQueue top) (qs.filter fun q => qPri (s.queueOf q) == top)

/-- RECORD_TAKE (R323): the record at QHEAD is read and checked; one that fails is rejected. -/
def execRecordTake (s : State) : Out :=
  match s.now with
  | some (.recordTake q) =>
    .next <|
      if !s.startable q then s
      else
        let x := s.queueOf q
        let ctx := qCtx x
        let s := { s with rrQueue := SMap.set 0 s.rrQueue (qPri x) ((q + 1) % 64) }
        let va := entryVa x x.head
        match s.transl ctx .rw va with
        | .error _ => (s.advance q).launchFault ctx 12
        | .ok pa =>
          if inWindow pa then (s.advance q).launchFault ctx 12
          else
            let p : Pattern := { q := q, ctx := ctx, rcd := s.recordAt pa, entry := va, ord := s.fresh }
            match s.check p with
            | .error c => ((s.status p 3 15 c).advance q).launchFault ctx c
            | .ok p => { s.tick with patterns := s.patterns ++ [p] }
  | _ => .next s

/-- A record that waits can start: its queue is not suspended and runs no other, earlier ones of it are over, and its
scoreboard space is free (R318, R324, R331). -/
def State.canBegin (s : State) (p : Pattern) : Bool :=
  p.st == .waiting && !qSusp (s.queueOf p.q) && decide (p.sb / 4096 ≤ s.freeUnits.length) &&
    s.patterns.all fun x => x.q != p.q || x.ord == p.ord || (x.st == .waiting && decide (p.ord < x.ord))

/-- A launch of a rollback group starts: it opens or joins the group's epoch (R367). -/
def State.openEpoch (p : Pattern) (s : State) : State :=
  let mine (e : Epoch) : Bool := e.ctx == p.ctx && e.grp == p.rollgrp
  if p.rollgrp = 0 ∨ 0 < p.replays then s
  else if s.epochs.any mine then
    { s with epochs := s.epochs.map fun e => if mine e = true then { e with recs := e.recs ++ [p] } else e }
  else { s with epochs := s.epochs ++ [⟨p.ctx, p.rollgrp, [], [], [], [p]⟩] }

/-- A pattern with a list pricking starts with its table as it reads now (R320); a table that would be refused now leaves what
was read at the take (log entry 33). -/
def State.startList (s : State) (p : Pattern) : List (List Nat) :=
  if p.kind = 2 then (match s.readList p p.size 0 with | .ok l => l | .error _ => p.preds) else p.preds

/-- A record as it starts, now and at a replay: it takes its scoreboard space, and reads its list (R320, R324). -/
def State.begun (s : State) (p : Pattern) : Pattern :=
  { p with st := .running, released := [], retired := [], preds := s.startList p, sbAt := s.freeUnits.take (p.sb / 4096), started := s.fresh }

/-- RECORD_START (R324): scoreboard space is taken and cleared, STATUS reads running, the result word 0. -/
def execRecordStart (s : State) : Out :=
  match s.now with
  | some (.recordStart q) =>
    .next <|
      match s.patterns.find? fun p => p.q == q && s.canBegin p with
      | none => s
      | some p =>
        let y := s.begun p
        let go (x : Pattern) : Pattern := if x.ord = p.ord then y else x
        let s := s.tick.openEpoch p
        let s := State.putBoard y (List.replicate p.sb 0) { s with patterns := s.patterns.map go }
        let s := s.status p 1 15 0
        s.plainWrite (some (p.ctx, p.rollgrp)) p.res (leBytes 0 4)
  | _ => .next s

/-! Instructions. -/

/-- The register writes of a launch's status (R338). -/
def putStatusWord (st e : Nat) (ws : List RegWrite) : List RegWrite :=
  ws.map (putValue (BitVec.ofNat 32 (st * 2 ^ 16 + if st = 0 then e % 2 ^ 16 else 0)))

/-- The queue that a launch names may take its record (R338). -/
def State.launchable (s : State) (ctx q : Nat) : Bool :=
  let x := s.queueOf q
  qDl x && qEn x && qCtx x == ctx

/-- launch (R338): a record that its queue may take waits for its release; any other status is known at issue. -/
def execLaunch (d : Wr) (a b : Rd) (s : State) : Out :=
  let f : Form := { lat := .v, vecs := wrVecs d 1 ++ rdVecs a 1 ++ rdVecs b 1 }
  let c := s.cord
  let x := c.once64 a b
  let q := x % 64
  let dst := c.writesOnce d 0
  let early : Option Nat := if x / 64 % 2 = 1 then some 3 else if s.launchable c.ctx q then none else some 2
  let body (s : State) : Res :=
    if x / 64 % 2 = 1 then .done s
    else
      withPages [x / 128 * 128] .r s fun ps s =>
        if early.isSome then .done s
        else .done (s.release (.launch ⟨c.flag, q, ((ps.head?).map fun p => p.addr (x / 128 * 128)).getD 0, dst⟩) 0)
  let r := (f.check s).getD (body s)
  let t := f.settle s r
  .next <|
    match r, early with
    | .done _, some st => t.complete c.cid c.flag (putStatusWord st 0 dst)
    | _, _ => t

/-- The agent is a launch of the epoch's rollback group (R367). -/
def Epoch.covers (e : Epoch) (by_ : Agent) : Bool := e.grp != 0 && by_ == some (e.ctx, e.grp)

/-- An enqueue by an agent is held until the epoch of its group ends (R367). -/
def State.holdEnq (by_ : Agent) (x : Enq) (s : State) : State :=
  { s with epochs := s.epochs.map fun e => if e.covers by_ then { e with held := e.held ++ [x] } else e }

/-- A launch takes effect: the record is copied and its status written; a launch by a cord of a rollback group is
held until the epoch ends, its entry number not stated (R338, R367, log entry 21). -/
def State.launchNow (c : Nat) (r : LaunchReq) (s : State) : State :=
  let by_ := s.agentOfCord c
  let x := s.queueOf r.q
  if s.epochs.any (·.covers by_) then
    let n := (Config.unstated s.fresh).toNat
    State.complete c r.flag (putStatusWord 0 n r.dst) (s.holdEnq by_ { q := r.q, src := r.src, words := some (s.recordAt r.src) }).tick
  else if !x.room then s.complete c r.flag (putStatusWord 1 0 r.dst)
  else
    let e := x.tail.toNat
    State.complete c r.flag (putStatusWord 0 e r.dst) (s.copyRecord (some by_) r.q (s.recordAt r.src))

/-- post (R339). -/
def execPost (a : Rd) (n : Imm) (s : State) : Out :=
  runForm { lat := .v, vecs := rdVecs a 1 } s fun s =>
    let c := s.cord
    if fld n 1 6 ≠ 0 then .trap .opndKind c.word
    else if !c.roomSt 1 then .stall {} s
    else .done (s.release (.post c.flag (c.once a) (bit n 0)) 1)

/-- The result word of the pattern of a cord. -/
def State.resultOf (s : State) (c : Nat) : Option Pattern :=
  (s.cordRec c).bind fun x => (s.findMotif x.mid).bind fun m => s.patternOf m.queue

/-- A post leaves for the home of its result word (R198, R339). -/
def State.sendPost (c : Nat) (f : Flag) (v : Word) (b0 : Bool) (s : State) : State :=
  match s.cordRec c, s.resultOf c with
  | some x, some p =>
    let line := lineOf p.res
    s.afterPath x.core (s.homeOf line) ((s.leastRow x.core line).1 / 2) (.postAtHome c f v b0)
  | _, _ => s

/-- How posts combine (R319, R339). -/
def combine (mode : Nat) (res v : Word) : Word :=
  match mode with
  | 0 => if res.ult v then v else res
  | 1 => res + v
  | 2 => res ||| v
  | _ => v

/-- evphase := min(evphase + n, 0xFFFF) (R164, R337). -/
def State.phaseAdvance (ctx n : Nat) (s : State) : State :=
  s.onCtx ctx fun x => { x with evphase := BitVec.ofNat 16 (min 0xFFFF (x.evphase.toNat + n)) }

/-- POST_AT_HOME (R339): one update of the result word, which clears word ownership; then stcnt, the eviction phase
and the flag. -/
def execPostAtHome (s : State) : Out :=
  match s.now with
  | some (.postAtHome c f v b0) =>
    .next <|
      match s.resultOf c with
      | none => s
      | some p =>
        let line := lineOf p.res
        if s.unreachable line then State.messageLost c ((s.stDown c 1).complete c f [])
        else if s.agenda.any (adapterWrite line) then s.settleAdapter line (.postAtHome c f v b0)
        else
        match s.owedNotices none line (wordsOf [p.res % 128]) with
        | n :: ns => s.notifyFirst (n :: ns) line (.postAtHome c f v b0)
        | [] =>
          let new := combine p.rmode (BitVec.ofNat 32 (s.num p.res 4)) v
          let s := s.plainWrite (s.agentOfCord c) p.res (leBytes new.toNat 4)
          let s := s.stDown c 1
          let s := if b0 then s.phaseAdvance p.ctx 1 else s
          s.complete c f []
  | _ => .next s

/-- phadv (R337). -/
def execPhadv (n : Imm) (s : State) : Out := runForm { lat := .n } s fun s => .done (s.phaseAdvance s.cord.ctx n.toNat)

/-- idend (R336): from now on a pre-emption saves the motif. -/
def execIdend (s : State) : Out :=
  runForm { lat := .n } s fun s => .done { s with motif := { s.motif with pastIdend := true } }

end Sys2Proof.Machine
end

