-- ==== Sys2Proof/Machine/Motifs.lean ====
section
/-! DEFINITION. Motifs.lean: admission and placement of motifs (R325, R326, R409), their start (R321) and resumption
(R332, R360), pre-emption (R331, R335, R357), saving and discarding (R336, R358, R260), retirement (R329). -/

namespace Sys2Proof.Machine

def insertBy {α : Type} (le : α → α → Bool) (x : α) : List α → List α
  | [] => [x]
  | y :: l => if le x y then x :: y :: l else y :: insertBy le x l

/-- A list in the order that le gives, equal members as they stand. -/
def sortBy {α : Type} (le : α → α → Bool) (l : List α) : List α := l.foldr (insertBy le) []

/-! Admission. -/

/-- Core i of the rotation: die fastest, then cluster, then core (R326). -/
def rotationCore (i : Nat) : Nat := (i % 4 * 10 + i / 4 % 10) * 16 + i / 40 % 16

/-- Motifs resident on a core (R12). -/
def State.motifsOn (s : State) (core : Nat) : List Motif := s.allMotifs.filter fun m => m.core == core && m.status == .running

/-- The lowest place for n bytes of pillow beside allocations of a 256 KiB pillow (R167, R325). -/
def freeBase (used : List (Nat × Nat)) (n : Nat) : Option Nat :=
  let fits (b : Nat) : Bool := decide (b + n ≤ 262144) && used.all fun (a, k) => decide (a + k ≤ b ∨ b + n ≤ a) || k == 0
  ((0 :: used.map fun (a, k) => a + k).filter fits).foldl (fun r b =>
    match r with
    | none => some b
    | some x => some (min x b)) none

/-- A core admits a motif of a pattern whose saved cords hold blocks: where its pillow goes (R97, R269, R325). -/
def State.admits (s : State) (p : Pattern) (held core : Nat) : Option Nat :=
  let ms := s.motifsOn core
  let cs := s.residents core
  let n := p.cordCount
  let slotOk (k : Nat) : Bool :=
    decide (((List.range n).filter fun c => c % 4 == k).length + (cs.filter fun c => c.slot == k).length ≤ 8)
  let blocks := n * p.regs / 16
  let tiles := ((cs.filter fun c => c.live && c.role == 1).map (·.nacc)).sum
  let need := if p.matrices = 0 then 0 else p.matrices * naccOf p.matrices
  if bit s.dev.clusters (clusterOf core) && !bit s.dev.leaving (clusterOf core) && (List.range 4).all slotOk && decide (blocks + held ≤ s.poolFree core) &&
      decide (blocks + p.xregs ≤ s.poolSize core) && decide (tiles + need ≤ 8) then
    freeBase (ms.map fun m => (m.base, m.pb)) p.pillow
  else none

/-- The core, its place in the rotation and the pillow base at which a motif is admitted (R326). -/
def State.offer (s : State) (p : Pattern) (held : Nat) : Option (Nat × Nat × Nat) :=
  ((List.range 640).map fun i => (s.rrCore + i) % 640).findSome? fun i =>
    (s.admits p held (rotationCore i)).map fun b => (i, rotationCore i, b)

/-! Starting motifs. -/

/-- Roles of the cords of a motif: copy, then matrix, then vector (R80). -/
def Pattern.roleOf (p : Pattern) (i : Nat) : Nat := if i < p.copies then 0 else if i < p.copies + p.matrices then 1 else 2

/-- Cord i of a motif at its start (R79, R321); its start is an acquire (R202, R329). -/
def Pattern.cord (p : Pattern) (m : Motif) (cid i : Nat) : Cord :=
  let s5 := BitVec.ofNat 32 m.idx
  let regs := [lo32 (p.w64 10), hi32 (p.w64 10), BitVec.ofNat 32 m.x, BitVec.ofNat 32 m.y, BitVec.ofNat 32 m.z, s5]
  let c : Cord :=
    { cid := cid, live := true, mid := m.mid, ctx := p.ctx, core := m.core, slot := i % 4, idx := i, role := p.roleOf i,
      pri := p.cpri, age := cid, regs := p.regs, xmax := p.xregs,
      nacc := if p.matrices = 0 then 0 else naccOf p.matrices, epoch := 1,
      threads := (List.range 32).foldl (fun ts l => SMap.set {} ts l { st := .ready, pc := p.entryPc }) [],
      s := (regs.zipIdx).foldl (fun m (v, k) => SMap.set 0 m k v) [] }
  c.rechoose

/-- A ring as the record declares it (R185, R319). -/
def Pattern.ring (p : Pattern) (i : Nat) : RingSt :=
  let b := p.ringByte i
  if bit b 7 then { dcl := true, prod := fld b 4 2, cons := fld b 0 2 } else {}

/-- The motif of a linear index as it is placed: empty pillow, barriers and rings (R167, R176, R185). -/
def Pattern.motif (p : Pattern) (mid idx core base ord : Nat) : Motif :=
  let (x, y, z) := p.coord idx
  { mid := mid, queue := p.q, idx := idx, x := x, y := y, z := z, core := core, status := .running, ctx := p.ctx,
    copies := p.copies, matrices := p.matrices, vectors := p.vectors, regs := p.regs, xregs := p.xregs, pb := p.pillow,
    rings := (List.range 8).foldl (fun r i => SMap.set {} r i (p.ring i)) [], base := base, startOrd := ord, relOrd := ord }

/-- The core reads a context's decode table as its first cord c becomes resident; a fault is raised in that cord's
first slot (R54, R362). Then a table that the core has held for the context stands, else map 0: the spec names none (DESIGN
CHOICE, log entry 51). -/
def State.loadTable (core ctx c : Nat) (s : State) : State :=
  let base := (s.ctxOf ctx).tableBase
  if base = 0 then s.setTable core ctx none
  else
    match s.transl ctx .r base with
    | .ok pa => s.setTable core ctx (some (s.readTable pa))
    | .error k => s.onCord c fun x => { x with tabFault := some (k, BitVec.ofNat 64 base) }

/-- A cord of the context is resident on the core. -/
def State.residing (s : State) (core ctx : Nat) : Bool := (s.residents core).any fun x => x.ctx == ctx

def State.putMotif (m : Motif) (s : State) : State :=
  if s.motif.mid = 0 then { s with motif := m } else { s with motifs := s.motifs ++ [m] }

def State.putCord (c : Cord) (s : State) : State :=
  if s.cord.cid = 0 then { s with cord := c } else { s with cords := s.cords ++ [c] }

/-- A motif that has not run, or was discarded, starts on a core, trapvec of its cords as the loader sets it (R321, R326, R352). -/
def State.startMotif (p : Pattern) (idx core base : Nat) (s : State) : State :=
  let mid := s.fresh + 1
  let m := p.motif mid idx core base mid
  let n := p.cordCount
  let was := s.residing core p.ctx
  let s := State.putMotif m { s with fresh := s.fresh + n + 1 }
  let vec := (s.ctxOf p.ctx).vec
  let s := (List.range n).foldl (fun s i => s.putCord { p.cord m (mid + 1 + i) i with trapvec := vec }) s
  State.armCore core (if was then s else s.loadTable core p.ctx (mid + 1))

/-! Resuming motifs. -/

/-- Every cord record of a motif, ended cords too. -/
def State.cordRecs (s : State) (m : Nat) : List Cord := (s.cord :: s.cords).filter fun c => c.cid != 0 && c.mid == m

/-- An open eyelet of a resumed cord is opened again at its address; one whose translation faults is closed with
REASON SHOOT (R160, R360). -/
def State.reopenEye (c tok e : Nat) (s : State) : State :=
  match s.findCord c with
  | none => s
  | some x =>
    let y := x.eye e
    let va := y.vla * 128
    let p := s.walk x.ctx va
    match s.pageFault (s.ctxOf x.ctx).sys .r va p, p with
    | none, some p =>
      let pa := p.addr va
      let y := { y with st := .filling, pla := pa / 128, w := p.w, rmt := !s.isLocal pa, own := 0, data := [], tok := tok,
                        sysAtomic := p.sysAtomic }
      let up (o : Op) : Op := if o.tok = tok then { o with left := o.left + 1 } else o
      let s := s.onCord c fun x => { x.setEye e y with ldcnt := x.ldcnt + 1, ops := x.ops.map up }
      s.sendFill c e tok
    | _, _ => s.onCord c fun x => x.setEye e { y with st := .closed, reason := .shoot, data := [], own := 0 }

/-- The open eyelets of a resumed cord are reopened with an acquire; the cord issues when they have arrived (R160,
R223, R360). -/
def State.reopen (c : Nat) (s : State) : State :=
  let tok := s.fresh
  let s := s.tick
  match s.findCord c with
  | none => s
  | some x =>
    let es := (x.eyes.filter fun (_, y) => y.st == .opened).map (·.1)
    let s := s.onCord c fun x => { x with epoch := x.epoch + 1, ops := x.ops ++ [{ tok := tok, left := 1, kind := .reopen }] }
    State.opPart c tok (es.foldl (fun s e => s.reopenEye c tok e) s)

/-- The save area's record of a motif is free again. -/
def State.dropSave (m ctx : Nat) (s : State) : State := s.onCtx ctx fun x => { x with saved := x.saved.filter (·.1 != m) }

/-- A saved motif resumes on a core: the buffered peer arrivals are applied, the barw cords of the phases they
completed go on, and the eyelets are reopened (R183, R332, R360). -/
def State.resumeMotif (m : Motif) (core base : Nat) (s : State) : State :=
  let was := s.residing core m.ctx
  let up (k : Motif) : Motif :=
    { k with core := core, base := base, status := .running, startOrd := s.fresh + 1, madeFor := .none, bars := k.shadow,
             shadow := [] }
  let s := State.dropSave m.mid m.ctx (s.tick.onMotif m.mid up)
  let s := { s with peers := s.peers.filter (·.mid != m.mid) }
  let cs := s.cordRecs m.mid
  let s := cs.foldl (fun s c =>
    State.tick (s.onCord c.cid fun x => Cord.rechoose { x.testReleases with live := x.liveMask != 0, core := core, age := s.fresh + 1 })) s
  let s := if was then s else s.loadTable core m.ctx ((((cs.find? fun c => c.liveMask != 0).map (·.cid))).getD 0)
  let released (i : Nat) : Word := (m.bar i).wm &&& ~~~(SMap.get ({} : Bar) m.shadow i).wm
  let s := (List.range 16).foldl (fun s i =>
    (cs.filter fun c => bit (released i) c.idx && c.wait == .barw i).foldl (fun s c => s.wakeAcquire c.cid .wakeBarw) s) s
  State.armCore m.core (State.armCore core (cs.foldl (fun s c => if c.liveMask = 0 then s else s.reopen c.cid) s))

/-! Placement. -/

/-- The saved motif of a linear index. -/
def State.savedMotif (s : State) (q idx : Nat) : Option Motif :=
  s.allMotifs.find? fun m => m.queue == q && m.idx == idx && m.status == .saved && !m.discard

/-- One motif is offered, and starts or resumes on the first core that admits it (R326, R332). -/
def State.placeOne (p : Pattern) (s : State) (idx : Nat) : Option State :=
  let old := s.savedMotif p.q idx
  let held := match old with | some m => ((s.cordRecs m.mid).map (·.xblk)).sum | none => 0
  (s.offer p held).map fun (i, core, base) =>
    let s := { s with rrCore := (i + 1) % 640 }
    match old with
    | some m => s.resumeMotif m core base
    | none =>
      let ran (x : Pattern) : Pattern := { x with released := SMap.set false x.released idx true }
      { (s.startMotif p idx core base).onPattern p.q ran with
          rrPattern := SMap.set 0 s.rrPattern (qPri (s.queueOf p.q)) ((p.q + 1) % 64) }

/-- Motifs placed in one step, or none of them (R326). -/
def State.placeAll (p : Pattern) (idxs : List Nat) (s : State) : Option State := idxs.foldlM (fun s i => s.placeOne p i) s

/-- The motif that another was pre-empted for still waits for its core (R331, R335, log entry 23). -/
def State.yields (s : State) (m : Motif) : Bool :=
  match m.madeFor with
  | none => false
  | some (q, i) =>
    match s.patternOf q with
    | none => false
    | some p => p.st == .running && !qSusp (s.queueOf q) && (!SMap.get false p.released i || (s.savedMotif q i).isSome)

/-- Running patterns that are not suspended, by priority and round-robin (R328, R331, R409). -/
def State.releasing (s : State) : List Pattern :=
  let ps := s.patterns.filter fun p => p.st == .running && !qSusp (s.queueOf p.q)
  [3, 2, 1, 0].flatMap fun pri =>
    let k := SMap.get 0 s.rrPattern pri
    ((List.range 64).map fun i => (k + i) % 64).flatMap fun q => ps.filter fun p => p.q == q && qPri (s.queueOf q) == pri

/-- Saved motifs of a pattern that are offered, in sweep order (R328). -/
def State.savedOf (s : State) (p : Pattern) : List Motif :=
  sortBy (fun a b => decide (p.place a.idx ≤ p.place b.idx))
    (s.allMotifs.filter fun m => m.queue == p.q && m.status == .saved && !m.discard && !s.yields m)

/-- The motifs of a RES pattern that are to be placed in one step; more than the package can hold never are (R326). -/
def State.wholeOf (s : State) (p : Pattern) : List Nat :=
  if 20480 < p.size then []
  else (List.range p.size).filter fun i => !SMap.get false p.retired i && (!SMap.get false p.released i || (s.savedMotif p.q i).isSome)

/-- Offers in the order of R328: saved motifs of running patterns first, then by pattern the lowest releasable one. A RES
pattern makes none while a motif of it is being saved (R326, R331, R335). -/
def State.offers (s : State) : List (Pattern × Nat) :=
  let ps := s.releasing.filter fun p => !(p.whole && s.allMotifs.any fun m => m.queue == p.q && m.saving)
  (ps.flatMap fun p => (s.savedOf p).map fun m => (p, m.idx)) ++
    ps.filterMap fun p => (p.nextMotif.map fun i => (p, i))

/-- What an offer places: one motif, or every motif of a RES pattern (R326). -/
def State.tryOffer (s : State) (o : Pattern × Nat) : Option State :=
  if o.1.whole then
    match s.wholeOf o.1 with
    | [] => none
    | l => s.placeAll o.1 l
  else s.placeOne o.1 o.2

/-! Pre-emption. -/

/-- SR, the bytes of a motif's save record (R359). -/
def Pattern.saveSize (p : Pattern) : Nat :=
  let nacc := if p.matrices = 0 then 0 else naccOf p.matrices
  (24576 + 128 * p.cordCount * (p.regs + 16 * p.xregs) + p.pillow + 49920 * p.matrices * nacc + 4095) / 4096 * 4096

/-- A pre-emption would discard the motif (R336). -/
def State.discardable (s : State) (m : Motif) : Bool := (((s.patternOf m.queue).map (·.idp)).getD false) && !m.pastIdend

/-- The save area has room for n more bytes (R359). -/
def State.saveRoom (s : State) (ctx n : Nat) : Bool :=
  let x := s.ctxOf ctx
  decide ((x.saved.map (·.2)).sum + n ≤ x.saveSize.toNat * 4096)

/-- The motif can be pre-empted: it is discarded, or its save record has room (R359). -/
def State.canPreempt (s : State) (m : Motif) : Bool :=
  s.discardable m || s.saveRoom m.ctx (((s.patternOf m.queue).map (·.saveSize)).getD 0)

/-- Pre-emption of a motif is decided: its cords stop with the next cycle, at their next issue points, and the save record's
room is taken (R336, R357 step 1). -/
def State.preempt (m : Motif) (by_ : Option (Nat × Nat)) (s : State) : State :=
  let disc := s.discardable m
  let n := ((s.patternOf m.queue).map (·.saveSize)).getD 0
  let s := s.onMotif m.mid fun k => { k with saving := true, saveAt := s.cycle + 1, discard := disc, madeFor := by_ }
  if disc then s else s.onCtx m.ctx fun x => { x with saved := x.saved ++ [(m.mid, n)] }

/-- As the cords of a motif stop, a stalled xacq is withdrawn, and no issue slot is held for them (R103, R357 step 1). -/
def State.withdraw (s : State) (m : Motif) : State :=
  let mine := (s.cordRecs m.mid).map (·.cid)
  let free (k : Core) : Core :=
    { k with xreqs := k.xreqs.filter fun r => !mine.contains r.1, holder := k.holder.filter fun h => !mine.contains h.2 }
  (s.onCore m.core free).mapCords fun c => if mine.contains c.cid then { c with xgrant := 0 } else c

/-- Running motifs of a pattern that are not already being pre-empted. -/
def State.runningOf (s : State) (p : Pattern) : List Motif :=
  s.allMotifs.filter fun m => m.queue == p.q && m.status == .running && !m.saving

/-- PRE patterns below a priority, lowest priority first, the most recently started first (R331). -/
def State.preemptable (s : State) (pri : Nat) : List Pattern :=
  let ps := s.patterns.filter fun p => p.st == .running && p.pre && decide (qPri (s.queueOf p.q) < pri) && !(s.runningOf p).isEmpty
  let first (a b : Pattern) : Bool :=
    let x := qPri (s.queueOf a.q)
    let y := qPri (s.queueOf b.q)
    decide (x < y) || (x == y && decide (b.started ≤ a.started))
  sortBy first ps

/-- The motifs that are pre-empted for an offer that found no core: the last released one (a motif that resumes is not released
again, R332) of the first pattern that yields, or all of a RES pattern together; none while a pre-emption for it is under way (R331, R335). -/
def State.victims (s : State) (o : Pattern × Nat) : List Motif :=
  if s.allMotifs.any fun m => m.saving && m.madeFor == some (o.1.q, o.2) then []
  else
    let last (ms : List Motif) : List Motif := (sortBy (fun a b => decide (b.relOrd ≤ a.relOrd)) ms).take 1
    let choice (p : Pattern) : Option (List Motif) :=
      let ms := s.runningOf p
      if p.whole then
        let n := ((ms.filter fun m => !s.discardable m).length) * p.saveSize
        if s.saveRoom p.ctx n ∨ n = 0 then some ms else none
      else
        match last (ms.filter s.canPreempt) with
        | [] => none
        | l => some l
    ((s.preemptable (qPri (s.queueOf o.1.q))).findSome? choice).getD []

/-- The offer that places something or pre-empts something now; none while needle holds the pattern (R331, R341). -/
def State.placementDue (s : State) : Option (Pattern × Nat) :=
  s.offers.find? fun o => !s.holds o.1.q && ((s.tryOffer o).isSome || !(s.victims o).isEmpty)

/-- MOTIF_PLACEMENT (R326, R331). -/
def execMotifPlacement (s : State) : Out :=
  match s.now with
  | some (.motifPlacement q idx) =>
    .next <|
      match s.offers.find? fun o => o.1.q == q && o.2 == idx with
      | none => s
      | some o =>
        match s.tryOffer o with
        | some s' => s'
        | none => (s.victims o).foldl (fun s m => s.preempt m (some (q, idx))) s
  | _ => .next s

/-! Saving and discarding. -/

/-- The flag that a release counts until it takes effect; a call counts until its round ends (R386). -/
def RelKind.flag : RelKind → Option Flag
  | .atom r | .followAtom r _ => r.flag
  | .post f _ _ => some f
  | .launch x => some x.flag
  | _ => none

/-- The V-class work of a cord that no pending wait-full load and no pending release counts is over: what a discard waits for,
whose releases never take effect (R336, R357 step 2). -/
def State.calm (s : State) (c : Cord) : Bool :=
  let wf := ((s.findMotif c.mid).map (·.wf)).getD []
  (List.range 12).all fun f => c.flagOf f ==
    (wf.filter fun w => w.cord == c.cid && w.flag.val == f).length + (c.rels.filter fun r => (r.kind.flag.map (·.val)) == some f).length

/-- A cord has no work of R357 steps 2 and 5 left: before a save both counters read 0 (R195, R223); a discard waits for what has
left the core. A call is over, be its cord ended or not (R387). A release may still wait for a wait-full load, or a notify store
for its turn (R248). -/
def State.atRest (s : State) (m : Motif) (c : Cord) : Bool :=
  let own := (c.rels.map (·.own)).sum
  let forms := (s.cores.any fun k => k.tq.any fun f => f.cord == c.cid) || s.calls.any (·.cord == c.cid) || c.rels.any (·.kind.isCall)
  let first := match c.rels with | [] => true | r :: _ => !r.loads.isEmpty || !r.kind.inTurn m
  !forms && !c.chain && (if m.discard then c.stcnt == own else c.stcnt == 0) &&
    (!c.live || (c.pend.isNone && (if m.discard then s.calm c else s.quiet c) && c.ops.isEmpty && (s.pendingWrites c.cid).isEmpty &&
      (m.discard || (c.ldcnt == 0 && first))))

/-- A taken command that a save waits for (R260). -/
def JEntry.drained (e : JEntry) : Bool := !e.complete && (Cmd.kind e.w == 4 || Cmd.kind e.w == 7 || e.feSet)

/-- A motif whose pre-emption can end: its save or discard (R357). -/
def State.savable (s : State) (m : Motif) : Bool :=
  s.stopping m && ((s.cordRecs m.mid).all fun c => s.atRest m c) &&
    (m.discard || (s.coreOf m.core).journal.all fun e => e.mid != m.mid || !e.drained)

/-- A motif's records go, and with them what it has in its core and save area. -/
def State.removeMotif (m : Motif) (s : State) : State :=
  let mine := (s.cordRecs m.mid).map (·.cid)
  let clear (k : Core) : Core :=
    { k with xreqs := k.xreqs.filter fun r => !mine.contains r.1, journal := k.journal.filter (·.mid != m.mid),
             holder := k.holder.filter fun h => !mine.contains h.2 }
  let s := State.dropSave m.mid m.ctx (s.onCore m.core clear)
  State.armCore m.core { s with
      cord := if s.cord.mid = m.mid then {} else s.cord, cords := s.cords.filter (·.mid != m.mid),
      motif := if s.motif.mid = m.mid then {} else s.motif, motifs := s.motifs.filter (·.mid != m.mid),
      peers := s.peers.filter (·.mid != m.mid) }

/-- A discarded motif may be released again from its entry (R336). -/
def State.discardMotif (m : Motif) (s : State) : State :=
  let back (p : Pattern) : Pattern := { p with released := SMap.set false p.released m.idx false }
  (s.removeMotif m).onPattern m.queue back

/-- A cord as the save record holds it: of its eyelets the addresses, and nothing of what its old core fetched (R358, R360). P of
R90, which the table of R358 does not name, goes with the thread states that it orders (DESIGN CHOICE, log entry 63). -/
def Cord.save (c : Cord) : Cord :=
  { c with live := false, refetch := c.refetch || c.cl.on, xgrant := 0, blk := {}, count := 0, urgent := false, walked := [],
           fetched := .none, tabFault := .none, fit := .none, seen := .none,
           eyes := c.eyes.map fun (e, y) => (e, { y with data := [], own := 0 }) }

/-- The motif's state goes to its save record and its core resources are free; taken commands that are not complete
are to be replayed (R260, R357 step 6). The pattern's scoreboard is written back before (R327). -/
def State.saveMotif (m : Motif) (s : State) : State :=
  let s := match s.patternOf m.queue with | some p => s.writeBoard p | none => s
  let jobs := (s.coreOf m.core).journal.filter (·.mid == m.mid)
  let s := s.mapCords fun c => if c.mid = m.mid then c.save else c
  let s := s.onCore m.core fun k => { k with journal := k.journal.filter (·.mid != m.mid) }
  s.onMotif m.mid fun k => { k with status := .saved, saving := false, shadow := k.bars, replays := jobs ++ k.replays }

/-- MOTIF_SAVE (R336, R357). -/
def execMotifSave (s : State) : Out :=
  match s.now with
  | some (.motifSave mid) =>
    .next <|
      match s.findMotif mid with
      | none => s
      | some m => if !s.savable m then s else if m.discard then s.discardMotif m else s.saveMotif m
  | _ => .next s

/-! Retirement. -/

/-- The drains that were made are over; none: they have not been made. -/
def State.drained (s : State) : Option (List (Nat × Nat × Nat)) → Bool
  | none => false
  | some l => l.all fun d => !s.owing d

/-- R329 steps 1 to 3: no cord lives, every store, atomic and post is acknowledged, every command is recorded. -/
def State.finished (s : State) (m : Motif) : Bool :=
  m.status == .running && !m.saving && m.pubs.isEmpty && m.replays.isEmpty &&
    (s.coreOf m.core).journal.all (·.mid != m.mid) &&
    (s.cordRecs m.mid).all fun c => !c.live && c.stcnt == 0 && c.rels.isEmpty && s.atRest m c

def State.doeOf (s : State) (m : Motif) : Bool := ((s.patternOf m.queue).map (·.doe)).getD false

/-- The motif's next step of retirement can be made; not while needle holds the pattern (R329, R341). -/
def State.retirable (s : State) (m : Motif) : Bool :=
  !s.holds m.queue && s.finished m && (!s.doeOf m || m.drains.isNone || s.drained m.drains)

/-- MOTIF_RETIREMENT (R329): with DOE the cluster's drains come first; then the retired bit is set, and with it the
counter of every successor falls (R328). -/
def execMotifRetirement (s : State) : Out :=
  match s.now with
  | some (.motifRetirement mid) =>
    .next <|
      match s.findMotif mid with
      | none => s
      | some m =>
        if !s.retirable m then s
        else if s.doeOf m ∧ m.drains.isNone then
          let (ds, s) := s.drainCtx m.ctx (some (clusterOf m.core))
          s.onMotif mid fun k => { k with drains := some ds }
        else (s.removeMotif m).onPattern m.queue fun p => { p with retired := SMap.set false p.retired m.idx true }
  | _ => .next s

/-! The debug path. -/

/-- The scoreboard of the pattern that needle has loaded is written back for it to read (R327, R341). -/
def State.readBoard (s : State) : State :=
  match s.needle.loaded.bind s.patternOf with
  | some p => s.writeBoard p
  | none => s

/-- A command of needle (R194, R266, R315, R327, R355). A load forgets the breakpoints and the causes of earlier catch commands (DESIGN
CHOICE, log entry 55). -/
def State.needleDo (x : NeedleCmd) (s : State) : State :=
  match x with
  | .load q =>
    let s := { s with needle := { loaded := some q, held := s.needle.held }, breaks := [] }
    ((s.cores.map (·.core)) ++ s.allMotifs.map (·.core)).eraseDups.foldl (fun s k => s.armCore k) s
  | .setBreak va => { s with breaks := s.breaks ++ [va] }
  | .delete va => { s with breaks := s.breaks.filter (· != va) }
  | .catches code => { s with needle := { s.needle with catches := s.needle.catches ++ [code] } }
  | .board => s.readBoard
  | .run =>
    let mine := (s.allMotifs.filter s.loaded).map (·.mid)
    State.mapCords (fun c => if mine.contains c.mid then c.debugGo else c)
      { s with needle := { s.needle with running := true, held := none } }

/-- The debug path resumes a stopped cord, or needle gives a command; what needle holds it holds until the next run (R194, R266,
R315, R356). -/
def execDebugResume (s : State) : Out :=
  match s.now with
  | some (.debugResume c) => .next (s.onCord c Cord.debugGo)
  | some (.needle x) => .next (s.needleDo x)
  | _ => .next s

end Sys2Proof.Machine
end

