-- ==== Sys2Proof/Machine/Patterns.lean ====
section
/-! DEFINITION. Patterns.lean: suspending queues (R331), completion and successors (R330), kills (R366), rollback groups
and rollback (R367 to R369), and killing a context. -/

namespace Sys2Proof.Machine

/-! Killing a context. -/

/-- Every cord of the context stops, EN clears in every queue it owns, its launches are killed with code 0x26, and
its locks are released (R161, R366). -/
def State.killContext (ctx : Nat) (s : State) : State :=
  let s := (List.range 64).foldl (fun s q =>
    if qCtx (s.queueOf q) = ctx then s.onQueue q fun x => { x with ctl := x.ctl &&& 0x7FFFFFFF } else s) s
  let kill (p : Pattern) : Pattern := if p.ctx = ctx then { p with st := .killing 0x26, drains := .none } else p
  let drop (m : Motif) : Motif := if m.ctx = ctx ∧ m.mid ≠ 0 then { m with saving := true, discard := true } else m
  let s := State.mapMotifs drop { s with patterns := s.patterns.map kill }
  (s.ctxOf ctx).locks.foldl (fun s l => s.unlockLine ctx l) s

/-- CONTEXT_KILL (R366). -/
def execContextKill (s : State) : Out :=
  match s.now with
  | some (.contextKill ctx) => .next (s.killContext ctx)
  | _ => .next s

/-! Pre-empting for a suspension or a cluster that leaves. -/

/-- Motifs that must be pre-empted; one whose save record has no room kills its context (R359). -/
def State.preemptAll (ms : List Motif) (s : State) : State :=
  ms.foldl (fun s m =>
    if ((s.findMotif m.mid).map (·.saving)).getD true then s
    else if s.canPreempt m then s.preempt m none
    else s.killContext m.ctx) s

/-- The cords of a motif stop as the cycle of its pre-emption ends (R357 step 1). A release or an idend of theirs in that cycle still
keeps it from being discarded (R336): it is saved if its record has room, and otherwise goes on, or its context is killed
(R359). -/
def State.stopMotif (s : State) (m : Motif) : State :=
  let runs := ((s.patternOf m.queue).map fun p => p.st == .running).getD false
  if !runs || !m.discard || s.discardable m then s.withdraw m
  else if s.canPreempt m then (s.preempt m m.madeFor).withdraw m
  else if m.madeFor.isSome then s.onMotif m.mid fun k => { k with saving := false, discard := false, madeFor := .none }
  else s.killContext m.ctx

/-- The cords of every motif whose pre-emption was decided in this cycle stop as it ends (R357 step 1). -/
def State.withdrawAll (s : State) : State := (s.allMotifs.filter fun m => m.saving && m.saveAt == s.cycle + 1).foldl State.stopMotif s

/-- QUEUE_SUSPEND (R316, R331): SUSP is set and every running motif of the queue's pattern is pre-empted. -/
def execQueueSuspend (s : State) : Out :=
  match s.now with
  | some (.queueSuspend q) =>
    let s := s.onQueue q fun x => { x with ctl := x.ctl ||| 0x20000000 }
    .next <|
      match s.patternOf q with
      | none => s
      | some p => if p.st = .running then s.preemptAll (s.runningOf p) else s
  | _ => .next s

/-- QUEUE_UNSUSPEND (R316, R331): SUSP clears, and release goes on, the saved motifs first (R328); a motif whose save
has only been decided is saved and offered again. -/
def execQueueUnsuspend (s : State) : Out :=
  match s.now with
  | some (.queueUnsuspend q) => .next (s.onQueue q fun x => { x with ctl := x.ctl &&& 0xDFFFFFFF })
  | _ => .next s

/-! Rollback groups. -/

def Epoch.of (ctx grp : Nat) (e : Epoch) : Bool := e.ctx == ctx && e.grp == grp

/-- The epoch of a pattern's group. -/
def State.epochOf (s : State) (p : Pattern) : Option Epoch := if p.rollgrp = 0 then none else s.epochs.find? (·.of p.ctx p.rollgrp)

def State.onEpoch (ctx grp : Nat) (f : Epoch → Epoch) (s : State) : State :=
  { s with epochs := s.epochs.map fun e => if e.of ctx grp = true then f e else e }

/-- A pattern of a queue is over, and with it what needle had loaded there: its run returns and it holds nothing (R194, R355). -/
def State.unload (q : Nat) (s : State) : State :=
  let n := s.needle
  if (s.patternOf q).isSome then s
  else
    { s with needle := { n with
        loaded := n.loaded.filter (· != q), held := n.held.filter (· != q), running := n.running && n.loaded != some q } }

/-- The pattern is over: it frees its scoreboard and QHEAD advances past its entry (R330 step 6, R366 step 4). -/
def State.dropPattern (p : Pattern) (s : State) : State :=
  let s := State.unload p.q { s with patterns := s.patterns.filter (·.ord != p.ord) }
  if p.advanced then s else s.advance p.q

/-- A launch of the group runs, or is to be replayed. -/
def Pattern.counts (p : Pattern) : Bool := p.st != .waiting || decide (0 < p.replays)

/-- The epoch of a group ends with its last running launch: held STATUS writes and enqueues are made (R367). -/
def State.closeEpoch (ctx grp : Nat) (s : State) : State :=
  if grp = 0 ∨ s.patterns.any fun p => p.ctx == ctx && p.rollgrp == grp && p.counts then s
  else
    match s.epochs.find? (·.of ctx grp) with
    | none => s
    | some e =>
      let s := e.status.foldl (fun s (c, va, v) => s.putStatus c va v) s
      { s with succs := s.succs ++ e.held, epochs := s.epochs.filter fun e => !e.of ctx grp }

/-! Completion (R330). -/

/-- Every motif of the pattern has retired. -/
def Pattern.allRetired (p : Pattern) : Bool := p.retired.length == p.size

/-- The next step of completion can be made. -/
def State.completable (s : State) (p : Pattern) : Bool :=
  (p.st == .running && p.allRetired) || (p.st == .completing && s.drained p.drains)

/-- R330's successor predicates. -/
def succHolds (op : Nat) (res con : Word) : Bool :=
  match op with
  | 0 => true
  | 1 => res == con
  | 2 => res != con
  | 3 => res.ult con
  | 4 => !res.ult con
  | 5 => res.slt con
  | 6 => !res.slt con
  | _ => false

/-- The chosen successor (R330 step 3). -/
def Pattern.successor (p : Pattern) (res : Word) : Option Nat :=
  (List.range 4).find? fun i => bit (p.sctl i) 7 && succHolds (fld (p.sctl i) 4 3) res (p.scon i)

/-- The check of a chosen successor: the code of its failure, or the copy to make (R330 step 4). -/
def State.checkSuccessor (s : State) (p : Pattern) (i : Nat) : Except Nat Enq :=
  let a := p.saddr i
  if !s.launchable (qCtx (s.queueOf p.q)) (a % 64) then .error 1
  else
    match s.transl p.ctx .r (a / 128 * 128) with
    | .error _ => .error 2
    | .ok pa => .ok { q := a % 64, src := pa, words := none }

/-- R330 steps 2 to 7; in a rollback group the STATUS write and the enqueue are held until the epoch ends (R367). -/
def State.completePattern (p : Pattern) (s : State) : State :=
  let res := BitVec.ofNat 32 (s.num p.res 4)
  let chosen := p.successor res
  let result := chosen.map fun i => s.checkSuccessor p i
  let code := match result with | some (.error c) => c | _ => 0
  let enq := match result with | some (.ok e) => [e] | _ => []
  let s := if code = 0 then s else s.ctxEvent p.ctx 1
  let v := statusOf 2 (chosen.getD 15) code
  match s.epochOf p with
  | some _ =>
    let hold (e : Epoch) : Epoch := { e with held := e.held ++ enq, status := e.status ++ [(p.ctx, p.entry + 4, v)] }
    State.closeEpoch p.ctx p.rollgrp (State.dropPattern p (s.onEpoch p.ctx p.rollgrp hold))
  | none =>
    let s := State.dropPattern p (s.putStatus p.ctx (p.entry + 4) v)
    { s with succs := s.succs ++ enq }

/-- PATTERN_COMPLETION (R330): first the drains of R234, then the rest. -/
def execPatternCompletion (s : State) : Out :=
  match s.now with
  | some (.patternCompletion q) =>
    .next <|
      match s.patternOf q with
      | none => s
      | some p =>
        if !s.completable p then s
        else if p.st = .running then
          let (ds, s) := s.drainCtx p.ctx none
          s.onPattern q fun x => { x with st := .completing, drains := some ds }
        else s.completePattern p
  | _ => .next s

/-- The first waiting enqueue of a queue: a copy if there is room for it (R330 step 7), a QTAIL that an rsig wrote at once
(R392). -/
def State.succDue (s : State) (q : Nat) : Option Enq :=
  (s.succs.find? (·.q == q)).bind fun e => if (s.queueOf q).room || e.tail.isSome then some e else none

/-- SUCCESSOR_ENQUEUE (R330 step 7, R392). -/
def execSuccessorEnqueue (s : State) : Out :=
  match s.now with
  | some (.successorEnqueue q) =>
    .next <|
      match s.succDue q with
      | none => s
      | some e =>
        let s := { s with succs := s.succs.erase e }
        match e.tail with
        | some t => s.onQueue q fun x => x.setTail t
        | none => s.copyRecord none q (e.words.getD (s.recordAt e.src))
  | _ => .next s

/-! Kills (R366) and rollback (R369). -/

/-- R366 step 4. -/
def State.finishKill (p : Pattern) (code : Nat) (s : State) : State :=
  let s := if code = 0x10 then s else s.status p 4 15 code
  let s := s.launchFault p.ctx code
  let s := s.onEpoch p.ctx p.rollgrp fun e => { e with recs := e.recs.filter (·.ord != p.ord) }
  State.closeEpoch p.ctx p.rollgrp (s.dropPattern p)

/-- A kill that goes on as a rollback of its group (R366 step 3, R367). -/
def State.rollsBack (s : State) (p : Pattern) (code : Nat) : Bool :=
  (s.epochOf p).isSome && ((p.rb && (code == 0x20 || code == 0x21)) || code == 0x25)

/-- The rollback reaches every running launch of the group (R369 step 1). -/
def State.rollGroup (p : Pattern) (code : Nat) (s : State) : State :=
  let joins (x : Pattern) : Bool :=
    x.ctx == p.ctx && x.rollgrp == p.rollgrp &&
      match x.st with
      | .running | .completing => true
      | .killing c => c == 0x20 || c == 0x21 || c == 0x25
      | _ => false
  let qs := (s.patterns.filter joins).map (·.q)
  let drop (m : Motif) : Motif := if qs.contains m.queue ∧ m.mid ≠ 0 then { m with saving := true, discard := true } else m
  State.mapMotifs drop
    { s with patterns := s.patterns.map fun (x : Pattern) =>
        if joins x = true then { x with st := .rolling code, drains := if x.ord = p.ord then x.drains else .none } else x }

/-- A granule of memory put back, written at its homes behind what an adapter owes to it; eyelets on it, on other devices
too, close with REASON SYS and lost marks clear (R199, R369 step 3, R381). -/
def State.restoreGranule (g : Nat) (cells : List (Nat × Byte)) (s : State) : State :=
  let here (l : Nat) : Bool := l / 512 == g
  let s := (List.range 512).foldl (fun s i => (s.noticeOut (g * 512 + i) .sys).2) s
  let held := (s.cord :: s.cords).flatMap fun c =>
    (c.eyes.filter fun (_, y) => y.st != .closed && here y.pla).map fun (e, _) => (c.cid, e)
  let s := held.foldl (fun s x => s.closeEye x.1 x.2 .sys) s
  let s := (List.range 512).foldl (fun s i => s.settleNow (g * 512 + i)) s
  let mem := SMap.setAll 0 (s.mem.filter fun e => e.1 / 65536 != g) cells
  let s := { s with mem := mem, owners := s.owners.filter fun o => !here (o.1 / 32), lostLines := s.lostLines.filter fun l => !here l }
  (List.range 512).foldl (fun s i => s.l2Dirty (g * 512 + i)) s

/-- Every launch of the epoch starts again from its copied record, in its start order; one that would run a fourth
time is killed with code 0x24 (R369 step 5). -/
def State.replayGroup (e : Epoch) (s : State) : State :=
  let running (p : Pattern) : Bool := s.patterns.any fun x => x.ord == p.ord
  let again := e.recs.map fun p =>
    { p with st := .waiting, released := [], retired := [], stuck := .none, drains := .none, replays := p.replays + 1,
             advanced := p.advanced || !running p }
  let (dead, live) := again.partition fun p => decide (3 ≤ p.replays)
  let live := live.zipIdx.map fun (p, i) => { p with ord := s.fresh + i }
  let s := { s with fresh := s.fresh + live.length,
                    patterns := s.patterns.filter (fun (p : Pattern) => !(p.ctx == e.ctx && p.rollgrp == e.grp && p.counts)) ++ live }
  let s := s.onEpoch e.ctx e.grp fun e => { e with recs := live }
  let s := dead.foldl (fun s p => s.finishKill p 0x24) s
  s.ctxEvent e.ctx 4

/-- R369 steps 2 to 5, once every launch of the group has stopped. -/
def State.rollback (p : Pattern) (code : Nat) (s : State) : State :=
  match s.epochOf p with
  | none => s.finishKill p code
  | some e =>
    if e.snaps.any fun x => x.2.2.2.1 || x.2.2.2.2 then s.killContext p.ctx
    else
      let s := e.snaps.foldl (fun s x => s.restoreGranule x.1 x.2.1) s
      let s := s.onEpoch e.ctx e.grp fun e => { e with held := [], status := [] }
      if code = 0x25 then
        (s.patterns.filter fun x => x.ctx == e.ctx && x.rollgrp == e.grp && x.st == .rolling 0x25).foldl
          (fun s x => s.finishKill x 0x25) s
      else s.replayGroup e

/-- No motif of the pattern is left. -/
def State.cleared (s : State) (p : Pattern) : Bool := s.allMotifs.all (·.queue != p.q)

/-- The next step of a kill or rollback can be made (R366, R369). -/
def State.killDue (s : State) (p : Pattern) : Option Nat :=
  let ready (x : Pattern) : Bool := s.cleared x && s.drained x.drains
  match p.st with
  | .killing c => if s.cleared p && (p.drains.isNone || s.drained p.drains) then some c else none
  | .rolling c =>
    let group := s.patterns.filter fun x => x.ctx == p.ctx && x.rollgrp == p.rollgrp && x.counts
    let rolling (x : Pattern) : Bool := match x.st with | .rolling _ => ready x | .waiting => true | _ => false
    if s.cleared p && p.drains.isNone then some c else if group.all rolling then some c else none
  | _ => none

/-- The drains of pattern completion, before a kill or rollback goes on (R366 step 2); a pricking knot's STATUS
comes before them (R333). -/
def State.killDrains (p : Pattern) (code : Nat) (s : State) : State :=
  let s := if code = 0x10 then s.status p 4 15 code else s
  let (ds, s) := s.drainCtx p.ctx none
  let mark (x : Pattern) : Pattern := if x.ord = p.ord then { x with drains := some ds } else x
  { s with patterns := s.patterns.map mark }

/-- LAUNCH_KILL_FINISH (R366, R369). -/
def execLaunchKillFinish (s : State) : Out :=
  match s.now with
  | some (.launchKillFinish q _) =>
    .next <|
      match s.patterns.find? fun p => p.q == q && (s.killDue p).isSome with
      | none => s
      | some p =>
        match p.st with
        | .killing c =>
          if p.drains.isNone then s.killDrains p c else if s.rollsBack p c then s.rollGroup p c else s.finishKill p c
        | .rolling c => if p.drains.isNone then s.killDrains p c else s.rollback p c
        | _ => s
  | _ => .next s

end Sys2Proof.Machine
end

