-- ==== Sys2Proof/Machine/Knot.lean ====
section
/-! DEFINITION. Knot.lean: the knot detector (R190, R191) and the pricking knot (R333). -/

namespace Sys2Proof.Machine

/-- A kind of R190 that can be part of a knot. -/
def Blk.blocks (b : Blk) : Bool := decide (1 ≤ b.kind) && decide (b.kind ≤ 8)

/-- Commands of a motif that are published and not recorded, as words 0 (R190, R262). -/
def State.openCommands (s : State) (m : Motif) : List Word :=
  let at_ (p : BobPub) : Word := BitVec.ofNat 32 (m.pilNum (m.ba.getD 0 + 0x20 * (p.seq % 64)) 4)
  m.pubs.map at_ ++ (m.replays ++ (s.coreOf m.core).journal.filter (·.mid == m.mid)).map fun e => e.w.getD 0 0

/-- A peer source of a barrier of a motif is at hand: a cord of another motif of the pattern on the cluster that is
not blocked, or a saved motif of the pattern (R190). -/
def State.peerSource (s : State) (m : Motif) : Bool :=
  s.allMotifs.any fun k =>
    k.queue == m.queue && k.mid != m.mid &&
      (k.status == .saved || (clusterOf k.core == clusterOf m.core && (s.cordsOf k.mid).any fun c => (s.blkst c).kind == 0))

/-- Threads of a cord in a mask that are live and not blocked. -/
def Cord.freeThreads (c : Cord) (m : Word) : Bool :=
  (lanesOf m).any fun l =>
    match (c.thread l).st with
    | .ready | .sleeping _ => true
    | _ => false

/-- The wakers of a blocked cord by R190: cords by number, 0 for a waker that is never part of a knot. -/
def State.wakers (s : State) (c : Cord) (b : Blk) : List Nat :=
  match s.findMotif c.mid with
  | none => [0]
  | some m =>
    let cs := s.cordsOf m.mid
    let out (x : Bool) : List Nat := if x then [0] else []
    let role (r : Nat) : List Nat := (cs.filter (·.role == r)).map (·.cid)
    match b.kind with
    | 1 | 2 =>
      let names (w : Word) : Bool := bit w 23 && fld w 19 4 == b.obj
      ((cs.filter fun x => !bit (m.bar b.obj).am x.idx).map (·.cid)) ++
        out ((s.openCommands m).any names) ++ out (s.peerSource m)
    | 3 => role (m.ring b.obj).cons
    | 4 => role (m.ring b.obj).prod
    | 5 => ((cs.filter (·.cid != c.cid)).map (·.cid)) ++ out (!(s.openCommands m).isEmpty)
    | 6 => out (c.freeThreads c.jm)
    | 7 => out (c.freeThreads (c.kreg b.obj))
    | 8 => ((s.residents c.core).filter fun x => decide (0 < x.xblk)).map (·.cid)
    | _ => [0]

/-- The barrier, ring or granule that a blkst names (R190, R191). -/
def Blk.named (b : Blk) : Option (Nat × Nat) :=
  match b.kind with
  | 1 | 2 => some (0, b.obj)
  | 3 | 4 => some (1, b.obj)
  | 5 => some (2, b.data)
  | _ => none

/-- The blocked resident cords with what the detector sees of them. -/
def State.blockedCords (s : State) : List (Cord × Seen) :=
  (s.allCords.filter fun c => ((s.findMotif c.mid).map fun m => m.status == .running && !s.stopping m).getD false).filterMap fun c =>
    let b := s.blkst c
    if b.blocks then some (c, ⟨b, s.wakers c b⟩) else none

/-- A blocked cord is as the last reading found it: it has issued nothing since, its blkst is the same, and what that names has
not changed in between (R191). -/
def State.unmoved (s : State) (c : Cord) (was now : Seen) : Bool :=
  let m := (s.findMotif c.mid).getD {}
  was.blk == now.blk && decide (c.issuedAt < s.knotAt) && now.blk.named.all m.watch.contains

/-- The greatest set of members whose wakers are all members (R191). -/
def closedSet (ms : List (Cord × Seen × List Nat)) : Nat → List (Cord × Seen × List Nat)
  | 0 => ms
  | n + 1 => closedSet (ms.filter fun m => m.2.2.all fun w => ms.any fun x => x.1.cid == w) n

/-- The members of knots: blocked and unchanged since the last reading, closed under their wakers at both (R191). -/
def State.knotMembers (s : State) : List (Cord × Seen) :=
  let bs := s.blockedCords.filterMap fun (c, y) =>
    match c.seen with
    | some x => if s.unmoved c x y then some (c, y, x.wakers ++ y.wakers) else none
    | none => none
  (closedSet bs bs.length).map fun b => (b.1, b.2.1)

/-- Threads whose wait a knot withdraws become ready: held ones with MR cleared, and those in waitk (R191). -/
def Cord.freeWaits (c : Cord) : Cord :=
  c.mapThreads 0xFFFFFFFF fun _ t =>
    match t.st with
    | .held => { t with st := .ready, mr := 0 }
    | .waiting _ => { t with st := .ready }
    | _ => t

/-- The pending wait-full loads of a cord end: destinations unchanged, flags decremented (R191). -/
def State.dropLoads (c : Cord) (s : State) : State :=
  let mine := (((s.findMotif c.mid).map (·.wf)).getD []).filter fun w => w.cord == c.cid
  let ks := mine.map (·.k)
  let s := s.onMotif c.mid fun m => { m with wf := m.wf.filter fun w => w.cord != c.cid }
  s.onCord c.cid fun x =>
    let x := mine.foldl (fun x w => x.flagDown w.flag.val) x
    { x with rels := x.rels.map fun r => { r with loads := r.loads.filter fun k => !ks.contains k } }

/-- The knot trap of one member: its wait is withdrawn, and the cause is delivered at its next issue point; with an
active handler the launch is killed, which ends a run of needle that catches the cause (R191, R315, R350, R365). -/
def State.knotTrap (x : Cord × Seen) (s : State) : State :=
  let (c, y) := x
  let m := (s.findMotif c.mid).getD { queue := 64 }
  if c.trap.v then State.killLaunch m.queue 0x22 (s.raised m .knot)
  else
    let blocked := maskWhere fun l =>
      match (c.thread l).st with
      | .held | .waiting _ => true
      | _ => false
    let group := if y.blk.kind = 5 then ((c.target).map (·.2)).getD 0 else 0
    let slot : Option Nat :=
      match y.blk.kind with
      | 1 | 4 => some (c.cl.slot - 1)
      | 2 | 3 | 8 => some c.cl.slot
      | _ => none
    let lane : Option Nat := if slot.isSome then none else some (lowest (blocked ||| group))
    let a : Async := { cause := .knot, info := y.blk.word.setWidth 64, slot := slot, lane := lane }
    let s := s.onMotif c.mid fun m =>
      if y.blk.kind = 1 then
        let b := m.bar y.blk.obj
        m.setBar y.blk.obj { b with wm := b.wm &&& ~~~maskOf [c.idx] }
      else m
    let s := s.dropLoads c
    let s := s.onCore c.core fun k => { k with xreqs := k.xreqs.filter fun r => r.1 != c.cid }
    s.onCord c.cid fun c => Cord.rechoose { c.freeWaits with wait := .none, async := c.async ++ [a], xgrant := 0 }

/-- A list pricking with unreleased motifs, none of them releasable, and no motif running or saved (R333). SUSP on its queue, which
stops its release, does not keep it out (DESIGN CHOICE, log entry 63). -/
def State.listStuck (s : State) (p : Pattern) : Bool :=
  p.st == .running && p.kind == 2 && decide (p.released.length < p.size) && p.nextMotif.isNone && s.cleared p

/-- KNOT_DETECTOR_READING (R191, R333). -/
def execKnotDetectorReading (s : State) : Out :=
  match s.now with
  | some .knotDetectorReading =>
    let ms := s.knotMembers
    let hit (c : Nat) : Bool := ms.any fun m => m.1.cid == c
    let seen := s.blockedCords
    let note (c : Cord) : Cord :=
      { c with seen := if hit c.cid then .none else (seen.find? fun x => x.1.cid == c.cid).map (·.2) }
    let dead := s.patterns.filter fun p => s.listStuck p && p.stuck == some p.retired
    let mark (p : Pattern) : Pattern := { p with stuck := if s.listStuck p then some p.retired else .none }
    let names (m : Motif) : List (Nat × Nat) := seen.filterMap fun x => if x.1.mid = m.mid then x.2.blk.named else none
    let s := s.mapMotifs fun m => { m with watch := names m }
    let s := State.mapCords note { s with knotAt := s.cycle, patterns := s.patterns.map mark }
    let s := ms.foldl (fun s m => s.knotTrap m) s
    .next (dead.foldl (fun s p => s.killLaunch p.q 0x10) s)
  | _ => .next s

end Sys2Proof.Machine
end

