-- ==== Sys2Proof/Machine/Health.lean ====
section
/-! DEFINITION. Health.lean: health records (R406, R407), checkers and errors (R363, R364, R236), and clusters that leave
service with the topology event (R370 to R372). -/

namespace Sys2Proof.Machine

/-! Health records. -/

def wordBytes (ws : List Word) : List Byte := ws.flatMap fun w => leBytes w.toNat 4

/-- Host adapters that are attached (R379, R393). -/
def adapters : List Nat := (List.range 64).filter Config.adapterAttached

/-- A health record as R407 lays it out: kind, unit, time in µs since ERDY, count, clcount, DEVSTAT. -/
def Dev.record (d : Dev) (kind : Nat) (unit : Word) (count : Nat) : List Word :=
  [BitVec.ofNat 32 kind, unit, BitVec.ofNat 32 d.us, BitVec.ofNat 32 (d.us / 2 ^ 32), BitVec.ofNat 32 count,
   BitVec.ofNat 32 d.clcount, BitVec.ofNat 32 d.devstat, 0]

/-- Record n goes to its place in the ring, if there is one, and to every attached adapter (R407). -/
def State.putRecord (n : Nat) (ws : List Word) (s : State) : State :=
  let s := if s.dev.hlthBase = 0 then s else s.deviceWrite (s.dev.hlthBase.toNat + 32 * (n % 128)) (wordBytes ws)
  { s with outbox := s.outbox ++ adapters.map fun i => (960 + i, .health ws) }

/-- The health controller writes a record, and HLTHHEAD counts it (R407). -/
def State.health (kind : Nat) (unit : Word) (count : Nat) (s : State) : State :=
  let n := s.dev.hlthHead.toNat
  let s := { s with dev := { s.dev with hlthHead := s.dev.hlthHead + 1 } }
  s.putRecord n (s.dev.record kind unit count)

/-- REPL and DEGR are set (R406). -/
def State.degrade (s : State) : State := { s with dev := { s.dev with repl := true, degr := true } }

/-- The unit word of a record (R407). -/
def unitWord (die cluster core ty : Nat) : Word :=
  BitVec.ofNat 32 (die % 256 * 2 ^ 24 + cluster % 256 * 2 ^ 16 + core % 256 * 2 ^ 8 + ty % 256)

def unitOfCore (core ty : Nat) : Word := unitWord (dieOf core) (core / 16 % 10) (core % 16) ty

/-- CORRECTABLE_ERROR (R364, R406): counted; past 4,096 in the hour the unit's record is written. -/
def execCorrectableError (s : State) : Out :=
  match s.now with
  | some (.correctableError unit) =>
    let n := SMap.get 0 s.dev.correctable unit.toNat + 1
    let s := { s with dev := { s.dev with correctable := SMap.set 0 s.dev.correctable unit.toNat n } }
    .next (if n = 4097 then (s.degrade).health 1 unit n else s)
  | _ => .next s

/-- The owed records of clusters left out at bring-up are written at their places, as they were after the event (R406,
R407). -/
def State.payOwed (s : State) : State :=
  if s.dev.hlthBase = 0 then s
  else s.dev.owed.foldl (fun s r => s.putRecord r.1 r.2) { s with dev := { s.dev with owed := [] } }

/-- HLTHBASE_WRITE (R406, R407). -/
def execHlthbaseWrite (s : State) : Out :=
  match s.now with
  | some (.hlthbaseWrite v) => .next (State.payOwed { s with dev := { s.dev with hlthBase := v } })
  | _ => .next s

/-! Checkers and uncorrectable errors. -/

/-- The queue of a cord's launch; 64 for none. -/
def State.queueOfCord (s : State) (c : Nat) : Nat :=
  (((s.cordRec c).bind fun x => s.findMotif x.mid).map (·.queue)).getD 64

/-- PIPE_ERR (R363): the record names the slot and the checker, the event is counted, and the launch is killed; needle may catch
it (R315). -/
def execPipeErr (s : State) : Out :=
  match s.now with
  | some (.pipeErr c slot checker) =>
    let note (x : Cord) : Cord :=
      { x with trap := { x.trap with v := true, slot := slot, cause := Cause.pipeErr.code, info := BitVec.ofNat 64 checker } }
    let core := ((s.cordRec c).map (·.core)).getD 0
    let s := s.onCord c note
    let s := s.raised (((s.cordRec c).bind fun x => s.findMotif x.mid).getD {}) .pipeErr
    let s := { s with dev := { s.dev with mismatches := s.dev.mismatches + 1 } }
    let s := s.health 3 (unitOfCore core checker) s.dev.mismatches
    .next (s.killLaunch (s.queueOfCord c) 0x21)
  | _ => .next s

/-- A granule of a picot cache is lost: its partials go and its home line is marked lost (R236). -/
def State.loseGranule (cl addr : Nat) (s : State) : State :=
  let mine (g : Granule) : Bool := g.addr == addr
  let lines := ((s.picotOf cl).granules.filter mine).map fun g => lineOf g.addr
  let s := s.onPicot cl fun p => { p with granules := p.granules.filter fun g => !mine g }
  lines.foldl (fun s l => s.markLost l) s

/-- The die, cluster and core of the record of an error. -/
def State.errorUnit (s : State) : EccPlace → Word
  | .registers c | .eyelet c _ => unitOfCore (((s.cordRec c).map (·.core)).getD 0) 0
  | .line l => let h := s.homeOf l; unitWord (h / 160) (h / 16 % 10) (h % 16) 1
  | .granule cl _ => unitWord (cl / 10) (cl % 10) 0 2
  | .command _ => unitWord 0 0 0 3

/-- ECC_UNCORRECTABLE (R364): its outcome by the place, and a record of kind 2. -/
def execEccUncorrectable (s : State) : Out :=
  match s.now with
  | some (.eccUncorrectable w) =>
    let s := s.health 2 (s.errorUnit w) 1
    .next <|
      match w with
      | .registers c => s.killLaunch (s.queueOfCord c) 0x20
      | .eyelet c e => s.recallEye c e .ecc
      | .line l => s.markLost l
      | .granule cl g => s.loseGranule cl g
      | .command q => s.killLaunch q 0x20
  | _ => .next s

/-! Clusters that leave service. -/

/-- A change of clcount sets TOPO in every context and in every resident and saved cord; a cord with TOPOEN receives
topo, one event however many changes (R350, R372). -/
def State.topology (s : State) : State :=
  let ctxs := (List.range 4096).map fun i => let x := s.ctxOf i; { x with ev := x.ev ||| 2 }
  let info : Dword := BitVec.ofNat 64 s.dev.clcount
  let note (c : Cord) : Cord :=
    if c.cid = 0 ∨ c.liveMask = 0 then c
    else
      let rest := c.async.filter fun a => a.cause != .topo
      { c with topo := true, async := if bit c.trapvec 0 then rest ++ [{ cause := .topo, info := info }] else c.async }
  State.mapCords note { s with ctxs := ctxs }

/-- CLUSTER_LEAVES_SERVICE (R370): no more offers, every motif of the cluster pre-empted, and once they are saved the
record, then the cluster's bit. -/
def execClusterLeavesService (s : State) : Out :=
  match s.now with
  | some (.clusterLeavesService cl) =>
    let mine := s.allMotifs.filter fun m => m.status == .running && clusterOf m.core == cl
    .next <|
      if 40 ≤ cl ∨ !bit s.dev.clusters cl then s
      else if !mine.isEmpty then
        let s := { s with dev := { s.dev with leaving := s.dev.leaving ||| ((1 : BitVec 40) <<< cl) } }
        State.after 1 (.clusterLeavesService cl) (s.preemptAll (mine.filter fun m => !m.saving))
      else
        let d := { s.dev with leaving := s.dev.leaving &&& ~~~((1 : BitVec 40) <<< cl), clusters := s.dev.clusters &&& ~~~((1 : BitVec 40) <<< cl) }
        let unit := unitWord (cl / 10) (cl % 10) 0 0
        let after := State.degrade { s with dev := d }
        let n := s.dev.hlthHead
        let s := { s with dev := { s.dev with hlthHead := n + 1 } }
        let s := s.putRecord n.toNat (after.dev.record 4 unit 1)
        State.topology (State.degrade { s with dev := { d with hlthHead := n + 1 } })
  | _ => .next s

end Sys2Proof.Machine
end

