-- ==== Sys2Proof/Machine/Device.lean ====
section
/-! DEFINITION. Device.lean: bring-up (R396 to R399), power and temperature (R400 to R403), attestation (R405) and the
links of the Réseau (R375, R378, R381, R393). -/

namespace Sys2Proof.Machine

/-! Bring-up. -/

/-- Cycles of a bound in milliseconds, at the clock of early service (R396, log entry 18). -/
def boundMs (n : Nat) : Nat := n * 425000

/-- A step of bring-up begins: when and how it ends is the device's own, at most at its bound (R396, log entry 18). -/
def State.step_ (st : DevState) (stage bound : Nat) (done : Event) (s : State) : State :=
  let d := 1 + Config.bringup s.fresh
  let s := s.tick
  { s with dev := { s.dev with st := st }, agenda := s.agenda ++ [⟨s.cycle + d, done⟩, ⟨s.cycle + boundMs bound, .bringupTimeout stage⟩] }

/-- One of the outcomes of a step: 0 for success or a failure code (R397). -/
def pickCode (l : List Nat) (k : Nat) : Nat := l.getD (Config.bringup k % l.length) 0

/-- The step fails: FAILED with its code, until a reset (R396, R397). -/
def State.failBringup (code : Nat) (s : State) : State := { s with dev := { s.dev with st := .failed, fcode := code % 256 } }

/-- Memory of other devices and of hosts, which this device's reset does not reach. -/
def State.elsewhere (s : State) : SMap Byte := s.mem.filter fun e => !s.isLocal e.1

/-- FCODE for one image: 0 when it is accepted (R404). It is read, then its signatures, its digest and its version are
checked in the order of the rule (log entry 53). -/
def imageCode (i : Nat) : Option Image → Nat
  | none => 8
  | some m =>
    let signed := leBytes m.digest.toNat 48 ++ leBytes m.version.toNat 4
    if sha384 m.ecdsaKey ≠ Config.fusedKeyHash true ∨ !ecdsaVerifies m.ecdsaKey signed m.ecdsa then 1
    else if sha384 m.lmsKey ≠ Config.fusedKeyHash false ∨ !lmsVerifies m.lmsKey signed m.lms then 2
    else if sha384 m.content ≠ m.digest then 8
    else if m.version.toNat < (Config.versionFloor i).toNat then 3
    else 0

/-- FCODE for the images in the order of R404: that of the first one not accepted. -/
def firmwareCode (l : List (Option Image)) : Nat :=
  ((l.zipIdx.map fun (m, i) => imageCode i m).find? (· != 0)).getD 0

/-- RESET (R396): everything of the device at its reset value but its strap (R380), and the firmware is read and verified. -/
def execReset (s : State) : Out :=
  match s.now with
  | some .reset =>
    let r : State := { State.reset with
      agenda := [], fresh := s.fresh + 2, outbox := s.outbox, mem := s.elsewhere,
      dev := { devno := s.dev.devno, images := (List.range 5).map (Config.flash s.fresh) } }
    .next (r.step_ .verify 1 300 .firmwareVerifyDone)
  | _ => .next s

/-- FIRMWARE_VERIFY_DONE (R396, R404). -/
def execFirmwareVerifyDone (s : State) : Out :=
  match s.now with
  | some .firmwareVerifyDone =>
    let failure := firmwareCode s.dev.images
    .next <|
      if s.dev.st ≠ .verify then s
      else if failure ≠ 0 then s.failBringup failure
      else
        let k := s.fresh
        State.step_ .calib 2 400 (.calibrationDone (pickCode [0, 4, 5, 6] k) (Config.bringup (k + 1) % 2 ^ 36)) { s with fresh := k + 2 }
  | _ => .next s

/-- More than four links out of service: REPL and DEGR, with a record (R406). -/
def State.checkLinks (link : Nat) (s : State) : State :=
  let out := 36 - s.dev.linkCount
  if out = 0 then s
  else
    let s := { s with dev := { s.dev with degr := true } }
    if 4 < out then (s.degrade).health 5 (unitWord (link / 9) 0 (link % 9) 5) out else s

/-- CALIBRATION_DONE (R396): links that fail stay out of service; with none FCODE is 0x0A. -/
def execCalibrationDone (s : State) : Out :=
  match s.now with
  | some (.calibrationDone failure links) =>
    .next <|
      if s.dev.st ≠ .calib then s
      else if failure ≠ 0 then s.failBringup failure
      else if links % 2 ^ 36 = 0 then s.failBringup 0x0A
      else
        let up : BitVec 36 := BitVec.ofNat 36 links
        let s := { s with dev := { s.dev with links := up, join := true } }
        let s := s.checkLinks (((List.range 36).find? fun i => !bit up i).getD 0)
        let k := s.fresh
        State.step_ .init 3 20 (.initDone (pickCode [0, 7] k) (BitVec.ofNat 64 (Config.bringup (k + 1) % 2 ^ 40))) { s with fresh := k + 2 }
  | _ => .next s

/-- Cycles of the arithmetic clock in 1 µs (R388, R398, R403). -/
def Dev.usCycles (d : Dev) : Nat := (if d.st = .early then 425 else 850) / if d.thr then 2 else 1

/-- The next power window, as long as the clock of a device in this state makes it, with what the sensors will say (R401,
log entry 17). -/
def State.nextWindow (d : Dev) (s : State) : State :=
  let k := s.fresh
  State.after d.usCycles (.powerWindow (Config.measured k % 2 ^ 16) (Config.measured (k + 1) % 256)) { s with fresh := k + 2 }

/-- INIT_DONE (R396, R371, R401, R406): memory reads zero, clusters whose cores fail stay out of service, ERDY is set, each cluster
holds the least grant until the first window, and LPDDR-6 training begins; the records of the clusters left out are written once HLTHBASE is not 0. -/
def execInitDone (s : State) : Out :=
  match s.now with
  | some (.initDone failure good) =>
    .next <|
      if s.dev.st ≠ .init then s
      else if failure ≠ 0 then s.failBringup failure
      else
        let up : BitVec 40 := good.setWidth 40
        let out := (List.range 40).filter fun i => !bit up i
        if up = 0 then s.failBringup 0x0B
        else
          let n := s.dev.hlthHead.toNat
          let d := { s.dev with clusters := up, degr := s.dev.degr || !out.isEmpty, erdy := true, us := 0,
                                tokens := SMap.setAll 0 [] ((List.range 40).map fun c => (c, 8)),
                                hlthHead := BitVec.ofNat 32 (n + out.length) }
          let s := { s with dev := d, mem := s.elsewhere, backing := [], l2 := [], lostLines := [] }
          let k := s.fresh
          let s := State.step_ .early 4 900 (.lpddrTrainingDone (Config.bringup k % 49)) { s with fresh := k + 1 }
          let s := s.nextWindow s.dev
          let owed := out.zipIdx.map fun (c, i) => (n + i, s.dev.record 4 (unitWord (c / 10) (c % 10) 0 0) 1)
          State.payOwed { s with dev := { s.dev with owed := s.dev.owed ++ owed } }
  | _ => .next s

/-- LPDDR_TRAINING_DONE (R396, R399, R406): FULL follows at the next window boundary; channels that failed are recorded,
and with none the device stays in EARLY. -/
def execLpddrTrainingDone (s : State) : Out :=
  match s.now with
  | some (.lpddrTrainingDone channels) =>
    let n := min 48 channels
    let bad := (List.range (48 - n)).map (n + ·)
    let mark (s : State) : State :=
      if bad.isEmpty then s else bad.foldl (fun s i => s.health 6 (unitWord (i / 12) 0 (i % 12) 6) 1) s.degrade
    .next <|
      if s.dev.st ≠ .early ∨ s.dev.fcode = 9 then s
      else if n = 0 then mark { s with dev := { s.dev with fcode := 9 } }
      else mark { s with dev := { s.dev with lpch := n, lpddrReady := true } }
  | _ => .next s

/-- BRINGUP_TIMEOUT (R396): a step has passed its bound. -/
def execBringupTimeout (s : State) : Out :=
  match s.now with
  | some (.bringupTimeout stage) =>
    let k := s.fresh
    .next <|
      match stage, s.dev.st with
      | 1, .verify => s.tick.failBringup (pickCode [1, 2, 3, 8] k)
      | 2, .calib => s.tick.failBringup (pickCode [4, 5, 6] k)
      | 3, .init => s.failBringup 7
      | 4, .early =>
        if s.dev.lpddrReady then s
        else (State.degrade { s with dev := { s.dev with fcode := 9 } }).health 6 (unitWord 0 0 0 6) 48
      | _, _ => s
  | _ => .next s

/-! Power. -/

def clampNat (lo hi x : Nat) : Nat := max lo (min hi x)

/-- PWRCTL_WRITE (R402): the limits are saturated and stand until the next window boundary takes them. -/
def execPwrctlWrite (s : State) : Out :=
  match s.now with
  | some (.pwrctlWrite v) =>
    let w := BitVec.ofNat 32 (clampNat 1000 2300 (fld v 8 12) * 2 ^ 8 + clampNat 85 105 (fld v 0 8))
    .next { s with dev := { s.dev with pwrNext := some w } }
  | _ => .next s

/-- Clusters with queued matrix work (R401). -/
def State.queuedWork (s : State) : List Nat := ((s.cores.filter fun k => !k.tq.isEmpty).map fun k => clusterOf k.core).eraseDups

/-- Tokens granted to each cluster for a window: the budget that PLIM leaves is shared equally among the clusters with queued
work, lowered in proportion when the average power exceeds PLIM, between 8 and 850; the others hold the least grant (R401,
log entries 17 and 59). At TLIM every grant is 8 (R403). -/
def grants (budget plim pavg : Nat) (hot : Bool) (busy : List Nat) : SMap Nat :=
  let each := budget / max 1 busy.length
  let low := if plim < pavg then each * plim / pavg else each
  let one (c : Nat) : Nat := if hot ∨ !busy.contains c then 8 else clampNat 8 850 low
  (List.range 40).foldl (fun m c => SMap.set 0 m c (one c)) []

/-- POWER_WINDOW (R399, R401, R402): PWRCTL takes its new limits, EARLY may become FULL, every cluster gets its grant, and
temperatures past the thresholds have their effect, which the length of the window counts with. -/
def execPowerWindow (s : State) : Out :=
  match s.now with
  | some (.powerWindow pavg thot) =>
    .next <|
      if !s.dev.erdy then s
      else
        let d := s.dev
        let (plim, tlim) := match d.pwrNext with
          | some w => (fld w 8 12, fld w 0 8)
          | none => (d.plim, d.tlim)
        let full := d.st == .early && d.lpddrReady
        let hot := decide (tlim ≤ thot)
        let us := d.us + 1
        let tokens := grants (Config.measured s.fresh) plim pavg hot s.queuedWork
        let d := { d with plim := plim, tlim := tlim, pwrNext := .none, pavg := pavg, thot := thot, us := us,
                          lim := decide (plim < pavg), tokens := tokens, st := if full then .full else d.st, frdy := d.frdy || full,
                          cool := if hot then 0 else d.cool + 1, correctable := if us % 3600000000 = 0 then [] else d.correctable }
        let halve := decide (tlim + 5 ≤ thot) && !d.thr
        let clear := d.thr && decide (1000 ≤ d.cool)
        let s := State.nextWindow { d with thr := (d.thr || halve) && !clear } (State.tick { s with dev := d })
        let s := if hot then s.after 0 (.thermalThrottle thot) else s
        let s := if halve then s.after 0 (.clockHalve thot) else s
        let s := if clear then s.after 0 .thrClear else s
        if 115 ≤ thot then s.after 0 .thermalTrip else s
  | _ => .next s

/-- THERMAL_THROTTLE (R403): THOT is at TLIM, from which its time below TLIM starts anew, and every grant is cut to 8 tokens; the
record is of kind 7. -/
def execThermalThrottle (s : State) : Out :=
  match s.now with
  | some (.thermalThrottle t) =>
    let s := { s with dev := { s.dev with thot := t, cool := 0, tokens := s.dev.tokens.map fun (c, n) => (c, min n 8) } }
    .next (s.health 7 (unitWord 0 0 0 7) t)
  | _ => .next s

/-- CLOCK_HALVE (R403). -/
def execClockHalve (s : State) : Out :=
  match s.now with
  | some (.clockHalve t) => .next { s with dev := { s.dev with thot := t, thr := true, cool := 0 } }
  | _ => .next s

/-- THR_CLEAR (R403): THOT has stayed below TLIM for 1 ms. -/
def execThrClear (s : State) : Out :=
  match s.now with
  | some .thrClear => .next { s with dev := { s.dev with thr := false } }
  | _ => .next s

/-- The number under which the module's management controller stands among the destinations of messages (R403). -/
def moduleController : Nat := 1024

/-- THERMAL_TRIP (R403): every clock stops at once, no work completes, and the trip signal is driven. -/
def execThermalTrip (s : State) : Out :=
  match s.now with
  | some .thermalTrip => .next (State.sendOut moduleController .trip { s with dev := { s.dev with st := .tripped }, agenda := [] })
  | _ => .next s

/-- POWER_REMOVAL (R400): all device state is lost. -/
def execPowerRemoval (s : State) : Out :=
  match s.now with
  | some .powerRemoval =>
    .next { State.reset with
      agenda := [], dev := { st := .off, devno := s.dev.devno }, fresh := s.fresh, outbox := s.outbox, mem := s.elsewhere }
  | _ => .next s

/-! Attestation. -/

/-- ATTESTATION_REQUEST (R405): a write of ATTREQ; BUSY starts a report, and while it is set writes are ignored. -/
def execAttestationRequest (s : State) : Out :=
  match s.now with
  | some (.attestationRequest v) =>
    .next <|
      if s.dev.attBusy then s
      else
        let s := { s with dev := { s.dev with attBuf := fld v 12 52, attBusy := bit v 0 } }
        if bit v 0 then s.afterFree 1 .attestationComplete else s
  | _ => .next s

/-- Bytes of the report that rest on the identity keys (R405, log entry 10). -/
def freeBytes (k off n : Nat) : List Byte := (List.range n).map fun i => Config.attestationByte k (off + i)

/-- ATTESTATION_COMPLETE (R405): the report is written at its home and BUSY clears. -/
def execAttestationComplete (s : State) : Out :=
  match s.now with
  | some .attestationComplete =>
    let b := s.dev.attBuf * 4096
    let k := s.fresh
    let s := s.tick
    let s := s.deviceWrite b (leBytes 1 4)
    let s := s.deviceWrite (b + 4) (leBytes s.dev.devno 4)
    let s := s.deviceWrite (b + 0x10) ((List.range 16).map Config.serial)
    let s := s.deviceWrite (b + 0x80) (s.dev.images.flatMap fun (m : Option Image) => leBytes ((m.map Image.digest).getD 0).toNat 48)
    let s := s.deviceWrite (b + 0x170) (s.dev.images.flatMap fun (m : Option Image) => leBytes ((m.map Image.version).getD 0).toNat 4)
    let s := s.deviceWrite (b + 0x184) (leBytes s.dev.devstat 4)
    let s := s.deviceWrite (b + 0x200) (freeBytes k 0x200 2604)
    .next { s with dev := { s.dev with attBusy := false } }
  | _ => .next s

/-! Links, other devices and the host. -/

/-- LINK_CRC_RETRY (R375): the flit goes again on the same link, which only the model's count of retries shows. -/
def execLinkCrcRetry (s : State) : Out :=
  match s.now with
  | some (.linkCrcRetry link) =>
    .next (if bit s.dev.links link then { s with dev := { s.dev with retries := s.dev.retries + 1 } } else s)
  | _ => .next s

/-- LINK_FAILURE (R375, R406): the link leaves routing until the next reset. -/
def execLinkFailure (s : State) : Out :=
  match s.now with
  | some (.linkFailure link) =>
    .next <|
      if 36 ≤ link ∨ !bit s.dev.links link then s
      else State.checkLinks link { s with dev := { s.dev with links := s.dev.links &&& ~~~((1 : BitVec 36) <<< link) } }
  | _ => .next s

/-- Devices of a group's table. -/
def Group.members (g : Group) : List Nat := (List.range (fld g.ctl 16 10 + 1)).map fun r => SMap.get 0 g.ranks r

/-- What waits for the answer of a master on a device that cannot be reached is lost: the launch of a bsdef or bsqry there is killed
(R378, R383). -/
def State.answersLost (dev : Nat) (s : State) : State :=
  let mine := s.defining.filter fun d => s.masterAway d.new.phys == some dev
  let asked := s.outbox.filterMap fun m =>
    match m.2 with
    | .query c tok _ => if m.1 = dev ∧ (((s.cordRec c).map fun x => x.ops.any (·.tok == tok)).getD false) then some (c, tok) else none
    | _ => none
  let s := mine.foldl (fun s d => (s.complete d.cord d.flag []).messageLost d.cord) s
  let s := asked.foldl (fun s q => (s.opPart q.1 q.2).messageLost q.1) s
  { s with defining := s.defining.filter fun d => s.masterAway d.new.phys != some dev }

/-- DESTINATION_UNREACHABLE (R378): messages to the device fail from now on where they would arrive, calls of groups
that it belongs to end, acknowledgements that it owes are awaited no more, and the event is recorded. -/
def execDestinationUnreachable (s : State) : Out :=
  match s.now with
  | some (.destinationUnreachable dev) =>
    .next <|
      if s.dev.lost.contains dev then s
      else
        let s := { s with dev := { s.dev with lost := s.dev.lost ++ [dev] } }
        let s := s.health 2 (unitWord 0 0 0 8) dev
        let there (k : Nat) : Bool := isRemote k && remoteDev k == dev
        let s := { s with
          recalls := s.recalls.filter fun r => !there r.2.1, owners := s.owners.filter fun o => !there o.2,
          losing := s.losing.filter fun o => !there o.1 }
        let s := s.answersLost dev
        let hit := s.calls.filter fun c => (SMap.get {} s.groups c.g).members.contains dev
        hit.foldl (fun s c => s.after 1 (.arRoundComplete c.g c.round)) s
  | _ => .next s

/-- The clocks run and power is present (R400, R403). -/
def Dev.alive (d : Dev) : Bool := d.st != .off && d.st != .tripped

/-- What a read of a tolerance in the region over a global range forces: the master is asked, here or on its device (R232, R383). -/
def State.tolerate (phys : List Nat) (tol : Word) (s : State) : List (Nat × Nat × Nat) × State :=
  match s.masterAway phys, s.recordOver phys with
  | some dev, _ => s.askMaster dev phys tol
  | none, some (c, r) => s.forceRegion c r tol
  | none, none => ([], s)

/-- A fill of another device is served: in a region the drains that its tolerance forces come first, and both halves are read
at one moment; a line that is lost or out of reach answers with no bytes (R148, R232, R377). -/
def State.serveRemote (dev line : Nat) (s : State) : State :=
  if (s.readFails line).isSome then s.sendOut dev (.reply [])
  else
    let (lo, s) := s.readHalf none line false
    let (hi, s) := s.readHalf none line true
    s.sendOut dev (.reply (lo ++ hi))

/-- Bytes that another device writes for a bobbin row or a drain: the owners hear first, then all are performed at one moment
(R200, R377). -/
def State.writeRemote (dev addr : Nat) (bs : List Byte) (s : State) : State :=
  let line := lineOf addr
  let ws := wordsOf ((List.range bs.length).map fun i => addr % 128 + i)
  match s.owedNotices none line ws with
  | n :: ns => s.notifyFirst (n :: ns) line (.remoteNotice (.write dev addr bs))
  | [] =>
    let s := if bs.length = 128 then s.unlose line else s
    (State.performWrite none (cellsAt addr bs) (s.takeOwner none line ws)).sendOut dev (.done line)

/-- A drained line of another device is stored or added here as one update, after the notices of R200 (R309, R377). -/
def State.updateRemote (dev : Nat) (x : DrainLine) (s : State) : State :=
  match s.owedNotices none x.line (wordsOf (x.elems.flatMap fun e => (List.range (drainBytes x.fmt)).map (e.1 + ·))) with
  | n :: ns => s.notifyFirst (n :: ns) x.line (.remoteNotice (.update dev x))
  | [] => (s.drainPerform none x).sendOut dev (.done x.line)

/-- What a home on another device has changed of a line there, as the model holds it: owners here know the words no more, and
whatever of this device is performed there later finds them (R377, log entry 47). -/
def State.changedAway (line : Nat) (cells : List (Nat × Byte)) (s : State) : State :=
  if s.isLocal (line * 128) then s
  else
    let s := s.takeOwner none line (wordsOf (cells.map (·.1)))
    { s with mem := SMap.setAll 0 s.mem (cells.map fun c => (line * 128 + c.1, c.2)) }

/-- The lines of a range that this device is the home of, for a walk that another device asks for (R221, R222, R377). -/
def State.walkRemote (dev : Nat) (drop : Bool) (runs : List (Nat × Nat)) (rid : Nat) (s : State) : State :=
  let mine := runs.filter fun r => s.isLocal (r.1 * 128)
  let job : FlushJob := { runs := mine, back := some (dev, rid, mine) }
  s.soon [if drop then .discAtHome 0 0 job else .flushrComplete 0 0 job]

/-- What a message from another device does (R377, R381, R383, R392). -/
def State.receive (x : RemoteMsg) (s : State) : State :=
  match x with
  | .recall line reason rid none =>
    let (ids, s) := s.recallHere line reason
    if ids.isEmpty then s.sendOut (devOf (line * 128)) (.ack line rid)
    else s.after 1 (.remoteNotice (.recall line reason rid (some ids)))
  | .recall line reason rid (some ids) =>
    if s.recalling ids then s.after 1 (.remoteNotice (.recall line reason rid (some ids)))
    else s.sendOut (devOf (line * 128)) (.ack line rid)
  | .ack rid => { s with recalls := s.recalls.filter fun r => !(r.1 == rid && isRemote r.2.1) }
  | .fill dev die line first tol forced =>
    if !s.isLocal (line * 128) then s
    else
      let s := if first then s.register dev die line else s
      let (fs, s) :=
        match forced, tol with
        | some fs, _ => (fs, s)
        | none, some (t, phys) => s.tolerate phys t
        | none, none => ([], s)
      if fs.any fun h => s.owing h then s.after 1 (.remoteNotice (.fill dev die line false tol (some fs)))
      else s.serveRemote dev line
  | .leave dev die line => if s.isLocal (line * 128) then s.deregister dev die line else s
  | .read dev addr n =>
    if !s.isLocal addr then s
    else if (s.readFails (lineOf addr)).isSome then s.sendOut dev (.reply [])
    else (s.noteRead none addr).sendOut dev (.reply (s.homeBytes addr n))
  | .write dev addr bs =>
    if s.isLocal addr then s.writeRemote dev addr bs else s.changedAway (lineOf addr) (cellsAt (addr % 128) bs)
  | .store m =>
    if !isRemote m.core then s
    else if s.isLocal (m.line * 128) then s.soon [.storeAtHome { m with cord := 0 }]
    else s.changedAway m.line m.bytes
  | .atom r =>
    if !isRemote r.core then s
    else if s.isLocal (r.line * 128) then s.soon [.atomicAtHome { r with cord := 0, dst := none, flag := none }]
    else s.changedAway r.line (atomRun r fun o => s.byte (r.line * 128 + o)).2
  | .add u => if isRemote u.cl then s.soon [.passThroughAdd { u with by_ := none, q := none, back := .drain }] else s
  | .update dev x => if s.isLocal (x.line * 128) then s.updateRemote dev x else s.drainPerform none x
  | .ownerLoss dev core line ws => (s.ownerLoss (core % 1000) line ws).sendOut dev (.lossAck (core % 1000) line ws)
  | .lossAck core line ws => if isRemote core then s.ownerAck core line ws else s
  | .define dev ctx phys bnd dtol => s.remoteDefine dev ctx phys bnd dtol
  | .free dev ctx phys => s.remoteFree dev ctx phys
  | .shareRequest cl phys =>
    match isRemote cl, s.recordOver phys with
    | true, some (c, r) => s.requestShare cl c r.n
    | true, none => s.sendOut (remoteDev cl) (.grant (cl % 1000) phys 0)
    | false, _ => s
  | .shareReturn cl phys units trim =>
    match isRemote cl, s.recordOver phys with
    | true, some (c, r) => s.takeShare cl c r.n units trim
    | _, _ => s
  | .defined ctx phys status => s.masterDefined ctx phys status
  | .freed ctx phys => s.masterFreed ctx phys
  | .grant cl phys units => s.masterGrant cl phys units
  | .trim cl phys => s.masterAsks cl phys true
  | .force cl phys => s.masterAsks cl phys false
  | .tolerate dev phys tol rid forced =>
    let (fs, s) := match forced with
      | some fs => (fs, s)
      | none => if (s.masterAway phys).isSome then ([], s) else s.tolerate phys tol
    if fs.any fun h => s.owing h then s.after 1 (.remoteNotice (.tolerate dev phys tol rid (some fs)))
    else s.sendOut dev (.tolerated rid)
  | .tolerated rid => { s with asked := s.asked.filter (· != rid) }
  | .query dev c tok phys =>
    match s.recordOver phys with
    | some (ctx, r) => s.sendOut dev (.queried c tok (s.bsqryWord 0 ctx r.n 0))
    | none => s.sendOut dev (.queried c tok 0)
  | .queried c tok x => s.masterQueried c tok x
  | .walk dev drop runs rid => s.walkRemote dev drop runs rid
  | .walked rid lines =>
    let s := { s with asked := s.asked.filter (· != rid) }
    lines.foldl (fun s (line, bs) => s.changedAway line (cellsAt 0 bs)) s
  | .signal q t => s.onQueue q fun x => if qDl x && qEn x then x.setTail t else x

/-- Service is not ready: only the register window is reachable (R396, R398). -/
def Dev.closed (d : Dev) : Bool := !d.working

/-- A message from another device while only the register window is reachable: an access to the window is served, a read of
anything else answers with no bytes, and the rest is not accepted (R378, R396, R398). -/
def State.receiveClosed (x : RemoteMsg) (s : State) : State :=
  match x with
  | .read dev addr _ => if inWindow addr then s.receive x else s.sendOut dev (.reply [])
  | .write _ addr _ => if inWindow addr then s.receive x else s
  | .store m => if inWindow (m.line * 128) then s.receive x else s
  | .fill dev _ line _ _ _ => if inWindow (line * 128) then s.receive x else s.sendOut dev (.reply [])
  | _ => s

/-- REMOTE_NOTICE (R377, R381, R383, R392, R398): a message from another device arrives. A notice goes to the cores that hold its
line; the interface acknowledges once they have, at once when none does. -/
def execRemoteNotice (s : State) : Out :=
  match s.now with
  | some (.remoteNotice x) => .next (if !s.dev.alive then s else if s.dev.closed then s.receiveClosed x else s.receive x)
  | _ => .next s

/-- The number of a host adapter as an endpoint (R393). -/
def adapterDev (adapter : Nat) : Nat := 960 + adapter

/-- The request that a host atomic makes of a line, as one lane of a core of its endpoint (R215). -/
def hostAtom (adapter addr kind op ty : Nat) (b cmp : Dword) : AtomReq :=
  { core := 1000 * (adapterDev adapter + 1), cord := 0, line := lineOf addr, kind := kind, op := op, ty := ty,
    lanes := [⟨0, addr % 128, b, cmp⟩], dst := none, wb := 0, acq := false, flag := none, sysAtomic := true }

/-- An access of a host processor to its own memory, of which no device owner hears (R394). -/
def State.hostOwn (adapter : Nat) (x : HostAccess) (s : State) : State :=
  match x with
  | .read _ _ => s
  | .write a bs => s.poke (cellsAt a bs)
  | .atomic a kind op ty b cmp =>
    let cells := (atomRun (hostAtom adapter a kind op ty b cmp) fun o => s.byte (lineOf a * 128 + o)).2
    s.poke (cells.map fun (o, v) => (lineOf a * 128 + o, v))

/-- Cells line by line, each line's at one moment, once every owner has heard (R200 step 3, R393). -/
def State.hostWrite (a : Nat) (bs : List Byte) (again : Event) (s : State) : State :=
  let cells := cellsAt a bs
  let lines := (cells.map fun c => lineOf c.1).eraseDups
  let words (line : Nat) : Word := wordsOf ((cells.filter fun c => lineOf c.1 == line).map fun c => c.1 % 128)
  match lines.findSome? fun line => match s.owedNotices none line (words line) with | [] => none | ns => some (line, ns) with
  | some (line, ns) => s.notifyFirst ns line again
  | none =>
  ((cells.map fun c => lineOf c.1).eraseDups).foldl (fun s line =>
    let mine := cells.filter fun c => lineOf c.1 == line
    State.performWrite none mine (s.takeOwner none line (wordsOf (mine.map fun c => c.1 % 128)))) s

/-- HOST_ACCESS (R215, R393, R394, R398): an access of a host path is performed at its home, which is this device, or the
host's memory for its own processor; a read's bytes and an atomic's old value go back to the adapter. A device without power
or with stopped clocks answers nothing (R400, R403). -/
def execHostAccess (s : State) : Out :=
  match s.now with
  | some (.hostAccess adapter x) =>
    let a := match x with | .read a _ => a | .write a _ => a | .atomic a _ _ _ _ _ => a
    let ok := s.dev.alive && s.isLocal a && (inWindow a || !s.dev.closed) && (s.mapFault true a).isNone
    .next <|
      if devOf a = adapterDev adapter then s.hostOwn adapter x
      else if !ok then s
      else
        match x with
        | .read a n => (s.noteRead none a).sendOut (adapterDev adapter) (.reply (s.homeBytes a n))
        | .write a bs => s.hostWrite a bs (.hostAccess adapter x)
        | .atomic a kind op ty b cmp =>
          if inWindow a then s else s.soon [.atomicAtHome (hostAtom adapter a kind op ty b cmp)]
  | _ => .next s

end Sys2Proof.Machine
end

