-- ==== Sys2Proof/Machine/Reseau.lean ====
section
/-! DEFINITION. Reseau.lean: collective groups, their rounds and reductions, ared, acol and rsig (R384 to R392). -/

namespace Sys2Proof.Machine

/-! The literal and its reductions. -/

/-- Bytes of an element of a type (R387, table of the ared and acol literal). -/
def collBytes (ty : Nat) : Nat := if ty = 6 ∨ ty = 7 ∨ ty = 11 then 8 else 4

/-- KIND, EXACT, TYPE, OP and NB of a literal. -/
def collKind (lit : Word) : Nat := fld lit 17 3
def collExact (lit : Word) : Bool := bit lit 16
def collTy (lit : Word) : Nat := fld lit 12 4
def collOp (lit : Word) : Nat := fld lit 8 4
def collNb (lit : Word) : Nat := 16 * (fld lit 4 4 + 1)

/-- op(a, b) on elements of a type, without flush and with canonical NaN (R211, R389). -/
def collOp2 (ty op a b : Nat) : Nat :=
  match ty with
  | 4 => (atomInt true op (BitVec.ofNat 32 a) (BitVec.ofNat 32 b)).toNat
  | 5 => (atomInt false op (BitVec.ofNat 32 a) (BitVec.ofNat 32 b)).toNat
  | 6 => (atomInt true op (BitVec.ofNat 64 a) (BitVec.ofNat 64 b)).toNat
  | 7 => (atomInt false op (BitVec.ofNat 64 a) (BitVec.ofNat 64 b)).toNat
  | 10 => (atomF32 op (BitVec.ofNat 32 a) (BitVec.ofNat 32 b)).toNat
  | _ => if op = 0 then fp64.op2 false false Num.add a b else fp64.minmaxZ false false (op == 2) a b

/-- Ranks lo to lo + n - 1 combined in a binary tree, the lower ranks on the left (R389). Three ranks join as the
worked example has them; other trees are not stated (log entry 16). -/
def treeReduce (f : Nat → Nat → Nat) (xs : List Nat) (lo n : Nat) : Nat → Nat
  | 0 => xs.getD lo 0
  | fuel + 1 =>
    if n ≤ 1 then xs.getD lo 0
    else
      let m := if n = 2 then 1 else if xs.length = 3 then 2 else 1 + Config.treeSplit (xs.length - 1) lo n % (n - 1)
      f (treeReduce f xs lo m fuel) (treeReduce f xs (lo + m) (n - m) fuel)

/-- Partials combined around the ring in rank order, from a first rank on (R391). -/
def ringReduce (f : Nat → Nat → Nat) (xs : List Nat) (first : Nat) : Nat :=
  (List.range (xs.length - 1)).foldl (fun a i => f a (xs.getD ((first + i + 1) % xs.length) 0)) (xs.getD (first % xs.length) 0)

/-- The value q of R390: x × 2^(84 - emax) rounded to zero. -/
def exactTerm (emax : Int) : Num → Int
  | .fin s m e => let q : Nat := roundAt .rz s m 1 e (emax - 84); if s then -(q : Int) else q
  | _ => 0

/-- One FP32 element of every member, reduced exactly (R390). -/
def exactSum (xs : List Nat) : Nat :=
  let vs := xs.map fp32.decode
  let plus := vs.any (· == .inf false)
  let minus := vs.any (· == .inf true)
  let logs := vs.filterMap fun v => match v with | .fin _ m e => if m = 0 then none else some (floorLog2 m 1 e) | _ => none
  if (vs.any (· == .nan)) || (plus && minus) then fp32.nanBits
  else if plus then fp32.infBits false
  else if minus then fp32.infBits true
  else
    match logs with
    | [] => 0
    | l :: ls =>
      let emax := ls.foldl max l
      let q := (vs.map (exactTerm emax)).sum
      fp32.encode true .rne false (.fin (decide (q < 0)) q.natAbs (emax - 84))

/-- Element i of a buffer. -/
def elemAt (ty : Nat) (bs : List Byte) (i : Nat) : Nat := leNat ((List.range (collBytes ty)).map fun k => bs.getD (i * collBytes ty + k) 0)

/-- The reduction of a pillow buffer over the members, in rank order (R388 to R390). -/
def aredResult (lit : Word) (bufs : List (List Byte)) : List Byte :=
  let ty := collTy lit
  (List.range (collNb lit / collBytes ty)).flatMap fun i =>
    let xs := bufs.map fun b => elemAt ty b i
    leBytes (if collExact lit = true then exactSum xs else treeReduce (collOp2 ty (collOp lit)) xs 0 xs.length xs.length) (collBytes ty)

/-- What acol leaves in DST at a rank (R391). -/
def acolResult (lit : Word) (count root rank : Nat) (bufs : List (List Byte)) : List Byte :=
  let ty := collTy lit
  let z := collBytes ty
  let p := bufs.length
  let reduced (i j : Nat) : Nat :=
    let xs := bufs.map fun b => elemAt ty b j
    if collExact lit = true then exactSum xs else ringReduce (collOp2 ty (collOp lit)) xs (i * p / count + 1)
  match collKind lit with
  | 0 => (List.range count).flatMap fun i => leBytes (reduced i i) z
  | 1 => (List.range count).flatMap fun i => leBytes (reduced i (rank * count + i)) z
  | 2 => bufs.flatMap fun b => (List.range (count * z)).map fun k => b.getD k 0
  | _ => (List.range (count * z)).map fun k => (bufs.getD root []).getD k 0

/-! Groups and rounds. -/

def State.groupOf (s : State) (g : Nat) : Group := SMap.get {} s.groups g
def Group.v (g : Group) : Bool := bit g.ctl 31
def Group.pm1 (g : Group) : Nat := fld g.ctl 16 10
def Group.tmo (g : Group) : Nat := fld g.ctl 10 6
def Group.rank (g : Group) : Nat := fld g.ctl 0 10

/-- Words of a copied acol descriptor. -/
def CollCall.word (x : CollCall) (i : Nat) : Nat := (x.desc.getD i 0).toNat
def CollCall.count (x : CollCall) : Nat := x.word 4
def CollCall.root (x : CollCall) : Nat := x.word 5

/-- NB of ared, COUNT of acol: what every call of a round must have the same (R385). -/
def CollCall.amount (x : CollCall) : Nat := if x.col then x.count else collNb x.lit

/-- What every member brings to round k of group g, by rank: literal, amount and bytes; none when some member never
calls (R385, log entry 8). -/
def State.contributions (s : State) (x : CollCall) : Option (List (Word × Nat × List Byte)) :=
  let g := s.groupOf x.g
  let one (peers : List (Nat × Word × Nat × List Byte)) (r : Nat) : Option (Word × Nat × List Byte) :=
    if r = g.rank then some (x.lit, x.amount, x.src) else (peers.find? (·.1 == r)).map (·.2)
  if g.pm1 = 0 then some [(x.lit, x.amount, x.src)]
  else (Config.peerCalls x.g x.round).bind fun peers => (List.range (g.pm1 + 1)).mapM (one peers)

/-- Some member cannot be reached (R378, R388). -/
def State.memberLost (s : State) (g : Nat) : Bool := (s.groupOf g).members.any fun d => s.dev.lost.contains d

/-- A call that ends with a status and no acquire (R386): STAT or D, then the flag. -/
def State.endCall (x : CollCall) (st : Nat) (s : State) : State :=
  let s := { s with calls := s.calls.filter fun c => !(c.g == x.g && c.round == x.round) }
  let s := if x.col then s.onMotif x.mid fun m => m.pilPut (x.off + 0x18) (leBytes st 4) else s
  s.complete x.cord x.flag (x.dst.map (putValue (BitVec.ofNat 32 st)))

/-- A call that ends with status 0: an acquire, then the flag (R386). -/
def State.endRound (x : CollCall) (s : State) : State :=
  let s := { s with calls := s.calls.filter fun c => !(c.g == x.g && c.round == x.round) }
  let s := if x.col then s.onMotif x.mid fun m => m.pilPut (x.off + 0x18) (leBytes 0 4) else s
  let o : Op := { tok := s.fresh, flag := some x.flag, left := 1, writes := x.dst.map (putValue 0) }
  State.beginAcquire x.cord o.tok (State.tick (s.onCord x.cord fun c => { c with ops := c.ops ++ [o] }))

/-- The least cycles from the last member's call to the end of a round (R388, R391). -/
def collLeast (x : CollCall) (pm1 : Nat) : Nat :=
  let base :=
    if pm1 = 0 then 40
    else if pm1 ≤ 35 then (if collExact x.lit then 600 else 330)
    else if collExact x.lit then 1400 else 765
  if x.col then (if collKind x.lit = 0 then 765 + 2 * (x.count * collBytes (collTy x.lit)) * pm1 / ((pm1 + 1) * 2371) else 1) else base

/-- What a call reads as it joins: the pillow buffer at one moment, or SRC at its homes; none when a line of it is
lost or out of reach, whose data would be consumed (R364, R378, R388, R391). -/
def State.readSource (x : CollCall) (s : State) : Option (List Byte) × State :=
  if x.col then
    let pieces := x.srcRuns.flatMap linePieces
    let bad := pieces.any fun p => (s.readFails (lineOf p.1)).isSome
    let by_ := s.agentOfCord x.cord
    let s := pieces.foldl (fun s p => State.noteRead by_ p.1 (s.l2Fetch (lineOf p.1))) s
    (if bad then none else some (pieces.flatMap fun p => s.homeBytes p.1 p.2), s)
  else
    let bs := ((s.findMotif x.mid).map fun m => (List.range (collNb x.lit)).map fun i => SMap.get 0 m.pil (x.off + i)).getD []
    (some bs, s)

/-- A call takes effect as a release and joins the next round of its group (R385, R386). -/
def State.joinRound (x : CollCall) (s : State) : State :=
  let g := s.groupOf x.g
  let k := g.calls + 1
  let s := { s with groups := SMap.upd {} s.groups x.g fun y => { y with calls := k } }
  let (src, s) := s.readSource x
  match src with
  | none => State.messageLost x.cord (s.complete x.cord x.flag [])
  | some bs =>
    let x := { x with round := k, src := bs }
    if g.closed.contains k then s.endCall x 5
    else
      let s := { s with calls := s.calls ++ [x] }
      if s.memberLost x.g then s.after 1 (.arRoundComplete x.g k)
      else
        match s.contributions x with
        | some _ => s.afterFree (collLeast x g.pm1) (.arRoundComplete x.g k)
        | none =>
          let t := Config.freeDelay s.fresh % (s.dev.usCycles * 2 ^ g.tmo + 1)
          State.after t (.arRoundTimeout x.g k) s.tick

def State.callOf (s : State) (g k : Nat) : Option CollCall := s.calls.find? fun c => c.g == g && c.round == k && c.status == none

/-- AR_ROUND_TIMEOUT (R385, R387): the members that called end with status 5, and the round is closed. -/
def execArRoundTimeout (s : State) : Out :=
  match s.now with
  | some (.arRoundTimeout g k) =>
    .next <|
      match s.callOf g k with
      | none => s
      | some x => State.endCall x 5 { s with groups := SMap.upd {} s.groups g fun y => { y with closed := y.closed ++ [k] } }
  | _ => .next s

/-- The first line of DST whose words another core owns, with who is to hear of the write (R200). -/
def State.dstNotices (s : State) (x : CollCall) : Option (Nat × List (Nat × Word)) :=
  (x.dstRuns.flatMap linePieces).findSome? fun p =>
    match s.owedNotices none (lineOf p.1) (wordsOf ((List.range p.2).map fun i => p.1 % 128 + i)) with
    | [] => none
    | ns => some (lineOf p.1, ns)

/-- The lines of DST are written at their homes; one that cannot be reached is lost (R378, R391). -/
def State.writeDst (x : CollCall) (bs : List Byte) (s : State) : State :=
  let pieces := x.dstRuns.flatMap linePieces
  let by_ := s.agentOfCord x.cord
  let put (r : State × Nat) (p : Nat × Nat) : State × Nat :=
    let (s, o) := r
    let s :=
      if s.unreachable (lineOf p.1) then s.messageLost x.cord
      else
        let s := (s.settleNow (lineOf p.1)).takeOwner none (lineOf p.1) (wordsOf ((List.range p.2).map fun i => p.1 % 128 + i))
        let s := if p.2 = 128 then s.unlose (lineOf p.1) else s
        s.performWrite by_ (cellsAt p.1 ((List.range p.2).map fun i => bs.getD (o + i) 0))
    (s, o + p.2)
  (pieces.foldl put (s, 0)).1

/-- AR_ROUND_COMPLETE (R385, R388 to R391): every member has joined, or one is out of reach. -/
def execArRoundComplete (s : State) : Out :=
  match s.now with
  | some (.arRoundComplete g k) =>
    .next <|
      match s.callOf g k with
      | none => s
      | some x =>
        if s.memberLost g then s.endCall x 3
        else
          match s.contributions x with
          | none => s
          | some all =>
            let same := all.all fun c => c.1 == x.lit && c.2.1 == x.amount
            let agree := (s.groupOf g).pm1 == 0 || Config.peerTablesAgree g k
            if !(same && agree) then s.endCall x 2
            else if x.col then
              match s.dstNotices x with
              | some (line, ns) => s.notifyFirst ns line (.arRoundComplete g k)
              | none =>
              let s := s.writeDst x (acolResult x.lit x.count x.root (s.groupOf g).rank (all.map (·.2.2)))
              let s := { s with calls := s.calls.map fun (c : CollCall) => if c.g = g ∧ c.round = k then { c with status := some 0 } else c }
              s.afterFree 1 (.acolComplete g k)
            else State.endRound x (s.onMotif x.mid fun m => m.pilPut x.off (aredResult x.lit (all.map (·.2.2))))
  | _ => .next s

/-- ACOL_COMPLETE (R391): every line of DST is acknowledged; STAT is written and the flag decrements. -/
def execAcolComplete (s : State) : Out :=
  match s.now with
  | some (.acolComplete g k) =>
    .next <|
      match s.calls.find? fun c => c.g == g && c.round == k with
      | none => s
      | some x => s.endRound x
  | _ => .next s

/-! Instructions. -/

/-- The pillow checks of R388 on n bytes: alignment, range, ring control blocks and bobbin area. -/
def Motif.checkBuffer (m : Motif) (o n : Nat) : Option Cause :=
  let bad := (if m.hasRings then [(m.pb - 128, 128)] else []) ++ match m.ba with | some b => [(b, 2064)] | none => []
  if o % 16 ≠ 0 then some .pilAlign
  else if m.pb < o + n then some .pilRange
  else if touches bad o n then some .pilRsvd
  else none

/-- The checks of R388 that ared and acol share, on a buffer or descriptor of n bytes. -/
def collCheck (col : Bool) (a b : Rd) (lit : Word) (n : Nat) (s : State) : Option (Cause × Dword) :=
  let c := s.cord
  if !collLitOk col lit then some (.opndKind, c.word)
  else
    match s.motif.checkBuffer (c.once a).toNat n with
    | some k => some (k, (c.once a).setWidth 64)
    | none => if 63 < (c.once b).toNat then some (.opndKind, c.word) else none

/-- A call as it issues. -/
def newCall (col : Bool) (a b : Rd) (lit : Word) (dst : List RegWrite) (c : Cord) : CollCall :=
  { g := (c.once b).toNat % 64, round := 0, cord := c.cid, mid := c.mid, flag := c.flag, col := col, lit := lit,
    off := (c.once a).toNat, desc := [], src := [], srcRuns := [], dst := dst, dstRuns := [], status := none }

/-- A call issues: it waits for its release, or ends with status 1 at once when its group is not defined. -/
def runColl (f : Form) (x : CollCall) (s : State) (body : State → Res) : Out :=
  let r := (f.check s).getD (body s)
  let t := f.settle s r
  .next <|
    match r with
    | .done _ => if (s.groupOf x.g).v then t else t.endCall x 1
    | _ => t

/-- ared (R388). -/
def execAred (d : Wr) (a b : Rd) (lit : Word) (s : State) : Out :=
  let f : Form := { lat := .v, vecs := wrVecs d 1 ++ rdVecs a 1 ++ rdVecs b 1 }
  let x := newCall false a b lit (s.cord.writesOnce d 0) s.cord
  runColl f x s fun s =>
    match collCheck false a b lit (collNb lit) s with
    | some (k, i) => .trap k i
    | none => .done (if (s.groupOf x.g).v then s.release (.coll x) 0 else s)

/-- The fields of an acol descriptor are legal (R391); SRC and DST are 16-byte aligned. -/
def CollCall.descOk (x : CollCall) (pm1 : Nat) : Bool :=
  let bcast := collKind x.lit == 3
  x.word 7 == 0 && decide (1 ≤ x.count) && decide (x.count ≤ 2 ^ 28) && decide (x.root ≤ if bcast then pm1 else 0) &&
    x.word 0 % 16 == 0 && x.word 2 % 16 == 0

/-- Bytes of SRC and of DST on this member (R391). -/
def CollCall.sizes (x : CollCall) (g : Group) : Nat × Nat :=
  let n := x.count * collBytes (collTy x.lit)
  match collKind x.lit with
  | 0 => (n, n)
  | 1 => ((g.pm1 + 1) * n, n)
  | 2 => (n, (g.pm1 + 1) * n)
  | _ => (if g.rank = x.root then n else 0, n)

/-- acol (R391): the descriptor is copied, and every page of SRC and DST translated, at issue. -/
def execAcol (a b : Rd) (lit : Word) (s : State) : Out :=
  let f : Form := { lat := .v, vecs := rdVecs a 1 ++ rdVecs b 1 }
  let x := newCall true a b lit [] s.cord
  runColl f x s fun s =>
    match collCheck true a b lit 32 s with
    | some (k, i) => .trap k i
    | none =>
      let x := { x with desc := (List.range 8).map fun i => BitVec.ofNat 32 (s.motif.pilNum (x.off + 4 * i) 4) }
      let g := s.groupOf x.g
      if !x.descOk g.pm1 then .trap .opndKind s.cord.word
      else
        let src := x.word 0 + x.word 1 * 2 ^ 32
        let dst := x.word 2 + x.word 3 * 2 ^ 32
        let (m, n) := x.sizes g
        let ins := pageStarts src m
        withNeeds ((ins.map fun va => (va, .r)) ++ (pageStarts dst n).map fun va => (va, .w)) s fun ps s =>
          let x := { x with srcRuns := physRuns src m (ps.take ins.length), dstRuns := physRuns dst n (ps.drop ins.length) }
          .done (if g.v then s.release (.coll x) 0 else s)

/-- rsig (R392). -/
def execRsig (a b : Rd) (lit : Word) (s : State) : Out :=
  runForm { lat := .n, vecs := rdVecs a 1 ++ rdVecs b 1 } s fun s =>
    let c := s.cord
    if fld lit 6 26 ≠ 0 ∨ 899 < (c.once a).toNat then .trap .opndKind c.word
    else .done (s.release (.rsig (c.once a).toNat (fld lit 0 6) (c.once b)) 0)

/-- The write of QTAIL that an rsig of an agent asks for: accepted when the queue's DL and EN are set; to the device's own
number it acts as a launch with no status, held while an epoch of the agent's group lasts (R367); a device out of reach drops
it (R392). -/
def State.signal (by_ : Agent) (dev q : Nat) (t : Word) (s : State) : State :=
  if dev = s.dev.devno then
    if !(qDl (s.queueOf q) && qEn (s.queueOf q)) then s
    else if s.epochs.any (·.covers by_) then s.holdEnq by_ { q := q, src := 0, words := none, tail := some t }
    else s.onQueue q fun x => x.setTail t
  else if s.dev.lost.contains dev then s
  else s.sendOut dev (.signal q t)

end Sys2Proof.Machine
end

