-- ==== Sys2Proof/Machine/Release.lean ====
section
/-! DEFINITION. Release.lean: when a pending release takes effect, and what it then does (R201). -/

namespace Sys2Proof.Machine

def RelKind.isFree : RelKind → Bool
  | .free .. => true
  | _ => false

/-- No release: what follows one leaves the core as soon as it is the oldest (R207). -/
def RelKind.follows : RelKind → Bool
  | .follow .. | .followAtom .. => true
  | _ => false

/-- The drains of the cord that it follows have written the words that it holds (R207, R310). -/
def State.drainsPast (s : State) (c : Nat) : RelKind → Bool
  | .follow m upto => s.drainOwes c m.line upto &&& wordsOf (m.bytes.map (·.1)) == 0
  | .followAtom r upto => s.drainOwes c r.line upto &&& wordsOf (atomOffs r) == 0
  | _ => true

/-- stcnt counts nothing but pending releases (R201). -/
def Cord.stSettled (c : Cord) : Bool := c.stcnt == (c.rels.map (·.own)).sum

/-- The release of a cord that takes effect next: an srfree once the wait-full loads before it have read; of the
others the oldest, once stcnt counts nothing but pending releases and those loads have been served (R188, R201). In a motif
that is discarded only its calls take effect (R336, R387; log entry 62). -/
def State.relDue (s : State) (c : Cord) : Option Release :=
  match s.findMotif c.mid with
  | none => none
  | some m =>
    if m.status ≠ .running then none
    else if m.discard then (c.rels.find? fun r => r.kind.isCall).bind fun r => if c.stSettled then some r else none
    else
      match c.rels.find? fun r => r.kind.isFree && r.loads.isEmpty with
      | some r => some r
      | none =>
        (c.rels.find? fun r => !r.kind.isFree).bind fun r =>
          if (r.kind.follows && s.drainsPast c.cid r.kind) || (!r.kind.follows && r.loads.isEmpty && c.stSettled && r.kind.inTurn m) then some r else none

/-- Commands of a notify store that takes effect: sequences T0 to T2 - 1 are published (R248). -/
def Motif.publish (m : Motif) (c : Nat) (t0 t2 : BitVec 16) (lanes : Word) : Motif :=
  let new := (List.range (t2 - t0).toNat).map fun i => BobPub.mk (t0 + BitVec.ofNat 16 i).toNat c lanes
  { m with tail := t2, noticed := m.noticed + 1, pubs := m.pubs ++ new }

/-- What a release of cord c does as it takes effect (R201). -/
def RelKind.apply (c : Cord) (k : RelKind) (s : State) : State :=
  match k with
  | .store m => s.sendStore m
  | .atom r => s.sendAtom r
  | .arrive b => s.countArrival c.mid b
  | .peer mid b n => s.countPeer (clusterOf c.core) mid b n
  | .publish q k => s.publishSlot c.mid q k
  | .free q k p => s.onMotif c.mid fun m => m.freeSlot q k p
  | .notify _ t0 t2 lanes => s.onMotif c.mid fun m => m.publish c.cid t0 t2 lanes
  | .post f v b0 => s.sendPost c.cid f v b0
  | .launch x => s.launchNow c.cid x
  | .rsig dev q t => s.signal (s.agentOfCord c.cid) dev q t
  | .coll x => s.joinRound x
  | .follow m _ => s.sendStore m
  | .followAtom r _ => s.sendAtom r

/-- RELEASE_TAKES_EFFECT (R201). -/
def execReleaseTakesEffect (s : State) : Out :=
  match s.now with
  | some (.releaseTakesEffect c) =>
    .next <|
      match s.cordRec c with
      | none => s
      | some x =>
        match s.relDue x with
        | none => s
        | some r => r.kind.apply x (s.onCord c fun x => { x with rels := x.rels.erase r })
  | _ => .next s

end Sys2Proof.Machine
end

