-- ==== Sys2Proof/Machine/Dispatch.lean ====
section
/-! DEFINITION. Dispatch.lean: one arm per constructor of Instr. -/

namespace Sys2Proof.Machine

/-- What a row of the opcode table does: an instruction at its issue, an event when it happens. -/
def exec (i : Instr) (s : State) : Host.Outcome State Fault Refusal :=
  match i with
  | .nop => Sys2Proof.Machine.execNop s
  | .bra lit => Sys2Proof.Machine.execBra lit s
  | .brk k lit => Sys2Proof.Machine.execBrk k lit s
  | .brz a lit => Sys2Proof.Machine.execBrz a lit s
  | .brnz a lit => Sys2Proof.Machine.execBrnz a lit s
  | .jmp a b => Sys2Proof.Machine.execJmp a b s
  | .call d lit => Sys2Proof.Machine.execCall d lit s
  | .ret a => Sys2Proof.Machine.execRet a s
  | .meet lit => Sys2Proof.Machine.execMeet lit s
  | .join k => Sys2Proof.Machine.execJoin k s
  | .leave k => Sys2Proof.Machine.execLeave k s
  | .waitk k => Sys2Proof.Machine.execWaitk k s
  | .kset d lit => Sys2Proof.Machine.execKset d lit s
  | .kmov d a => Sys2Proof.Machine.execKmov d a s
  | .kand d a b => Sys2Proof.Machine.execKand d a b s
  | .kor d a b => Sys2Proof.Machine.execKor d a b s
  | .kxor d a b => Sys2Proof.Machine.execKxor d a b s
  | .knot d a => Sys2Proof.Machine.execKnot d a s
  | .kpop d a => Sys2Proof.Machine.execKpop d a s
  | .elect d a => Sys2Proof.Machine.execElect d a s
  | .exit => Sys2Proof.Machine.execExit s
  | .yield => Sys2Proof.Machine.execYield s
  | .sleep n => Sys2Proof.Machine.execSleep n s
  | .winb n => Sys2Proof.Machine.execWinb n s
  | .xacq n => Sys2Proof.Machine.execXacq n s
  | .xrel n => Sys2Proof.Machine.execXrel n s
  | .add w d a b => Sys2Proof.Machine.execAdd w d a b s
  | .sub w d a b => Sys2Proof.Machine.execSub w d a b s
  | .mul w d a b => Sys2Proof.Machine.execMul w d a b s
  | .mulh w d a b => Sys2Proof.Machine.execMulh w d a b s
  | .mad w d a b => Sys2Proof.Machine.execMad w d a b s
  | .neg w d a => Sys2Proof.Machine.execNeg w d a s
  | .abs w d a => Sys2Proof.Machine.execAbs w d a s
  | .min w d a b => Sys2Proof.Machine.execMin w d a b s
  | .max w d a b => Sys2Proof.Machine.execMax w d a b s
  | .minu w d a b => Sys2Proof.Machine.execMinu w d a b s
  | .maxu w d a b => Sys2Proof.Machine.execMaxu w d a b s
  | .and w d a b => Sys2Proof.Machine.execAnd w d a b s
  | .or w d a b => Sys2Proof.Machine.execOr w d a b s
  | .xor w d a b => Sys2Proof.Machine.execXor w d a b s
  | .not w d a => Sys2Proof.Machine.execNot w d a s
  | .andn w d a b => Sys2Proof.Machine.execAndn w d a b s
  | .shl w d a b => Sys2Proof.Machine.execShl w d a b s
  | .shr w d a b => Sys2Proof.Machine.execShr w d a b s
  | .sar w d a b => Sys2Proof.Machine.execSar w d a b s
  | .rot w d a b => Sys2Proof.Machine.execRot w d a b s
  | .popc w d a => Sys2Proof.Machine.execPopc w d a s
  | .clz w d a => Sys2Proof.Machine.execClz w d a s
  | .ctz w d a => Sys2Proof.Machine.execCtz w d a s
  | .brev w d a => Sys2Proof.Machine.execBrev w d a s
  | .bfx w d a b lit => Sys2Proof.Machine.execBfx w d a b lit s
  | .bfi w d a b lit => Sys2Proof.Machine.execBfi w d a b lit s
  | .prmt d a b lit => Sys2Proof.Machine.execPrmt d a b lit s
  | .sel w d a b lit => Sys2Proof.Machine.execSel w d a b lit s
  | .cmp w d a b lit => Sys2Proof.Machine.execCmp w d a b lit s
  | .cmpv w d a b lit => Sys2Proof.Machine.execCmpv w d a b lit s
  | .mov w d a => Sys2Proof.Machine.execMov w d a s
  | .movl d lit => Sys2Proof.Machine.execMovl d lit s
  | .lea d a b lit => Sys2Proof.Machine.execLea d a b lit s
  | .divu w d a b => Sys2Proof.Machine.execDivu w d a b s
  | .divs w d a b => Sys2Proof.Machine.execDivs w d a b s
  | .remu w d a b => Sys2Proof.Machine.execRemu w d a b s
  | .rems w d a b => Sys2Proof.Machine.execRems w d a b s
  | .addc w d a b => Sys2Proof.Machine.execAddc w d a b s
  | .addImm w d a n => Sys2Proof.Machine.execAddImm w d a n s
  | .subImm w d a n => Sys2Proof.Machine.execSubImm w d a n s
  | .mulImm w d a n => Sys2Proof.Machine.execMulImm w d a n s
  | .minImm w d a n => Sys2Proof.Machine.execMinImm w d a n s
  | .maxImm w d a n => Sys2Proof.Machine.execMaxImm w d a n s
  | .minuImm w d a n => Sys2Proof.Machine.execMinuImm w d a n s
  | .maxuImm w d a n => Sys2Proof.Machine.execMaxuImm w d a n s
  | .andImm w d a n => Sys2Proof.Machine.execAndImm w d a n s
  | .orImm w d a n => Sys2Proof.Machine.execOrImm w d a n s
  | .xorImm w d a n => Sys2Proof.Machine.execXorImm w d a n s
  | .shlImm w d a n => Sys2Proof.Machine.execShlImm w d a n s
  | .shrImm w d a n => Sys2Proof.Machine.execShrImm w d a n s
  | .sarImm w d a n => Sys2Proof.Machine.execSarImm w d a n s
  | .rotImm w d a n => Sys2Proof.Machine.execRotImm w d a n s
  | .fadd d a b => Sys2Proof.Machine.execFadd d a b s
  | .fsub d a b => Sys2Proof.Machine.execFsub d a b s
  | .fmul d a b => Sys2Proof.Machine.execFmul d a b s
  | .ffma d a b => Sys2Proof.Machine.execFfma d a b s
  | .fmin d a b => Sys2Proof.Machine.execFmin d a b s
  | .fmax d a b => Sys2Proof.Machine.execFmax d a b s
  | .fneg d a => Sys2Proof.Machine.execFneg d a s
  | .fabs d a => Sys2Proof.Machine.execFabs d a s
  | .fcmp d a b lit => Sys2Proof.Machine.execFcmp d a b lit s
  | .fclass d a => Sys2Proof.Machine.execFclass d a s
  | .frnd d a n => Sys2Proof.Machine.execFrnd d a n s
  | .fdiv d a b => Sys2Proof.Machine.execFdiv d a b s
  | .frcp d a => Sys2Proof.Machine.execFrcp d a s
  | .frsq d a => Sys2Proof.Machine.execFrsq d a s
  | .fsqrt d a => Sys2Proof.Machine.execFsqrt d a s
  | .fexp2 d a => Sys2Proof.Machine.execFexp2 d a s
  | .flog2 d a => Sys2Proof.Machine.execFlog2 d a s
  | .fsin d a => Sys2Proof.Machine.execFsin d a s
  | .fcos d a => Sys2Proof.Machine.execFcos d a s
  | .ftanh d a => Sys2Proof.Machine.execFtanh d a s
  | .dadd d a b => Sys2Proof.Machine.execDadd d a b s
  | .dsub d a b => Sys2Proof.Machine.execDsub d a b s
  | .dmul d a b => Sys2Proof.Machine.execDmul d a b s
  | .dfma d a b => Sys2Proof.Machine.execDfma d a b s
  | .dmin d a b => Sys2Proof.Machine.execDmin d a b s
  | .dmax d a b => Sys2Proof.Machine.execDmax d a b s
  | .dcmp d a b lit => Sys2Proof.Machine.execDcmp d a b lit s
  | .ddiv d a b => Sys2Proof.Machine.execDdiv d a b s
  | .dsqrt d a => Sys2Proof.Machine.execDsqrt d a s
  | .hadd2 d a b => Sys2Proof.Machine.execHadd2 d a b s
  | .hmul2 d a b => Sys2Proof.Machine.execHmul2 d a b s
  | .hfma2 d a b => Sys2Proof.Machine.execHfma2 d a b s
  | .shfl d a b => Sys2Proof.Machine.execShfl d a b s
  | .shfld d a b => Sys2Proof.Machine.execShfld d a b s
  | .vote d a lit => Sys2Proof.Machine.execVote d a lit s
  | .redu d a lit => Sys2Proof.Machine.execRedu d a lit s
  | .scan d a lit => Sys2Proof.Machine.execScan d a lit s
  | .chain a lit => Sys2Proof.Machine.execChain a lit s
  | .fpcr d => Sys2Proof.Machine.execFpcr d s
  | .fpcw a => Sys2Proof.Machine.execFpcw a s
  | .fpcs a => Sys2Proof.Machine.execFpcs a s
  | .fpcc a => Sys2Proof.Machine.execFpcc a s
  | .cvt d a b lit => Sys2Proof.Machine.execCvt d a b lit s
  | .cvtsc d a b lit => Sys2Proof.Machine.execCvtsc d a b lit s
  | .pack d a b lit => Sys2Proof.Machine.execPack d a b lit s
  | .unpk d a b lit => Sys2Proof.Machine.execUnpk d a b lit s
  | .scfind d a b => Sys2Proof.Machine.execScfind d a b s
  | .tclass d a n => Sys2Proof.Machine.execTclass d a n s
  | .openLine d a b => Sys2Proof.Machine.execOpenLine d a b s
  | .openAcq d a b => Sys2Proof.Machine.execOpenAcq d a b s
  | .openf d a b lit => Sys2Proof.Machine.execOpenf d a b lit s
  | .close e => Sys2Proof.Machine.execClose e s
  | .eqry d e => Sys2Proof.Machine.execEqry d e s
  | .erfr e => Sys2Proof.Machine.execErfr e s
  | .ldl z d e n => Sys2Proof.Machine.execLdl z d e n s
  | .ldlReg z d e b => Sys2Proof.Machine.execLdlReg z d e b s
  | .ldlAcq z d e n => Sys2Proof.Machine.execLdlAcq z d e n s
  | .ldlAcqReg z d e b => Sys2Proof.Machine.execLdlAcqReg z d e b s
  | .ldlx z d a n => Sys2Proof.Machine.execLdlx z d a n s
  | .ldlxReg z d a b => Sys2Proof.Machine.execLdlxReg z d a b s
  | .stl z d e n => Sys2Proof.Machine.execStl z d e n s
  | .stlReg z d e b => Sys2Proof.Machine.execStlReg z d e b s
  | .stlRel z d e n => Sys2Proof.Machine.execStlRel z d e n s
  | .stlRelReg z d e b => Sys2Proof.Machine.execStlRelReg z d e b s
  | .stlx z d a n => Sys2Proof.Machine.execStlx z d a n s
  | .stlxReg z d a b => Sys2Proof.Machine.execStlxReg z d a b s
  | .lock d a b => Sys2Proof.Machine.execLock d a b s
  | .unlk a b => Sys2Proof.Machine.execUnlk a b s
  | .prefl a b => Sys2Proof.Machine.execPrefl a b s
  | .waitcLd n => Sys2Proof.Machine.execWaitcLd n s
  | .waitcSt n => Sys2Proof.Machine.execWaitcSt n s
  | .atom d e b lit => Sys2Proof.Machine.execAtom d e b lit s
  | .atomcas d e b lit => Sys2Proof.Machine.execAtomcas d e b lit s
  | .atomred e b lit => Sys2Proof.Machine.execAtomred e b lit s
  | .sealBatch d => Sys2Proof.Machine.execSealBatch d s
  | .waitb a => Sys2Proof.Machine.execWaitb a s
  | .flushr a b lit => Sys2Proof.Machine.execFlushr a b lit s
  | .disc a b lit => Sys2Proof.Machine.execDisc a b lit s
  | .tstv d e => Sys2Proof.Machine.execTstv d e s
  | .openv d a b => Sys2Proof.Machine.execOpenv d a b s
  | .bsdef d a b lit => Sys2Proof.Machine.execBsdef d a b lit s
  | .bsfree a => Sys2Proof.Machine.execBsfree a s
  | .opent d a b lit => Sys2Proof.Machine.execOpent d a b lit s
  | .vads d e b => Sys2Proof.Machine.execVads d e b s
  | .bsdrn a => Sys2Proof.Machine.execBsdrn a s
  | .bsqry d a lit => Sys2Proof.Machine.execBsqry d a lit s
  | .ldp z d a n => Sys2Proof.Machine.execLdp z d a n s
  | .ldpWfTake z d a n => Sys2Proof.Machine.execLdpWfTake z d a n s
  | .ldpWfPeek z d a n => Sys2Proof.Machine.execLdpWfPeek z d a n s
  | .stp z d a n => Sys2Proof.Machine.execStp z d a n s
  | .feset a n => Sys2Proof.Machine.execFeset a n s
  | .feclr a n => Sys2Proof.Machine.execFeclr a n s
  | .feqry d a n => Sys2Proof.Machine.execFeqry d a n s
  | .bara b n => Sys2Proof.Machine.execBara b n s
  | .barw b n => Sys2Proof.Machine.execBarw b n s
  | .barx b => Sys2Proof.Machine.execBarx b s
  | .barq d b => Sys2Proof.Machine.execBarq d b s
  | .sracq d q => Sys2Proof.Machine.execSracq d q s
  | .srpub q b => Sys2Proof.Machine.execSrpub q b s
  | .srwait q b => Sys2Proof.Machine.execSrwait q b s
  | .srfree q b => Sys2Proof.Machine.execSrfree q b s
  | .srqry d q => Sys2Proof.Machine.execSrqry d q s
  | .peerarr k b lit => Sys2Proof.Machine.execPeerarr k b lit s
  | .tdset d a => Sys2Proof.Machine.execTdset d a s
  | .tdmod d a n => Sys2Proof.Machine.execTdmod d a n s
  | .tdq d t n => Sys2Proof.Machine.execTdq d t n s
  | .azero d => Sys2Proof.Machine.execAzero d s
  | .ald d a n => Sys2Proof.Machine.execAld d a n s
  | .ast d a n => Sys2Proof.Machine.execAst d a n s
  | .aprom d => Sys2Proof.Machine.execAprom d s
  | .acvt d n => Sys2Proof.Machine.execAcvt d n s
  | .mma d a b => Sys2Proof.Machine.execMma d a b s
  | .mmaAcc d a b => Sys2Proof.Machine.execMmaAcc d a b s
  | .mmas d a b lit => Sys2Proof.Machine.execMmas d a b lit s
  | .mmast d a b lit => Sys2Proof.Machine.execMmast d a b lit s
  | .amaxu d => Sys2Proof.Machine.execAmaxu d s
  | .arsc d a => Sys2Proof.Machine.execArsc d a s
  | .adrn a b lit => Sys2Proof.Machine.execAdrn a b lit s
  | .cmpr d a b => Sys2Proof.Machine.execCmpr d a b s
  | .mtchk d a => Sys2Proof.Machine.execMtchk d a s
  | .launch d a b => Sys2Proof.Machine.execLaunch d a b s
  | .post a n => Sys2Proof.Machine.execPost a n s
  | .phadv n => Sys2Proof.Machine.execPhadv n s
  | .idend => Sys2Proof.Machine.execIdend s
  | .trap n => Sys2Proof.Machine.execTrap n s
  | .rte => Sys2Proof.Machine.execRte s
  | .csrr d lit => Sys2Proof.Machine.execCsrr d lit s
  | .csrw a lit => Sys2Proof.Machine.execCsrw a lit s
  | .csrs a lit => Sys2Proof.Machine.execCsrs a lit s
  | .csrc a lit => Sys2Proof.Machine.execCsrc a lit s
  | .bobq d q => Sys2Proof.Machine.execBobq d q s
  | .dtld => Sys2Proof.Machine.execDtld s
  | .tlbi a b => Sys2Proof.Machine.execTlbi a b s
  | .brkpt n => Sys2Proof.Machine.execBrkpt n s
  | .halt => Sys2Proof.Machine.execHalt s
  | .ared d a b lit => Sys2Proof.Machine.execAred d a b lit s
  | .acol a b lit => Sys2Proof.Machine.execAcol a b lit s
  | .rsig a b lit => Sys2Proof.Machine.execRsig a b lit s
  | .clauseStart => Sys2Proof.Machine.execClauseStart s
  | .clauseEnd => Sys2Proof.Machine.execClauseEnd s
  | .cordUrgent => Sys2Proof.Machine.execCordUrgent s
  | .sleepExpiry => Sys2Proof.Machine.execSleepExpiry s
  | .xacqGrant => Sys2Proof.Machine.execXacqGrant s
  | .fixedLatencyWrite => Sys2Proof.Machine.execFixedLatencyWrite s
  | .divideComplete => Sys2Proof.Machine.execDivideComplete s
  | .specialFunctionComplete => Sys2Proof.Machine.execSpecialFunctionComplete s
  | .chainComplete => Sys2Proof.Machine.execChainComplete s
  | .pageWalkEnd => Sys2Proof.Machine.execPageWalkEnd s
  | .fillComplete => Sys2Proof.Machine.execFillComplete s
  | .fillFailure => Sys2Proof.Machine.execFillFailure s
  | .erfrComplete => Sys2Proof.Machine.execErfrComplete s
  | .acquireComplete => Sys2Proof.Machine.execAcquireComplete s
  | .openvAttemptEnd => Sys2Proof.Machine.execOpenvAttemptEnd s
  | .recallAtCore => Sys2Proof.Machine.execRecallAtCore s
  | .recallAck => Sys2Proof.Machine.execRecallAck s
  | .debugRecall => Sys2Proof.Machine.execDebugRecall s
  | .storeAtHome => Sys2Proof.Machine.execStoreAtHome s
  | .ownerLossNotice => Sys2Proof.Machine.execOwnerLossNotice s
  | .storeAck => Sys2Proof.Machine.execStoreAck s
  | .atomicAtHome => Sys2Proof.Machine.execAtomicAtHome s
  | .atomicResult => Sys2Proof.Machine.execAtomicResult s
  | .releaseTakesEffect => Sys2Proof.Machine.execReleaseTakesEffect s
  | .waitFullLoadService => Sys2Proof.Machine.execWaitFullLoadService s
  | .pillowLoadResult => Sys2Proof.Machine.execPillowLoadResult s
  | .lockComplete => Sys2Proof.Machine.execLockComplete s
  | .flushrComplete => Sys2Proof.Machine.execFlushrComplete s
  | .discAtHome => Sys2Proof.Machine.execDiscAtHome s
  | .discDrop => Sys2Proof.Machine.execDiscDrop s
  | .tlbiComplete => Sys2Proof.Machine.execTlbiComplete s
  | .dtldComplete => Sys2Proof.Machine.execDtldComplete s
  | .additionAtPicot => Sys2Proof.Machine.execAdditionAtPicot s
  | .passThroughAdd => Sys2Proof.Machine.execPassThroughAdd s
  | .picotDrainComplete => Sys2Proof.Machine.execPicotDrainComplete s
  | .shareRequest => Sys2Proof.Machine.execShareRequest s
  | .shareGrant => Sys2Proof.Machine.execShareGrant s
  | .trim => Sys2Proof.Machine.execTrim s
  | .shareReturn => Sys2Proof.Machine.execShareReturn s
  | .forcedDrain => Sys2Proof.Machine.execForcedDrain s
  | .tolerantReadService => Sys2Proof.Machine.execTolerantReadService s
  | .regionTableUpdateComplete => Sys2Proof.Machine.execRegionTableUpdateComplete s
  | .bsqryResult => Sys2Proof.Machine.execBsqryResult s
  | .bobbinTake => Sys2Proof.Machine.execBobbinTake s
  | .bobbinPageReach => Sys2Proof.Machine.execBobbinPageReach s
  | .bobbinIndexRead => Sys2Proof.Machine.execBobbinIndexRead s
  | .bobbinDataReturn => Sys2Proof.Machine.execBobbinDataReturn s
  | .bobbinWriteAck => Sys2Proof.Machine.execBobbinWriteAck s
  | .bobbinCompletionRecord => Sys2Proof.Machine.execBobbinCompletionRecord s
  | .tambourFormStart => Sys2Proof.Machine.execTambourFormStart s
  | .tileFetchLine => Sys2Proof.Machine.execTileFetchLine s
  | .tambourOccupancyEnd => Sys2Proof.Machine.execTambourOccupancyEnd s
  | .tambourFormComplete => Sys2Proof.Machine.execTambourFormComplete s
  | .adrnLineAck => Sys2Proof.Machine.execAdrnLineAck s
  | .adrnVersionPerformed => Sys2Proof.Machine.execAdrnVersionPerformed s
  | .postAtHome => Sys2Proof.Machine.execPostAtHome s
  | .qtailWrite => Sys2Proof.Machine.execQtailWrite s
  | .queueSuspend => Sys2Proof.Machine.execQueueSuspend s
  | .queueUnsuspend => Sys2Proof.Machine.execQueueUnsuspend s
  | .recordTake => Sys2Proof.Machine.execRecordTake s
  | .recordStart => Sys2Proof.Machine.execRecordStart s
  | .motifPlacement => Sys2Proof.Machine.execMotifPlacement s
  | .motifSave => Sys2Proof.Machine.execMotifSave s
  | .motifRetirement => Sys2Proof.Machine.execMotifRetirement s
  | .patternCompletion => Sys2Proof.Machine.execPatternCompletion s
  | .successorEnqueue => Sys2Proof.Machine.execSuccessorEnqueue s
  | .knotDetectorReading => Sys2Proof.Machine.execKnotDetectorReading s
  | .trapEntry => Sys2Proof.Machine.execTrapEntry s
  | .asyncTrapDelivery => Sys2Proof.Machine.execAsyncTrapDelivery s
  | .pipeErr => Sys2Proof.Machine.execPipeErr s
  | .eccUncorrectable => Sys2Proof.Machine.execEccUncorrectable s
  | .correctableError => Sys2Proof.Machine.execCorrectableError s
  | .launchKillFinish => Sys2Proof.Machine.execLaunchKillFinish s
  | .contextKill => Sys2Proof.Machine.execContextKill s
  | .ctxevClear => Sys2Proof.Machine.execCtxevClear s
  | .clusterLeavesService => Sys2Proof.Machine.execClusterLeavesService s
  | .scheduleEntryWrite => Sys2Proof.Machine.execScheduleEntryWrite s
  | .arRoundComplete => Sys2Proof.Machine.execArRoundComplete s
  | .arRoundTimeout => Sys2Proof.Machine.execArRoundTimeout s
  | .acolComplete => Sys2Proof.Machine.execAcolComplete s
  | .linkCrcRetry => Sys2Proof.Machine.execLinkCrcRetry s
  | .linkFailure => Sys2Proof.Machine.execLinkFailure s
  | .destinationUnreachable => Sys2Proof.Machine.execDestinationUnreachable s
  | .remoteNotice => Sys2Proof.Machine.execRemoteNotice s
  | .hostAccess => Sys2Proof.Machine.execHostAccess s
  | .adapterAtomic => Sys2Proof.Machine.execAdapterAtomic s
  | .registerWrite => Sys2Proof.Machine.execRegisterWrite s
  | .reset => Sys2Proof.Machine.execReset s
  | .firmwareVerifyDone => Sys2Proof.Machine.execFirmwareVerifyDone s
  | .calibrationDone => Sys2Proof.Machine.execCalibrationDone s
  | .initDone => Sys2Proof.Machine.execInitDone s
  | .lpddrTrainingDone => Sys2Proof.Machine.execLpddrTrainingDone s
  | .bringupTimeout => Sys2Proof.Machine.execBringupTimeout s
  | .powerWindow => Sys2Proof.Machine.execPowerWindow s
  | .pwrctlWrite => Sys2Proof.Machine.execPwrctlWrite s
  | .thermalThrottle => Sys2Proof.Machine.execThermalThrottle s
  | .clockHalve => Sys2Proof.Machine.execClockHalve s
  | .thrClear => Sys2Proof.Machine.execThrClear s
  | .thermalTrip => Sys2Proof.Machine.execThermalTrip s
  | .powerRemoval => Sys2Proof.Machine.execPowerRemoval s
  | .attestationRequest => Sys2Proof.Machine.execAttestationRequest s
  | .attestationComplete => Sys2Proof.Machine.execAttestationComplete s
  | .debugResume => Sys2Proof.Machine.execDebugResume s
  | .illegalWordIssue => Sys2Proof.Machine.execIllegalWordIssue s
  | .hlthbaseWrite => Sys2Proof.Machine.execHlthbaseWrite s
  | .preflFetchComplete => Sys2Proof.Machine.execPreflFetchComplete s

end Sys2Proof.Machine
end

