-- ==== Sys2Proof/Machine/Sched.lean ====
section
/-! DEFINITION. Sched.lean: what happens next: an event of the agenda, an event that the state enables, the issue of
an instruction (R87, R88), or the end of the cycle; and the placing of an instruction where it issues next. -/

namespace Sys2Proof.Machine

/-- Performs an event: its row of the opcode table, with what it acts on in `now`. -/
def State.perform (e : Event) (s : State) : Out := exec e.row { s with now := some e }

/-! Events. -/

/-- The first agenda item whose time has come, and the agenda without it. -/
def takeDue (now : Nat) : List Due → Option (Event × List Due)
  | [] => none
  | d :: rest => if d.at_ ≤ now then some (d.what, rest) else (takeDue now rest).map fun r => (r.1, d :: r.2)

/-- An event of the first live cord that a condition holds of. -/
def cordEvent (p : State → Cord → Bool) (e : Nat → Event) (s : State) : Option Event := (s.allCords.find? (p s)).map fun c => e c.cid

def Start.any : Start → Bool
  | .no => false
  | _ => true

/-- A pending request for blocks can be granted or dropped (R97). -/
def State.grantable (s : State) (k : Core) : Bool :=
  match k.xreqs with
  | [] => false
  | (c, n) :: _ => (s.findCord c).isNone || decide (n ≤ s.poolFree k.core)

/-- Events that happen as soon as the state allows them, in the order in which the model takes them (log entry 1). -/
def enabledEvents : List (State → Option Event) :=
  [ cordEvent (fun s c => (s.asyncDue c).isSome) .asyncTrapDelivery,
    cordEvent (fun s c => s.clauseOver c) .clauseEnd,
    cordEvent (fun s c => c.pend.isSome && s.trapReady c) .trapEntry,
    cordEvent (fun s c => (s.tryStart c).any) .clauseStart,
    fun s => ((s.cord :: s.cords).find? fun c => c.cid != 0 && (s.relDue c).isSome).map fun c => .releaseTakesEffect c.cid,
    fun s => s.allMotifs.findSome? fun m =>
      if m.status = .running then (m.wf.find? (s.serves m)).map fun w => .waitFullLoadService m.mid w.k else none,
    fun s => (s.cores.find? s.grantable).map fun k => .xacqGrant k.core,
    fun s => (s.cores.find? fun k => (s.bobPick k.core).isSome).map fun k => .bobbinTake k.core,
    fun s => (s.allMotifs.find? fun m => (s.recordable m).isSome).map fun m => .bobbinCompletionRecord m.mid,
    fun s => (s.cores.find? fun k => (s.canStart k.core).isSome).map fun k => .tambourFormStart k.core,
    fun s => s.patterns.findSome? fun p => (s.killDue p).map fun c => .launchKillFinish p.q c,
    fun s => s.queuePick.map .recordTake,
    fun s => (s.patterns.find? s.canBegin).map fun p => .recordStart p.q,
    fun s => (s.allMotifs.find? s.savable).map fun m => .motifSave m.mid,
    fun s => (s.allMotifs.find? s.retirable).map fun m => .motifRetirement m.mid,
    fun s => s.placementDue.map fun o => .motifPlacement o.1.q o.2,
    fun s => (s.patterns.find? s.completable).map fun p => .patternCompletion p.q,
    fun s => (s.succs.find? fun e => (s.succDue e.q).isSome).map fun e => .successorEnqueue e.q,
    fun s => if s.cycle % 16384 = 0 ∧ s.knotAt < s.cycle then some .knotDetectorReading else none,
    cordEvent (fun _ c => decide (48 ≤ c.count) && !c.urgent) .cordUrgent ]

/-- The event that the state enables first; none while the device is not in service (R398). -/
def State.enabled (s : State) : Option Event :=
  if s.dev.working then enabledEvents.findSome? fun f => f s else none

/-! Issue. -/

/-- The internal operation of an instruction word under the table its clause was fetched with; none when its entry is
invalid (R53, R54). -/
def operationOf (tab : Option (List Word)) (w : Word) : Option Nat :=
  match tab with
  | none => some (fld w 22 10)
  | some t =>
    let e := t.getD (fld w 22 10) 0
    if bit e 31 && fld e 10 21 == 0 then some (fld e 0 10) else none

/-- The instruction of the slot that a cord issues next, or the cause of R51. -/
def Cord.next (c : Cord) : Except DecodeCause Instr :=
  let (w, lit) := c.cl.words.getD c.cl.slot (0, none)
  decodeOp (operationOf c.cl.tab w) w lit

/-- The focused cord's slot comes to issue: its instruction executes, or its word raises a cause of R51. -/
def State.issue (s : State) : Out :=
  match s.cord.next with
  | .ok i => exec i { s with now := none }
  | .error k => s.perform (.illegalWordIssue k (lo32 s.cord.word))

/-- The distance rule lets the cord's next slot issue (R83). -/
def Cord.distanceMet (c : Cord) (now : Nat) : Bool :=
  decide (c.cl.lastC + (if hdrDist c.cl.hdr c.cl.slot = true then c.cl.lastH else 1) ≤ now)

/-- A cord has an instruction to issue that meets R83 and did not stall earlier in this cycle (R87). -/
def State.timely (s : State) (c : Cord) : Bool :=
  s.mayRun c && c.cl.on && !c.refetch && c.wait == .none && decide (c.cl.slot ≤ hdrCount c.cl.hdr) &&
    c.distanceMet s.cycle && c.stallAt != s.cycle + 1

/-- The issue slot of a cord is free for it in this cycle (R88, R146, R220). -/
def State.slotFree (s : State) (c : Cord) : Bool :=
  let k := s.coreOf c.core
  let h := SMap.get 0 k.holder c.slot
  SMap.get 0 k.slotUsed c.slot != s.cycle + 1 && decide (SMap.get 0 k.holdUntil c.slot ≤ s.cycle) && (h == 0 || h == c.cid)

/-- Rank in the choice of R88: urgent cords, then priority 1, then priority 0; the oldest of a kind first. -/
def Cord.before (a b : Cord) : Bool :=
  let kind (c : Cord) : Nat := if c.urgent then 0 else if c.pri then 1 else 2
  decide (kind a < kind b) || (kind a == kind b && decide (a.age < b.age))

/-- The cord that comes to issue next; one that stalls leaves the choice of this cycle to the others (R87, R88). -/
def State.chosen (s : State) : Option Cord :=
  (s.allCords.filter fun c => s.timely c && s.slotFree c).foldl (fun b c =>
    match b with
    | none => some c
    | some x => if c.before x then some c else some x) none

/-! The counts of R88. -/

/-- A cord's slot is held in this cycle by an instruction that has issued or was chosen earlier (R88, R146, R220). -/
def State.slotHeld (s : State) (c : Cord) : Bool :=
  let k := s.coreOf c.core
  SMap.get 0 k.holder c.slot != 0 || decide (s.cycle < SMap.get 0 k.holdUntil c.slot)

/-- A core without the request for blocks of a cord gets the one that its xacq makes: it stalls for want of blocks, or takes
them if it issues (R97). -/
def State.request (c : Cord) (after : Cord) (asked : List (Nat × Nat)) (s : State) : State :=
  if (s.coreOf c.core).xreqs.any (·.1 == c.cid) then s
  else if after.xblk > c.xblk ∧ c.xgrant = 0 then s.onCore c.core fun k => { k with xreqs := k.xreqs ++ [(c.cid, after.xblk - c.xblk)] }
  else if after.blk.kind = 8 then s.onCore c.core fun k => { k with xreqs := asked }
  else s

/-- Whether a cord is eligible as the choice of a cycle begins (R87): its instruction, tried there, does not stall on a
resource. A stall leaves what blkst shows, which is nothing without one (R190), and an xacq its request (R97). While its slot is
held nothing is noted of it. -/
def State.judge (s : State) (c : Cord) : State :=
  let note (b : Bool) (x : Cord) : Cord :=
    { x with fit := if s.slotHeld c then none else some b, blk := if s.mayRun c then {} else x.blk }
  if !s.timely c then s.onCord c.cid (note false)
  else
    match (s.focus c.cid).issue with
    | .next t =>
      let k := t.coreOf c.core
      let stalled := t.cord.stallAt == s.cycle + 1 && SMap.get 0 k.holder c.slot != c.cid
      State.request c t.cord k.xreqs (s.onCord c.cid fun x => note (!stalled) (if stalled then { x with blk := t.cord.blk } else x))
    | _ => s.onCord c.cid (note false)

/-- The choice of a cycle begins: every cord is judged on the state before any issue of the cycle (R87, R88). -/
def State.judgeAll (s : State) : State := { s.allCords.foldl State.judge s with counted := s.cycle + 1 }

/-- The count of a cord at the end of a cycle: one more when it was eligible and was not chosen, 0 when it was not eligible;
it stands while its slot was held, and a cord that was chosen has it at 0 (R88). -/
def Cord.tally (now : Nat) (c : Cord) : Cord :=
  if c.issuedAt = now then c
  else
    match c.fit with
    | none => c
    | some true => { c with count := c.count + 1 }
    | some false => { c with count := 0 }

/-! The end of a cycle. -/

/-- The cycle ends: counts are kept (R88), the cords of pre-empted motifs stop (R357), and a run of needle may return (R194). -/
def State.endCycle (s : State) : State :=
  let s := if s.dev.working then (s.mapCords fun c => c.tally s.cycle).withdrawAll else s
  let s := if s.runReturns then s.runEnds else s
  { s with cycle := s.cycle + 1, now := none }

/-- Every clock stands still, and nothing is left that could start one (R400, R403). -/
def State.stopped (s : State) : Bool := (s.dev.st == .tripped || s.dev.st == .off) && s.agenda.isEmpty

/-- The next thing that happens. -/
def State.advanceOne (s : State) : Out :=
  match takeDue s.cycle s.agenda with
  | some (e, rest) => State.perform e { s with agenda := rest }
  | none =>
    if s.stopped then .fault .clocksStopped
    else
      match s.enabled with
      | some e => s.perform e
      | none =>
        if s.dev.working ∧ s.counted ≠ s.cycle + 1 then .next s.judgeAll
        else
          match (if s.dev.working then s.chosen else none) with
          | some c => (s.focus c.cid).issue
          | none => .next s.endCycle

/-! Placing an instruction. -/

/-- Where a placed clause lies, and its header: one slot, attached to f0, with its distance bit set (R41). -/
def placedAt : Dword := 0x04000000
def placedHeader : Word := 0x00001E02

/-- The instruction word and literal of table word w, of nbits bits (R42). -/
def placedWords (nbits w : Nat) : Word × Option Word :=
  let x := w % 2 ^ nbits
  let i : Word := BitVec.ofNat 32 x
  (i, if bit i 0 then some (BitVec.ofNat 32 (x / 2 ^ 32)) else none)

/-- The cord that runs a placed instruction: the focused one, or a new one with all threads ready. -/
def State.placedCord (s : State) : Cord :=
  if s.cord.live then s.cord
  else
    { cid := 1, live := true, mid := 1, ctx := 1, regs := 64,
      threads := SMap.setAll {} [] ((List.range 32).map fun l => (l, { st := .ready, pc := placedAt })) }

/-- s with the instruction of table word w in memory and at the slot that issues next (log entry 14): the device is in
service, and the cord's clause, fetched from there, is all that runs. -/
def State.placeWord (s : State) (nbits w : Nat) : State :=
  let x := placedWords nbits w
  let c := s.placedCord
  let cl : Clause := { on := true, hdrA := placedAt, hdr := placedHeader, words := [x], act := c.groupAt (c.thread (lowest c.liveMask)).pc }
  let c := { c with
    cl := cl, pend := .none, wait := .none, stallAt := 0, refetch := false, resume := .none, rels := [], ops := [], async := [], count := 0 }
  let m : Motif := if s.motif.mid = c.mid then s.motif else { mid := c.mid, ctx := c.ctx, core := c.core, regs := c.regs, vectors := 1 }
  let m := { m with status := .running, saving := false, discard := false, wf := [], pubs := [], replays := [] }
  let code := leBytes placedHeader.toNat 4 ++ leBytes (w % 2 ^ nbits) 8
  let pa := s.dev.devno * 2 ^ 54 + placedAt.toNat
  let page : Page := ⟨c.ctx, placedAt.toNat, false, pa, true, true, false, false⟩
  State.onCtx c.ctx (fun y => { y with en := true })
    { s with
      cord := c, cords := [], motif := m, motifs := [], cores := [], agenda := [], now := .none, patterns := [], queues := [],
      succs := [], knotAt := s.cycle, counted := s.cycle + 1, mem := SMap.setAll 0 s.mem (code.zipIdx.map fun (b, i) => (pa + i, b)),
      pages := page :: s.pages, dev := { s.dev with st := if s.dev.working then s.dev.st else .full } }

end Sys2Proof.Machine
end

