-- ==== Sys2Proof/Machine/Step.lean ====
section
/-! DEFINITION. Step.lean: one step of the machine, and the placing of an instruction where the step fetches it. -/

namespace Sys2Proof.Machine

/-- One step: a due event, an enabled event, the issue of one instruction, or the end of the cycle. -/
def step (s : State) : Host.Outcome State Fault Refusal := s.advanceOne

/-- The state s with the instruction of table word w at the slot that issues next (log entry 14). -/
def State.withFetchWord (s : State) (nbits w : Nat) : State := s.placeWord nbits w

end Sys2Proof.Machine
end

