-- ==== Sys2Proof/Safety.lean ====
section
/-! DEFINITION. Safety.lean: what counts as a safe run, and the terms that the claims use. -/

namespace Sys2Proof

/-- k steps reach t. -/
inductive Reaches : Machine.State → Machine.State → Prop where
  | refl (s : Machine.State) : Reaches s s
  | step {s t u : Machine.State} (h : Machine.step s = .next t) (r : Reaches t u) : Reaches s u

/-- A state from which no run stops: every state it reaches has a next one. -/
def Safe (s : Machine.State) : Prop := ∀ t, Reaches s t → ∃ u, Machine.step t = .next u

namespace Claims

open Machine

/-- Home content and backing content are in canonical form. -/
def Canon (s : State) : Prop := SMap.wf 0 s.mem = true ∧ SMap.wf 0 s.backing = true

/-- The agenda item of register writes that are made h cycles from now (R83); none without a write. -/
def fixed (s : State) (h : Nat) (ws : List RegWrite) : List Due :=
  if ws = [] then [] else [⟨s.cycle + h, .fixedLatencyWrite s.cord.cid ws⟩]

/-- Instruction i, when the checks of form f pass, issues and reaches the state that f's issue makes of g s. -/
def Does (i : Instr) (f : Form) (g : State → State) : Prop :=
  ∀ s : State, f.check s = none → exec i s = .next (f.issued (g s))

/-- Instruction i issues, and its only effect is that the writes g gives are made h cycles later. -/
def Computes (i : Instr) (f : Form) (h : Nat) (g : Cord → List RegWrite) : Prop :=
  Does i f fun s => { s with agenda := s.agenda ++ fixed s h (g s.cord) }

/-- Writes of a 32-bit result, or of a 64-bit one in a `.64` form, per lane or once (R104). -/
def result (w : Bool) (d : Wr) (x : Cord → Nat → Word) (y : Cord → Nat → Dword) (c : Cord) : List RegWrite :=
  if w then c.writes64 d (y c) else c.writes32 d (x c)

/-- Each address hits the open TLB in its page, and the page allows what the form needs (R146). -/
def Hits (s : State) (n : Need) (vas : List Nat) (ps : List Page) : Prop :=
  vas.length = ps.length ∧
    ∀ x ∈ vas.zip ps, s.lookup s.cord x.1 = some (some x.2) ∧ s.pageFault s.sys n x.1 (some x.2) = none

/-- The state after a translation that hits: the issue slot is held for 2 cycles, unless a walk has just ended (R146). -/
def translated (s : State) : State := if s.cord.walked.isEmpty then s.holdSlot (s.cycle + 2) else s

/-- An event reads a line into eyelet e of cord c for the form of token t: a fill or an erfr of its own, or an acquire that opens the
line (R147, R152). -/
def ReadsInto (c e t : Nat) (i : Event) : Prop :=
  readOf c e i = some t ∨ ∃ k r, i = .acquireComplete c k r ∧ ((e, t) ∈ r.fills ∨ ∃ bs, (e, t, bs) ∈ r.lines)

/-- No read is in flight for eyelet e of cord c. -/
def NoRead (s : State) (c e : Nat) : Prop := ∀ d ∈ s.agenda, ∀ t, ¬ReadsInto c e t d.what

/-- What a cord c sees of the n bytes from an address on: home content, with its own stores that the home has not performed laid over
it, the last one standing (R198, R205). -/
def Sees (s : State) (c a n : Nat) : List Byte :=
  (List.range n).map fun i =>
    (((s.inFlight c (a / 128)).reverse.find? fun k => k.1 == a % 128 + i).map (·.2)).getD (s.homeByte (a + i))

/-- The slot of the focused cord stalls on a resource: the cord stays where it is, and blkst tells of b (R87, R190). -/
def stalled (s : State) (b : Blk) : Out := .next { s with cord := { s.cord with blk := b, stallAt := s.cycle + 1 } }

/-- x is the first of a list, which has the lowest lane first, of which p holds. -/
def First {α : Type} (xs : List α) (p : α → Prop) (x : α) : Prop := ∃ older newer, xs = older ++ x :: newer ∧ p x ∧ ∀ y ∈ older, ¬p y

/-- What becomes of a form, here e, whose accesses of z bytes do not all reach an open, aligned and, for a store, writable place
(R153): a closed eyelet raises eye_closed, with VLA, REASON and its number (R159, R344); a filling one stalls the form; an
access that is misaligned or leaves the line raises eye_offset with the lowest such lane; a store through an eyelet without W raises
perm_fault. Of several such lanes the lowest gives trinfo; for eye_closed and perm_fault that is the model's choice (log entry 63). -/
def TurnedAway (e : Out) (s : State) (as : List (Nat × Nat × Nat)) (z : Nat) (store : Bool) : Prop :=
  let y (x : Nat × Nat × Nat) : Eyelet := s.cord.eye x.2.1
  let closed (x : Nat × Nat × Nat) : Prop := (y x).st = .closed
  let filling (x : Nat × Nat × Nat) : Prop := (y x).st = .filling
  let astray (x : Nat × Nat × Nat) : Prop := x.2.2 % z ≠ 0 ∨ 128 < x.2.2 + z
  let barred (x : Nat × Nat × Nat) : Prop := (y x).w = false
  (∀ x, First as closed x →
    e = .next (s.raise .eyeClosed (BitVec.ofNat 64 ((y x).vla * 128 + reasonCode (y x).reason * 16 + x.2.1)))) ∧
  ((∀ x ∈ as, ¬closed x) → (∃ x ∈ as, filling x) → e = stalled s {}) ∧
  ((∀ x ∈ as, ¬closed x ∧ ¬filling x) → ∀ x, First as astray x → e = .next (s.raise .eyeOffset (BitVec.ofNat 64 x.1))) ∧
  (store = true → (∀ x ∈ as, ¬closed x ∧ ¬filling x ∧ ¬astray x) → ∀ x, First as barred x →
    e = .next (s.raise .permFault (BitVec.ofNat 64 ((y x).vla * 128 + x.2.2))))

/-- The reserved bytes of a motif's pillow that n bytes from an offset on touch: the ring control blocks, in a motif whose launch declares a
ring (R168), and the control bytes of the bobbin area (R246). -/
def Taken (m : Motif) (o n : Nat) : Prop :=
  (m.hasRings = true ∧ o < m.pb - 128 + 128 ∧ m.pb - 128 < o + n) ∨ ∃ x, m.ba = some x ∧ o < x + 0x810 ∧ x + 0x800 < o + n

/-- What becomes of a pillow form, here e, whose lanes name offsets os, lowest lane first, not all of them legal: the first check of R173 that
a lane fails is raised, with the offset of the lowest lane that fails it (R344). -/
def PillowRefused (e : Out) (s : State) (align : Bool) (z : Nat) (os : List Nat) : Prop :=
  let crooked (o : Nat) : Prop := align = true ∧ o % z ≠ 0
  let beyond (o : Nat) : Prop := s.motif.pb < o + z
  (∀ o, First os crooked o → e = .next (s.raise .pilAlign (BitVec.ofNat 64 o))) ∧
  ((∀ o ∈ os, ¬crooked o) → ∀ o, First os beyond o → e = .next (s.raise .pilRange (BitVec.ofNat 64 o))) ∧
  ((∀ o ∈ os, ¬crooked o ∧ ¬beyond o) → ∀ o, First os (fun o => Taken s.motif o z) o →
    e = .next (s.raise .pilRsvd (BitVec.ofNat 64 o)))

/-- Lanes that take part in an eyelet access, each with its eyelet and byte offset: every eyelet is open, and every
access is aligned and inside its line (R153). -/
def Reachable (s : State) (as : List (Nat × Nat × Nat)) (z : Nat) : Prop :=
  ∀ x ∈ as, (s.cord.eye x.2.1).st = .opened ∧ x.2.2 % z = 0 ∧ x.2.2 + z ≤ 128

/-- Cord c runs, and x is its record. -/
def Runs (s : State) (c : Nat) (x : Cord) : Prop := s.cordRec c = some x ∧ x.live = true

/-- An event stands in t's agenda, due no earlier than n cycles after s. -/
def Sends (s t : State) (n : Nat) (e : Event) : Prop := ∃ d ∈ t.agenda, d.what = e ∧ s.cycle + n ≤ d.at_

/-- No adapter of a host that has read a line for an atomic still has to write it. -/
def NoneOwed (s : State) : Prop := ∀ d ∈ s.agenda, ∀ l, adapterWrite l d = false

/-- A holder of a region is told to drain it: a cluster of this device, or one of another (R383). -/
def ToldToDrain (s t : State) (ctx n : Nat) (h : Holder) : Prop :=
  if h.cl < 1000 then Sends s t 1 (.forcedDrain h.cl ctx n 0 []) else ∃ phys, (h.cl / 1000 - 1, .force (h.cl % 1000) phys) ∈ t.outbox

/-- A drain of a whole region is asked for: of each of its holders, or of its master on another device, whose answer is then
awaited (R232, R234, R383). -/
def AsksDrain (s t : State) (ctx : Nat) (r : Region) : Prop :=
  (s.masterAway r.phys = none → ∀ h ∈ r.holders, ToldToDrain s t ctx r.n h) ∧
    ∀ dev, s.masterAway r.phys = some dev → ∃ rid ∈ t.asked, (dev, .tolerate r.phys 0 rid) ∈ t.outbox

/-- What R343 checks of each instruction word before its own causes: the latency class (R49), the vector registers that it names with how
many each spans (R96), whether it is of the matrix role (R13), needs all 32 lanes (R95) or the system privilege (R352), and the unit that it
occupies (R121). An event has no such checks. -/
def formOf : Instr → Option Form
  | .nop | .bra _ | .brk .. | .meet _ | .join _ | .leave _ | .waitk _ | .kset .. | .kmov .. | .kand .. | .kor .. | .kxor .. | .knot .. | .elect ..
  | .exit | .yield | .sleep _ | .winb _ => some { lat := .i4 }
  | .brz a _ | .brnz a _ | .fpcw a | .fpcs a | .fpcc a => some { lat := .i4, vecs := rdVecs a 1 }
  | .jmp a b => some { lat := .i4, vecs := rdVecs a 1 ++ rdVecs b 1 }
  | .ret a => some { lat := .i4, vecs := rdVecs a 2 }
  | .call d _ => some { lat := .i4, vecs := wrVecs d 2 }
  | .kpop d _ | .movl d _ | .fpcr d | .eqry d _ | .tstv d _ | .sealBatch d | .barq d _ | .sracq d _ | .srqry d _ | .bobq d _ =>
    some { lat := .i4, vecs := wrVecs d 1 }
  | .xacq _ | .xrel _ => some { lat := .i4, whole := true }
  | .rte | .close _ | .waitcLd _ | .waitcSt _ | .bara .. | .barw .. | .barx _ | .phadv _ | .idend | .trap _ | .brkpt _ => some { lat := .n }
  | .halt => some { lat := .n, priv := true }
  | .add w d a b | .sub w d a b | .min w d a b | .max w d a b | .minu w d a b | .maxu w d a b | .and w d a b | .or w d a b | .xor w d a b
  | .andn w d a b | .addc w d a b => some { lat := .i4, vecs := wrVecs d (span w) ++ rdVecs a (span w) ++ srcVecs b (span w) }
  | .mul w d a b | .mulh w d a b | .mad w d a b =>
    some { lat := if w then .d10 else .i4, vecs := wrVecs d (span w) ++ rdVecs a (span w) ++ srcVecs b (span w) }
  | .divu w d a b | .divs w d a b | .remu w d a b | .rems w d a b =>
    some { lat := .v, vecs := wrVecs d (span w) ++ rdVecs a (span w) ++ srcVecs b (span w) }
  | .shl w d a b | .shr w d a b | .sar w d a b | .rot w d a b =>
    some { lat := .i4, vecs := wrVecs d (span w) ++ rdVecs a (span w) ++ srcVecs b 1 }
  | .neg w d a | .abs w d a | .not w d a | .popc w d a | .clz w d a | .ctz w d a | .brev w d a | .mov w d a | .addImm w d a _ | .subImm w d a _
  | .minImm w d a _ | .maxImm w d a _ | .minuImm w d a _ | .maxuImm w d a _ | .andImm w d a _ | .orImm w d a _ | .xorImm w d a _
  | .shlImm w d a _ | .shrImm w d a _ | .sarImm w d a _ | .rotImm w d a _ =>
    some { lat := .i4, vecs := wrVecs d (span w) ++ rdVecs a (span w) }
  | .mulImm w d a _ => some { lat := if w then .d10 else .i4, vecs := wrVecs d (span w) ++ rdVecs a (span w) }
  | .bfx w d a b _ | .bfi w d a b _ => some { lat := .i4, vecs := wrVecs d (span w) ++ rdVecs a (span w) ++ rdVecs b 1 }
  | .sel w d a b _ | .cmp w d a b _ | .cmpv w d a b _ => some { lat := .i4, vecs := wrVecs d (span w) ++ rdVecs a (span w) ++ rdVecs b (span w) }
  | .prmt d a b _ => some { lat := .i4, vecs := wrVecs d 1 ++ rdVecs a 1 ++ rdVecs b 1 }
  | .lea d a b _ => some { lat := .i4, vecs := wrVecs d 2 ++ rdVecs a 2 ++ rdVecs b 1 }
  | .fadd d a b | .fsub d a b | .fmul d a b | .ffma d a b | .fmin d a b | .fmax d a b | .hadd2 d a b | .hmul2 d a b | .hfma2 d a b =>
    some { lat := .f6, unit := .vec 1, vecs := wrVecs d 1 ++ rdVecs a 1 ++ srcVecs b 1 }
  | .dadd d a b | .dsub d a b | .dmul d a b | .dfma d a b | .dmin d a b | .dmax d a b =>
    some { lat := .d10, unit := .vec 2, vecs := wrVecs d 2 ++ rdVecs a 2 ++ srcVecs b 2 }
  | .fneg d a | .fabs d a | .fclass d a | .frnd d a _ => some { lat := .f6, unit := .vec 1, vecs := wrVecs d 1 ++ rdVecs a 1 }
  | .fcmp d a b _ => some { lat := .f6, unit := .vec 1, vecs := wrVecs d 1 ++ rdVecs a 1 ++ rdVecs b 1 }
  | .dcmp d a b _ => some { lat := .d10, unit := .vec 2, vecs := wrVecs d 1 ++ rdVecs a 2 ++ rdVecs b 2 }
  | .fdiv d a b => some { lat := .v, vecs := wrVecs d 1 ++ rdVecs a 1 ++ srcVecs b 1 }
  | .frcp d a | .frsq d a | .fsqrt d a | .fexp2 d a | .flog2 d a | .fsin d a | .fcos d a | .ftanh d a | .bsqry d a _ | .feqry d a _ =>
    some { lat := .v, vecs := wrVecs d 1 ++ rdVecs a 1 }
  | .ddiv d a b => some { lat := .v, vecs := wrVecs d 2 ++ rdVecs a 2 ++ rdVecs b 2 }
  | .dsqrt d a => some { lat := .v, vecs := wrVecs d 2 ++ rdVecs a 2 }
  | .shfl d a b => some { lat := .x 12, unit := .net, vecs := wrVecs d 1 ++ rdVecs a 1 ++ srcVecs b 1 }
  | .shfld d a b => some { lat := .x 16, unit := .net, vecs := wrVecs d 1 ++ rdVecs a 1 ++ srcVecs b 1 }
  | .vote d a _ => some { lat := .x 12, unit := .net, vecs := wrVecs d 1 ++ rdVecs a 1 }
  | .redu d a lit => some { lat := .x (if red64 lit then 40 else 32), unit := .net, vecs := wrVecs d (span (red64 lit)) ++ rdVecs a (span (red64 lit)) }
  | .scan d a lit => some { lat := .x (if red64 lit then 40 else 36), unit := .net, vecs := wrVecs d (span (red64 lit)) ++ rdVecs a (span (red64 lit)) }
  | .scfind d a b => some { lat := .x 16, unit := .net, vecs := [(d.val, 1), (a.val, 1)] ++ rdVecs b 1 }
  | .mtchk d a => some { lat := .x 16, unit := .net, vecs := wrVecs d 1 ++ [(a.val, 1)], whole := true }
  | .cmpr d a b => some { lat := .f6, unit := .vec 1, vecs := [(d.val, 1), (a.val, 2), (b.val, 1)], whole := true }
  | .cvt d a b lit | .cvtsc d a b lit | .pack d a b lit | .unpk d a b lit =>
    some { lat := if fmt64 (fld lit 0 4) || fmt64 (fld lit 4 4) then .d10 else .f6,
           vecs := wrVecs d (fmtSpan (fld lit 0 4)) ++ rdVecs a (fmtSpan (fld lit 4 4)) ++ rdVecs b 1 }
  | .tclass d a n => some { lat := .f6, vecs := wrVecs d 1 ++ rdVecs a (fmtSpan n.toNat) }
  | .openLine _ a b | .openAcq _ a b | .opent _ a b _ | .openv _ a b | .flushr a b _ | .disc a b _ | .acol a b _ =>
    some { lat := .v, vecs := rdVecs a 1 ++ rdVecs b 1 }
  | .openf d a b _ => some { lat := .v, vecs := [(d.val, 1), (a.val, 1)] ++ rdVecs b 1 }
  | .erfr _ | .dtld => some { lat := .v }
  | .ldl z d _ _ => some { lat := .l6, vecs := wrVecs d (if z = .d then 2 else 1) }
  | .ldlReg z d _ b => some { lat := .l6, vecs := wrVecs d (if z = .d then 2 else 1) ++ rdVecs b 1 }
  | .ldlx z d a _ => some { lat := .l6, vecs := wrVecs d (if z = .d then 2 else 1) ++ [(a.val, 1)] }
  | .ldlxReg z d a b => some { lat := .l6, vecs := wrVecs d (if z = .d then 2 else 1) ++ [(a.val, 1)] ++ rdVecs b 1 }
  | .ldlAcq z d _ _ => some { lat := .v, vecs := wrVecs d (if z = .d then 2 else 1) }
  | .ldlAcqReg z d _ b => some { lat := .v, vecs := wrVecs d (if z = .d then 2 else 1) ++ rdVecs b 1 }
  | .stl z d _ _ | .stlRel z d _ _ => some { lat := .n, vecs := rdVecs d (if z = .d then 2 else 1) }
  | .stlReg z d _ b | .stlRelReg z d _ b => some { lat := .n, vecs := rdVecs d (if z = .d then 2 else 1) ++ rdVecs b 1 }
  | .stlx z d a _ => some { lat := .n, vecs := rdVecs d (if z = .d then 2 else 1) ++ [(a.val, 1)] }
  | .stlxReg z d a b => some { lat := .n, vecs := rdVecs d (if z = .d then 2 else 1) ++ [(a.val, 1)] ++ rdVecs b 1 }
  | .lock d a b | .launch d a b | .ared d a b _ => some { lat := .v, vecs := wrVecs d 1 ++ rdVecs a 1 ++ rdVecs b 1 }
  | .unlk a b | .prefl a b | .rsig a b _ => some { lat := .n, vecs := rdVecs a 1 ++ rdVecs b 1 }
  | .atom d _ b lit | .atomcas d _ b lit =>
    let w := atomBytes (fld lit 12 4) / 4
    some { lat := .v, vecs := wrVecs d w ++ rdVecs b w ++ ((atomOff lit).map fun r => rdVecs r 1).getD [] }
  | .atomred _ b lit =>
    some { lat := .n, vecs := rdVecs b (atomBytes (fld lit 12 4) / 4) ++ ((atomOff lit).map fun r => rdVecs r 1).getD [] }
  | .waitb a | .feset a _ | .feclr a _ => some { lat := .n, vecs := rdVecs a 1 }
  | .bsdef d _ b _ => some { lat := .v, vecs := wrVecs d 1 ++ rdVecs b 1 }
  | .bsfree a | .bsdrn a | .chain a _ | .post a _ => some { lat := .v, vecs := rdVecs a 1 }
  | .vads d _ b => some { lat := .n, vecs := rdVecs d 1 ++ rdVecs b 1 }
  | .ldp z d a _ | .ldpWfTake z d a _ | .ldpWfPeek z d a _ => some { lat := .v, vecs := wrVecs d (pilBytes z / 4) ++ rdVecs a 1 }
  | .stp z d a _ => some { lat := .n, vecs := rdVecs d (pilBytes z / 4) ++ rdVecs a 1 }
  | .srpub _ b | .srwait _ b | .srfree _ b | .peerarr _ b _ => some { lat := .n, vecs := rdVecs b 1 }
  | .tdset .. => some { lat := .i4, role := some 1, whole := true }
  | .tdmod _ a _ => some { lat := .i4, vecs := rdVecs a 1, role := some 1, whole := true }
  | .tdq d _ _ => some { lat := .i4, vecs := wrVecs d 1, role := some 1, whole := true }
  | .azero _ | .aprom _ | .acvt .. | .mma .. | .mmaAcc .. | .mmas .. | .mmast .. | .amaxu _ | .arsc .. | .adrn .. =>
    some { lat := .v, role := some 1, whole := true }
  | .ald _ a _ => some { lat := .v, vecs := [(a.val, 1)], role := some 1, whole := true }
  | .ast d _ _ => some { lat := .v, vecs := [(d.val, 1)], role := some 1, whole := true }
  | .csrr d lit => some { lat := .i4, vecs := wrVecs d 1, priv := lit.toNat % 2 ^ 12 == 0x020 }
  | .csrw a lit | .csrs a lit | .csrc a lit => some { lat := .i4, vecs := rdVecs a 1, priv := [0x060, 0x061, 0x070, 0x071].contains (lit.toNat % 2 ^ 12) }
  | .tlbi a b => some { lat := .v, vecs := rdVecs a 1 ++ rdVecs b 1, priv := true }
  | _ => none

end Claims

end Sys2Proof
end

