-- ==== Sys2Proof/Certificates/Slice0/Obligations.lean ====
section
/-! DEFINITION. Obligations.lean: what is claimed of the model. An instruction's claim reads: when the checks of its form
pass (FormChecksPassExactly) and its own conditions hold, it issues, and the state is that of its issue (IssueFrame) over the
state that the claim gives. An event's claim is about a state in which that event happens. -/

section

open Sys2Proof Sys2Proof.Machine Sys2Proof.Claims

/-! Integer and address arithmetic. -/

/-- R110: results of the two-operand forms, with B a register or a literal and, where the form exists, an immediate,
zero-extended (R107). The `.64` forms of mul, mulh and mad have latency 10 (R108). -/
def Obligations.TwoOperandIntegerResults : Prop :=
  ∀ (w : Bool) (d : Wr) (a : Rd) (b : Src) (n : Imm),
    let f := binForm .i4 w d a b
    let fm := binForm (if w then .d10 else .i4) w d a b
    let fi : Form := { lat := .i4, vecs := wrVecs d (span w) ++ rdVecs a (span w) }
    let fim : Form := { lat := if w then .d10 else .i4, vecs := wrVecs d (span w) ++ rdVecs a (span w) }
    let h := if w then 10 else 4
    let r (g : (n : Nat) → BitVec n → BitVec n → BitVec n) :=
      result w d (fun c l => g 32 (c.rd a l) (c.src b l)) (fun c l => g 64 (c.rd64 a l) (c.src64 b l))
    let ri (g : (n : Nat) → BitVec n → BitVec n → BitVec n) :=
      result w d (fun c l => g 32 (c.rd a l) (n.setWidth 32)) (fun c l => g 64 (c.rd64 a l) (n.setWidth 64))
    Computes (.add w d a b) f 4 (r fun _ x y => x + y) ∧ Computes (.addImm w d a n) fi 4 (ri fun _ x y => x + y) ∧
    Computes (.sub w d a b) f 4 (r fun _ x y => x - y) ∧ Computes (.subImm w d a n) fi 4 (ri fun _ x y => x - y) ∧
    Computes (.mul w d a b) fm h (r fun _ x y => x * y) ∧ Computes (.mulImm w d a n) fim h (ri fun _ x y => x * y) ∧
    Computes (.mulh w d a b) fm h (r fun n x y => BitVec.ofInt n (x.toInt * y.toInt / 2 ^ n)) ∧
    Computes (.mad w d a b) fm h
      (result w d (fun c l => c.rd (wrRd d) l + c.rd a l * c.src b l) fun c l => c.rd64 (wrRd d) l + c.rd64 a l * c.src64 b l) ∧
    Computes (.min w d a b) f 4 (r fun _ x y => if x.toInt ≤ y.toInt then x else y) ∧
    Computes (.minImm w d a n) fi 4 (ri fun _ x y => if x.toInt ≤ y.toInt then x else y) ∧
    Computes (.max w d a b) f 4 (r fun _ x y => if x.toInt ≤ y.toInt then y else x) ∧
    Computes (.maxImm w d a n) fi 4 (ri fun _ x y => if x.toInt ≤ y.toInt then y else x) ∧
    Computes (.minu w d a b) f 4 (r fun _ x y => if x.toNat ≤ y.toNat then x else y) ∧
    Computes (.minuImm w d a n) fi 4 (ri fun _ x y => if x.toNat ≤ y.toNat then x else y) ∧
    Computes (.maxu w d a b) f 4 (r fun _ x y => if x.toNat ≤ y.toNat then y else x) ∧
    Computes (.maxuImm w d a n) fi 4 (ri fun _ x y => if x.toNat ≤ y.toNat then y else x) ∧
    Computes (.and w d a b) f 4 (r fun _ x y => x &&& y) ∧ Computes (.andImm w d a n) fi 4 (ri fun _ x y => x &&& y) ∧
    Computes (.or w d a b) f 4 (r fun _ x y => x ||| y) ∧ Computes (.orImm w d a n) fi 4 (ri fun _ x y => x ||| y) ∧
    Computes (.xor w d a b) f 4 (r fun _ x y => x ^^^ y) ∧ Computes (.xorImm w d a n) fi 4 (ri fun _ x y => x ^^^ y) ∧
    Computes (.andn w d a b) f 4 (r fun _ x y => x &&& ~~~y) ∧
    Computes (.addc w d a b) f 4 (r fun n x y => if 2 ^ n ≤ x.toNat + y.toNat then 1 else 0)

/-- R111, R112: results of the one-operand forms, and of the shifts and the rotate, by B[7:0] or by an immediate. -/
def Obligations.OneOperandAndShiftResults : Prop :=
  (∀ (w : Bool) (d : Wr) (a : Rd) (lit : Word),
     let f : Form := { lat := .i4, vecs := wrVecs d (span w) ++ rdVecs a (span w) }
     let r (g : (n : Nat) → BitVec n → BitVec n) := result w d (fun c l => g 32 (c.rd a l)) (fun c l => g 64 (c.rd64 a l))
     Computes (.neg w d a) f 4 (r fun _ x => -x) ∧
     Computes (.abs w d a) f 4 (r fun n x => BitVec.ofNat n x.toInt.natAbs) ∧
     Computes (.not w d a) f 4 (r fun _ x => ~~~x) ∧
     Computes (.mov w d a) f 4 (r fun _ x => x) ∧
     Computes (.popc w d a) f 4 (r fun n x => BitVec.ofNat n ((List.range n).filter fun i => x.getLsbD i).length) ∧
     Computes (.clz w d a) f 4 (r fun n x => if x = 0 then BitVec.ofNat n n else BitVec.ofNat n (n - 1 - x.toNat.log2)) ∧
     Computes (.ctz w d a) f 4
       (r fun n x => BitVec.ofNat n (((List.range n).find? fun i => x.getLsbD i).getD n)) ∧
     Computes (.brev w d a) f 4
       (r fun n x => BitVec.ofNat n ((List.range n).map fun i => if x.getLsbD i then 2 ^ (n - 1 - i) else 0).sum) ∧
     Computes (.movl d lit) { lat := .i4, vecs := wrVecs d 1 } 4 (fun c => c.writes32 d fun _ => lit)) ∧
  ∀ (w : Bool) (d : Wr) (a : Rd) (b : Src) (n : Imm),
    let f : Form := { lat := .i4, vecs := wrVecs d (span w) ++ rdVecs a (span w) ++ srcVecs b 1 }
    let fi : Form := { lat := .i4, vecs := wrVecs d (span w) ++ rdVecs a (span w) }
    let r (g : (n : Nat) → BitVec n → Nat → BitVec n) :=
      result w d (fun c l => g 32 (c.rd a l) ((c.src b l).toNat % 256)) (fun c l => g 64 (c.rd64 a l) ((c.src b l).toNat % 256))
    let ri (g : (n : Nat) → BitVec n → Nat → BitVec n) :=
      result w d (fun c l => g 32 (c.rd a l) n.toNat) (fun c l => g 64 (c.rd64 a l) n.toNat)
    let shl (n : Nat) (x : BitVec n) (k : Nat) : BitVec n := if n ≤ k then 0 else BitVec.ofNat n (x.toNat * 2 ^ k)
    let shr (n : Nat) (x : BitVec n) (k : Nat) : BitVec n := if n ≤ k then 0 else BitVec.ofNat n (x.toNat / 2 ^ k)
    let sar (n : Nat) (x : BitVec n) (k : Nat) : BitVec n :=
      if n ≤ k then BitVec.ofInt n (if x.toInt < 0 then -1 else 0) else BitVec.ofInt n (x.toInt / 2 ^ k)
    let rot (n : Nat) (x : BitVec n) (k : Nat) : BitVec n :=
      BitVec.ofNat n (x.toNat * 2 ^ (k % n) + x.toNat / 2 ^ (n - k % n))
    Computes (.shl w d a b) f 4 (r shl) ∧ Computes (.shlImm w d a n) fi 4 (ri shl) ∧
    Computes (.shr w d a b) f 4 (r shr) ∧ Computes (.shrImm w d a n) fi 4 (ri shr) ∧
    Computes (.sar w d a b) f 4 (r sar) ∧ Computes (.sarImm w d a n) fi 4 (ri sar) ∧
    Computes (.rot w d a b) f 4 (r rot) ∧ Computes (.rotImm w d a n) fi 4 (ri rot)

/-- R113, R114: bit fields and the byte permutation. A field bit at or above W reads 0 and is not inserted. -/
def Obligations.BitFieldAndPermuteResults : Prop :=
  ∀ (w : Bool) (d : Wr) (a b : Rd) (lit : Word),
    let f : Form := { lat := .i4, vecs := wrVecs d (span w) ++ rdVecs a (span w) ++ rdVecs b 1 }
    let pos (c : Cord) (l : Nat) : Nat := if bit lit 14 then fld (c.rd b l) 0 8 else fld lit 0 6
    let len (c : Cord) (l : Nat) : Nat := if bit lit 14 then fld (c.rd b l) 8 8 else fld lit 6 7
    let bfx (n : Nat) (c : Cord) (l : Nat) (x : BitVec n) : BitVec n :=
      let y := x.toNat / 2 ^ pos c l % 2 ^ len c l
      if bit lit 13 ∧ 0 < len c l ∧ 2 ^ (len c l - 1) ≤ y then BitVec.ofInt n ((y : Int) - 2 ^ len c l) else BitVec.ofNat n y
    let inserted (n : Nat) (c : Cord) (l : Nat) (x y z : BitVec n) : Prop :=
      ∀ i, i < n → z.getLsbD i = if pos c l ≤ i ∧ i < pos c l + len c l then x.getLsbD (i - pos c l) else y.getLsbD i
    let sel (i : Nat) : Nat := fld lit (4 * i) 4
    let byte (c : Cord) (l i : Nat) : Nat :=
      let x := (if sel i % 8 < 4 then (c.rd a l).toNat else (c.rd b l).toNat) / 2 ^ (8 * (sel i % 4)) % 256
      if 8 ≤ sel i then (if 128 ≤ x then 255 else 0) else x
    Computes (.bfx w d a b lit) f 4 (result w d (fun c l => bfx 32 c l (c.rd a l)) fun c l => bfx 64 c l (c.rd64 a l)) ∧
    (∃ (g : Cord → Nat → Word) (k : Cord → Nat → Dword),
      Computes (.bfi w d a b lit) f 4 (result w d g k) ∧
      ∀ c l, inserted 32 c l (c.rd a l) (c.rd (wrRd d) l) (g c l) ∧ inserted 64 c l (c.rd64 a l) (c.rd64 (wrRd d) l) (k c l)) ∧
    Computes (.prmt d a b lit) { lat := .i4, vecs := wrVecs d 1 ++ rdVecs a 1 ++ rdVecs b 1 } 4 fun c =>
      c.writes32 d fun l =>
        BitVec.ofNat 32 (byte c l 0 + byte c l 1 * 2 ^ 8 + byte c l 2 * 2 ^ 16 + byte c l 3 * 2 ^ 24)

/-- R115, R116: selection, comparison with its mask write, and lea. -/
def Obligations.SelectCompareAndLeaResults : Prop :=
  ∀ (w : Bool) (d : Wr) (a b : Rd) (lit : Word),
    let f : Form := { lat := .i4, vecs := wrVecs d (span w) ++ rdVecs a (span w) ++ rdVecs b (span w) }
    let cond (n : Nat) (x y : BitVec n) : Bool :=
      match fld lit 0 4 with
      | 0 => decide (x = y) | 1 => decide (x ≠ y) | 2 => decide (x.toInt < y.toInt) | 3 => decide (x.toInt ≤ y.toInt)
      | 4 => decide (y.toInt < x.toInt) | 5 => decide (y.toInt ≤ x.toInt) | 6 => decide (x.toNat < y.toNat)
      | 7 => decide (x.toNat ≤ y.toNat) | 8 => decide (y.toNat < x.toNat) | _ => decide (y.toNat ≤ x.toNat)
    let at_ (c : Cord) (l : Nat) : Nat := match d with | .v _ => l | .s _ => lowest c.act
    let t (c : Cord) (l : Nat) : Bool :=
      if w then cond 64 (c.rd64 a (at_ c l)) (c.rd64 b (at_ c l)) else cond 32 (c.rd a (at_ c l)) (c.rd b (at_ c l))
    let mask (c : Cord) : List RegWrite :=
      if fld lit 4 4 = 15 then []
      else [.k (fld lit 4 4) ((c.kreg (fld lit 4 4) &&& ~~~c.act) ||| (maskWhere (t c) &&& c.act))]
    let p (c : Cord) (l : Nat) : Rd := if bit (c.kreg (fld lit 0 4)) l then a else b
    Computes (.sel w d a b lit) f 4 (result w d (fun c l => c.rd (p c l) l) fun c l => c.rd64 (p c l) l) ∧
    Computes (.cmp w d a b lit) f 4
      (fun c => result w d (fun c l => if t c l then 1 else 0) (fun c l => if t c l then 1 else 0) c ++ mask c) ∧
    Computes (.cmpv w d a b lit) f 4 (fun c =>
      result w d (fun c l => if t c l then 0xFFFFFFFF else 0) (fun c l => if t c l then 0xFFFFFFFFFFFFFFFF else 0) c ++ mask c) ∧
    Computes (.lea d a b lit) { lat := .i4, vecs := wrVecs d 2 ++ rdVecs a 2 ++ rdVecs b 1 } 4 fun c =>
      c.writes64 d fun l =>
        let x : Int := if bit lit 3 then (c.rd b l).toInt else (c.rd b l).toNat
        let disp : Int := if 2 ^ 23 ≤ lit.toNat / 256 then ((lit.toNat / 256 : Nat) : Int) - 2 ^ 24 else ((lit.toNat / 256 : Nat) : Int)
        BitVec.ofInt 64 ((c.rd64 a l).toNat + x * 2 ^ (lit.toNat % 8) + disp)

/-- R117, R118: a divide that its unit can accept issues; the unit is busy for 8 cycles, or 16 in a `.64` form, and after
24 cycles, or 40, the quotients or remainders are written and the flag falls, in one event.
That the unit is busy for the spacing of the divide it has just taken is the model's reading: log entry 52. -/
def Obligations.DivideResultsAndTiming : Prop :=
  ∀ (w : Bool) (d : Wr) (a : Rd) (b : Src),
    let f := binForm .v w d a b
    let r (g : (n : Nat) → BitVec n → BitVec n → BitVec n) :=
      result w d (fun c l => g 32 (c.rd a l) (c.src b l)) (fun c l => g 64 (c.rd64 a l) (c.src64 b l))
    let takes (i : Instr) (g : (n : Nat) → BitVec n → BitVec n → BitVec n) : Prop :=
      ∀ s : State, f.check s = none → SMap.get 0 (s.coreOf s.cord.core).divFree s.cord.slot ≤ s.cycle →
        exec i s = .next (f.issued
          { State.onCore s.cord.core
              (fun k => { k with divFree := SMap.set 0 k.divFree s.cord.slot (s.cycle + if w then 16 else 8) }) s with
            agenda := s.agenda ++
              [⟨s.cycle + if w then 40 else 24, .divideComplete s.cord.cid s.cord.flag (r g s.cord)⟩] })
    takes (.divu w d a b) (fun n x y => if y = 0 then BitVec.allOnes n else BitVec.ofNat n (x.toNat / y.toNat)) ∧
    takes (.remu w d a b) (fun n x y => if y = 0 then x else BitVec.ofNat n (x.toNat - y.toNat * (x.toNat / y.toNat))) ∧
    takes (.divs w d a b) (fun n x y =>
      if y = 0 then BitVec.allOnes n
      else if x.toInt = -2 ^ (n - 1) ∧ y.toInt = -1 then x else BitVec.ofInt n (x.toInt.tdiv y.toInt)) ∧
    takes (.rems w d a b) (fun n x y =>
      if y = 0 then x
      else if x.toInt = -2 ^ (n - 1) ∧ y.toInt = -1 then 0 else BitVec.ofInt n (x.toInt - y.toInt * x.toInt.tdiv y.toInt)) ∧
    ∀ (s : State) (c : Nat) (fl : Flag) (ws : List RegWrite), s.now = some (.divideComplete c fl ws) →
      exec .divideComplete s = .next (State.onCord c (fun x => (x.applyAll ws).flagDown fl.val) s)

/-! Issue, control forms and clauses. -/

/-- R13, R48, R81, R95, R96, R121, R343, R346, R352: the checks that a form passes before its own causes, in their order, and what a form that
fails one does: a flag to raise, owned registers, the cord's role, all 32 lanes and privilege are each tested only when what stands before
them holds, and the first that fails is raised with its trinfo; then a full flag, a busy vector unit or a busy exchange network stalls the
form. Each form that fails a check has no other effect. The privileged forms are halt, tlbi, the read of blkst and the writes of the
control registers of a context: each traps priv in a context without SYS. -/
def Obligations.FormChecksPassExactly : Prop :=
  (∀ (f : Form) (s : State),
    let c := s.cord
    let flagged := f.lat = .v → c.slotFlag ≠ none
    let owned := ∀ x ∈ f.vecs, c.wb + x.1 + x.2 ≤ c.regs + 16 * c.xblk
    let fit := ∀ r, f.role = some r → r = c.role
    let full := f.whole = true → c.act = 0xFFFFFFFF
    let allowed := f.priv = true → (s.ctxOf c.ctx).sys = true
    let idle := (f.lat = .v → c.flagOf c.flag.val < 63) ∧
      (∀ n, f.unit = .vec n → SMap.get 0 (s.coreOf c.core).vecFree c.slot ≤ s.cycle) ∧
      (f.unit = .net → SMap.get 0 (s.coreOf c.core).xchFree c.slot ≤ s.cycle)
    (f.check s = none ↔ flagged ∧ owned ∧ fit ∧ full ∧ allowed ∧ idle) ∧
    (¬flagged → f.check s = some (.trap .flagAbsent c.word)) ∧
    (flagged → ¬owned → f.check s = some (.trap .regIllegal c.word)) ∧
    (flagged → owned → ¬fit → f.check s = some (.trap .roleBad c.word)) ∧
    (flagged → owned → fit → ¬full → f.check s = some (.trap .convIllegal (c.act.setWidth 64))) ∧
    (flagged → owned → fit → full → ¬allowed → f.check s = some (.trap .priv c.word)) ∧
    (flagged → owned → fit → full → allowed → ¬idle → f.check s = some (.stall {} s))) ∧
  (∀ c : Cord, let set := c.cl.hdr.toNat / 2 ^ (if c.cl.slot < 4 then 13 else 9) % 16
    (set = 15 → c.slotFlag = none) ∧ (set < 12 → ∃ n, c.slotFlag = some n ∧ n.val = set)) ∧
  (∀ i : Instr, i.enc.isSome = true ↔ ∃ f, formOf i = some f) ∧
  (∀ (i : Instr) (f : Form) (s : State), formOf i = some f →
    (∀ k info, f.check s = some (.trap k info) → exec i s = .next (s.raise k info)) ∧
    (∀ b u, f.check s = some (.stall b u) → exec i s = stalled s {}) ∧
    (f.priv = true ↔ i = .halt ∨ (∃ a b, i = .tlbi a b) ∨ (∃ d lit, i = .csrr d lit ∧ lit.toNat % 2 ^ 12 = 0x020) ∨
      ∃ a lit, (i = .csrw a lit ∨ i = .csrs a lit ∨ i = .csrc a lit) ∧ lit.toNat % 2 ^ 12 ∈ [0x060, 0x061, 0x070, 0x071]) ∧
    (f.priv = true → Form.check { f with priv := false } s = none → (s.ctxOf s.cord.ctx).sys = false →
      exec i s = .next (s.raise .priv s.cord.word)))

/-- R81, R83, R121: what the issue of a form changes, and nothing else: the clause moves to its next slot with the cycle and hold of this
issue, the flag of a V form rises by one, the counts of R88 start again; on the cord's core the issue slot is taken for the cycle, no cord
holds it, and the vector unit or the exchange network is taken if the form uses it. Every other core, and every other slot of this one, is
as before. -/
def Obligations.IssueFrame : Prop :=
  ∀ (f : Form) (s : State),
    let k := s.cord.core
    let q := s.cord.slot
    let x := s.coreOf k
    let y := (f.issued s).coreOf k
    (∃ fl : SMap Nat,
      f.issued s = State.onCore k
        (fun x => { x with
          slotUsed := SMap.set 0 x.slotUsed q (s.cycle + 1), holder := SMap.set 0 x.holder q 0,
          vecFree := (match f.unit with | .vec n => SMap.set 0 x.vecFree q (s.cycle + n) | _ => x.vecFree),
          xchFree := (match f.unit with | .net => SMap.set 0 x.xchFree q (s.cycle + 4) | _ => x.xchFree) })
        { s with
          cord := { s.cord with
            cl := { s.cord.cl with slot := s.cord.cl.slot + 1, lastC := s.cycle, lastH := f.lat.hold, any := true },
            f := fl, count := 0, urgent := false, issuedAt := s.cycle, blk := {}, walked := [] } } ∧
      ∀ x, SMap.get 0 fl x = s.cord.flagOf x + if f.lat = .v ∧ x = s.cord.flag.val then 1 else 0) ∧
    (∀ j ≠ k, (f.issued s).coreOf j = s.coreOf j) ∧
    (∀ i ≠ q, SMap.get 0 y.slotUsed i = SMap.get 0 x.slotUsed i ∧ SMap.get 0 y.holder i = SMap.get 0 x.holder i ∧
      SMap.get 0 y.vecFree i = SMap.get 0 x.vecFree i ∧ SMap.get 0 y.xchFree i = SMap.get 0 x.xchFree i) ∧
    SMap.get 0 y.slotUsed q = s.cycle + 1 ∧ SMap.get 0 y.holder q = 0 ∧
    (∀ n, f.unit = .vec n → SMap.get 0 y.vecFree q = s.cycle + n) ∧ (f.unit = .net → SMap.get 0 y.xchFree q = s.cycle + 4) ∧
    y.divFree = x.divFree ∧ y.sfuFree = x.sfuFree ∧ y.tlb = x.tlb ∧ y.tabs = x.tabs ∧ y.tq = x.tq ∧ y.xreqs = x.xreqs ∧
    y.journal = x.journal

/-- R85, R86, R98, R99, R102, R349: a transfer form, the first of its clause, records its decision for the clause end. The destinations of
jmp and ret are multiples of 4; those of the literal branches keep the upper half of the header's address. A second transfer form of a clause
raises ctl_dup, and a destination that is not a multiple of 4 raises pc_align with the address, so that neither decides anything. Only the destinations of active lanes that
take the branch count: an untaken brk, brz or brnz uses no address, and decides whatever its literal is. rte
outside a handler, or without exactly its threads, raises rte_bad. -/
def Obligations.TransferForms : Prop :=
  (∀ (k : Msk) (a b : Rd) (d : Wr) (lit : Word) (n : Imm),
     let decides (i : Instr) (vs : List (Nat × Nat)) (ok : State → Prop) (xf : Cord → Transfer) : Prop :=
       ∀ s : State, Form.check { lat := .i4, vecs := vs } s = none → s.cord.cl.xf = .none → ok s →
         exec i s = .next (Form.issued { lat := .i4, vecs := vs }
           { s with cord := { s.cord with cl := { s.cord.cl with xf := xf s.cord } } })
     let goTo (c : Cord) (p : Nat → Bool) (dest : Nat → Dword) : Transfer := .jump (((lanesOf c.act).filter p).map fun l => (l, dest l))
     let near (c : Cord) (_ : Nat) : Dword := hi32 c.cl.hdrA ++ lit
     let okLit (p : Cord → Nat → Bool) (s : State) : Prop :=
       (∃ l < 32, bit s.cord.act l = true ∧ p s.cord l = true) → lit.toNat % 4 = 0
     let branches (i : Instr) (vs : List (Nat × Nat)) (p : Cord → Nat → Bool) : Prop :=
       decides i vs (okLit p) fun c => goTo c (p c) (near c)
     branches (.bra lit) [] (fun _ _ => true) ∧
     branches (.brk k lit) [] (fun c l => bit (c.kreg k.val) l) ∧
     branches (.brz a lit) (rdVecs a 1) (fun c l => decide (c.rd a l = 0)) ∧
     branches (.brnz a lit) (rdVecs a 1) (fun c l => decide (c.rd a l ≠ 0)) ∧
     decides (.jmp a b) (rdVecs a 1 ++ rdVecs b 1) (fun s => ∀ l < 32, bit s.cord.act l = true → (s.cord.rd a l).toNat % 4 = 0)
       (fun c => goTo c (fun _ => true) fun l => c.rd b l ++ c.rd a l) ∧
     decides (.ret a) (rdVecs a 2) (fun s => ∀ l < 32, bit s.cord.act l = true → (s.cord.rd64 a l).toNat % 4 = 0)
       (fun c => goTo c (fun _ => true) fun l => c.rd64 a l) ∧
     decides .exit [] (fun _ => True) (fun _ => .exit) ∧
     decides .yield [] (fun _ => True) (fun _ => .yield) ∧
     decides (.sleep n) [] (fun _ => True) (fun _ => .sleep n.toNat) ∧
     decides (.waitk k) [] (fun _ => True) (fun _ => .waitk k.val) ∧
     (∀ s : State, Form.check { lat := .i4, vecs := wrVecs d 2 } s = none → s.cord.cl.xf = .none → okLit (fun _ _ => true) s →
       exec (.call d lit) s = .next (Form.issued { lat := .i4, vecs := wrVecs d 2 }
         { s with
           agenda := s.agenda ++ fixed s 4 (s.cord.writes64 d fun _ =>
             s.cord.cl.hdrA + BitVec.ofNat 64 (4 + (s.cord.cl.words.map fun w => if w.2.isSome then 8 else 4).sum)),
           cord := { s.cord with cl := { s.cord.cl with xf := goTo s.cord (fun _ => true) (near s.cord) } } })) ∧
     ∀ s : State, Form.check { lat := .n } s = none → s.cord.cl.xf = .none → s.cord.trap.v = true →
       s.cord.act = s.cord.trap.tract →
       exec .rte s = .next (Form.issued { lat := .n }
         { s with cord := { s.cord with cl := { s.cord.cl with xf := .rte } } })) ∧
  ∀ (k : Msk) (a b : Rd) (d : Wr) (lit : Word) (n : Imm) (s : State),
    let c := s.cord
    let near : Dword := hi32 c.cl.hdrA ++ lit
    let free (vs : List (Nat × Nat)) : Prop := Form.check { lat := .i4, vecs := vs } s = none
    let misaligned (i : Instr) : Prop := exec i s = .next (s.raise .pcAlign near)
    let lowestBad (g : Nat → Dword) (l : Nat) : Prop :=
      l < 32 ∧ bit c.act l = true ∧ (g l).toNat % 4 ≠ 0 ∧ ∀ j < l, bit c.act j = true → (g j).toNat % 4 = 0
    (c.cl.xf ≠ .none →
      (∀ x ∈ [(Instr.bra lit, []), (.brk k lit, []), (.brz a lit, rdVecs a 1), (.brnz a lit, rdVecs a 1),
              (.jmp a b, rdVecs a 1 ++ rdVecs b 1), (.call d lit, wrVecs d 2), (.ret a, rdVecs a 2), (.exit, []), (.yield, []),
              (.sleep n, []), (.waitk k, [])],
        free x.2 → exec x.1 s = .next (s.raise .ctlDup c.word)) ∧
      (Form.check { lat := .n } s = none → c.trap.v = true → c.act = c.trap.tract → exec .rte s = .next (s.raise .ctlDup c.word))) ∧
    (Form.check { lat := .n } s = none → c.trap.v = false ∨ c.act ≠ c.trap.tract → exec .rte s = .next (s.raise .rteBad c.word)) ∧
    (c.cl.xf = .none → c.act ≠ 0 → lit.toNat % 4 ≠ 0 →
      (free [] → misaligned (.bra lit)) ∧ (free (wrVecs d 2) → misaligned (.call d lit)) ∧
      ((∃ l < 32, bit c.act l = true ∧ bit (c.kreg k.val) l = true) → free [] → misaligned (.brk k lit)) ∧
      ((∃ l < 32, bit c.act l = true ∧ c.rd a l = 0) → free (rdVecs a 1) → misaligned (.brz a lit)) ∧
      ((∃ l < 32, bit c.act l = true ∧ c.rd a l ≠ 0) → free (rdVecs a 1) → misaligned (.brnz a lit))) ∧
    (c.cl.xf = .none → ∀ l,
      (lowestBad (fun l => c.rd b l ++ c.rd a l) l → free (rdVecs a 1 ++ rdVecs b 1) →
        exec (.jmp a b) s = .next (s.raise .pcAlign (c.rd b l ++ c.rd a l))) ∧
      (lowestBad (c.rd64 a) l → free (rdVecs a 2) → exec (.ret a) s = .next (s.raise .pcAlign (c.rd64 a l))))

/-- R94, R101, R102: nop has no effect, and a mask register is written whole, with latency 4. -/
def Obligations.MaskRegisterResults : Prop :=
  ∀ (d a b : Msk) (v : Wr) (lit : Word),
    let m (i : Instr) (g : Cord → Word) : Prop := Computes i { lat := .i4 } 4 fun c => [.k d.val (g c)]
    Does .nop { lat := .i4 } id ∧
    m (.kset d lit) (fun c => lit &&& c.act) ∧
    m (.kmov d a) (fun c => c.kreg a.val) ∧
    m (.kand d a b) (fun c => c.kreg a.val &&& c.kreg b.val) ∧
    m (.kor d a b) (fun c => c.kreg a.val ||| c.kreg b.val) ∧
    m (.kxor d a b) (fun c => c.kreg a.val ^^^ c.kreg b.val) ∧
    m (.knot d a) (fun c => ~~~c.kreg a.val) ∧
    (∃ g : Cord → Word, m (.elect d a) g ∧ ∀ (c : Cord) (l : Nat), bit (g c) l = true ↔
      bit (c.kreg a.val &&& c.act) l = true ∧ ∀ j < l, bit (c.kreg a.val &&& c.act) j = false) ∧
    Computes (.kpop v a) { lat := .i4, vecs := wrVecs v 1 } 4 fun c =>
      c.writes32 v fun _ => BitVec.ofNat 32 ((List.range 32).filter fun l => (c.kreg a.val).getLsbD l).length

/-- R91, R100: meet sets or clears the meeting address of the active threads, and a literal that is not a multiple of 4 raises pc_align with
the address; join and leave set the join mask and test the meeting release. That test lets a held thread go exactly when each thread of
the join mask has exited or is held at the same address; its meeting address is then cleared, and no other thread changes. Which
threads a clause end holds is in ClauseEndsAndWaking. -/
def Obligations.MeetingForms : Prop :=
  ∀ (k : Msk) (lit : Word),
    let f : Form := { lat := .i4 }
    (lit.toNat % 4 = 0 → Does (.meet lit) f fun s => { s with cord := s.cord.mapThreads s.cord.act fun _ t =>
      { t with mr := if lit = 0 then 0 else hi32 s.cord.cl.hdrA ++ lit } }) ∧
    Does (.join k) f (fun s => { s with cord := { s.cord with jm := s.cord.kreg k.val }.meetRelease }) ∧
    Does (.leave k) f (fun s => { s with cord := { s.cord with jm := s.cord.jm &&& ~~~s.cord.kreg k.val }.meetRelease }) ∧
    (lit.toNat % 4 ≠ 0 → ∀ s : State, f.check s = none → exec (.meet lit) s = .next (s.raise .pcAlign (hi32 s.cord.cl.hdrA ++ lit))) ∧
    ∀ c : Cord, c.meetRelease = { c with threads := c.meetRelease.threads } ∧ ∀ l < 32,
      let x := c.thread l
      let gathered := ∀ j < 32, bit c.jm j = true → (c.thread j).live = false ∨ ((c.thread j).st = .held ∧ (c.thread j).pc = x.pc)
      (x.st = .held → gathered → c.meetRelease.thread l = { x with st := .ready, mr := 0 }) ∧
      (¬(x.st = .held ∧ gathered) → c.meetRelease.thread l = x)

/-- R97, R103: winb moves the window at once; xacq takes blocks that are free, or that were granted to it, and they read 0; xrel
gives the highest blocks back, of which none can be granted in the same cycle; a queued request is granted whole once its blocks are free. -/
def Obligations.WindowAndBlockForms : Prop :=
  ∀ (n : Imm) (s : State),
    (n.toNat ≤ 12 → Form.check { lat := .i4 } s = none →
      exec (.winb n) s = .next (Form.issued { lat := .i4 } { s with cord := { s.cord with wb := 16 * n.toNat } })) ∧
    (Form.check { lat := .i4, whole := true } s = none → 0 < n.toNat → s.cord.xblk + n.toNat ≤ s.cord.xmax →
      (s.cord.xgrant = n.toNat ∨ (s.coreOf s.cord.core).xreqs = [] ∧ n.toNat ≤ s.poolFree s.cord.core) →
      exec (.xacq n) s = .next (Form.issued { lat := .i4, whole := true } { s with cord := s.cord.takeBlocks n.toNat }) ∧
      (s.cord.takeBlocks n.toNat).xblk = s.cord.xblk + n.toNat ∧
      ∀ p l, s.cord.own ≤ p → p < s.cord.own + 16 * n.toNat → l < 32 →
        SMap.get 0 (s.cord.takeBlocks n.toNat).v (p * 32 + l) = 0) ∧
    (Form.check { lat := .i4, whole := true } s = none → 0 < n.toNat → n.toNat ≤ s.cord.xblk →
      ∃ v t, exec (.xrel n) s = .next t ∧
        t = Form.issued { lat := .i4, whole := true } { State.onCore s.cord.core (fun k => { k with
            xrelAt := s.cycle + 1, xrelN := (if (s.coreOf s.cord.core).xrelAt = s.cycle + 1 then (s.coreOf s.cord.core).xrelN else 0) + n.toNat }) s with
          cord := { s.cord with xblk := s.cord.xblk - n.toNat, v := v } } ∧
        t.poolFree s.cord.core ≤ s.poolFree s.cord.core ∧
        ∀ p l, l < 32 → SMap.get 0 v (p * 32 + l) =
          if p < s.cord.own - 16 * n.toNat then SMap.get 0 s.cord.v (p * 32 + l) else 0) ∧
    ∀ k c m rest, s.now = some (.xacqGrant k) → (s.coreOf k).xreqs = (c, m) :: rest → (s.findCord c).isSome = true →
      m ≤ s.poolFree k →
      exec .xacqGrant s = .next (State.onCord c (fun x => { x with xgrant := m })
        (State.onCore k (fun x => { x with xreqs := rest }) s))

/-- R54, R82, R85, R90, R349, R360: a group whose clause starts has every flag that the header's WAIT field names at zero, unless it only
resumes past the clause's last slot, and from then on the cord executes that clause from its slot with the group as ACT: exactly the ready
threads, none of them parked, that stand at its header, which is the one that rotation chose (R90: see ClauseEndsAndWaking); after rte, or
after a save, the threads of the trapped or saved group instead, where it stands inside the clause, and of a clause of which only a decision
is left that decision alone, without a fetch. P becomes the group's lowest lane. A header that has to wait is
kept with its word and the decode table of its fetch, which its clause uses (R54).
What the spec leaves open there is as the model chose it: log entry 34; that a header that waits is kept with its word and its table:
log entry 51. -/
def Obligations.ClauseStartsOnWait : Prop :=
  (∀ (s : State) (c : Nat) (x : Cord) (pc : Dword) (h : Word) (tab : Option (List Word)), s.now = some (.clauseStart c) →
    s.findCord c = some x → s.tryStart x = .fetch pc h tab →
    exec .clauseStart s = .next (State.onCord c (fun x => { x with fetched := some (pc, h, tab) }) s) ∧
      ∃ f < 12, hdrWait h f = true ∧ x.flagOf f ≠ 0) ∧
  ∀ (s : State) (c : Nat) (x : Cord) (cl : Clause), s.now = some (.clauseStart c) → s.findCord c = some x →
    s.tryStart x = .go cl →
    (∃ t, exec .clauseStart s = .next t ∧ t = State.onCord c (fun x =>
      { x with cl := cl, rotP := lowest cl.act, chosen := .none, resume := .none, refetch := false, fetched := .none,
               skipBrk := false, blk := {}, count := 0, urgent := false }) s) ∧
    cl.on = true ∧ cl.act ≠ 0 ∧ hdrOk cl.hdr = true ∧
    (cl.slot ≤ hdrCount cl.hdr → ∀ f < 12, hdrWait cl.hdr f = true → x.flagOf f = 0) ∧
    (cl.fall = none → ∀ h tab, x.fetched = some (cl.hdrA, h, tab) → cl.hdr = h ∧ cl.tab = tab) ∧
    let ready (l : Nat) : Prop := (x.thread l).st = .ready ∧ (x.thread l).parked = false
    let goesOn (slot : Nat) (xf : Transfer) (tract : Word) (hdr ft : Dword) : Prop :=
      cl.hdrA = hdr ∧ cl.xf = xf ∧ (slot < 8 → cl.slot = slot ∧ cl.fall = none) ∧
      (slot = 8 → xf = .none → cl.slot = hdrCount cl.hdr + 1 ∧ cl.fall = none) ∧
      (slot = 8 → xf ≠ .none → hdrCount cl.hdr < cl.slot ∧ cl.ft = ft) ∧
      ∀ l < 32, bit cl.act l = true ↔ ready l ∧ if slot = 0 ∧ xf = .none then (x.thread l).pc = hdr else bit tract l = true
    (x.refetch = false → x.resume = none → x.chosen = some cl.hdrA ∧ cl.slot = 0 ∧ cl.xf = .none ∧ cl.fall = none ∧
      ∀ l < 32, bit cl.act l = true ↔ ready l ∧ (x.thread l).pc = cl.hdrA) ∧
    (x.refetch = false → ∀ r, x.resume = some r → r.slot ≤ 8 → goesOn r.slot r.xf r.tract r.hdr r.ft) ∧
    (x.refetch = true →
      goesOn (if hdrCount x.cl.hdr < x.cl.slot then 8 else x.cl.slot) x.cl.xf x.cl.act x.cl.hdrA x.cl.ft)

/-- R85, R88, R90, R91, R92, R102: at the end of a clause each active thread goes where the clause decided: to its own destination, to the
fall-through, out of the program, to sleep, or, of waitk, to wait on the mask register. A thread of the join mask that stands at its meeting
address is then held, unless all of the mask have met, which lets them go with no meeting address; the threads that wait on a mask register
become ready, all at once, when each thread that it names has exited or waits on it, and so they do when the register is written.
Between clauses the cord comes to the ready group whose lowest lane is the least one above P, or the least of all. yield makes the cord
the youngest, with the number of this step. A sleeping thread's wake-up is due after 64 cycles per unit, and wakes it; a cord that was not
chosen for 48 counted cycles is urgent. -/
def Obligations.ClauseEndsAndWaking : Prop :=
  (∀ (s : State) (c l : Nat) (x : Cord), s.now = some (.clauseEnd c) → s.cordRec c = some x → s.clauseOver x = true →
     l < 32 → bit x.cl.act l = true →
     ∃ t y, exec .clauseEnd s = .next t ∧ t.cordRec c = some y ∧
       (∀ ds, x.cl.xf = .jump ds → (y.thread l).pc = ((ds.find? fun d => d.1 == l).map (·.2)).getD x.cl.ft) ∧
       (x.cl.xf = .none ∨ x.cl.xf = .yield → (y.thread l).pc = x.cl.ft) ∧
       (∀ k, x.cl.xf = .waitk k → (y.thread l).pc = x.cl.ft) ∧
       (x.cl.xf = .exit → (y.thread l).st = .exited ∧ bit y.jm l = false) ∧
       ∀ n, x.cl.xf = .sleep n → 0 < n → (y.thread l).pc = x.cl.ft ∧ (y.thread l).st = .sleeping (s.cycle + 64 * n) ∧
         (⟨s.cycle + 64 * n, .sleepExpiry c l⟩ : Due) ∈ t.agenda) ∧
  (∀ (s : State) (c : Nat) (x : Cord), s.now = some (.clauseEnd c) → s.cordRec c = some x → s.clauseOver x = true →
     x.resume = none → x.chosen = none → x.cl.xf ≠ .rte → ∃ t y, exec .clauseEnd s = .next t ∧ t.cordRec c = some y ∧
       let ready (l : Nat) : Prop := l < 32 ∧ (y.thread l).st = .ready ∧ (y.thread l).parked = false
       let leads (l : Nat) : Prop := ready l ∧ ∀ j < l, ready j → (y.thread j).pc ≠ (y.thread l).pc
       (∀ pc, y.chosen = some pc ↔ ∃ l, leads l ∧ (y.thread l).pc = pc ∧
         ((x.rotP < l ∧ ∀ j, leads j → x.rotP < j → l ≤ j) ∨ ((∀ j, leads j → j ≤ x.rotP) ∧ ∀ j, leads j → l ≤ j))) ∧
       (x.cl.xf = .yield → y.age = s.fresh + 1 ∧ y.stallAt = s.cycle + 2 ∧ ∀ z ∈ s.cord :: s.cords, z.age ≤ s.fresh → z.age < y.age) ∧
       (x.cl.xf ≠ .yield → y.age = x.age)) ∧
  (∀ (s : State) (c : Nat) (x : Cord), s.now = some (.clauseEnd c) → s.cordRec c = some x → s.clauseOver x = true →
     x.resume = none → x.trap.v = false →
     let pc (l : Nat) : Dword :=
       if bit x.cl.act l then (match x.cl.xf with | .jump ds => ((ds.find? fun d => d.1 == l).map (·.2)).getD x.cl.ft | _ => x.cl.ft)
       else (x.thread l).pc
     ∃ t y, exec .clauseEnd s = .next t ∧ t.cordRec c = some y ∧
       ((x.cl.xf = .none ∨ x.cl.xf = .yield ∨ ∃ ds, x.cl.xf = .jump ds) → (∀ l < 32, ∀ k, (x.thread l).st ≠ .waiting k) →
         let old (l : Nat) : Thread := x.thread l
         let stands (l : Nat) : Prop := (old l).st = .held ∨
           ((old l).st = .ready ∧ (old l).parked = false ∧ (old l).mr ≠ 0 ∧ pc l = (old l).mr ∧ bit x.jm l = true)
         ∀ l < 32,
           let met := ∀ j < 32, bit x.jm j = true → (old j).live = false ∨ (stands j ∧ pc j = pc l)
           (y.thread l).pc = pc l ∧ (stands l → met → (y.thread l).st = .ready ∧ (y.thread l).mr = 0) ∧
           (stands l → ¬met → (y.thread l).st = .held ∧ (y.thread l).mr = (old l).mr) ∧
           (¬stands l → (y.thread l).st = (old l).st ∧ (y.thread l).mr = (old l).mr)) ∧
       ((∀ ds, x.cl.xf ≠ .jump ds) → (∀ n, x.cl.xf ≠ .sleep n) → x.cl.xf ≠ .rte →
         (∀ l < 32, (x.thread l).mr = 0 ∧ (x.thread l).st ≠ .held) →
         let st (l : Nat) : TState :=
           if bit x.cl.act l then (match x.cl.xf with | .waitk k => .waiting k | .exit => .exited | _ => (x.thread l).st) else (x.thread l).st
         ∀ l < 32,
           (∀ k < 12, st l = .waiting k →
             let all := ∀ j < 32, bit (x.kreg k) j = true → st j = .exited ∨ st j = .waiting k
             (all → (y.thread l).st = .ready) ∧ (¬all → (y.thread l).st = .waiting k)) ∧
           ((∀ k, st l ≠ .waiting k) → (y.thread l).st = st l))) ∧
  (∀ (s : State) (c : Nat) (x : Cord) (ws : List RegWrite), s.now = some (.fixedLatencyWrite c ws) → s.findCord c = some x →
     (∃ w ∈ ws, ∃ k v, w = .k k v) → x.cl.on = true ∨ (∀ l < 32, (x.thread l).mr = 0 ∧ (x.thread l).st ≠ .held) →
     ∃ t y, exec .fixedLatencyWrite s = .next t ∧ t.findCord c = some y ∧ ∀ l < 32, ∀ k < 12, (x.thread l).st = .waiting k →
       let all := ∀ j < 32, bit ((x.applyAll ws).kreg k) j = true → (x.thread j).st = .exited ∨ (x.thread j).st = .waiting k
       (all → (y.thread l).st = .ready) ∧ (¬all → (y.thread l).st = .waiting k)) ∧
  (∀ (s : State) (c l u : Nat) (x : Cord), s.now = some (.sleepExpiry c l) → s.findCord c = some x → l < 32 →
    (x.thread l).st = .sleeping u → u ≤ s.cycle →
    ∃ t y, exec .sleepExpiry s = .next t ∧ t.findCord c = some y ∧ ((y.thread l).st = .ready ∨ (y.thread l).st = .held)) ∧
  ∀ (s : State) (c : Nat) (x : Cord), s.now = some (.cordUrgent c) → s.findCord c = some x → 48 ≤ x.count →
    ∃ t, exec .cordUrgent s = .next t ∧ t.findCord c = some { x with urgent := true }

/-- R83, R84, R96, R104: when the writes of a fixed-latency form are due they reach the registers of their cord, in their order; memory and
every other cord stay as they are; the writes of a 32-bit result are what a later read of D gives in every lane they were made for, and no
other register changes. Writes land in the order of their cycles, those of mask registers too, so that of two clauses' writes of one
mask register the one due last stands: the model's reading, log entry 52. -/
def Obligations.ResultsReachTheirRegisters : Prop :=
  (∀ (s : State) (c : Nat) (x : Cord) (ws : List RegWrite), s.now = some (.fixedLatencyWrite c ws) → s.findCord c = some x →
     ∃ t y, exec .fixedLatencyWrite s = .next t ∧ t.findCord c = some y ∧
       y.v = (x.applyAll ws).v ∧ y.s = (x.applyAll ws).s ∧ y.k = (x.applyAll ws).k ∧ y.tds = (x.applyAll ws).tds ∧
       y.trap = x.trap ∧ y.fpctl = x.fpctl ∧ y.f = x.f ∧ y.eyes = x.eyes ∧ y.wb = x.wb ∧
       t.mem = s.mem ∧ ∀ d, d ≠ c → t.findCord d = s.findCord d) ∧
  ∀ (c : Cord) (g : Nat → Word),
    (∀ (n : Vec) (l : Nat), l < 32 →
      (c.applyAll (c.writes32 (.v n) g)).vreg n.val l = if bit c.act l then g l else c.vreg n.val l) ∧
    (∀ (n : Vec) (p l : Nat), l < 32 → p ≠ c.wb + n.val →
      SMap.get 0 (c.applyAll (c.writes32 (.v n) g)).v (p * 32 + l) = SMap.get 0 c.v (p * 32 + l)) ∧
    (∀ (n : Vec), (c.applyAll (c.writes32 (.v n) g)).s = c.s ∧ (c.applyAll (c.writes32 (.v n) g)).k = c.k) ∧
    ∀ (n m : Sreg), (c.applyAll (c.writes32 (.s n) g)).sreg m.val = (if m = n then g (lowest c.act) else c.sreg m.val) ∧
      (c.applyAll (c.writes32 (.s n) g)).v = c.v ∧ (c.applyAll (c.writes32 (.s n) g)).k = c.k


/-! Floating point, cross-lane forms and conversions. -/

/-- R120, R124, R130, R131: FP32, FP64 and paired FP16 arithmetic: operands flushed, the exact result rounded once to nearest
even, the result flushed, with the bits of fpctl as at issue. -/
def Obligations.FloatArithmeticResults : Prop :=
  ∀ (d : Wr) (a : Rd) (b : Src),
    let rne (f : Ieee) (rz : Bool) (x : Machine.Num) : Nat := f.flush rz (f.encode true .rne false x)
    let val (f : Ieee) (oz : Bool) (x : Nat) : Machine.Num := f.decode (f.flush oz x)
    let two (g : Machine.Num → Machine.Num → Machine.Num) (f : Ieee) (oz rz : Bool) (x y _z : Nat) : Nat := rne f rz (g (val f oz x) (val f oz y))
    let fma (f : Ieee) (oz rz : Bool) (x y z : Nat) : Nat :=
      rne f rz (Machine.Num.add (Machine.Num.mul (val f oz x) (val f oz y)) (val f oz z))
    let pick (mx : Bool) (f : Ieee) (oz rz : Bool) (x y _z : Nat) : Nat :=
      f.flush rz (f.minmax mx (f.flush oz x) (f.flush oz y))
    let f32 (i : Instr) (g : Ieee → Bool → Bool → Nat → Nat → Nat → Nat) : Prop :=
      Computes i (vecForm .f6 1 1 d a b) 6 fun c => c.writes32 d fun l =>
        BitVec.ofNat 32 (g fp32 (bit c.fpctl 4) (bit c.fpctl 5) (c.rd a l).toNat (c.src b l).toNat (c.rd (wrRd d) l).toNat)
    let f64 (i : Instr) (g : Ieee → Bool → Bool → Nat → Nat → Nat → Nat) : Prop :=
      Computes i (vecForm .d10 2 2 d a b) 10 fun c => c.writes64 d fun l =>
        BitVec.ofNat 64 (g fp64 (bit c.fpctl 6) (bit c.fpctl 7) (c.rd64 a l).toNat (c.srcF64 b l).toNat (c.rd64 (wrRd d) l).toNat)
    let f16 (i : Instr) (g : Ieee → Bool → Bool → Nat → Nat → Nat → Nat) : Prop :=
      Computes i (vecForm .f6 1 1 d a b) 6 fun c => c.writes32 d fun l =>
        let half (k : Nat) : Nat := g fp16 (bit c.fpctl 0) (bit c.fpctl 1) (fld (c.rd a l) (16 * k) 16)
          (fld (c.src b l) (16 * k) 16) (fld (c.rd (wrRd d) l) (16 * k) 16)
        BitVec.ofNat 32 (half 0 + half 1 * 2 ^ 16)
    let sub (x y : Machine.Num) : Machine.Num := Machine.Num.add x y.neg
    f32 (.fadd d a b) (two Machine.Num.add) ∧ f32 (.fsub d a b) (two sub) ∧ f32 (.fmul d a b) (two Machine.Num.mul) ∧
    f32 (.ffma d a b) fma ∧ f32 (.fmin d a b) (pick false) ∧ f32 (.fmax d a b) (pick true) ∧
    f64 (.dadd d a b) (two Machine.Num.add) ∧ f64 (.dsub d a b) (two sub) ∧ f64 (.dmul d a b) (two Machine.Num.mul) ∧
    f64 (.dfma d a b) fma ∧ f64 (.dmin d a b) (pick false) ∧ f64 (.dmax d a b) (pick true) ∧
    f16 (.hadd2 d a b) (two Machine.Num.add) ∧ f16 (.hmul2 d a b) (two Machine.Num.mul) ∧ f16 (.hfma2 d a b) fma

/-- R125 to R128: sign forms, comparison with its mask write, classification and rounding to an integral value. -/
def Obligations.FloatSignCompareClassRound : Prop :=
  ∀ (d : Wr) (a b : Rd) (lit : Word) (n : Imm),
    let f1 : Form := { lat := .f6, unit := .vec 1, vecs := wrVecs d 1 ++ rdVecs a 1 }
    let at_ (c : Cord) (l : Nat) : Nat := match d with | .v _ => l | .s _ => lowest c.act
    let holds (x y : Machine.Num) : Bool :=
      let less := Machine.Num.lt x y
      let more := Machine.Num.lt y x
      let un := decide (x = .nan ∨ y = .nan)
      match fld lit 0 4 with
      | 0 => !un && !less && !more | 1 => un || less || more | 2 => less | 3 => !un && !more
      | 4 => more | 5 => !un && !less | 6 => un | _ => !un
    let writes (t : Nat → Bool) (c : Cord) : List RegWrite :=
      (c.writes32 d fun l => if t l then (if bit lit 8 then 0xFFFFFFFF else 1) else 0) ++
        if fld lit 4 4 = 15 then []
        else [.k (fld lit 4 4) ((c.kreg (fld lit 4 4) &&& ~~~c.act) ||| (maskWhere t &&& c.act))]
    Computes (.fneg d a) f1 6 (fun c => c.writes32 d fun l => c.rd a l ^^^ 0x80000000) ∧
    Computes (.fabs d a) f1 6 (fun c => c.writes32 d fun l => c.rd a l &&& 0x7FFFFFFF) ∧
    Computes (.fcmp d a b lit) { lat := .f6, unit := .vec 1, vecs := wrVecs d 1 ++ rdVecs a 1 ++ rdVecs b 1 } 6 (fun c =>
      writes (fun l => holds (fp32.decode (fp32.flush (bit c.fpctl 4) (c.rd a (at_ c l)).toNat))
        (fp32.decode (fp32.flush (bit c.fpctl 4) (c.rd b (at_ c l)).toNat))) c) ∧
    Computes (.dcmp d a b lit) { lat := .d10, unit := .vec 2, vecs := wrVecs d 1 ++ rdVecs a 2 ++ rdVecs b 2 } 10 (fun c =>
      writes (fun l => holds (fp64.decode (fp64.flush (bit c.fpctl 6) (c.rd64 a (at_ c l)).toNat))
        (fp64.decode (fp64.flush (bit c.fpctl 6) (c.rd64 b (at_ c l)).toNat))) c) ∧
    Computes (.fclass d a) f1 6 (fun c => c.writes32 d fun l => tclassMask 10 (fp32.flush (bit c.fpctl 4) (c.rd a l).toNat)) ∧
    Computes (.frnd d a n) f1 6 fun c => c.writes32 d fun l =>
      let x := fp32.flush (bit c.fpctl 4) (c.rd a l).toNat
      BitVec.ofNat 32 <| fp32.flush (bit c.fpctl 5) <|
        match fp32.decode x with
        | .nan => 0x7FC00000
        | .inf _ => x
        | .fin s m e => if 0 ≤ e ∨ m = 0 then x else fp32.round true .rne false s (roundAt (rmOf n.toNat) s m 1 e 0) 1 0

/-- R122, R123, R129: a special-function form that its unit can accept issues, keeps the unit for its spacing, and writes its
results with the fall of its flag in one event after its result time. Special operands give the stated results, whatever fpctl holds.
How the results are enclosed is the model's own: log entry 7; that the unit is kept for the interval of the form it has just taken,
whichever comes next: log entry 63. -/
def Obligations.SpecialFunctionResultsAndTiming : Prop :=
  (∀ (d : Wr) (a : Rd) (b : Src) (r : Rd),
     let takes (i : Instr) (vs : List (Nat × Nat)) (every after_ : Nat) (ws : Cord → List RegWrite) : Prop :=
       ∀ s : State, Form.check { lat := .v, vecs := vs } s = none →
         SMap.get 0 (s.coreOf s.cord.core).sfuFree s.cord.slot ≤ s.cycle →
         exec i s = .next (Form.issued { lat := .v, vecs := vs }
           { State.onCore s.cord.core
               (fun k => { k with sfuFree := SMap.set 0 k.sfuFree s.cord.slot (s.cycle + every) }) s with
             agenda := s.agenda ++ [⟨s.cycle + after_, .specialFunctionComplete s.cord.cid s.cord.flag (ws s.cord)⟩] })
     let v1 := wrVecs d 1 ++ rdVecs a 1
     let one (g : Bool → Bool → Word → Word) (c : Cord) : List RegWrite :=
       c.writes32 d fun l => g (bit c.fpctl 4) (bit c.fpctl 5) (c.rd a l)
     takes (.fdiv d a b) (v1 ++ srcVecs b 1) 8 28 (fun c => c.writes32 d fun l =>
       BitVec.ofNat 32 (fp32.div (bit c.fpctl 4) (bit c.fpctl 5) (c.rd a l).toNat (c.src b l).toNat)) ∧
     takes (.frcp d a) v1 4 20 (one fun oz rz x => BitVec.ofNat 32 (fp32.div oz rz 0x3F800000 x.toNat)) ∧
     takes (.frsq d a) v1 4 20 (one fun oz rz x => BitVec.ofNat 32 (fp32.rsqrt oz rz x.toNat)) ∧
     takes (.fsqrt d a) v1 4 20 (one fun oz rz x => BitVec.ofNat 32 (fp32.sqrt oz rz x.toNat)) ∧
     takes (.fexp2 d a) v1 4 20 (one fexp2Of) ∧
     takes (.flog2 d a) v1 4 20 (one flog2Of) ∧
     takes (.fsin d a) v1 4 24 (one (ftrigOf false)) ∧
     takes (.fcos d a) v1 4 24 (one (ftrigOf true)) ∧
     takes (.ftanh d a) v1 4 24 (one ftanhOf) ∧
     takes (.ddiv d a r) (wrVecs d 2 ++ rdVecs a 2 ++ rdVecs r 2) 16 44 (fun c => c.writes64 d fun l =>
       BitVec.ofNat 64 (fp64.div (bit c.fpctl 6) (bit c.fpctl 7) (c.rd64 a l).toNat (c.rd64 r l).toNat)) ∧
     takes (.dsqrt d a) (wrVecs d 2 ++ rdVecs a 2) 16 44 (fun c => c.writes64 d fun l =>
       BitVec.ofNat 64 (fp64.sqrt (bit c.fpctl 6) (bit c.fpctl 7) (c.rd64 a l).toNat)) ∧
     ∀ (s : State) (c : Nat) (fl : Flag) (ws : List RegWrite), s.now = some (.specialFunctionComplete c fl ws) →
       exec .specialFunctionComplete s = .next (State.onCord c (fun x => (x.applyAll ws).flagDown fl.val) s)) ∧
  ∀ oz rz : Bool,
    fp32.div oz rz 0 0x80000000 = 0x7FC00000 ∧ fp32.div oz rz 0x7F800000 0xFF800000 = 0x7FC00000 ∧
    fp32.div oz rz 0x3F800000 0x80000000 = 0xFF800000 ∧ fp32.div oz rz 0x3F800000 0xFF800000 = 0x80000000 ∧
    fp64.div oz rz 0 0 = 0x7FF8000000000000 ∧ fp64.div oz rz 0x3FF0000000000000 0x8000000000000000 = 0xFFF0000000000000 ∧
    fp32.rsqrt oz rz 0 = 0x7F800000 ∧ fp32.rsqrt oz rz 0x80000000 = 0xFF800000 ∧ fp32.rsqrt oz rz 0x7F800000 = 0 ∧
    fp32.rsqrt oz rz 0xBF800000 = 0x7FC00000 ∧ fp32.sqrt oz rz 0x80000000 = 0x80000000 ∧
    fp32.sqrt oz rz 0x7F800000 = 0x7F800000 ∧ fp32.sqrt oz rz 0xBF800000 = 0x7FC00000 ∧
    fp64.sqrt oz rz 0x8000000000000000 = 0x8000000000000000 ∧ fp64.sqrt oz rz 0xBFF0000000000000 = 0x7FF8000000000000 ∧
    fexp2Of oz rz 0xFF800000 = 0 ∧ fexp2Of oz rz 0x7F800000 = 0x7F800000 ∧
    flog2Of oz rz 0 = 0xFF800000 ∧ flog2Of oz rz 0x80000000 = 0xFF800000 ∧ flog2Of oz rz 0x3F800000 = 0 ∧
    flog2Of oz rz 0x7F800000 = 0x7F800000 ∧ flog2Of oz rz 0xFF800000 = 0x7FC00000 ∧
    (∀ c : Bool, ftrigOf c oz rz 0x7F800000 = 0x7FC00000 ∧ ftrigOf c oz rz 0xFF800000 = 0x7FC00000) ∧
    ftrigOf false oz rz 0 = 0 ∧ ftrigOf false oz rz 0x80000000 = 0x80000000 ∧
    ftanhOf oz rz 0 = 0 ∧ ftanhOf oz rz 0x80000000 = 0x80000000 ∧ ftanhOf oz rz 0x7F800000 = 0x3F800000 ∧
    ftanhOf oz rz 0xFF800000 = 0xBF800000

/-- R132: fpctl is read, written, set and cleared cord-wide, from bits 7 to 0 of A, for the forms that issue afterwards. Rounding a non-negative quotient to an integer goes to the nearest, the even one of two, or toward zero, upward or downward by sign, or up by the bits that sr
adds to the first 16 of the fraction (R65, R70, R71). -/
def Obligations.FpctlFormsAndRounding : Prop :=
  (∀ (d : Wr) (a : Rd),
     let f : Form := { lat := .i4, vecs := rdVecs a 1 }
     let x (c : Cord) : Byte := BitVec.ofNat 8 (c.rd a (lowest c.act)).toNat
     Computes (.fpcr d) { lat := .i4, vecs := wrVecs d 1 } 4 (fun c => c.writes32 d fun _ => BitVec.ofNat 32 c.fpctl.toNat) ∧
     Does (.fpcw a) f (fun s => { s with cord := { s.cord with fpctl := x s.cord } }) ∧
     Does (.fpcs a) f (fun s => { s with cord := { s.cord with fpctl := s.cord.fpctl ||| x s.cord } }) ∧
     Does (.fpcc a) f (fun s => { s with cord := { s.cord with fpctl := s.cord.fpctl &&& ~~~x s.cord } })) ∧
  ∀ (n d : Nat) (neg : Bool), 0 < d →
    let k (rm : Rm) := roundAt rm neg n d 0 0
    (2 * (k .rne * d) ≤ 2 * n + d ∧ 2 * n ≤ 2 * (k .rne * d) + d) ∧
    (2 * (k .rne * d) = 2 * n + d ∨ 2 * n = 2 * (k .rne * d) + d → k .rne % 2 = 0) ∧
    k .rz = n / d ∧
    k .ru = (if neg then n / d else (n + d - 1) / d) ∧
    k .rd = (if neg then (n + d - 1) / d else n / d) ∧
    (∀ u, k (.sr u) = n / d + if 2 ^ 16 ≤ n % d * 2 ^ 16 / d + u then 1 else 0) ∧
    ∀ (rm : Rm) (e q : Int), roundAt rm neg n d e q = roundAt rm neg (n * pow2 (e - q)) (d * pow2 (q - e)) 0 0

/-- R133 to R135: shuffles read their source lane, active or not, at issue; a vote's result is the same in every active lane, and its
mask register keeps the lanes outside ACT. -/
def Obligations.ShuffleAndVoteResults : Prop :=
  ∀ (d : Wr) (a : Rd) (b : Src) (lit : Word),
    let f (vs : List (Nat × Nat)) : Form := { lat := .x 12, unit := .net, vecs := vs }
    let dist (c : Cord) (l : Nat) : Nat := (c.src b l).toNat % 32
    let from_ (c : Cord) (l : Nat) : Nat :=
      match (c.src b l).toNat / 32 % 4 with
      | 0 => if dist c l ≤ l then l - dist c l else l
      | 1 => if l + dist c l ≤ 31 then l + dist c l else l
      | 2 => l ^^^ dist c l
      | _ => (l + dist c l) % 32
    let p (c : Cord) (l : Nat) : Bool := bit c.act l && decide (c.rd a l ≠ 0)
    let all (g : Nat → Bool) : Bool := (List.range 32).all g
    let r (c : Cord) : Word :=
      match fld lit 0 2 with
      | 0 => maskWhere (p c)
      | 1 => if (List.range 32).any (p c) then 1 else 0
      | 2 => if all (fun l => !bit c.act l || p c l) then 1 else 0
      | _ => if all (fun l => !bit c.act l || decide (c.rd a l = c.rd a (lowest c.act))) then 1 else 0
    let k := fld lit 4 4
    Computes (.shfl d a b) (f (wrVecs d 1 ++ rdVecs a 1 ++ srcVecs b 1)) 12
      (fun c => c.writes32 d fun l => c.rd a (dist c l)) ∧
    Computes (.shfld d a b) { lat := .x 16, unit := .net, vecs := wrVecs d 1 ++ rdVecs a 1 ++ srcVecs b 1 } 16
      (fun c => c.writes32 d fun l => c.rd a (from_ c l)) ∧
    ∀ s : State, (f (wrVecs d 1 ++ rdVecs a 1)).check s = none → ∃ m : Word,
      exec (.vote d a lit) s = .next ((f (wrVecs d 1 ++ rdVecs a 1)).issued
        { s with agenda := s.agenda ++ fixed s 12 ((s.cord.writes32 d fun _ => r s.cord) ++ if k = 15 then [] else [.k k m]) }) ∧
      ∀ l, bit m l = if bit s.cord.act l then (if fld lit 0 2 = 0 then bit (r s.cord) l else decide (r s.cord ≠ 0))
        else bit (s.cord.kreg k) l

/-- R136 to R138: redu combines the lanes in a fixed binary tree, the lower lane on the left, with the identity in inactive lanes;
scan does so along the lanes; a 64-bit type takes longer. The operation and its identity are those of the literal's OP and TYPE: addition,
least, greatest, and the bitwise ones, on integers of 32 or 64 bits, signed or not, or on FP32 and FP64, whose operands and results are
flushed by fpctl. -/
def Obligations.ReductionAndScanResults : Prop :=
  ∀ (d : Wr) (a : Rd) (lit : Word),
    let wide := red64 lit
    let vs := wrVecs d (if wide then 2 else 1) ++ rdVecs a (if wide then 2 else 1)
    let ty := fld lit 4 4
    let op := fld lit 0 4
    let float := ty = 10 ∨ ty = 11
    let signed := ty = 4 ∨ ty = 6
    let fp : Ieee := if ty = 11 then fp64 else fp32
    let oz (c : Cord) : Bool := bit c.fpctl (if ty = 11 then 6 else 4)
    let rz (c : Cord) : Bool := bit c.fpctl (if ty = 11 then 7 else 5)
    let n := if ty = 6 ∨ ty = 7 then 64 else 32
    let idle : Nat :=
      match op with
      | 0 => if ty = 10 then 0x80000000 else if ty = 11 then 0x8000000000000000 else 0
      | 1 => if ty = 10 then 0x7F800000 else if ty = 11 then 0x7FF0000000000000 else if signed then 2 ^ (n - 1) - 1 else 2 ^ n - 1
      | 2 => if ty = 10 then 0xFF800000 else if ty = 11 then 0xFFF0000000000000 else if signed then 2 ^ (n - 1) else 0
      | 3 => 2 ^ n - 1
      | _ => 0
    let lane (c : Cord) (l : Nat) : Nat :=
      let x := if wide then (c.rd64 a l).toNat else (c.rd a l).toNat
      if bit c.act l then (if float then fp.flush (oz c) x else x) else idle
    let whole (g : BitVec n → BitVec n → BitVec n) (x y : Nat) : Nat := (g (BitVec.ofNat n x) (BitVec.ofNat n y)).toNat
    let least (x y : BitVec n) : BitVec n := if (if signed then x.toInt ≤ y.toInt else x.toNat ≤ y.toNat) then x else y
    let most (x y : BitVec n) : BitVec n := if (if signed then x.toInt ≤ y.toInt else x.toNat ≤ y.toNat) then y else x
    let join (c : Cord) (x y : Nat) : Nat :=
      match op with
      | 0 => if float then fp.flush (rz c) (fp.encode true .rne false (Machine.Num.add (fp.decode x) (fp.decode y)))
             else whole (fun x y => x + y) x y
      | 1 => if float then fp.flush (rz c) (fp.minmax false x y) else whole least x y
      | 2 => if float then fp.flush (rz c) (fp.minmax true x y) else whole most x y
      | 3 => whole (fun x y => x &&& y) x y
      | 4 => whole (fun x y => x ||| y) x y
      | _ => whole (fun x y => x ^^^ y) x y
    let tree (c : Cord) : Nat → Nat → Nat :=
      Nat.rec (lane c) fun k t l => join c (t l) (t (l + 2 ^ k))
    let along (c : Cord) : Nat → Nat → Nat :=
      Nat.rec (fun l => if bit lit 8 then (if l = 0 then idle else lane c (l - 1)) else lane c l)
        fun k t l => if 2 ^ k ≤ l then join c (t (l - 2 ^ k)) (t l) else t l
    let words (x : Nat) : List Word := if wide then [BitVec.ofNat 32 x, BitVec.ofNat 32 (x / 2 ^ 32)] else [BitVec.ofNat 32 x]
    let place (c : Cord) (l : Nat) : Nat := match d with | .v _ => l | .s _ => ((lanesOf c.act).getLast?).getD 0
    Computes (.redu d a lit) { lat := .x (if wide then 40 else 32), unit := .net, vecs := vs } (if wide then 40 else 32)
      (fun c => c.writes d fun _ => words (tree c 5 0)) ∧
    Computes (.scan d a lit) { lat := .x (if wide then 40 else 36), unit := .net, vecs := vs } (if wide then 40 else 36)
      (fun c => c.writes d fun l => words (along c 5 (place c l)))

/-- R55 to R65, R67 to R71, R73 to R78: conversions decode exactly, scale where they do, and round once by the literal's mode; pack puts two
results side by side; unpk takes one element; tclass reports the raw encoding. What decoding and encoding are is stated with them: the
value of each encoding of the IEEE-style formats, A26, TAP8, TAP6, E8 and the integers; the encodings of NaN, of the infinities and of zero;
and for every finite value the encoding, its least place q and the multiple k of 2^q that rounding gives being those of its magnitude's
leading place g. Between two tapered encodings the tie is their mean, or the power of two between them where neither has an exponent
bit (R65). The class bits are those of R78, and the scale of scfind that of R77.
Under sr a value below the least normal of A26 lies between 0 and that (R64, R71). -/
def Obligations.ConversionResults : Prop :=
  (∀ (d : Wr) (a b : Rd) (lit : Word) (n : Imm) (p q : Vec),
    let sf := fld lit 4 4
    let df := fld lit 0 4
    let span_ (code : Nat) : Nat := if fmt64 code then 2 else 1
    let f : Form :=
      { lat := if fmt64 df || fmt64 sf then .d10 else .f6, vecs := wrVecs d (span_ df) ++ rdVecs a (span_ sf) ++ rdVecs b 1 }
    let h := if fmt64 df || fmt64 sf then 10 else 6
    let src (c : Cord) (l : Nat) : Nat := if fmt64 sf then (c.rd64 a l).toNat else (c.rd a l).toNat
    let out (x : Nat) : List Word :=
      if fmt64 df then [BitVec.ofNat 32 x, BitVec.ofNat 32 (x / 2 ^ 32)] else [place32 df x]
    let conv (c : Cord) (sr : Word) (g : Machine.Num → Machine.Num) (x : Nat) : Nat :=
      encodeFmt c.fpctl df (convRm lit sr) (bit lit 11) (g (decodeFmt c.fpctl sf x))
    let w := fmtWidth sf
    Computes (.cvt d a b lit) f h (fun c => c.writes d fun l => out (conv c (c.rd b l) id (src c l))) ∧
    Computes (.cvtsc d a b lit) f h (fun c => c.writes d fun l =>
      let e := (c.rd b l).toNat % 256
      out (conv c 0 (fun x => if e = 255 then .nan else x.scale (if bit lit 12 then 127 - (e : Int) else (e : Int) - 127)) (src c l))) ∧
    Computes (.pack d a b lit) f h (fun c => c.writes32 d fun l =>
      let lo := 2 * fld lit 13 3 * fmtWidth df
      setField (setField (c.rd (wrRd d) l) lo (fmtWidth df) (conv c 0 id (c.rd a l).toNat)) (lo + fmtWidth df) (fmtWidth df)
        (conv c 0 id (c.rd b l).toNat)) ∧
    Computes (.unpk d a b lit) f h (fun c => c.writes d fun l =>
      out (conv c 0 id ((c.rd a l).toNat / 2 ^ ((if w = 16 then (c.rd b l).toNat % 2 else (c.rd b l).toNat % 4) * w) % 2 ^ w))) ∧
    Computes (.tclass d a n) { lat := .f6, vecs := wrVecs d 1 ++ rdVecs a (span_ n.toNat) } 6 (fun c => c.writes32 d fun l =>
      tclassMask n.toNat (if fmt64 n.toNat then (c.rd64 a l).toNat else (c.rd a l).toNat)) ∧
    Computes (.scfind p q b) { lat := .x 16, unit := .net, vecs := [(p.val, 1), (q.val, 1)] ++ rdVecs b 1 } 16 fun c =>
      c.writes32 (.v p) fun l =>
        let g := 4 * 2 ^ ((c.rd b (lowest c.act)).toNat / 256 % 4)
        let group := (lanesOf c.act).filter fun i => i / g == l / g
        BitVec.ofNat 32 (scfindScale
          (group.foldl (fun m i => magMax m (decodeFmt c.fpctl 10 (c.vreg q.val i).toNat)) (.fin false 0 0))
          (sextNat ((c.rd b (group.headD 0)).toNat % 256) 8))) ∧
  (∀ code < 16, fmtWidth code = [8, 8, 16, 16, 32, 32, 64, 64, 16, 16, 32, 64, 8, 6, 32, 8].getD code 0 ∧
    (fmt64 code = true ↔ code = 6 ∨ code = 7 ∨ code = 11) ∧
    ∀ x < 2 ^ fmtWidth code,
      ((code = 0 ∨ code = 2) → (place32 code x).toInt = if x < 2 ^ (fmtWidth code - 1) then (x : Int) else x - 2 ^ fmtWidth code) ∧
      (code ≠ 0 → code ≠ 2 → place32 code x = BitVec.ofNat 32 x)) ∧
  (∀ (x : Word) (lo n v : Nat), lo + n ≤ 32 → ∀ i < 32,
    bit (setField x lo n v) i = if lo ≤ i ∧ i < lo + n then v.testBit (i - lo) else bit x i) ∧
  (∀ (fz : Byte) (rm : Rm) (sat : Bool),
    let leads (m : Nat) (e g : Int) : Prop := pow2 (g - e) ≤ m * pow2 (e - g) ∧ m * pow2 (e - g) < 2 * pow2 (g - e)
    let upOver (neg : Bool) : Bool := !sat && (rm == .rne || (rm == .ru && !neg) || (rm == .rd && neg))
    (∀ (code eb fb : Nat) (bias : Int) (nan : Nat),
      (code, eb, fb, bias, nan) ∈ [(8, 5, 10, (15 : Int), 0x7E00), (9, 8, 7, 127, 0x7FC0), (10, 8, 23, 127, 0x7FC00000),
        (11, 11, 52, 1023, 0x7FF8000000000000)] →
      let sign (s : Bool) : Nat := if s then 2 ^ (eb + fb) else 0
      let inf := (2 ^ eb - 1) * 2 ^ fb
      (∀ x : Nat,
        let s := decide (x / 2 ^ (eb + fb) % 2 = 1)
        let ex : Nat := x / 2 ^ fb % 2 ^ eb
        let fr : Nat := x % 2 ^ fb
        decodeFmt fz code x =
          if ex = 2 ^ eb - 1 then (if fr = 0 then .inf s else .nan)
          else if ex = 0 then .fin s (if bit fz (2 * (code - 8)) then 0 else fr) (1 - bias - fb)
          else .fin s (2 ^ fb + fr) (ex - bias - fb)) ∧
      encodeFmt fz code rm sat .nan = nan ∧
      (∀ s, encodeFmt fz code rm sat (.inf s) = sign s + inf - if sat then 1 else 0) ∧
      (∀ s e, encodeFmt fz code rm sat (.fin s 0 e) = sign s) ∧
      ∀ s m e g, leads m e g →
        let q := max (g - fb) (1 - bias - fb)
        let k := roundAt rm s m 1 e q
        let top := q + if k = 2 ^ (fb + 1) then 1 else 0
        let y := encodeFmt fz code rm sat (.fin s m e)
        (bias - fb < top → y = sign s + inf - if upOver s then 0 else 1) ∧
        (top ≤ bias - fb → k < 2 ^ fb → bit fz (2 * (code - 8) + 1) = true → y = sign s) ∧
        (top ≤ bias - fb → 2 ^ fb ≤ k ∨ bit fz (2 * (code - 8) + 1) = false →
          Machine.Num.eq (decodeFmt 0 code y) (.fin s k q) = true ∧ y / 2 ^ (eb + fb) = if s then 1 else 0)) ∧
    ((∀ x : Nat,
        let s := decide (x / 2 ^ 31 % 2 = 1)
        let ex : Nat := x / 2 ^ 23 % 2 ^ 8
        let fr : Nat := x / 64 % 2 ^ 17
        decodeFmt fz 14 x =
          if ex = 255 then (if fr = 0 then .inf s else .nan) else if ex = 0 then .fin s 0 0 else .fin s (2 ^ 17 + fr) (ex - 144)) ∧
      encodeFmt fz 14 rm sat .nan = 0x7FC00000 ∧
      (∀ s, encodeFmt fz 14 rm sat (.inf s) = (if s then 2 ^ 31 else 0) + if sat then 0x7F7FFFC0 else 0x7F800000) ∧
      (∀ s e, encodeFmt fz 14 rm sat (.fin s 0 e) = if s then 2 ^ 31 else 0) ∧
      (∀ u s m e g, rm = .sr u → leads m e g → g < -126 →
        encodeFmt fz 14 rm sat (.fin s m e) = (if s then 2 ^ 31 else 0) + roundAt rm s m 1 e (-126) * 2 ^ 23) ∧
      ∀ s m e g, leads m e g → (∀ u, rm ≠ .sr u) ∨ -126 ≤ g →
        let q := g - 17
        let k := roundAt rm s m 1 e q
        let top := q + if k = 2 ^ 18 then 1 else 0
        let y := encodeFmt fz 14 rm sat (.fin s m e)
        (110 < top → y = (if s then 2 ^ 31 else 0) + if upOver s then 0x7F800000 else 0x7F7FFFC0) ∧
        (top < -143 → y = if s then 2 ^ 31 else 0) ∧
        (-143 ≤ top → top ≤ 110 → Machine.Num.eq (decodeFmt fz 14 y) (.fin s k q) = true ∧ y / 2 ^ 31 = if s then 1 else 0)) ∧
    (let is (code x m : Nat) (e : Int) : Prop := Machine.Num.eq (decodeFmt fz code x) (.fin false m e) = true;
      (∀ (base : Nat) (k : Int) (fb : Nat), (base, k, fb) ∈ [(0x7C, (4 : Int), 0), (0x78, 3, 1), (0x70, 2, 2), (0x60, 1, 3), (0x40, 0, 4), (0x20, -1, 4), (0x10, -2, 3),
          (0x08, -3, 2), (0x04, -4, 1), (0x02, -5, 0)] →
        ∀ e < 2, ∀ f < 2 ^ fb, is 12 (base + e * 2 ^ fb + f) (2 ^ fb + f) (2 * k + e - fb)) ∧
      is 12 0x7F 1 12 ∧ is 12 0x7E 1 10 ∧ is 12 0x01 1 (-12) ∧
      ∀ (base : Nat) (k : Int) (fb : Nat), (base, k, fb) ∈ [(0x1F, (4 : Int), 0), (0x1E, 3, 0), (0x1C, 2, 1), (0x18, 1, 2), (0x10, 0, 3), (0x08, -1, 3), (0x04, -2, 2),
          (0x02, -3, 1), (0x01, -4, 0)] → ∀ f < 2 ^ fb, is 13 (base + f) (2 ^ fb + f) (k - fb)) ∧
    (∀ code n : Nat, (code, n) ∈ [(12, 7), (13, 5)] →
      let val (x : Nat) : Machine.Num := decodeFmt fz code x
      let signed (s : Bool) (p : Nat) : Nat := if s then 2 ^ (n + 1) - p else p
      let enc (s : Bool) (m : Nat) (e : Int) : Nat := encodeFmt fz code rm sat (.fin s m e)
      val 0 = .fin false 0 0 ∧ val (2 ^ n) = .nan ∧ (∀ x, 0 < x → x < 2 ^ n → val (2 ^ (n + 1) - x) = (val x).neg) ∧
      encodeFmt fz code rm sat .nan = 2 ^ n ∧ (∀ s, encodeFmt fz code rm sat (.inf s) = signed s (2 ^ n - 1)) ∧
      (∀ s e, enc s 0 e = 0) ∧
      ∀ s m e, 0 < m →
        let x : Machine.Num := .fin false m e
        (Machine.Num.lt (val (2 ^ n - 1)) x = true → enc s m e = signed s (2 ^ n - 1)) ∧
        (Machine.Num.lt x (val 1) = true → enc s m e = signed s 1) ∧
        ∀ p, 0 < p → p < 2 ^ n →
          (Machine.Num.eq x (val p) = true → enc s m e = signed s p) ∧
          (p + 1 < 2 ^ n → Machine.Num.lt (val p) x = true → Machine.Num.lt x (val (p + 1)) = true →
            let tie : Machine.Num :=
              if code = 12 ∧ p = 0x7E then .fin false 1 11 else if code = 12 ∧ p = 1 then .fin false 1 (-11)
              else (Machine.Num.add (val p) (val (p + 1))).scale (-1)
            (rm = .rz → enc s m e = signed s p) ∧ (rm = .ru → enc s m e = signed s (if s then p else p + 1)) ∧
            (rm = .rd → enc s m e = signed s (if s then p + 1 else p)) ∧ ((∃ u, rm = .sr u) → enc s m e = signed s p ∨ enc s m e = signed s (p + 1)) ∧
            (rm = .rne → (Machine.Num.lt x tie = true → enc s m e = signed s p) ∧ (Machine.Num.lt tie x = true → enc s m e = signed s (p + 1)) ∧
              (Machine.Num.eq x tie = true → enc s m e = signed s (if p % 2 = 0 then p else p + 1))))) ∧
    (∀ (code w : Nat) (sgn : Bool), (code, w, sgn) ∈ [(0, 8, true), (1, 8, false), (2, 16, true), (3, 16, false), (4, 32, true), (5, 32, false),
        (6, 64, true), (7, 64, false)] →
      let lo : Int := if sgn then -2 ^ (w - 1) else 0
      let hi : Int := if sgn then 2 ^ (w - 1) - 1 else 2 ^ w - 1
      let put (v : Int) : Nat := (v % 2 ^ w).toNat
      (∀ x : Nat, x < 2 ^ w → let v : Int := if sgn ∧ 2 ^ (w - 1) ≤ x then x - 2 ^ w else x
        decodeFmt fz code x = .fin (decide (v < 0)) v.natAbs 0) ∧
      encodeFmt fz code rm sat .nan = 0 ∧ encodeFmt fz code rm sat (.inf false) = put hi ∧ encodeFmt fz code rm sat (.inf true) = put lo ∧
      ∀ s m e, let k : Int := roundAt rm s m 1 e 0
        encodeFmt fz code rm sat (.fin s m e) = put (max lo (min hi (if s then -k else k)))) ∧
    ∀ x : Nat, x < 256 → decodeFmt fz 15 x = if x = 255 then .nan else .fin false 1 (x - 127)) ∧
  (∀ code w : Nat, code < 16 →
    let x := w % 2 ^ fmtWidth code
    let has (zero quiet sig inf sub normal neg largest least : Prop) : Prop := ∀ i < 32, bit (tclassMask code w) i = true ↔
      (i = 0 ∧ zero) ∨ (i = 1 ∧ quiet) ∨ (i = 2 ∧ sig) ∨ (i = 3 ∧ inf) ∨ (i = 4 ∧ sub) ∨ (i = 5 ∧ normal) ∨ (i = 6 ∧ neg) ∨
        (i = 7 ∧ largest) ∨ (i = 8 ∧ least)
    (∀ eb fb : Nat, (code, eb, fb) ∈ [(8, 5, 10), (9, 8, 7), (10, 8, 23), (11, 11, 52)] →
      let ex := x / 2 ^ fb % 2 ^ eb
      let fr := x % 2 ^ fb
      let top := 2 ^ eb - 1
      has (ex = 0 ∧ fr = 0) (ex = top ∧ 2 ^ (fb - 1) ≤ fr) (ex = top ∧ 0 < fr ∧ fr < 2 ^ (fb - 1)) (ex = top ∧ fr = 0) (ex = 0 ∧ fr ≠ 0)
        (0 < ex ∧ ex < top) (x / 2 ^ (eb + fb) = 1) (ex = top - 1 ∧ fr = 2 ^ fb - 1) (ex = 0 ∧ fr = 1)) ∧
    (code = 14 →
      let ex := x / 2 ^ 23 % 2 ^ 8
      let fr := x / 64 % 2 ^ 17
      has (ex = 0) (ex = 255 ∧ 2 ^ 16 ≤ fr) (ex = 255 ∧ 0 < fr ∧ fr < 2 ^ 16) (ex = 255 ∧ fr = 0) False (0 < ex ∧ ex < 255) (x / 2 ^ 31 = 1)
        (ex = 254 ∧ fr = 2 ^ 17 - 1) (ex = 1 ∧ fr = 0)) ∧
    (∀ n : Nat, (code, n) ∈ [(12, 7), (13, 5)] →
      has (x = 0) (x = 2 ^ n) False False False (x ≠ 0 ∧ x ≠ 2 ^ n) (2 ^ n < x) (x = 2 ^ n - 1 ∨ x = 2 ^ n + 1) (x = 1 ∨ x = 2 ^ (n + 1) - 1)) ∧
    (code = 15 → has False (x = 255) False False False (x ≠ 255) False (x = 254) (x = 0)) ∧
    (code < 8 →
      let wd := fmtWidth code
      let v : Int := if code % 2 = 0 ∧ 2 ^ (wd - 1) ≤ x then x - 2 ^ wd else x
      let lo : Int := if code % 2 = 0 then -2 ^ (wd - 1) else 0
      let hi : Int := if code % 2 = 0 then 2 ^ (wd - 1) - 1 else 2 ^ wd - 1
      has (v = 0) False False False False (v ≠ 0) (v < 0) (v = lo ∨ v = hi) (v = 1 ∨ v = -1))) ∧
  ∀ (x y : Machine.Num) (t : Int),
    let mag (z : Machine.Num) : Machine.Num := match z with | .fin _ m e => .fin false m e | .inf _ => .inf false | .nan => .nan
    (magMax x y = .nan ↔ x = .nan ∨ y = .nan) ∧
    (x ≠ .nan → y ≠ .nan → (magMax x y = mag x ∨ magMax x y = mag y) ∧ Machine.Num.lt (magMax x y) (mag x) = false ∧
      Machine.Num.lt (magMax x y) (mag y) = false) ∧
    scfindScale .nan t = 0xFF ∧ (∀ s, scfindScale (.inf s) t = 0xFE) ∧ (∀ s e, scfindScale (.fin s 0 e) t = 0x7F) ∧
    ∀ s m e (g : Int), pow2 (g - e) ≤ m * pow2 (e - g) → m * pow2 (e - g) < 2 * pow2 (g - e) →
      scfindScale (.fin s m e) t = (max 0 (min 254 (g - t + 127))).toNat

/-! Eyelets, loads and stores. -/

/-- R146, R147, R150, R240: an open whose address hits binds its eyelet to the line: filling, with the virtual and physical line and the
page's write permission; ldcnt counts the line, and its read is on the way. open.acq also advances EPOCH, and its acquire makes the read;
opent records its tolerance. -/
def Obligations.OpenFormsBindAndFill : Prop :=
  ∀ (d : Eye) (a b : Rd) (lit : Word) (s : State) (x : Nat) (p : Page),
    let f : Form := { lat := .v, vecs := rdVecs a 1 ++ rdVecs b 1 }
    f.check s = none → s.cord.live = true → s.cord.act ≠ 0 →
    x = (s.cord.rd a (lowest s.cord.act)).toNat + (s.cord.rd b (lowest s.cord.act)).toNat * 2 ^ 32 →
    (∀ l, l < 32 → bit s.cord.act l = true →
      ((s.cord.rd a l).toNat + (s.cord.rd b l).toNat * 2 ^ 32) / 128 = x / 128) →
    s.cord.ldcnt + 1 ≤ 255 → Hits s .r [x] [p] → NoRead s s.cord.cid d.val →
    let binds (t : State) : Prop :=
      (t.cord.eye d.val).st = .filling ∧ (t.cord.eye d.val).reason = .none ∧ (t.cord.eye d.val).vla = x / 128 ∧
      (t.cord.eye d.val).pla = p.addr x / 128 ∧ (t.cord.eye d.val).w = p.w ∧ t.cord.ldcnt = s.cord.ldcnt + 1 ∧
      ∃ i ∈ t.agenda, ReadsInto s.cord.cid d.val s.fresh i.what
    (∃ t, exec (.openLine d a b) s = .next (f.issued t) ∧ binds t) ∧
    (∃ t r, exec (.openAcq d a b) s = .next (f.issued t) ∧ binds t ∧ t.cord.epoch = s.cord.epoch + 1 ∧
      Sends s t 0 (.acquireComplete s.cord.cid s.fresh r) ∧ (d.val, s.fresh) ∈ r.fills) ∧
    ∃ t, exec (.opent d a b lit) s = .next (f.issued t) ∧ binds t ∧ (t.cord.eye d.val).tol = lit

/-- R151: openf gives each distinct line, in the order of the lowest lane that names it, the next eyelet from FIRST on, tells every
active lane its eyelet or 0xFF, and sets OVF when a line found none. -/
def Obligations.OpenfServesDistinctLines : Prop :=
  ∀ (d a : Vec) (b : Rd) (lit : Word) (s : State) (ps : List Page),
    let f : Form := { lat := .v, vecs := [(d.val, 1), (a.val, 1)] ++ rdVecs b 1 }
    let line (l : Nat) : Nat := (pair64 (s.cord.vreg a.val l) (s.cord.rd b l)).toNat / 128
    let lines := ((lanesOf s.cord.act).map line).eraseDups
    let first := lit.toNat % 16
    let n := min lines.length (16 - first)
    let vas := (lines.take n).map (· * 128)
    let sel (l : Nat) : Word := if lines.idxOf (line l) < n then BitVec.ofNat 32 (first + lines.idxOf (line l)) else 0xFF
    f.check s = none → s.cord.ldcnt + n ≤ 255 → Hits s .r vas ps →
      exec (.openf d a b lit) s = .next (f.issued (State.openAll (bit lit 4) (s.cord.writes32 (.v d) sel) none
        ((vas.zip ps).zipIdx.map fun x => (first + x.2, x.1.1, x.1.2))
        { translated s with cord := { s.cord with ovf := decide (n < lines.length) } }))

/-- R152, R159, R219: close ends the binding, eqry and tstv report the eyelet, and erfr of an open eyelet sends a read; of a closed one
tstv and erfr raise eye_closed, and erfr stalls on a filling one. A close of an eyelet that
is filling cancels its reads: ldcnt falls by one for the line, and the flag of its open, if that was the open's last fill, with it; a close
that meets the run of an openv ends that openv, whose lines leave ldcnt together at its end. -/
def Obligations.CloseQueryAndRefresh : Prop :=
  ∀ (d : Wr) (e : Eye) (s : State),
    let y := s.cord.eye e.val
    let closed (i : Instr) : Prop :=
      y.st = .closed → exec i s = .next (s.raise .eyeClosed (BitVec.ofNat 64 (y.vla * 128 + reasonCode y.reason * 16 + e.val)))
    ([EyeState.closed, .filling, .opened].map eyeCode = [0, 1, 2] ∧
      [Reason.none, .close, .shoot, .disc, .ecc, .sys, .fill].map reasonCode = [0, 1, 2, 3, 4, 5, 6]) ∧
    (Form.check { lat := .n } s = none → s.cord.live = true → NoRead s s.cord.cid e.val → y.st ≠ .filling →
      ∃ t, exec (.close e) s = .next (Form.issued { lat := .n } t) ∧
        (t.cord.eye e.val).st = .closed ∧ (y.st = .opened → (t.cord.eye e.val).reason = .close) ∧
        (y.st = .closed → t.cord.eye e.val = y) ∧ t.cord.stcnt = s.cord.stcnt) ∧
    (∀ o tok, Form.check { lat := .n } s = none → s.cord.live = true → y.st = .filling →
      s.cord.ops.find? (·.tok == tok) = some o →
      let closes (t : State) : Prop :=
        exec (.close e) s = .next (Form.issued { lat := .n } t) ∧ (t.cord.eye e.val).st = .closed ∧
          (t.cord.eye e.val).reason = .close ∧ NoRead t s.cord.cid e.val ∧ t.cord.stcnt = s.cord.stcnt
      (∀ f, o.kind = .plain → o.ld = 0 → o.stc = 0 → o.left = 1 → o.flag = some f →
        (∃ d ∈ s.agenda, readOf s.cord.cid e.val d.what = some tok) →
        (∀ d ∈ s.agenda, ∀ k, ReadsInto s.cord.cid e.val k d.what → readOf s.cord.cid e.val d.what = some tok) →
        ∃ t, closes t ∧ t.cord.ldcnt = s.cord.ldcnt - 1 ∧ t.cord.flagOf f.val = s.cord.flagOf f.val - 1) ∧
      (∀ first n k v1 dead, o.kind = .versioned first n k v1 dead → y.tok = tok →
        (∀ d ∈ s.agenda, ∀ k, ReadsInto s.cord.cid e.val k d.what → k = tok) →
        ∃ t, closes t ∧ t.cord.ldcnt = s.cord.ldcnt ∧ t.cord.opKind tok = .versioned first n k v1 true)) ∧
    Computes (.eqry d e) { lat := .i4, vecs := wrVecs d 1 } 4 (fun c => c.writes32 d fun _ =>
      let y := c.eye e.val
      BitVec.ofNat 32 (eyeCode y.st * 2 ^ 30 + reasonCode y.reason * 2 ^ 27 + (if y.w then 2 ^ 26 else 0) +
        (if y.rmt then 2 ^ 25 else 0) + y.vla % 2 ^ 25)) ∧
    (Form.check { lat := .i4, vecs := wrVecs d 1 } s = none → closed (.tstv d e)) ∧
    (Form.check { lat := .v } s = none → closed (.erfr e) ∧ (y.st = .filling → exec (.erfr e) s = stalled s {})) ∧
    (Form.check { lat := .i4, vecs := wrVecs d 1 } s = none → y.st ≠ .closed →
      exec (.tstv d e) s = .next (Form.issued { lat := .i4, vecs := wrVecs d 1 } { s with
        agenda := s.agenda ++ fixed s 4 (s.cord.writes32 d fun _ =>
          BitVec.ofNat 32 (y.vtry % 32 * 16 + if y.vok then 1 else 0)) })) ∧
    (Form.check { lat := .v } s = none → y.st = .opened → s.cord.ldcnt + 1 ≤ 255 →
      ∃ t, exec (.erfr e) s = .next (Form.issued { lat := .v } t) ∧ t.cord.ldcnt = s.cord.ldcnt + 1 ∧
        t.cord.eyes = s.cord.eyes ∧ ∃ i ∈ t.agenda, readOf s.cord.cid e.val i.what = some s.fresh)

/-- R153, R154, R159: a load whose active lanes all reach open eyelets, aligned and inside the line, writes each lane's value with latency
6, or to a scalar that of the lowest active lane; ldl.acq advances EPOCH and completes later; a lane with selector 0xFF takes no part.
A selector of 16 to 254 raises eye_sel with the lowest such lane, and lanes that do not all reach such a place turn the load away.
Which lane trinfo of eye_closed tells of is the model's choice: log entry 63. -/
def Obligations.EyeletLoads : Prop :=
  ∀ (z : LdSize) (d : Wr) (e : Eye) (a : Vec) (n : Imm) (b : Rd) (s : State),
    let k := if z = .d then 2 else 1
    let ls := lanesOf s.cord.act
    let sel (l : Nat) : Nat := (s.cord.vreg a.val l).toNat % 256
    let picked := ls.filter fun l => sel l != 255
    let astray (l : Nat) : Prop := First ls (fun l => 16 ≤ sel l ∧ sel l ≠ 255) l
    let imm (_ : Nat) : Nat := n.toNat * ldBytes z
    let reg (l : Nat) : Nat := (s.cord.rd b l).toNat
    let value (e o : Nat) : Nat := leNat ((List.range (ldBytes z)).map fun i => SMap.get 0 (s.cord.eye e).data (o + i))
    let mine (l : Nat) : Bool := match d with | .v _ => true | .s _ => l == lowest s.cord.act
    let ws (as : List (Nat × Nat × Nat)) : List RegWrite :=
      (as.filter fun x => mine x.1).flatMap fun x => (ldWords z (value x.2.1 x.2.2)).zipIdx.map fun w => s.cord.bind d w.2 x.1 w.1
    let loads (i : Instr) (vs : List (Nat × Nat)) (as : List (Nat × Nat × Nat)) : Prop :=
      Form.check { lat := .l6, vecs := wrVecs d k ++ vs } s = none → TurnedAway (exec i s) s as (ldBytes z) false ∧
        (Reachable s as (ldBytes z) →
          exec i s = .next (Form.issued { lat := .l6, vecs := wrVecs d k ++ vs } { s with agenda := s.agenda ++ fixed s 6 (ws as) }))
    let acquires (i : Instr) (vs : List (Nat × Nat)) (as : List (Nat × Nat × Nat)) : Prop :=
      Form.check { lat := .v, vecs := wrVecs d k ++ vs } s = none → TurnedAway (exec i s) s as (ldBytes z) false ∧
        (Reachable s as (ldBytes z) → s.cord.live = true →
          ∃ t, exec i s = .next (Form.issued { lat := .v, vecs := wrVecs d k ++ vs } t) ∧ t.cord.epoch = s.cord.epoch + 1 ∧
            ∃ r, (Event.acquireComplete s.cord.cid s.fresh r) ∈ t.agenda.map (·.what))
    let selects (i : Instr) (vs : List (Nat × Nat)) : Prop :=
      Form.check { lat := .l6, vecs := wrVecs d k ++ vs } s = none → ∀ l, astray l → exec i s = .next (s.raise .eyeSel (BitVec.ofNat 64 l))
    loads (.ldl z d e n) [] (ls.map fun l => (l, e.val, imm l)) ∧
    loads (.ldlReg z d e b) (rdVecs b 1) (ls.map fun l => (l, e.val, reg l)) ∧
    ((∀ l ∈ picked, sel l < 16) → loads (.ldlx z d a n) [(a.val, 1)] (picked.map fun l => (l, sel l, imm l))) ∧
    ((∀ l ∈ picked, sel l < 16) → loads (.ldlxReg z d a b) ([(a.val, 1)] ++ rdVecs b 1) (picked.map fun l => (l, sel l, reg l))) ∧
    selects (.ldlx z d a n) [(a.val, 1)] ∧ selects (.ldlxReg z d a b) ([(a.val, 1)] ++ rdVecs b 1) ∧
    acquires (.ldlAcq z d e n) [] (ls.map fun l => (l, e.val, imm l)) ∧
    acquires (.ldlAcqReg z d e b) (rdVecs b 1) (ls.map fun l => (l, e.val, reg l))

/-- R153, R155, R159, R201, R207: a store whose lanes do not all reach writable open eyelets, or whose selectors are not all legal, is turned
away as a load is, and by an eyelet without W too; one whose lanes reach writable open eyelets changes no home: in every open eyelet of the cord on a line
that it writes, the higher lane's bytes standing, DATA takes the bytes and OWN their words, and no other eyelet's DATA or OWN changes; one
message for each eyelet that its lanes name goes to the line's home, counted in stcnt; the message of a release form waits in the cord's
order of releases, and one that a pending release or an unfinished drain of the cord holds words of waits behind it. The other cords of the
core lose OWN of the words that the store writes (R200), and those of other cores stay as they are.
What the spec leaves open there is as the model chose it: log entries 29, 56 and 63. -/
def Obligations.EyeletStores : Prop :=
  ∀ (z : StSize) (d : Rd) (e : Eye) (a : Vec) (n : Imm) (b : Rd) (s : State),
    let k := if z = .d then 2 else 1
    let ls := lanesOf s.cord.act
    let sel (l : Nat) : Nat := (s.cord.vreg a.val l).toNat % 256
    let picked := ls.filter fun l => sel l != 255
    let astray (l : Nat) : Prop := First ls (fun l => 16 ≤ sel l ∧ sel l ≠ 255) l
    let imm (_ : Nat) : Nat := n.toNat * stBytes z
    let reg (l : Nat) : Nat := (s.cord.rd b l).toNat
    let value (l : Nat) : List Byte := leBytes ((s.cord.rdAt d 0 l).toNat + if z = .d then (s.cord.rdAt d 1 l).toNat * 2 ^ 32 else 0) (stBytes z)
    let bytes (as : List (Nat × Nat × Nat)) (line : Nat) : List (Nat × Byte) :=
      (as.filter fun x => (s.cord.eye x.2.1).pla == line).foldl
        (fun m x => (cellsAt x.2.2 (value x.1)).foldl (fun m c => SMap.insert m c.1 c.2) m) []
    let msg (as : List (Nat × Nat × Nat)) (e : Nat) : StoreMsg :=
      { core := s.cord.core, cord := s.cord.cid, line := (s.cord.eye e).pla,
        bytes := (bytes as (s.cord.eye e).pla).filter fun c =>
          as.any fun x => x.2.1 == e && decide (x.2.2 ≤ c.1) && decide (c.1 < x.2.2 + stBytes z),
        eye := e, tok := s.fresh }
    let stores (rel : Bool) (i : Instr) (vs : List (Nat × Nat)) (as : List (Nat × Nat × Nat)) : Prop :=
      Form.check { lat := .n, vecs := rdVecs d k ++ vs } s = none → TurnedAway (exec i s) s as (stBytes z) true ∧
      (Reachable s as (stBytes z) →
      (∀ x ∈ as, (s.cord.eye x.2.1).w = true) → s.cord.stcnt + ((as.map (·.2.1)).eraseDups).length ≤ 255 →
        ∃ t, exec i s = .next (Form.issued { lat := .n, vecs := rdVecs d k ++ vs } t) ∧ t.mem = s.mem ∧
          t.cord.stcnt = s.cord.stcnt + ((as.map (·.2.1)).eraseDups).length ∧
          (∀ x ∈ as,
            let m := msg as x.2.1
            if rel then ∃ r ∈ t.cord.rels, r.kind = .store m ∧ r.own = 1
            else
              ((∀ r ∈ s.cord.rels, r.kind.holds m.line = 0) → (∀ k, s.drainOwes s.cord.cid m.line k = 0) →
                Event.storeAtHome m ∈ t.agenda.map (·.what)) ∧
              ((∃ c ∈ m.bytes, bit (s.drainOwes s.cord.cid m.line s.fresh) (c.1 / 4) = true ∨
                  ∃ r ∈ s.cord.rels, bit (r.kind.holds m.line) (c.1 / 4) = true) →
                ∃ r ∈ t.cord.rels, ∃ k, r.kind = .follow m k ∧ r.own = 1)) ∧
          (∀ c x, c ≠ s.cord.cid → s.cordRec c = some x → ∃ y, t.cordRec c = some y ∧ (x.core ≠ s.cord.core → y = x) ∧
            (x.core = s.cord.core → ∀ e : Nat, (y.eye e).st = (x.eye e).st ∧ (y.eye e).data = (x.eye e).data ∧
              ∀ w < 32, bit (y.eye e).own w = (bit (x.eye e).own w &&
                !(decide ((x.eye e).st = .opened) && (bytes as (x.eye e).pla).any fun c => c.1 / 4 == w)))) ∧
          ∀ e : Nat,
            let y := s.cord.eye e
            let written := if y.st = .opened then bytes as y.pla else []
            (∀ o, SMap.get 0 (t.cord.eye e).data o = (written.find? fun c => c.1 == o).elim (SMap.get 0 y.data o) (·.2)) ∧
            ∀ w < 32, bit (t.cord.eye e).own w = (bit y.own w || written.any fun c => c.1 / 4 == w))
    let selects (i : Instr) (vs : List (Nat × Nat)) : Prop :=
      Form.check { lat := .n, vecs := rdVecs d k ++ vs } s = none → ∀ l, astray l → exec i s = .next (s.raise .eyeSel (BitVec.ofNat 64 l))
    selects (.stlx z d a n) [(a.val, 1)] ∧ selects (.stlxReg z d a b) ([(a.val, 1)] ++ rdVecs b 1) ∧
    stores false (.stl z d e n) [] (ls.map fun l => (l, e.val, imm l)) ∧
    stores false (.stlReg z d e b) (rdVecs b 1) (ls.map fun l => (l, e.val, reg l)) ∧
    stores true (.stlRel z d e n) [] (ls.map fun l => (l, e.val, imm l)) ∧
    stores true (.stlRelReg z d e b) (rdVecs b 1) (ls.map fun l => (l, e.val, reg l)) ∧
    ((∀ l ∈ picked, sel l < 16) → stores false (.stlx z d a n) [(a.val, 1)] (picked.map fun l => (l, sel l, imm l))) ∧
    ((∀ l ∈ picked, sel l < 16) → stores false (.stlxReg z d a b) ([(a.val, 1)] ++ rdVecs b 1) (picked.map fun l => (l, sel l, reg l)))

/-- R155, R199, R200: when a store message reaches the home of a line of memory that no other core owns words of, and no earlier ldl.acq
of its cord has still to read the line, exactly its bytes are written, all at once; every other byte of home memory reads as before, the
core owns the words, and the store's acknowledgement, whose arrival lowers stcnt by one, is on its way, to a core of another device through
the fabric (the form of that message: log entry 57). -/
def Obligations.StoreAtHomeWritesExactlyItsBytes : Prop :=
  (∀ (s : State) (m : StoreMsg), s.now = some (.storeAtHome m) → s.unreachable m.line = false → s.epochs = [] →
    (∀ o ∈ s.owners, o.1 / 32 = m.line → o.2 = m.core) → (∀ d ∈ s.agenda, adapterWrite m.line d = false) →
    s.loadAhead m.core m.cord m.line m.tok = none → (s.isLocal (m.line * 128) && inWindow (m.line * 128)) = false → m.bytes ≠ [] → (∀ b ∈ m.bytes, b.1 < 128) →
    SMap.sorted m.bytes = true →
    ∃ t, exec .storeAtHome s = .next t ∧
      (∀ b ∈ m.bytes, t.byte (m.line * 128 + b.1) = b.2) ∧
      (∀ a, (∀ b ∈ m.bytes, a ≠ m.line * 128 + b.1) → t.byte a = s.byte a) ∧
      (∀ b ∈ m.bytes, (m.line * 32 + b.1 / 4, m.core) ∈ t.owners) ∧
      if m.core < 1000 then Event.storeAck m.cord m.line m.eye m.tok ∈ t.agenda.map (·.what) else (m.core / 1000 - 1, .done m.line) ∈ t.outbox) ∧
  ∀ (s : State) (c l e k : Nat), s.now = some (.storeAck c l e k) →
    exec .storeAck s = .next (State.onCord c (fun x => { x with stcnt := x.stcnt - 1 }) s)

/-! Events of eyelets. -/

/-- R147, R148, R152, R198, R206: a fill or an erfr reads each half of its line at the home at one moment, behind the results of the
cord's atomics on the line and its earlier drains to it, with what the cord has stored and the home has not performed laid over it; it arrives no earlier than the
least latency of an open. Then every byte but those of owned words (for an erfr) is what was read, FEP is the epoch, a fill opens its
eyelet with OWN clear, and ldcnt falls by one; a read that fails leaves the eyelet closed with its reason.
What the spec leaves open there is as the model chose it: log entries 11, 29 and 56. -/
def Obligations.FillsReachTheirEyelet : Prop :=
  ∀ (s : State) (c e tok : Nat) (x : Cord) (o : Op), Runs s c x → x.ops.find? (·.tok == tok) = some o → o.kind = .plain → o.ld = 0 →
    let y := x.eye e
    let line := y.pla
    let seen (hi : Nat) : List Byte := Sees s c (line * 128 + hi) 64
    let reads (ev : Instr) (now : Event) (least : Nat) (next : List Event) : Prop :=
      s.now = some now → ∃ t, exec ev s = .next t ∧
        if s.readWaits c tok line = true then Sends s t 1 now else ∃ i ∈ next, Sends s t least i
    let holds (t : State) (z : Cord) (bs : List Byte) (keep : Word) : Prop :=
      t.cordRec c = some z ∧ z.ldcnt = x.ldcnt - 1 ∧ (z.eye e).fep = x.epoch ∧
        ∀ i < 128, SMap.get 0 (z.eye e).data i = if bit keep (i / 4) then SMap.get 0 y.data i else bs.getD i 0
    (s.readFails line = none →
      reads .fillComplete (.fillComplete c e tok none none) 0
        [.fillComplete c e tok (some (seen 0)) none, .fillComplete c e tok none (some (seen 64))] ∧
      (∀ lo, reads .fillComplete (.fillComplete c e tok (some lo) none) (y.due - s.cycle)
        [.fillComplete c e tok (some lo) (some (seen 64))]) ∧
      (∀ hi, reads .fillComplete (.fillComplete c e tok none (some hi)) (y.due - s.cycle)
        [.fillComplete c e tok (some (seen 0)) (some hi)]) ∧
      (∀ lo hi, s.now = some (.fillComplete c e tok (some lo) (some hi)) → lo.length = 64 → hi.length = 64 →
        ∃ t z, exec .fillComplete s = .next t ∧ holds t z (lo ++ hi) 0 ∧ (z.eye e).st = .opened ∧ (z.eye e).own = 0) ∧
      (∀ hi, reads .erfrComplete (.erfrComplete c e tok none hi) 0 [.erfrComplete c e tok (some (seen 0)) hi]) ∧
      (∀ lo, reads .erfrComplete (.erfrComplete c e tok (some lo) none) (s.leastOpen x.core line - s.leastOpen x.core line / 2)
        [.erfrComplete c e tok (some lo) (some (seen 64))]) ∧
      (∀ lo hi, s.now = some (.erfrComplete c e tok (some lo) (some hi)) → lo.length = 64 → hi.length = 64 →
        ∃ t z, exec .erfrComplete s = .next t ∧ holds t z (lo ++ hi) y.own ∧ (z.eye e).st = y.st ∧ (z.eye e).own = y.own)) ∧
    (∀ r lo hi, s.readFails line = some r → s.now = some (.fillComplete c e tok lo hi) →
      ∃ t, exec .fillComplete s = .next t ∧ Sends s t 0 (.fillFailure c e tok r)) ∧
    ∀ r, s.now = some (.fillFailure c e tok r) →
      ∃ t z, exec .fillFailure s = .next t ∧ t.cordRec c = some z ∧ (z.eye e).st = .closed ∧ (z.eye e).reason = r ∧
        z.ldcnt = x.ldcnt - 1

/-- R156, R202 to R205, R218, R232: an acquire, here that of ldl.acq, advances EPOCH, and is to read first the half of its line that its lanes
load, and then to refresh exactly the open eyelets whose FEP is behind the new epoch, or every one when EPOCH has wrapped to 0; the reads of
fills in flight are made again, those of other acquires' opens and of an openv's attempt too. Once what it forces has come back, and no
earlier acquire of the cord has still to read, what the acquire returns is read at one moment: the loaded half, whose value is bound as the
home gives it, with what the cord had stored when it issued and what it owned then laid over it (R154), or the whole line of an open.acq;
every other eyelet in use is then to be read, but for those that a later openv fills. Each half is read at its home, and with the
last one, and no earlier than the form is due, the words reach the eyelets, but for those that the cord owns, FEP is then the epoch, and the form ends; the eyelet of an open.acq
opens with OWN clear, and ldcnt falls by one. A read of a region line is served as a fill or an erfr once the master has every share that
it forced.
What the spec leaves open there is as the model chose it: log entries 29 and 56. -/
def Obligations.RefreshesReachTheirEyelets : Prop :=
  (∀ (z : LdSize) (d : Wr) (e : Eye) (n : Imm) (s : State),
    let f : Form := { lat := .v, vecs := wrVecs d (if z = .d then 2 else 1) }
    let behind (y : Eyelet) : Prop := y.st = .opened ∧ (s.cord.epoch + 1 = 0 ∨ y.fep < s.cord.epoch + 1)
    let c := s.cord.cid
    f.check s = none → Reachable s ((lanesOf s.cord.act).map fun l => (l, e.val, n.toNat * ldBytes z)) (ldBytes z) → s.cord.live = true →
    ∃ t r, exec (.ldlAcq z d e n) s = .next (f.issued t) ∧ Sends s t 0 (.acquireComplete c s.fresh r) ∧
      t.cord.epoch = s.cord.epoch + 1 ∧ (∀ i, t.cord.eye i = { s.cord.eye i with due := (t.cord.eye i).due }) ∧
      r.forced = none ∧ r.fills = [] ∧ r.got = [] ∧ r.lines = [] ∧
      (∀ x, x ∈ r.first ↔ s.cord.act ≠ 0 ∧ x = (e.val, (s.cord.eye e.val).tok, decide (64 ≤ n.toNat * ldBytes z))) ∧
      (∀ (i : Nat) (hi : Bool), behind (s.cord.eye i) → (i, (s.cord.eye i).tok, hi) ∈ r.todo) ∧
      (∀ x ∈ r.todo, ∃ y, (x.1, y) ∈ t.cord.eyes ∧ behind y ∧ x.2.1 = y.tok) ∧
      (∀ i tk lo hi, Event.fillComplete c i tk lo hi ∈ s.agenda.map (·.what) → (s.cord.eye i).st = .filling →
        (∃ d ∈ t.agenda, readOf c i d.what = some tk) ∧
        ∀ tk' lo' hi', Event.fillComplete c i tk' lo' hi' ∈ t.agenda.map (·.what) → lo' = none ∧ hi' = none) ∧
      (∀ tk g, Event.acquireComplete c tk g ∈ s.agenda.map (·.what) → g.fills ≠ [] ∨ g.lines ≠ [] →
        Sends s t 0 (.acquireComplete c tk ⟨none, g.fills ++ g.lines.map (fun l => (l.1, l.2.1)), g.first, [], [], []⟩)) ∧
      ∀ o ∈ s.cord.ops, ∀ first m k v1 dead, o.kind = .versioned first m (k + 1) v1 dead → s.cord.runOf o ≠ [] →
        (∀ g, Event.acquireComplete c o.tok g ∉ s.agenda.map (·.what)) →
        Sends s t 0 (.acquireComplete c o.tok ⟨none, (s.cord.runOf o).map fun i => (i, o.tok), [], [], [], []⟩)) ∧
  ∀ (s : State) (c tok e : Nat) (x : Cord) (o : Op), Runs s c x → x.ops.find? (·.tok == tok) = some o →
    let y := x.eye e
    let line := y.pla
    let seen (hi : Bool) : List Byte := Sees s c (line * 128 + if hi then 64 else 0) 64
    let late : Prop := s.acquiresAhead x tok = true ∨ s.readWaits c tok line = true
    let others (r : Refresh) (but : Nat → Bool → Prop) : Prop :=
      r.forced = none ∧ r.fills = [] ∧ r.first = [] ∧
        ∀ i tk hi, (i, tk, hi) ∈ r.todo ↔ i < 16 ∧ (x.eye i).st ≠ .closed ∧ tk = (x.eye i).tok ∧ ¬but i hi ∧
          ((x.eye i).st = .opened ∨ (x.opKind tk).versionedRun = false)
    let nothing (fo : Option (List (Nat × Nat × Nat))) (todo : List (Nat × Nat × Bool)) : Prop :=
      fo = some [] ∨ fo = none ∧ ∀ h ∈ todo, (x.eye h.1).rgn = 31
    (∀ hi todo z d wb lanes kept, s.now = some (.acquireComplete c tok ⟨some [], [], [(e, y.tok, hi)], todo, [], []⟩) →
      o.kind = .load z d wb e lanes kept → y.st = .opened → s.readFails line = none → (∀ l ∈ lanes, l.2 + ldBytes z ≤ 128) →
      let at_ (i : Nat) : Byte :=
        (((s.inFlightTo c line tok ++ kept).reverse.find? fun k => k.1 == i).map (·.2)).getD (s.homeByte (line * 128 + i))
      ∃ t v r, exec .acquireComplete s = .next t ∧ t.cordRec c = some v ∧
        if late then Sends s t 1 (.acquireComplete c tok ⟨some [], [], [(e, y.tok, hi)], todo, [], []⟩)
        else Sends s t 0 (.acquireComplete c tok r) ∧ others r (fun i h => i = e ∧ h = hi) ∧ r.lines = [] ∧
          r.got = [(e, y.tok, hi, seen hi)] ∧ v.ops.find? (·.tok == tok) = some { o with
            kind := .plain,
            writes := o.writes ++ lanes.flatMap fun l =>
              (ldWords z (leNat ((List.range (ldBytes z)).map fun i => at_ (l.2 + i)))).zipIdx.map fun w =>
                match d with | .v n => .v (wb + n.val + w.2) l.1 w.1 | .s n => .s (n.val + w.2) w.1 }) ∧
    (∀ todo, s.now = some (.acquireComplete c tok ⟨some [], [(e, tok)], [], todo, [], []⟩) → o.kind = .plain → s.readFails line = none →
      ∃ t r, exec .acquireComplete s = .next t ∧
        if late then Sends s t 1 (.acquireComplete c tok ⟨some [], [(e, tok)], [], todo, [], []⟩)
        else Sends s t 0 (.acquireComplete c tok r) ∧ others r (fun i _ => i = e) ∧ r.got = [] ∧
          r.lines = [(e, tok, seen false ++ seen true)]) ∧
    (∀ fo te hi rest got lines, s.now = some (.acquireComplete c tok ⟨fo, [], [], (e, te, hi) :: rest, got, lines⟩) →
      nothing fo ((e, te, hi) :: rest) → y.st = .opened → y.tok = te → s.readFails line = none →
      ∃ t, exec .acquireComplete s = .next t ∧
        if s.resultsOut c line = true then Sends s t 1 (.acquireComplete c tok ⟨some [], [], [], (e, te, hi) :: rest, got, lines⟩)
        else Sends s t 0 (.acquireComplete c tok ⟨some [], [], [], rest, got ++ [(e, te, hi, seen hi)], lines⟩)) ∧
    (∀ fo got lines, nothing fo [] → s.now = some (.acquireComplete c tok ⟨fo, [], [], [], got, lines⟩) → s.cycle < o.due →
      ∃ t, exec .acquireComplete s = .next t ∧
        Sends s t (o.due - s.cycle) (.acquireComplete c tok ⟨some [], [], [], [], got, lines⟩)) ∧
    (∀ fo lo hi f, lo.length = 64 → hi.length = 64 → y.st = .opened → o.kind = .plain → o.left = 1 → o.flag = some f →
      nothing fo [] → o.due ≤ s.cycle →
      s.now = some (.acquireComplete c tok ⟨fo, [], [], [], [(e, y.tok, false, lo), (e, y.tok, true, hi)], []⟩) →
      ∃ t v, exec .acquireComplete s = .next t ∧ t.cordRec c = some v ∧ (v.eye e).fep = x.epoch ∧ (v.eye e).own = y.own ∧
        v.v = (x.applyAll o.writes).v ∧ v.s = (x.applyAll o.writes).s ∧ v.flagOf f.val = x.flagOf f.val - 1 ∧
        ∀ i < 128, SMap.get 0 (v.eye e).data i = if bit y.own (i / 4) then SMap.get 0 y.data i else (lo ++ hi).getD i 0) ∧
    (∀ fo bs f, bs.length = 128 → o.kind = .plain → o.ld = 0 → o.left = 2 → o.flag = some f → nothing fo [] → o.due ≤ s.cycle →
      s.now = some (.acquireComplete c tok ⟨fo, [], [], [], [], [(e, tok, bs)]⟩) →
      ∃ t v, exec .acquireComplete s = .next t ∧ t.cordRec c = some v ∧ (v.eye e).st = .opened ∧ (v.eye e).own = 0 ∧
        (v.eye e).fep = x.epoch ∧ v.ldcnt = x.ldcnt - 1 ∧ v.flagOf f.val = x.flagOf f.val - 1 ∧
        ∀ i < 128, SMap.get 0 (v.eye e).data i = bs.getD i 0) ∧
    (∀ fs, s.now = some (.tolerantReadService c e tok (some fs)) →
      ∃ t, exec .tolerantReadService s = .next t ∧
        Sends s t 0
          (if (∃ h ∈ fs, s.owing h = true) then .tolerantReadService c e tok (some fs)
           else if y.st = .filling then .fillComplete c e tok none none else .erfrComplete c e tok none none))

/-- R218: openv binds a run of eyelets to the lines from its address on and begins an acquire; an attempt reads the version word at the
home and then fills every line that no close or recall took from the run, in one read of all of them; one that ends with an even version
word equal to the home's opens the run with VOK, one that does not is made again, and the sixteenth opens the run without VOK. A run that a
close has ended makes no further attempt: what is left of it opens with the lines of its last fills, VOK 0.
What the spec leaves open there is as the model chose it: log entry 30. -/
def Obligations.VersionedOpens : Prop :=
  (∀ (d : Eye) (a b : Rd) (s : State) (v : Nat) (ps : List Page),
    let f : Form := { lat := .v, vecs := rdVecs a 1 ++ rdVecs b 1 }
    let n := v % 16 + 1
    f.check s = none → s.cord.live = true → s.cord.act ≠ 0 →
    (∀ l, l < 32 → bit s.cord.act l = true → (s.cord.rd a l).toNat + (s.cord.rd b l).toNat * 2 ^ 32 = v) →
    v / 16 % 8 = 0 → d.val + n ≤ 16 → s.cord.ldcnt + n ≤ 255 →
    Hits s .r ((List.range n).map fun i => (v / 128 + i) * 128 % 2 ^ 64) ps → (∀ i < n, NoRead s s.cord.cid (d.val + i)) →
    ∃ t r, exec (.openv d a b) s = .next (f.issued t) ∧ t.cord.ldcnt = s.cord.ldcnt + n ∧ t.cord.epoch = s.cord.epoch + 1 ∧
      Sends s t 0 (.acquireComplete s.cord.cid s.fresh r) ∧
      ∀ i < n, (t.cord.eye (d.val + i)).st = .filling ∧ (t.cord.eye (d.val + i)).vla = (v / 128 + i) % 2 ^ 57 ∧
        (t.cord.eye (d.val + i)).tok = s.fresh) ∧
  (∀ (s : State) (c tok : Nat) (x : Cord) (o : Op) (first n k : Nat), s.now = some (.openvAttemptEnd c tok) → Runs s c x →
    x.ops.find? (·.tok == tok) = some o → o.kind = .version first n k false →
    ∃ t y, exec .openvAttemptEnd s = .next t ∧ t.cordRec c = some y ∧ y.ldcnt = x.ldcnt ∧
      y.opKind tok = .versioned first n k (leNat ((List.range 8).map fun i => s.homeByte ((x.eye first).pla * 128 + i))) false ∧
      ∃ r, ((∃ i < n, (x.eye (first + i)).tok = tok) → Sends s t 0 (.acquireComplete c tok r)) ∧
        ∀ i < n, (x.eye (first + i)).tok = tok → (y.eye (first + i)).st = .filling ∧ (first + i, tok) ∈ r.fills) ∧
  (∀ (s : State) (c tok e : Nat) (x : Cord) (o : Op) (first n k v1 : Nat) (dead : Bool) (bs : List Byte),
    s.now = some (.acquireComplete c tok ⟨some [], [], [], [], [], [(e, tok, bs)]⟩) → Runs s c x → bs.length = 128 →
    x.ops.find? (·.tok == tok) = some o → o.due ≤ s.cycle → o.kind = .versioned first n (k + 1) v1 dead → o.left = 1 →
    ∃ t y, exec .acquireComplete s = .next t ∧ t.cordRec c = some y ∧ y.ldcnt = x.ldcnt ∧ (y.eye e).st = (x.eye e).st ∧
      (y.eye e).fep = x.epoch ∧ (∀ i < 128, SMap.get 0 (y.eye e).data i = bs.getD i 0) ∧ Sends s t 0 (.openvAttemptEnd c tok)) ∧
  (∀ (s : State) (c tok : Nat) (x : Cord) (o : Op) (first n k : Nat), s.now = some (.openvAttemptEnd c tok) → Runs s c x →
    x.ops.find? (·.tok == tok) = some o → o.kind = .version first n (k + 2) true → x.staleRun o = false → o.ld = n →
    ∃ t y, exec .openvAttemptEnd s = .next t ∧ t.cordRec c = some y ∧ y.ldcnt = x.ldcnt - n ∧
      ∀ i < n, (y.eye (first + i)) =
        if (x.eye (first + i)).st = .filling ∧ (x.eye (first + i)).tok = o.tok then
          { x.eye (first + i) with st := .opened, own := 0, fep := x.epoch, vok := false, vtry := k + 1 }
        else x.eye (first + i)) ∧
  ∀ (s : State) (c tok : Nat) (x : Cord) (o : Op) (first n k v1 : Nat), s.now = some (.openvAttemptEnd c tok) → Runs s c x →
    x.ops.find? (·.tok == tok) = some o → o.kind = .versioned first n k v1 false → o.ld = n →
    (∀ i < n, (x.eye (first + i)).st = .filling ∧ (x.eye (first + i)).tok = tok) →
    let ok := v1 % 2 = 0 ∧ v1 = leNat ((List.range 8).map fun i => s.homeByte ((x.eye first).pla * 128 + i))
    (ok ∨ 16 ≤ k → ∃ t y, exec .openvAttemptEnd s = .next t ∧ t.cordRec c = some y ∧ y.ldcnt = x.ldcnt - n ∧
      ∀ i < n, (y.eye (first + i)).st = .opened ∧ (y.eye (first + i)).own = 0 ∧ (y.eye (first + i)).fep = x.epoch ∧
        ((y.eye (first + i)).vok = true ↔ ok) ∧ (y.eye (first + i)).vtry = k) ∧
    (¬ok → k < 16 → ∃ t y, exec .openvAttemptEnd s = .next t ∧ t.cordRec c = some y ∧ y.eyes = x.eyes ∧ y.ldcnt = x.ldcnt ∧
      y.opKind tok = .version first n (k + 1) false ∧ Sends s t 0 (.openvAttemptEnd c tok))

/-- R146, R157, R158, R200: a walk that ends answers its cord and fills the open TLB; a recall closes every eyelet of the core on its line,
and is acknowledged only when no earlier store of the core to the line is out, for a recall by the debug path no earlier one through that
eyelet (R373); an owner-loss notice clears the OWN bits of its words.
What the spec leaves open there is as the model chose it: log entries 4 and 35. -/
def Obligations.WalksRecallsAndNotices : Prop :=
  ∀ (s : State),
    (∀ c x k, s.now = some (.pageWalkEnd c [k]) → Runs s c x →
      ∃ t y, exec .pageWalkEnd s = .next t ∧ t.cordRec c = some y ∧ y.walked = x.walked ++ [(k, s.walk x.ctx (k * 65536))] ∧
        ∀ p, s.walk x.ctx (k * 65536) = some p → p.bad = false → p ∈ (t.coreOf x.core).tlb) ∧
    (∀ core line reason rid, s.now = some (.recallAtCore core line reason rid) →
      ∃ t n, exec .recallAtCore s = .next t ∧ s.fresh < n ∧ Sends s t 1 (.recallAck rid n none) ∧
        ∀ c x e, Runs s c x → x.core = core → (x.eye e).st ≠ .closed → (x.eye e).pla = line →
          ∃ y, t.cordRec c = some y ∧ (y.eye e).st = .closed ∧ (y.eye e).reason = reason) ∧
    (∀ rid core line n only, s.now = some (.recallAck rid n only) → s.recalls.find? (·.1 == rid) = some (rid, core, line) →
      let counts (m : StoreMsg) : Prop :=
        m.core = core ∧ m.line = line ∧ m.tok < n ∧ (only = none ∨ only = some (m.cord, m.eye))
      (∀ m, Event.storeAtHome m ∈ s.agenda.map (·.what) → counts m → s.storesOut core line n only = true) ∧
      (s.storesOut core line n only = true →
        ∃ t, exec .recallAck s = .next t ∧ t.recalls = s.recalls ∧ Sends s t 1 (.recallAck rid n only)) ∧
      (s.storesOut core line n only = false → ∃ t, exec .recallAck s = .next t ∧ ∀ r, r ∈ t.recalls ↔ r ∈ s.recalls ∧ r.1 ≠ rid)) ∧
    (∀ c e x, s.now = some (.debugRecall c e) → Runs s c x → (x.eye e).st ≠ .closed →
      ∃ t y, exec .debugRecall s = .next t ∧ t.cordRec c = some y ∧ (y.eye e).st = .closed ∧ (y.eye e).reason = .sys ∧
        ∃ rid, (rid, x.core, (x.eye e).pla) ∈ t.recalls ∧ Sends s t 1 (.recallAck rid (rid + 1) (some (c, e)))) ∧
    ∀ core line ws, s.now = some (.ownerLossNotice core line ws) → core < 1000 →
      ∃ t, exec .ownerLossNotice s = .next t ∧ (∀ w < 32, bit ws w = true → (line * 32 + w, core) ∉ t.owners) ∧
        ∀ c x e, Runs s c x → x.core = core → (x.eye e).st = .opened → (x.eye e).pla = line →
          ∃ y, t.cordRec c = some y ∧ y.eye e = { x.eye e with own := (x.eye e).own &&& ~~~ws }

/-! Ordering, atomics, copy batches, flush, discard and L2 locks. -/

/-- R208, R216: a counter wait issues, with no effect, once its counter is small enough, and until then the cord stays at it; seal gives
the active threads' BSEQ and closes their batches; waitb whose batches are complete begins an acquire and the cord waits for it.
What the spec leaves open there is as the model chose it: log entry 24. -/
def Obligations.CounterWaitsAndBatches : Prop :=
  ∀ (n : Imm) (d : Wr) (a : Rd) (s : State),
    let stays : Out := .next { s with cord := { s.cord with blk := {}, stallAt := s.cycle + 1 } }
    (Form.check { lat := .n } s = none →
      (s.cord.ldcnt ≤ n.toNat → exec (.waitcLd n) s = .next (Form.issued { lat := .n } s)) ∧
      (n.toNat < s.cord.ldcnt → exec (.waitcLd n) s = stays) ∧
      (s.cord.stcnt ≤ n.toNat → exec (.waitcSt n) s = .next (Form.issued { lat := .n } s)) ∧
      (n.toNat < s.cord.stcnt → exec (.waitcSt n) s = stays)) ∧
    (Form.check { lat := .i4, vecs := wrVecs d 1 } s = none →
      (∀ l, bit s.cord.act l = true → (s.cord.thread l).batches.length < 8) →
      ∃ ts, exec (.sealBatch d) s = .next (Form.issued { lat := .i4, vecs := wrVecs d 1 } { s with
          agenda := s.agenda ++ fixed s 4 (s.cord.writes32 d fun l => (s.cord.thread l).bseq.setWidth 32),
          cord := { s.cord with threads := ts } }) ∧
        ∀ l, SMap.get {} ts l =
          if l < 32 ∧ bit s.cord.act l = true then
            { s.cord.thread l with
              bseq := (s.cord.thread l).bseq + 1, unsealed := [],
              batches := (s.cord.thread l).batches ++
                if (s.cord.thread l).unsealed = [] then [] else [((s.cord.thread l).bseq.toNat, (s.cord.thread l).unsealed)] }
          else s.cord.thread l) ∧
    (Form.check { lat := .n, vecs := rdVecs a 1 } s = none → s.cord.live = true →
      (∀ l < 32, bit s.cord.act l = true → (s.cord.thread l).bseq ≠ (s.cord.rd a l).setWidth 16 ∧
        ∀ b ∈ (s.cord.thread l).batches,
          ((s.cord.thread l).bseq - BitVec.ofNat 16 b.1).toNat < ((s.cord.thread l).bseq - (s.cord.rd a l).setWidth 16).toNat) →
      ∃ t r, exec (.waitb a) s = .next (Form.issued { lat := .n, vecs := rdVecs a 1 } t) ∧ t.cord.epoch = s.cord.epoch + 1 ∧
        t.cord.wait = .acquire s.fresh ∧ Sends s t 0 (.acquireComplete s.cord.cid s.fresh r))

/-- R145, R153, R209, R210, R212 to R214: an atomic whose lanes do not all reach a writable open eyelet is turned away as a store is, and on a
line of the register window it raises perm_fault; one whose lanes reach a writable open eyelet is one request to the home of the line, counted in
stcnt and, when it returns a result, in ldcnt; with the release bit it waits in the cord's order of releases, and so it does behind a pending
release, or an unfinished drain of the cord, that holds words of it. One without a result clears OWN of the words it names. Memory is as before.
What the spec leaves open there is as the model chose it: log entries 56 and 63. -/
def Obligations.AtomicsAtIssue : Prop :=
  ∀ (d : Wr) (e : Eye) (b : Rd) (lit : Word) (s : State),
    let ty := lit.toNat / 2 ^ 12 % 16
    let z := if ty = 6 ∨ ty = 7 then 8 else 4
    let off (l : Nat) : Nat := match atomOff lit with | some r => (s.cord.rd r l).toNat | none => lit.toNat % 128 * z
    let ls := lanesOf s.cord.act
    let y := s.cord.eye e.val
    let wide (r : Rd) (l : Nat) : Dword := if z = 8 then s.cord.rd64 r l else (s.cord.rd r l).setWidth 64
    let issues (i : Instr) (kind : Nat) (dst : Option Wr) : Prop :=
      let f : Form := { lat := if kind = 2 then .n else .v,
                        vecs := (match dst with | some d => wrVecs d (z / 4) | none => []) ++ rdVecs b (z / 4) ++
                          (match atomOff lit with | some r => rdVecs r 1 | none => []) }
      let r : AtomReq :=
        { core := s.cord.core, cord := s.cord.cid, line := y.pla, kind := kind, op := lit.toNat / 2 ^ 8 % 16, ty := ty,
          lanes := ls.map fun l => ⟨l, off l, wide b l, match dst with | some d => wide (wrRd d) l | none => 0⟩, dst := dst, wb := s.cord.wb,
          acq := bit lit 16, flag := if kind = 2 then none else some s.cord.flag, sysAtomic := y.sysAtomic, eye := e.val, tok := s.fresh }
      let as := ls.map fun l => (l, e.val, off l)
      f.check s = none → TurnedAway (exec i s) s as z true ∧
        (Reachable s as z → y.w = true → inWindow (y.pla * 128) = true →
          exec i s = .next (s.raise .permFault (BitVec.ofNat 64 (y.vla * 128 + ((ls.head?).map off).getD 0)))) ∧
      (Reachable s as z → y.w = true → inWindow (y.pla * 128) = false →
      s.cord.stcnt + 1 ≤ 255 → (kind ≠ 2 → s.cord.ldcnt + 1 ≤ 255) →
      ∃ t, exec i s = .next (f.issued t) ∧ t.mem = s.mem ∧ t.cord.stcnt = s.cord.stcnt + 1 ∧
        t.cord.ldcnt = s.cord.ldcnt + (if kind = 2 then 0 else 1) ∧
        (if bit lit 17 then ∃ p ∈ t.cord.rels, p.kind = .atom r ∧ p.own = 1
         else if ∃ l ∈ ls, ∃ i < z, bit (s.drainOwes s.cord.cid y.pla s.fresh) ((off l + i) / 4) = true ∨
             ∃ p ∈ s.cord.rels, bit (p.kind.holds y.pla) ((off l + i) / 4) = true then
           ∃ p ∈ t.cord.rels, p.kind = .followAtom r s.fresh ∧ p.own = 1
         else Sends s t 0 (.atomicAtHome r)) ∧
        ∀ i w, w < 32 → bit (t.cord.eye i).own w = (bit (s.cord.eye i).own w &&
          !(decide (kind = 2 ∧ (s.cord.eye i).st = .opened ∧ (s.cord.eye i).pla = y.pla ∧
            ∃ l ∈ ls, off l / 4 ≤ w ∧ w ≤ (off l + z - 1) / 4))))
    issues (.atom d e b lit) 0 (some d) ∧ issues (.atomcas d e b lit) 1 (some d) ∧ issues (.atomred e b lit) 2 none

/-- R209, R211 to R215: the home performs the operations of an atomic's lanes one after another as one update: each lane's new value
comes from the old one that its turn finds, and no other byte changes; the old values go back with the result, and with them what every
byte of the words that the lanes changed holds after the operation, the cord's own stores still on their way laid over it. The result makes
its acquire if it has one, and then writes the destination, ends the request and puts those bytes into the cord's eyelets on the line, OWN
of their words clear. A core of another device hears of it through the fabric. A host adapter does the same in one step, or in a read and a
later write.
What the spec leaves open there is as the model chose it: log entry 56; the forms of the messages in the outbox: log entry 57. -/
def Obligations.AtomicsAtHome : Prop :=
  (∀ (s : State) (r : AtomReq),
    let z := if r.ty = 6 ∨ r.ty = 7 then 8 else 4
    let turn (p : List (Nat × Dword) × (Nat → Byte)) (x : AtomLane) : List (Nat × Dword) × (Nat → Byte) :=
      let old : Dword := BitVec.ofNat 64 (leNat ((List.range z).map fun i => p.2 (x.off + i)))
      (p.1 ++ [(x.lane, old)], fun o =>
        if x.off ≤ o ∧ o < x.off + z then BitVec.ofNat 8 ((atomResult r x old).toNat / 2 ^ (8 * (o - x.off))) else p.2 o)
    let all := r.lanes.foldl turn ([], fun o => s.byte (r.line * 128 + o))
    let changed (o : Nat) : Prop :=
      ∃ p ∈ r.lanes.zip all.1, (r.kind = 1 → p.2.2 = p.1.cmp) ∧ p.1.off ≤ o ∧ o < p.1.off + z
    let updates (t : State) : Prop :=
      (∀ o < 128, t.byte (r.line * 128 + o) = all.2 o) ∧ (∀ a, a / 128 ≠ r.line → t.byte a = s.byte a) ∧
      (r.core < 1000 →
        (r.kind ≠ 2 → ∃ cells, Sends s t 0 (.atomicResult r all.1 cells) ∧ ∀ o b, (o, b) ∈ cells ↔
          changed o ∧ b = (((s.inFlight r.cord r.line).reverse.find? fun k => k.1 == o).map (·.2)).getD (all.2 o)) ∧
        ∀ x, Runs s r.cord x → ∃ y, t.cordRec r.cord = some y ∧ y.stcnt = x.stcnt - 1) ∧
      (1000 ≤ r.core → (r.core / 1000 - 1, if r.kind = 2 then .done r.line else .olds r.line all.1) ∈ t.outbox)
    (∀ x ∈ r.lanes, x.off % z = 0 ∧ x.off + z ≤ 128) → s.epochs = [] → (∀ o ∈ s.owners, o.1 / 32 ≠ r.line) →
    (s.isLocal (r.line * 128) && inWindow (r.line * 128)) = false → s.loadAhead r.core r.cord r.line r.tok = none →
    (s.now = some (.atomicAtHome r) → s.unreachable r.line = false → isHostLine r.line = false →
      ∃ t, exec .atomicAtHome s = .next t ∧ updates t) ∧
    (s.now = some (.atomicAtHome r) → s.unreachable r.line = false → isHostLine r.line = true →
      ∃ t, exec .atomicAtHome s = .next t ∧ t.mem = s.mem ∧ Sends s t 0 (.adapterAtomic r none)) ∧
    (s.now = some (.adapterAtomic r none) →
      ∃ t, exec .adapterAtomic s = .next t ∧
        if r.sysAtomic = true then updates t else t.mem = s.mem ∧ Sends s t 1 (.adapterAtomic r (some all.1))) ∧
    ∀ x old, s.now = some (.adapterAtomic r (some [(x.lane, old)])) → r.lanes = [x] → old.toNat < 2 ^ (8 * z) →
      ∃ t, exec .adapterAtomic s = .next t ∧
        ∀ a, t.byte a = if (r.kind = 1 → old = x.cmp) ∧ r.line * 128 + x.off ≤ a ∧ a < r.line * 128 + x.off + z then
          BitVec.ofNat 8 ((atomResult r x old).toNat / 2 ^ (8 * (a - (r.line * 128 + x.off)))) else s.byte a) ∧
  (∀ (r : AtomReq) (x : AtomLane) (old : Dword),
    let int (n : Nat) (sg : Bool) (o b : BitVec n) : BitVec n :=
      let le (p q : BitVec n) : Prop := if sg then p.toInt ≤ q.toInt else p.toNat ≤ q.toNat
      if r.op = 0 then o + b else if r.op = 1 then (if le o b then o else b) else if r.op = 2 then (if le o b then b else o)
      else if r.op = 3 then o &&& b else if r.op = 4 then o ||| b else if r.op = 5 then o ^^^ b else b
    (r.kind = 1 → atomResult r x old = if old = x.cmp then x.b else old) ∧
    (r.kind ≠ 1 → r.ty = 4 ∨ r.ty = 5 → lo32 (atomResult r x old) = int 32 (decide (r.ty = 4)) (lo32 old) (lo32 x.b)) ∧
    (r.kind ≠ 1 → r.ty = 6 ∨ r.ty = 7 → atomResult r x old = int 64 (decide (r.ty = 6)) old x.b) ∧
    (r.kind ≠ 1 → r.ty = 10 → lo32 (atomResult r x old) =
      if r.op = 0 then BitVec.ofNat 32 (fp32.op2 false false Machine.Num.add (lo32 old).toNat (lo32 x.b).toNat)
      else if r.op = 1 then BitVec.ofNat 32 (fp32.minmax false (lo32 old).toNat (lo32 x.b).toNat)
      else if r.op = 2 then BitVec.ofNat 32 (fp32.minmax true (lo32 old).toNat (lo32 x.b).toNat)
      else lo32 x.b)) ∧
  (∀ (s : State) (c tok line : Nat) (x : Cord) (o : Op) (cells : List (Nat × Byte)),
    s.now = some (.acquireComplete c tok ⟨some [], [], [], [], [], []⟩) → Runs s c x → x.ops.find? (·.tok == tok) = some o →
    o.due ≤ s.cycle → o.kind = .atom line cells → o.left = 1 → (∀ p ∈ cells, ∀ q ∈ cells, p.1 = q.1 → p = q) →
    ∃ t y, exec .acquireComplete s = .next t ∧ t.cordRec c = some y ∧ y.v = (x.applyAll o.writes).v ∧
      ∀ e, (x.eye e).st = .opened → (x.eye e).pla = line → ∀ p ∈ cells,
        SMap.get 0 (y.eye e).data p.1 = p.2 ∧ (p.1 < 128 → bit (y.eye e).own (p.1 / 4) = false)) ∧
  ∀ (s : State) (r : AtomReq) (olds : List (Nat × Dword)) (cells : List (Nat × Byte)) (x : Cord) (d : Vec) (f : Flag),
    s.now = some (.atomicResult r olds cells) → Runs s r.cord x → r.dst = some (.v d) → r.flag = some f →
    (∀ p ∈ cells, ∀ q ∈ cells, p.1 = q.1 → p = q) →
    let ws := olds.flatMap fun o => RegWrite.v (r.wb + d.val) o.1 (lo32 o.2) ::
      if r.ty = 6 ∨ r.ty = 7 then [.v (r.wb + d.val + 1) o.1 (hi32 o.2)] else []
    ∃ t y, exec .atomicResult s = .next t ∧ t.cordRec r.cord = some y ∧
      (r.acq = false → y.v = (x.applyAll ws).v ∧ y.ldcnt = x.ldcnt - 1 ∧ y.flagOf f.val = x.flagOf f.val - 1 ∧
        ∀ e, (x.eye e).st = .opened → (x.eye e).pla = r.line → ∀ p ∈ cells,
          SMap.get 0 (y.eye e).data p.1 = p.2 ∧ (p.1 < 128 → bit (y.eye e).own (p.1 / 4) = false)) ∧
      (r.acq = true → y.epoch = x.epoch + 1 ∧ (∀ e, (y.eye e).data = (x.eye e).data ∧ (y.eye e).own = (x.eye e).own) ∧
        ∃ g, Sends s t 0 (.acquireComplete r.cord s.fresh g))

/-- R220 to R222, R377, R381: flushr goes to the homes of its range, which then give their counters as stamps and advance them, and its walker
writes back each line that is dirty with an old enough stamp; disc recalls every holder of each line, those on other devices too, and with the
recalls acknowledged the line reads its backing content. A home on another device is asked for its lines, and the flag falls once every one
has answered; a device that is asked walks its lines in the same way, and then answers.
The forms of the messages in the outbox, and that a discard's answer brings the content that its lines have then, are as the model chose
them: log entry 57. -/
def Obligations.FlushAndDiscard : Prop :=
  (∀ (a b : Rd) (lit : Word) (s : State) (ps : List Page),
    let f : Form := { lat := .v, vecs := rdVecs a 1 ++ rdVecs b 1 }
    let v := s.cord.once64 a b
    let n := (lit.toNat % 2 ^ 27 + 1) * 128
    let runs := physRuns v n ps
    let lines := runs.map fun r => (r.1 / 128, r.2 / 128)
    f.check s = none → v % 128 = 0 → s.cord.stcnt = 0 → (∀ r ∈ runs, inWindow r.1 = false) →
    (Hits s .r (pageStarts v n) ps →
      ∃ t, exec (.flushr a b lit) s = .next (f.issued t) ∧ t.mem = s.mem ∧ t.backing = s.backing ∧ t.flushCtr = s.flushCtr ∧
        Sends s t 1 (.flushrComplete s.cord.cid s.cord.flag { runs := lines })) ∧
    (Hits s .w (pageStarts v n) ps → (∀ r ∈ (s.ctxOf s.cord.ctx).regions, overlaps v n r.base r.size = false) →
      ∃ t, exec (.disc a b lit) s = .next (f.issued t) ∧ t.mem = s.mem ∧ t.backing = s.backing ∧
        Sends s t 1 (.discAtHome s.cord.cid s.cord.flag { runs := lines }))) ∧
  ∀ (s : State) (c : Nat) (f : Flag),
    let away (r : Nat × Nat) : Prop := devOf (r.1 * 128) ≠ s.dev.devno ∧ devOf (r.1 * 128) < 960
    let asks (t : State) (drop : Bool) (runs : List (Nat × Nat)) (job : FlushJob) : Prop :=
      ∀ r ∈ runs, away r → ∃ rid lines, (rid, devOf (r.1 * 128)) ∈ job.away ∧ rid ∈ t.asked ∧
        (devOf (r.1 * 128), .walk drop lines rid) ∈ t.outbox ∧ ∀ x, x ∈ lines ↔ x ∈ runs ∧ away x ∧ devOf (x.1 * 128) = devOf (r.1 * 128)
    let stays (t : State) : Prop := t.mem = s.mem ∧ t.backing = s.backing
    let begun (runs : List (Nat × Nat)) (job : FlushJob) (back : Option (Nat × Nat × List (Nat × Nat))) : Prop :=
      job.back = back ∧ ∀ r, r ∈ job.runs ↔ r ∈ runs ∧ ¬away r
    (∀ runs back, s.now = some (.flushrComplete c f { runs := runs, back := back }) →
      ∃ t job stamps, exec .flushrComplete s = .next t ∧ stays t ∧ Sends s t 0 (.flushrComplete c f job) ∧ begun runs job back ∧
        job.stamps = some stamps ∧ asks t false runs job ∧
        ∀ r ∈ runs, ¬away r → ∀ i < r.2, (s.homeOf (r.1 + i), SMap.get 0 s.flushCtr (s.homeOf (r.1 + i))) ∈ stamps ∧
          SMap.get 0 t.flushCtr (s.homeOf (r.1 + i)) = (SMap.get 0 s.flushCtr (s.homeOf (r.1 + i)) + 1) % 2 ^ 32) ∧
    (∀ runs back, s.now = some (.discAtHome c f { runs := runs, back := back }) →
      ∃ t job, exec .discAtHome s = .next t ∧ stays t ∧ t.flushCtr = s.flushCtr ∧ Sends s t 0 (.discAtHome c f job) ∧
        begun runs job back ∧ job.stamps.isSome = true ∧ asks t true runs job) ∧
    (∀ (job : FlushJob) stamps line n rest, job.stamps = some stamps → job.runs = (line, n + 1) :: rest →
      s.now = some (.flushrComplete c f job) →
      let old := ∃ x, s.l2.find? (·.line == line) = some x ∧ x.dirty = true ∧
        x.stamp ≤ ((stamps.find? fun p => p.1 == s.homeOf line).map (·.2)).getD 0
      ∃ t, exec .flushrComplete s = .next t ∧ t.mem = s.mem ∧
        Sends s t 0 (.flushrComplete c f { job with runs := (line + 1, n) :: rest }) ∧
        (old → (∀ x ∈ t.l2, x.line = line → x.dirty = false) ∧
          ∀ a, SMap.get 0 t.backing a = if a / 128 = line then s.byte a else SMap.get 0 s.backing a) ∧
        (¬old → t.l2 = s.l2 ∧ t.backing = s.backing)) ∧
    (∀ (job : FlushJob) line n rest, job.stamps.isSome = true → job.runs = (line, n + 1) :: rest → s.now = some (.discAtHome c f job) →
      ∃ t rids, exec .discAtHome s = .next t ∧ t.mem = s.mem ∧ Sends s t 1 (.discDrop c f job rids) ∧
        (∀ core ∈ s.sharers line, ∃ rid ∈ rids, (rid, core, line) ∈ t.recalls ∧ Sends s t 1 (.recallAtCore core line .disc rid)) ∧
        ∀ d ∈ s.noticeDies line, ∃ rid ∈ rids, (d.1, .notice d.2 line .disc rid) ∈ t.outbox) ∧
    (∀ (job : FlushJob) line n rest rids, job.runs = (line, n + 1) :: rest → s.now = some (.discDrop c f job rids) →
      s.recalling rids = false → s.cacheable line = true → s.epochs = [] → (∀ o ∈ s.owners, o.1 / 32 ≠ line) →
      ∃ t, exec .discDrop s = .next t ∧ Sends s t 0 (.discAtHome c f { job with runs := (line + 1, n) :: rest }) ∧
        ∀ a, t.byte a = if a / 128 = line then SMap.get 0 s.backing a else s.byte a) ∧
    (∀ (job : FlushJob) (drop : Bool), job.stamps.isSome = true →
      let ev := if drop then Instr.discAtHome else .flushrComplete
      let now := if drop then Event.discAtHome c f job else .flushrComplete c f job
      s.now = some now →
      (∀ rest line, job.runs = (line, 0) :: rest → ∃ t, exec ev s = .next t ∧ stays t ∧
        Sends s t 0 (if drop then .discAtHome c f { job with runs := rest } else .flushrComplete c f { job with runs := rest })) ∧
      (job.runs = [] → job.back = none →
        (∀ x, Runs s c x → (∀ a ∈ job.away, a.1 ∉ s.asked ∨ a.2 ∈ s.dev.lost) → ∃ t y, exec ev s = .next t ∧ stays t ∧
          t.cordRec c = some y ∧ y.flagOf f.val = x.flagOf f.val - 1) ∧
        ((∃ a ∈ job.away, a.1 ∈ s.asked) → (∀ a ∈ job.away, a.2 ∉ s.dev.lost) → ∃ t, exec ev s = .next t ∧ stays t ∧ Sends s t 1 now)) ∧
      ∀ dev rid runs, job.runs = [] → job.back = some (dev, rid, runs) → ∃ t bs, exec ev s = .next t ∧ stays t ∧
        (dev, .walked rid bs) ∈ t.outbox ∧ (drop = false → bs = []) ∧
        (drop = true → ∀ r ∈ runs, ∀ i < r.2, (r.1 + i, (List.range 128).map fun o => s.homeByte ((r.1 + i) * 128 + o)) ∈ bs)) ∧
    ∀ dev drop runs rid, s.now = some (.remoteNotice (.walk dev drop runs rid)) → s.dev.working = true → s.dev.alive = true →
      ∃ t job, exec .remoteNotice s = .next t ∧ stays t ∧
        Sends s t 0 (if drop then .discAtHome 0 0 job else .flushrComplete 0 0 job) ∧ job.stamps = none ∧
        job.back = some (dev, rid, job.runs) ∧ ∀ r, r ∈ job.runs ↔ r ∈ runs ∧ s.isLocal (r.1 * 128) = true

/-- R146, R161, R163: lock serves its lanes in order, and for each pins the line in its slice and in the context's list of locks, or says in
the lane's status, which the checks of R163 give in their order, why not, and pins nothing; unlk ends the locks of its lines; prefl, which
holds the issue slot for 2 cycles when it translates, fetches the lines that translate, changing no content of memory; the result of a lock
comes when its line is present.
What the spec leaves open there is as the model chose it: log entries 5 and 32. -/
def Obligations.LocksAndPrefetch : Prop :=
  ∀ (s : State),
    (∀ (d : Wr) (a b : Rd) (ps : List Page),
      let f : Form := { lat := .v, vecs := wrVecs d 1 ++ rdVecs a 1 ++ rdVecs b 1 }
      let k := s.cord.ctx
      let ls := s.cord.runLanes d
      let vas := ls.map fun l => (pair64 (s.cord.rd a l) (s.cord.rd b l)).toNat
      let serves (u v : State) (line st : Nat) : Prop :=
        let x := u.ctxOf k
        let local_ := inWindow (line * 128) = false ∧ u.isLocal (line * 128) = true
        v.mem = u.mem ∧ (st ≠ 0 → v = u) ∧
        (inWindow (line * 128) = true → st = 5) ∧
        (inWindow (line * 128) = false → u.isLocal (line * 128) = false → st = 4) ∧
        (local_ → line ∈ x.locks → st = 1) ∧
        (local_ → line ∉ x.locks → x.quota.toNat = x.locks.length → st = 2) ∧
        (local_ → line ∉ x.locks → x.quota.toNat ≠ x.locks.length → 6 ≤ (u.setPins line).1 → st = 3) ∧
        (local_ → line ∉ x.locks → x.quota.toNat ≠ x.locks.length → (u.setPins line).1 < 6 →
          st = 0 ∧ (v.ctxOf k).locks = x.locks ++ [line] ∧ ∃ y ∈ v.l2, y.line = line ∧ k ∈ y.lockers)
      f.check s = none → Hits s .r vas ps →
      ∃ (us : Nat → State) (st : Nat → Nat), us 0 = translated s ∧
        exec (.lock d a b) s = .next (f.issued (State.afterFree 1 (.lockComplete s.cord.cid s.cord.flag
          (ls.zipIdx.map fun x => s.cord.bind d 0 x.1 (BitVec.ofNat 32 (st x.2)))) (us ls.length))) ∧
        ∀ i x, (vas.zip ps)[i]? = some x → serves (us i) (us (i + 1)) (x.2.addr x.1 / 128) (st i)) ∧
    (∀ c f ws x, s.now = some (.lockComplete c f ws) → Runs s c x →
      ∃ t y, exec .lockComplete s = .next t ∧ t.cordRec c = some y ∧ y.v = (x.applyAll ws).v ∧ y.s = (x.applyAll ws).s ∧
        y.flagOf f.val = x.flagOf f.val - 1) ∧
    (∀ (a b : Rd) (ps : List Page),
      let f : Form := { lat := .n, vecs := rdVecs a 1 ++ rdVecs b 1 }
      let vas := (lanesOf s.cord.act).map fun l => (pair64 (s.cord.rd a l) (s.cord.rd b l)).toNat
      f.check s = none →
      (Hits s .r vas ps → ∃ t, exec (.unlk a b) s = .next (f.issued t) ∧ t.mem = s.mem ∧
        ∀ line, line ∈ (t.ctxOf s.cord.ctx).locks ↔
          line ∈ (s.ctxOf s.cord.ctx).locks ∧ ∀ x ∈ vas.zip ps, x.2.addr x.1 / 128 ≠ line) ∧
      ((∀ va ∈ vas, (s.lookup s.cord va).isSome = true) →
        ∃ t, exec (.prefl a b) s = .next (f.issued t) ∧ t.mem = s.mem ∧ t.cord = s.cord ∧
          (s.cord.walked = [] → vas ≠ [] → s.cycle + 2 ≤ SMap.get 0 (t.coreOf s.cord.core).holdUntil s.cord.slot) ∧
          ∀ va ∈ vas, ∀ p, s.lookup s.cord va = some (some p) → s.pageFault s.sys .r va (some p) = none →
            Sends s t (s.leastOpen s.cord.core (p.addr va / 128)) (.preflFetchComplete (p.addr va / 128)))) ∧
    ∀ line, s.now = some (.preflFetchComplete line) → s.cacheable line = true →
      ∃ t, exec .preflFetchComplete s = .next t ∧ t.mem = s.mem ∧ ∃ y ∈ t.l2, y.line = line

/-! Bounded sums. -/

/-- R225 to R227, R237 to R243, R383: bsdef enters a region with 1,024 free units, or says why not, or joins the record that contexts of
other devices share over the same global range; bsfree closes its region and drains every holder; bsdrn drains at the cord's cluster; bsqry's
word is read at the master and the cluster; vads sends one addition for each lane, and a lane that does not reach an open, aligned and
writable word of the eyelet turns it away as it does a store, as does an eyelet whose region is freed or none. A region whose first line another device homes has its
master there: bsdef, bsfree and bsqry ask it.
What the spec leaves open there is as the model chose it: log entries 31 and 32; the forms of the messages in the outbox: log entry 57. -/
def Obligations.RegionForms : Prop :=
  (∀ (d : Wr) (a b : Rd) (lit : Word) (s : State),
    let c := s.cord
    let l := lowest c.act
    let base := (pair64 (c.rdAt a 0 l) (c.rdAt a 1 l)).toNat
    let n := (c.once b).toNat
    let x := (c.once a).toNat
    let rs := (s.ctxOf c.ctx).regions
    let known := rs ++ (s.defining.filter fun d => d.ctx == c.ctx).map (·.new)
    let tol : Word := if c.rdAt a 3 l = 0x80000000 then 0 else c.rdAt a 3 l
    let put (v : Nat) : List RegWrite := c.writesOnce d (BitVec.ofNat 32 v)
    let told (t : State) (r : Region) (cl n : Nat) : Prop :=
      if cl < 1000 then Sends s t 1 (.forcedDrain cl c.ctx n 0 []) else (cl / 1000 - 1, .force (cl % 1000) r.phys) ∈ t.outbox
    (∀ ps, let phys := (physRuns base (n * 65536) ps).map (·.1)
      Form.check { lat := .v, vecs := wrVecs d 1 ++ rdVecs b 1 } s = none →
      base % 65536 = 0 → 0 < n → n ≤ 2 ^ 25 → 0 < (c.rdAt a 2 l).toNat → (c.rdAt a 2 l).toNat < 0x7F800000 →
      tol.toNat ≤ 0x7F800000 → Hits s .w (pageStarts base (n * 65536)) ps →
      ∃ t st, exec (.bsdef d a b lit) s = .next (Form.issued { lat := .v, vecs := wrVecs d 1 ++ rdVecs b 1 } t) ∧ t.mem = s.mem ∧
        st = (if ∃ r ∈ known, r.n = lit.toNat % 16 then 1
              else if (∃ r ∈ known, base < r.base + r.size ∧ r.base < base + n * 65536) ∨
                (∃ r, s.foreignRegion phys = some r ∧ (r.phys ≠ phys ∨ r.bnd ≠ c.rdAt a 2 l ∨ r.dtol ≠ tol)) then 2 else 0) ∧
        let entered (r : Region) : Prop :=
          r.n = lit.toNat % 16 ∧ r.base = base ∧ r.size = n * 65536 ∧ r.bnd = c.rdAt a 2 l ∧ r.dtol = tol ∧ r.phys = phys
        (st ≠ 0 ∨ s.masterAway phys = none → Sends s t 1 (.regionTableUpdateComplete c.cid c.flag c.ctx 31 (put st)) ∧
          if st = 0 then
            ∃ r ∈ (t.ctxOf c.ctx).regions, entered r ∧
              (s.foreignRegion phys = none → r.free = 1024 ∧ r.holders = [] ∧ r.closing = false) ∧
              ∀ x, s.foreignRegion phys = some x → r.free = x.free ∧ r.holders = x.holders ∧ r.joined = x.joined ∧ r.closing = x.closing
          else t.ctxs = s.ctxs) ∧
        ∀ dev, st = 0 → s.masterAway phys = some dev → dev ∉ s.dev.lost → t.ctxs = s.ctxs ∧
          (dev, .define c.ctx phys (c.rdAt a 2 l) tol) ∈ t.outbox ∧
          ∃ r, entered r ∧ ∃ e ∈ t.defining, e.cord = c.cid ∧ e.flag = c.flag ∧ e.ctx = c.ctx ∧ e.dst = put 0 ∧ e.new = r) ∧
    (∀ r, Form.check { lat := .v, vecs := rdVecs a 1 } s = none → x < 16 → s.region c.ctx x = some r →
      (∃ t r', exec (.bsfree a) s = .next (Form.issued { lat := .v, vecs := rdVecs a 1 } t) ∧ t.mem = s.mem ∧
        Sends s t 1 (.regionTableUpdateComplete c.cid c.flag c.ctx x []) ∧ t.region c.ctx x = some r' ∧ r'.closing = true ∧
        (s.masterAway r.phys = none → ∀ h ∈ r.holders, told t r h.cl x) ∧
        ∀ dev, s.masterAway r.phys = some dev → (dev, .free c.ctx r.phys) ∈ t.outbox) ∧
      ∃ t, exec (.bsdrn a) s = .next (Form.issued { lat := .v, vecs := rdVecs a 1 } t) ∧ t.mem = s.mem ∧
        Sends s t 1 (.forcedDrain (c.core / 16) c.ctx x 0 [(c.cid, s.fresh)])) ∧
    (Form.check { lat := .v, vecs := rdVecs a 1 } s = none → 16 ≤ x → x < 32 →
      ∃ t, exec (.bsdrn a) s = .next (Form.issued { lat := .v, vecs := rdVecs a 1 } t) ∧ t.mem = s.mem ∧
        ∀ r ∈ rs, Sends s t 1 (.forcedDrain (c.core / 16) c.ctx r.n 0 [(c.cid, s.fresh)])) ∧
    (∀ r, Form.check { lat := .v, vecs := wrVecs d 1 ++ rdVecs a 1 } s = none → x < 16 → s.region c.ctx x = some r →
      ∃ t, exec (.bsqry d a lit) s = .next (Form.issued { lat := .v, vecs := wrVecs d 1 ++ rdVecs a 1 } t) ∧ t.mem = s.mem ∧
        (lit.toNat % 4 ≠ 0 ∨ s.masterAway r.phys = none →
          Sends s t 1 (.bsqryResult c.cid c.flag c.ctx x (lit.toNat % 4) (put 0))) ∧
        ∀ dev, lit.toNat % 4 = 0 → s.masterAway r.phys = some dev → dev ∉ s.dev.lost → (dev, .query c.cid s.fresh r.phys) ∈ t.outbox) ∧
    (∀ (v : Rd) (e : Eye), Form.check { lat := .n, vecs := rdVecs v 1 ++ rdVecs b 1 } s = none →
      TurnedAway (exec (.vads v e b) s) s ((lanesOf c.act).map fun l => (l, e.val, (c.rd b l).toNat)) 4 true ∧
      (Reachable s ((lanesOf c.act).map fun l => (l, e.val, (c.rd b l).toNat)) 4 → (c.eye e.val).w = true →
        (s.eyeRegion c.ctx (c.eye e.val) = none → exec (.vads v e b) s = .next (s.raise .bsRegion (BitVec.ofNat 64 (c.eye e.val).rgn))) ∧
        ((s.eyeRegion c.ctx (c.eye e.val)).isSome = true → 255 < c.stcnt + 1 → exec (.vads v e b) s = stalled s {}))) ∧
    (∀ y : Eyelet, s.eyeRegion c.ctx y =
      match s.region c.ctx y.rgn with | some r => (if r.gen = y.rgnGen then some r else none) | none => none) ∧
    ∀ (v : Rd) (e : Eye) (r : Region), Form.check { lat := .n, vecs := rdVecs v 1 ++ rdVecs b 1 } s = none →
      Reachable s ((lanesOf c.act).map fun l => (l, e.val, (c.rd b l).toNat)) 4 → (c.eye e.val).w = true →
      s.eyeRegion c.ctx (c.eye e.val) = some r → c.stcnt + 1 ≤ 255 →
      ∃ t, exec (.vads v e b) s = .next (Form.issued { lat := .n, vecs := rdVecs v 1 ++ rdVecs b 1 } t) ∧ t.mem = s.mem ∧
        t.cord.stcnt = c.stcnt + 1 ∧ ∀ l, l < 32 → bit c.act l = true →
          Sends s t 1 (.additionAtPicot ⟨c.cid, c.core, c.ctx, r.n, (c.eye e.val).pla * 128 + (c.rd b l).toNat, c.rd v l, s.fresh,
            r.gen⟩) ∧
          bit (t.cord.eye e.val).own ((c.rd b l).toNat / 4) = false) ∧
  ∀ (s : State) (c ctx rgn : Nat) (f : Flag) (x : Cord), Runs s c x →
    (∀ ws, s.now = some (.regionTableUpdateComplete c f ctx rgn ws) →
      (∀ r, s.region ctx rgn = some r → r.closing = true → r.holders ≠ [] →
        ∃ t, exec .regionTableUpdateComplete s = .next t ∧ (∃ r', t.region ctx rgn = some r') ∧
          Sends s t 1 (.regionTableUpdateComplete c f ctx rgn ws)) ∧
      ((∀ r, s.region ctx rgn = some r → r.closing = true → r.holders = [] ∧ (s.masterAway r.phys = none ∨ r.left = true) ∧
          ∀ d ∈ s.agenda, shareTraffic ctx rgn d.what = false) →
        ∃ t y, exec .regionTableUpdateComplete s = .next t ∧ t.cordRec c = some y ∧ y.v = (x.applyAll ws).v ∧
          y.s = (x.applyAll ws).s ∧ y.flagOf f.val = x.flagOf f.val - 1 ∧
          ∀ r, ctx < 4096 → s.region ctx rgn = some r → r.closing = true → t.region ctx rgn = none)) ∧
    ∀ n sel r, s.now = some (.bsqryResult c f ctx rgn sel [.s n 0]) → s.region ctx rgn = some r →
      ∃ t y, exec .bsqryResult s = .next t ∧ t.cordRec c = some y ∧ y.flagOf f.val = x.flagOf f.val - 1 ∧
        (sel = 0 → ∃ m, y.sreg n = BitVec.ofNat 32 (r.holders.length * 2 ^ 23 + m * 2 ^ 11 + r.free) ∧ (∀ h ∈ r.holders, h.units ≤ m) ∧
          (r.holders ≠ [] → ∃ h ∈ r.holders, h.units = m)) ∧
        let own := s.tracker (x.core / 16) (s.shareKey ctx rgn).1 (s.shareKey ctx rgn).2
        (sel = 1 → y.sreg n = BitVec.ofNat 32 ((own.map (·.units)).getD 0)) ∧ (sel = 2 → y.sreg n = (own.map (·.t)).getD 0) ∧
        (sel = 3 → y.sreg n = r.bnd)

/-- R228 to R231, R234, R239, R383: a partial becomes p + a rounded to nearest even, and the tracker T + |p_new - p| rounded up, both in FP32
(its encodings are those of ConversionResults). A cluster's share of a region is its context's own, but of the contexts here that have joined
one record on another device one share serves all. An addition is withheld while the tracker's T stays within the share, starts a drain when it does not, in
which case it counts as performed only with its granule, and passes through to its home where there is no share, asking for one while its 64
trackers are neither used nor promised, or where its region has been freed since; a drain gives the whole share back once every home has
acknowledged; a master grants 64 units, refuses, or trims first; a trimmed holder keeps the fewest units that cover its T; a drain that a form
waits for begins behind the additions that its cord has still to send.
What the spec leaves open there is as the model chose it: log entries 31 and 63; the forms of the messages in the outbox: log entry 57. -/
def Obligations.WithheldSums : Prop :=
  (∀ p t a : Word,
    let pn := BitVec.ofNat 32 (encodeFmt 0 10 .rne false (Machine.Num.add (f32 p) (f32 a)))
    let d : Machine.Num :=
      match Machine.Num.add (f32 pn) (f32 p).neg with | .fin _ m e => .fin false m e | .inf _ => .inf false | .nan => .nan
    addPartial p t a = (pn, BitVec.ofNat 32 (encodeFmt 0 10 .ru false (Machine.Num.add (f32 t) d)))) ∧
  (∀ (s : State) (ctx rgn : Nat) (r : Region), s.region ctx rgn = some r →
    (s.masterAway r.phys = none → s.shareKey ctx rgn = (ctx, rgn)) ∧
    ∀ c n x, s.masterAway r.phys ≠ none → s.region c n = some x → x.phys = r.phys → s.shareKey c n = s.shareKey ctx rgn) ∧
  ∀ (s : State) (cl ctx rgn : Nat),
    (∀ x r, s.now = some (.additionAtPicot x) → cl = x.core / 16 → s.region x.ctx x.rgn = some r →
      let passes (c n : Nat) (t : State) : Prop := exec .additionAtPicot s = .next t ∧ t.mem = s.mem ∧ ∃ id, Sends s t 1
        (.passThroughAdd ⟨cl, c, n, id, s.agentOfCord x.cord, s.launchOf x.cord, [(x.addr, x.val)], .op x.cord x.tok, []⟩)
      (∀ y o, r.gen ≠ x.gen → Runs s x.cord y → y.ops.find? (·.tok == x.tok) = some o → o.kind = .plain →
        ∃ t, passes x.ctx x.rgn t ∧ t.picots = s.picots) ∧
      (s.shareKey x.ctx x.rgn = (ctx, rgn) →
      (r.gen = x.gen → s.tracker cl ctx rgn = none → ∃ t, passes ctx rgn t ∧
        let used := (s.picotOf cl).trackers.length + (s.picotOf cl).asked.length
        let closing := r.closing = true ∨ ∃ k, s.region ctx rgn = some k ∧ k.closing = true
        (¬closing → used < 64 → (ctx, rgn) ∉ (s.picotOf cl).asked →
          (∀ k, s.region ctx rgn = some k → k.phys = r.phys) → (s.region ctx rgn).isSome = true → (s.masterAway r.phys = none → Sends s t 1 (.shareRequest cl ctx rgn)) ∧
          (∀ dev, s.masterAway r.phys = some dev → (dev, .shareRequest cl r.phys) ∈ t.outbox) ∧
          (t.picotOf cl).asked = (s.picotOf cl).asked ++ [(ctx, rgn)]) ∧
        (closing ∨ 64 ≤ used ∨ (ctx, rgn) ∈ (s.picotOf cl).asked → t.picots = s.picots)) ∧
      ∀ tr, r.gen = x.gen → s.tracker cl ctx rgn = some tr → tr.draining = false →
        let x : Addition := { x with ctx := ctx, rgn := rgn }
        let p := addPartial (s.partialOf cl x) tr.t x.val
        let fits := (∃ neg m e, f32 x.val = .fin neg m e) ∧ Machine.Num.lt (r.share tr.units) (f32 p.2) = false ∧ f32 p.2 ≠ .nan
        ∃ t tr', exec .additionAtPicot s = .next t ∧ t.mem = s.mem ∧ t.tracker cl ctx rgn = some tr' ∧ tr'.units = tr.units ∧
          (fits → tr'.t = p.2 ∧ tr'.draining = false ∧ t.partialOf cl x = p.1) ∧
          (¬fits → tr'.draining = true ∧ Sends s t 1 (.picotDrainComplete cl ctx rgn) ∧ t.cord = s.cord ∧ t.cords = s.cords ∧
            (∃ u, Sends s t 1 (.passThroughAdd u) ∧ (x.cord, x.tok) ∈ u.owes ∧ (x.addr % 4 = 0 → (x.addr, p.1) ∈ u.adds)) ∧
            ∀ g ∈ (t.picotOf cl).granules, ¬(g.ctx = ctx ∧ g.rgn = rgn)))) ∧
    (∀ u a v, s.now = some (.passThroughAdd u) → u.adds = [(a, v)] → a % 4 = 0 → s.unreachable (a / 128) = false →
      s.agenda.any (adapterWrite (a / 128)) = false → (∀ o ∈ s.owners, o.1 / 32 ≠ a / 128) → s.epochs = [] →
      (s.isLocal a && inWindow a) = false →
      ∃ t, exec .passThroughAdd s = .next t ∧
        (∀ i < 4, t.byte (a + i) =
          BitVec.ofNat 8 (fp32.op2 false false Machine.Num.add (leNat ((List.range 4).map fun j => s.byte (a + j))) v.toNat / 2 ^ (8 * i))) ∧
        (∀ b, b < a ∨ a + 4 ≤ b → t.byte b = s.byte b) ∧
        (∀ tr, u.back = .drain → u.cl < 1000 → s.tracker u.cl u.ctx u.rgn = some tr →
          ∃ tr', t.tracker u.cl u.ctx u.rgn = some tr' ∧ tr'.acks = tr.acks - 1) ∧
        ∀ c tok x o, u.back = .op c tok ∧ u.owes = [] ∨ u.back = .drain ∧ u.owes = [(c, tok)] → Runs s c x → x.ops.find? (·.tok == tok) = some o → o.kind = .plain → o.left = 1 →
          ∃ y, t.cordRec c = some y ∧ y.stcnt = x.stcnt - o.stc) ∧
    (∀ tr, s.now = some (.picotDrainComplete cl ctx rgn) → s.tracker cl ctx rgn = some tr → tr.draining = true →
      ∃ t, exec .picotDrainComplete s = .next t ∧
        if tr.acks = 0 ∧ ∀ d ∈ s.agenda, passing cl ctx rgn tr.upto d.what = false then
          let phys := ((s.region ctx rgn).map (·.phys)).getD []
          t.tracker cl ctx rgn = none ∧
            (s.masterAway phys = none → Sends s t 1 (.shareReturn cl ctx rgn tr.units false tr.waiters)) ∧
            ∀ dev, s.masterAway phys = some dev → (dev, .shareReturn cl phys tr.units false) ∈ t.outbox
        else t.tracker cl ctx rgn = some tr ∧ Sends s t 1 (.picotDrainComplete cl ctx rgn)) ∧
    (∀ r, s.now = some (.shareRequest cl ctx rgn) → cl < 1000 → s.region ctx rgn = some r →
      ∃ t, exec .shareRequest s = .next t ∧
        (r.closing = true ∨ 256 ≤ r.holders.length → t.ctxs = s.ctxs ∧ Sends s t 1 (.shareGrant cl ctx rgn 0)) ∧
        (r.closing = false → r.holders.length < 256 → 64 ≤ r.free → Sends s t 1 (.shareGrant cl ctx rgn 64) ∧
          t.region ctx rgn = some { r with free := r.free - 64, holders := r.holders ++ [⟨cl, 64, false⟩] }) ∧
        (r.closing = false → r.holders.length < 256 → r.free < 64 → r.trims = 0 → r.holders ≠ [] →
          (∀ h ∈ r.holders, if h.cl < 1000 then Sends s t 1 (.trim h.cl ctx rgn)
            else (h.cl / 1000 - 1, .trim (h.cl % 1000) r.phys) ∈ t.outbox) ∧
          t.region ctx rgn = some { r with asking := r.asking ++ [cl], trims := r.holders.length })) ∧
    (∀ k, s.now = some (.shareGrant cl ctx rgn k) →
      ∃ t, exec .shareGrant s = .next t ∧ (ctx, rgn) ∉ (t.picotOf cl).asked ∧
        (t.picotOf cl).trackers = (s.picotOf cl).trackers ++ if k = 0 then [] else [{ ctx := ctx, rgn := rgn, units := k }]) ∧
    (∀ tr r, s.now = some (.trim cl ctx rgn) → s.tracker cl ctx rgn = some tr → s.region ctx rgn = some r → tr.units ≤ 1024 →
      ∃ t keep, exec .trim s = .next t ∧ t.tracker cl ctx rgn = some { tr with units := keep } ∧ keep ≤ tr.units ∧
        (s.masterAway r.phys = none → Sends s t 1 (.shareReturn cl ctx rgn (tr.units - keep) true [])) ∧
        (∀ dev, s.masterAway r.phys = some dev → (dev, .shareReturn cl r.phys (tr.units - keep) true) ∈ t.outbox) ∧
        (tr.draining = true → keep = tr.units) ∧
        (tr.draining = false → (keep < tr.units → Machine.Num.lt (r.share keep) (f32 tr.t) = false) ∧
          ∀ k < keep, Machine.Num.lt (r.share k) (f32 tr.t) = true)) ∧
    (∀ k r, s.region ctx rgn = some r →
      (s.now = some (.shareReturn cl ctx rgn k false []) → ∃ t, exec .shareReturn s = .next t ∧
        t.region ctx rgn = some { r with free := r.free + k, holders := r.holders.filter (·.cl != cl) }) ∧
      (s.now = some (.shareReturn cl ctx rgn k true []) → r.asking = [] ∨ 1 < r.trims → ∃ t, exec .shareReturn s = .next t ∧
        t.region ctx rgn = some { r with
          free := r.free + k, trims := r.trims - 1,
          holders := r.holders.map fun h => if h.cl = cl then { h with units := h.units - k } else h })) ∧
    ∀ asked ws, s.now = some (.forcedDrain cl ctx rgn asked ws) →
      let upto := if asked = 0 ∧ ws ≠ [] then s.fresh else asked
      let ahead := ∃ w ∈ ws, s.addsAhead ctx rgn w.1 w.2 = true
      ∃ t, exec .forcedDrain s = .next t ∧
        (ahead → t.picots = s.picots ∧ Sends s t 1 (.forcedDrain cl ctx rgn asked ws)) ∧
        let ctx' := (s.shareKey ctx rgn).1
        let rgn' := (s.shareKey ctx rgn).2
        (∀ tr, ¬ahead → s.tracker cl ctx' rgn' = some tr → Sends s t 1 (.picotDrainComplete cl ctx' rgn') ∧
          ∃ tr', t.tracker cl ctx' rgn' = some tr' ∧ tr'.draining = true ∧ tr'.waiters = tr.waiters ++ ws) ∧
        (¬ahead → s.tracker cl ctx' rgn' = none → (∃ d ∈ s.agenda, passing cl ctx' rgn' upto d.what = true) →
          Sends s t 1 (.forcedDrain cl ctx' rgn' upto ws)) ∧
        ∀ c tok x o f, ¬ahead → s.tracker cl ctx' rgn' = none → (∀ d ∈ s.agenda, passing cl ctx' rgn' upto d.what = false) → ws = [(c, tok)] →
          Runs s c x → x.ops.find? (·.tok == tok) = some o → o.kind = .plain → o.left = 1 → o.flag = some f →
          ∃ y, t.cordRec c = some y ∧ y.flagOf f.val = x.flagOf f.val - 1

/-! Pillow, barriers, rings and chain. -/

/-- R168, R172 to R175, R246, R248: a pillow form with a lane whose offset is misaligned, out of range or reserved raises pil_align, pil_range or
pil_rsvd, in that order, and has no effect. Otherwise a plain ldp checks and reads every active lane at its issue and writes them, or a scalar D once, 13 + P cycles
later, where P is the most distinct words that its lanes touch in one bank; a wait-full load becomes pending, and is served at one moment once the granules of all its lanes are full and no earlier load needs
one of them, `.take` clearing them, with an acquire behind it, and its result comes no earlier than a plain load's would; stp writes all lanes at one moment, the highest lane's byte standing; the
notify store of a copy cord instead waits in the cord's order of releases and, in the order of the motif's notify stores, then publishes
its commands, and raises role_bad or bob_notify;
feset, feclr and feqry set, clear and read the bits of the lanes' granules.
What the spec leaves open there is as the model chose it: log entries 24, 27 and 62. -/
def Obligations.PillowAccess : Prop :=
  (∀ (z : PilSize) (d : Wr) (v a : Rd) (n : Imm) (s : State),
    let b := pilBytes z
    let off (z l : Nat) : Nat := ((s.cord.rd a l).toNat + n.toNat * z) % 2 ^ 32
    let legal (z l : Nat) : Prop := off b l % z = 0 ∧ off b l + z ≤ s.motif.pb ∧ ¬Taken s.motif (off b l) z
    let legalFe (l : Nat) : Prop := off 16 l + 1 ≤ s.motif.pb ∧ ¬Taken s.motif (off 16 l) 1
    let ls := lanesOf s.cord.act
    let out : List Nat := match d with | .v _ => ls | .s _ => ls.take 1
    let byte (o : Nat) : Byte := SMap.get 0 s.motif.pil o
    let f : Form := { lat := .v, vecs := wrVecs d (b / 4) ++ rdVecs a 1 }
    (f.check s = none →
      PillowRefused (exec (.ldp z d a n) s) s true b (ls.map (off b)) ∧
      ∀ take : Bool, PillowRefused (exec (if take then .ldpWfTake z d a n else .ldpWfPeek z d a n) s) s true b (ls.map (off b))) ∧
    (Form.check { lat := .n, vecs := rdVecs v (b / 4) ++ rdVecs a 1 } s = none →
      (∀ x, s.motif.ba = some x → b = 4 → ∃ l ∈ ls, off b l ≠ x + 0x800) →
      PillowRefused (exec (.stp z v a n) s) s true b (ls.map (off b))) ∧
    (Form.check { lat := .n, vecs := rdVecs a 1 } s = none → ∀ set : Bool,
      PillowRefused (exec (if set then .feset a n else .feclr a n) s) s false 1 (ls.map (off 16))) ∧
    (Form.check { lat := .v, vecs := wrVecs d 1 ++ rdVecs a 1 } s = none →
      PillowRefused (exec (.feqry d a n) s) s false 1 (ls.map (off 16))) ∧
    (f.check s = none → (∀ l ∈ ls, legal b l) →
      exec (.ldp z d a n) s = .next (f.issued { s with agenda := s.agenda ++ [⟨s.cycle + (13 + bankLoad (ls.map (off b)) b),
        .pillowLoadResult s.cord.cid s.cord.flag (out.flatMap fun l => (List.range (b / 4)).map fun i =>
          s.cord.bind d i l (BitVec.ofNat 32 (leNat ((List.range 4).map fun j => byte (off b l + 4 * i + j)))))⟩] }) ∧
      (∀ take : Bool,
        let w : WfLoad :=
          { k := s.fresh, cord := s.cord.cid, take := take, z := b, lanes := ls.map (fun l => (l, off b l)), dst := d,
            wb := s.cord.wb, flag := s.cord.flag, due := s.cycle + 13 + bankLoad (ls.map (off b)) b }
        exec (if take then .ldpWfTake z d a n else .ldpWfPeek z d a n) s =
          .next (f.issued { s with fresh := s.fresh + 1, motif := { s.motif with wf := s.motif.wf ++ [w] } }))) ∧
    (Form.check { lat := .n, vecs := rdVecs v (b / 4) ++ rdVecs a 1 } s = none → s.cord.act ≠ 0 →
      (∀ l ∈ lanesOf s.cord.act, legal b l) →
      ∃ p w, exec (.stp z v a n) s = .next (Form.issued { lat := .n, vecs := rdVecs v (b / 4) ++ rdVecs a 1 }
          { s with motif := { s.motif with pil := p, watch := w } }) ∧ (∀ x ∈ w, x ∈ s.motif.watch) ∧
        ∀ o, SMap.get 0 p o =
          match (lanesOf s.cord.act).reverse.find? fun l => decide (off b l ≤ o) && decide (o < off b l + b) with
          | some l => BitVec.ofNat 8 ((s.cord.rdAt v ((o - off b l) / 4) l).toNat / 2 ^ (8 * ((o - off b l) % 4)))
          | none => byte o) ∧
    (let g : Form := { lat := .n, vecs := rdVecs v 1 ++ rdVecs a 1 }
     let w := s.cord.rd v (lowest s.cord.act)
     let t2 : BitVec 16 := w.setWidth 16
     let t0 := s.motif.notified
     let fresh := (List.range (t2 - t0).toNat).map fun i => (t0 + BitVec.ofNat 16 i).toNat
     let fits := w.toNat < 2 ^ 16 ∧ (t2 - t0).toNat + (t0 - s.motif.done).toNat ≤ 64
     ∀ x, s.motif.ba = some x → (∀ l ∈ ls, off 4 l = x + 0x800) → g.check s = none →
       (s.cord.role ≠ 0 → exec (.stp .w v a n) s = .next (s.raise .roleBad s.cord.word)) ∧
       (s.cord.role = 0 → ¬fits → exec (.stp .w v a n) s = .next (s.raise .bobNotify (w.setWidth 64))) ∧
       (s.cord.role = 0 → fits → ∃ t, exec (.stp .w v a n) s = .next (g.issued t) ∧ t.motif.notified = t2 ∧ t.motif.pil = s.motif.pil ∧
         t.motif.tail = s.motif.tail ∧ t.motif.notices = s.motif.notices + 1 ∧
         (∃ r ∈ t.cord.rels, r.kind = .notify s.motif.notices t0 t2 s.cord.act) ∧ t.cord.stcnt = s.cord.stcnt ∧
         ∀ l < 32, (t.cord.thread l).unsealed = (s.cord.thread l).unsealed ++ if bit s.cord.act l then fresh else [])) ∧
    (Form.check { lat := .n, vecs := rdVecs a 1 } s = none → (∀ l ∈ lanesOf s.cord.act, legalFe l) → ∀ set : Bool,
      ∃ fe w, exec (if set then .feset a n else .feclr a n) s =
          .next (Form.issued { lat := .n, vecs := rdVecs a 1 } { s with motif := { s.motif with fe := fe, watch := w } }) ∧
        (∀ x ∈ w, x ∈ s.motif.watch) ∧
        ∀ g, SMap.get false fe g = if ∃ l ∈ lanesOf s.cord.act, off 16 l / 16 = g then set else s.motif.full g) ∧
    (Form.check { lat := .v, vecs := wrVecs d 1 ++ rdVecs a 1 } s = none → (∀ l ∈ ls, legalFe l) →
      exec (.feqry d a n) s = .next (Form.issued { lat := .v, vecs := wrVecs d 1 ++ rdVecs a 1 } { s with
        agenda := s.agenda ++ [⟨s.cycle + 14, .pillowLoadResult s.cord.cid s.cord.flag
          (out.map fun l => s.cord.bind d 0 l (if s.motif.full (off 16 l / 16) then 1 else 0))⟩] }))) ∧
  (∀ (os : List Nat) (z : Nat),
    let touched (bank : Nat) : Nat := ((os.flatMap fun o => (List.range (z / 4)).map (o / 4 + ·)).toFinset.filter (· % 32 = bank)).card
    (∀ bank < 32, touched bank ≤ bankLoad os z) ∧ ∃ bank < 32, touched bank = bankLoad os z) ∧
  (∀ m : Motif, m.ba = if m.copies = 0 then none else some (m.pb - if m.hasRings then 2192 else 2064)) ∧
  ∀ (s : State),
    (∀ c x r m n t0 t2 lanes, s.now = some (.releaseTakesEffect c) → Runs s c x → s.relDue x = some r → r.kind = .notify n t0 t2 lanes →
      s.findMotif x.mid = some m → m.noticed = n ∧
      ∃ t m', exec .releaseTakesEffect s = .next t ∧ t.findMotif x.mid = some m' ∧ m'.tail = t2 ∧ m'.noticed = n + 1 ∧
        m'.pubs = m.pubs ++ (List.range (t2 - t0).toNat).map fun i => ⟨(t0 + BitVec.ofNat 16 i).toNat, c, lanes⟩) ∧
    (∀ c f ws x, s.now = some (.pillowLoadResult c f ws) → Runs s c x →
      ∃ t y, exec .pillowLoadResult s = .next t ∧ t.cordRec c = some y ∧ y.v = (x.applyAll ws).v ∧ y.s = (x.applyAll ws).s ∧
        y.flagOf f.val = x.flagOf f.val - 1) ∧
    ∀ m k x w, s.now = some (.waitFullLoadService m k) → s.findMotif m = some x → x.wf.find? (·.k == k) = some w →
      let due := (∀ l ∈ w.lanes, x.full (l.2 / 16) = true) ∧
        (∀ e ∈ x.wf.takeWhile (·.k != k), ∀ i ∈ e.lanes, ∀ l ∈ w.lanes, i.2 / 16 ≠ l.2 / 16) ∧
        (x.saving = false ∨ s.heldRelease w = true)
      (¬due → exec .waitFullLoadService s = .next s) ∧
      (due → ∃ t x', exec .waitFullLoadService s = .next t ∧ t.findMotif m = some x' ∧ x'.wf = x.wf.filter (·.k != k) ∧ x'.pil = x.pil ∧
          (∀ g, x'.full g = if w.take = true ∧ ∃ l ∈ w.lanes, l.2 / 16 = g then false else x.full g) ∧
          ∀ c, Runs s w.cord c → ∃ y r, t.cordRec w.cord = some y ∧ y.epoch = c.epoch + 1 ∧
            Sends s t 0 (.acquireComplete w.cord s.fresh r) ∧ ∃ o ∈ y.ops, o.tok = s.fresh ∧ o.flag = some w.flag ∧ o.due = w.due)

/-- R176 to R184, R190, R201: an arrival with count 0, or with a count other than the one that the phase has, and barx in a phase that has
none, raise bar_mismatch, and a cord that has arrived in the phase stalls with kind 2; peerarr raises peer_bad for a target that R182 does not
name, and stalls with kind 9 on a full buffer. Other arrivals register at issue with the phase's count; bara and barw count when their release takes effect, barx at
issue; the phase completes when enough arrivals are counted and none is outstanding, and its waiters go on with an acquire; barq gives
the barrier's word; a peer arrival registers at the named motif. A release takes effect only when it is the oldest, its cord's earlier
wait-full loads are served and nothing but pending releases is counted, a notify store only in its motif's order of them; an srfree once
those loads have read, and a store or an atomic that follows a release or a drain as soon as it is the oldest and the drains before it have
written its words; in a motif that is discarded only calls take effect.
What the spec leaves open there is as the model chose it: log entries 46, 56 and 62. -/
def Obligations.BarriersAndReleases : Prop :=
  let counted (b : Machine.Bar) (reg : Nat) : Machine.Bar :=
    if b.exp ≠ 0 ∧ b.exp ≤ min 127 (b.arr + 1) ∧ reg = 0 then { ph := !b.ph } else { b with arr := min 127 (b.arr + 1), reg := reg }
  let woken (s t : State) (m i : Nat) (b : Machine.Bar) (reg : Nat) : Prop :=
    b.exp ≠ 0 → b.exp ≤ min 127 (b.arr + 1) → reg = 0 → ∀ c x, Runs s c x → x.mid = m → x.idx < 32 → bit b.wm x.idx = true →
      x.wait = .barw i → ∃ y tok, t.cordRec c = some y ∧ y.wait = .acquire tok
  (∀ (k : Sys2Proof.Bar) (n : Imm) (d : Wr) (b : Rd) (lit : Word) (s : State),
    let x := s.motif.bar k.val
    let mine := x.am ||| maskOf [s.cord.idx]
    let mismatch (i : Instr) (n : Nat) (x : Machine.Bar) : Prop :=
      exec i s = .next (s.raise .barMismatch (BitVec.ofNat 64 (n + x.exp * 2 ^ 7)))
    (Form.check { lat := .n } s = none →
      (∀ i ∈ [Instr.bara k n, .barw k n],
        (n.toNat = 0 ∨ bit x.am s.cord.idx = false ∧ x.exp ≠ 0 ∧ n.toNat ≠ x.exp → mismatch i n.toNat x) ∧
        (n.toNat ≠ 0 → bit x.am s.cord.idx = true → exec i s = stalled s ⟨2, k.val, 0⟩)) ∧
      (x.exp = 0 → mismatch (.barx k) 0 x) ∧
      (x.exp ≠ 0 → bit x.am s.cord.idx = true → exec (.barx k) s = stalled s ⟨2, k.val, 0⟩)) ∧
    (Form.check { lat := .n, vecs := rdVecs b 1 } s = none →
      let i := (s.cord.once b).toNat
      let named (m : Motif) : Prop := m ∈ s.motifs ∧ m.queue = s.motif.queue ∧ m.idx = i ∧ m.core / 16 = s.cord.core / 16 ∧
        (m.status = .running ∨ m.status = .saved)
      let n := lit.toNat % 128
      ((∀ m, ¬named m) → exec (.peerarr k b lit) s = .next (s.raise .peerBad (BitVec.ofNat 64 i))) ∧
      ∀ m, named m → (∀ m', named m' → m' = m) →
        let y := if m.status = .saved then SMap.get {} m.shadow k.val else m.bar k.val
        (n = 0 ∨ y.exp ≠ 0 ∧ n ≠ y.exp → mismatch (.peerarr k b lit) n y) ∧
        (n ≠ 0 → y.exp = 0 ∨ n = y.exp → m.status = .saved → 64 ≤ s.bufferUse (s.cord.core / 16) →
          exec (.peerarr k b lit) s = stalled s ⟨9, k.val, 0⟩)) ∧
    (Form.check { lat := .n } s = none → bit x.am s.cord.idx = false → n.toNat ≠ 0 → x.exp = 0 ∨ x.exp = n.toNat →
      (∃ t, exec (.bara k n) s = .next (Form.issued { lat := .n } t) ∧ (∃ r ∈ t.cord.rels, r.kind = .arrive k.val) ∧
        t.motif.bar k.val = { x with exp := n.toNat, reg := x.reg + 1, am := mine }) ∧
      ∃ t, exec (.barw k n) s = .next (Form.issued { lat := .n } t) ∧ (∃ r ∈ t.cord.rels, r.kind = .arrive k.val) ∧
        t.cord.wait = .barw k.val ∧
        t.motif.bar k.val = { x with exp := n.toNat, reg := x.reg + 1, am := mine, wm := x.wm ||| maskOf [s.cord.idx] }) ∧
    (Form.check { lat := .n } s = none → bit x.am s.cord.idx = false → x.exp ≠ 0 → s.motif.mid ≠ 0 →
      ∃ t, exec (.barx k) s = .next (Form.issued { lat := .n } t) ∧ t.motif.bar k.val = counted { x with am := mine } x.reg ∧
        woken s t s.motif.mid k.val x x.reg) ∧
    (Form.check { lat := .i4, vecs := wrVecs d 1 } s = none →
      exec (.barq d k) s = .next (Form.issued { lat := .i4, vecs := wrVecs d 1 } { s with
        agenda := s.agenda ++ fixed s 4 (s.cord.writes32 d fun _ => BitVec.ofNat 32
          ((if x.ph then 2 ^ 31 else 0) + (if bit x.am s.cord.idx then 2 ^ 30 else 0) + x.exp * 2 ^ 7 + x.arr)) })) ∧
    ∀ m, Form.check { lat := .n, vecs := rdVecs b 1 } s = none → s.peer (s.cord.once b).toNat = some m →
      s.findMotif m.mid = some m → m.status = .running → lit.toNat % 128 ≠ 0 →
      (m.bar k.val).exp = 0 ∨ (m.bar k.val).exp = lit.toNat % 128 →
      ∃ t m', exec (.peerarr k b lit) s = .next (Form.issued { lat := .n, vecs := rdVecs b 1 } t) ∧ t.findMotif m.mid = some m' ∧
        m'.bar k.val = { m.bar k.val with exp := lit.toNat % 128, reg := (m.bar k.val).reg + 1 } ∧
        ∃ r ∈ t.cord.rels, r.kind = .peer m.mid k.val (lit.toNat % 128)) ∧
  ∀ (s : State) (c : Nat) (x : Cord) (r : Release), s.now = some (.releaseTakesEffect c) → Runs s c x → s.relDue x = some r →
    let free (e : Release) : Prop := ∃ q k p, e.kind = .free q k p
    let follows (e : Release) : Prop := (∃ m k, e.kind = .follow m k) ∨ ∃ a k, e.kind = .followAtom a k
    let call (e : Release) : Prop := ∃ y, e.kind = .coll y
    let settled := x.stcnt = (x.rels.map (·.own)).sum
    (∃ older newer m, x.rels = older ++ r :: newer ∧ s.findMotif x.mid = some m ∧ m.status = .running ∧
      (m.discard = false → free r → r.loads = [] ∧ ∀ e ∈ older, free e → e.loads ≠ []) ∧
      (m.discard = false → ¬free r → (∀ e ∈ older, free e) ∧
        (follows r → s.drainsPast c r.kind = true) ∧ (¬follows r → r.loads = [] ∧ settled) ∧
        ∀ n t0 t2 ls, r.kind = .notify n t0 t2 ls → m.noticed = n) ∧
      (m.discard = true → call r ∧ (∀ e ∈ older, ¬call e) ∧ settled)) ∧
    ∃ t, exec .releaseTakesEffect s = .next t ∧
      (∀ m, r.kind = .store m ∨ (∃ k, r.kind = .follow m k) → Sends s t 0 (.storeAtHome m)) ∧
      (∀ a, r.kind = .atom a ∨ (∃ k, r.kind = .followAtom a k) → Sends s t 0 (.atomicAtHome a)) ∧
      ((∃ m, r.kind = .store m) ∨ (∃ a, r.kind = .atom a) ∨ follows r →
        ∃ y, t.cordRec c = some y ∧ y.rels = x.rels.erase r ∧ y.stcnt = x.stcnt) ∧
      (∀ i m, r.kind = .arrive i → s.findMotif x.mid = some m → ∃ m', t.findMotif x.mid = some m' ∧
        m'.bar i = counted (m.bar i) ((m.bar i).reg - 1) ∧ woken s t x.mid i (m.bar i) ((m.bar i).reg - 1)) ∧
      ∀ mid i n m, r.kind = .peer mid i n → s.findMotif mid = some m →
        (m.status ≠ .saved → ∃ m', t.findMotif mid = some m' ∧ m'.bar i = counted (m.bar i) ((m.bar i).reg - 1)) ∧
        (m.status = .saved → t.peers = s.peers ++ [⟨x.core / 16, mid, i, n⟩])

/-- R139 to R143, R185 to R190: a ring form on a ring that is not declared, from a cord of another role, or on a slot in another state than its
entry requires raises ring_state, and sracq on a slot that is not free stalls with kind 3. Otherwise sracq hands out slot H, srpub and srfree act on a slot of their own descriptor, srwait goes on with an
acquire when the slot is published in its phase and waits otherwise, srqry gives the ring's word; chain copies a legal descriptor at
its issue, and a bad one raises chain_desc; its sequencer, in a cycle in which it holds the slot's vector unit, applies one operation to 32
elements, and after a block's last operation writes its results; with the last block the flag falls.
What the spec leaves open there is as the model chose it: log entries 11, 46, 52 and 63. -/
def Obligations.RingsAndChain : Prop :=
  (∀ (d : Wr) (q : Ring) (b : Rd) (s : State),
    let r := s.motif.ring q.val
    let v := (s.cord.once b).toNat
    let k := v % 8
    let p := bit (s.cord.once b) 3
    let fd : Form := { lat := .i4, vecs := wrVecs d 1 }
    let fb : Form := { lat := .n, vecs := rdVecs b 1 }
    let word : Word := BitVec.ofNat 32 ((if r.dcl then 2 ^ 31 else 0) + (if r.hp then 2 ^ 27 else 0) + r.h * 2 ^ 24
      + ((List.range 8).map fun i => if SMap.get false r.sp i then 2 ^ (16 + i) else 0).sum
      + ((List.range 8).map fun i => SMap.get 0 r.st i * 4 ^ i).sum)
    let refuses (i : Instr) : Prop := exec i s = .next (s.raise .ringState (word.setWidth 64))
    (fd.check s = none →
      (r.dcl = false ∨ s.cord.role ≠ r.prod → refuses (.sracq d q)) ∧ (r.dcl = false → refuses (.srqry d q)) ∧
      (r.dcl = true → s.cord.role = r.prod → SMap.get 0 r.st r.h ≠ 0 → exec (.sracq d q) s = stalled s ⟨3, q.val, 0⟩)) ∧
    (fb.check s = none →
      (r.dcl = false ∨ s.cord.role ≠ r.prod ∨ SMap.get 0 r.st k ≠ 1 ∨ SMap.get false r.sp k ≠ p ∨ SMap.get 0 r.own k ≠ s.cord.idx →
        refuses (.srpub q b)) ∧
      (r.dcl = false ∨ s.cord.role ≠ r.cons → refuses (.srwait q b) ∧ refuses (.srfree q b)) ∧
      (SMap.get 0 r.st k ≠ 2 ∨ SMap.get false r.sp k ≠ p → refuses (.srfree q b))) ∧
    (r.dcl = true →
    (fd.check s = none → s.cord.role = r.prod → SMap.get 0 r.st r.h = 0 →
      ∃ r', exec (.sracq d q) s = .next (fd.issued { s with
          motif := s.motif.setRing q.val r',
          agenda := s.agenda ++ fixed s 4 (s.cord.writes32 d fun _ => BitVec.ofNat 32 (r.h + if r.hp then 8 else 0)) }) ∧
        r'.h = (r.h + 1) % 8 ∧ r'.hp = (if (r.h + 1) % 8 = 0 then !r.hp else r.hp) ∧ SMap.get 0 r'.st r.h = 1 ∧
        SMap.get false r'.sp r.h = r.hp ∧ SMap.get 0 r'.own r.h = s.cord.idx ∧
        ∀ j, j ≠ r.h → SMap.get 0 r'.st j = SMap.get 0 r.st j) ∧
    (fb.check s = none → s.cord.role = r.prod → SMap.get 0 r.st k = 1 → SMap.get false r.sp k = p → SMap.get 0 r.own k = s.cord.idx →
      ∃ t, exec (.srpub q b) s = .next (fb.issued t) ∧ t.motif = s.motif ∧ ∃ e ∈ t.cord.rels, e.kind = .publish q.val k) ∧
    (fb.check s = none → s.cord.role = r.cons →
      (SMap.get 0 r.st k = 2 ∧ SMap.get false r.sp k = p → s.cord.live = true →
        ∃ t g, exec (.srwait q b) s = .next (fb.issued t) ∧ t.cord.wait = .acquire s.fresh ∧ t.cord.epoch = s.cord.epoch + 1 ∧
          Sends s t 0 (.acquireComplete s.cord.cid s.fresh g)) ∧
      (¬(SMap.get 0 r.st k = 2 ∧ SMap.get false r.sp k = p) →
        exec (.srwait q b) s = .next (fb.issued { s with cord := { s.cord with wait := .srwait q.val k p } })) ∧
      (SMap.get 0 r.st k = 2 → SMap.get false r.sp k = p →
        ∃ t, exec (.srfree q b) s = .next (fb.issued t) ∧
          if ∃ w ∈ s.motif.wf, w.cord = s.cord.cid then ∃ e ∈ t.cord.rels, e.kind = .free q.val k p
          else SMap.get 0 (t.motif.ring q.val).st k = 0)) ∧
    (fd.check s = none →
      exec (.srqry d q) s = .next (fd.issued { s with agenda := s.agenda ++ fixed s 4 (s.cord.writes32 d fun _ =>
        word) })))) ∧
  (∀ (s : State) (c q k : Nat) (x : Cord) (m : Motif) (e : Release), s.now = some (.releaseTakesEffect c) → Runs s c x →
    s.relDue x = some e → e.kind = .publish q k → s.findMotif x.mid = some m →
    ∃ t m', exec .releaseTakesEffect s = .next t ∧ t.findMotif x.mid = some m' ∧ SMap.get 0 (m'.ring q).st k = 2 ∧
      ∀ w y, Runs s w y → y.mid = x.mid → y.idx < 32 → y.wait = .srwait q k (SMap.get false (m.ring q).sp k) →
        ∃ z tok, t.cordRec w = some z ∧ z.wait = .acquire tok) ∧
  (∀ (a : Rd) (lit : Word) (s : State),
    let f : Form := { lat := .v, vecs := rdVecs a 1 }
    let o := (s.cord.once a).toNat
    let word (x : Nat) : Word := BitVec.ofNat 32 (leNat ((List.range 4).map fun i => SMap.get 0 s.motif.pil (x + i)))
    let ws := (List.range 20).map fun i => word (o + 4 * i)
    let stream (k : Nat) : List Word := (List.range (lit.toNat % 2 ^ 14 + 1)).map fun j => word ((ws.getD k 0).toNat + 4 * j)
    let two := ∃ i < lit.toNat / 2 ^ 14 % 8 + 1, (ws.getD (4 + i) 0).toNat / 2 ^ 26 % 4 = 0
    let n := lit.toNat % 2 ^ 14 + 1
    let inside (o n : Nat) : Prop := o + n ≤ s.motif.pb ∧
      ¬(s.motif.hasRings = true ∧ o < s.motif.pb - 128 + 128 ∧ s.motif.pb - 128 < o + n) ∧ ∀ x, s.motif.ba = some x → ¬(o < x + 2064 ∧ x < o + n)
    let at_ (k : Nat) : Nat := (ws.getD k 0).toNat
    let legal : Prop := o % 16 = 0 ∧ inside o 80 ∧ at_ 3 = 0 ∧
      (∀ i < lit.toNat / 2 ^ 14 % 8 + 1, at_ (4 + i) % 2 ^ 26 = 0 ∧ at_ (4 + i) / 2 ^ 28 ≤ 7 ∧ at_ (4 + i) / 2 ^ 26 % 4 ≠ 2 ∧
        (at_ (4 + i) / 2 ^ 28 = 5 ∨ at_ (4 + i) / 2 ^ 28 = 6 ↔ at_ (4 + i) / 2 ^ 26 % 4 = 3)) ∧
      ∀ k, k = 0 ∨ k = 2 ∨ k = 1 ∧ two → at_ k % 4 = 0 ∧ inside (at_ k) (4 * n)
    (s.motif.chainOk o ws lit = true ↔ legal) ∧
    (f.check s = none → s.cord.chain = true → exec (.chain a lit) s = stalled s {}) ∧
    (f.check s = none → s.cord.chain = false →
    (s.motif.chainOk o ws lit = false → exec (.chain a lit) s = .next (s.raise .chainDesc (BitVec.ofNat 64 o))) ∧
    (s.motif.chainOk o ws lit = true → exec (.chain a lit) s = .next (f.issued { s with
      cord := { s.cord with chain := true },
      agenda := s.agenda ++ [⟨s.cycle + 2, .chainComplete s.cord.cid s.cord.flag
        { words := ws, lit := lit, fz := s.cord.fpctl, j := 0, i := 0, t := [], held := 0, in0 := stream 0,
          in1 := if two then stream 1 else [] }⟩] })))) ∧
  ∀ (s : State) (c : Nat) (f : Flag) (job : ChainJob) (x : Cord) (m : Motif), s.now = some (.chainComplete c f job) →
    s.cordRec c = some x → s.findMotif x.mid = some m →
    let n := job.lit.toNat % 2 ^ 14 + 1
    let at_ (k : Nat) : Nat := (job.words.getD k 0).toNat
    let num (m : Motif) (o : Nat) : Nat := leNat ((List.range 4).map fun i => SMap.get 0 m.pil (o + i))
    let inp (k j : Nat) : Nat := fp32.flush (bit job.fz 4) (num m (at_ k + 4 * j))
    let apart (k : Nat) : Prop := at_ k = at_ 2 ∨ at_ k + 4 * n ≤ at_ 2 ∨ at_ 2 + 4 * n ≤ at_ k
    let rounded (y : Machine.Num) : Nat := fp32.flush (bit job.fz 5) (fp32.encode true .rne false y)
    let op (k a b : Nat) : Nat :=
      let y := fp32.decode a
      let z := fp32.decode b
      match k with
      | 0 => rounded (Machine.Num.add y z)
      | 1 => rounded (Machine.Num.add y z.neg)
      | 2 => rounded (Machine.Num.mul y z)
      | 3 => fp32.flush (bit job.fz 5) (fp32.minmax false a b)
      | 4 => fp32.flush (bit job.fz 5) (fp32.minmax true a b)
      | 5 => a % 2 ^ 31
      | 6 => (a + 2 ^ 31) % 2 ^ 32
      | _ => rounded (Machine.Num.add z y.neg)
    let w := (job.words.getD (4 + job.i) 0).toNat
    let len := min 32 (n - job.j)
    let result (k : Nat) : Word := BitVec.ofNat 32 <|
      op (w / 2 ^ 28) (if job.i = 0 then inp 0 (job.j + k) else (job.t.getD k 0).toNat)
        (if w / 2 ^ 26 % 4 = 0 then inp 1 (job.j + k) else (job.words.getD (12 + job.i) 0).toNat)
    let free := SMap.get 0 (s.coreOf x.core).vecFree x.slot
    let holds := free < s.cycle ∨ 1 ≤ job.held ∧ free ≤ s.cycle
    (¬holds → exec .chainComplete s = .next { s with
      agenda := s.agenda ++ [⟨s.cycle + 1, .chainComplete c f { job with held := job.held + 1 }⟩] }) ∧
    (holds → apart 0 → apart 1 →
      ∃ t y m', exec .chainComplete s = .next t ∧ t.cordRec c = some y ∧ t.findMotif x.mid = some m' ∧
        s.cycle ≤ SMap.get 0 (t.coreOf x.core).vecFree x.slot ∧
        (job.i < job.lit.toNat / 2 ^ 14 % 8 → m'.pil = m.pil ∧ y = x ∧
          Sends s t 1 (.chainComplete c f { job with i := job.i + 1, t := (List.range len).map result, held := 0 })) ∧
        (job.lit.toNat / 2 ^ 14 % 8 ≤ job.i →
          (∀ k < len, num m' (at_ 2 + 4 * (job.j + k)) = (result k).toNat) ∧
          (∀ o, o < at_ 2 + 4 * job.j ∨ at_ 2 + 4 * (job.j + len) ≤ o → SMap.get 0 m'.pil o = SMap.get 0 m.pil o) ∧
          (job.j + 32 < n → Sends s t 1 (.chainComplete c f { job with j := job.j + 32, i := 0, t := [], held := 0 })) ∧
          (n ≤ job.j + 32 → y.chain = false ∧ y.flagOf f.val = x.flagOf f.val - 1)))

/-! The bobbin. -/

/-- R249 to R257, R263, R266: a taken command stands in the journal as its entry in pillow was, with the fault of its checks: the fields of R250
(code 1), the multiples (3), the pillow bytes (2), the ends of the memory ranges (5) and overlap (4), in that order. One that passes begins at
once: with the page of its index list, or of its first source or destination in memory, or with its first piece within pillow. Its pages are
translated as it first reaches them, its indices read eight at a time, its pieces read and written; a write is performed whole at its
home; and recording a completion writes the status word, advances DONE and ends the entry, and makes the arrival of BE, unless its count differs
from a fixed EXP, which is fault 9 where there is no other. A fault goes to FSTAT and as bob_fault to the publisher, or to the lowest-numbered
live copy cord; code 10 kills the launch. What a copy within memory reads past a destination
line it keeps for the next one. While needle holds the bobbin it takes, reads and writes nothing (R266). bobq reads the motif's bobbin state.
What the spec leaves open there is as the model chose it: log entries 39 and 55. -/
def Obligations.BobbinCommands : Prop :=
  (∀ (d : Wr) (q : Fin 4) (s : State),
    let f : Form := { lat := .i4, vecs := wrVecs d 1 }
    f.check s = none →
    ∃ v : Word, exec (.bobq d q) s = .next (f.issued { s with agenda := s.agenda ++ fixed s 4 (s.cord.writes32 d fun _ => v) }) ∧
      (s.motif.copies = 0 → v = 0) ∧
      (s.motif.copies ≠ 0 → q.val = 0 → v = s.motif.done ++ s.motif.tail) ∧
      (s.motif.copies ≠ 0 → q.val = 1 → v = s.motif.drops) ∧ (s.motif.copies ≠ 0 → q.val = 2 → v = s.motif.fstat)) ∧
  (∀ (w : List Word) (ba : Nat),
    let n (i : Nat) : Nat := (w.getD i 0).toNat
    let kind := n 0 / 2 ^ 28
    let dir := n 0 / 2 ^ 26 % 4
    let tw := n 0 / 2 ^ 24 % 4
    let be := n 0 / 2 ^ 23 % 2 = 1
    let bar := n 0 / 2 ^ 19 % 16
    let bcnt := n 0 / 2 ^ 12 % 128
    let ty := n 0 / 2 ^ 8 % 16
    let flat := kind = 0 ∨ kind = 5
    let family := kind = 2 ∨ kind = 3 ∨ kind = 4 ∨ kind = 6 ∨ kind = 7
    let rows := n 1 / 2 ^ 16
    let rb := if flat then n 1 else n 1 % 2 ^ 16
    let po := n 2
    let ma := n 4 + n 5 * 2 ^ 32
    let mb := n 6 + n 7 * 2 ^ 32
    let sound := kind ≤ 7 ∧ n 0 % 2 ^ 8 = 0 ∧ (be → bcnt ≠ 0) ∧ (¬be → bar = 0 ∧ bcnt = 0) ∧
      (kind = 4 → ty = 4 ∨ ty = 10) ∧ (kind ≠ 4 → ty = 0) ∧
      (flat → tw = 0 ∧ 16 ≤ rb ∧ rb ≤ 2 ^ 30) ∧ (¬flat → 1 ≤ rows ∧ 16 ≤ rb ∧ rb ≤ 65520) ∧
      (kind = 0 → (dir = 2 → po = 0) ∧ (dir ≠ 3 → n 3 = 0) ∧ (dir = 3 → ma = 0) ∧ (dir ≠ 2 → mb = 0)) ∧
      (kind = 5 → dir ≤ 1 ∧ (dir = 1 → po = 0) ∧ (dir = 0 → ma = 0) ∧ mb = 0) ∧
      (kind = 1 → dir ≤ 1 ∧ rb ≤ n 3 ∧ mb = 0) ∧ (family → dir = 0 ∧ 1 ≤ n 3 ∧ n 3 < 2 ^ 31)
    let aligned := po % 16 = 0 ∧ ma % 16 = 0 ∧ rb % 16 = 0 ∧ (kind = 0 → n 3 % 16 = 0 ∧ mb % 16 = 0) ∧ (kind = 1 → n 3 % 16 = 0) ∧
      (family → mb % 4 = 0) ∧ (tw = 1 → rb % 128 = 0) ∧ (tw = 2 → rb % 64 = 0)
    let pil : List (Nat × Nat) :=
      if kind = 0 then (if dir = 2 then [] else if dir = 3 then [(po, rb), (n 3, rb)] else [(po, rb)])
      else if kind = 5 then (if dir = 0 then [(po, rb)] else []) else [(po, rows * rb)]
    let mem : List (Nat × Nat) :=
      if kind = 0 then (if dir = 2 then [(ma, rb), (mb, rb)] else if dir = 3 then [] else [(ma, rb)])
      else if kind = 1 then [(ma, (rows - 1) * n 3 + rb)] else if kind = 5 then (if dir = 1 then [(ma, rb)] else [])
      else [(ma, n 3 * rb), (mb, 4 * rows)]
    let inside := ∀ x ∈ pil, x.1 + x.2 ≤ ba
    let spans := ∀ x ∈ mem, x.1 + x.2 ≤ 2 ^ 64
    let touch (a k b m : Nat) : Prop := a < b + m ∧ b < a + k
    let clash := (kind = 0 ∧ dir = 2 ∧ touch ma rb mb rb) ∨ (kind = 0 ∧ dir = 3 ∧ touch po rb (n 3) rb) ∨
      ((kind = 3 ∨ kind = 4 ∨ kind = 7) ∧ touch mb (4 * rows) ma (n 3 * rb))
    (¬sound → Cmd.check w ba = 1) ∧ (sound → ¬aligned → Cmd.check w ba = 3) ∧ (sound → aligned → ¬inside → Cmd.check w ba = 2) ∧
    (sound → aligned → inside → ¬spans → Cmd.check w ba = 5) ∧ (sound → aligned → inside → spans → clash → Cmd.check w ba = 4) ∧
    (sound → aligned → inside → spans → ¬clash → Cmd.check w ba = 0) ∧
    ∀ (s : State) (core : Nat) (m : Motif) (p : BobPub) (rest : List BobPub), s.now = some (.bobbinTake core) → s.bobPick core = some m →
      m.replays = [] → m.pubs = p :: rest → (∀ x ∈ (s.coreOf core).journal, x.j ≠ s.fresh) → m.ba = some ba →
      (w = (List.range 8).map fun i => BitVec.ofNat 32 (leNat ((List.range 4).map fun k => SMap.get 0 m.pil (ba + 0x20 * (p.seq % 64) + 4 * i + k)))) →
      Cmd.check w ba = 0 → ∃ t, exec .bobbinTake s = .next t ∧
        (family → Sends s t 1 (.bobbinPageReach core s.fresh mb false)) ∧
        (kind = 0 ∧ (dir = 0 ∨ dir = 2) ∨ kind = 1 ∧ dir = 0 → Sends s t 1 (.bobbinPageReach core s.fresh ma false)) ∧
        ((kind = 0 ∨ kind = 1 ∨ kind = 5) ∧ dir = 1 → Sends s t 1 (.bobbinPageReach core s.fresh ma true)) ∧
        (kind = 0 ∧ dir = 3 ∨ kind = 5 ∧ dir = 0 → ∃ x : BobPiece, x.row = 0 ∧ x.off = 0 ∧ Sends s t 1 (.bobbinDataReturn core s.fresh x))) ∧
  ∀ (s : State) (core : Nat),
    (∀ m p rest, s.now = some (.bobbinTake core) → s.bobPick core = some m → m.replays = [] → m.pubs = p :: rest →
      (∀ x ∈ (s.coreOf core).journal, x.j ≠ s.fresh) →
      let w : List Word := (List.range 8).map fun i => BitVec.ofNat 32 (leNat ((List.range 4).map fun k =>
        SMap.get 0 m.pil (m.ba.getD 0 + 0x20 * (p.seq % 64) + 4 * i + k)))
      ∃ t m' e, exec .bobbinTake s = .next t ∧ t.mem = s.mem ∧ t.findMotif m.mid = some m' ∧ m'.pubs = rest ∧
        e ∈ (t.coreOf core).journal ∧ e.j = s.fresh ∧ e.mid = m.mid ∧ e.pub = p ∧ e.w = w ∧
        (Cmd.check w (m.ba.getD 0) ≠ 0 → e.fault = Cmd.check w (m.ba.getD 0) ∧ e.complete = true)) ∧
    (s.now = some (.bobbinTake core) → s.bobHeldAt core = true → exec .bobbinTake s = .next s) ∧
    ∀ j e, s.cmd core j = some e →
      (s.bobHeldAt core = true → ∀ ev x, (ev = .bobbinIndexRead ∧ x = Event.bobbinIndexRead core j) ∨
          (ev = .bobbinDataReturn ∧ ∃ p, x = .bobbinDataReturn core j p) ∨ (ev = .bobbinWriteAck ∧ ∃ w, x = .bobbinWriteAck core j (some w)) →
        s.now = some x → ∃ t, exec ev s = .next t ∧ t.mem = s.mem ∧ t.motif = s.motif ∧ t.cores = s.cores ∧ Sends s t 1 x) ∧
      let ctx := ((s.findMotif e.mid).map (·.ctx)).getD 0
      (∀ va w p, s.now = some (.bobbinPageReach core j va w) → (∀ q ∈ (s.coreOf core).tlb, q.covers ctx va = false) →
        s.walk ctx va = some p →
        ∃ t e', exec .bobbinPageReach s = .next t ∧ t.cmd core j = some e' ∧
          ∀ k, s.pageFault (s.ctxOf ctx).sys (if w then .w else .r) va (some p) = k →
            (k = none → s.isLocal (p.addr va) = true → p ∈ e'.trans) ∧
            (k = none → s.isLocal (p.addr va) = false → Cmd.fabric e.w = false → e.fault = 0 → e'.fault = 8) ∧
            (k = some .addrFault → e.fault = 0 → e'.fault = 5) ∧ (k = some .permFault → e.fault = 0 → e'.fault = 6)) ∧
      (s.now = some (.bobbinIndexRead core j) → s.bobHeldAt core = false →
        let at_ (i : Nat) : Nat := let va := Cmd.mb e.w + 4 * (e.idx.length + i); ((e.page ctx va).map fun p => p.addr va).getD 0
        let g (i : Nat) : Int := (BitVec.ofNat 32 (leNat ((List.range 4).map fun k => s.homeByte (at_ i + k)))).toInt
        let n := min 8 (Cmd.count e.w - e.idx.length)
        (∀ i < n, s.bobReadFails (at_ i / 128) = 0) →
        ∃ t e', exec .bobbinIndexRead s = .next t ∧ t.cmd core j = some e' ∧ e'.idx = e.idx ++ (List.range n).map fun i =>
          if 0 ≤ g i ∧ g i < (Cmd.num e.w 3 : Int) then some (g i).toNat else none) ∧
      (∀ x, s.now = some (.bobbinDataReturn core j x) → s.bobHeldAt core = false →
        (∀ a n rest, x.reads = (a, n) :: rest → x.mem = true → s.bobReadFails (a / 128) = 0 →
          ∃ t, exec .bobbinDataReturn s = .next t ∧ Sends s t 0 (.bobbinDataReturn core j
            { x with reads := rest, got := x.got ++ (List.range n).map fun i => s.homeByte (a + i) })) ∧
        (∀ a n rest m, x.reads = (a, n) :: rest → x.mem = false → s.findMotif e.mid = some m →
          ∃ t, exec .bobbinDataReturn s = .next t ∧ Sends s t 1 (.bobbinDataReturn core j
            { x with reads := rest, got := x.got ++ (List.range n).map fun i => SMap.get 0 m.pil (a + i) })) ∧
        (∀ a, x.reads = [] → x.dst = some a →
          let n := min x.got.length (128 - a % 128)
          ∃ t e', exec .bobbinDataReturn s = .next t ∧ t.mem = s.mem ∧ t.cmd core j = some e' ∧ e'.carry = x.got.drop n ∧
            Sends s t 0 (.bobbinWriteAck core j (some ⟨a, x.got.take n, if Cmd.kind e.w = 4 then some (Cmd.ty e.w) else none⟩))) ∧
        ∀ m, x.reads = [] → x.dst = none → s.findMotif e.mid = some m → x.got.length = 16 →
          let o := Cmd.pilAt e.w (Cmd.kind e.w == 0 && Cmd.dir e.w == 3) x.row x.off
          ∃ t m', exec .bobbinDataReturn s = .next t ∧ t.findMotif e.mid = some m' ∧ m'.full (o / 16) = true ∧
            (∀ i < 16, SMap.get 0 m'.pil (o + i) = x.got.getD i 0) ∧ ∀ a, a < o ∨ o + 16 ≤ a → SMap.get 0 m'.pil a = SMap.get 0 m.pil a) ∧
      (∀ x, s.now = some (.bobbinWriteAck core j (some x)) → s.bobHeldAt core = false → x.add = none → s.unreachable (x.addr / 128) = false →
        s.agenda.any (adapterWrite (x.addr / 128)) = false →
        x.addr % 128 + x.bytes.length ≤ 128 → s.epochs = [] → (∀ o ∈ s.owners, o.1 / 32 ≠ x.addr / 128) →
        (s.isLocal x.addr && inWindow x.addr) = false →
        ∃ t, exec .bobbinWriteAck s = .next t ∧ Sends s t 0 (.bobbinWriteAck core j none) ∧
          (∀ i < x.bytes.length, t.byte (x.addr + i) = x.bytes.getD i 0) ∧
          ∀ a, a < x.addr ∨ x.addr + x.bytes.length ≤ a → t.byte a = s.byte a) ∧
      (s.now = some (.bobbinWriteAck core j none) →
        ∃ t e', exec .bobbinWriteAck s = .next t ∧ t.cmd core j = some e' ∧ e'.acks = e.acks - 1) ∧
      ∀ m, s.now = some (.bobbinCompletionRecord m.mid) → s.findMotif m.mid = some m → m.core = core → s.recordable m = some e →
        let w0 := (e.w.getD 0 0).toNat
        let b := w0 / 2 ^ 19 % 16
        let n := w0 / 2 ^ 12 % 128
        let x := m.bar b
        let arrives := w0 / 2 ^ 23 % 2 = 1 ∧ n ≠ 0
        let fault := if e.fault = 0 ∧ arrives ∧ x.exp ≠ 0 ∧ n ≠ x.exp then 9 else e.fault
        let o := m.ba.getD 0 + 0x20 * (e.pub.seq % 64)
        let info := fault * 2 ^ 28 + e.pub.seq % 2 ^ 16
        ∃ t m', exec .bobbinCompletionRecord s = .next t ∧ t.findMotif m.mid = some m' ∧ m'.done = m.done + 1 ∧
          m'.drops.toNat = min (2 ^ 32 - 1) (m.drops.toNat + e.drops) ∧ m'.full (o / 16) = true ∧
          (fault < 16 → leNat ((List.range 4).map fun i => SMap.get 0 m'.pil (o + i)) = 0xF0000000 + fault * 2 ^ 24 + min e.drops 65535) ∧
          (∀ e' ∈ (t.coreOf core).journal, e'.j ≠ e.j) ∧ m'.fstat = (if fault = 0 then m.fstat else BitVec.ofNat 32 info) ∧
          (arrives → x.exp = 0 ∨ n = x.exp → m'.bar b = if n ≤ x.arr + 1 ∧ x.reg = 0 then { ph := !x.ph }
            else { x with exp := n, arr := min 127 (x.arr + 1) }) ∧
          (¬arrives ∨ (x.exp ≠ 0 ∧ n ≠ x.exp) → m'.bar b = x) ∧
          (∀ c y, fault ≠ 0 → Runs s c y → y.mid = m.mid → y.idx < 32 →
            (c = e.pub.cord ∨ (y.role = 0 ∧ ∀ z ∈ s.allCords, z.mid = m.mid → z.cid ≠ e.pub.cord ∧ (z.role = 0 → z = y ∨ y.idx < z.idx))) →
            ∃ z, t.cordRec c = some z ∧ ∃ a ∈ z.async, a.cause = .bobFault ∧ a.info = BitVec.ofNat 64 info) ∧
          ∀ q, fault = 10 → s.patternOf m.queue = some q → (∀ k, q.st ≠ .killing k ∧ q.st ≠ .rolling k) →
            ∃ q', t.patternOf m.queue = some q' ∧ q'.st = .killing 0x20

/-! The tambour. -/

/-- R274 to R276, R297, R298: tdset writes a descriptor from eight registers, tdmod one word or moves BASE or SCALE, and with another selector raises opnd_kind, tdq reads a word; cmpr
keeps the four bytes of largest magnitude of each eight, lower positions first, in their order with their positions; mtchk tests its four
groups of lanes. -/
def Obligations.DescriptorAndSparsityForms : Prop :=
  let ft (vs : List (Nat × Nat)) : Form := { lat := .i4, vecs := vs, role := some 1, whole := true }
  (∀ (d : Td) (a : Sreg), Computes (.tdset d a) (ft []) 4 fun c => (List.range 8).map fun w => .td d.val w (c.sreg (a.val + w))) ∧
  (∀ (d : Td) (a : Rd) (n : Imm),
    let moves (w : Nat) (c : Cord) : List RegWrite :=
      let x : Dword := (c.td d.val (w + 1) ++ c.td d.val w) + (c.once a).signExtend 64
      [.td d.val w (x.extractLsb' 0 32), .td d.val (w + 1) (x.extractLsb' 32 32)]
    (n.toNat ≤ 7 → Computes (.tdmod d a n) (ft (rdVecs a 1)) 4 fun c => [.td d.val n.toNat (c.once a)]) ∧
    (n.toNat = 8 → Computes (.tdmod d a n) (ft (rdVecs a 1)) 4 (moves 0)) ∧
    (n.toNat = 9 → Computes (.tdmod d a n) (ft (rdVecs a 1)) 4 (moves 3)) ∧
    ∀ s : State, (ft (rdVecs a 1)).check s = none → 9 < n.toNat → exec (.tdmod d a n) s = .next (s.raise .opndKind s.cord.word)) ∧
  (∀ (d : Wr) (t : Td) (n : Imm) (s : State), (ft (wrVecs d 1)).check s = none →
    (∀ x ∈ s.agenda, isFixedWrite s.cord.cid x.what = false) →
    exec (.tdq d t n) s = .next ((ft (wrVecs d 1)).issued { s with
      agenda := s.agenda ++ fixed s 4 (s.cord.writes32 d fun _ => s.cord.td t.val n.toNat) })) ∧
  (∀ (d a b : Vec),
    let byte (c : Cord) (l j : Nat) : BitVec 8 := (c.vreg (a.val + 1) l ++ c.vreg a.val l).extractLsb' (8 * j) 8
    let mag (c : Cord) (l j : Nat) : Nat := (byte c l j).toInt.natAbs
    ∃ (kept : Cord → Nat → Nat → Nat) (val idx : Cord → Nat → Word),
      Computes (.cmpr d a b) { lat := .f6, vecs := [(d.val, 1), (a.val, 2), (b.val, 1)], whole := true, unit := .vec 1 } 6
        (fun c => c.writes32 (.v d) (val c) ++ c.writes32 (.v b) (idx c)) ∧
      ∀ c l, (∀ i < 4, kept c l i < 8 ∧ (val c l).extractLsb' (8 * i) 8 = byte c l (kept c l i) ∧
          ((idx c l).extractLsb' (3 * i) 3).toNat = kept c l i ∧ (i < 3 → kept c l i < kept c l (i + 1))) ∧
        (idx c l).toNat < 2 ^ 12 ∧
        ∀ j < 8, (∀ i < 4, kept c l i ≠ j) → ∀ i < 4,
          mag c l j < mag c l (kept c l i) ∨ (mag c l j = mag c l (kept c l i) ∧ kept c l i < j)) ∧
  ∀ (d : Wr) (a : Vec),
    let w (c : Cord) (l : Nat) : Nat := (c.vreg a.val l).toNat % 2 ^ 12
    let index (c : Cord) (l m : Nat) : Nat := w c l / 8 ^ m % 8
    ∃ v : Cord → Word,
      Computes (.mtchk d a) { lat := .x 16, vecs := wrVecs d 1 ++ [(a.val, 1)], whole := true, unit := .net } 16
        (fun c => c.writes32 d fun _ => v c) ∧
      ∀ c, (v c).toNat < 16 ∧ ∀ b < 4, bit (v c) b = true ↔
        (∀ i < 8, ∀ m < 3, index c (8 * b + i) m < index c (8 * b + i) (m + 1)) ∧
        ∀ x < 8, (((List.range 8).flatMap fun i => (List.range 4).map (index c (8 * b + i))).filter (· == x)).length = 4

/-- R268, R277 to R280, R289 to R310: a matrix form whose accumulators exist, whose descriptors and metadata are legal and whose tile's mode
allows it goes to the end of its core's queue with its operands as they are at issue, its occupancy and its completion time, and sets the
mode that it gives its tile; one whose accumulator does not exist, whose mode or descriptor is not legal, or whose formats do not go together
traps instead.
What the spec leaves open there is as the model chose it: log entry 36. -/
def Obligations.MatrixFormsQueue : Prop :=
  ∀ (d a : Acc) (x y : Td) (v : Vec) (n : Imm) (lit : Word) (s : State),
    let c := s.cord
    let early := s.dev.st = .early
    let occ (k : Nat) : Nat := if early then 2 * k else k
    let queues (i : Instr) (vs : List (Nat × Nat)) (as : List Acc) (work : TWork) (o l : Nat) (mode : Option (Nat × TMode)) : Prop :=
      let f : Form := { lat := .v, vecs := vs, role := some 1, whole := true }
      f.check s = none → (∀ k ∈ as, k.val < c.nacc) → s.queueFull = false →
      ∃ t w, exec i s = .next (f.issued t) ∧ t.mem = s.mem ∧ w ∈ (t.coreOf c.core).tq ∧ w.work = work ∧ w.cord = c.cid ∧
        w.flag = c.flag ∧ w.occ = o ∧ w.lat = l ∧ w.phase = .queued ∧ w.nm1 = c.mprom.toNat ∧
        (∀ k m, mode = some (k, m) → t.cord.modeOf k = m) ∧
        ∀ k, (∀ m, mode ≠ some (k, m)) → t.cord.modeOf k = c.modeOf k
    let fetches (i : Instr) (as : List Acc) (work : TWork) (o : Nat) (mode : Option (Nat × TMode)) (rs : List (Nat × Nat)) : Prop :=
      ∀ ps, Hits s .r (runStarts rs) ps → queues i [] as work o (o + 8) mode
    let fits (k : Nat) (m : TMode) : Prop := c.modeOf k = .z ∨ c.modeOf k = m
    let A := c.desc x.val
    let B := c.desc y.val
    queues (.azero d) [] [d] (.azero d.val) 4 8 (some (d.val, .z)) ∧
    queues (.aprom d) [] [d] (.aprom d.val) 8 12 none ∧
    (∀ m : TMode, m = (if n.toNat = 0 then .f else if n.toNat = 1 then .i else .d) →
      queues (.acvt d n) [] [d] (.acvt d.val m) 8 12 (some (d.val, m))) ∧
    (c.modeOf d.val = .f → queues (.amaxu d) [] [d] (.amaxu d.val) 12 20 none) ∧
    (c.modeOf a.val = .f → fits d.val .f → queues (.arsc d a) [] [d, a] (.arsc d.val a.val) 8 12 none) ∧
    (∀ view p, view = n.toNat / 32 → p = n.toNat % 32 →
      (view < 3 → v.val % (if view = 2 then 8 else 4) = 0 → c.owns [(v.val, if view = 2 then 8 else 4)] = true → fits d.val (viewMode view) →
        queues (.ald d v n) [(v.val, 1)] [d] (.ald d.val view (c.aldVals view p v.val) []) 2 8 (some (d.val, viewMode view))) ∧
      (view = 3 → p ≤ 1 → v.val % 4 = 0 → c.owns [(v.val, 4)] = true →
        queues (.ald d v n) [(v.val, 1)] [d] (.ald d.val 3 [] (c.aldSides p v.val)) 2 8 none) ∧
      (view = 0 ∨ c.modeOf a.val = .z ∨ c.modeOf a.val = .f → view < 3 →
        v.val % (if c.modeOf a.val = .d then 8 else 4) = 0 → c.owns [(v.val, if c.modeOf a.val = .d then 8 else 4)] = true →
        queues (.ast v a n) [(v.val, 1)] [a] (.ast (c.wb + v.val) a.val view p) 2 10 none)) ∧
    (A.ok mmaFmts false (kOf A.fmt) = true → B.ok mmaFmts false (kOf B.fmt) = true → A.fmt = B.fmt →
      (early → A.fmt ≠ 13 ∧ A.fmt ≠ 11) → fits d.val (fmtMode A.fmt) →
      fetches (.mma d x y) [d] (.mma d.val A B) (if A.fmt = 11 then 64 else occ 16) (some (d.val, fmtMode A.fmt)) (A.runs ++ B.runs)) ∧
    (c.modeOf a.val = .f → fits d.val .f → d ≠ a → B.ok [9, 12, 13] false 64 = true → (early → B.fmt ≠ 13) →
      fetches (.mmaAcc d a y) [d, a] (.mmaAcc d.val a.val B) (occ (if B.fmt = 13 then 16 else if B.fmt = 12 then 32 else 48))
        (some (d.val, .f)) B.runs) ∧
    (∀ tr : Bool, A.ok [0, 12] true (if tr then 64 else 96) = true → (tr = true → A.rows % 8 = 0) →
      B.ok [0, 12] false (if tr then 64 else 96) = true → A.fmt = B.fmt → fits d.val (fmtMode A.fmt) →
      let groups := (A.cext + 7) / 8
      let reg := lit.toNat % 64
      (A.cext ≠ 0 → ∀ r ∈ metaRegs reg A.rows groups, r.2.2 ≤ 63 ∧ c.owns [(r.2.2, 1)] = true) →
      c.metaBad tr reg A.rows groups = none →
      fetches (if tr then .mmast d x y lit else .mmas d x y lit) [d] (.sparse tr d.val A B (c.metaOf reg A.rows groups)) (occ 16)
        (some (d.val, fmtMode A.fmt)) (A.runs ++ B.runs)) ∧
    (let f : Form := { lat := .v, role := some 1, whole := true }
      let traps (i : Instr) (k : Cause) (info : Dword) : Prop := exec i s = .next (s.raise k info)
      f.check s = none →
        (c.nacc ≤ d.val → ∀ i ∈ [Instr.azero d, .aprom d, .acvt d n, .amaxu d, .arsc d a, .mma d x y, .mmaAcc d a y, .mmas d x y lit, .mmast d x y lit],
          traps i .accRange (BitVec.ofNat 64 d.val)) ∧
        (d.val < c.nacc → c.modeOf d.val ≠ .f → traps (.amaxu d) .accMode (BitVec.ofNat 64 d.val)) ∧
        (d.val < c.nacc → c.nacc ≤ a.val → ∀ i ∈ [Instr.arsc d a, .mmaAcc d a y], traps i .accRange (BitVec.ofNat 64 a.val)) ∧
        (d.val < c.nacc → a.val < c.nacc →
          (c.modeOf a.val ≠ .f → ∀ i ∈ [Instr.arsc d a, .mmaAcc d a y], traps i .accMode (BitVec.ofNat 64 a.val)) ∧
          (c.modeOf a.val = .f → ¬fits d.val .f → ∀ i ∈ [Instr.arsc d a, .mmaAcc d a y], traps i .accMode (BitVec.ofNat 64 d.val)) ∧
          (c.modeOf a.val = .f → d = a → traps (.mmaAcc d a y) .opndKind c.word) ∧
          (c.modeOf a.val = .f → fits d.val .f → d ≠ a → B.ok (List.range 16) false 64 = false →
            traps (.mmaAcc d a y) .tdBad (BitVec.ofNat 64 y.val)) ∧
          (c.modeOf a.val = .f → fits d.val .f → d ≠ a → B.ok (List.range 16) false 64 = true → B.fmt ∉ [9, 12, 13] ∨ (early ∧ B.fmt = 13) →
            ∃ low < 16, traps (.mmaAcc d a y) .mmaFmt (BitVec.ofNat 64 (B.fmt * 16 + low)))) ∧
        (d.val < c.nacc →
          (A.ok mmaFmts false (kOf A.fmt) = false → traps (.mma d x y) .tdBad (BitVec.ofNat 64 x.val)) ∧
          (A.ok mmaFmts false (kOf A.fmt) = true → B.ok mmaFmts false (kOf B.fmt) = false → traps (.mma d x y) .tdBad (BitVec.ofNat 64 y.val)) ∧
          (A.ok mmaFmts false (kOf A.fmt) = true → B.ok mmaFmts false (kOf B.fmt) = true →
            (A.fmt ≠ B.fmt ∨ (early ∧ A.fmt ∈ [11, 13]) → traps (.mma d x y) .mmaFmt (BitVec.ofNat 64 (B.fmt * 16 + A.fmt))) ∧
            (A.fmt = B.fmt → (early → A.fmt ∉ [11, 13]) → ¬fits d.val (fmtMode A.fmt) → traps (.mma d x y) .accMode (BitVec.ofNat 64 d.val))) ∧
          ∀ tr : Bool, let i : Instr := if tr then .mmast d x y lit else .mmas d x y lit
            (A.ok [0, 12] true (if tr then 64 else 96) = true → (tr = true → A.rows % 8 = 0) → B.ok [0, 12] false (if tr then 64 else 96) = true →
              A.fmt ≠ B.fmt → traps i .mmaFmt (BitVec.ofNat 64 (B.fmt * 16 + A.fmt))) ∧
            (A.ok [0, 12] true (if tr then 64 else 96) = false ∨ (tr = true ∧ A.rows % 8 ≠ 0) → traps i .tdBad (BitVec.ofNat 64 x.val)))) ∧
    ∀ ps, (drainSatOk B lit = true → B.drainOk lit = true → lit.toNat / 16 % 4 ≠ 2 → bit lit 7 = false → B.scen = false →
      c.stcnt + 1 ≤ 255 → Hits s .w (runStarts B.drainRuns) ps →
      let f : Form := { lat := .v, role := some 1, whole := true }
      f.check s = none → a.val < c.nacc → s.queueFull = false →
      ∃ t w, exec (.adrn a y lit) s = .next (f.issued t) ∧ t.mem = s.mem ∧ t.cord.stcnt = c.stcnt + 1 ∧
        w ∈ (t.coreOf c.core).tq ∧ w.work = .adrn a.val B lit ∧ w.cord = c.cid ∧ w.flag = c.flag ∧ w.occ = 16 ∧ w.opTok = s.fresh)

/-- R268, R277, R282, R309 to R311, R401: a form starts when the array is free, its operands are there and its cluster holds its tokens; its
occupancy and completion are due as many cycles later as it says; a line that it read without a pin and that L2 has replaced since is read
again first; half-lines are read one at a time at their homes; the completion
writes the tile and the registers; a drain's lines and version updates are performed at their homes, whole, and its last part ends it.
What the spec leaves open there is as the model chose it: log entries 2 and 36. -/
def Obligations.TambourEvents : Prop :=
  ∀ (s : State) (core : Nat),
    (∀ f x, s.now = some (.tambourFormStart core) → s.canStart core = some f → s.replaced f = [] → Runs s f.cord x →
      f.sent = true ∧ f.need = [] ∧ f.tokens ≤ SMap.get 0 s.dev.tokens (core / 16) ∧ (∀ g ∈ (s.coreOf core).tq, g.phase ≠ .occupying) ∧
      ∃ t g, exec .tambourFormStart s = .next t ∧ t.form core f.q = some g ∧ g.phase = .occupying ∧ g.tile = f.effect x ∧
        SMap.get 0 t.dev.tokens (core / 16) = SMap.get 0 s.dev.tokens (core / 16) - f.tokens ∧
        (⟨s.cycle + f.occ, .tambourOccupancyEnd core f.q⟩ : Due) ∈ t.agenda ∧
        ((∀ a d lit, f.work ≠ .adrn a d lit) → (⟨s.cycle + f.lat, .tambourFormComplete core f.q⟩ : Due) ∈ t.agenda) ∧
        ∀ a d lit, f.work = .adrn a d lit → lit.toNat / 16 % 4 ≠ 2 →
          if bit lit 7 then Sends s t 0 (.adrnVersionPerformed core f.q) else ∀ l ∈ g.lines, Sends s t 0 (.adrnLineAck core f.q (some l))) ∧
    ∀ q f, s.form core q = some f →
      (∀ half, s.now = some (.tileFetchLine core q half (some [])) → half ∈ f.need → s.readFails (half / 2) = none →
        let mine := s.inFlightTo f.cord (half / 2) f.q
        (s.readWaits f.cord f.q (half / 2) = true → ∃ t, exec .tileFetchLine s = .next t ∧ Sends s t 1 (.tileFetchLine core q half (some []))) ∧
        (s.readWaits f.cord f.q (half / 2) = false →
          ∃ t g, exec .tileFetchLine s = .next t ∧ t.mem = s.mem ∧ t.form core q = some g ∧ g.need = f.need.filter (· != half) ∧
          g.got = f.got ++ [(half, (List.range 64).map fun i =>
            ((mine.reverse.find? fun k => k.1 == half % 2 * 64 + i).map (·.2)).getD (s.homeByte (half * 64 + i)))])) ∧
      (s.canStart core = some f → s.now = some (.tambourFormStart core) → s.replaced f ≠ [] →
        ∃ t g, exec .tambourFormStart s = .next t ∧ t.form core q = some g ∧ g.phase = f.phase ∧
          ∀ v ∈ f.vas, v.1 / 2 ∈ s.replaced f → v.1 ∈ g.need ∧ ∃ at_, (⟨at_, .tileFetchLine core q v.1 .none⟩ : Due) ∈ t.agenda) ∧
      (s.now = some (.tambourOccupancyEnd core q) → (∀ a d lit, f.work = .adrn a d lit → ∃ x, Runs s f.cord x ∧ ∃ o ∈ x.ops, o.tok = f.opTok) →
        ∃ t g, exec .tambourOccupancyEnd s = .next t ∧ t.form core q = some g ∧ g.phase = .leaving ∧ g.pinned = []) ∧
      (∀ x, s.now = some (.tambourFormComplete core q) → Runs s f.cord x →
        ∃ t y, exec .tambourFormComplete s = .next t ∧ t.form core q = none ∧ t.cordRec f.cord = some y ∧
          y.v = (x.applyAll f.writes).v ∧ y.flagOf f.flag.val = x.flagOf f.flag.val - 1 ∧
          ∀ d tile, f.work.dest = some d → f.tile = some tile → y.tile d = tile) ∧
      (∀ l, s.now = some (.adrnLineAck core q (some l)) → s.unreachable l.line = false → s.agenda.any (adapterWrite l.line) = false → s.epochs = [] →
        (∀ o ∈ s.owners, o.1 / 32 ≠ l.line) → (s.isLocal (l.line * 128) && inWindow (l.line * 128)) = false →
        s.loadAhead core f.cord l.line f.opTok = none →
        let z := drainBytes l.fmt
        let old (o : Nat) : Nat := leNat ((List.range z).map fun i => s.byte (l.line * 128 + o + i))
        l.elems.Pairwise (fun e e' => e.1 + z ≤ e'.1) → (∀ e ∈ l.elems, e.1 + z ≤ 128) →
        ∃ t, exec .adrnLineAck s = .next t ∧ Sends s t 0 (.adrnLineAck core q none) ∧
          (∀ e ∈ l.elems, ∀ i < z, t.byte (l.line * 128 + e.1 + i) =
            BitVec.ofNat 8 ((if l.add then drainAdd l.fmt (old e.1) e.2 else e.2) / 2 ^ (8 * i))) ∧
          ∀ b, (∀ e ∈ l.elems, b < l.line * 128 + e.1 ∨ l.line * 128 + e.1 + z ≤ b) → t.byte b = s.byte b) ∧
      (∀ x o, s.now = some (.adrnLineAck core q none) → Runs s f.cord x → x.ops.find? (·.tok == f.opTok) = some o →
        o.kind = .drain core q → o.left = 1 → (∀ g ∈ (s.coreOf core).tq, g.phase ≠ .occupying) →
        ∃ t y, exec .adrnLineAck s = .next t ∧ t.form core q = none ∧ t.cordRec f.cord = some y ∧ y.stcnt = x.stcnt - o.stc ∧
          ∀ g, o.flag = some g → y.flagOf g.val = x.flagOf g.val - 1) ∧
      ∀ a d lit, s.now = some (.adrnVersionPerformed core q) → f.work = .adrn a d lit →
        let va := xaddr f.trans f.ctx (Desc.scale d)
        va % 8 = 0 → s.unreachable (va / 128) = false → s.agenda.any (adapterWrite (va / 128)) = false → s.epochs = [] → (∀ o ∈ s.owners, o.1 / 32 ≠ va / 128) →
        (s.isLocal va && inWindow va) = false →
        ∃ t, exec .adrnVersionPerformed s = .next t ∧
          (∀ i < 8, t.byte (va + i) = BitVec.ofNat 8 ((leNat ((List.range 8).map fun j => s.byte (va + j)) + 1) / 2 ^ (8 * i))) ∧
          (∀ b, b < va ∨ va + 8 ≤ b → t.byte b = s.byte b) ∧
          (f.version = 0 → ∀ l ∈ f.lines, Sends s t 0 (.adrnLineAck core q (some l)))

/-- R270, R284 to R292, R295, R302 to R306: what a matrix form makes of its tile: zero; its promotion, which moves rne(S + C) to the shadow
of every element; a conversion; the groups of a product added in order, with NSTEP and the promotion it brings, from a tile, two dense
operands or a sparse one; the elements or side registers that ald carries; the softmax of each row, with M, MP and L; and the rescaling of
every element by its row's factor. The whole tiles of promotions, conversions and loads are as stated, and the rest of the tile unchanged.
That NSTEP counts modulo 128 is the model's reading (log entry 36). -/
def Obligations.TileEffects : Prop :=
  ∀ (f : TForm) (c : Cord),
    let effect (w : TWork) (u : Tile) : Prop := f.work = w ∧ f.effect c = some u
    (∀ d u, effect (.azero d) u → u.mode = .z ∧ u.nstep = 0 ∧ u.nrow = 64 ∧ u.ncol = 64 ∧
      ∀ i, u.cAt i = 0 ∧ u.shAt i = 0 ∧ u.mAt i = 0xFF800000 ∧ u.mpAt i = 0xFF800000 ∧ u.lAt i = 0) ∧
    (∀ d u, effect (.aprom d) u → u.nstep = 0 ∧ u.mode = (c.tile d).mode ∧
      ∀ i < 4096, if (c.tile d).mode = .f then u.shAt i = (c.tile d).v i ∧ u.cAt i = 0
        else u.shAt i = (c.tile d).shAt i ∧ u.cAt i = (c.tile d).cAt i) ∧
    (∀ d m u, effect (.acvt d m) u → ((c.tile d).mode = .z ∨ (c.tile d).mode = m → u = { c.tile d with mode := m }) ∧
      (¬((c.tile d).mode = .z ∨ (c.tile d).mode = m) → u.mode = m ∧ u.nstep = 0) ∧ u.m = (c.tile d).m ∧ u.mp = (c.tile d).mp ∧ u.l = (c.tile d).l ∧
      ∀ i < 4096,
      ((c.tile d).mode = .f → m = .i → u.cAt i = BitVec.ofNat 64 (encodeFmt 0 4 .rne false ((c.tile d).sum i))) ∧
      ((c.tile d).mode = .d → m = .i → u.cAt i = BitVec.ofNat 64 (encodeFmt 0 4 .rne false (fp64.decode ((c.tile d).cAt i).toNat))) ∧
      ((c.tile d).mode = .d → m = .f → u.cAt i = 0 ∧
        u.shAt i = BitVec.ofNat 32 (fp32.encode true .rne false (fp64.decode ((c.tile d).cAt i).toNat))) ∧
      ((c.tile d).mode = .i → m = .d → u.cAt i = BitVec.ofNat 64 (fp64.encode true .rne false (ofInt (((c.tile d).cAt i).setWidth 32).toInt))) ∧
      ((c.tile d).mode = .i → m = .f → u.cAt i = 0 ∧
        u.shAt i = BitVec.ofNat 32 (fp32.encode true .rne false (ofInt (((c.tile d).cAt i).setWidth 32).toInt))) ∧
      ((c.tile d).mode = .f → m = .d → u.cAt i = BitVec.ofNat 64 (fp64.encode true .rne false ((c.tile d).sum i)))) ∧
    (let multiplies (d : Nat) (u : Tile) (m : TMode) (x y : Nat → Nat → Machine.Num) (k size rows cols : Nat) : Prop :=
      u.mode = m ∧ u.nrow = rows ∧ u.ncol = cols ∧ u.m = (c.tile d).m ∧ u.mp = (c.tile d).mp ∧ u.l = (c.tile d).l ∧
      ∀ i < 64, ∀ n < 64,
        let new := (groupsOf k size).foldl (fun z ks => addGroup m z (groupSum (x i) (y n) ks)) ((c.tile d).cAt (64 * i + n))
        if m = .f ∧ ((c.tile d).nstep + 1) % 128 = f.nm1 + 1 then
          u.nstep = 0 ∧ u.cAt (64 * i + n) = 0 ∧ u.shAt (64 * i + n) = BitVec.ofNat 32 (fp32.encode true .rne false
            (Machine.Num.add (f32 ((c.tile d).shAt (64 * i + n))) (decodeA26 new.toNat)))
        else u.cAt (64 * i + n) = new ∧ u.shAt (64 * i + n) = (c.tile d).shAt (64 * i + n) ∧
          u.nstep = (if m = .f then ((c.tile d).nstep + 1) % 128 else (c.tile d).nstep)
    (∀ d a b u, effect (.mma d a b) u →
      multiplies d u (fmtMode (Desc.fmt a)) (f.elem a) (f.elem b) (kOf (Desc.fmt a)) (if Desc.fmt a = 11 then 6 else 16) (Desc.rows a) (Desc.rows b)) ∧
    (∀ tr d a b gs u, effect (.sparse tr d a b gs) u →
      let w (r k : Nat) : Machine.Num :=
        if Desc.rows a ≤ r ∨ Desc.cext a ≤ k then .fin false 0 0
        else match (List.range 4).find? fun m => SMap.get 0 gs (12 * r + k / 8) / 8 ^ m % 8 == k % 8 with
          | none => .fin false 0 0
          | some m => scaled8 (Desc.fmt a) (f.scaleOf a r) (f.byteAt ((Desc.row a r + 4 * (k / 8) + m) % 2 ^ 64)).toNat
      multiplies d u (fmtMode (Desc.fmt a)) (fun i k => if tr then w k i else w i k) (f.elem b) (if tr then 64 else 96) 32
        (if tr then Desc.cext a else Desc.rows a) (Desc.rows b)) ∧
    ∀ d a b u, effect (.mmaAcc d a b) u →
      let q := c.tile a
      multiplies d u .f (fun i k => if i < q.nrow ∧ k < q.ncol then
          decodeFmt 0 (Desc.fmt b) (encodeFmt 0 (Desc.fmt b) .rne false (f32 (q.v (64 * i + k)))) else .fin false 0 0)
        (f.elem b) 64 16 q.nrow (Desc.rows b)) ∧
    (∀ d view vals u, effect (.ald d view vals []) u → view < 3 → (vals.map (·.1)).Pairwise (· ≠ ·) →
      u.mode = viewMode view ∧ u.nstep = (c.tile d).nstep ∧ u.nrow = (c.tile d).nrow ∧ u.ncol = (c.tile d).ncol ∧ u.m = (c.tile d).m ∧
      u.mp = (c.tile d).mp ∧ u.l = (c.tile d).l ∧
      (∀ e ∈ vals, if view = 0 then u.shAt e.1 = e.2.setWidth 32 ∧ u.cAt e.1 = 0
        else u.cAt e.1 = if view = 1 then (e.2.setWidth 32).setWidth 64 else e.2) ∧
      ∀ i, (∀ e ∈ vals, e.1 ≠ i) ∨ view ≠ 0 → u.shAt i = (c.tile d).shAt i ∧ ((∀ e ∈ vals, e.1 ≠ i) → u.cAt i = (c.tile d).cAt i)) ∧
    (∀ d sides u, effect (.ald d 3 [] sides) u → (sides.map (·.1)).Pairwise (· ≠ ·) →
      u.mode = (c.tile d).mode ∧ u.c = (c.tile d).c ∧ u.sh = (c.tile d).sh ∧ u.nstep = (c.tile d).nstep ∧ u.nrow = (c.tile d).nrow ∧
      u.ncol = (c.tile d).ncol ∧ (∀ e ∈ sides, u.mAt e.1 = e.2.1 ∧ u.mpAt e.1 = e.2.2.1 ∧ u.lAt e.1 = e.2.2.2) ∧
      ∀ r, (∀ e ∈ sides, e.1 ≠ r) → u.mAt r = (c.tile d).mAt r ∧ u.mpAt r = (c.tile d).mpAt r ∧ u.lAt r = (c.tile d).lAt r) ∧
    (∀ d u, effect (.amaxu d) u → u.nstep = 0 ∧ ∀ i < 64,
      let q := c.tile d
      let maxi (a b : Word) : Word := BitVec.ofNat 32 (fp32.minmax true a.toNat b.toNat)
      let mn := maxi (q.mAt i) ((List.range q.ncol).foldl (fun m n => maxi m (q.v (64 * i + n))) 0xFF800000)
      let p (n : Nat) : Word := if n < q.ncol ∧ mn ≠ 0xFF800000 then exp2Diff (q.v (64 * i + n)) mn else 0
      let g : Word := if mn = 0xFF800000 then 0x3F800000 else exp2Diff (q.mAt i) mn
      if i < q.nrow then
        u.mpAt i = q.mAt i ∧ u.mAt i = mn ∧
        u.lAt i = BitVec.ofNat 32 (fp32.encode true .rne false ((List.range q.ncol).foldl (fun z n => Machine.Num.add z (f32 (p n)))
          (Machine.Num.mul (f32 (q.lAt i)) (f32 g)))) ∧
        ∀ n < 64, u.cAt (64 * i + n) = 0 ∧ u.shAt (64 * i + n) = p n
      else u.mAt i = q.mAt i ∧ u.mpAt i = q.mpAt i ∧ u.lAt i = q.lAt i ∧
        ∀ n < 64, u.cAt (64 * i + n) = q.cAt (64 * i + n) ∧ u.shAt (64 * i + n) = q.shAt (64 * i + n)) ∧
    ∀ d a u, effect (.arsc d a) u → (c.tile d).mode = .f → u.nstep = 0 ∧ ∀ i < 64, ∀ n < 64,
      u.cAt (64 * i + n) = 0 ∧ u.shAt (64 * i + n) = BitVec.ofNat 32 (fp32.encode true .rne false
        (Machine.Num.mul (f32 ((c.tile d).v (64 * i + n))) (f32 (exp2Diff ((c.tile a).mpAt i) ((c.tile a).mAt i)))))

/-! Launches, queues and motifs. -/

/-- R319, R336 to R339: launch gives its status at once when its queue cannot take the record, and otherwise when its release takes
effect, with the record copied to the queue's tail; post, whose n above 1 raises opnd_kind, combines a word with the result word at its home; phadv advances the eviction
phase; idend ends the idempotent part.
What the spec leaves open there is as the model chose it: log entries 20, 21 and 58. -/
def Obligations.LaunchAndPost : Prop :=
  (∀ (d : Wr) (a b : Rd) (n : Imm) (s : State),
    let c := s.cord
    let f : Form := { lat := .v, vecs := wrVecs d 1 ++ rdVecs a 1 ++ rdVecs b 1 }
    let x := c.once64 a b
    let tells (st : Nat) : Out :=
      .next (State.complete c.cid c.flag (c.writes32 d fun _ => BitVec.ofNat 32 (st * 2 ^ 16)) (f.issued s))
    (f.check s = none → x / 64 % 2 = 1 → exec (.launch d a b) s = tells 3) ∧
    (∀ p, f.check s = none → x / 64 % 2 = 0 → Hits s .r [x / 128 * 128] [p] →
      let dst := c.writes32 d fun _ => 0
      (s.launchable c.ctx (x % 64) = false → ∃ t, exec (.launch d a b) s = .next t ∧ t.mem = s.mem ∧ t.queues = s.queues ∧
        (c.live = true → ∀ m v, d = .s m → v = BitVec.ofNat 32 (2 * 2 ^ 16) → ∃ y, t.cordRec c.cid = some y ∧ y.sreg m.val = v)) ∧
      (s.launchable c.ctx (x % 64) = true → ∃ t, exec (.launch d a b) s = .next (f.issued t) ∧ t.mem = s.mem ∧ t.queues = s.queues ∧
        ∃ r ∈ t.cord.rels, r.kind = .launch ⟨c.flag, x % 64, p.addr (x / 128 * 128), dst⟩)) ∧
    (Form.check { lat := .v, vecs := rdVecs a 1 } s = none → 1 < n.toNat → exec (.post a n) s = .next (s.raise .opndKind c.word)) ∧
    (Form.check { lat := .v, vecs := rdVecs a 1 } s = none → n.toNat ≤ 1 → c.stcnt + 1 ≤ 255 →
      ∃ t, exec (.post a n) s = .next (Form.issued { lat := .v, vecs := rdVecs a 1 } t) ∧ t.mem = s.mem ∧ t.cord.stcnt = c.stcnt + 1 ∧
        ∃ r ∈ t.cord.rels, r.kind = .post c.flag (c.once a) (decide (n.toNat = 1))) ∧
    (Form.check { lat := .n } s = none →
      (∃ t, exec (.phadv n) s = .next (Form.issued { lat := .n } t) ∧ t.mem = s.mem ∧
        (t.ctxOf c.ctx).evphase.toNat = min 0xFFFF ((s.ctxOf c.ctx).evphase.toNat + n.toNat)) ∧
      exec .idend s = .next (Form.issued { lat := .n } { s with motif := { s.motif with pastIdend := true } }))) ∧
  (∀ (s : State) (c : Nat) (x : Cord) (e : Release) (r : LaunchReq), s.now = some (.releaseTakesEffect c) → Runs s c x →
    s.relDue x = some e → e.kind = .launch r → s.epochs = [] →
    let q := s.queueOf r.q
    let e := (q.base.toNat + 128 * (q.tail.toNat % 2 ^ (q.ctl.toNat / 2 ^ 20 % 16))) % 2 ^ 64
    ∃ t y, exec .releaseTakesEffect s = .next t ∧ t.cordRec c = some y ∧ y.flagOf r.flag.val = x.flagOf r.flag.val - 1 ∧
      if (q.tail - q.head).toNat < 2 ^ (q.ctl.toNat / 2 ^ 20 % 16) then
        (t.queueOf r.q).tail = q.tail + 1 ∧
        y.s = (x.applyAll (r.dst.map (putValue (BitVec.ofNat 32 (q.tail.toNat % 2 ^ 16))))).s ∧
        ∀ pa, s.transl (q.ctl.toNat % 2 ^ 12) .w e = .ok pa → (s.isLocal pa && inWindow pa) = false → ∀ i < 128, t.byte (pa + i) = s.homeByte (r.src + i)
      else (t.queueOf r.q).tail = q.tail ∧ y.s = (x.applyAll (r.dst.map (putValue (BitVec.ofNat 32 (2 ^ 16))))).s) ∧
  ∀ (s : State) (c : Nat) (x : Cord) (f : Flag) (v : Word) (b0 : Bool) (p : Pattern), s.now = some (.postAtHome c f v b0) → Runs s c x →
    s.resultOf c = some p → s.unreachable (p.res / 128) = false → s.agenda.any (adapterWrite (p.res / 128)) = false → s.epochs = [] → (∀ o ∈ s.owners, o.1 / 32 ≠ p.res / 128) →
    (s.isLocal p.res && inWindow p.res) = false → p.res % 4 = 0 →
    let old := BitVec.ofNat 32 (leNat ((List.range 4).map fun i => s.byte (p.res + i)))
    let new := if p.rmode = 0 then (if old.toNat < v.toNat then v else old) else if p.rmode = 1 then old + v
      else if p.rmode = 2 then old ||| v else v
    ∃ t y, exec .postAtHome s = .next t ∧ t.cordRec c = some y ∧ y.stcnt = x.stcnt - 1 ∧ y.flagOf f.val = x.flagOf f.val - 1 ∧
      leNat ((List.range 4).map fun i => t.byte (p.res + i)) = new.toNat ∧
      (∀ a, a < p.res ∨ p.res + 4 ≤ a → t.byte a = s.byte a) ∧
      (t.ctxOf p.ctx).evphase.toNat = (if b0 then min 0xFFFF ((s.ctxOf p.ctx).evphase.toNat + 1) else (s.ctxOf p.ctx).evphase.toNat)

/-- R316 to R318, R322 to R324, R330, R331, R359, R366: QTAIL moves only forward and within the room; suspending a queue pre-empts the motifs
of its running pattern; a taken record is checked, and one that fails is rejected with its code; a started one reads running, its result
word 0, with its scoreboard in the lowest free units of the area, cleared, and its list as the table reads then; a complete one gives its
STATUS after the drains and is copied its successor; a killed context stops altogether.
What the spec leaves open there is as the model chose it: log entries 33, 41, 57 and 58. -/
def Obligations.QueuesAndPatterns : Prop :=
  ∀ (s : State) (q : Nat),
    let x := s.queueOf q
    let word (t : State) (pa : Nat) : Nat := leNat ((List.range 4).map fun i => t.byte (pa + i))
    let place (p : Pattern) (pa : Nat) : Prop := s.transl p.ctx .w (p.entry + 4) = .ok pa ∧ inWindow pa = false
    (∀ v, s.now = some (.qtailWrite q v) → ∃ t, exec .qtailWrite s = .next t ∧ (∀ k, k ≠ q → t.queueOf k = s.queueOf k) ∧
      t.queueOf q = if (v - x.head).toNat ≤ 2 ^ (x.ctl.toNat / 2 ^ 20 % 16) ∧ (x.tail - x.head).toNat ≤ (v - x.head).toNat
        then { x with tail := v } else x) ∧
    (s.now = some (.queueSuspend q) → ∃ t, exec .queueSuspend s = .next t ∧ qSusp (t.queueOf q) = true ∧
      ∀ p, s.patternOf q = some p → p.st = .running → ∀ m ∈ s.runningOf p, s.findMotif m.mid = some m →
        ∃ m', t.findMotif m.mid = some m' ∧ m'.saving = true) ∧
    (s.now = some (.queueUnsuspend q) → exec .queueUnsuspend s =
      .next (s.onQueue q fun x => { x with ctl := x.ctl &&& 0xDFFFFFFF })) ∧
    (∀ pa, s.now = some (.recordTake q) → s.startable q = true →
      s.transl (x.ctl.toNat % 2 ^ 12) .rw ((x.base.toNat + 128 * (x.head.toNat % 2 ^ (x.ctl.toNat / 2 ^ 20 % 16))) % 2 ^ 64) = .ok pa →
      inWindow pa = false →
      let p : Pattern :=
        { q := q, ctx := x.ctl.toNat % 2 ^ 12, entry := (x.base.toNat + 128 * (x.head.toNat % 2 ^ (x.ctl.toNat / 2 ^ 20 % 16))) % 2 ^ 64,
          ord := s.fresh,
          rcd := (List.range 32).map fun i => BitVec.ofNat 32 (leNat ((List.range 4).map fun k => s.homeByte (pa + 4 * i + k))) }
      ∃ t, exec .recordTake s = .next t ∧
        (∀ p', s.check p = .ok p' → t.patterns = s.patterns ++ [p'] ∧ t.queues = s.queues) ∧
        ∀ code, s.check p = .error code → t.patterns = s.patterns ∧ (t.queueOf q).head = x.head + 1 ∧ (t.ctxOf p.ctx).kcode = code ∧
          bit ((t.ctxOf p.ctx).ev.setWidth 32) 0 = true ∧
          ∀ w, place p w → word t w = 3 * 2 ^ 28 + 15 * 2 ^ 24 + code % 256 * 2 ^ 16) ∧
    (∀ p, s.now = some (.recordStart q) → s.patterns.find? (fun p => p.q == q && s.canBegin p) = some p → p.rollgrp = 0 → s.epochs = [] → NoneOwed s →
      (s.isLocal p.res && inWindow p.res) = false →
      ∃ t, exec .recordStart s = .next t ∧ word t p.res = 0 ∧ (∃ p' ∈ t.patterns, p'.ord = p.ord ∧ p'.st = .running ∧ p'.released = [] ∧ p'.retired = [] ∧
          p'.sbAt = s.freeUnits.take (p.sb / 4096) ∧ ∀ l, p.kind = 2 → s.readList p p.size 0 = .ok l → p'.preds = l) ∧
        (∀ u ∈ s.freeUnits.take (p.sb / 4096), let at_ := s.dev.cpsb.toNat / 4096 * 4096 + 4096 * u
          inWindow at_ = false → ∀ a, at_ ≤ a → a < at_ + 4096 → a + 4 ≤ p.res ∨ p.res + 4 ≤ a →
            (∀ w, place p w → a < w ∨ w + 4 ≤ a) → t.byte a = 0) ∧
        ∀ w, place p w → w + 4 ≤ p.res ∨ p.res + 4 ≤ w → word t w = 2 ^ 28 + 15 * 2 ^ 24) ∧
    (∀ p, s.now = some (.patternCompletion q) → s.patternOf q = some p → s.completable p = true →
      (p.st = .running → ∃ t, exec .patternCompletion s = .next t ∧ (∃ p', t.patternOf q = some p' ∧ p'.st = .completing) ∧
        ∀ r ∈ (s.ctxOf p.ctx).regions, AsksDrain s t p.ctx r) ∧
      (p.st ≠ .running → p.rollgrp = 0 → p.advanced = false → NoneOwed s →
        let i := p.successor (BitVec.ofNat 32 (word s p.res))
        let r := i.map fun i => s.checkSuccessor p i
        let code := match r with | some (.error c) => c | _ => 0
        ∃ t, exec .patternCompletion s = .next t ∧ (∀ p' ∈ t.patterns, p'.ord ≠ p.ord) ∧ (t.queueOf p.q).head = (s.queueOf p.q).head + 1 ∧
          (∀ w, place p w → word t w = 2 * 2 ^ 28 + i.getD 15 % 16 * 2 ^ 24 + code % 256 * 2 ^ 16) ∧
          ∀ e, r = some (.ok e) → t.succs = s.succs ++ [e])) ∧
    (∀ e pa, s.now = some (.successorEnqueue q) → s.succs.find? (·.q == q) = some e → x.room = true → e.words = none → e.tail = none →
      s.transl (qCtx x) .w (entryVa x x.tail) = .ok pa →
      ∃ t, exec .successorEnqueue s = .next t ∧ (t.queueOf q).tail = x.tail + 1 ∧ t.succs = s.succs.erase e ∧
        ∀ i < 128, t.byte (pa + i) = s.homeByte (e.src + i)) ∧
    (∀ e v, s.now = some (.successorEnqueue q) → s.succs.find? (·.q == q) = some e → e.tail = some v →
      ∃ t, exec .successorEnqueue s = .next t ∧ t.mem = s.mem ∧ t.succs = s.succs.erase e ∧
        t.queueOf q = if (v - x.head).toNat ≤ 2 ^ (x.ctl.toNat / 2 ^ 20 % 16) ∧ (x.tail - x.head).toNat ≤ (v - x.head).toNat
          then { x with tail := v } else x) ∧
    (∀ ctx bits, s.now = some (.ctxevClear ctx bits) → ∃ t, exec .ctxevClear s = .next t ∧ t.mem = s.mem ∧
      (t.ctxOf ctx).ev = (s.ctxOf ctx).ev &&& ~~~(bits.setWidth 3)) ∧
    ∀ ctx, s.now = some (.contextKill ctx) → ∃ t, exec .contextKill s = .next t ∧ t.mem = s.mem ∧ (t.ctxOf ctx).locks = [] ∧
      (∀ k < 64, qCtx (s.queueOf k) = ctx → qEn (t.queueOf k) = false) ∧ (∀ p ∈ t.patterns, p.ctx = ctx → p.st = .killing 0x26) ∧
      ∀ m ∈ t.allMotifs, m.ctx = ctx → m.saving = true ∧ m.discard = true

/-- R321, R326 to R329, R332, R336, R352, R357, R366: a placed motif starts with empty pillow and all its cords at the entry, trapvec as the
loader set it; a pre-empted one is saved, its pattern's scoreboard written back, or discarded and can be released again; a motif retires,
after its drains with DOE, and the counter of a motif falls by one for each time that its list of predecessors names the retired one; a
killed launch, its motifs gone and its drains over, gives STATUS killed with its code and leaves its queue.
What the spec leaves open there is as the model chose it: log entries 23, 33, 40, 41, 57, 58 and 61. -/
def Obligations.MotifsAndKills : Prop :=
  ∀ (s : State) (q : Nat),
    (∀ idx p i core base, s.now = some (.motifPlacement q idx) → s.offers.find? (fun o => o.1.q == q && o.2 == idx) = some (p, idx) →
      p.whole = false → s.savedMotif p.q idx = none → s.offer p 0 = some (i, core, base) →
      ∃ t m, exec .motifPlacement s = .next t ∧ t.mem = s.mem ∧ m ∈ t.allMotifs ∧ m.mid = s.fresh + 1 ∧ m.queue = p.q ∧ m.idx = idx ∧
        m.x + p.gx * (m.y + p.gy * m.z) = (if p.gx = 0 ∨ p.gy = 0 then m.x + p.gx * (m.y + p.gy * m.z) else idx) ∧
        m.core = core ∧ m.base = base ∧ m.status = .running ∧ m.pil = [] ∧ m.fe = [] ∧ m.bars = [] ∧
        ∀ k < p.cordCount, ∃ c ∈ t.allCords, c.cid = s.fresh + 2 + k ∧ c.mid = m.mid ∧ c.idx = k ∧ c.core = core ∧ c.slot = k % 4 ∧
          c.role = (if k < p.copies then 0 else if k < p.copies + p.matrices then 1 else 2) ∧ c.v = [] ∧
          c.trapvec = (s.ctxOf p.ctx).vec ∧ (∀ l < 32, (c.thread l).st = .ready ∧ (c.thread l).pc = p.entryPc) ∧
          c.sreg 2 = BitVec.ofNat 32 m.x ∧ c.sreg 3 = BitVec.ofNat 32 m.y ∧ c.sreg 4 = BitVec.ofNat 32 m.z ∧
          c.sreg 5 = BitVec.ofNat 32 idx) ∧
    (∀ m, s.now = some (.motifSave m.mid) → s.findMotif m.mid = some m → s.savable m = true →
      (m.discard = false → NoneOwed s → ∃ t m', exec .motifSave s = .next t ∧ (s.patternOf m.queue = none → t.mem = s.mem) ∧
        (∀ p, s.patternOf m.queue = some p → let at_ (u : Nat) : Nat := s.dev.cpsb.toNat / 4096 * 4096 + 4096 * u
          (∀ a, (∀ u ∈ p.sbAt, a < at_ u ∨ at_ u + 4096 ≤ a) → t.byte a = s.byte a) ∧
          (p.sbAt.Nodup → ∀ i u, p.sbAt[i]? = some u → inWindow (at_ u) = false → ∀ j < 4096, 4096 * i + j < p.board.length →
            t.byte (at_ u + j) = p.board.getD (4096 * i + j) 0)) ∧ t.findMotif m.mid = some m' ∧ m'.status = .saved ∧
        m'.saving = false ∧ m'.pil = m.pil ∧ m'.bars = m.bars ∧ m'.shadow = m.bars ∧ ∀ c ∈ t.allCords, c.mid ≠ m.mid) ∧
      (m.discard = true → ∃ t, exec .motifSave s = .next t ∧ t.mem = s.mem ∧ t.findMotif m.mid = none ∧
        (∀ c ∈ t.allCords, c.mid ≠ m.mid) ∧
        ∀ p, s.patternOf m.queue = some p → ∃ p', t.patternOf m.queue = some p' ∧ SMap.get false p'.released m.idx = false)) ∧
    (∀ m, s.now = some (.motifRetirement m.mid) → s.findMotif m.mid = some m → s.retirable m = true →
      (s.doeOf m = true → m.drains = none → ∃ t, exec .motifRetirement s = .next t ∧ (∃ m', t.findMotif m.mid = some m' ∧ m'.drains ≠ none) ∧
        ∀ r ∈ (s.ctxOf m.ctx).regions,
          (s.masterAway r.phys = none → ∀ h ∈ r.holders, h.cl = m.core / 16 → ToldToDrain s t m.ctx r.n h) ∧
          (s.masterAway r.phys ≠ none → (s.tracker (m.core / 16) m.ctx r.n).isSome → m.core < 16000 →
            Sends s t 1 (.forcedDrain (m.core / 16) m.ctx r.n 0 []))) ∧
      (s.doeOf m = false ∨ m.drains ≠ none → ∃ t, exec .motifRetirement s = .next t ∧ t.mem = s.mem ∧ t.findMotif m.mid = none ∧
        ∀ p, s.patternOf m.queue = some p → ∃ p', t.patternOf m.queue = some p' ∧ SMap.get false p'.retired m.idx = true ∧
          ∀ k, p'.pending k + (if SMap.get false p.retired m.idx then 0 else (p.predsOf k).count m.idx) = p.pending k)) ∧
    ∀ p code code', s.now = some (.launchKillFinish q code') → s.patterns.find? (fun p => p.q == q && (s.killDue p).isSome) = some p →
      p.st = .killing code →
      (p.drains = none → ∃ t, exec .launchKillFinish s = .next t ∧
        (∃ p' ∈ t.patterns, p'.ord = p.ord ∧ p'.st = .killing code ∧ p'.drains ≠ none) ∧
        ∀ r ∈ (s.ctxOf p.ctx).regions, AsksDrain s t p.ctx r) ∧
      (p.drains ≠ none → p.rollgrp = 0 → p.advanced = false → s.epochs = [] → NoneOwed s → ∃ t, exec .launchKillFinish s = .next t ∧
        (∀ p' ∈ t.patterns, p'.ord ≠ p.ord) ∧ (t.queueOf p.q).head = (s.queueOf p.q).head + 1 ∧ (t.ctxOf p.ctx).kcode = code ∧
        bit ((t.ctxOf p.ctx).ev.setWidth 32) 0 = true ∧
        ∀ pa, code ≠ 0x10 → s.transl p.ctx .w (p.entry + 4) = .ok pa → inWindow pa = false →
          leNat ((List.range 4).map fun i => t.byte (pa + i)) = 4 * 2 ^ 28 + 15 * 2 ^ 24 + code % 256 * 2 ^ 16)

/-! Traps, control registers and translation control. -/

/-- R315, R342, R345 to R350, R352 to R356: a cause raised in a slot waits with its cord until what has issued has written
its results, each in its own cycle, and earlier V-class work is complete; then it records itself, parks the other threads and starts the
trapping ones at the handler, before which a cause that needle catches stops the cord and ends needle's run. Without a handler, or with one
active, the launch is killed; rte's clause end goes back to the header that TRHDR holds. trap, brkpt and halt, a word that matches no form,
waiting and asynchronous causes go that way; the debug path resumes a stopped cord, and what needle holds stays held until its next run;
control registers read and write as listed, and a number that is not listed raises csr_bad.
What the spec leaves open there is as the model chose it: log entries 22, 37, 51, 55 and 63. -/
def Obligations.TrapsAndControlRegisters : Prop :=
  let entered (k : Cause) (p : PendTrap) (xf : Transfer) (h : Dword) (y : Cord) : Prop :=
    y.trap = { v := true, xfer := xf != .none, slot := p.slot, rnx := p.rnx, rslot := p.rslot, cause := k.code, hdr := p.hdr,
               info := p.info, tract := p.act } ∧
    y.trapXf = xf ∧ y.cl = {} ∧ y.pend = none ∧ y.chosen = some h ∧ y.skipBrk = false
  let starts (x y : Cord) (act : Word) (h : Dword) : Prop :=
    ∀ l < 32, (x.thread l).live = true →
      if bit act l then (y.thread l).pc = h ∧ (y.thread l).st = .ready ∧ (y.thread l).parked = false
      else (y.thread l).parked = true ∧ (y.thread l).pc = (x.thread l).pc ∧ (y.thread l).st = (x.thread l).st
  (∀ (s : State) (k : Cause) (info : Dword),
    let c := s.cord
    let h := c.trapvec &&& 0xFFFFFFFFFFFFFFFC
    let t := s.raise k info
    let ready := s.trapReady c
    (ready = true ↔ s.quiet c = true ∧ ∀ d ∈ s.agenda, isFixedWrite c.cid d.what = false) ∧
    t.mem = s.mem ∧ t.agenda = s.agenda ∧ t.cord.v = c.v ∧ t.cord.s = c.s ∧ t.cord.k = c.k ∧ t.cord.tds = c.tds ∧
    (ready = false → t.cord.pend = some (c.pendAt k info) ∧ t.cord.trap = c.trap ∧ t.cord.cl = c.cl ∧ t.cord.threads = c.threads ∧
      t.patterns = s.patterns ∧ t.needle = s.needle) ∧
    (ready = true → t.needle = if s.catches s.motif k = true ∧ s.needle.running = true
      then { s.needle with running := false, held := s.needle.loaded } else s.needle) ∧
    (ready = true → h ≠ 0 → c.trap.v = false →
      entered k (c.pendAt k info) c.cl.xf h t.cord ∧ starts c t.cord c.cl.act h ∧
        t.cord.wait = if s.catches s.motif k then .caught else .none) ∧
    (ready = true → ∀ p, s.patternOf s.motif.queue = some p → (∀ n, p.st ≠ .killing n ∧ p.st ≠ .rolling n) →
      (h = 0 → ∃ p', (s.raise k info).patternOf s.motif.queue = some p' ∧ p'.st = .killing 0x23) ∧
      (h ≠ 0 → c.trap.v = true → ∃ p', (s.raise k info).patternOf s.motif.queue = some p' ∧ p'.st = .killing 0x22))) ∧
  (∀ (c : Cord) (k : Cause) (info : Dword),
    let next := k = .soft ∨ k = .bkpt
    (c.pendAt k info).slot = c.cl.slot ∧ (c.pendAt k info).info = info ∧ (c.pendAt k info).act = c.cl.act ∧
      (c.pendAt k info).hdr = c.cl.hdrA ∧ ((c.pendAt k info).rnx = true ↔ next ∧ hdrCount c.cl.hdr ≤ c.cl.slot) ∧
      (c.pendAt k info).rslot = if next ∧ c.cl.slot < hdrCount c.cl.hdr then c.cl.slot + 1 else c.cl.slot) ∧
  (∀ (n : Imm) (s : State),
    let halted : State := { s with cord := { s.cord with wait := .halted } }
    (Form.check { lat := .n } s = none → exec (.trap n) s = .next (s.raise .soft (n.setWidth 64)) ∧
      ((s.coreOf s.cord.core).armed = true → exec (.brkpt n) s = .next (Form.issued { lat := .n } halted)) ∧
      ((s.coreOf s.cord.core).armed = false → exec (.brkpt n) s = .next (s.raise .bkpt (n.setWidth 64)))) ∧
    (Form.check { lat := .n, priv := true } s = none → exec .halt s = .next (Form.issued { lat := .n, priv := true } halted)) ∧
    ∀ cause w, s.now = some (.illegalWordIssue cause w) → ∃ k, exec .illegalWordIssue s = .next (s.raise k (w.setWidth 64)) ∧
      k.code = match cause with | .opcUnmapped => 0x02 | .litStray => 0x03 | .litMissing => 0x04 | .opndKind => 0x05) ∧
  (∀ (s : State) (c : Nat) (x : Cord), Runs s c x → s.trapReady x = false → s.now = some (.trapEntry c) → exec .trapEntry s = .next s) ∧
  (∀ (s : State) (c : Nat) (x : Cord), Runs s c x → (x.trapvec &&& 0xFFFFFFFFFFFFFFFC) ≠ 0 → x.trap.v = false → s.trapReady x = true → c ≠ 0 →
    (∀ p, s.now = some (.trapEntry c) → x.pend = some p → ∃ t, exec .trapEntry s = .next t ∧ t.cord.cid = c ∧
      entered p.cause p (if p.boundary then .none else x.cl.xf) (x.trapvec &&& 0xFFFFFFFFFFFFFFFC) t.cord) ∧
    ∀ a p, s.now = some (.asyncTrapDelivery c) → s.asyncDue x = some (a, p) → ∃ t, exec .asyncTrapDelivery s = .next t ∧ t.cord.cid = c ∧
      t.cord.async = x.async.erase a ∧ p.cause = a.cause ∧ p.info = a.info ∧
      entered a.cause p (if p.boundary then .none else x.cl.xf) (x.trapvec &&& 0xFFFFFFFFFFFFFFFC) t.cord) ∧
  (∀ (s : State) (c : Nat) (x : Cord), Runs s c x →
    (s.now = some (.clauseEnd c) → s.clauseOver x = true → x.cl.xf = .rte → ∃ t y, exec .clauseEnd s = .next t ∧ t.cordRec c = some y ∧
      y.trap = { x.trap with v := false } ∧
      y.resume = some ⟨if x.trap.rnx then 8 else x.trap.rslot, if x.trap.xfer then x.trapXf else .none, x.trap.tract, x.trap.hdr, x.trapFt⟩ ∧
      ∀ l < 32, (y.thread l).parked = false ∧
        (bit x.trap.tract l = true → (x.thread l).live = true → (y.thread l).pc = x.trap.hdr)) ∧
    (s.now = some (.debugResume c) → ∃ t y, exec .debugResume s = .next t ∧ t.needle = s.needle ∧ t.cordRec c = some y ∧
      (x.wait = .halted ∨ x.wait = .armed ∨ x.wait = .caught → y.wait = .none) ∧ (x.wait = .armed → y.skipBrk = true))) ∧
  (∀ s : State,
    (s.now = some (.needle .run) → ∃ t, exec .debugResume s = .next t ∧ t.needle = { s.needle with running := true, held := none }) ∧
    ∀ q, s.now = some (.needle (.load q)) → ∃ t, exec .debugResume s = .next t ∧ t.needle = { loaded := some q, held := s.needle.held }) ∧
  ∀ (d : Wr) (a : Rd) (lit : Word) (s : State),
    let n := lit.toNat % 2 ^ 12
    let priv := n = 0x060 ∨ n = 0x061 ∨ n = 0x070 ∨ n = 0x071
    let x := s.cord.once a
    let c := s.ctxOf s.cord.ctx
    let fr : Form := { lat := .i4, vecs := wrVecs d 1, priv := decide (n = 0x020) }
    let fw : Form := { lat := .i4, vecs := rdVecs a 1, priv := decide priv }
    let listed := [0x001, 0x010, 0x011, 0x020, 0x030, 0x031, 0x032, 0x033, 0x040, 0x041, 0x050, 0x051, 0x052, 0x053, 0x054, 0x055,
      0x060, 0x061, 0x070, 0x071, 0xC00]
    (n ∉ listed → (fr.check s = none → exec (.csrr d lit) s = .next (s.raise .csrBad (BitVec.ofNat 64 n))) ∧
      (fw.check s = none → ∀ i ∈ [Instr.csrw a lit, .csrs a lit, .csrc a lit], exec i s = .next (s.raise .csrBad (BitVec.ofNat 64 n)))) ∧
    (n ∈ listed → ∃ v, s.csr n = some v ∧
    (fr.check s = none → exec (.csrr d lit) s = .next (fr.issued { s with
      agenda := s.agenda ++ fixed s 4 (s.cord.writes32 d fun _ => v),
      cord := { s.cord with topo := if n = 0x031 then false else s.cord.topo } })) ∧
    (fw.check s = none → exec (.csrw a lit) s = .next (fw.issued (s.csrSet n x)) ∧
      exec (.csrs a lit) s = .next (fw.issued (s.csrSet n (v ||| x))) ∧ exec (.csrc a lit) s = .next (fw.issued (s.csrSet n (v &&& ~~~x)))) ∧
    (n = 0x001 → v = s.cord.fpctl.setWidth 32 ∧ s.csrSet n x = { s with cord := { s.cord with fpctl := x.setWidth 8 } }) ∧
    (n = 0xC00 → v = s.cord.mprom.setWidth 32 ∧ s.csrSet n x = { s with cord := { s.cord with mprom := x.setWidth 6 } }) ∧
    (n = 0x041 → v = s.cord.trapvec.extractLsb' 32 32 ∧
      s.csrSet n x = { s with cord := { s.cord with trapvec := x ++ s.cord.trapvec.extractLsb' 0 32 } }) ∧
    (n = 0x040 → v = s.cord.trapvec.extractLsb' 0 32 ∧
      s.csrSet n x = { s with cord := { s.cord with trapvec := s.cord.trapvec.extractLsb' 32 32 ++ (x &&& 0xFFFFFFFD) } }) ∧
    (n = 0x061 → v = (s.ctxOf s.cord.ctx).evphase.setWidth 32 ∧ ((s.csrSet n x).ctxOf s.cord.ctx).evphase = x.setWidth 16) ∧
    (n = 0x060 → v = BitVec.ofNat 16 (s.ctxOf s.cord.ctx).locks.length ++ (s.ctxOf s.cord.ctx).quota ∧
      ((s.csrSet n x).ctxOf s.cord.ctx).quota = x.setWidth 16) ∧
    (n = 0x050 → v = BitVec.ofNat 32 ((if s.cord.trap.v then 2 ^ 31 else 0) + (if s.cord.trap.xfer then 2 ^ 27 else 0) +
        s.cord.trap.slot % 8 * 2 ^ 24 + (if s.cord.trap.rnx then 2 ^ 23 else 0) + s.cord.trap.rslot % 8 * 2 ^ 20 + s.cord.trap.cause % 256) ∧
      (s.csrSet n x).cord.trap = { s.cord.trap with rnx := bit x 23, rslot := x.toNat / 2 ^ 20 % 8 }) ∧
    (n = 0x052 → v = s.cord.trap.hdr.extractLsb' 32 32 ∧ (s.csrSet n x).cord.trap =
      { s.cord.trap with hdr := x ++ s.cord.trap.hdr.extractLsb' 0 32, xfer := false }) ∧
    (n = 0x051 → v = s.cord.trap.hdr.extractLsb' 0 32 ∧ (s.csrSet n x).cord.trap =
      { s.cord.trap with hdr := s.cord.trap.hdr.extractLsb' 32 32 ++ x, xfer := false }) ∧
    (n = 0x070 → v = c.decbase.extractLsb' 0 32 ∧
      ((s.csrSet n x).ctxOf s.cord.ctx).decbase = c.decbase.extractLsb' 32 32 ++ (x &&& 0xFFFFF00F)) ∧
    (n = 0x071 → v = c.decbase.extractLsb' 32 32 ∧
      ((s.csrSet n x).ctxOf s.cord.ctx).decbase = x ++ c.decbase.extractLsb' 0 32) ∧
    (n = 0x010 → v = BitVec.ofNat 32 s.cord.ldcnt) ∧ (n = 0x011 → v = BitVec.ofNat 32 s.cord.stcnt) ∧ (n = 0x020 → v = 0) ∧
    (n = 0x030 → v = BitVec.ofNat 32 ((if c.sys then 2 ^ 31 else 0) + s.cord.ctx % 2 ^ 12)) ∧
    (n = 0x031 → v = BitVec.ofNat 32 s.dev.clcount) ∧
    (n = 0x032 ∨ n = 0x033 → ∀ k < 32, bit v k = s.dev.clusters.getLsbD (32 * (n - 0x032) + k)) ∧
    (n = 0x053 → v = s.cord.trap.info.extractLsb' 0 32) ∧ (n = 0x054 → v = s.cord.trap.info.extractLsb' 32 32) ∧
    (n = 0x055 → v = s.cord.trap.tract) ∧
    (n ∈ [0x010, 0x011, 0x020, 0x030, 0x031, 0x032, 0x033, 0x053, 0x054, 0x055] → s.csrSet n x = s))

/-- R52 to R54, R166, R191, R333, R361, R362: dtld reads a decode table anew; tlbi drops the translations that it names, recalls lines, ends locks
and drains regions of their pages, and completes when all that has finished; a reading of the knot detector traps exactly the cords of the
greatest set of blocked ones that have not changed since the last reading and that only cords of the set could wake, then and now.
What the spec leaves open there is as the model chose it: log entries 4, 38, 42 and 57. -/
def Obligations.TranslationAndKnots : Prop :=
  (∀ (a b : Rd) (s : State),
    let c := s.cord
    let base := ((s.ctxOf c.ctx).decbase.toNat / 2 ^ 12) * 2 ^ 12
    let x := c.once64 a b
    let ft : Form := { lat := .v, vecs := rdVecs a 1 ++ rdVecs b 1, priv := true }
    (Form.check { lat := .v } s = none →
      (base = 0 → ∃ t, exec .dtld s = .next (Form.issued { lat := .v } t) ∧ t.mem = s.mem ∧ Sends s t 1 (.dtldComplete c.cid c.flag none c.core c.ctx)) ∧
      ∀ p, base ≠ 0 → Hits s .r [base] [p] → ∃ t, exec .dtld s = .next (Form.issued { lat := .v } t) ∧ t.mem = s.mem ∧
        Sends s t 1 (.dtldComplete c.cid c.flag (some (p.addr base)) c.core c.ctx)) ∧
    (ft.check s = none → x / 2 ^ 14 % 4 ≠ 0 → exec (.tlbi a b) s = .next (s.raise .opndKind c.word)) ∧
    (ft.check s = none → x / 2 ^ 14 % 4 = 0 →
      ∃ t job, exec (.tlbi a b) s = .next (ft.issued t) ∧ t.mem = s.mem ∧ t.backing = s.backing ∧ Sends s t 1 (.tlbiComplete c.cid c.flag job) ∧
        (∀ k ∈ t.cores, ∀ p ∈ k.tlb, tlbiHits x p = false) ∧
        (∀ line ∈ s.tlbiLines x, ∀ core ∈ s.sharers line, ∃ rid ∈ job.rids, Sends s t 1 (.recallAtCore core line .shoot rid)) ∧
        let scope := x / 2 ^ 12 % 4
        let lo := if scope = 0 then x / 2 ^ 16 * 2 ^ 16 else if scope = 1 then x / 2 ^ 25 * 2 ^ 25 else 0
        let hi := if scope = 0 then lo + 2 ^ 16 else if scope = 1 then lo + 2 ^ 25 else 2 ^ 64
        let mine (ctx : Nat) : Prop := scope = 3 ∨ ctx = x % 2 ^ 12
        (∀ k ∈ s.ctxs, ∀ l, l ∈ (t.ctxOf k.id).locks ↔ l ∈ (s.ctxOf k.id).locks ∧
          ¬(mine k.id ∧ (2 ≤ scope ∨ ∃ r ∈ s.tlbiRuns x, r.1 ≤ l * 128 ∧ l * 128 < r.1 + r.2))) ∧
        ∀ k ∈ s.ctxs, mine k.id → ∀ r ∈ k.regions, r.base < hi → lo < r.base + r.size →
          AsksDrain s t k.id r ∧ (s.masterAway r.phys = none → ∀ h ∈ r.holders, (h.cl, k.id, r.n) ∈ job.drains))) ∧
  (∀ (s : State) (c : Nat) (f : Flag) (x : Cord), Runs s c x →
    (∀ pa core ctx, s.now = some (.dtldComplete c f pa core ctx) → ∃ t y, exec .dtldComplete s = .next t ∧ t.cordRec c = some y ∧
      y.flagOf f.val = x.flagOf f.val - 1) ∧
    ∀ job, s.now = some (.tlbiComplete c f job) →
      let busy := (∃ r ∈ s.recalls, r.1 ∈ job.rids) ∨ (∃ h ∈ job.drains, s.owing h = true) ∨
        (∃ p ∈ job.forms, (s.form p.1 p.2).isSome = true) ∨ ∃ p ∈ job.commands, (s.cmd p.1 p.2).isSome = true
      ∃ t y, exec .tlbiComplete s = .next t ∧ t.cordRec c = some y ∧
        (busy → y = x ∧ Sends s t 1 (.tlbiComplete c f job)) ∧ (¬busy → y.flagOf f.val = x.flagOf f.val - 1)) ∧
  (∀ (s : State) (c : Nat) (f : Flag) (pa : Option Nat) (core ctx : Nat), s.now = some (.dtldComplete c f pa core ctx) →
    ∃ t, exec .dtldComplete s = .next t ∧ t.tableOf core ctx = pa.map fun pa => (List.range 1024).map fun i =>
      BitVec.ofNat 32 (leNat ((List.range 4).map fun k => s.homeByte (pa + 4 * i + k)))) ∧
  (∀ (c : Cord) (m : Motif) (s : State) (was now : Seen), s.findMotif c.mid = some m →
    (s.unmoved c was now = true ↔ was.blk = now.blk ∧ c.issuedAt < s.knotAt ∧ ∀ o ∈ now.blk.named, o ∈ m.watch)) ∧
  ∀ s : State, s.now = some .knotDetectorReading →
    (∀ m ∈ s.knotMembers, m ∈ s.blockedCords ∧ (∃ x, m.1.seen = some x ∧ s.unmoved m.1 x m.2 = true ∧
        ∀ w ∈ x.wakers, ∃ k ∈ s.knotMembers, k.1.cid = w) ∧ ∀ w ∈ m.2.wakers, ∃ k ∈ s.knotMembers, k.1.cid = w) ∧
    (∀ set : List (Cord × Seen), (∀ m ∈ set, m ∈ s.blockedCords ∧ ∃ x, m.1.seen = some x ∧ s.unmoved m.1 x m.2 = true ∧
        ∀ w ∈ x.wakers ++ m.2.wakers, ∃ k ∈ set, k.1.cid = w) → ∀ m ∈ set, m ∈ s.knotMembers) ∧
    ∃ t, exec .knotDetectorReading s = .next t ∧ t.knotAt = s.cycle ∧ t.mem = s.mem ∧
      (∀ m ∈ s.knotMembers, m.1.trap.v = false → ∃ y, y ∈ t.cord :: t.cords ∧ y.cid = m.1.cid ∧ y.wait = .none ∧
        ∃ a ∈ y.async, a.cause = .knot ∧ a.info = m.2.blk.word.setWidth 64) ∧
      ∀ p ∈ s.patterns, s.knotMembers = [] → s.listStuck p = true → p.stuck = some p.retired →
        ∃ p' ∈ t.patterns, p'.ord = p.ord ∧ p'.st = .killing 0x10

/-! Health, device registers, bring-up, power and the Réseau. -/

/-- R363, R364, R370 to R372, R406, R407: checkers, ECC errors and clusters that leave service have their outcomes, and
their records go to the ring and to the adapters; the register window takes its writes; a page's mapping changes only while no eyelet and no
pin is on it (R18); a host's accesses and atomics are performed at home, a write once the owners of its words have heard, and none by a device without power or with
stopped clocks.
What the spec leaves open there is as the model chose it: log entries 12, 43, 50 and 58. -/
def Obligations.HealthAndRegisters : Prop :=
  let words (d : Dev) (kind : Nat) (unit : Word) (count : Nat) : List Word :=
    [BitVec.ofNat 32 kind, unit, BitVec.ofNat 32 d.us, BitVec.ofNat 32 (d.us / 2 ^ 32), BitVec.ofNat 32 count,
     BitVec.ofNat 32 ((List.range 40).filter fun i => bit d.clusters i).length, BitVec.ofNat 32 d.devstat, 0]
  let stored (t : State) (a : Nat) (ws : List Word) : Prop :=
    inWindow a = false → ∀ i < 32, t.byte (a + i) = BitVec.ofNat 8 ((ws.getD (i / 4) 0).toNat / 256 ^ (i % 4))
  let told (s t : State) (ws : List Word) : Prop :=
    let a := s.dev.hlthBase.toNat + 32 * (s.dev.hlthHead.toNat % 128)
    t.dev.hlthHead = s.dev.hlthHead + 1 ∧ t.outbox = s.outbox ++ adapters.map (fun i => (960 + i, .health ws)) ∧
      (s.dev.hlthBase ≠ 0 → stored t a ws) ∧ ∀ x, s.dev.hlthBase = 0 ∨ x < a ∨ a + 32 ≤ x → t.byte x = s.byte x
  let worn (d : Dev) : Dev := { d with repl := true, degr := true }
  let killed (s t : State) (q code : Nat) : Prop :=
    ∀ p, s.patternOf q = some p → (∀ n, p.st ≠ .killing n ∧ p.st ≠ .rolling n) → ∃ p', t.patternOf q = some p' ∧ p'.st = .killing code
  (∀ (s : State) (c slot checker : Nat) (x : Cord), s.now = some (.pipeErr c slot checker) → Runs s c x →
    ∃ t y, exec .pipeErr s = .next t ∧ t.cordRec c = some y ∧
      y.trap = { x.trap with v := true, slot := slot, cause := 0x3A, info := BitVec.ofNat 64 checker } ∧
      t.dev.mismatches = s.dev.mismatches + 1 ∧
      told s t (words s.dev 3 (BitVec.ofNat 32 (x.core / 160 % 256 * 2 ^ 24 + x.core / 16 % 10 * 2 ^ 16 + x.core % 16 * 2 ^ 8 + checker % 256))
        (s.dev.mismatches + 1)) ∧
      ∀ m, s.findMotif x.mid = some m → killed s t m.queue 0x21 ∧
        t.needle = if s.catches m .pipeErr = true ∧ s.needle.running = true
          then { s.needle with running := false, held := s.needle.loaded } else s.needle) ∧
  (∀ (s : State) (w : EccPlace), s.now = some (.eccUncorrectable w) →
    ∃ t, exec .eccUncorrectable s = .next t ∧ told s t (words s.dev 2 (s.errorUnit w) 1) ∧
      match w with
      | .registers c => ∀ x m, s.cordRec c = some x → s.findMotif x.mid = some m → killed s t m.queue 0x20
      | .eyelet c e => ∀ x, Runs s c x → (x.eye e).st ≠ .closed → ∃ y, t.cordRec c = some y ∧ (y.eye e).st = .closed ∧ (y.eye e).reason = .ecc
      | .line l => t.lost l = true
      | .granule cl g => (∀ x ∈ (t.picotOf cl).granules, x.addr ≠ g) ∧ ∀ x ∈ (s.picotOf cl).granules, x.addr = g → t.lost (g / 128) = true
      | .command q => killed s t q 0x20) ∧
  (∀ (s : State) (unit : Word), s.now = some (.correctableError unit) →
    let n := SMap.get 0 s.dev.correctable unit.toNat + 1
    let d := { s.dev with correctable := SMap.set 0 s.dev.correctable unit.toNat n }
    (n ≠ 4097 → exec .correctableError s = .next { s with dev := d }) ∧
    (n = 4097 → ∃ t, exec .correctableError s = .next t ∧ t.dev.repl = true ∧ t.dev.degr = true ∧ told s t (words (worn d) 1 unit n))) ∧
  (∀ (s : State) (v : Dword), s.now = some (.hlthbaseWrite v) →
    (v = 0 → exec .hlthbaseWrite s = .next { s with dev := { s.dev with hlthBase := 0 } }) ∧
    (v ≠ 0 → (s.dev.owed.map fun o => o.1 % 128).Nodup → (∀ o ∈ s.dev.owed, o.2.length = 8) → ∃ t, exec .hlthbaseWrite s = .next t ∧ t.dev.hlthBase = v ∧
      t.dev.hlthHead = s.dev.hlthHead ∧ t.dev.owed = [] ∧
      ∀ o ∈ s.dev.owed, stored t (v.toNat + 32 * (o.1 % 128)) o.2)) ∧
  (∀ (s : State) (cl : Nat), s.now = some (.clusterLeavesService cl) →
    let mine (m : Motif) : Prop := m.status = .running ∧ m.core / 16 = cl
    (40 ≤ cl ∨ bit s.dev.clusters cl = false → exec .clusterLeavesService s = .next s) ∧
    (cl < 40 → bit s.dev.clusters cl = true → (∃ m ∈ s.allMotifs, mine m) → ∃ t, exec .clusterLeavesService s = .next t ∧ t.mem = s.mem ∧
      bit t.dev.leaving cl = true ∧ t.dev.clusters = s.dev.clusters ∧ Sends s t 1 (.clusterLeavesService cl) ∧
      ∀ m, s.findMotif m.mid = some m → mine m → ∃ m', t.findMotif m.mid = some m' ∧ m'.saving = true) ∧
    (cl < 40 → bit s.dev.clusters cl = true → (∀ m ∈ s.allMotifs, ¬mine m) → ∃ t, exec .clusterLeavesService s = .next t ∧
      (∀ k < 40, bit t.dev.clusters k = (bit s.dev.clusters k && k != cl)) ∧ t.dev.repl = true ∧ t.dev.degr = true ∧
      told s t (words (worn { s.dev with clusters := t.dev.clusters }) 4 (BitVec.ofNat 32 (cl / 10 * 2 ^ 24 + cl % 10 * 2 ^ 16)) 1) ∧
      (∀ k < 4096, bit (t.ctxOf k).ev 1 = true) ∧
      ∀ x ∈ s.cord :: s.cords, x.cid ≠ 0 → x.liveMask ≠ 0 → ∃ y ∈ t.cord :: t.cords, y.cid = x.cid ∧ y.topo = true ∧
        (bit x.trapvec 0 = true → ∃ a ∈ y.async, a.cause = .topo ∧ a.info.toNat = ((List.range 40).filter fun i => bit t.dev.clusters i).length))) ∧
  (∀ (s : State) (slice : Option Nat) (i : Nat) (v : Dword), i < 64 → s.now = some (.scheduleEntryWrite slice i v) →
    ∃ t, exec .scheduleEntryWrite s = .next t ∧ t.mem = s.mem ∧ ∀ k < 640, ∀ j < 64,
      let e := SMap.get {} s.sched (k * 64 + j)
      SMap.get {} t.sched (k * 64 + j) = if j = i ∧ (slice = none ∨ slice = some k) then { e with w0 := v &&& 0x803FFFFFFFFFFFFF } else e) ∧
  (∀ (s : State) (a : Nat) (v : Dword), s.now = some (.registerWrite a v) →
    let o := a % 2 ^ 54
    let lo : Word := v.setWidth 32
    (∀ q < 64, o = 0x3F2000000000 + 64 * q →
      exec .registerWrite s = .next (s.onQueue q fun x => { x with base := v &&& 0xFFFFFFFFFFFFFF80 })) ∧
    (∀ q < 64, o = 0x3F2000000008 + 64 * q → ∃ t, exec .registerWrite s = .next t ∧ t.mem = s.mem ∧
      (∀ k, k ≠ q → t.queueOf k = s.queueOf k) ∧ (t.queueOf q).base = (s.queueOf q).base ∧ (t.queueOf q).head = (s.queueOf q).head ∧
      (t.queueOf q).tail = (s.queueOf q).tail ∧
      (let c := (t.queueOf q).ctl
       (∀ i < 32, i ≠ 29 → (i < 20 ∨ 24 ≤ i) → bit c i = (bit v i && (decide (i < 12) || decide (24 ≤ i ∧ i ≠ 26 ∧ i ≠ 27 ∧ i ≠ 28)))) ∧
         bit c 29 = bit (s.queueOf q).ctl 29 ∧ fld c 20 4 = if fld v 20 4 < 4 then 4 else fld v 20 4) ∧
      (bit v 29 = true → bit (s.queueOf q).ctl 29 = false → Sends s t 0 (.queueSuspend q)) ∧
      (bit v 29 = false → bit (s.queueOf q).ctl 29 = true → Sends s t 0 (.queueUnsuspend q))) ∧
    (o = 0x3F2000001000 → exec .registerWrite s = .next { s with dev := { s.dev with cpsb := v } }) ∧
    (∀ c < 4096, o = 0x3F2000100000 + 64 * c → ∃ t, exec .registerWrite s = .next t ∧ t.mem = s.mem ∧
      t.ctxOf c = { s.ctxOf c with en := bit v 31, sys := bit v 30 } ∧ (bit v 29 = true → Sends s t 0 (.contextKill c))) ∧
    (∀ c < 4096, (o = 0x3F2000100008 + 64 * c → exec .registerWrite s = .next (s.onCtx c fun x => { x with saveBase := v })) ∧
      (o = 0x3F2000100010 + 64 * c → exec .registerWrite s = .next (s.onCtx c fun x => { x with saveSize := lo })) ∧
      (o = 0x3F2000100018 + 64 * c → exec .registerWrite s = .next (s.onCtx c fun x => { x with snapBase := v })) ∧
      (o = 0x3F2000100020 + 64 * c → exec .registerWrite s = .next (s.onCtx c fun x => { x with snapSize := lo })) ∧
      (o = 0x3F2000100024 + 64 * c → exec .registerWrite s = .next (s.onCtx c fun x => { x with kcode := v.toNat % 256 }))) ∧
    (∀ g < 64, (o = 0x3F3000010000 + 0x1000 * g →
        exec .registerWrite s = .next { s with groups := SMap.upd {} s.groups g fun x => { x with ctl := lo &&& 0x83FFFFFF } }) ∧
      ∀ k < 450, o = 0x3F3000010100 + 0x1000 * g + 4 * k → ∃ t, exec .registerWrite s = .next t ∧ t.mem = s.mem ∧
        ∀ r, SMap.get 0 (SMap.get {} t.groups g).ranks r = if r = 2 * k then v.toNat % 2 ^ 16 else if r = 2 * k + 1 then v.toNat / 2 ^ 16 % 2 ^ 16
          else SMap.get 0 (SMap.get {} s.groups g).ranks r) ∧
    ∀ k < 640, ∀ i < 64, o = 0x3F1000000008 + 0x400 * k + 16 * i →
      exec .registerWrite s = .next { s with
        sched := SMap.upd {} s.sched (k * 64 + i) fun e => { e with w1 := v &&& 0xFFFF03FFFFFFFFFF } }) ∧
  (∀ (s : State) (page : Nat) (spread : Bool), s.now = some (.mappingChange page spread) →
    let on (l : Nat) : Prop := s.isLocal (l * 128) = true ∧ l * 128 % 2 ^ 54 / 2 ^ 25 = page
    ((∃ c ∈ s.allCords, ∃ e ∈ c.eyes, e.2.st ≠ .closed ∧ on e.2.pla) ∨ (∃ x ∈ s.l2, x.pinned = true ∧ on x.line) →
      exec .registerWrite s = .next s) ∧
    (s.pageIdle page = true → ∃ t, exec .registerWrite s = .next t ∧ (page ∈ t.spread ↔ spread = true) ∧ ∀ x ∈ t.l2, ¬on x.line)) ∧
  ∀ (s : State) (adapter a n : Nat) (bs : List Byte),
    let ours := a / 2 ^ 54 % 1024 = 960 + adapter
    let up := s.dev.st ≠ .off ∧ s.dev.st ≠ .tripped
    let ok := ¬ours ∧ up ∧ s.isLocal a = true ∧ (inWindow a = true ∨ s.dev.working = true) ∧ s.mapFault true a = none
    (∀ x, s.now = some (.hostAccess adapter x) → x = .read a n ∨ x = .write a bs → ¬ours → ¬up → exec .hostAccess s = .next s) ∧
    (s.now = some (.hostAccess adapter (.write a bs)) → ours → 0 < bs.length → a % 128 + bs.length ≤ 128 →
      ∃ t, exec .hostAccess s = .next t ∧ t.owners = s.owners ∧ (∀ i < bs.length, t.byte (a + i) = bs.getD i 0) ∧
        ∀ x, x < a ∨ a + bs.length ≤ x → t.byte x = s.byte x) ∧
    (∀ kind op ty b cmp, s.now = some (.hostAccess adapter (.atomic a kind op ty b cmp)) → ok → inWindow a = false →
      ∃ r, exec .hostAccess s = .next { s with agenda := ⟨s.cycle, .atomicAtHome r⟩ :: s.agenda } ∧ r.line = a / 128 ∧ r.kind = kind ∧
        r.op = op ∧ r.ty = ty ∧ r.lanes = [⟨0, a % 128, b, cmp⟩] ∧ r.core = 1000 * (961 + adapter) ∧ r.dst = none ∧ r.flag = none) ∧
    (s.now = some (.hostAccess adapter (.read a n)) → ok → ∃ t, exec .hostAccess s = .next t ∧ t.mem = s.mem ∧
      t.outbox = s.outbox ++ [(960 + adapter, .reply ((List.range n).map fun i => s.homeByte (a + i)))]) ∧
    (s.now = some (.hostAccess adapter (.write a bs)) → ok → 0 < bs.length → a % 128 + bs.length ≤ 128 → inWindow a = false →
      let owned (o : Nat × Nat) : Prop := o ∈ s.owners ∧ o.1 / 32 = a / 128 ∧ a % 128 / 4 ≤ o.1 % 32 ∧ o.1 % 32 ≤ (a % 128 + bs.length - 1) / 4
      ((∀ o, ¬owned o) → s.epochs = [] → ∃ t, exec .hostAccess s = .next t ∧ t.owners = s.owners ∧ (∀ i < bs.length, t.byte (a + i) = bs.getD i 0) ∧
        ∀ x, x < a ∨ a + bs.length ≤ x → t.byte x = s.byte x) ∧
      ∀ o, owned o → o.2 < 1000 → ∃ t, exec .hostAccess s = .next t ∧ t.mem = s.mem ∧ t.owners = s.owners ∧
        Sends s t 0 (.hostAccess adapter (.write a bs)) ∧ ∃ ws, bit ws (o.1 % 32) = true ∧ Sends s t 0 (.ownerLossNotice o.2 (a / 128) ws))

/-- R396 to R406: bring-up goes through its states, each step ending in the next state or in its failure code; the firmware passes when every
image is accepted, and the first that is not gives the code; a power window takes new limits, gives every cluster with matrix work the same
grant, lowered in proportion while the average exceeds the limit, acts on the temperature, and is 1 µs long; until the first every cluster
has the least grant; a trip drives its signal; attestation writes
its report.
What the spec leaves open there is as the model chose it: log entries 10, 17, 18, 47, 53 and 59. -/
def Obligations.BringupAndPower : Prop :=
  let fails (s : State) (t : State) (code : Nat) : Prop := t = { s with dev := { s.dev with st := .failed, fcode := code % 256 } }
  let code (i : Nat) (x : Option Image) : Nat :=
    match x with
    | none => 8
    | some m =>
      let signed := leBytes m.digest.toNat 48 ++ leBytes m.version.toNat 4
      if sha384 m.ecdsaKey ≠ Config.fusedKeyHash true ∨ ecdsaVerifies m.ecdsaKey signed m.ecdsa = false then 1
      else if sha384 m.lmsKey ≠ Config.fusedKeyHash false ∨ lmsVerifies m.lmsKey signed m.lms = false then 2
      else if sha384 m.content ≠ m.digest then 8
      else if m.version.toNat < (Config.versionFloor i).toNat then 3 else 0
  ∀ s : State,
    let d := s.dev
    (s.now = some .reset → ∃ t, exec .reset s = .next t ∧
      t = { State.reset with
        fresh := t.fresh, agenda := t.agenda, outbox := s.outbox, mem := t.mem, dev := { State.reset.dev with st := .verify, devno := d.devno, images := (List.range 5).map (Config.flash s.fresh) } } ∧
      (∀ a, t.byte a = if s.isLocal a then 0 else s.byte a) ∧
      ∃ i ∈ t.agenda, i.what = .firmwareVerifyDone) ∧
    (s.now = some .firmwareVerifyDone →
      (d.st ≠ .verify → exec .firmwareVerifyDone s = .next s) ∧
      (∀ i x, d.st = .verify → d.images[i]? = some x → code i x ≠ 0 → (∀ j < i, ∀ y, d.images[j]? = some y → code j y = 0) →
        ∃ t, exec .firmwareVerifyDone s = .next t ∧ fails s t (code i x)) ∧
      (d.st = .verify → (∀ j y, d.images[j]? = some y → code j y = 0) → ∃ t k l, exec .firmwareVerifyDone s = .next t ∧ t.dev = { d with st := .calib } ∧
        Sends s t 1 (.calibrationDone k l) ∧ Sends s t 1 (.bringupTimeout 2))) ∧
    (∀ f l, s.now = some (.calibrationDone f l) →
      (d.st ≠ .calib → exec .calibrationDone s = .next s) ∧
      (d.st = .calib → f ≠ 0 → ∃ t, exec .calibrationDone s = .next t ∧ fails s t f) ∧
      (d.st = .calib → f = 0 → l % 2 ^ 36 = 0 → ∃ t, exec .calibrationDone s = .next t ∧ fails s t 0x0A) ∧
      (d.st = .calib → f = 0 → l % 2 ^ 36 ≠ 0 → ∃ t k g, exec .calibrationDone s = .next t ∧ t.dev.st = .init ∧
        t.dev.links = BitVec.ofNat 36 l ∧ t.dev.join = true ∧ (l % 2 ^ 36 ≠ 2 ^ 36 - 1 → t.dev.degr = true) ∧
        Sends s t 1 (.initDone k g) ∧ Sends s t 1 (.bringupTimeout 3))) ∧
    (∀ f (g : Dword), s.now = some (.initDone f g) →
      (d.st ≠ .init → exec .initDone s = .next s) ∧
      (d.st = .init → f ≠ 0 → ∃ t, exec .initDone s = .next t ∧ fails s t f) ∧
      (d.st = .init → f = 0 → g.toNat % 2 ^ 40 = 0 → ∃ t, exec .initDone s = .next t ∧ fails s t 0x0B) ∧
      (d.st = .init → f = 0 → g.toNat % 2 ^ 40 ≠ 0 → ∃ t n p h, exec .initDone s = .next t ∧ t.dev.st = .early ∧ t.dev.erdy = true ∧
        t.dev.clusters = g.setWidth 40 ∧ t.dev.us = 0 ∧ (∀ c < 40, SMap.get 0 t.dev.tokens c = 8) ∧ (d.hlthBase = 0 → ∀ a, t.byte a = if s.isLocal a then 0 else s.byte a) ∧
        (d.hlthBase ≠ 0 → t.dev.owed = []) ∧
        (let out := (List.range 40).filter fun i => !bit (g.setWidth 40) i
         t.dev.hlthHead = d.hlthHead + BitVec.ofNat 32 out.length ∧
         (d.hlthBase = 0 → t.dev.owed.map (·.1) = d.owed.map (·.1) ++ (List.range out.length).map (d.hlthHead.toNat + ·) ∧
           ∀ o ∈ t.dev.owed, o ∈ d.owed ∨ ∃ c ∈ out, o.2 = [4, BitVec.ofNat 32 (c / 10 * 2 ^ 24 + c % 10 * 2 ^ 16), 0, 0, 1,
             BitVec.ofNat 32 (40 - out.length), BitVec.ofNat 32 t.dev.devstat, 0])) ∧ (g.toNat % 2 ^ 40 ≠ 2 ^ 40 - 1 → t.dev.degr = true) ∧
        Sends s t 1 (.lpddrTrainingDone n) ∧ Sends s t 1 (.bringupTimeout 4) ∧ Sends s t 1 (.powerWindow p h))) ∧
    (∀ n, s.now = some (.lpddrTrainingDone n) →
      (d.st ≠ .early ∨ d.fcode = 9 → exec .lpddrTrainingDone s = .next s) ∧
      (d.st = .early → d.fcode ≠ 9 → ∃ t, exec .lpddrTrainingDone s = .next t ∧ t.dev.st = .early ∧
        (n = 0 → t.dev.fcode = 9) ∧ (0 < n → t.dev.lpddrReady = true ∧ t.dev.lpch = min n 48) ∧
        (n < 48 → t.dev.repl = true ∧ t.dev.degr = true ∧ t.dev.hlthHead = d.hlthHead + BitVec.ofNat 32 (48 - n)) ∧
        (48 ≤ n → t.dev.hlthHead = d.hlthHead ∧ t.dev.fcode = d.fcode))) ∧
    (∀ k, s.now = some (.bringupTimeout k) → ∃ t, exec .bringupTimeout s = .next t ∧
      (k = 1 → d.st = .verify → t.dev.st = .failed ∧ t.dev.fcode ∈ [1, 2, 3, 8]) ∧
      (k = 2 → d.st = .calib → t.dev.st = .failed ∧ t.dev.fcode ∈ [4, 5, 6]) ∧
      (k = 3 → d.st = .init → t.dev.st = .failed ∧ t.dev.fcode = 7) ∧
      (k = 4 → d.st = .early → if d.lpddrReady then t = s else t.dev.st = .early ∧ t.dev.fcode = 9 ∧ t.dev.repl = true) ∧
      ((k, d.st) ∉ [(1, DevState.verify), (2, .calib), (3, .init), (4, .early)] → t = s)) ∧
    (∀ p h, s.now = some (.powerWindow p h) →
      (d.erdy = false → exec .powerWindow s = .next s) ∧
      (d.erdy = true → ∃ t g, exec .powerWindow s = .next t ∧ t.mem = s.mem ∧
        let plim := match d.pwrNext with | some w => w.toNat / 2 ^ 8 % 2 ^ 12 | none => d.plim
        let tlim := match d.pwrNext with | some w => w.toNat % 2 ^ 8 | none => d.tlim
        let rises := d.st = .early ∧ d.lpddrReady = true
        t.dev.plim = plim ∧ t.dev.tlim = tlim ∧ t.dev.pwrNext = none ∧ t.dev.pavg = p ∧ t.dev.thot = h ∧ t.dev.us = d.us + 1 ∧
        (t.dev.lim = true ↔ plim < p) ∧ (rises → t.dev.st = .full ∧ t.dev.frdy = true) ∧ (¬rises → t.dev.st = d.st ∧ t.dev.frdy = d.frdy) ∧
        8 ≤ g ∧ g ≤ 850 ∧ (tlim ≤ h → g = 8) ∧
        (∃ each, tlim ≤ h ∨ g = max 8 (min 850 (if plim < p then each * plim / p else each))) ∧
        (∀ k ∈ s.cores, k.core < 640 → k.tq ≠ [] → SMap.get 0 t.dev.tokens (k.core / 16) = g) ∧
        (∀ c < 40, (∀ k ∈ s.cores, k.tq ≠ [] → k.core / 16 ≠ c) → SMap.get 0 t.dev.tokens c = 8) ∧
        (tlim ≤ h → Sends s t 0 (.thermalThrottle h)) ∧ (tlim + 5 ≤ h → d.thr = false → Sends s t 0 (.clockHalve h)) ∧
        (115 ≤ h → Sends s t 0 .thermalTrip) ∧ (h < tlim → 999 ≤ d.cool → d.thr = true → Sends s t 0 .thrClear) ∧
        let slow := (d.thr = true ∨ tlim + 5 ≤ h) ∧ ¬(h < tlim ∧ 999 ≤ d.cool ∧ d.thr = true)
        ∃ p h, ⟨s.cycle + (if t.dev.st = .early then 425 else 850) / (if slow then 2 else 1), .powerWindow p h⟩ ∈ t.agenda)) ∧
    (∀ v : Word, s.now = some (.pwrctlWrite v) → ∃ w : Word, exec .pwrctlWrite s = .next { s with dev := { d with pwrNext := some w } } ∧
      w.toNat / 2 ^ 8 = max 1000 (min 2300 (v.toNat / 2 ^ 8 % 2 ^ 12)) ∧ w.toNat % 2 ^ 8 = max 85 (min 105 (v.toNat % 2 ^ 8))) ∧
    (∀ h, s.now = some (.thermalThrottle h) → ∃ t, exec .thermalThrottle s = .next t ∧ t.dev.thot = h ∧ t.dev.cool = 0 ∧
      t.dev.hlthHead = d.hlthHead + 1 ∧ t.dev.tokens = d.tokens.map fun x => (x.1, min x.2 8)) ∧
    (∀ h, s.now = some (.clockHalve h) → exec .clockHalve s = .next { s with dev := { d with thot := h, thr := true, cool := 0 } }) ∧
    (s.now = some .thrClear → exec .thrClear s = .next { s with dev := { d with thr := false } }) ∧
    (s.now = some .thermalTrip → exec .thermalTrip s = .next { s with dev := { d with st := .tripped }, agenda := [], outbox := s.outbox ++ [(1024, .trip)] }) ∧
    (s.now = some .powerRemoval → exec .powerRemoval s =
      .next { State.reset with
        agenda := [], dev := { st := .off, devno := d.devno }, fresh := s.fresh, outbox := s.outbox, mem := s.elsewhere }) ∧
    (∀ v : Dword, s.now = some (.attestationRequest v) →
      (d.attBusy = true → exec .attestationRequest s = .next s) ∧
      (d.attBusy = false → ∃ t, exec .attestationRequest s = .next t ∧ t.mem = s.mem ∧ t.dev.attBusy = bit v 0 ∧
        t.dev.attBuf = v.toNat / 2 ^ 12 ∧ (bit v 0 = true → Sends s t 1 .attestationComplete))) ∧
    (s.now = some .attestationComplete →
      let b := d.attBuf * 4096
      let word (t : State) (a : Nat) : Nat := leNat ((List.range 4).map fun i => t.byte (a + i))
      d.images.length = 5 → ∃ t, exec .attestationComplete s = .next t ∧ t.dev.attBusy = false ∧ (∀ a, a < b ∨ b + 0xC2C ≤ a → t.byte a = s.byte a) ∧
        (inWindow b = false → (∀ i m, d.images[i]? = some (some m) → word t (b + 0x170 + 4 * i) = m.version.toNat ∧
          ∀ k < 48, t.byte (b + 0x80 + 48 * i + k) = BitVec.ofNat 8 (m.digest.toNat / 256 ^ k)) ∧ word t b = 1 ∧ word t (b + 4) = d.devno % 2 ^ 32 ∧ (∀ k < 16, t.byte (b + 0x10 + k) = Config.serial k) ∧ word t (b + 0x184) = d.devstat % 2 ^ 32))

/-- R375, R377, R378, R381, R384 to R392: links fail out of routing; an unreachable device ends the calls of its groups, and its notices are
awaited no more; a notice from another device goes to every core that holds the line and is acknowledged once they have; a loss of ownership
is acknowledged at both ends; another device's fills, reads, writes and signals are served, and only the register window before service; ared, acol and rsig issue as releases and give their statuses, a call that succeeds after an acquire; a
round's result is the reduction of the members' contributions in rank order, and an exact sum is the rounded sum of their terms, whatever
their order.
What the spec leaves open there is as the model chose it: log entries 8, 16, 35, 44 and 57. -/
def Obligations.ReseauResults : Prop :=
  let told (s t : State) : Prop := t.dev.hlthHead = s.dev.hlthHead + 1
  (∀ (s : State) (l : Nat),
    let out := (List.range 36).filter fun i => i == l || !bit s.dev.links i
    (s.now = some (.linkCrcRetry l) → exec .linkCrcRetry s = .next
      (if bit s.dev.links l then { s with dev := { s.dev with retries := s.dev.retries + 1 } } else s)) ∧
    (s.now = some (.linkFailure l) → (36 ≤ l ∨ bit s.dev.links l = false → exec .linkFailure s = .next s) ∧
      (l < 36 → bit s.dev.links l = true → ∃ t, exec .linkFailure s = .next t ∧ t.dev.degr = true ∧
        (∀ i < 36, bit t.dev.links i = (bit s.dev.links i && i != l)) ∧
        (4 < out.length → t.dev.repl = true ∧ told s t) ∧ (out.length ≤ 4 → t.dev.repl = s.dev.repl ∧ t.dev.hlthHead = s.dev.hlthHead)))) ∧
  (∀ (s : State) (dev : Nat), s.now = some (.destinationUnreachable dev) →
    (dev ∈ s.dev.lost → exec .destinationUnreachable s = .next s) ∧
    (dev ∉ s.dev.lost → ∃ t, exec .destinationUnreachable s = .next t ∧ t.dev.lost = s.dev.lost ++ [dev] ∧ told s t ∧
      (let there (k : Nat) : Prop := 1000 ≤ k ∧ k / 1000 - 1 = dev
       (∀ r, r ∈ t.recalls ↔ r ∈ s.recalls ∧ ¬there r.2.1) ∧ (∀ o ∈ t.owners, ¬there o.2) ∧
         (s.dev.hlthBase = 0 → ∀ o, o ∈ t.owners ↔ o ∈ s.owners ∧ ¬there o.2) ∧ ∀ o, o ∈ t.losing ↔ o ∈ s.losing ∧ ¬there o.1) ∧
      ∀ x ∈ s.calls, (∃ r ≤ (SMap.get {} s.groups x.g).ctl.toNat / 2 ^ 16 % 2 ^ 10, SMap.get 0 (SMap.get {} s.groups x.g).ranks r = dev) →
        Sends s t 1 (.arRoundComplete x.g x.round))) ∧
  (∀ (s : State) (line rid : Nat) (why : Reason), s.dev.working = true →
    let acked : Out := .next { s with outbox := s.outbox ++ [(line * 128 / 2 ^ 54 % 1024, .ack line rid)] }
    (s.now = some (.remoteNotice (.recall line why rid none)) →
      (s.sharers line = [] → exec .remoteNotice s = acked) ∧
      (s.sharers line ≠ [] → ∃ t ids, exec .remoteNotice s = .next t ∧ t.mem = s.mem ∧
        Sends s t 1 (.remoteNotice (.recall line why rid (some ids))) ∧
        ∀ core ∈ s.sharers line, ∃ i ∈ ids, (i, core, line) ∈ t.recalls ∧ Sends s t 1 (.recallAtCore core line why i))) ∧
    (∀ ids, s.now = some (.remoteNotice (.recall line why rid (some ids))) →
      ((∃ r ∈ s.recalls, r.1 ∈ ids) → ∃ t, exec .remoteNotice s = .next t ∧ t.outbox = s.outbox ∧
        Sends s t 1 (.remoteNotice (.recall line why rid (some ids)))) ∧
      ((∀ r ∈ s.recalls, r.1 ∉ ids) → exec .remoteNotice s = acked)) ∧
    (s.now = some (.remoteNotice (.ack rid)) → ∃ t, exec .remoteNotice s = .next t ∧ t.mem = s.mem ∧
      ∀ r, r ∈ t.recalls ↔ r ∈ s.recalls ∧ ¬(r.1 = rid ∧ 1000 ≤ r.2.1)) ∧
    (∀ dev core ws, s.now = some (.remoteNotice (.ownerLoss dev core line ws)) → core < 1000 → ∃ t, exec .remoteNotice s = .next t ∧ t.mem = s.mem ∧
      t.outbox = s.outbox ++ [(dev, .lossAck core line ws)] ∧
      ∀ c x, s.cordRec c = some x → ∃ y, t.cordRec c = some y ∧ ∀ e, (y.eye e).own =
        if x.core = core ∧ (x.eye e).st = .opened ∧ (x.eye e).pla = line then (x.eye e).own &&& ~~~ws else (x.eye e).own) ∧
    (∀ core ws, s.now = some (.remoteNotice (.lossAck core line ws)) → 1000 ≤ core → ∃ t, exec .remoteNotice s = .next t ∧ t.mem = s.mem ∧
      (core, line) ∉ t.losing ∧ ∀ o, o ∈ t.owners ↔ o ∈ s.owners ∧ ¬(o.1 / 32 = line ∧ bit ws (o.1 % 32) = true ∧ o.2 = core)) ∧
    (∀ dev die first, s.now = some (.remoteNotice (.fill dev die line first none none)) → s.isLocal (line * 128) = true →
      s.readFails line = none → ∃ t, exec .remoteNotice s = .next t ∧ t.mem = s.mem ∧
        t.outbox = s.outbox ++ [(dev, .reply ((List.range 128).map fun i => s.homeByte (line * 128 + i)))]) ∧
    (∀ dev a n, s.now = some (.remoteNotice (.read dev a n)) → s.isLocal a = true → s.readFails (a / 128) = none →
      ∃ t, exec .remoteNotice s = .next t ∧ t.mem = s.mem ∧ t.outbox = s.outbox ++ [(dev, .reply ((List.range n).map fun i => s.homeByte (a + i)))]) ∧
    (∀ dev a (bs : List Byte), s.now = some (.remoteNotice (.write dev a bs)) → s.isLocal a = true → inWindow a = false → s.epochs = [] →
      (∀ o ∈ s.owners, o.1 / 32 ≠ a / 128) → 0 < bs.length → a % 128 + bs.length ≤ 128 → ∃ t, exec .remoteNotice s = .next t ∧
        t.outbox = s.outbox ++ [(dev, .done (a / 128))] ∧ (∀ i < bs.length, t.byte (a + i) = bs.getD i 0) ∧
        ∀ x, x < a ∨ a + bs.length ≤ x → t.byte x = s.byte x) ∧
    ∀ q v, s.now = some (.remoteNotice (.signal q v)) →
      let k := s.queueOf q
      ∃ t, exec .remoteNotice s = .next t ∧ t.mem = s.mem ∧ t.queueOf q =
        if bit k.ctl 30 = true ∧ bit k.ctl 31 = true ∧ (v - k.head).toNat ≤ 2 ^ (k.ctl.toNat / 2 ^ 20 % 16) ∧
          (k.tail - k.head).toNat ≤ (v - k.head).toNat then { k with tail := v } else k) ∧
  (∀ (s : State) (x : RemoteMsg), s.now = some (.remoteNotice x) →
    (s.dev.st = .off ∨ s.dev.st = .tripped → exec .remoteNotice s = .next s) ∧
    (s.dev.st ≠ .off → s.dev.st ≠ .tripped → s.dev.working = false →
      (∀ dev die line first tol forced, x = .fill dev die line first tol forced → inWindow (line * 128) = false →
        exec .remoteNotice s = .next { s with outbox := s.outbox ++ [(dev, .reply [])] }) ∧
      (∀ dev die line first, x = .fill dev die line first none none → inWindow (line * 128) = true → s.isLocal (line * 128) = true →
        s.readFails line = none → ∃ t, exec .remoteNotice s = .next t ∧ t.mem = s.mem ∧
          t.outbox = s.outbox ++ [(dev, .reply ((List.range 128).map fun i => s.homeByte (line * 128 + i)))]) ∧
      (∀ dev a n, x = .read dev a n → inWindow a = false → exec .remoteNotice s = .next { s with outbox := s.outbox ++ [(dev, .reply [])] }) ∧
      (∀ dev a bs, x = .write dev a bs → inWindow a = false → exec .remoteNotice s = .next s) ∧
      (∀ r, x = .atom r → exec .remoteNotice s = .next s) ∧ ∀ u, x = .add u → exec .remoteNotice s = .next s)) ∧
  (∀ (d : Wr) (a b : Rd) (lit : Word) (s : State),
    let c := s.cord
    let f : Form := { lat := .v, vecs := wrVecs d 1 ++ rdVecs a 1 ++ rdVecs b 1 }
    let fc : Form := { lat := .v, vecs := rdVecs a 1 ++ rdVecs b 1 }
    let fs : Form := { lat := .n, vecs := rdVecs a 1 ++ rdVecs b 1 }
    let o := (c.once a).toNat
    let g := (c.once b).toNat
    let calls (t : State) (x : CollCall) : Prop := t.mem = s.mem ∧ ∃ r ∈ t.cord.rels, r.kind = .coll x
    (collLitOk false lit = true → s.motif.checkBuffer o (collNb lit) = none → g ≤ 63 → f.check s = none →
      (bit (SMap.get {} s.groups g).ctl 31 = true → ∃ t, exec (.ared d a b lit) s = .next (f.issued t) ∧
        calls t { g := g, round := 0, cord := c.cid, mid := c.mid, flag := c.flag, col := false, lit := lit, off := o, desc := [], src := [],
                  srcRuns := [], dst := c.writes32 d fun _ => 0, dstRuns := [], status := none }) ∧
      (bit (SMap.get {} s.groups g).ctl 31 = false → ∃ t, exec (.ared d a b lit) s = .next t ∧ t.mem = s.mem ∧
        (c.live = true → ∀ m, d = .s m → ∃ y, t.cordRec c.cid = some y ∧ y.sreg m.val = 1))) ∧
    (collLitOk false lit = false → f.check s = none → exec (.ared d a b lit) s = .next (s.raise .opndKind c.word)) ∧
    (let w (i : Nat) : Nat := s.motif.pilNum (o + 4 * i) 4
     let pm1 := (SMap.get {} s.groups g).ctl.toNat / 2 ^ 16 % 2 ^ 10
     let x : CollCall :=
       { g := g, round := 0, cord := c.cid, mid := c.mid, flag := c.flag, col := true, lit := lit, off := o,
         desc := (List.range 8).map fun i => BitVec.ofNat 32 (w i), src := [], srcRuns := [], dst := [], dstRuns := [], status := none }
     let src := w 0 + w 1 * 2 ^ 32
     let dst := w 2 + w 3 * 2 ^ 32
     let n := x.sizes (SMap.get {} s.groups g)
     let vs := pageStarts src n.1
     let vd := pageStarts dst n.2
     collLitOk true lit = true → s.motif.checkBuffer o 32 = none → g ≤ 63 → fc.check s = none →
     (w 7 = 0 ∧ 1 ≤ w 4 ∧ w 4 ≤ 2 ^ 28 ∧ w 0 % 16 = 0 ∧ w 2 % 16 = 0 ∧ w 5 ≤ if collKind lit = 3 then pm1 else 0) →
     bit (SMap.get {} s.groups g).ctl 31 = true →
     ∀ ps qs, Hits s .r vs ps → Hits s .w vd qs → ∃ t, exec (.acol a b lit) s = .next (fc.issued t) ∧
       calls t { x with srcRuns := physRuns src n.1 ps, dstRuns := physRuns dst n.2 qs }) ∧
    (lit.toNat < 64 → o ≤ 899 → fs.check s = none → ∃ t, exec (.rsig a b lit) s = .next (fs.issued t) ∧ t.mem = s.mem ∧
      ∃ r ∈ t.cord.rels, r.kind = .rsig o lit.toNat (c.once b))) ∧
  (∀ (s : State) (c dev q : Nat) (x : Cord) (e : Release) (v : Word), s.now = some (.releaseTakesEffect c) → Runs s c x →
    s.relDue x = some e → e.kind = .rsig dev q v →
    let k := s.queueOf q
    ∃ t, exec .releaseTakesEffect s = .next t ∧ t.mem = s.mem ∧
      (dev ≠ s.dev.devno → dev ∉ s.dev.lost → t.outbox = s.outbox ++ [(dev, .signal q v)]) ∧
      (dev ≠ s.dev.devno ∨ bit k.ctl 30 = false ∨ bit k.ctl 31 = false → t.queueOf q = k) ∧
      (dev = s.dev.devno → (∃ e ∈ s.epochs, e.covers (s.agentOfCord c) = true) → t.queueOf q = k) ∧
      (dev = s.dev.devno → s.epochs = [] → bit k.ctl 30 = true → bit k.ctl 31 = true → (t.queueOf q).tail =
        if (v - k.head).toNat ≤ 2 ^ (k.ctl.toNat / 2 ^ 20 % 16) ∧ (k.tail - k.head).toNat ≤ (v - k.head).toNat then v else k.tail)) ∧
  (∀ (s : State) (g k : Nat) (x : CollCall) (y : Cord), s.callOf g k = some x → x.mid ≠ 0 → Runs s x.cord y →
    let ends (e : Out) (st : Nat) : Prop := ∃ t z, e = .next t ∧ t.mem = s.mem ∧ t.cordRec x.cord = some z ∧
      (∀ c ∈ t.calls, c.g = x.g → c.round ≠ x.round) ∧ z.flagOf x.flag.val = y.flagOf x.flag.val - 1 ∧
      z.s = (y.applyAll (x.dst.map (putValue (BitVec.ofNat 32 st)))).s ∧
      (x.col = true → ∀ m, s.findMotif x.mid = some m → ∃ m', t.findMotif x.mid = some m' ∧ m'.pilNum (x.off + 0x18) 4 = st)
    (s.now = some (.arRoundTimeout g k) → ends (exec .arRoundTimeout s) 5) ∧
    (s.now = some (.arRoundComplete g k) → s.memberLost g = true → ends (exec .arRoundComplete s) 3) ∧
    ∀ all, s.now = some (.arRoundComplete g k) → s.memberLost g = false → s.contributions x = some all →
      ((∃ m ∈ all, m.1 ≠ x.lit ∨ m.2.1 ≠ x.amount) → ends (exec .arRoundComplete s) 2) ∧
      ((∀ m ∈ all, m.1 = x.lit ∧ m.2.1 = x.amount) → (s.groupOf g).pm1 = 0 ∨ Config.peerTablesAgree g k = true →
        (x.col = false → ∀ m, s.findMotif x.mid = some m → ∃ t m', exec .arRoundComplete s = .next t ∧ t.findMotif x.mid = some m' ∧
          ∀ i < collNb x.lit, SMap.get 0 m'.pil (x.off + i) = (aredResult x.lit (all.map fun m => m.2.2)).getD i 0) ∧
        (x.col = false → ∃ t z r, exec .arRoundComplete s = .next t ∧ t.cordRec x.cord = some z ∧ z.epoch = y.epoch + 1 ∧
          z.flagOf x.flag.val = y.flagOf x.flag.val ∧ Sends s t 1 (.acquireComplete x.cord s.fresh r) ∧
          ∃ o ∈ z.ops, o.tok = s.fresh ∧ o.flag = some x.flag ∧ o.writes = x.dst.map (putValue 0)) ∧
        (x.col = true → s.dstNotices x = none → ∃ t, exec .arRoundComplete s = .next t ∧ Sends s t 1 (.acolComplete g k)))) ∧
  (∀ (s : State) (g k : Nat), s.now = some (.acolComplete g k) → ∀ x ∈ s.calls, x.g = g → x.round = k → x.col = true → x.mid ≠ 0 →
    (∀ z ∈ s.calls, z.g = g → z.round = k → z = x) → ∀ m, s.findMotif x.mid = some m →
    ∃ t m', exec .acolComplete s = .next t ∧ t.findMotif x.mid = some m' ∧ m'.pilNum (x.off + 0x18) 4 = 0 ∧
      ∀ z ∈ t.calls, z.g = g → z.round ≠ k) ∧
  (∀ xs ys : List Nat, xs.Perm ys → exactSum xs = exactSum ys) ∧
  (∀ xs : List Nat,
    let nan := ∃ x ∈ xs, fp32.decode x = .nan
    let inf (s : Bool) : Prop := ∃ x ∈ xs, fp32.decode x = .inf s
    let log (m : Nat) (e : Int) : Int := m.log2 + e
    let term (emax : Int) (x : Nat) : Int :=
      match fp32.decode x with
      | .fin s m e =>
        let k := e - emax + 84
        let q : Nat := if 0 ≤ k then m * 2 ^ k.toNat else m / 2 ^ (-k).toNat
        if s then -(q : Int) else q
      | _ => 0
    (nan ∨ (inf false ∧ inf true) → exactSum xs = 0x7FC00000) ∧ (¬nan → inf false → ¬inf true → exactSum xs = 0x7F800000) ∧
    (¬nan → inf true → ¬inf false → exactSum xs = 0xFF800000) ∧
    (¬nan → ¬inf false → ¬inf true →
      ((∀ x ∈ xs, ∀ s m e, fp32.decode x = .fin s m e → m = 0) → exactSum xs = 0) ∧
      ∀ emax : Int, (∃ x ∈ xs, ∃ s m e, fp32.decode x = .fin s m e ∧ m ≠ 0 ∧ log m e = emax) →
        (∀ x ∈ xs, ∀ s m e, fp32.decode x = .fin s m e → m ≠ 0 → log m e ≤ emax) →
        let q := (xs.map (term emax)).sum
        exactSum xs = fp32.encode true .rne false (.fin (decide (q < 0)) q.natAbs (emax - 84)))) ∧
  (∀ (lit : Word) (u v : List Byte), collExact lit = false →
    let z := collBytes (collTy lit)
    aredResult lit [u] = (List.range (collNb lit / z)).flatMap (fun i => leBytes (elemAt (collTy lit) u i) z) ∧
    aredResult lit [u, v] = (List.range (collNb lit / z)).flatMap fun i =>
      leBytes (collOp2 (collTy lit) (collOp lit) (elemAt (collTy lit) u i) (elemAt (collTy lit) v i)) z) ∧
  ∀ (f : Nat → Nat → Nat) (x y z : Nat), treeReduce f [x, y, z] 0 3 3 = f (f x y) z

/-! Encoding, the step, and the machine as a whole. -/

/-- R42, R44, R49, R51: the words that the encoder gives a well-formed instruction, in memory order, decode to it, and what follows them
is left over. -/
def Obligations.EncodeDecodeRoundTrip : Prop :=
  ∀ (i : Instr) (rest : List Byte), i.enc.isSome = true → i.wf = true →
    decodeBytes ((encode i).flatMap (fun w => leBytes w.toNat 4) ++ rest) = some (.ok i, rest)

/-- R42, R43, R49: words that the manual writes out decode to the instructions that it gives them for. -/
def Obligations.ManualWordsDecode : Prop :=
  let reads (w : Word) (lit : Option Word) (i : Instr) : Prop := decode w lit = .ok i
  reads 0x2A00820A none (.addImm false (.v 1) (.v 2) 5) ∧
  reads 0x30040008 none (.add true (.v 8) (.v 0) (.reg (.v 4))) ∧
  reads 0x280A140B (some 0x1003) (.lea (.v 20) (.v 20) (.v 5) 0x1003) ∧
  reads 0x42448100 none (.fclass (.v 9) (.v 1)) ∧
  reads 0x50410101 (some 0x24) (.shfld (.v 2) (.v 1) (.lit 0x24)) ∧
  reads 0xC8000109 (some 0x10) (.adrn 1 4 0x10)

/-- R87, R88: a step is a due event of the agenda; with none due, the first event that the state enables; with none, the
judgement of every cord as the choice of the cycle begins, once a cycle, and then the issue of the chosen cord's next slot, whose words stand
as they decode under the table of its clause; with nothing to issue, the cycle ends, and a cord that was
eligible and not chosen counts one cycle more.
What the spec leaves open there is as the model chose it: log entry 1. -/
def Obligations.StepRunsTheDecodedInstruction : Prop :=
  ∀ s : State,
    (∀ e rest, takeDue s.cycle s.agenda = some (e, rest) → step s = exec e.row { s with agenda := rest, now := some e }) ∧
    (takeDue s.cycle s.agenda = none → s.stopped = true → step s = .fault .clocksStopped) ∧
    (takeDue s.cycle s.agenda = none → s.stopped = false →
      (∀ e, s.enabled = some e → step s = exec e.row { s with now := some e }) ∧
      (s.enabled = none → s.dev.working = true → s.counted ≠ s.cycle + 1 → step s = .next s.judgeAll ∧ s.judgeAll.mem = s.mem ∧
        s.judgeAll.agenda = s.agenda ∧ s.judgeAll.cycle = s.cycle ∧ s.judgeAll.counted = s.cycle + 1) ∧
      (∀ c, s.enabled = none → s.dev.working = true → s.counted = s.cycle + 1 → s.chosen = some c →
        let t := s.focus c.cid
        let x := t.cord.cl.words.getD t.cord.cl.slot (0, none)
        let op : Option Nat :=
          match t.cord.cl.tab with
          | none => some (x.1.toNat / 2 ^ 22)
          | some tab => let e := (tab.getD (x.1.toNat / 2 ^ 22) 0).toNat
                        if 2 ^ 31 ≤ e ∧ e / 2 ^ 10 % 2 ^ 21 = 0 then some (e % 2 ^ 10) else none
        (∀ i, decodeOp op x.1 x.2 = .ok i → step s = exec i { t with now := none }) ∧
        ∀ k, decodeOp op x.1 x.2 = .error k →
          step s = exec .illegalWordIssue { t with now := some (.illegalWordIssue k (t.cord.word.setWidth 32)) }) ∧
      (s.enabled = none → (s.dev.working = true → s.counted = s.cycle + 1 ∧ s.chosen = none) → ∃ t, step s = .next t ∧ t.cycle = s.cycle + 1 ∧ t.mem = s.mem ∧
        t.agenda = s.agenda ∧ ∀ c x, s.dev.working = true → s.cordRec c = some x → ∃ y, t.cordRec c = some y ∧ y.urgent = x.urgent ∧
          y.count = if x.issuedAt = s.cycle then x.count else match x.fit with | none => x.count | some true => x.count + 1 | some false => 0))

/-- R79, R199, R201: no instruction changes memory as it issues; its store, atomic operation or release comes later. -/
def Obligations.NoInstructionChangesMemoryAtIssue : Prop :=
  ∀ (i : Instr) (s t : State), i.enc.isSome = true → exec i s = .next t → ∀ a, t.byte a = s.byte a

/-- Memory keeps its canonical form at every step: equal contents are equal data. The form, in which a byte that nothing has written is
not listed and reads 0, is the model's choice (log entry 26); the spec states none. -/
def Obligations.StepKeepsMemoryCanonical : Prop :=
  ∀ s t : State, Canon s → step s = .next t → Canon t

/-- R396 to R398, R352, R409: what the machine holds as it comes out of reset.
What the spec leaves open there is as the model chose it: log entries 25 and 26. -/
def Obligations.ResetState : Prop :=
  let s := State.reset
  Canon s ∧ (∀ a, s.byte a = 0) ∧ s.cycle = 0 ∧ s.agenda = [⟨0, .reset⟩] ∧ s.cords = [] ∧ s.cord.live = false ∧ s.motifs = [] ∧
  s.patterns = [] ∧ s.l2 = [] ∧ s.owners = [] ∧ s.lostLines = [] ∧
  s.dev.st = .reset ∧ s.dev.erdy = false ∧ s.dev.frdy = false ∧ s.dev.fcode = 0 ∧ s.dev.plim = 2300 ∧ s.dev.tlim = 100 ∧
  s.dev.hlthBase = 0 ∧ s.dev.hlthHead = 0 ∧ s.dev.attBusy = false ∧
  (∀ q, (s.queueOf q).head = 0 ∧ (s.queueOf q).tail = 0 ∧ bit (s.queueOf q).ctl 31 = false) ∧
  (∀ c, (s.ctxOf c).en = false ∧ (s.ctxOf c).sys = false ∧ (s.ctxOf c).locks = []) ∧
  (∀ g, bit (s.groupOf g).ctl 31 = false)

end
end

