-- ==== Sys2Proof/Laws/Decode.lean ====
section
/-! SUPPORT. Laws/Decode.lean: each operand kind reads back from its field, and the decoder reads back a word that the
encoder built. -/

namespace Sys2Proof

open Machine

@[simp] theorem finOf_val {n : Nat} (x : Fin n) : finOf n x.val = some x := by simp [finOf]

@[simp] theorem rdOf_field (r : Rd) : rdOf r.field = some r := by
  cases r <;> simp [rdOf, Rd.field]

@[simp] theorem wrOf_field (r : Wr) : wrOf r.field = some r := by
  cases r <;> simp [wrOf, Wr.field]

@[simp] theorem sregOf_field (r : Sreg) : sregOf (64 + r.val) = some r := by simp [sregOf]
@[simp] theorem eyeOf_field (e : Eye) : eyeOf (96 + e.val) = some e := by simp [eyeOf]
@[simp] theorem mskOf_field (k : Msk) : mskOf (112 + k.val) = some k := by simp [mskOf]
@[simp] theorem immOf_toNat (n : Imm) : immOf n.toNat = some n := by simp [immOf]

@[simp] theorem srcOf_field (b : Src) : srcOf b.field b.litWord = some b := by
  cases b <;> simp [srcOf, Src.field, Src.litWord]

theorem Rd.field_lt (r : Rd) : r.field < 128 := by cases r <;> simp [Rd.field] <;> omega
theorem Wr.field_lt (r : Wr) : r.field < 128 := by cases r <;> simp [Wr.field] <;> omega
theorem Src.field_lt (b : Src) : b.field < 128 := by cases b <;> simp [Src.field, Rd.field_lt]

/-- Every field of an encoding lies in its place in the word. -/
def Enc.fits (e : Enc) : Prop := e.op < 1024 ∧ e.d < 128 ∧ e.a < 128 ∧ e.b < 128

theorem Enc.word_toNat (e : Enc) (h : e.fits) :
    e.word.toNat = e.op * 2 ^ 22 + e.d * 2 ^ 15 + e.a * 2 ^ 8 + e.b * 2 + if e.lit.isSome then 1 else 0 := by
  obtain ⟨h1, h2, h3, h4⟩ := h
  simp only [Enc.word, BitVec.toNat_ofNat]
  split <;> omega

theorem Enc.fld_op (e : Enc) (h : e.fits) : fld e.word 22 10 = e.op := by
  have := e.word_toNat h
  obtain ⟨h1, h2, h3, h4⟩ := h
  simp only [fld, this, Nat.shiftRight_eq_div_pow]
  split <;> omega

theorem Enc.fld_d (e : Enc) (h : e.fits) : fld e.word 15 7 = e.d := by
  have := e.word_toNat h
  obtain ⟨h1, h2, h3, h4⟩ := h
  simp only [fld, this, Nat.shiftRight_eq_div_pow]
  split <;> omega

theorem Enc.fld_a (e : Enc) (h : e.fits) : fld e.word 8 7 = e.a := by
  have := e.word_toNat h
  obtain ⟨h1, h2, h3, h4⟩ := h
  simp only [fld, this, Nat.shiftRight_eq_div_pow]
  split <;> omega

theorem Enc.fld_b (e : Enc) (h : e.fits) : fld e.word 1 7 = e.b := by
  have := e.word_toNat h
  obtain ⟨h1, h2, h3, h4⟩ := h
  simp only [fld, this, Nat.shiftRight_eq_div_pow]
  split <;> omega

theorem Enc.bit_lit (e : Enc) (h : e.fits) : bit e.word 0 = e.lit.isSome := by
  have := e.word_toNat h
  obtain ⟨h1, h2, h3, h4⟩ := h
  have hb : bit e.word 0 = decide (e.word.toNat % 2 = 1) := by
    simp [bit, BitVec.getLsbD, Nat.testBit_zero]
  rw [hb, this]
  cases e.lit <;> simp <;> omega

/-- The literal that stands beside a word fits the row's policy (R43). -/
def Policy.accepts (p : Policy) (lit : Option Word) : Bool :=
  match p with
  | .none => lit.isNone
  | .opt => true
  | .must => lit.isSome

/-- The checks of R51, passed one by one. -/
theorem decodeOp_ok (op : Option Nat) (w : Word) (lit : Option Word) (r : Row) (i : Instr) (hr : op.bind opRow = some r)
    (hs : ¬(r.pol = .none ∧ bit w 0 = true)) (hm : ¬(r.pol = .must ∧ ¬bit w 0 = true))
    (hb : r.build (fld w 15 7) (fld w 8 7) (fld w 1 7) (if bit w 0 = true then lit else none) = some i)
    (hw : i.wf = true) : decodeOp op w lit = .ok i := by
  unfold decodeOp
  rw [hr]
  dsimp only
  rw [if_neg hs, if_neg hm, hb]
  dsimp only
  rw [if_pos hw]

/-- A word built from fields that a row accepts decodes to the row's instruction. -/
theorem decode_word (e : Enc) (r : Row) (i : Instr) (h : e.fits) (hr : opRow e.op = some r)
    (hp : r.pol.accepts e.lit = true) (hb : r.build e.d e.a e.b e.lit = some i) (hw : i.wf = true) :
    decode e.word e.lit = .ok i := by
  have hl : (if bit e.word 0 = true then e.lit else none) = e.lit := by
    rw [e.bit_lit h]; cases e.lit <;> rfl
  refine decodeOp_ok (some (fld e.word 22 10)) e.word e.lit r i ?_ ?_ ?_ ?_ hw
  · rw [e.fld_op h, Option.bind_some, hr]
  · rw [e.bit_lit h]; rintro ⟨h1, h2⟩; rw [h1] at hp; revert hp h2; cases e.lit <;> simp [Policy.accepts]
  · rw [e.bit_lit h]; rintro ⟨h1, h2⟩; rw [h1] at hp; revert hp h2; cases e.lit <;> simp [Policy.accepts]
  · rw [e.fld_d h, e.fld_a h, e.fld_b h, hl, hb]

end Sys2Proof
end

