-- ==== Sys2Proof/Laws/Integer.lean ====
section
/-! SUPPORT. Laws/Integer.lean: each integer result in the arithmetic of the spec (R110 to R117). -/

namespace Sys2Proof.Machine

theorem minBv_eq (n : Nat) (x y : BitVec n) : minBv n x y = if x.toInt ≤ y.toInt then x else y := by
  simp only [minBv, BitVec.slt, decide_eq_true_eq]
  split <;> split <;> first | rfl | omega

theorem maxBv_eq (n : Nat) (x y : BitVec n) : maxBv n x y = if x.toInt ≤ y.toInt then y else x := by
  simp only [maxBv, BitVec.slt, decide_eq_true_eq]
  split <;> split <;> first | rfl | omega | (apply BitVec.eq_of_toInt_eq; omega)

theorem minuBv_eq (n : Nat) (x y : BitVec n) : minuBv n x y = if x.toNat ≤ y.toNat then x else y := by
  simp only [minuBv, BitVec.ult, decide_eq_true_eq]
  split <;> split <;> first | rfl | omega

theorem maxuBv_eq (n : Nat) (x y : BitVec n) : maxuBv n x y = if x.toNat ≤ y.toNat then y else x := by
  simp only [maxuBv, BitVec.ult, decide_eq_true_eq]
  split <;> split <;> first | rfl | omega | (apply BitVec.eq_of_toNat_eq; omega)

theorem absBv_eq (n : Nat) (x : BitVec n) : absBv n x = BitVec.ofNat n x.toInt.natAbs := by
  unfold absBv
  rcases n with _ | n
  · exact Subsingleton.elim _ _
  · have hp : 0 < 2 ^ (n + 1) := Nat.two_pow_pos _
    have hx := x.isLt
    rw [BitVec.msb_eq_decide]
    simp only [Nat.add_sub_cancel, decide_eq_true_eq]
    apply BitVec.eq_of_toNat_eq
    rw [BitVec.toInt_eq_toNat_cond]
    rw [Nat.pow_succ] at *
    split
    · rw [if_neg (by omega), BitVec.toNat_neg, BitVec.toNat_ofNat, Nat.pow_succ]
      congr 1; omega
    · rw [if_pos (by omega), BitVec.toNat_ofNat, Nat.pow_succ, Int.natAbs_natCast, Nat.mod_eq_of_lt hx]

theorem shlBv_eq (n : Nat) (x : BitVec n) (k : Nat) :
    shlBv n x k = if n ≤ k then 0 else BitVec.ofNat n (x.toNat * 2 ^ k) := by
  unfold shlBv
  split
  · rfl
  · apply BitVec.eq_of_toNat_eq; simp [Nat.shiftLeft_eq]

theorem shrBv_eq (n : Nat) (x : BitVec n) (k : Nat) :
    shrBv n x k = if n ≤ k then 0 else BitVec.ofNat n (x.toNat / 2 ^ k) := by
  unfold shrBv
  split
  · rfl
  · apply BitVec.eq_of_toNat_eq
    rw [BitVec.toNat_ushiftRight, Nat.shiftRight_eq_div_pow, BitVec.toNat_ofNat, Nat.mod_eq_of_lt]
    exact Nat.lt_of_le_of_lt (Nat.div_le_self _ _) x.isLt

theorem sarBv_eq (n : Nat) (x : BitVec n) (k : Nat) :
    sarBv n x k = if n ≤ k then BitVec.ofInt n (if x.toInt < 0 then -1 else 0) else BitVec.ofInt n (x.toInt / 2 ^ k) := by
  unfold sarBv
  rw [BitVec.msb_eq_toInt]
  simp only [decide_eq_true_eq]
  split
  · split
    · apply BitVec.eq_of_toNat_eq
      rw [BitVec.toNat_allOnes, BitVec.toNat_ofInt]
      have hp : (0 : Int) < 2 ^ n := by positivity
      have : (-1 : Int) % ((2 ^ n : Nat) : Int) = 2 ^ n - 1 := by
        push_cast
        rw [show (-1 : Int) = (2 ^ n - 1) + 2 ^ n * (-1) by ring, Int.add_mul_emod_self_left,
          Int.emod_eq_of_lt (by omega) (by omega)]
      rw [this]
      have : ((2 ^ n : Nat) : Int) = 2 ^ n := by push_cast; rfl
      omega
    · simp
  · rw [BitVec.sshiftRight, Int.shiftRight_eq_div_pow]; push_cast; rfl

theorem rotBv_eq (n : Nat) (x : BitVec n) (k : Nat) (h : 0 < n) :
    rotBv n x k = BitVec.ofNat n (x.toNat * 2 ^ (k % n) + x.toNat / 2 ^ (n - k % n)) := by
  have hm : k % n < n := Nat.mod_lt _ h
  unfold rotBv
  generalize k % n = m at hm
  have hn : 2 ^ n = 2 ^ (n - m) * 2 ^ m := by rw [← Nat.pow_add]; congr 1; omega
  have hx := x.isLt
  have hd : x.toNat / 2 ^ (n - m) < 2 ^ m := by
    rw [Nat.div_lt_iff_lt_mul (Nat.two_pow_pos _), Nat.mul_comm, ← hn]; exact hx
  have hr : x.toNat % 2 ^ (n - m) < 2 ^ (n - m) := Nat.mod_lt _ (Nat.two_pow_pos _)
  have hl : x.toNat * 2 ^ m % 2 ^ n = x.toNat % 2 ^ (n - m) * 2 ^ m := by rw [hn, Nat.mul_mod_mul_right]
  have hs : x.toNat % 2 ^ (n - m) * 2 ^ m + x.toNat / 2 ^ (n - m) < 2 ^ n := by
    have : (x.toNat % 2 ^ (n - m) + 1) * 2 ^ m ≤ 2 ^ (n - m) * 2 ^ m := Nat.mul_le_mul_right _ hr
    rw [Nat.add_mul] at this
    omega
  apply BitVec.eq_of_toNat_eq
  rw [BitVec.toNat_or, BitVec.toNat_shiftLeft, BitVec.toNat_ushiftRight, BitVec.toNat_ofNat, Nat.shiftLeft_eq,
    Nat.shiftRight_eq_div_pow, hl, Nat.add_mod, hl, Nat.mod_eq_of_lt (a := x.toNat / _) (by omega), Nat.mod_eq_of_lt hs,
    ← Nat.shiftLeft_eq, Nat.shiftLeft_add_eq_or_of_lt hd]

/-- Signed extension of the low k bits. -/
theorem sextNat_of_lt {y k : Nat} (h : y < 2 ^ k) :
    sextNat y k = if 0 < k ∧ 2 ^ (k - 1) ≤ y then (y : Int) - 2 ^ k else y := by
  simp only [sextNat, Nat.mod_eq_of_lt h, Nat.pos_iff_ne_zero, ne_eq]

theorem bfxBv_eq (n : Nat) (sgn : Bool) (p k : Nat) (x : BitVec n) :
    bfxBv n sgn p k x =
      let y := x.toNat / 2 ^ p % 2 ^ k
      if sgn ∧ 0 < k ∧ 2 ^ (k - 1) ≤ y then BitVec.ofInt n ((y : Int) - 2 ^ k) else BitVec.ofNat n y := by
  have hlt : x.toNat / 2 ^ p % 2 ^ k < 2 ^ k := Nat.mod_lt _ (Nat.two_pow_pos _)
  simp only [bfxBv, Nat.shiftRight_eq_div_pow, sextTo, sextNat_of_lt hlt]
  cases sgn <;> simp
  split <;> rfl

theorem bfiBv_getLsbD (n p k : Nat) (x y : BitVec n) (i : Nat) (h : i < n) :
    (bfiBv n p k x y).getLsbD i = if p ≤ i ∧ i < p + k then x.getLsbD (i - p) else y.getLsbD i := by
  have hm : ((2 ^ k - 1) * 2 ^ p).testBit i = (decide (p ≤ i) && decide (i < p + k)) := by
    rw [← Nat.shiftLeft_eq, Nat.testBit_shiftLeft, Nat.testBit_two_pow_sub_one]
    by_cases hp : p ≤ i
    · simp [hp]; omega
    · simp [hp]
  have hx : (x.toNat * 2 ^ p).testBit i = (decide (p ≤ i) && x.getLsbD (i - p)) := by
    rw [← Nat.shiftLeft_eq, Nat.testBit_shiftLeft]; rfl
  simp only [bfiBv, BitVec.getLsbD_or, BitVec.getLsbD_and, BitVec.getLsbD_not, BitVec.getLsbD_ofNat, h, decide_true,
    Bool.true_and, hm, hx]
  by_cases hp : p ≤ i <;> by_cases hk : i < p + k <;> simp [hp, hk]

theorem prmtByte_eq (a b : Word) (sel : Nat) :
    prmtByte a b sel =
      let x := (if sel % 8 < 4 then a.toNat else b.toNat) / 2 ^ (8 * (sel % 4)) % 256
      if 8 ≤ sel then (if 128 ≤ x then 255 else 0) else x := by
  have ha := a.isLt
  have hv : (pair64 a b).toNat = b.toNat * 2 ^ 32 + a.toNat := by
    unfold pair64
    rw [BitVec.toNat_append, ← Nat.shiftLeft_add_eq_or_of_lt ha, Nat.shiftLeft_eq]
  have hb : fld (pair64 a b) (8 * (sel % 8)) 8 = (if sel % 8 < 4 then a.toNat else b.toNat) / 2 ^ (8 * (sel % 4)) % 256 := by
    simp only [fld, Nat.shiftRight_eq_div_pow, hv]
    have h8 : sel % 8 < 8 := Nat.mod_lt _ (by decide)
    have h4 : sel % 4 = sel % 8 % 4 := by omega
    rw [h4]
    interval_cases sel % 8 <;> simp <;> omega
  simp only [prmtByte, hb]

theorem leaBv_eq (a : Dword) (b lit : Word) :
    leaBv a b lit =
      let x : Int := if bit lit 3 then b.toInt else b.toNat
      let disp : Int := if 2 ^ 23 ≤ lit.toNat / 256 then ((lit.toNat / 256 : Nat) : Int) - 2 ^ 24 else ((lit.toNat / 256 : Nat) : Int)
      BitVec.ofInt 64 (a.toNat + x * 2 ^ (lit.toNat % 8) + disp) := by
  have hl := lit.isLt
  have hf : fld lit 8 24 = lit.toNat / 256 := by simp only [fld, Nat.shiftRight_eq_div_pow]; omega
  have hd : sextNat (fld lit 8 24) 24 = if 2 ^ 23 ≤ lit.toNat / 256 then ((lit.toNat / 256 : Nat) : Int) - 2 ^ 24 else ((lit.toNat / 256 : Nat) : Int) := by
    rw [sextNat_of_lt (by rw [hf]; omega), hf]; simp
  have hs : fld lit 0 3 = lit.toNat % 8 := by simp [fld]
  have hx : (if bit lit 3 = true then b.signExtend 64 else b.setWidth 64 : Dword) =
      BitVec.ofInt 64 (if bit lit 3 = true then b.toInt else b.toNat) := by
    split
    · rfl
    · simp
  simp only [leaBv, hx, hs, sextTo, hd]
  have ht (m : Nat) : BitVec.ofInt 64 (2 ^ m) = BitVec.twoPow 64 m := by
    rw [show (2 : Int) ^ m = ((2 ^ m : Nat) : Int) by push_cast; rfl, BitVec.ofInt_natCast]
    apply BitVec.eq_of_toNat_eq
    simp [BitVec.toNat_twoPow]
  rw [BitVec.shiftLeft_eq_mul_twoPow, BitVec.ofInt_add, BitVec.ofInt_add, BitVec.ofInt_mul, ht]
  simp

theorem divsBv_eq (n : Nat) (x y : BitVec n) (h : 0 < n) :
    divsBv n x y = if y = 0 then BitVec.allOnes n
      else if x.toInt = -2 ^ (n - 1) ∧ y.toInt = -1 then x else BitVec.ofInt n (x.toInt.tdiv y.toInt) := by
  unfold divsBv
  split
  · rfl
  · split
    · next hxy =>
      rw [hxy.1, hxy.2, show (-1 : Int) = -(1 : Int) from rfl, Int.tdiv_neg, Int.tdiv_one, neg_neg]
      conv_rhs => rw [← BitVec.ofInt_toInt (x := x), hxy.1]
      apply BitVec.eq_of_toNat_eq
      have h2 : ((2 ^ n : Nat) : Int) = 2 * 2 ^ (n - 1) := by
        push_cast; rw [← pow_succ']; congr 1; omega
      rw [BitVec.toNat_ofInt, BitVec.toNat_ofInt, h2]
      generalize (2 : Int) ^ (n - 1) = q
      have e := Int.add_mul_emod_self_left (-q) (2 * q) 1
      rw [show -q + 2 * q * 1 = q by ring] at e
      rw [e]
    · rfl

theorem remsBv_eq (n : Nat) (x y : BitVec n) :
    remsBv n x y = if y = 0 then x
      else if x.toInt = -2 ^ (n - 1) ∧ y.toInt = -1 then 0 else BitVec.ofInt n (x.toInt - y.toInt * x.toInt.tdiv y.toInt) := by
  unfold remsBv
  split
  · rfl
  · split
    · next hxy => rw [hxy.2]; simp
    · rw [Int.tmod_def]

theorem remuBv_eq (n : Nat) (x y : BitVec n) :
    remuBv n x y = if y = 0 then x else BitVec.ofNat n (x.toNat - y.toNat * (x.toNat / y.toNat)) := by
  unfold remuBv
  rw [Nat.mod_eq_sub]

end Sys2Proof.Machine
end

