-- ==== Sys2Proof/Laws/SMap.lean ====
section
/-! SUPPORT. Laws/SMap.lean: reading after writing, and the canonical form kept by every operation on sparse maps. -/

namespace Sys2Proof.Machine.SMap

variable {α : Type}

@[simp] theorem get_nil (d : α) (k : Nat) : get d [] k = d := rfl

theorem get_insert (d : α) (m : SMap α) (k j : Nat) (v : α) : get d (insert m k v) j = if j = k then v else get d m j := by
  induction m with
  | nil => rfl
  | cons e m ih =>
    obtain ⟨k', v'⟩ := e
    simp only [insert]
    split
    · rfl
    · split
      · subst k'; simp only [get]; split <;> rfl
      · rename_i h
        simp only [get, ih]
        split <;> split <;> first | rfl | (exfalso; omega)

theorem get_erase (d : α) (m : SMap α) (k j : Nat) : get d (erase m k) j = if j = k then d else get d m j := by
  induction m with
  | nil => simp [erase]
  | cons e m ih =>
    obtain ⟨k', v'⟩ := e
    simp only [erase, List.filter_cons] at ih ⊢
    by_cases h : k' = k
    · simp only [h, bne_self_eq_false, Bool.false_eq_true, ↓reduceIte, ih, get]
      split <;> rfl
    · simp only [bne_iff_ne, ne_eq, h, not_false_eq_true, ↓reduceIte, get, ih]
      split <;> split <;> first | rfl | (exfalso; omega)

/-- Reading after writing one key. -/
theorem get_set [DecidableEq α] (d : α) (m : SMap α) (k j : Nat) (v : α) :
    get d (set d m k v) j = if j = k then v else get d m j := by
  unfold set
  split
  · rename_i h; rw [get_erase, h]
  · rw [get_insert]

@[simp] theorem get_set_self [DecidableEq α] (d : α) (m : SMap α) (k : Nat) (v : α) : get d (set d m k v) k = v := by simp [get_set]

theorem get_set_ne [DecidableEq α] (d : α) (m : SMap α) {k j : Nat} (v : α) (h : j ≠ k) : get d (set d m k v) j = get d m j := by
  simp [get_set, h]

theorem get_upd [DecidableEq α] (d : α) (m : SMap α) (k j : Nat) (f : α → α) :
    get d (upd d m k f) j = if j = k then f (get d m k) else get d m j := get_set ..

/-- A key that no pair names keeps its value. -/
theorem get_setAll_ne [DecidableEq α] (d : α) (ws : List (Nat × α)) (m : SMap α) (j : Nat) (h : ∀ w ∈ ws, w.1 ≠ j) :
    get d (setAll d m ws) j = get d m j := by
  induction ws generalizing m with
  | nil => rfl
  | cons w ws ih =>
    rw [setAll, ih _ fun x hx => h x (by simp [hx]), get_set_ne]
    exact (h w (by simp)).symm

/-- Pairs with distinct keys all read back. -/
theorem get_setAll_mem [DecidableEq α] (d : α) (ws : List (Nat × α)) (m : SMap α) (hn : (ws.map (·.1)).Nodup) (w : Nat × α) (h : w ∈ ws) :
    get d (setAll d m ws) w.1 = w.2 := by
  induction ws generalizing m with
  | nil => simp at h
  | cons x ws ih =>
    simp only [List.map_cons, List.nodup_cons, List.mem_map, not_exists, not_and] at hn
    rw [setAll]
    rcases List.mem_cons.1 h with rfl | h
    · rw [get_setAll_ne _ _ _ _ hn.1, get_set_self]
    · exact ih _ hn.2 h

/-! The canonical form. -/

theorem wf_nil [DecidableEq α] (d : α) : wf d ([] : SMap α) = true := rfl

theorem sorted_iff (m : SMap α) : sorted m = true ↔ m.Pairwise fun a b => a.1 < b.1 := by
  induction m with
  | nil => simp [sorted]
  | cons x m ih =>
    cases m with
    | nil => simp [sorted]
    | cons y m =>
      simp only [sorted, Bool.and_eq_true, decide_eq_true_eq, ih, List.pairwise_cons, List.mem_cons, forall_eq_or_imp]
      constructor
      · rintro ⟨h, h1, h2⟩
        exact ⟨⟨h, fun z hz => Nat.lt_trans h (h1 z hz)⟩, h1, h2⟩
      · rintro ⟨⟨h, _⟩, h1, h2⟩
        exact ⟨h, h1, h2⟩

theorem wf_iff [DecidableEq α] (d : α) (m : SMap α) : wf d m = true ↔ m.Pairwise (fun a b => a.1 < b.1) ∧ ∀ e ∈ m, e.2 ≠ d := by
  simp [wf, sorted_iff]

/-- Leaving entries out keeps the form. -/
theorem wf_filter [DecidableEq α] (d : α) (m : SMap α) (p : Nat × α → Bool) (h : wf d m = true) : wf d (m.filter p) = true := by
  rw [wf_iff] at *
  exact ⟨h.1.sublist List.filter_sublist, fun e he => h.2 e (List.mem_filter.1 he).1⟩

theorem mem_insert (m : SMap α) (k : Nat) (v : α) (e : Nat × α) (h : e ∈ insert m k v) : e = (k, v) ∨ e ∈ m := by
  induction m with
  | nil => simpa [insert] using h
  | cons x m ih =>
    obtain ⟨k', v'⟩ := x
    simp only [insert] at h
    split at h
    · simpa using h
    · split at h
      · rcases List.mem_cons.1 h with h | h
        · exact .inl h
        · exact .inr (by simp [h])
      · rcases List.mem_cons.1 h with h | h
        · exact .inr (by simp [h])
        · rcases ih h with h | h
          · exact .inl h
          · exact .inr (by simp [h])

theorem sorted_insert (m : SMap α) (k : Nat) (v : α) (h : m.Pairwise fun a b => a.1 < b.1) :
    (insert m k v).Pairwise fun a b => a.1 < b.1 := by
  induction m with
  | nil => simp [insert]
  | cons x m ih =>
    obtain ⟨k', v'⟩ := x
    rw [List.pairwise_cons] at h
    simp only [insert]
    split
    · rename_i hk
      refine List.pairwise_cons.2 ⟨fun e he => ?_, List.pairwise_cons.2 h⟩
      rcases List.mem_cons.1 he with rfl | he
      · exact hk
      · exact Nat.lt_trans hk (h.1 e he)
    · split
      · rename_i hk
        subst hk
        exact List.pairwise_cons.2 h
      · refine List.pairwise_cons.2 ⟨fun e he => ?_, ih h.2⟩
        rcases mem_insert m k v e he with rfl | he
        · show k' < k
          omega
        · exact h.1 e he

/-- A write keeps the form. -/
theorem wf_set [DecidableEq α] (d : α) (m : SMap α) (k : Nat) (v : α) (h : wf d m = true) : wf d (set d m k v) = true := by
  unfold set
  split
  · exact wf_filter d m _ h
  · rename_i hv
    rw [wf_iff] at *
    refine ⟨sorted_insert m k v h.1, fun e he => ?_⟩
    rcases mem_insert m k v e he with rfl | he
    · exact hv
    · exact h.2 e he

/-- Any number of writes keep the form. -/
theorem wf_setAll [DecidableEq α] (d : α) (ws : List (Nat × α)) (m : SMap α) (h : wf d m = true) : wf d (setAll d m ws) = true := by
  induction ws generalizing m with
  | nil => exact h
  | cons w ws ih => exact ih _ (wf_set d m w.1 w.2 h)

theorem get_lt (d : α) (m : SMap α) (k : Nat) (h : ∀ e ∈ m, k < e.1) : get d m k = d := by
  induction m with
  | nil => rfl
  | cons x m ih =>
    have := h x (by simp)
    rw [get, if_neg (by omega), ih fun e he => h e (by simp [he])]

/-- Equal contents in canonical form are equal data. -/
theorem ext_of_wf [DecidableEq α] (d : α) (m n : SMap α) (hm : wf d m = true) (hn : wf d n = true) (h : ∀ k, get d m k = get d n k) :
    m = n := by
  rw [wf_iff] at hm hn
  induction m generalizing n with
  | nil =>
    cases n with
    | nil => rfl
    | cons y n =>
      have := h y.1
      simp only [get, ↓reduceIte] at this
      exact absurd this.symm (hn.2 y (by simp))
  | cons x m ih =>
    cases n with
    | nil =>
      have := h x.1
      simp only [get, ↓reduceIte] at this
      exact absurd this (hm.2 x (by simp))
    | cons y n =>
      obtain ⟨hm1, hm2⟩ := hm
      obtain ⟨hn1, hn2⟩ := hn
      rw [List.pairwise_cons] at hm1 hn1
      have hk : x.1 = y.1 := by
        have h1 := h x.1
        have h2 := h y.1
        simp only [get, ↓reduceIte] at h1 h2
        by_contra hne
        rcases Nat.lt_or_gt_of_ne hne with hlt | hlt
        · rw [if_neg (by omega), get_lt d n x.1 fun e he => Nat.lt_trans hlt (hn1.1 e he)] at h1
          exact hm2 x (by simp) h1
        · rw [if_neg (by omega), get_lt d m y.1 fun e he => Nat.lt_trans hlt (hm1.1 e he)] at h2
          exact hn2 y (by simp) h2.symm
      have hv : x.2 = y.2 := by
        have h1 := h x.1
        simpa [get, hk] using h1
      have hxy : x = y := Prod.ext hk hv
      subst hxy
      congr 1
      refine ih n ⟨hm1.2, fun e he => hm2 e (by simp [he])⟩ ⟨hn1.2, fun e he => hn2 e (by simp [he])⟩ fun k => ?_
      have h1 := h k
      simp only [get] at h1
      split at h1
      · rename_i hkx
        rw [hkx, get_lt d m x.1 hm1.1, get_lt d n x.1 hn1.1]
      · exact h1

end Sys2Proof.Machine.SMap
end

