-- ==== Sys2Proof/Laws/State.lean ====
section
/-! SUPPORT. Laws/State.lean: each operation changes its own fields of the state and leaves every other one, one lemma
per operation and field. -/

namespace Sys2Proof.Machine

set_option Elab.async false

section
variable (f : Cord → Cord) (s : State)
@[simp] theorem State.mapCords_cycle : (State.mapCords f s).cycle = s.cycle := rfl
@[simp] theorem State.mapCords_fresh : (State.mapCords f s).fresh = s.fresh := rfl
@[simp] theorem State.mapCords_agenda : (State.mapCords f s).agenda = s.agenda := rfl
@[simp] theorem State.mapCords_now : (State.mapCords f s).now = s.now := rfl
@[simp] theorem State.mapCords_motif : (State.mapCords f s).motif = s.motif := rfl
@[simp] theorem State.mapCords_motifs : (State.mapCords f s).motifs = s.motifs := rfl
@[simp] theorem State.mapCords_cores : (State.mapCords f s).cores = s.cores := rfl
@[simp] theorem State.mapCords_mem : (State.mapCords f s).mem = s.mem := rfl
@[simp] theorem State.mapCords_backing : (State.mapCords f s).backing = s.backing := rfl
@[simp] theorem State.mapCords_l2 : (State.mapCords f s).l2 = s.l2 := rfl
@[simp] theorem State.mapCords_l2Count : (State.mapCords f s).l2Count = s.l2Count := rfl
@[simp] theorem State.mapCords_flushCtr : (State.mapCords f s).flushCtr = s.flushCtr := rfl
@[simp] theorem State.mapCords_owners : (State.mapCords f s).owners = s.owners := rfl
@[simp] theorem State.mapCords_losing : (State.mapCords f s).losing = s.losing := rfl
@[simp] theorem State.mapCords_lostLines : (State.mapCords f s).lostLines = s.lostLines := rfl
@[simp] theorem State.mapCords_sched : (State.mapCords f s).sched = s.sched := rfl
@[simp] theorem State.mapCords_pages : (State.mapCords f s).pages = s.pages := rfl
@[simp] theorem State.mapCords_spread : (State.mapCords f s).spread = s.spread := rfl
@[simp] theorem State.mapCords_ctxs : (State.mapCords f s).ctxs = s.ctxs := rfl
@[simp] theorem State.mapCords_picots : (State.mapCords f s).picots = s.picots := rfl
@[simp] theorem State.mapCords_queues : (State.mapCords f s).queues = s.queues := rfl
@[simp] theorem State.mapCords_patterns : (State.mapCords f s).patterns = s.patterns := rfl
@[simp] theorem State.mapCords_epochs : (State.mapCords f s).epochs = s.epochs := rfl
@[simp] theorem State.mapCords_peers : (State.mapCords f s).peers = s.peers := rfl
@[simp] theorem State.mapCords_recalls : (State.mapCords f s).recalls = s.recalls := rfl
@[simp] theorem State.mapCords_groups : (State.mapCords f s).groups = s.groups := rfl
@[simp] theorem State.mapCords_calls : (State.mapCords f s).calls = s.calls := rfl
@[simp] theorem State.mapCords_dev : (State.mapCords f s).dev = s.dev := rfl
@[simp] theorem State.mapCords_remote : (State.mapCords f s).remote = s.remote := rfl
@[simp] theorem State.mapCords_overflow : (State.mapCords f s).overflow = s.overflow := rfl
@[simp] theorem State.mapCords_defining : (State.mapCords f s).defining = s.defining := rfl
@[simp] theorem State.mapCords_asked : (State.mapCords f s).asked = s.asked := rfl
@[simp] theorem State.mapCords_outbox : (State.mapCords f s).outbox = s.outbox := rfl
@[simp] theorem State.mapCords_needle : (State.mapCords f s).needle = s.needle := rfl
@[simp] theorem State.mapCords_breaks : (State.mapCords f s).breaks = s.breaks := rfl
@[simp] theorem State.mapCords_succs : (State.mapCords f s).succs = s.succs := rfl
@[simp] theorem State.mapCords_rrQueue : (State.mapCords f s).rrQueue = s.rrQueue := rfl
@[simp] theorem State.mapCords_rrPattern : (State.mapCords f s).rrPattern = s.rrPattern := rfl
@[simp] theorem State.mapCords_rrCore : (State.mapCords f s).rrCore = s.rrCore := rfl
@[simp] theorem State.mapCords_counted : (State.mapCords f s).counted = s.counted := rfl
@[simp] theorem State.mapCords_knotAt : (State.mapCords f s).knotAt = s.knotAt := rfl
@[simp] theorem State.mapCords_lastPath : (State.mapCords f s).lastPath = s.lastPath := rfl
end

section
variable (c : Nat) (f : Cord → Cord) (s : State)
@[simp] theorem State.onCord_cycle : (State.onCord c f s).cycle = s.cycle := rfl
@[simp] theorem State.onCord_fresh : (State.onCord c f s).fresh = s.fresh := rfl
@[simp] theorem State.onCord_agenda : (State.onCord c f s).agenda = s.agenda := rfl
@[simp] theorem State.onCord_now : (State.onCord c f s).now = s.now := rfl
@[simp] theorem State.onCord_motif : (State.onCord c f s).motif = s.motif := rfl
@[simp] theorem State.onCord_motifs : (State.onCord c f s).motifs = s.motifs := rfl
@[simp] theorem State.onCord_cores : (State.onCord c f s).cores = s.cores := rfl
@[simp] theorem State.onCord_mem : (State.onCord c f s).mem = s.mem := rfl
@[simp] theorem State.onCord_backing : (State.onCord c f s).backing = s.backing := rfl
@[simp] theorem State.onCord_l2 : (State.onCord c f s).l2 = s.l2 := rfl
@[simp] theorem State.onCord_l2Count : (State.onCord c f s).l2Count = s.l2Count := rfl
@[simp] theorem State.onCord_flushCtr : (State.onCord c f s).flushCtr = s.flushCtr := rfl
@[simp] theorem State.onCord_owners : (State.onCord c f s).owners = s.owners := rfl
@[simp] theorem State.onCord_losing : (State.onCord c f s).losing = s.losing := rfl
@[simp] theorem State.onCord_lostLines : (State.onCord c f s).lostLines = s.lostLines := rfl
@[simp] theorem State.onCord_sched : (State.onCord c f s).sched = s.sched := rfl
@[simp] theorem State.onCord_pages : (State.onCord c f s).pages = s.pages := rfl
@[simp] theorem State.onCord_spread : (State.onCord c f s).spread = s.spread := rfl
@[simp] theorem State.onCord_ctxs : (State.onCord c f s).ctxs = s.ctxs := rfl
@[simp] theorem State.onCord_picots : (State.onCord c f s).picots = s.picots := rfl
@[simp] theorem State.onCord_queues : (State.onCord c f s).queues = s.queues := rfl
@[simp] theorem State.onCord_patterns : (State.onCord c f s).patterns = s.patterns := rfl
@[simp] theorem State.onCord_epochs : (State.onCord c f s).epochs = s.epochs := rfl
@[simp] theorem State.onCord_peers : (State.onCord c f s).peers = s.peers := rfl
@[simp] theorem State.onCord_recalls : (State.onCord c f s).recalls = s.recalls := rfl
@[simp] theorem State.onCord_groups : (State.onCord c f s).groups = s.groups := rfl
@[simp] theorem State.onCord_calls : (State.onCord c f s).calls = s.calls := rfl
@[simp] theorem State.onCord_dev : (State.onCord c f s).dev = s.dev := rfl
@[simp] theorem State.onCord_remote : (State.onCord c f s).remote = s.remote := rfl
@[simp] theorem State.onCord_overflow : (State.onCord c f s).overflow = s.overflow := rfl
@[simp] theorem State.onCord_defining : (State.onCord c f s).defining = s.defining := rfl
@[simp] theorem State.onCord_asked : (State.onCord c f s).asked = s.asked := rfl
@[simp] theorem State.onCord_outbox : (State.onCord c f s).outbox = s.outbox := rfl
@[simp] theorem State.onCord_needle : (State.onCord c f s).needle = s.needle := rfl
@[simp] theorem State.onCord_breaks : (State.onCord c f s).breaks = s.breaks := rfl
@[simp] theorem State.onCord_succs : (State.onCord c f s).succs = s.succs := rfl
@[simp] theorem State.onCord_rrQueue : (State.onCord c f s).rrQueue = s.rrQueue := rfl
@[simp] theorem State.onCord_rrPattern : (State.onCord c f s).rrPattern = s.rrPattern := rfl
@[simp] theorem State.onCord_rrCore : (State.onCord c f s).rrCore = s.rrCore := rfl
@[simp] theorem State.onCord_counted : (State.onCord c f s).counted = s.counted := rfl
@[simp] theorem State.onCord_knotAt : (State.onCord c f s).knotAt = s.knotAt := rfl
@[simp] theorem State.onCord_lastPath : (State.onCord c f s).lastPath = s.lastPath := rfl
end

section
variable (f : Cord → Cord) (s : State)
@[simp] theorem State.onSelf_cycle : (State.onSelf f s).cycle = s.cycle := rfl
@[simp] theorem State.onSelf_fresh : (State.onSelf f s).fresh = s.fresh := rfl
@[simp] theorem State.onSelf_agenda : (State.onSelf f s).agenda = s.agenda := rfl
@[simp] theorem State.onSelf_now : (State.onSelf f s).now = s.now := rfl
@[simp] theorem State.onSelf_cords : (State.onSelf f s).cords = s.cords := rfl
@[simp] theorem State.onSelf_motif : (State.onSelf f s).motif = s.motif := rfl
@[simp] theorem State.onSelf_motifs : (State.onSelf f s).motifs = s.motifs := rfl
@[simp] theorem State.onSelf_cores : (State.onSelf f s).cores = s.cores := rfl
@[simp] theorem State.onSelf_mem : (State.onSelf f s).mem = s.mem := rfl
@[simp] theorem State.onSelf_backing : (State.onSelf f s).backing = s.backing := rfl
@[simp] theorem State.onSelf_l2 : (State.onSelf f s).l2 = s.l2 := rfl
@[simp] theorem State.onSelf_l2Count : (State.onSelf f s).l2Count = s.l2Count := rfl
@[simp] theorem State.onSelf_flushCtr : (State.onSelf f s).flushCtr = s.flushCtr := rfl
@[simp] theorem State.onSelf_owners : (State.onSelf f s).owners = s.owners := rfl
@[simp] theorem State.onSelf_losing : (State.onSelf f s).losing = s.losing := rfl
@[simp] theorem State.onSelf_lostLines : (State.onSelf f s).lostLines = s.lostLines := rfl
@[simp] theorem State.onSelf_sched : (State.onSelf f s).sched = s.sched := rfl
@[simp] theorem State.onSelf_pages : (State.onSelf f s).pages = s.pages := rfl
@[simp] theorem State.onSelf_spread : (State.onSelf f s).spread = s.spread := rfl
@[simp] theorem State.onSelf_ctxs : (State.onSelf f s).ctxs = s.ctxs := rfl
@[simp] theorem State.onSelf_picots : (State.onSelf f s).picots = s.picots := rfl
@[simp] theorem State.onSelf_queues : (State.onSelf f s).queues = s.queues := rfl
@[simp] theorem State.onSelf_patterns : (State.onSelf f s).patterns = s.patterns := rfl
@[simp] theorem State.onSelf_epochs : (State.onSelf f s).epochs = s.epochs := rfl
@[simp] theorem State.onSelf_peers : (State.onSelf f s).peers = s.peers := rfl
@[simp] theorem State.onSelf_recalls : (State.onSelf f s).recalls = s.recalls := rfl
@[simp] theorem State.onSelf_groups : (State.onSelf f s).groups = s.groups := rfl
@[simp] theorem State.onSelf_calls : (State.onSelf f s).calls = s.calls := rfl
@[simp] theorem State.onSelf_dev : (State.onSelf f s).dev = s.dev := rfl
@[simp] theorem State.onSelf_remote : (State.onSelf f s).remote = s.remote := rfl
@[simp] theorem State.onSelf_overflow : (State.onSelf f s).overflow = s.overflow := rfl
@[simp] theorem State.onSelf_defining : (State.onSelf f s).defining = s.defining := rfl
@[simp] theorem State.onSelf_asked : (State.onSelf f s).asked = s.asked := rfl
@[simp] theorem State.onSelf_outbox : (State.onSelf f s).outbox = s.outbox := rfl
@[simp] theorem State.onSelf_needle : (State.onSelf f s).needle = s.needle := rfl
@[simp] theorem State.onSelf_breaks : (State.onSelf f s).breaks = s.breaks := rfl
@[simp] theorem State.onSelf_succs : (State.onSelf f s).succs = s.succs := rfl
@[simp] theorem State.onSelf_rrQueue : (State.onSelf f s).rrQueue = s.rrQueue := rfl
@[simp] theorem State.onSelf_rrPattern : (State.onSelf f s).rrPattern = s.rrPattern := rfl
@[simp] theorem State.onSelf_rrCore : (State.onSelf f s).rrCore = s.rrCore := rfl
@[simp] theorem State.onSelf_counted : (State.onSelf f s).counted = s.counted := rfl
@[simp] theorem State.onSelf_knotAt : (State.onSelf f s).knotAt = s.knotAt := rfl
@[simp] theorem State.onSelf_lastPath : (State.onSelf f s).lastPath = s.lastPath := rfl
end

section
variable (f : Motif → Motif) (s : State)
@[simp] theorem State.mapMotifs_cycle : (State.mapMotifs f s).cycle = s.cycle := rfl
@[simp] theorem State.mapMotifs_fresh : (State.mapMotifs f s).fresh = s.fresh := rfl
@[simp] theorem State.mapMotifs_agenda : (State.mapMotifs f s).agenda = s.agenda := rfl
@[simp] theorem State.mapMotifs_now : (State.mapMotifs f s).now = s.now := rfl
@[simp] theorem State.mapMotifs_cord : (State.mapMotifs f s).cord = s.cord := rfl
@[simp] theorem State.mapMotifs_cords : (State.mapMotifs f s).cords = s.cords := rfl
@[simp] theorem State.mapMotifs_cores : (State.mapMotifs f s).cores = s.cores := rfl
@[simp] theorem State.mapMotifs_mem : (State.mapMotifs f s).mem = s.mem := rfl
@[simp] theorem State.mapMotifs_backing : (State.mapMotifs f s).backing = s.backing := rfl
@[simp] theorem State.mapMotifs_l2 : (State.mapMotifs f s).l2 = s.l2 := rfl
@[simp] theorem State.mapMotifs_l2Count : (State.mapMotifs f s).l2Count = s.l2Count := rfl
@[simp] theorem State.mapMotifs_flushCtr : (State.mapMotifs f s).flushCtr = s.flushCtr := rfl
@[simp] theorem State.mapMotifs_owners : (State.mapMotifs f s).owners = s.owners := rfl
@[simp] theorem State.mapMotifs_losing : (State.mapMotifs f s).losing = s.losing := rfl
@[simp] theorem State.mapMotifs_lostLines : (State.mapMotifs f s).lostLines = s.lostLines := rfl
@[simp] theorem State.mapMotifs_sched : (State.mapMotifs f s).sched = s.sched := rfl
@[simp] theorem State.mapMotifs_pages : (State.mapMotifs f s).pages = s.pages := rfl
@[simp] theorem State.mapMotifs_spread : (State.mapMotifs f s).spread = s.spread := rfl
@[simp] theorem State.mapMotifs_ctxs : (State.mapMotifs f s).ctxs = s.ctxs := rfl
@[simp] theorem State.mapMotifs_picots : (State.mapMotifs f s).picots = s.picots := rfl
@[simp] theorem State.mapMotifs_queues : (State.mapMotifs f s).queues = s.queues := rfl
@[simp] theorem State.mapMotifs_patterns : (State.mapMotifs f s).patterns = s.patterns := rfl
@[simp] theorem State.mapMotifs_epochs : (State.mapMotifs f s).epochs = s.epochs := rfl
@[simp] theorem State.mapMotifs_peers : (State.mapMotifs f s).peers = s.peers := rfl
@[simp] theorem State.mapMotifs_recalls : (State.mapMotifs f s).recalls = s.recalls := rfl
@[simp] theorem State.mapMotifs_groups : (State.mapMotifs f s).groups = s.groups := rfl
@[simp] theorem State.mapMotifs_calls : (State.mapMotifs f s).calls = s.calls := rfl
@[simp] theorem State.mapMotifs_dev : (State.mapMotifs f s).dev = s.dev := rfl
@[simp] theorem State.mapMotifs_remote : (State.mapMotifs f s).remote = s.remote := rfl
@[simp] theorem State.mapMotifs_overflow : (State.mapMotifs f s).overflow = s.overflow := rfl
@[simp] theorem State.mapMotifs_defining : (State.mapMotifs f s).defining = s.defining := rfl
@[simp] theorem State.mapMotifs_asked : (State.mapMotifs f s).asked = s.asked := rfl
@[simp] theorem State.mapMotifs_outbox : (State.mapMotifs f s).outbox = s.outbox := rfl
@[simp] theorem State.mapMotifs_needle : (State.mapMotifs f s).needle = s.needle := rfl
@[simp] theorem State.mapMotifs_breaks : (State.mapMotifs f s).breaks = s.breaks := rfl
@[simp] theorem State.mapMotifs_succs : (State.mapMotifs f s).succs = s.succs := rfl
@[simp] theorem State.mapMotifs_rrQueue : (State.mapMotifs f s).rrQueue = s.rrQueue := rfl
@[simp] theorem State.mapMotifs_rrPattern : (State.mapMotifs f s).rrPattern = s.rrPattern := rfl
@[simp] theorem State.mapMotifs_rrCore : (State.mapMotifs f s).rrCore = s.rrCore := rfl
@[simp] theorem State.mapMotifs_counted : (State.mapMotifs f s).counted = s.counted := rfl
@[simp] theorem State.mapMotifs_knotAt : (State.mapMotifs f s).knotAt = s.knotAt := rfl
@[simp] theorem State.mapMotifs_lastPath : (State.mapMotifs f s).lastPath = s.lastPath := rfl
end

section
variable (m : Nat) (f : Motif → Motif) (s : State)
@[simp] theorem State.onMotif_cycle : (State.onMotif m f s).cycle = s.cycle := rfl
@[simp] theorem State.onMotif_fresh : (State.onMotif m f s).fresh = s.fresh := rfl
@[simp] theorem State.onMotif_agenda : (State.onMotif m f s).agenda = s.agenda := rfl
@[simp] theorem State.onMotif_now : (State.onMotif m f s).now = s.now := rfl
@[simp] theorem State.onMotif_cord : (State.onMotif m f s).cord = s.cord := rfl
@[simp] theorem State.onMotif_cords : (State.onMotif m f s).cords = s.cords := rfl
@[simp] theorem State.onMotif_cores : (State.onMotif m f s).cores = s.cores := rfl
@[simp] theorem State.onMotif_mem : (State.onMotif m f s).mem = s.mem := rfl
@[simp] theorem State.onMotif_backing : (State.onMotif m f s).backing = s.backing := rfl
@[simp] theorem State.onMotif_l2 : (State.onMotif m f s).l2 = s.l2 := rfl
@[simp] theorem State.onMotif_l2Count : (State.onMotif m f s).l2Count = s.l2Count := rfl
@[simp] theorem State.onMotif_flushCtr : (State.onMotif m f s).flushCtr = s.flushCtr := rfl
@[simp] theorem State.onMotif_owners : (State.onMotif m f s).owners = s.owners := rfl
@[simp] theorem State.onMotif_losing : (State.onMotif m f s).losing = s.losing := rfl
@[simp] theorem State.onMotif_lostLines : (State.onMotif m f s).lostLines = s.lostLines := rfl
@[simp] theorem State.onMotif_sched : (State.onMotif m f s).sched = s.sched := rfl
@[simp] theorem State.onMotif_pages : (State.onMotif m f s).pages = s.pages := rfl
@[simp] theorem State.onMotif_spread : (State.onMotif m f s).spread = s.spread := rfl
@[simp] theorem State.onMotif_ctxs : (State.onMotif m f s).ctxs = s.ctxs := rfl
@[simp] theorem State.onMotif_picots : (State.onMotif m f s).picots = s.picots := rfl
@[simp] theorem State.onMotif_queues : (State.onMotif m f s).queues = s.queues := rfl
@[simp] theorem State.onMotif_patterns : (State.onMotif m f s).patterns = s.patterns := rfl
@[simp] theorem State.onMotif_epochs : (State.onMotif m f s).epochs = s.epochs := rfl
@[simp] theorem State.onMotif_peers : (State.onMotif m f s).peers = s.peers := rfl
@[simp] theorem State.onMotif_recalls : (State.onMotif m f s).recalls = s.recalls := rfl
@[simp] theorem State.onMotif_groups : (State.onMotif m f s).groups = s.groups := rfl
@[simp] theorem State.onMotif_calls : (State.onMotif m f s).calls = s.calls := rfl
@[simp] theorem State.onMotif_dev : (State.onMotif m f s).dev = s.dev := rfl
@[simp] theorem State.onMotif_remote : (State.onMotif m f s).remote = s.remote := rfl
@[simp] theorem State.onMotif_overflow : (State.onMotif m f s).overflow = s.overflow := rfl
@[simp] theorem State.onMotif_defining : (State.onMotif m f s).defining = s.defining := rfl
@[simp] theorem State.onMotif_asked : (State.onMotif m f s).asked = s.asked := rfl
@[simp] theorem State.onMotif_outbox : (State.onMotif m f s).outbox = s.outbox := rfl
@[simp] theorem State.onMotif_needle : (State.onMotif m f s).needle = s.needle := rfl
@[simp] theorem State.onMotif_breaks : (State.onMotif m f s).breaks = s.breaks := rfl
@[simp] theorem State.onMotif_succs : (State.onMotif m f s).succs = s.succs := rfl
@[simp] theorem State.onMotif_rrQueue : (State.onMotif m f s).rrQueue = s.rrQueue := rfl
@[simp] theorem State.onMotif_rrPattern : (State.onMotif m f s).rrPattern = s.rrPattern := rfl
@[simp] theorem State.onMotif_rrCore : (State.onMotif m f s).rrCore = s.rrCore := rfl
@[simp] theorem State.onMotif_counted : (State.onMotif m f s).counted = s.counted := rfl
@[simp] theorem State.onMotif_knotAt : (State.onMotif m f s).knotAt = s.knotAt := rfl
@[simp] theorem State.onMotif_lastPath : (State.onMotif m f s).lastPath = s.lastPath := rfl
end

section
variable (k : Nat) (f : Core → Core) (s : State)
@[simp] theorem State.onCore_cycle : (State.onCore k f s).cycle = s.cycle := by unfold State.onCore; split <;> rfl
@[simp] theorem State.onCore_fresh : (State.onCore k f s).fresh = s.fresh := by unfold State.onCore; split <;> rfl
@[simp] theorem State.onCore_agenda : (State.onCore k f s).agenda = s.agenda := by unfold State.onCore; split <;> rfl
@[simp] theorem State.onCore_now : (State.onCore k f s).now = s.now := by unfold State.onCore; split <;> rfl
@[simp] theorem State.onCore_cord : (State.onCore k f s).cord = s.cord := by unfold State.onCore; split <;> rfl
@[simp] theorem State.onCore_cords : (State.onCore k f s).cords = s.cords := by unfold State.onCore; split <;> rfl
@[simp] theorem State.onCore_motif : (State.onCore k f s).motif = s.motif := by unfold State.onCore; split <;> rfl
@[simp] theorem State.onCore_motifs : (State.onCore k f s).motifs = s.motifs := by unfold State.onCore; split <;> rfl
@[simp] theorem State.onCore_mem : (State.onCore k f s).mem = s.mem := by unfold State.onCore; split <;> rfl
@[simp] theorem State.onCore_backing : (State.onCore k f s).backing = s.backing := by unfold State.onCore; split <;> rfl
@[simp] theorem State.onCore_l2 : (State.onCore k f s).l2 = s.l2 := by unfold State.onCore; split <;> rfl
@[simp] theorem State.onCore_l2Count : (State.onCore k f s).l2Count = s.l2Count := by unfold State.onCore; split <;> rfl
@[simp] theorem State.onCore_flushCtr : (State.onCore k f s).flushCtr = s.flushCtr := by unfold State.onCore; split <;> rfl
@[simp] theorem State.onCore_owners : (State.onCore k f s).owners = s.owners := by unfold State.onCore; split <;> rfl
@[simp] theorem State.onCore_losing : (State.onCore k f s).losing = s.losing := by unfold State.onCore; split <;> rfl
@[simp] theorem State.onCore_lostLines : (State.onCore k f s).lostLines = s.lostLines := by unfold State.onCore; split <;> rfl
@[simp] theorem State.onCore_sched : (State.onCore k f s).sched = s.sched := by unfold State.onCore; split <;> rfl
@[simp] theorem State.onCore_pages : (State.onCore k f s).pages = s.pages := by unfold State.onCore; split <;> rfl
@[simp] theorem State.onCore_spread : (State.onCore k f s).spread = s.spread := by unfold State.onCore; split <;> rfl
@[simp] theorem State.onCore_ctxs : (State.onCore k f s).ctxs = s.ctxs := by unfold State.onCore; split <;> rfl
@[simp] theorem State.onCore_picots : (State.onCore k f s).picots = s.picots := by unfold State.onCore; split <;> rfl
@[simp] theorem State.onCore_queues : (State.onCore k f s).queues = s.queues := by unfold State.onCore; split <;> rfl
@[simp] theorem State.onCore_patterns : (State.onCore k f s).patterns = s.patterns := by unfold State.onCore; split <;> rfl
@[simp] theorem State.onCore_epochs : (State.onCore k f s).epochs = s.epochs := by unfold State.onCore; split <;> rfl
@[simp] theorem State.onCore_peers : (State.onCore k f s).peers = s.peers := by unfold State.onCore; split <;> rfl
@[simp] theorem State.onCore_recalls : (State.onCore k f s).recalls = s.recalls := by unfold State.onCore; split <;> rfl
@[simp] theorem State.onCore_groups : (State.onCore k f s).groups = s.groups := by unfold State.onCore; split <;> rfl
@[simp] theorem State.onCore_calls : (State.onCore k f s).calls = s.calls := by unfold State.onCore; split <;> rfl
@[simp] theorem State.onCore_dev : (State.onCore k f s).dev = s.dev := by unfold State.onCore; split <;> rfl
@[simp] theorem State.onCore_remote : (State.onCore k f s).remote = s.remote := by unfold State.onCore; split <;> rfl
@[simp] theorem State.onCore_overflow : (State.onCore k f s).overflow = s.overflow := by unfold State.onCore; split <;> rfl
@[simp] theorem State.onCore_defining : (State.onCore k f s).defining = s.defining := by unfold State.onCore; split <;> rfl
@[simp] theorem State.onCore_asked : (State.onCore k f s).asked = s.asked := by unfold State.onCore; split <;> rfl
@[simp] theorem State.onCore_outbox : (State.onCore k f s).outbox = s.outbox := by unfold State.onCore; split <;> rfl
@[simp] theorem State.onCore_needle : (State.onCore k f s).needle = s.needle := by unfold State.onCore; split <;> rfl
@[simp] theorem State.onCore_breaks : (State.onCore k f s).breaks = s.breaks := by unfold State.onCore; split <;> rfl
@[simp] theorem State.onCore_succs : (State.onCore k f s).succs = s.succs := by unfold State.onCore; split <;> rfl
@[simp] theorem State.onCore_rrQueue : (State.onCore k f s).rrQueue = s.rrQueue := by unfold State.onCore; split <;> rfl
@[simp] theorem State.onCore_rrPattern : (State.onCore k f s).rrPattern = s.rrPattern := by unfold State.onCore; split <;> rfl
@[simp] theorem State.onCore_rrCore : (State.onCore k f s).rrCore = s.rrCore := by unfold State.onCore; split <;> rfl
@[simp] theorem State.onCore_counted : (State.onCore k f s).counted = s.counted := by unfold State.onCore; split <;> rfl
@[simp] theorem State.onCore_knotAt : (State.onCore k f s).knotAt = s.knotAt := by unfold State.onCore; split <;> rfl
@[simp] theorem State.onCore_lastPath : (State.onCore k f s).lastPath = s.lastPath := by unfold State.onCore; split <;> rfl
end

section
variable (i : Nat) (f : Ctx → Ctx) (s : State)
@[simp] theorem State.onCtx_cycle : (State.onCtx i f s).cycle = s.cycle := by unfold State.onCtx; split <;> rfl
@[simp] theorem State.onCtx_fresh : (State.onCtx i f s).fresh = s.fresh := by unfold State.onCtx; split <;> rfl
@[simp] theorem State.onCtx_agenda : (State.onCtx i f s).agenda = s.agenda := by unfold State.onCtx; split <;> rfl
@[simp] theorem State.onCtx_now : (State.onCtx i f s).now = s.now := by unfold State.onCtx; split <;> rfl
@[simp] theorem State.onCtx_cord : (State.onCtx i f s).cord = s.cord := by unfold State.onCtx; split <;> rfl
@[simp] theorem State.onCtx_cords : (State.onCtx i f s).cords = s.cords := by unfold State.onCtx; split <;> rfl
@[simp] theorem State.onCtx_motif : (State.onCtx i f s).motif = s.motif := by unfold State.onCtx; split <;> rfl
@[simp] theorem State.onCtx_motifs : (State.onCtx i f s).motifs = s.motifs := by unfold State.onCtx; split <;> rfl
@[simp] theorem State.onCtx_cores : (State.onCtx i f s).cores = s.cores := by unfold State.onCtx; split <;> rfl
@[simp] theorem State.onCtx_mem : (State.onCtx i f s).mem = s.mem := by unfold State.onCtx; split <;> rfl
@[simp] theorem State.onCtx_backing : (State.onCtx i f s).backing = s.backing := by unfold State.onCtx; split <;> rfl
@[simp] theorem State.onCtx_l2 : (State.onCtx i f s).l2 = s.l2 := by unfold State.onCtx; split <;> rfl
@[simp] theorem State.onCtx_l2Count : (State.onCtx i f s).l2Count = s.l2Count := by unfold State.onCtx; split <;> rfl
@[simp] theorem State.onCtx_flushCtr : (State.onCtx i f s).flushCtr = s.flushCtr := by unfold State.onCtx; split <;> rfl
@[simp] theorem State.onCtx_owners : (State.onCtx i f s).owners = s.owners := by unfold State.onCtx; split <;> rfl
@[simp] theorem State.onCtx_losing : (State.onCtx i f s).losing = s.losing := by unfold State.onCtx; split <;> rfl
@[simp] theorem State.onCtx_lostLines : (State.onCtx i f s).lostLines = s.lostLines := by unfold State.onCtx; split <;> rfl
@[simp] theorem State.onCtx_sched : (State.onCtx i f s).sched = s.sched := by unfold State.onCtx; split <;> rfl
@[simp] theorem State.onCtx_pages : (State.onCtx i f s).pages = s.pages := by unfold State.onCtx; split <;> rfl
@[simp] theorem State.onCtx_spread : (State.onCtx i f s).spread = s.spread := by unfold State.onCtx; split <;> rfl
@[simp] theorem State.onCtx_picots : (State.onCtx i f s).picots = s.picots := by unfold State.onCtx; split <;> rfl
@[simp] theorem State.onCtx_queues : (State.onCtx i f s).queues = s.queues := by unfold State.onCtx; split <;> rfl
@[simp] theorem State.onCtx_patterns : (State.onCtx i f s).patterns = s.patterns := by unfold State.onCtx; split <;> rfl
@[simp] theorem State.onCtx_epochs : (State.onCtx i f s).epochs = s.epochs := by unfold State.onCtx; split <;> rfl
@[simp] theorem State.onCtx_peers : (State.onCtx i f s).peers = s.peers := by unfold State.onCtx; split <;> rfl
@[simp] theorem State.onCtx_recalls : (State.onCtx i f s).recalls = s.recalls := by unfold State.onCtx; split <;> rfl
@[simp] theorem State.onCtx_groups : (State.onCtx i f s).groups = s.groups := by unfold State.onCtx; split <;> rfl
@[simp] theorem State.onCtx_calls : (State.onCtx i f s).calls = s.calls := by unfold State.onCtx; split <;> rfl
@[simp] theorem State.onCtx_dev : (State.onCtx i f s).dev = s.dev := by unfold State.onCtx; split <;> rfl
@[simp] theorem State.onCtx_remote : (State.onCtx i f s).remote = s.remote := by unfold State.onCtx; split <;> rfl
@[simp] theorem State.onCtx_overflow : (State.onCtx i f s).overflow = s.overflow := by unfold State.onCtx; split <;> rfl
@[simp] theorem State.onCtx_defining : (State.onCtx i f s).defining = s.defining := by unfold State.onCtx; split <;> rfl
@[simp] theorem State.onCtx_asked : (State.onCtx i f s).asked = s.asked := by unfold State.onCtx; split <;> rfl
@[simp] theorem State.onCtx_outbox : (State.onCtx i f s).outbox = s.outbox := by unfold State.onCtx; split <;> rfl
@[simp] theorem State.onCtx_needle : (State.onCtx i f s).needle = s.needle := by unfold State.onCtx; split <;> rfl
@[simp] theorem State.onCtx_breaks : (State.onCtx i f s).breaks = s.breaks := by unfold State.onCtx; split <;> rfl
@[simp] theorem State.onCtx_succs : (State.onCtx i f s).succs = s.succs := by unfold State.onCtx; split <;> rfl
@[simp] theorem State.onCtx_rrQueue : (State.onCtx i f s).rrQueue = s.rrQueue := by unfold State.onCtx; split <;> rfl
@[simp] theorem State.onCtx_rrPattern : (State.onCtx i f s).rrPattern = s.rrPattern := by unfold State.onCtx; split <;> rfl
@[simp] theorem State.onCtx_rrCore : (State.onCtx i f s).rrCore = s.rrCore := by unfold State.onCtx; split <;> rfl
@[simp] theorem State.onCtx_counted : (State.onCtx i f s).counted = s.counted := by unfold State.onCtx; split <;> rfl
@[simp] theorem State.onCtx_knotAt : (State.onCtx i f s).knotAt = s.knotAt := by unfold State.onCtx; split <;> rfl
@[simp] theorem State.onCtx_lastPath : (State.onCtx i f s).lastPath = s.lastPath := by unfold State.onCtx; split <;> rfl
end

section
variable (cl : Nat) (f : Picot → Picot) (s : State)
@[simp] theorem State.onPicot_cycle : (State.onPicot cl f s).cycle = s.cycle := by unfold State.onPicot; split <;> rfl
@[simp] theorem State.onPicot_fresh : (State.onPicot cl f s).fresh = s.fresh := by unfold State.onPicot; split <;> rfl
@[simp] theorem State.onPicot_agenda : (State.onPicot cl f s).agenda = s.agenda := by unfold State.onPicot; split <;> rfl
@[simp] theorem State.onPicot_now : (State.onPicot cl f s).now = s.now := by unfold State.onPicot; split <;> rfl
@[simp] theorem State.onPicot_cord : (State.onPicot cl f s).cord = s.cord := by unfold State.onPicot; split <;> rfl
@[simp] theorem State.onPicot_cords : (State.onPicot cl f s).cords = s.cords := by unfold State.onPicot; split <;> rfl
@[simp] theorem State.onPicot_motif : (State.onPicot cl f s).motif = s.motif := by unfold State.onPicot; split <;> rfl
@[simp] theorem State.onPicot_motifs : (State.onPicot cl f s).motifs = s.motifs := by unfold State.onPicot; split <;> rfl
@[simp] theorem State.onPicot_cores : (State.onPicot cl f s).cores = s.cores := by unfold State.onPicot; split <;> rfl
@[simp] theorem State.onPicot_mem : (State.onPicot cl f s).mem = s.mem := by unfold State.onPicot; split <;> rfl
@[simp] theorem State.onPicot_backing : (State.onPicot cl f s).backing = s.backing := by unfold State.onPicot; split <;> rfl
@[simp] theorem State.onPicot_l2 : (State.onPicot cl f s).l2 = s.l2 := by unfold State.onPicot; split <;> rfl
@[simp] theorem State.onPicot_l2Count : (State.onPicot cl f s).l2Count = s.l2Count := by unfold State.onPicot; split <;> rfl
@[simp] theorem State.onPicot_flushCtr : (State.onPicot cl f s).flushCtr = s.flushCtr := by unfold State.onPicot; split <;> rfl
@[simp] theorem State.onPicot_owners : (State.onPicot cl f s).owners = s.owners := by unfold State.onPicot; split <;> rfl
@[simp] theorem State.onPicot_losing : (State.onPicot cl f s).losing = s.losing := by unfold State.onPicot; split <;> rfl
@[simp] theorem State.onPicot_lostLines : (State.onPicot cl f s).lostLines = s.lostLines := by unfold State.onPicot; split <;> rfl
@[simp] theorem State.onPicot_sched : (State.onPicot cl f s).sched = s.sched := by unfold State.onPicot; split <;> rfl
@[simp] theorem State.onPicot_pages : (State.onPicot cl f s).pages = s.pages := by unfold State.onPicot; split <;> rfl
@[simp] theorem State.onPicot_spread : (State.onPicot cl f s).spread = s.spread := by unfold State.onPicot; split <;> rfl
@[simp] theorem State.onPicot_ctxs : (State.onPicot cl f s).ctxs = s.ctxs := by unfold State.onPicot; split <;> rfl
@[simp] theorem State.onPicot_queues : (State.onPicot cl f s).queues = s.queues := by unfold State.onPicot; split <;> rfl
@[simp] theorem State.onPicot_patterns : (State.onPicot cl f s).patterns = s.patterns := by unfold State.onPicot; split <;> rfl
@[simp] theorem State.onPicot_epochs : (State.onPicot cl f s).epochs = s.epochs := by unfold State.onPicot; split <;> rfl
@[simp] theorem State.onPicot_peers : (State.onPicot cl f s).peers = s.peers := by unfold State.onPicot; split <;> rfl
@[simp] theorem State.onPicot_recalls : (State.onPicot cl f s).recalls = s.recalls := by unfold State.onPicot; split <;> rfl
@[simp] theorem State.onPicot_groups : (State.onPicot cl f s).groups = s.groups := by unfold State.onPicot; split <;> rfl
@[simp] theorem State.onPicot_calls : (State.onPicot cl f s).calls = s.calls := by unfold State.onPicot; split <;> rfl
@[simp] theorem State.onPicot_dev : (State.onPicot cl f s).dev = s.dev := by unfold State.onPicot; split <;> rfl
@[simp] theorem State.onPicot_remote : (State.onPicot cl f s).remote = s.remote := by unfold State.onPicot; split <;> rfl
@[simp] theorem State.onPicot_overflow : (State.onPicot cl f s).overflow = s.overflow := by unfold State.onPicot; split <;> rfl
@[simp] theorem State.onPicot_defining : (State.onPicot cl f s).defining = s.defining := by unfold State.onPicot; split <;> rfl
@[simp] theorem State.onPicot_asked : (State.onPicot cl f s).asked = s.asked := by unfold State.onPicot; split <;> rfl
@[simp] theorem State.onPicot_outbox : (State.onPicot cl f s).outbox = s.outbox := by unfold State.onPicot; split <;> rfl
@[simp] theorem State.onPicot_needle : (State.onPicot cl f s).needle = s.needle := by unfold State.onPicot; split <;> rfl
@[simp] theorem State.onPicot_breaks : (State.onPicot cl f s).breaks = s.breaks := by unfold State.onPicot; split <;> rfl
@[simp] theorem State.onPicot_succs : (State.onPicot cl f s).succs = s.succs := by unfold State.onPicot; split <;> rfl
@[simp] theorem State.onPicot_rrQueue : (State.onPicot cl f s).rrQueue = s.rrQueue := by unfold State.onPicot; split <;> rfl
@[simp] theorem State.onPicot_rrPattern : (State.onPicot cl f s).rrPattern = s.rrPattern := by unfold State.onPicot; split <;> rfl
@[simp] theorem State.onPicot_rrCore : (State.onPicot cl f s).rrCore = s.rrCore := by unfold State.onPicot; split <;> rfl
@[simp] theorem State.onPicot_counted : (State.onPicot cl f s).counted = s.counted := by unfold State.onPicot; split <;> rfl
@[simp] theorem State.onPicot_knotAt : (State.onPicot cl f s).knotAt = s.knotAt := by unfold State.onPicot; split <;> rfl
@[simp] theorem State.onPicot_lastPath : (State.onPicot cl f s).lastPath = s.lastPath := by unfold State.onPicot; split <;> rfl
end

section
variable (q : Nat) (f : Pattern → Pattern) (s : State)
@[simp] theorem State.onPattern_cycle : (State.onPattern q f s).cycle = s.cycle := rfl
@[simp] theorem State.onPattern_fresh : (State.onPattern q f s).fresh = s.fresh := rfl
@[simp] theorem State.onPattern_agenda : (State.onPattern q f s).agenda = s.agenda := rfl
@[simp] theorem State.onPattern_now : (State.onPattern q f s).now = s.now := rfl
@[simp] theorem State.onPattern_cord : (State.onPattern q f s).cord = s.cord := rfl
@[simp] theorem State.onPattern_cords : (State.onPattern q f s).cords = s.cords := rfl
@[simp] theorem State.onPattern_motif : (State.onPattern q f s).motif = s.motif := rfl
@[simp] theorem State.onPattern_motifs : (State.onPattern q f s).motifs = s.motifs := rfl
@[simp] theorem State.onPattern_cores : (State.onPattern q f s).cores = s.cores := rfl
@[simp] theorem State.onPattern_mem : (State.onPattern q f s).mem = s.mem := rfl
@[simp] theorem State.onPattern_backing : (State.onPattern q f s).backing = s.backing := rfl
@[simp] theorem State.onPattern_l2 : (State.onPattern q f s).l2 = s.l2 := rfl
@[simp] theorem State.onPattern_l2Count : (State.onPattern q f s).l2Count = s.l2Count := rfl
@[simp] theorem State.onPattern_flushCtr : (State.onPattern q f s).flushCtr = s.flushCtr := rfl
@[simp] theorem State.onPattern_owners : (State.onPattern q f s).owners = s.owners := rfl
@[simp] theorem State.onPattern_losing : (State.onPattern q f s).losing = s.losing := rfl
@[simp] theorem State.onPattern_lostLines : (State.onPattern q f s).lostLines = s.lostLines := rfl
@[simp] theorem State.onPattern_sched : (State.onPattern q f s).sched = s.sched := rfl
@[simp] theorem State.onPattern_pages : (State.onPattern q f s).pages = s.pages := rfl
@[simp] theorem State.onPattern_spread : (State.onPattern q f s).spread = s.spread := rfl
@[simp] theorem State.onPattern_ctxs : (State.onPattern q f s).ctxs = s.ctxs := rfl
@[simp] theorem State.onPattern_picots : (State.onPattern q f s).picots = s.picots := rfl
@[simp] theorem State.onPattern_queues : (State.onPattern q f s).queues = s.queues := rfl
@[simp] theorem State.onPattern_epochs : (State.onPattern q f s).epochs = s.epochs := rfl
@[simp] theorem State.onPattern_peers : (State.onPattern q f s).peers = s.peers := rfl
@[simp] theorem State.onPattern_recalls : (State.onPattern q f s).recalls = s.recalls := rfl
@[simp] theorem State.onPattern_groups : (State.onPattern q f s).groups = s.groups := rfl
@[simp] theorem State.onPattern_calls : (State.onPattern q f s).calls = s.calls := rfl
@[simp] theorem State.onPattern_dev : (State.onPattern q f s).dev = s.dev := rfl
@[simp] theorem State.onPattern_remote : (State.onPattern q f s).remote = s.remote := rfl
@[simp] theorem State.onPattern_overflow : (State.onPattern q f s).overflow = s.overflow := rfl
@[simp] theorem State.onPattern_defining : (State.onPattern q f s).defining = s.defining := rfl
@[simp] theorem State.onPattern_asked : (State.onPattern q f s).asked = s.asked := rfl
@[simp] theorem State.onPattern_outbox : (State.onPattern q f s).outbox = s.outbox := rfl
@[simp] theorem State.onPattern_needle : (State.onPattern q f s).needle = s.needle := rfl
@[simp] theorem State.onPattern_breaks : (State.onPattern q f s).breaks = s.breaks := rfl
@[simp] theorem State.onPattern_succs : (State.onPattern q f s).succs = s.succs := rfl
@[simp] theorem State.onPattern_rrQueue : (State.onPattern q f s).rrQueue = s.rrQueue := rfl
@[simp] theorem State.onPattern_rrPattern : (State.onPattern q f s).rrPattern = s.rrPattern := rfl
@[simp] theorem State.onPattern_rrCore : (State.onPattern q f s).rrCore = s.rrCore := rfl
@[simp] theorem State.onPattern_counted : (State.onPattern q f s).counted = s.counted := rfl
@[simp] theorem State.onPattern_knotAt : (State.onPattern q f s).knotAt = s.knotAt := rfl
@[simp] theorem State.onPattern_lastPath : (State.onPattern q f s).lastPath = s.lastPath := rfl
end

section
variable (q : Nat) (f : Queue → Queue) (s : State)
@[simp] theorem State.onQueue_cycle : (State.onQueue q f s).cycle = s.cycle := rfl
@[simp] theorem State.onQueue_fresh : (State.onQueue q f s).fresh = s.fresh := rfl
@[simp] theorem State.onQueue_agenda : (State.onQueue q f s).agenda = s.agenda := rfl
@[simp] theorem State.onQueue_now : (State.onQueue q f s).now = s.now := rfl
@[simp] theorem State.onQueue_cord : (State.onQueue q f s).cord = s.cord := rfl
@[simp] theorem State.onQueue_cords : (State.onQueue q f s).cords = s.cords := rfl
@[simp] theorem State.onQueue_motif : (State.onQueue q f s).motif = s.motif := rfl
@[simp] theorem State.onQueue_motifs : (State.onQueue q f s).motifs = s.motifs := rfl
@[simp] theorem State.onQueue_cores : (State.onQueue q f s).cores = s.cores := rfl
@[simp] theorem State.onQueue_mem : (State.onQueue q f s).mem = s.mem := rfl
@[simp] theorem State.onQueue_backing : (State.onQueue q f s).backing = s.backing := rfl
@[simp] theorem State.onQueue_l2 : (State.onQueue q f s).l2 = s.l2 := rfl
@[simp] theorem State.onQueue_l2Count : (State.onQueue q f s).l2Count = s.l2Count := rfl
@[simp] theorem State.onQueue_flushCtr : (State.onQueue q f s).flushCtr = s.flushCtr := rfl
@[simp] theorem State.onQueue_owners : (State.onQueue q f s).owners = s.owners := rfl
@[simp] theorem State.onQueue_losing : (State.onQueue q f s).losing = s.losing := rfl
@[simp] theorem State.onQueue_lostLines : (State.onQueue q f s).lostLines = s.lostLines := rfl
@[simp] theorem State.onQueue_sched : (State.onQueue q f s).sched = s.sched := rfl
@[simp] theorem State.onQueue_pages : (State.onQueue q f s).pages = s.pages := rfl
@[simp] theorem State.onQueue_spread : (State.onQueue q f s).spread = s.spread := rfl
@[simp] theorem State.onQueue_ctxs : (State.onQueue q f s).ctxs = s.ctxs := rfl
@[simp] theorem State.onQueue_picots : (State.onQueue q f s).picots = s.picots := rfl
@[simp] theorem State.onQueue_patterns : (State.onQueue q f s).patterns = s.patterns := rfl
@[simp] theorem State.onQueue_epochs : (State.onQueue q f s).epochs = s.epochs := rfl
@[simp] theorem State.onQueue_peers : (State.onQueue q f s).peers = s.peers := rfl
@[simp] theorem State.onQueue_recalls : (State.onQueue q f s).recalls = s.recalls := rfl
@[simp] theorem State.onQueue_groups : (State.onQueue q f s).groups = s.groups := rfl
@[simp] theorem State.onQueue_calls : (State.onQueue q f s).calls = s.calls := rfl
@[simp] theorem State.onQueue_dev : (State.onQueue q f s).dev = s.dev := rfl
@[simp] theorem State.onQueue_remote : (State.onQueue q f s).remote = s.remote := rfl
@[simp] theorem State.onQueue_overflow : (State.onQueue q f s).overflow = s.overflow := rfl
@[simp] theorem State.onQueue_defining : (State.onQueue q f s).defining = s.defining := rfl
@[simp] theorem State.onQueue_asked : (State.onQueue q f s).asked = s.asked := rfl
@[simp] theorem State.onQueue_outbox : (State.onQueue q f s).outbox = s.outbox := rfl
@[simp] theorem State.onQueue_needle : (State.onQueue q f s).needle = s.needle := rfl
@[simp] theorem State.onQueue_breaks : (State.onQueue q f s).breaks = s.breaks := rfl
@[simp] theorem State.onQueue_succs : (State.onQueue q f s).succs = s.succs := rfl
@[simp] theorem State.onQueue_rrQueue : (State.onQueue q f s).rrQueue = s.rrQueue := rfl
@[simp] theorem State.onQueue_rrPattern : (State.onQueue q f s).rrPattern = s.rrPattern := rfl
@[simp] theorem State.onQueue_rrCore : (State.onQueue q f s).rrCore = s.rrCore := rfl
@[simp] theorem State.onQueue_counted : (State.onQueue q f s).counted = s.counted := rfl
@[simp] theorem State.onQueue_knotAt : (State.onQueue q f s).knotAt = s.knotAt := rfl
@[simp] theorem State.onQueue_lastPath : (State.onQueue q f s).lastPath = s.lastPath := rfl
end

section
variable (s : State)
@[simp] theorem State.tick_cycle : (s.tick).cycle = s.cycle := rfl
@[simp] theorem State.tick_agenda : (s.tick).agenda = s.agenda := rfl
@[simp] theorem State.tick_now : (s.tick).now = s.now := rfl
@[simp] theorem State.tick_cord : (s.tick).cord = s.cord := rfl
@[simp] theorem State.tick_cords : (s.tick).cords = s.cords := rfl
@[simp] theorem State.tick_motif : (s.tick).motif = s.motif := rfl
@[simp] theorem State.tick_motifs : (s.tick).motifs = s.motifs := rfl
@[simp] theorem State.tick_cores : (s.tick).cores = s.cores := rfl
@[simp] theorem State.tick_mem : (s.tick).mem = s.mem := rfl
@[simp] theorem State.tick_backing : (s.tick).backing = s.backing := rfl
@[simp] theorem State.tick_l2 : (s.tick).l2 = s.l2 := rfl
@[simp] theorem State.tick_l2Count : (s.tick).l2Count = s.l2Count := rfl
@[simp] theorem State.tick_flushCtr : (s.tick).flushCtr = s.flushCtr := rfl
@[simp] theorem State.tick_owners : (s.tick).owners = s.owners := rfl
@[simp] theorem State.tick_losing : (s.tick).losing = s.losing := rfl
@[simp] theorem State.tick_lostLines : (s.tick).lostLines = s.lostLines := rfl
@[simp] theorem State.tick_sched : (s.tick).sched = s.sched := rfl
@[simp] theorem State.tick_pages : (s.tick).pages = s.pages := rfl
@[simp] theorem State.tick_spread : (s.tick).spread = s.spread := rfl
@[simp] theorem State.tick_ctxs : (s.tick).ctxs = s.ctxs := rfl
@[simp] theorem State.tick_picots : (s.tick).picots = s.picots := rfl
@[simp] theorem State.tick_queues : (s.tick).queues = s.queues := rfl
@[simp] theorem State.tick_patterns : (s.tick).patterns = s.patterns := rfl
@[simp] theorem State.tick_epochs : (s.tick).epochs = s.epochs := rfl
@[simp] theorem State.tick_peers : (s.tick).peers = s.peers := rfl
@[simp] theorem State.tick_recalls : (s.tick).recalls = s.recalls := rfl
@[simp] theorem State.tick_groups : (s.tick).groups = s.groups := rfl
@[simp] theorem State.tick_calls : (s.tick).calls = s.calls := rfl
@[simp] theorem State.tick_dev : (s.tick).dev = s.dev := rfl
@[simp] theorem State.tick_remote : (s.tick).remote = s.remote := rfl
@[simp] theorem State.tick_overflow : (s.tick).overflow = s.overflow := rfl
@[simp] theorem State.tick_defining : (s.tick).defining = s.defining := rfl
@[simp] theorem State.tick_asked : (s.tick).asked = s.asked := rfl
@[simp] theorem State.tick_outbox : (s.tick).outbox = s.outbox := rfl
@[simp] theorem State.tick_needle : (s.tick).needle = s.needle := rfl
@[simp] theorem State.tick_breaks : (s.tick).breaks = s.breaks := rfl
@[simp] theorem State.tick_succs : (s.tick).succs = s.succs := rfl
@[simp] theorem State.tick_rrQueue : (s.tick).rrQueue = s.rrQueue := rfl
@[simp] theorem State.tick_rrPattern : (s.tick).rrPattern = s.rrPattern := rfl
@[simp] theorem State.tick_rrCore : (s.tick).rrCore = s.rrCore := rfl
@[simp] theorem State.tick_counted : (s.tick).counted = s.counted := rfl
@[simp] theorem State.tick_knotAt : (s.tick).knotAt = s.knotAt := rfl
@[simp] theorem State.tick_lastPath : (s.tick).lastPath = s.lastPath := rfl
end

section
variable (d : Nat) (e : Event) (s : State)
@[simp] theorem State.after_cycle : (State.after d e s).cycle = s.cycle := rfl
@[simp] theorem State.after_fresh : (State.after d e s).fresh = s.fresh := rfl
@[simp] theorem State.after_now : (State.after d e s).now = s.now := rfl
@[simp] theorem State.after_cord : (State.after d e s).cord = s.cord := rfl
@[simp] theorem State.after_cords : (State.after d e s).cords = s.cords := rfl
@[simp] theorem State.after_motif : (State.after d e s).motif = s.motif := rfl
@[simp] theorem State.after_motifs : (State.after d e s).motifs = s.motifs := rfl
@[simp] theorem State.after_cores : (State.after d e s).cores = s.cores := rfl
@[simp] theorem State.after_mem : (State.after d e s).mem = s.mem := rfl
@[simp] theorem State.after_backing : (State.after d e s).backing = s.backing := rfl
@[simp] theorem State.after_l2 : (State.after d e s).l2 = s.l2 := rfl
@[simp] theorem State.after_l2Count : (State.after d e s).l2Count = s.l2Count := rfl
@[simp] theorem State.after_flushCtr : (State.after d e s).flushCtr = s.flushCtr := rfl
@[simp] theorem State.after_owners : (State.after d e s).owners = s.owners := rfl
@[simp] theorem State.after_losing : (State.after d e s).losing = s.losing := rfl
@[simp] theorem State.after_lostLines : (State.after d e s).lostLines = s.lostLines := rfl
@[simp] theorem State.after_sched : (State.after d e s).sched = s.sched := rfl
@[simp] theorem State.after_pages : (State.after d e s).pages = s.pages := rfl
@[simp] theorem State.after_spread : (State.after d e s).spread = s.spread := rfl
@[simp] theorem State.after_ctxs : (State.after d e s).ctxs = s.ctxs := rfl
@[simp] theorem State.after_picots : (State.after d e s).picots = s.picots := rfl
@[simp] theorem State.after_queues : (State.after d e s).queues = s.queues := rfl
@[simp] theorem State.after_patterns : (State.after d e s).patterns = s.patterns := rfl
@[simp] theorem State.after_epochs : (State.after d e s).epochs = s.epochs := rfl
@[simp] theorem State.after_peers : (State.after d e s).peers = s.peers := rfl
@[simp] theorem State.after_recalls : (State.after d e s).recalls = s.recalls := rfl
@[simp] theorem State.after_groups : (State.after d e s).groups = s.groups := rfl
@[simp] theorem State.after_calls : (State.after d e s).calls = s.calls := rfl
@[simp] theorem State.after_dev : (State.after d e s).dev = s.dev := rfl
@[simp] theorem State.after_remote : (State.after d e s).remote = s.remote := rfl
@[simp] theorem State.after_overflow : (State.after d e s).overflow = s.overflow := rfl
@[simp] theorem State.after_defining : (State.after d e s).defining = s.defining := rfl
@[simp] theorem State.after_asked : (State.after d e s).asked = s.asked := rfl
@[simp] theorem State.after_outbox : (State.after d e s).outbox = s.outbox := rfl
@[simp] theorem State.after_needle : (State.after d e s).needle = s.needle := rfl
@[simp] theorem State.after_breaks : (State.after d e s).breaks = s.breaks := rfl
@[simp] theorem State.after_succs : (State.after d e s).succs = s.succs := rfl
@[simp] theorem State.after_rrQueue : (State.after d e s).rrQueue = s.rrQueue := rfl
@[simp] theorem State.after_rrPattern : (State.after d e s).rrPattern = s.rrPattern := rfl
@[simp] theorem State.after_rrCore : (State.after d e s).rrCore = s.rrCore := rfl
@[simp] theorem State.after_counted : (State.after d e s).counted = s.counted := rfl
@[simp] theorem State.after_knotAt : (State.after d e s).knotAt = s.knotAt := rfl
@[simp] theorem State.after_lastPath : (State.after d e s).lastPath = s.lastPath := rfl
end

section
variable (d : Nat) (e : Event) (s : State)
@[simp] theorem State.afterFree_cycle : (State.afterFree d e s).cycle = s.cycle := rfl
@[simp] theorem State.afterFree_now : (State.afterFree d e s).now = s.now := rfl
@[simp] theorem State.afterFree_cord : (State.afterFree d e s).cord = s.cord := rfl
@[simp] theorem State.afterFree_cords : (State.afterFree d e s).cords = s.cords := rfl
@[simp] theorem State.afterFree_motif : (State.afterFree d e s).motif = s.motif := rfl
@[simp] theorem State.afterFree_motifs : (State.afterFree d e s).motifs = s.motifs := rfl
@[simp] theorem State.afterFree_cores : (State.afterFree d e s).cores = s.cores := rfl
@[simp] theorem State.afterFree_mem : (State.afterFree d e s).mem = s.mem := rfl
@[simp] theorem State.afterFree_backing : (State.afterFree d e s).backing = s.backing := rfl
@[simp] theorem State.afterFree_l2 : (State.afterFree d e s).l2 = s.l2 := rfl
@[simp] theorem State.afterFree_l2Count : (State.afterFree d e s).l2Count = s.l2Count := rfl
@[simp] theorem State.afterFree_flushCtr : (State.afterFree d e s).flushCtr = s.flushCtr := rfl
@[simp] theorem State.afterFree_owners : (State.afterFree d e s).owners = s.owners := rfl
@[simp] theorem State.afterFree_losing : (State.afterFree d e s).losing = s.losing := rfl
@[simp] theorem State.afterFree_lostLines : (State.afterFree d e s).lostLines = s.lostLines := rfl
@[simp] theorem State.afterFree_sched : (State.afterFree d e s).sched = s.sched := rfl
@[simp] theorem State.afterFree_pages : (State.afterFree d e s).pages = s.pages := rfl
@[simp] theorem State.afterFree_spread : (State.afterFree d e s).spread = s.spread := rfl
@[simp] theorem State.afterFree_ctxs : (State.afterFree d e s).ctxs = s.ctxs := rfl
@[simp] theorem State.afterFree_picots : (State.afterFree d e s).picots = s.picots := rfl
@[simp] theorem State.afterFree_queues : (State.afterFree d e s).queues = s.queues := rfl
@[simp] theorem State.afterFree_patterns : (State.afterFree d e s).patterns = s.patterns := rfl
@[simp] theorem State.afterFree_epochs : (State.afterFree d e s).epochs = s.epochs := rfl
@[simp] theorem State.afterFree_peers : (State.afterFree d e s).peers = s.peers := rfl
@[simp] theorem State.afterFree_recalls : (State.afterFree d e s).recalls = s.recalls := rfl
@[simp] theorem State.afterFree_groups : (State.afterFree d e s).groups = s.groups := rfl
@[simp] theorem State.afterFree_calls : (State.afterFree d e s).calls = s.calls := rfl
@[simp] theorem State.afterFree_dev : (State.afterFree d e s).dev = s.dev := rfl
@[simp] theorem State.afterFree_remote : (State.afterFree d e s).remote = s.remote := rfl
@[simp] theorem State.afterFree_overflow : (State.afterFree d e s).overflow = s.overflow := rfl
@[simp] theorem State.afterFree_defining : (State.afterFree d e s).defining = s.defining := rfl
@[simp] theorem State.afterFree_asked : (State.afterFree d e s).asked = s.asked := rfl
@[simp] theorem State.afterFree_outbox : (State.afterFree d e s).outbox = s.outbox := rfl
@[simp] theorem State.afterFree_needle : (State.afterFree d e s).needle = s.needle := rfl
@[simp] theorem State.afterFree_breaks : (State.afterFree d e s).breaks = s.breaks := rfl
@[simp] theorem State.afterFree_succs : (State.afterFree d e s).succs = s.succs := rfl
@[simp] theorem State.afterFree_rrQueue : (State.afterFree d e s).rrQueue = s.rrQueue := rfl
@[simp] theorem State.afterFree_rrPattern : (State.afterFree d e s).rrPattern = s.rrPattern := rfl
@[simp] theorem State.afterFree_rrCore : (State.afterFree d e s).rrCore = s.rrCore := rfl
@[simp] theorem State.afterFree_counted : (State.afterFree d e s).counted = s.counted := rfl
@[simp] theorem State.afterFree_knotAt : (State.afterFree d e s).knotAt = s.knotAt := rfl
@[simp] theorem State.afterFree_lastPath : (State.afterFree d e s).lastPath = s.lastPath := rfl
end

section
variable (core home d : Nat) (e : Event) (s : State)
@[simp] theorem State.afterPath_cycle : (State.afterPath core home d e s).cycle = s.cycle := rfl
@[simp] theorem State.afterPath_now : (State.afterPath core home d e s).now = s.now := rfl
@[simp] theorem State.afterPath_cord : (State.afterPath core home d e s).cord = s.cord := rfl
@[simp] theorem State.afterPath_cords : (State.afterPath core home d e s).cords = s.cords := rfl
@[simp] theorem State.afterPath_motif : (State.afterPath core home d e s).motif = s.motif := rfl
@[simp] theorem State.afterPath_motifs : (State.afterPath core home d e s).motifs = s.motifs := rfl
@[simp] theorem State.afterPath_cores : (State.afterPath core home d e s).cores = s.cores := rfl
@[simp] theorem State.afterPath_mem : (State.afterPath core home d e s).mem = s.mem := rfl
@[simp] theorem State.afterPath_backing : (State.afterPath core home d e s).backing = s.backing := rfl
@[simp] theorem State.afterPath_l2 : (State.afterPath core home d e s).l2 = s.l2 := rfl
@[simp] theorem State.afterPath_l2Count : (State.afterPath core home d e s).l2Count = s.l2Count := rfl
@[simp] theorem State.afterPath_flushCtr : (State.afterPath core home d e s).flushCtr = s.flushCtr := rfl
@[simp] theorem State.afterPath_owners : (State.afterPath core home d e s).owners = s.owners := rfl
@[simp] theorem State.afterPath_losing : (State.afterPath core home d e s).losing = s.losing := rfl
@[simp] theorem State.afterPath_lostLines : (State.afterPath core home d e s).lostLines = s.lostLines := rfl
@[simp] theorem State.afterPath_sched : (State.afterPath core home d e s).sched = s.sched := rfl
@[simp] theorem State.afterPath_pages : (State.afterPath core home d e s).pages = s.pages := rfl
@[simp] theorem State.afterPath_spread : (State.afterPath core home d e s).spread = s.spread := rfl
@[simp] theorem State.afterPath_ctxs : (State.afterPath core home d e s).ctxs = s.ctxs := rfl
@[simp] theorem State.afterPath_picots : (State.afterPath core home d e s).picots = s.picots := rfl
@[simp] theorem State.afterPath_queues : (State.afterPath core home d e s).queues = s.queues := rfl
@[simp] theorem State.afterPath_patterns : (State.afterPath core home d e s).patterns = s.patterns := rfl
@[simp] theorem State.afterPath_epochs : (State.afterPath core home d e s).epochs = s.epochs := rfl
@[simp] theorem State.afterPath_peers : (State.afterPath core home d e s).peers = s.peers := rfl
@[simp] theorem State.afterPath_recalls : (State.afterPath core home d e s).recalls = s.recalls := rfl
@[simp] theorem State.afterPath_groups : (State.afterPath core home d e s).groups = s.groups := rfl
@[simp] theorem State.afterPath_calls : (State.afterPath core home d e s).calls = s.calls := rfl
@[simp] theorem State.afterPath_dev : (State.afterPath core home d e s).dev = s.dev := rfl
@[simp] theorem State.afterPath_remote : (State.afterPath core home d e s).remote = s.remote := rfl
@[simp] theorem State.afterPath_overflow : (State.afterPath core home d e s).overflow = s.overflow := rfl
@[simp] theorem State.afterPath_defining : (State.afterPath core home d e s).defining = s.defining := rfl
@[simp] theorem State.afterPath_asked : (State.afterPath core home d e s).asked = s.asked := rfl
@[simp] theorem State.afterPath_outbox : (State.afterPath core home d e s).outbox = s.outbox := rfl
@[simp] theorem State.afterPath_needle : (State.afterPath core home d e s).needle = s.needle := rfl
@[simp] theorem State.afterPath_breaks : (State.afterPath core home d e s).breaks = s.breaks := rfl
@[simp] theorem State.afterPath_succs : (State.afterPath core home d e s).succs = s.succs := rfl
@[simp] theorem State.afterPath_rrQueue : (State.afterPath core home d e s).rrQueue = s.rrQueue := rfl
@[simp] theorem State.afterPath_rrPattern : (State.afterPath core home d e s).rrPattern = s.rrPattern := rfl
@[simp] theorem State.afterPath_rrCore : (State.afterPath core home d e s).rrCore = s.rrCore := rfl
@[simp] theorem State.afterPath_counted : (State.afterPath core home d e s).counted = s.counted := rfl
@[simp] theorem State.afterPath_knotAt : (State.afterPath core home d e s).knotAt = s.knotAt := rfl
end

section
variable (core : Nat) (homes : List Nat) (d : Nat) (e : Event) (s : State)
@[simp] theorem State.afterPaths_cycle : (State.afterPaths core homes d e s).cycle = s.cycle := rfl
@[simp] theorem State.afterPaths_now : (State.afterPaths core homes d e s).now = s.now := rfl
@[simp] theorem State.afterPaths_cord : (State.afterPaths core homes d e s).cord = s.cord := rfl
@[simp] theorem State.afterPaths_cords : (State.afterPaths core homes d e s).cords = s.cords := rfl
@[simp] theorem State.afterPaths_motif : (State.afterPaths core homes d e s).motif = s.motif := rfl
@[simp] theorem State.afterPaths_motifs : (State.afterPaths core homes d e s).motifs = s.motifs := rfl
@[simp] theorem State.afterPaths_cores : (State.afterPaths core homes d e s).cores = s.cores := rfl
@[simp] theorem State.afterPaths_mem : (State.afterPaths core homes d e s).mem = s.mem := rfl
@[simp] theorem State.afterPaths_backing : (State.afterPaths core homes d e s).backing = s.backing := rfl
@[simp] theorem State.afterPaths_l2 : (State.afterPaths core homes d e s).l2 = s.l2 := rfl
@[simp] theorem State.afterPaths_l2Count : (State.afterPaths core homes d e s).l2Count = s.l2Count := rfl
@[simp] theorem State.afterPaths_flushCtr : (State.afterPaths core homes d e s).flushCtr = s.flushCtr := rfl
@[simp] theorem State.afterPaths_owners : (State.afterPaths core homes d e s).owners = s.owners := rfl
@[simp] theorem State.afterPaths_losing : (State.afterPaths core homes d e s).losing = s.losing := rfl
@[simp] theorem State.afterPaths_lostLines : (State.afterPaths core homes d e s).lostLines = s.lostLines := rfl
@[simp] theorem State.afterPaths_sched : (State.afterPaths core homes d e s).sched = s.sched := rfl
@[simp] theorem State.afterPaths_pages : (State.afterPaths core homes d e s).pages = s.pages := rfl
@[simp] theorem State.afterPaths_spread : (State.afterPaths core homes d e s).spread = s.spread := rfl
@[simp] theorem State.afterPaths_ctxs : (State.afterPaths core homes d e s).ctxs = s.ctxs := rfl
@[simp] theorem State.afterPaths_picots : (State.afterPaths core homes d e s).picots = s.picots := rfl
@[simp] theorem State.afterPaths_queues : (State.afterPaths core homes d e s).queues = s.queues := rfl
@[simp] theorem State.afterPaths_patterns : (State.afterPaths core homes d e s).patterns = s.patterns := rfl
@[simp] theorem State.afterPaths_epochs : (State.afterPaths core homes d e s).epochs = s.epochs := rfl
@[simp] theorem State.afterPaths_peers : (State.afterPaths core homes d e s).peers = s.peers := rfl
@[simp] theorem State.afterPaths_recalls : (State.afterPaths core homes d e s).recalls = s.recalls := rfl
@[simp] theorem State.afterPaths_groups : (State.afterPaths core homes d e s).groups = s.groups := rfl
@[simp] theorem State.afterPaths_calls : (State.afterPaths core homes d e s).calls = s.calls := rfl
@[simp] theorem State.afterPaths_dev : (State.afterPaths core homes d e s).dev = s.dev := rfl
@[simp] theorem State.afterPaths_remote : (State.afterPaths core homes d e s).remote = s.remote := rfl
@[simp] theorem State.afterPaths_overflow : (State.afterPaths core homes d e s).overflow = s.overflow := rfl
@[simp] theorem State.afterPaths_defining : (State.afterPaths core homes d e s).defining = s.defining := rfl
@[simp] theorem State.afterPaths_asked : (State.afterPaths core homes d e s).asked = s.asked := rfl
@[simp] theorem State.afterPaths_outbox : (State.afterPaths core homes d e s).outbox = s.outbox := rfl
@[simp] theorem State.afterPaths_needle : (State.afterPaths core homes d e s).needle = s.needle := rfl
@[simp] theorem State.afterPaths_breaks : (State.afterPaths core homes d e s).breaks = s.breaks := rfl
@[simp] theorem State.afterPaths_succs : (State.afterPaths core homes d e s).succs = s.succs := rfl
@[simp] theorem State.afterPaths_rrQueue : (State.afterPaths core homes d e s).rrQueue = s.rrQueue := rfl
@[simp] theorem State.afterPaths_rrPattern : (State.afterPaths core homes d e s).rrPattern = s.rrPattern := rfl
@[simp] theorem State.afterPaths_rrCore : (State.afterPaths core homes d e s).rrCore = s.rrCore := rfl
@[simp] theorem State.afterPaths_counted : (State.afterPaths core homes d e s).counted = s.counted := rfl
@[simp] theorem State.afterPaths_knotAt : (State.afterPaths core homes d e s).knotAt = s.knotAt := rfl
end

section
variable (p : Event → Bool) (s : State)
@[simp] theorem State.cancel_cycle : (State.cancel p s).cycle = s.cycle := rfl
@[simp] theorem State.cancel_fresh : (State.cancel p s).fresh = s.fresh := rfl
@[simp] theorem State.cancel_now : (State.cancel p s).now = s.now := rfl
@[simp] theorem State.cancel_cord : (State.cancel p s).cord = s.cord := rfl
@[simp] theorem State.cancel_cords : (State.cancel p s).cords = s.cords := rfl
@[simp] theorem State.cancel_motif : (State.cancel p s).motif = s.motif := rfl
@[simp] theorem State.cancel_motifs : (State.cancel p s).motifs = s.motifs := rfl
@[simp] theorem State.cancel_cores : (State.cancel p s).cores = s.cores := rfl
@[simp] theorem State.cancel_mem : (State.cancel p s).mem = s.mem := rfl
@[simp] theorem State.cancel_backing : (State.cancel p s).backing = s.backing := rfl
@[simp] theorem State.cancel_l2 : (State.cancel p s).l2 = s.l2 := rfl
@[simp] theorem State.cancel_l2Count : (State.cancel p s).l2Count = s.l2Count := rfl
@[simp] theorem State.cancel_flushCtr : (State.cancel p s).flushCtr = s.flushCtr := rfl
@[simp] theorem State.cancel_owners : (State.cancel p s).owners = s.owners := rfl
@[simp] theorem State.cancel_losing : (State.cancel p s).losing = s.losing := rfl
@[simp] theorem State.cancel_lostLines : (State.cancel p s).lostLines = s.lostLines := rfl
@[simp] theorem State.cancel_sched : (State.cancel p s).sched = s.sched := rfl
@[simp] theorem State.cancel_pages : (State.cancel p s).pages = s.pages := rfl
@[simp] theorem State.cancel_spread : (State.cancel p s).spread = s.spread := rfl
@[simp] theorem State.cancel_ctxs : (State.cancel p s).ctxs = s.ctxs := rfl
@[simp] theorem State.cancel_picots : (State.cancel p s).picots = s.picots := rfl
@[simp] theorem State.cancel_queues : (State.cancel p s).queues = s.queues := rfl
@[simp] theorem State.cancel_patterns : (State.cancel p s).patterns = s.patterns := rfl
@[simp] theorem State.cancel_epochs : (State.cancel p s).epochs = s.epochs := rfl
@[simp] theorem State.cancel_peers : (State.cancel p s).peers = s.peers := rfl
@[simp] theorem State.cancel_recalls : (State.cancel p s).recalls = s.recalls := rfl
@[simp] theorem State.cancel_groups : (State.cancel p s).groups = s.groups := rfl
@[simp] theorem State.cancel_calls : (State.cancel p s).calls = s.calls := rfl
@[simp] theorem State.cancel_dev : (State.cancel p s).dev = s.dev := rfl
@[simp] theorem State.cancel_remote : (State.cancel p s).remote = s.remote := rfl
@[simp] theorem State.cancel_overflow : (State.cancel p s).overflow = s.overflow := rfl
@[simp] theorem State.cancel_defining : (State.cancel p s).defining = s.defining := rfl
@[simp] theorem State.cancel_asked : (State.cancel p s).asked = s.asked := rfl
@[simp] theorem State.cancel_outbox : (State.cancel p s).outbox = s.outbox := rfl
@[simp] theorem State.cancel_needle : (State.cancel p s).needle = s.needle := rfl
@[simp] theorem State.cancel_breaks : (State.cancel p s).breaks = s.breaks := rfl
@[simp] theorem State.cancel_succs : (State.cancel p s).succs = s.succs := rfl
@[simp] theorem State.cancel_rrQueue : (State.cancel p s).rrQueue = s.rrQueue := rfl
@[simp] theorem State.cancel_rrPattern : (State.cancel p s).rrPattern = s.rrPattern := rfl
@[simp] theorem State.cancel_rrCore : (State.cancel p s).rrCore = s.rrCore := rfl
@[simp] theorem State.cancel_counted : (State.cancel p s).counted = s.counted := rfl
@[simp] theorem State.cancel_knotAt : (State.cancel p s).knotAt = s.knotAt := rfl
@[simp] theorem State.cancel_lastPath : (State.cancel p s).lastPath = s.lastPath := rfl
end

section
variable (c : Nat) (f : Flag) (ws : List RegWrite) (s : State)
@[simp] theorem State.complete_cycle : (State.complete c f ws s).cycle = s.cycle := rfl
@[simp] theorem State.complete_fresh : (State.complete c f ws s).fresh = s.fresh := rfl
@[simp] theorem State.complete_agenda : (State.complete c f ws s).agenda = s.agenda := rfl
@[simp] theorem State.complete_now : (State.complete c f ws s).now = s.now := rfl
@[simp] theorem State.complete_motif : (State.complete c f ws s).motif = s.motif := rfl
@[simp] theorem State.complete_motifs : (State.complete c f ws s).motifs = s.motifs := rfl
@[simp] theorem State.complete_cores : (State.complete c f ws s).cores = s.cores := rfl
@[simp] theorem State.complete_mem : (State.complete c f ws s).mem = s.mem := rfl
@[simp] theorem State.complete_backing : (State.complete c f ws s).backing = s.backing := rfl
@[simp] theorem State.complete_l2 : (State.complete c f ws s).l2 = s.l2 := rfl
@[simp] theorem State.complete_l2Count : (State.complete c f ws s).l2Count = s.l2Count := rfl
@[simp] theorem State.complete_flushCtr : (State.complete c f ws s).flushCtr = s.flushCtr := rfl
@[simp] theorem State.complete_owners : (State.complete c f ws s).owners = s.owners := rfl
@[simp] theorem State.complete_losing : (State.complete c f ws s).losing = s.losing := rfl
@[simp] theorem State.complete_lostLines : (State.complete c f ws s).lostLines = s.lostLines := rfl
@[simp] theorem State.complete_sched : (State.complete c f ws s).sched = s.sched := rfl
@[simp] theorem State.complete_pages : (State.complete c f ws s).pages = s.pages := rfl
@[simp] theorem State.complete_spread : (State.complete c f ws s).spread = s.spread := rfl
@[simp] theorem State.complete_ctxs : (State.complete c f ws s).ctxs = s.ctxs := rfl
@[simp] theorem State.complete_picots : (State.complete c f ws s).picots = s.picots := rfl
@[simp] theorem State.complete_queues : (State.complete c f ws s).queues = s.queues := rfl
@[simp] theorem State.complete_patterns : (State.complete c f ws s).patterns = s.patterns := rfl
@[simp] theorem State.complete_epochs : (State.complete c f ws s).epochs = s.epochs := rfl
@[simp] theorem State.complete_peers : (State.complete c f ws s).peers = s.peers := rfl
@[simp] theorem State.complete_recalls : (State.complete c f ws s).recalls = s.recalls := rfl
@[simp] theorem State.complete_groups : (State.complete c f ws s).groups = s.groups := rfl
@[simp] theorem State.complete_calls : (State.complete c f ws s).calls = s.calls := rfl
@[simp] theorem State.complete_dev : (State.complete c f ws s).dev = s.dev := rfl
@[simp] theorem State.complete_remote : (State.complete c f ws s).remote = s.remote := rfl
@[simp] theorem State.complete_overflow : (State.complete c f ws s).overflow = s.overflow := rfl
@[simp] theorem State.complete_defining : (State.complete c f ws s).defining = s.defining := rfl
@[simp] theorem State.complete_asked : (State.complete c f ws s).asked = s.asked := rfl
@[simp] theorem State.complete_outbox : (State.complete c f ws s).outbox = s.outbox := rfl
@[simp] theorem State.complete_needle : (State.complete c f ws s).needle = s.needle := rfl
@[simp] theorem State.complete_breaks : (State.complete c f ws s).breaks = s.breaks := rfl
@[simp] theorem State.complete_succs : (State.complete c f ws s).succs = s.succs := rfl
@[simp] theorem State.complete_rrQueue : (State.complete c f ws s).rrQueue = s.rrQueue := rfl
@[simp] theorem State.complete_rrPattern : (State.complete c f ws s).rrPattern = s.rrPattern := rfl
@[simp] theorem State.complete_rrCore : (State.complete c f ws s).rrCore = s.rrCore := rfl
@[simp] theorem State.complete_counted : (State.complete c f ws s).counted = s.counted := rfl
@[simp] theorem State.complete_knotAt : (State.complete c f ws s).knotAt = s.knotAt := rfl
@[simp] theorem State.complete_lastPath : (State.complete c f ws s).lastPath = s.lastPath := rfl
end

section
variable (c n : Nat) (s : State)
@[simp] theorem State.stDown_cycle : (State.stDown c n s).cycle = s.cycle := rfl
@[simp] theorem State.stDown_fresh : (State.stDown c n s).fresh = s.fresh := rfl
@[simp] theorem State.stDown_agenda : (State.stDown c n s).agenda = s.agenda := rfl
@[simp] theorem State.stDown_now : (State.stDown c n s).now = s.now := rfl
@[simp] theorem State.stDown_motif : (State.stDown c n s).motif = s.motif := rfl
@[simp] theorem State.stDown_motifs : (State.stDown c n s).motifs = s.motifs := rfl
@[simp] theorem State.stDown_cores : (State.stDown c n s).cores = s.cores := rfl
@[simp] theorem State.stDown_mem : (State.stDown c n s).mem = s.mem := rfl
@[simp] theorem State.stDown_backing : (State.stDown c n s).backing = s.backing := rfl
@[simp] theorem State.stDown_l2 : (State.stDown c n s).l2 = s.l2 := rfl
@[simp] theorem State.stDown_l2Count : (State.stDown c n s).l2Count = s.l2Count := rfl
@[simp] theorem State.stDown_flushCtr : (State.stDown c n s).flushCtr = s.flushCtr := rfl
@[simp] theorem State.stDown_owners : (State.stDown c n s).owners = s.owners := rfl
@[simp] theorem State.stDown_losing : (State.stDown c n s).losing = s.losing := rfl
@[simp] theorem State.stDown_lostLines : (State.stDown c n s).lostLines = s.lostLines := rfl
@[simp] theorem State.stDown_sched : (State.stDown c n s).sched = s.sched := rfl
@[simp] theorem State.stDown_pages : (State.stDown c n s).pages = s.pages := rfl
@[simp] theorem State.stDown_spread : (State.stDown c n s).spread = s.spread := rfl
@[simp] theorem State.stDown_ctxs : (State.stDown c n s).ctxs = s.ctxs := rfl
@[simp] theorem State.stDown_picots : (State.stDown c n s).picots = s.picots := rfl
@[simp] theorem State.stDown_queues : (State.stDown c n s).queues = s.queues := rfl
@[simp] theorem State.stDown_patterns : (State.stDown c n s).patterns = s.patterns := rfl
@[simp] theorem State.stDown_epochs : (State.stDown c n s).epochs = s.epochs := rfl
@[simp] theorem State.stDown_peers : (State.stDown c n s).peers = s.peers := rfl
@[simp] theorem State.stDown_recalls : (State.stDown c n s).recalls = s.recalls := rfl
@[simp] theorem State.stDown_groups : (State.stDown c n s).groups = s.groups := rfl
@[simp] theorem State.stDown_calls : (State.stDown c n s).calls = s.calls := rfl
@[simp] theorem State.stDown_dev : (State.stDown c n s).dev = s.dev := rfl
@[simp] theorem State.stDown_remote : (State.stDown c n s).remote = s.remote := rfl
@[simp] theorem State.stDown_overflow : (State.stDown c n s).overflow = s.overflow := rfl
@[simp] theorem State.stDown_defining : (State.stDown c n s).defining = s.defining := rfl
@[simp] theorem State.stDown_asked : (State.stDown c n s).asked = s.asked := rfl
@[simp] theorem State.stDown_outbox : (State.stDown c n s).outbox = s.outbox := rfl
@[simp] theorem State.stDown_needle : (State.stDown c n s).needle = s.needle := rfl
@[simp] theorem State.stDown_breaks : (State.stDown c n s).breaks = s.breaks := rfl
@[simp] theorem State.stDown_succs : (State.stDown c n s).succs = s.succs := rfl
@[simp] theorem State.stDown_rrQueue : (State.stDown c n s).rrQueue = s.rrQueue := rfl
@[simp] theorem State.stDown_rrPattern : (State.stDown c n s).rrPattern = s.rrPattern := rfl
@[simp] theorem State.stDown_rrCore : (State.stDown c n s).rrCore = s.rrCore := rfl
@[simp] theorem State.stDown_counted : (State.stDown c n s).counted = s.counted := rfl
@[simp] theorem State.stDown_knotAt : (State.stDown c n s).knotAt = s.knotAt := rfl
@[simp] theorem State.stDown_lastPath : (State.stDown c n s).lastPath = s.lastPath := rfl
end

section
variable (c n : Nat) (s : State)
@[simp] theorem State.ldDown_cycle : (State.ldDown c n s).cycle = s.cycle := rfl
@[simp] theorem State.ldDown_fresh : (State.ldDown c n s).fresh = s.fresh := rfl
@[simp] theorem State.ldDown_agenda : (State.ldDown c n s).agenda = s.agenda := rfl
@[simp] theorem State.ldDown_now : (State.ldDown c n s).now = s.now := rfl
@[simp] theorem State.ldDown_motif : (State.ldDown c n s).motif = s.motif := rfl
@[simp] theorem State.ldDown_motifs : (State.ldDown c n s).motifs = s.motifs := rfl
@[simp] theorem State.ldDown_cores : (State.ldDown c n s).cores = s.cores := rfl
@[simp] theorem State.ldDown_mem : (State.ldDown c n s).mem = s.mem := rfl
@[simp] theorem State.ldDown_backing : (State.ldDown c n s).backing = s.backing := rfl
@[simp] theorem State.ldDown_l2 : (State.ldDown c n s).l2 = s.l2 := rfl
@[simp] theorem State.ldDown_l2Count : (State.ldDown c n s).l2Count = s.l2Count := rfl
@[simp] theorem State.ldDown_flushCtr : (State.ldDown c n s).flushCtr = s.flushCtr := rfl
@[simp] theorem State.ldDown_owners : (State.ldDown c n s).owners = s.owners := rfl
@[simp] theorem State.ldDown_losing : (State.ldDown c n s).losing = s.losing := rfl
@[simp] theorem State.ldDown_lostLines : (State.ldDown c n s).lostLines = s.lostLines := rfl
@[simp] theorem State.ldDown_sched : (State.ldDown c n s).sched = s.sched := rfl
@[simp] theorem State.ldDown_pages : (State.ldDown c n s).pages = s.pages := rfl
@[simp] theorem State.ldDown_spread : (State.ldDown c n s).spread = s.spread := rfl
@[simp] theorem State.ldDown_ctxs : (State.ldDown c n s).ctxs = s.ctxs := rfl
@[simp] theorem State.ldDown_picots : (State.ldDown c n s).picots = s.picots := rfl
@[simp] theorem State.ldDown_queues : (State.ldDown c n s).queues = s.queues := rfl
@[simp] theorem State.ldDown_patterns : (State.ldDown c n s).patterns = s.patterns := rfl
@[simp] theorem State.ldDown_epochs : (State.ldDown c n s).epochs = s.epochs := rfl
@[simp] theorem State.ldDown_peers : (State.ldDown c n s).peers = s.peers := rfl
@[simp] theorem State.ldDown_recalls : (State.ldDown c n s).recalls = s.recalls := rfl
@[simp] theorem State.ldDown_groups : (State.ldDown c n s).groups = s.groups := rfl
@[simp] theorem State.ldDown_calls : (State.ldDown c n s).calls = s.calls := rfl
@[simp] theorem State.ldDown_dev : (State.ldDown c n s).dev = s.dev := rfl
@[simp] theorem State.ldDown_remote : (State.ldDown c n s).remote = s.remote := rfl
@[simp] theorem State.ldDown_overflow : (State.ldDown c n s).overflow = s.overflow := rfl
@[simp] theorem State.ldDown_defining : (State.ldDown c n s).defining = s.defining := rfl
@[simp] theorem State.ldDown_asked : (State.ldDown c n s).asked = s.asked := rfl
@[simp] theorem State.ldDown_outbox : (State.ldDown c n s).outbox = s.outbox := rfl
@[simp] theorem State.ldDown_needle : (State.ldDown c n s).needle = s.needle := rfl
@[simp] theorem State.ldDown_breaks : (State.ldDown c n s).breaks = s.breaks := rfl
@[simp] theorem State.ldDown_succs : (State.ldDown c n s).succs = s.succs := rfl
@[simp] theorem State.ldDown_rrQueue : (State.ldDown c n s).rrQueue = s.rrQueue := rfl
@[simp] theorem State.ldDown_rrPattern : (State.ldDown c n s).rrPattern = s.rrPattern := rfl
@[simp] theorem State.ldDown_rrCore : (State.ldDown c n s).rrCore = s.rrCore := rfl
@[simp] theorem State.ldDown_counted : (State.ldDown c n s).counted = s.counted := rfl
@[simp] theorem State.ldDown_knotAt : (State.ldDown c n s).knotAt = s.knotAt := rfl
@[simp] theorem State.ldDown_lastPath : (State.ldDown c n s).lastPath = s.lastPath := rfl
end

section
variable (s : State)
@[simp] theorem State.freeSlot_cycle : (s.freeSlot).cycle = s.cycle := by simp [State.freeSlot]
@[simp] theorem State.freeSlot_fresh : (s.freeSlot).fresh = s.fresh := by simp [State.freeSlot]
@[simp] theorem State.freeSlot_agenda : (s.freeSlot).agenda = s.agenda := by simp [State.freeSlot]
@[simp] theorem State.freeSlot_now : (s.freeSlot).now = s.now := by simp [State.freeSlot]
@[simp] theorem State.freeSlot_cord : (s.freeSlot).cord = s.cord := by simp [State.freeSlot]
@[simp] theorem State.freeSlot_cords : (s.freeSlot).cords = s.cords := by simp [State.freeSlot]
@[simp] theorem State.freeSlot_motif : (s.freeSlot).motif = s.motif := by simp [State.freeSlot]
@[simp] theorem State.freeSlot_motifs : (s.freeSlot).motifs = s.motifs := by simp [State.freeSlot]
@[simp] theorem State.freeSlot_mem : (s.freeSlot).mem = s.mem := by simp [State.freeSlot]
@[simp] theorem State.freeSlot_backing : (s.freeSlot).backing = s.backing := by simp [State.freeSlot]
@[simp] theorem State.freeSlot_l2 : (s.freeSlot).l2 = s.l2 := by simp [State.freeSlot]
@[simp] theorem State.freeSlot_l2Count : (s.freeSlot).l2Count = s.l2Count := by simp [State.freeSlot]
@[simp] theorem State.freeSlot_flushCtr : (s.freeSlot).flushCtr = s.flushCtr := by simp [State.freeSlot]
@[simp] theorem State.freeSlot_owners : (s.freeSlot).owners = s.owners := by simp [State.freeSlot]
@[simp] theorem State.freeSlot_losing : (s.freeSlot).losing = s.losing := by simp [State.freeSlot]
@[simp] theorem State.freeSlot_lostLines : (s.freeSlot).lostLines = s.lostLines := by simp [State.freeSlot]
@[simp] theorem State.freeSlot_sched : (s.freeSlot).sched = s.sched := by simp [State.freeSlot]
@[simp] theorem State.freeSlot_pages : (s.freeSlot).pages = s.pages := by simp [State.freeSlot]
@[simp] theorem State.freeSlot_spread : (s.freeSlot).spread = s.spread := by simp [State.freeSlot]
@[simp] theorem State.freeSlot_ctxs : (s.freeSlot).ctxs = s.ctxs := by simp [State.freeSlot]
@[simp] theorem State.freeSlot_picots : (s.freeSlot).picots = s.picots := by simp [State.freeSlot]
@[simp] theorem State.freeSlot_queues : (s.freeSlot).queues = s.queues := by simp [State.freeSlot]
@[simp] theorem State.freeSlot_patterns : (s.freeSlot).patterns = s.patterns := by simp [State.freeSlot]
@[simp] theorem State.freeSlot_epochs : (s.freeSlot).epochs = s.epochs := by simp [State.freeSlot]
@[simp] theorem State.freeSlot_peers : (s.freeSlot).peers = s.peers := by simp [State.freeSlot]
@[simp] theorem State.freeSlot_recalls : (s.freeSlot).recalls = s.recalls := by simp [State.freeSlot]
@[simp] theorem State.freeSlot_groups : (s.freeSlot).groups = s.groups := by simp [State.freeSlot]
@[simp] theorem State.freeSlot_calls : (s.freeSlot).calls = s.calls := by simp [State.freeSlot]
@[simp] theorem State.freeSlot_dev : (s.freeSlot).dev = s.dev := by simp [State.freeSlot]
@[simp] theorem State.freeSlot_remote : (s.freeSlot).remote = s.remote := by simp [State.freeSlot]
@[simp] theorem State.freeSlot_overflow : (s.freeSlot).overflow = s.overflow := by simp [State.freeSlot]
@[simp] theorem State.freeSlot_defining : (s.freeSlot).defining = s.defining := by simp [State.freeSlot]
@[simp] theorem State.freeSlot_asked : (s.freeSlot).asked = s.asked := by simp [State.freeSlot]
@[simp] theorem State.freeSlot_outbox : (s.freeSlot).outbox = s.outbox := by simp [State.freeSlot]
@[simp] theorem State.freeSlot_needle : (s.freeSlot).needle = s.needle := by simp [State.freeSlot]
@[simp] theorem State.freeSlot_breaks : (s.freeSlot).breaks = s.breaks := by simp [State.freeSlot]
@[simp] theorem State.freeSlot_succs : (s.freeSlot).succs = s.succs := by simp [State.freeSlot]
@[simp] theorem State.freeSlot_rrQueue : (s.freeSlot).rrQueue = s.rrQueue := by simp [State.freeSlot]
@[simp] theorem State.freeSlot_rrPattern : (s.freeSlot).rrPattern = s.rrPattern := by simp [State.freeSlot]
@[simp] theorem State.freeSlot_rrCore : (s.freeSlot).rrCore = s.rrCore := by simp [State.freeSlot]
@[simp] theorem State.freeSlot_counted : (s.freeSlot).counted = s.counted := by simp [State.freeSlot]
@[simp] theorem State.freeSlot_knotAt : (s.freeSlot).knotAt = s.knotAt := by simp [State.freeSlot]
@[simp] theorem State.freeSlot_lastPath : (s.freeSlot).lastPath = s.lastPath := by simp [State.freeSlot]
end

section
variable (s : State)
@[simp] theorem State.keepSlot_cycle : (s.keepSlot).cycle = s.cycle := by simp [State.keepSlot]
@[simp] theorem State.keepSlot_fresh : (s.keepSlot).fresh = s.fresh := by simp [State.keepSlot]
@[simp] theorem State.keepSlot_agenda : (s.keepSlot).agenda = s.agenda := by simp [State.keepSlot]
@[simp] theorem State.keepSlot_now : (s.keepSlot).now = s.now := by simp [State.keepSlot]
@[simp] theorem State.keepSlot_cords : (s.keepSlot).cords = s.cords := by simp [State.keepSlot]
@[simp] theorem State.keepSlot_motif : (s.keepSlot).motif = s.motif := by simp [State.keepSlot]
@[simp] theorem State.keepSlot_motifs : (s.keepSlot).motifs = s.motifs := by simp [State.keepSlot]
@[simp] theorem State.keepSlot_mem : (s.keepSlot).mem = s.mem := by simp [State.keepSlot]
@[simp] theorem State.keepSlot_backing : (s.keepSlot).backing = s.backing := by simp [State.keepSlot]
@[simp] theorem State.keepSlot_l2 : (s.keepSlot).l2 = s.l2 := by simp [State.keepSlot]
@[simp] theorem State.keepSlot_l2Count : (s.keepSlot).l2Count = s.l2Count := by simp [State.keepSlot]
@[simp] theorem State.keepSlot_flushCtr : (s.keepSlot).flushCtr = s.flushCtr := by simp [State.keepSlot]
@[simp] theorem State.keepSlot_owners : (s.keepSlot).owners = s.owners := by simp [State.keepSlot]
@[simp] theorem State.keepSlot_losing : (s.keepSlot).losing = s.losing := by simp [State.keepSlot]
@[simp] theorem State.keepSlot_lostLines : (s.keepSlot).lostLines = s.lostLines := by simp [State.keepSlot]
@[simp] theorem State.keepSlot_sched : (s.keepSlot).sched = s.sched := by simp [State.keepSlot]
@[simp] theorem State.keepSlot_pages : (s.keepSlot).pages = s.pages := by simp [State.keepSlot]
@[simp] theorem State.keepSlot_spread : (s.keepSlot).spread = s.spread := by simp [State.keepSlot]
@[simp] theorem State.keepSlot_ctxs : (s.keepSlot).ctxs = s.ctxs := by simp [State.keepSlot]
@[simp] theorem State.keepSlot_picots : (s.keepSlot).picots = s.picots := by simp [State.keepSlot]
@[simp] theorem State.keepSlot_queues : (s.keepSlot).queues = s.queues := by simp [State.keepSlot]
@[simp] theorem State.keepSlot_patterns : (s.keepSlot).patterns = s.patterns := by simp [State.keepSlot]
@[simp] theorem State.keepSlot_epochs : (s.keepSlot).epochs = s.epochs := by simp [State.keepSlot]
@[simp] theorem State.keepSlot_peers : (s.keepSlot).peers = s.peers := by simp [State.keepSlot]
@[simp] theorem State.keepSlot_recalls : (s.keepSlot).recalls = s.recalls := by simp [State.keepSlot]
@[simp] theorem State.keepSlot_groups : (s.keepSlot).groups = s.groups := by simp [State.keepSlot]
@[simp] theorem State.keepSlot_calls : (s.keepSlot).calls = s.calls := by simp [State.keepSlot]
@[simp] theorem State.keepSlot_dev : (s.keepSlot).dev = s.dev := by simp [State.keepSlot]
@[simp] theorem State.keepSlot_remote : (s.keepSlot).remote = s.remote := by simp [State.keepSlot]
@[simp] theorem State.keepSlot_overflow : (s.keepSlot).overflow = s.overflow := by simp [State.keepSlot]
@[simp] theorem State.keepSlot_defining : (s.keepSlot).defining = s.defining := by simp [State.keepSlot]
@[simp] theorem State.keepSlot_asked : (s.keepSlot).asked = s.asked := by simp [State.keepSlot]
@[simp] theorem State.keepSlot_outbox : (s.keepSlot).outbox = s.outbox := by simp [State.keepSlot]
@[simp] theorem State.keepSlot_needle : (s.keepSlot).needle = s.needle := by simp [State.keepSlot]
@[simp] theorem State.keepSlot_breaks : (s.keepSlot).breaks = s.breaks := by simp [State.keepSlot]
@[simp] theorem State.keepSlot_succs : (s.keepSlot).succs = s.succs := by simp [State.keepSlot]
@[simp] theorem State.keepSlot_rrQueue : (s.keepSlot).rrQueue = s.rrQueue := by simp [State.keepSlot]
@[simp] theorem State.keepSlot_rrPattern : (s.keepSlot).rrPattern = s.rrPattern := by simp [State.keepSlot]
@[simp] theorem State.keepSlot_rrCore : (s.keepSlot).rrCore = s.rrCore := by simp [State.keepSlot]
@[simp] theorem State.keepSlot_counted : (s.keepSlot).counted = s.counted := by simp [State.keepSlot]
@[simp] theorem State.keepSlot_knotAt : (s.keepSlot).knotAt = s.knotAt := by simp [State.keepSlot]
@[simp] theorem State.keepSlot_lastPath : (s.keepSlot).lastPath = s.lastPath := by simp [State.keepSlot]
end

section
variable (s : State)
@[simp] theorem State.runEnds_cycle : (s.runEnds).cycle = s.cycle := by unfold State.runEnds; split <;> rfl
@[simp] theorem State.runEnds_fresh : (s.runEnds).fresh = s.fresh := by unfold State.runEnds; split <;> rfl
@[simp] theorem State.runEnds_agenda : (s.runEnds).agenda = s.agenda := by unfold State.runEnds; split <;> rfl
@[simp] theorem State.runEnds_now : (s.runEnds).now = s.now := by unfold State.runEnds; split <;> rfl
@[simp] theorem State.runEnds_cord : (s.runEnds).cord = s.cord := by unfold State.runEnds; split <;> rfl
@[simp] theorem State.runEnds_cords : (s.runEnds).cords = s.cords := by unfold State.runEnds; split <;> rfl
@[simp] theorem State.runEnds_motif : (s.runEnds).motif = s.motif := by unfold State.runEnds; split <;> rfl
@[simp] theorem State.runEnds_motifs : (s.runEnds).motifs = s.motifs := by unfold State.runEnds; split <;> rfl
@[simp] theorem State.runEnds_cores : (s.runEnds).cores = s.cores := by unfold State.runEnds; split <;> rfl
@[simp] theorem State.runEnds_mem : (s.runEnds).mem = s.mem := by unfold State.runEnds; split <;> rfl
@[simp] theorem State.runEnds_backing : (s.runEnds).backing = s.backing := by unfold State.runEnds; split <;> rfl
@[simp] theorem State.runEnds_l2 : (s.runEnds).l2 = s.l2 := by unfold State.runEnds; split <;> rfl
@[simp] theorem State.runEnds_l2Count : (s.runEnds).l2Count = s.l2Count := by unfold State.runEnds; split <;> rfl
@[simp] theorem State.runEnds_flushCtr : (s.runEnds).flushCtr = s.flushCtr := by unfold State.runEnds; split <;> rfl
@[simp] theorem State.runEnds_owners : (s.runEnds).owners = s.owners := by unfold State.runEnds; split <;> rfl
@[simp] theorem State.runEnds_losing : (s.runEnds).losing = s.losing := by unfold State.runEnds; split <;> rfl
@[simp] theorem State.runEnds_lostLines : (s.runEnds).lostLines = s.lostLines := by unfold State.runEnds; split <;> rfl
@[simp] theorem State.runEnds_sched : (s.runEnds).sched = s.sched := by unfold State.runEnds; split <;> rfl
@[simp] theorem State.runEnds_pages : (s.runEnds).pages = s.pages := by unfold State.runEnds; split <;> rfl
@[simp] theorem State.runEnds_spread : (s.runEnds).spread = s.spread := by unfold State.runEnds; split <;> rfl
@[simp] theorem State.runEnds_ctxs : (s.runEnds).ctxs = s.ctxs := by unfold State.runEnds; split <;> rfl
@[simp] theorem State.runEnds_picots : (s.runEnds).picots = s.picots := by unfold State.runEnds; split <;> rfl
@[simp] theorem State.runEnds_queues : (s.runEnds).queues = s.queues := by unfold State.runEnds; split <;> rfl
@[simp] theorem State.runEnds_patterns : (s.runEnds).patterns = s.patterns := by unfold State.runEnds; split <;> rfl
@[simp] theorem State.runEnds_epochs : (s.runEnds).epochs = s.epochs := by unfold State.runEnds; split <;> rfl
@[simp] theorem State.runEnds_peers : (s.runEnds).peers = s.peers := by unfold State.runEnds; split <;> rfl
@[simp] theorem State.runEnds_recalls : (s.runEnds).recalls = s.recalls := by unfold State.runEnds; split <;> rfl
@[simp] theorem State.runEnds_groups : (s.runEnds).groups = s.groups := by unfold State.runEnds; split <;> rfl
@[simp] theorem State.runEnds_calls : (s.runEnds).calls = s.calls := by unfold State.runEnds; split <;> rfl
@[simp] theorem State.runEnds_dev : (s.runEnds).dev = s.dev := by unfold State.runEnds; split <;> rfl
@[simp] theorem State.runEnds_remote : (s.runEnds).remote = s.remote := by unfold State.runEnds; split <;> rfl
@[simp] theorem State.runEnds_overflow : (s.runEnds).overflow = s.overflow := by unfold State.runEnds; split <;> rfl
@[simp] theorem State.runEnds_defining : (s.runEnds).defining = s.defining := by unfold State.runEnds; split <;> rfl
@[simp] theorem State.runEnds_asked : (s.runEnds).asked = s.asked := by unfold State.runEnds; split <;> rfl
@[simp] theorem State.runEnds_outbox : (s.runEnds).outbox = s.outbox := by unfold State.runEnds; split <;> rfl
@[simp] theorem State.runEnds_breaks : (s.runEnds).breaks = s.breaks := by unfold State.runEnds; split <;> rfl
@[simp] theorem State.runEnds_succs : (s.runEnds).succs = s.succs := by unfold State.runEnds; split <;> rfl
@[simp] theorem State.runEnds_rrQueue : (s.runEnds).rrQueue = s.rrQueue := by unfold State.runEnds; split <;> rfl
@[simp] theorem State.runEnds_rrPattern : (s.runEnds).rrPattern = s.rrPattern := by unfold State.runEnds; split <;> rfl
@[simp] theorem State.runEnds_rrCore : (s.runEnds).rrCore = s.rrCore := by unfold State.runEnds; split <;> rfl
@[simp] theorem State.runEnds_counted : (s.runEnds).counted = s.counted := by unfold State.runEnds; split <;> rfl
@[simp] theorem State.runEnds_knotAt : (s.runEnds).knotAt = s.knotAt := by unfold State.runEnds; split <;> rfl
@[simp] theorem State.runEnds_lastPath : (s.runEnds).lastPath = s.lastPath := by unfold State.runEnds; split <;> rfl
end

section
variable (m : Motif) (k : Cause) (s : State)
@[simp] theorem State.raised_cycle : (s.raised m k).cycle = s.cycle := by unfold State.raised; split <;> simp
@[simp] theorem State.raised_fresh : (s.raised m k).fresh = s.fresh := by unfold State.raised; split <;> simp
@[simp] theorem State.raised_agenda : (s.raised m k).agenda = s.agenda := by unfold State.raised; split <;> simp
@[simp] theorem State.raised_now : (s.raised m k).now = s.now := by unfold State.raised; split <;> simp
@[simp] theorem State.raised_cord : (s.raised m k).cord = s.cord := by unfold State.raised; split <;> simp
@[simp] theorem State.raised_cords : (s.raised m k).cords = s.cords := by unfold State.raised; split <;> simp
@[simp] theorem State.raised_motif : (s.raised m k).motif = s.motif := by unfold State.raised; split <;> simp
@[simp] theorem State.raised_motifs : (s.raised m k).motifs = s.motifs := by unfold State.raised; split <;> simp
@[simp] theorem State.raised_cores : (s.raised m k).cores = s.cores := by unfold State.raised; split <;> simp
@[simp] theorem State.raised_mem : (s.raised m k).mem = s.mem := by unfold State.raised; split <;> simp
@[simp] theorem State.raised_backing : (s.raised m k).backing = s.backing := by unfold State.raised; split <;> simp
@[simp] theorem State.raised_l2 : (s.raised m k).l2 = s.l2 := by unfold State.raised; split <;> simp
@[simp] theorem State.raised_l2Count : (s.raised m k).l2Count = s.l2Count := by unfold State.raised; split <;> simp
@[simp] theorem State.raised_flushCtr : (s.raised m k).flushCtr = s.flushCtr := by unfold State.raised; split <;> simp
@[simp] theorem State.raised_owners : (s.raised m k).owners = s.owners := by unfold State.raised; split <;> simp
@[simp] theorem State.raised_losing : (s.raised m k).losing = s.losing := by unfold State.raised; split <;> simp
@[simp] theorem State.raised_lostLines : (s.raised m k).lostLines = s.lostLines := by unfold State.raised; split <;> simp
@[simp] theorem State.raised_sched : (s.raised m k).sched = s.sched := by unfold State.raised; split <;> simp
@[simp] theorem State.raised_pages : (s.raised m k).pages = s.pages := by unfold State.raised; split <;> simp
@[simp] theorem State.raised_spread : (s.raised m k).spread = s.spread := by unfold State.raised; split <;> simp
@[simp] theorem State.raised_ctxs : (s.raised m k).ctxs = s.ctxs := by unfold State.raised; split <;> simp
@[simp] theorem State.raised_picots : (s.raised m k).picots = s.picots := by unfold State.raised; split <;> simp
@[simp] theorem State.raised_queues : (s.raised m k).queues = s.queues := by unfold State.raised; split <;> simp
@[simp] theorem State.raised_patterns : (s.raised m k).patterns = s.patterns := by unfold State.raised; split <;> simp
@[simp] theorem State.raised_epochs : (s.raised m k).epochs = s.epochs := by unfold State.raised; split <;> simp
@[simp] theorem State.raised_peers : (s.raised m k).peers = s.peers := by unfold State.raised; split <;> simp
@[simp] theorem State.raised_recalls : (s.raised m k).recalls = s.recalls := by unfold State.raised; split <;> simp
@[simp] theorem State.raised_groups : (s.raised m k).groups = s.groups := by unfold State.raised; split <;> simp
@[simp] theorem State.raised_calls : (s.raised m k).calls = s.calls := by unfold State.raised; split <;> simp
@[simp] theorem State.raised_dev : (s.raised m k).dev = s.dev := by unfold State.raised; split <;> simp
@[simp] theorem State.raised_remote : (s.raised m k).remote = s.remote := by unfold State.raised; split <;> simp
@[simp] theorem State.raised_overflow : (s.raised m k).overflow = s.overflow := by unfold State.raised; split <;> simp
@[simp] theorem State.raised_defining : (s.raised m k).defining = s.defining := by unfold State.raised; split <;> simp
@[simp] theorem State.raised_asked : (s.raised m k).asked = s.asked := by unfold State.raised; split <;> simp
@[simp] theorem State.raised_outbox : (s.raised m k).outbox = s.outbox := by unfold State.raised; split <;> simp
@[simp] theorem State.raised_breaks : (s.raised m k).breaks = s.breaks := by unfold State.raised; split <;> simp
@[simp] theorem State.raised_succs : (s.raised m k).succs = s.succs := by unfold State.raised; split <;> simp
@[simp] theorem State.raised_rrQueue : (s.raised m k).rrQueue = s.rrQueue := by unfold State.raised; split <;> simp
@[simp] theorem State.raised_rrPattern : (s.raised m k).rrPattern = s.rrPattern := by unfold State.raised; split <;> simp
@[simp] theorem State.raised_rrCore : (s.raised m k).rrCore = s.rrCore := by unfold State.raised; split <;> simp
@[simp] theorem State.raised_counted : (s.raised m k).counted = s.counted := by unfold State.raised; split <;> simp
@[simp] theorem State.raised_knotAt : (s.raised m k).knotAt = s.knotAt := by unfold State.raised; split <;> simp
@[simp] theorem State.raised_lastPath : (s.raised m k).lastPath = s.lastPath := by unfold State.raised; split <;> simp
end

section
variable (q code : Nat) (s : State)
@[simp] theorem State.killLaunch_cycle : (State.killLaunch q code s).cycle = s.cycle := rfl
@[simp] theorem State.killLaunch_fresh : (State.killLaunch q code s).fresh = s.fresh := rfl
@[simp] theorem State.killLaunch_agenda : (State.killLaunch q code s).agenda = s.agenda := rfl
@[simp] theorem State.killLaunch_now : (State.killLaunch q code s).now = s.now := rfl
@[simp] theorem State.killLaunch_cord : (State.killLaunch q code s).cord = s.cord := rfl
@[simp] theorem State.killLaunch_cords : (State.killLaunch q code s).cords = s.cords := rfl
@[simp] theorem State.killLaunch_cores : (State.killLaunch q code s).cores = s.cores := rfl
@[simp] theorem State.killLaunch_mem : (State.killLaunch q code s).mem = s.mem := rfl
@[simp] theorem State.killLaunch_backing : (State.killLaunch q code s).backing = s.backing := rfl
@[simp] theorem State.killLaunch_l2 : (State.killLaunch q code s).l2 = s.l2 := rfl
@[simp] theorem State.killLaunch_l2Count : (State.killLaunch q code s).l2Count = s.l2Count := rfl
@[simp] theorem State.killLaunch_flushCtr : (State.killLaunch q code s).flushCtr = s.flushCtr := rfl
@[simp] theorem State.killLaunch_owners : (State.killLaunch q code s).owners = s.owners := rfl
@[simp] theorem State.killLaunch_losing : (State.killLaunch q code s).losing = s.losing := rfl
@[simp] theorem State.killLaunch_lostLines : (State.killLaunch q code s).lostLines = s.lostLines := rfl
@[simp] theorem State.killLaunch_sched : (State.killLaunch q code s).sched = s.sched := rfl
@[simp] theorem State.killLaunch_pages : (State.killLaunch q code s).pages = s.pages := rfl
@[simp] theorem State.killLaunch_spread : (State.killLaunch q code s).spread = s.spread := rfl
@[simp] theorem State.killLaunch_ctxs : (State.killLaunch q code s).ctxs = s.ctxs := rfl
@[simp] theorem State.killLaunch_picots : (State.killLaunch q code s).picots = s.picots := rfl
@[simp] theorem State.killLaunch_queues : (State.killLaunch q code s).queues = s.queues := rfl
@[simp] theorem State.killLaunch_epochs : (State.killLaunch q code s).epochs = s.epochs := rfl
@[simp] theorem State.killLaunch_peers : (State.killLaunch q code s).peers = s.peers := rfl
@[simp] theorem State.killLaunch_recalls : (State.killLaunch q code s).recalls = s.recalls := rfl
@[simp] theorem State.killLaunch_groups : (State.killLaunch q code s).groups = s.groups := rfl
@[simp] theorem State.killLaunch_calls : (State.killLaunch q code s).calls = s.calls := rfl
@[simp] theorem State.killLaunch_dev : (State.killLaunch q code s).dev = s.dev := rfl
@[simp] theorem State.killLaunch_remote : (State.killLaunch q code s).remote = s.remote := rfl
@[simp] theorem State.killLaunch_overflow : (State.killLaunch q code s).overflow = s.overflow := rfl
@[simp] theorem State.killLaunch_defining : (State.killLaunch q code s).defining = s.defining := rfl
@[simp] theorem State.killLaunch_asked : (State.killLaunch q code s).asked = s.asked := rfl
@[simp] theorem State.killLaunch_outbox : (State.killLaunch q code s).outbox = s.outbox := rfl
@[simp] theorem State.killLaunch_needle : (State.killLaunch q code s).needle = s.needle := rfl
@[simp] theorem State.killLaunch_breaks : (State.killLaunch q code s).breaks = s.breaks := rfl
@[simp] theorem State.killLaunch_succs : (State.killLaunch q code s).succs = s.succs := rfl
@[simp] theorem State.killLaunch_rrQueue : (State.killLaunch q code s).rrQueue = s.rrQueue := rfl
@[simp] theorem State.killLaunch_rrPattern : (State.killLaunch q code s).rrPattern = s.rrPattern := rfl
@[simp] theorem State.killLaunch_rrCore : (State.killLaunch q code s).rrCore = s.rrCore := rfl
@[simp] theorem State.killLaunch_counted : (State.killLaunch q code s).counted = s.counted := rfl
@[simp] theorem State.killLaunch_knotAt : (State.killLaunch q code s).knotAt = s.knotAt := rfl
@[simp] theorem State.killLaunch_lastPath : (State.killLaunch q code s).lastPath = s.lastPath := rfl
end

section
variable (f : Cord → Cord) (g : Motif → Motif) (c d m : Nat) (e : Event) (s : State)
@[simp] theorem State.mapCords_cord : (State.mapCords f s).cord = f s.cord := rfl
@[simp] theorem State.mapCords_cords : (State.mapCords f s).cords = s.cords.map f := rfl
@[simp] theorem State.onCord_cord : (State.onCord c f s).cord = if s.cord.cid = c then f s.cord else s.cord := rfl
@[simp] theorem State.onSelf_cord : (State.onSelf f s).cord = f s.cord := rfl
@[simp] theorem State.mapMotifs_motif : (State.mapMotifs g s).motif = g s.motif := rfl
@[simp] theorem State.mapMotifs_motifs : (State.mapMotifs g s).motifs = s.motifs.map g := rfl
@[simp] theorem State.onMotif_motif : (State.onMotif m g s).motif = if s.motif.mid = m then g s.motif else s.motif := rfl
@[simp] theorem State.tick_fresh : s.tick.fresh = s.fresh + 1 := rfl
@[simp] theorem State.after_agenda : (State.after d e s).agenda = s.agenda ++ [⟨s.cycle + d, e⟩] := rfl
@[simp] theorem State.afterFree_fresh : (State.afterFree d e s).fresh = s.fresh + 1 := rfl
@[simp] theorem State.afterFree_agenda :
    (State.afterFree d e s).agenda = s.agenda ++ [⟨s.cycle + (d + Config.freeDelay s.fresh), e⟩] := rfl
end

end Sys2Proof.Machine
end

