-- ==== Sys2Proof/Laws/Mem.lean ====
section
/-! SUPPORT. Laws/Mem.lean: what the memory operations do to memory, that each keeps its canonical form, and what a
translation that hits comes to. -/

namespace Sys2Proof.Machine

open Claims

/-! Operations that leave memory alone. -/

/-- A fold of steps that keep a property keeps it. -/
theorem foldl_keeps {α β : Type} (p : β → Prop) (f : β → α → β) (l : List α) (h : ∀ b a, p b → p (f b a)) (b : β) (hb : p b) :
    p (l.foldl f b) := by
  induction l generalizing b with
  | nil => exact hb
  | cons a l ih => exact ih _ (h b a hb)

/-- Home content and backing content of two states are equal. -/
def SameMem (s t : State) : Prop := t.mem = s.mem ∧ t.backing = s.backing

theorem SameMem.refl (s : State) : SameMem s s := ⟨rfl, rfl⟩

theorem SameMem.canon {s t : State} (h : SameMem s t) (hs : Canon s) : Canon t := by
  obtain ⟨h1, h2⟩ := h
  unfold Canon
  rw [h1, h2]
  exact hs

theorem killGroup_sameMem (ctx grp code : Nat) (s : State) : SameMem s (s.killGroup ctx grp code) :=
  foldl_keeps (SameMem s) (fun s (p : Pattern) => s.killLaunch p.q code) _ (fun _ _ h => h) s (SameMem.refl s)

theorem noteWrite_sameMem (b : Agent) (a : Nat) (s : State) : SameMem s (s.noteWrite b a).1 := by
  unfold State.noteWrite
  refine foldl_keeps (fun r : State × Bool => SameMem s r.1) _ _ (fun r e h => ?_) (s, true) (SameMem.refl s)
  dsimp only
  split
  · exact h
  · have := killGroup_sameMem e.ctx e.grp 0x25 r.1
    exact ⟨this.1.trans h.1, this.2.trans h.2⟩

theorem ownerLoss_sameMem (k line : Nat) (ws : Word) (s : State) : SameMem s (s.ownerLoss k line ws) := by
  unfold State.ownerLoss
  split <;> exact ⟨rfl, rfl⟩

theorem takeOwner_sameMem (b : Option Nat) (line : Nat) (ws : Word) (s : State) : SameMem s (s.takeOwner b line ws) := by
  have := foldl_keeps (SameMem s) (fun s (o : Nat × Nat) => s.ownerLoss o.2 line (maskOf [o.1 % 32]))
    (s.owners.filter fun o => ((lanesOf ws).map fun w => line * 32 + w).contains o.1 && some o.2 != b)
    (fun t o h => let n := ownerLoss_sameMem o.2 line (maskOf [o.1 % 32]) t; ⟨n.1.trans h.1, n.2.trans h.2⟩) s (SameMem.refl s)
  exact this

/-! Operations on lines. -/

theorem canon_reset : Canon State.reset := ⟨rfl, rfl⟩

theorem canon_writeBack (line : Nat) (s : State) (h : Canon s) : Canon (s.writeBack line) :=
  ⟨h.1, SMap.wf_setAll 0 _ _ h.2⟩

@[simp] theorem l2Fetch_mem (line : Nat) (s : State) : (s.l2Fetch line).mem = s.mem := by
  unfold State.l2Fetch
  split
  · rfl
  · dsimp only
    rcases s.victim (s.homeOf line) (Config.l2Set line % 256) with ⟨way, _ | x⟩
    · rfl
    · show (if x.dirty = true then s.writeBack x.line else s).mem = s.mem
      split <;> rfl

theorem canon_l2Fetch (line : Nat) (s : State) (h : Canon s) : Canon (s.l2Fetch line) := by
  unfold State.l2Fetch
  split
  · exact h
  · dsimp only
    rcases s.victim (s.homeOf line) (Config.l2Set line % 256) with ⟨way, _ | x⟩
    · exact h
    · show Canon (if x.dirty = true then s.writeBack x.line else s)
      split
      · exact canon_writeBack x.line s h
      · exact h

@[simp] theorem l2Dirty_mem (line : Nat) (s : State) : (s.l2Dirty line).mem = s.mem := l2Fetch_mem line s

theorem canon_l2Dirty (line : Nat) (s : State) (h : Canon s) : Canon (s.l2Dirty line) := canon_l2Fetch line s h

/-- A write at the home puts its cells in memory. -/
theorem poke_mem (ws : List (Nat × Byte)) (s : State) : (s.poke ws).mem = SMap.setAll 0 s.mem ws := by
  cases ws with
  | nil => rfl
  | cons w ws => exact l2Dirty_mem _ _

theorem canon_poke (ws : List (Nat × Byte)) (s : State) (h : Canon s) : Canon (s.poke ws) := by
  cases ws with
  | nil => exact h
  | cons w ws =>
    refine canon_l2Dirty _ _ ⟨?_, h.2⟩
    exact SMap.wf_setAll 0 _ _ h.1

theorem canon_homeWrite (b : Agent) (ws : List (Nat × Byte)) (s : State) (h : Canon s) : Canon (s.homeWrite b ws) := by
  cases ws with
  | nil => exact h
  | cons w ws =>
    have hn := (noteWrite_sameMem b w.1 s).canon h
    show Canon (if (s.noteWrite b w.1).2 = true then (s.noteWrite b w.1).1.poke (w :: ws) else (s.noteWrite b w.1).1)
    split
    · exact canon_poke _ _ hn
    · exact hn

theorem canon_dropLine (b : Agent) (line : Nat) (s : State) (h : Canon s) : Canon (s.dropLine b line) := by
  unfold State.dropLine
  split
  · exact h
  · have hn := (noteWrite_sameMem b (line * 128) s).canon h
    show Canon (if (!(s.noteWrite b (line * 128)).2) = true then (s.noteWrite b (line * 128)).1 else _)
    split
    · exact hn
    · have ht := (takeOwner_sameMem none line 0xFFFFFFFF (s.noteWrite b (line * 128)).1).canon hn
      exact ⟨SMap.wf_setAll 0 _ _ ht.1, ht.2⟩

/-! What is read after a write. -/

theorem byte_poke_ne (ws : List (Nat × Byte)) (s : State) (a : Nat) (h : ∀ w ∈ ws, w.1 ≠ a) : (s.poke ws).byte a = s.byte a := by
  unfold State.byte
  rw [poke_mem, SMap.get_setAll_ne _ _ _ _ h]

theorem byte_poke_mem (ws : List (Nat × Byte)) (s : State) (hn : (ws.map (·.1)).Nodup) (w : Nat × Byte) (h : w ∈ ws) :
    (s.poke ws).byte w.1 = w.2 := by
  unfold State.byte
  rw [poke_mem, SMap.get_setAll_mem _ _ _ hn w h]

/-- The cells of a byte string from a on: byte i at a + i. -/
theorem mem_cellsAt (a : Nat) (bs : List Byte) (w : Nat × Byte) : w ∈ cellsAt a bs ↔ ∃ i < bs.length, w = (a + i, bs.getD i 0) := by
  unfold cellsAt
  rw [List.mem_map]
  constructor
  · rintro ⟨⟨b, i⟩, h, rfl⟩
    obtain ⟨h1, h2⟩ := List.mem_zipIdx' h
    refine ⟨i, h1, ?_⟩
    simp [List.getD_eq_getElem?_getD, List.getElem?_eq_getElem h1, h2]
  · rintro ⟨i, hi, rfl⟩
    refine ⟨(bs[i], i), ?_, ?_⟩
    · exact List.mk_mem_zipIdx_iff_getElem?.2 (List.getElem?_eq_getElem hi)
    · simp [List.getD_eq_getElem?_getD, List.getElem?_eq_getElem hi]

theorem cellsAt_keys (a : Nat) (bs : List Byte) : (cellsAt a bs).map (·.1) = (List.range bs.length).map (a + ·) := by
  unfold cellsAt
  rw [List.map_map]
  apply List.ext_getElem <;> simp

theorem cellsAt_nodup (a : Nat) (bs : List Byte) : ((cellsAt a bs).map (·.1)).Nodup := by
  rw [cellsAt_keys]
  refine (List.nodup_map_iff fun x y h => ?_).2 List.nodup_range
  simpa using h

/-! A write at its home, by what it does to memory and to the rest. -/

/-- Without an owner of the line, no one hears of a write to it (R200). -/
theorem owedNotices_none {s : State} {line : Nat} (b : Option Nat) (ws : Word) (h : ∀ o ∈ s.owners, o.1 / 32 ≠ line) :
    s.owedNotices b line ws = [] := by
  have : s.owners.filter (fun o => o.1 / 32 == line && bit ws (o.1 % 32) && some o.2 != b) = [] := by
    rw [List.filter_eq_nil_iff]; intro o ho; simp [h o ho]
  unfold State.owedNotices
  rw [this]; rfl

/-- Taking ownership of words of a line that no one owns, for no one, changes nothing (R200). -/
theorem takeOwner_none {s : State} {line : Nat} (ws : Word) (h : ∀ o ∈ s.owners, o.1 / 32 ≠ line) : s.takeOwner none line ws = s := by
  have hc : ∀ o ∈ s.owners, ((lanesOf ws).map fun w => line * 32 + w).contains o.1 = false := by
    intro o ho
    rw [Bool.eq_false_iff]
    intro hx
    obtain ⟨w, hw, e⟩ := List.mem_map.1 (List.contains_iff_mem.1 hx)
    have : w < 32 := by
      unfold lanesOf at hw; simpa using (List.mem_filter.1 hw).1
    exact h o ho (by omega)
  have h1 : s.owners.filter (fun o => ((lanesOf ws).map fun w => line * 32 + w).contains o.1 && some o.2 != none) = [] := by
    rw [List.filter_eq_nil_iff]; intro o ho; rw [hc o ho]; simp
  have h2 : s.owners.filter (fun o => !((lanesOf ws).map fun w => line * 32 + w).contains o.1) = s.owners := by
    rw [List.filter_eq_self]; intro o ho; rw [hc o ho]; rfl
  unfold State.takeOwner
  dsimp only
  rw [h1, List.foldl_nil, h2]

/-- Outside the register window and with no rollback epoch open, a write at its home puts its cells there (R199). -/
theorem performWrite_poke {s : State} {ws : List (Nat × Byte)} (b : Agent) (he : s.epochs = [])
    (h : ∀ w ∈ ws.head?, (s.isLocal w.1 && inWindow w.1) = false) : s.performWrite b ws = s.poke ws := by
  cases ws with
  | nil => rfl
  | cons w ws =>
    have hn : s.noteWrite b w.1 = (s, true) := by simp [State.noteWrite, he]
    unfold State.performWrite State.homeWrite
    simp [h w (by simp), hn]

theorem l2Fetch_keeps {β : Type} (g : State → β) (h1 : ∀ (s : State) l n, g { s with l2 := l, l2Count := n } = g s)
    (h2 : ∀ (s : State) m, g { s with backing := m } = g s) (line : Nat) (s : State) : g (s.l2Fetch line) = g s := by
  have hw : ∀ l, g (s.writeBack l) = g s := fun l => by
    have := h1 { s with backing := SMap.setAll 0 s.backing (lineCells s.mem l) } (s.writeBack l).l2 (s.writeBack l).l2Count
    exact this.trans (h2 s _)
  unfold State.l2Fetch
  split
  · rfl
  · dsimp only
    rcases s.victim (s.homeOf line) (Config.l2Set line % 256) with ⟨way, _ | x⟩
    · exact h1 s _ _
    · have e : g (if x.dirty = true then s.writeBack x.line else s) = g s := by
        split
        · exact hw _
        · rfl
      exact (h1 _ _ _).trans ((h1 _ _ _).trans e)

/-- A write at its home changes memory, backing and slices, and nothing else. -/
theorem poke_keeps {β : Type} (g : State → β) (h1 : ∀ (s : State) l n, g { s with l2 := l, l2Count := n } = g s)
    (h2 : ∀ (s : State) m, g { s with backing := m } = g s) (h3 : ∀ (s : State) m, g { s with mem := m } = g s)
    (ws : List (Nat × Byte)) (s : State) : g (s.poke ws) = g s := by
  cases ws with
  | nil => rfl
  | cons w ws =>
    unfold State.poke State.l2Dirty
    exact (h1 _ _ _).trans ((l2Fetch_keeps g h1 h2 _ _).trans (h3 _ _))

@[simp] theorem poke_cycle (ws : List (Nat × Byte)) (s : State) : (s.poke ws).cycle = s.cycle :=
  poke_keeps (·.cycle) (fun _ _ _ => rfl) (fun _ _ => rfl) (fun _ _ => rfl) ws s
@[simp] theorem poke_fresh (ws : List (Nat × Byte)) (s : State) : (s.poke ws).fresh = s.fresh :=
  poke_keeps (·.fresh) (fun _ _ _ => rfl) (fun _ _ => rfl) (fun _ _ => rfl) ws s
@[simp] theorem poke_agenda (ws : List (Nat × Byte)) (s : State) : (s.poke ws).agenda = s.agenda :=
  poke_keeps (·.agenda) (fun _ _ _ => rfl) (fun _ _ => rfl) (fun _ _ => rfl) ws s
@[simp] theorem poke_now (ws : List (Nat × Byte)) (s : State) : (s.poke ws).now = s.now :=
  poke_keeps (·.now) (fun _ _ _ => rfl) (fun _ _ => rfl) (fun _ _ => rfl) ws s
@[simp] theorem poke_cord (ws : List (Nat × Byte)) (s : State) : (s.poke ws).cord = s.cord :=
  poke_keeps (·.cord) (fun _ _ _ => rfl) (fun _ _ => rfl) (fun _ _ => rfl) ws s
@[simp] theorem poke_cords (ws : List (Nat × Byte)) (s : State) : (s.poke ws).cords = s.cords :=
  poke_keeps (·.cords) (fun _ _ _ => rfl) (fun _ _ => rfl) (fun _ _ => rfl) ws s
@[simp] theorem poke_motif (ws : List (Nat × Byte)) (s : State) : (s.poke ws).motif = s.motif :=
  poke_keeps (·.motif) (fun _ _ _ => rfl) (fun _ _ => rfl) (fun _ _ => rfl) ws s
@[simp] theorem poke_motifs (ws : List (Nat × Byte)) (s : State) : (s.poke ws).motifs = s.motifs :=
  poke_keeps (·.motifs) (fun _ _ _ => rfl) (fun _ _ => rfl) (fun _ _ => rfl) ws s
@[simp] theorem poke_cores (ws : List (Nat × Byte)) (s : State) : (s.poke ws).cores = s.cores :=
  poke_keeps (·.cores) (fun _ _ _ => rfl) (fun _ _ => rfl) (fun _ _ => rfl) ws s
@[simp] theorem poke_owners (ws : List (Nat × Byte)) (s : State) : (s.poke ws).owners = s.owners :=
  poke_keeps (·.owners) (fun _ _ _ => rfl) (fun _ _ => rfl) (fun _ _ => rfl) ws s
@[simp] theorem poke_ctxs (ws : List (Nat × Byte)) (s : State) : (s.poke ws).ctxs = s.ctxs :=
  poke_keeps (·.ctxs) (fun _ _ _ => rfl) (fun _ _ => rfl) (fun _ _ => rfl) ws s
@[simp] theorem poke_queues (ws : List (Nat × Byte)) (s : State) : (s.poke ws).queues = s.queues :=
  poke_keeps (·.queues) (fun _ _ _ => rfl) (fun _ _ => rfl) (fun _ _ => rfl) ws s
@[simp] theorem poke_patterns (ws : List (Nat × Byte)) (s : State) : (s.poke ws).patterns = s.patterns :=
  poke_keeps (·.patterns) (fun _ _ _ => rfl) (fun _ _ => rfl) (fun _ _ => rfl) ws s
@[simp] theorem poke_epochs (ws : List (Nat × Byte)) (s : State) : (s.poke ws).epochs = s.epochs :=
  poke_keeps (·.epochs) (fun _ _ _ => rfl) (fun _ _ => rfl) (fun _ _ => rfl) ws s
@[simp] theorem poke_succs (ws : List (Nat × Byte)) (s : State) : (s.poke ws).succs = s.succs :=
  poke_keeps (·.succs) (fun _ _ _ => rfl) (fun _ _ => rfl) (fun _ _ => rfl) ws s
@[simp] theorem poke_recalls (ws : List (Nat × Byte)) (s : State) : (s.poke ws).recalls = s.recalls :=
  poke_keeps (·.recalls) (fun _ _ _ => rfl) (fun _ _ => rfl) (fun _ _ => rfl) ws s
@[simp] theorem poke_groups (ws : List (Nat × Byte)) (s : State) : (s.poke ws).groups = s.groups :=
  poke_keeps (·.groups) (fun _ _ _ => rfl) (fun _ _ => rfl) (fun _ _ => rfl) ws s
@[simp] theorem poke_calls (ws : List (Nat × Byte)) (s : State) : (s.poke ws).calls = s.calls :=
  poke_keeps (·.calls) (fun _ _ _ => rfl) (fun _ _ => rfl) (fun _ _ => rfl) ws s
@[simp] theorem poke_dev (ws : List (Nat × Byte)) (s : State) : (s.poke ws).dev = s.dev :=
  poke_keeps (·.dev) (fun _ _ _ => rfl) (fun _ _ => rfl) (fun _ _ => rfl) ws s
@[simp] theorem poke_outbox (ws : List (Nat × Byte)) (s : State) : (s.poke ws).outbox = s.outbox :=
  poke_keeps (·.outbox) (fun _ _ _ => rfl) (fun _ _ => rfl) (fun _ _ => rfl) ws s
@[simp] theorem poke_pages (ws : List (Nat × Byte)) (s : State) : (s.poke ws).pages = s.pages :=
  poke_keeps (·.pages) (fun _ _ _ => rfl) (fun _ _ => rfl) (fun _ _ => rfl) ws s
@[simp] theorem poke_picots (ws : List (Nat × Byte)) (s : State) : (s.poke ws).picots = s.picots :=
  poke_keeps (·.picots) (fun _ _ _ => rfl) (fun _ _ => rfl) (fun _ _ => rfl) ws s

/-! Translation. -/

/-- A list without causes has no lowest fault. -/
theorem lowestFault_nil : lowestFault [] = none := rfl

/-- Addresses that all hit pages that allow what is needed translate, with the 2-cycle hold of a hit (R146). -/
theorem xlate_hits {s : State} {n : Need} {vas : List Nat} {ps : List Page} (h : Hits s n vas ps) :
    s.xlate (vas.map fun va => (va, n)) = .ok (translated s) ps := by
  obtain ⟨hl, h⟩ := h
  have key : ∀ x ∈ vas.zip ps, s.lookup s.cord x.1 = some (some x.2) := fun x hx => (h x hx).1
  have hv : ∀ va ∈ vas, ∃ p, (va, p) ∈ vas.zip ps := by
    intro va hva
    obtain ⟨i, hi, rfl⟩ := List.mem_iff_getElem.1 hva
    exact ⟨ps[i], List.mem_iff_getElem.2 ⟨i, by simp [hl.symm, hi], by simp⟩⟩
  have h1 : (vas.map fun va => (va, n)).filter (fun v => (s.lookup s.cord v.1).isNone) = [] := by
    rw [List.filter_eq_nil_iff]
    intro x hx
    obtain ⟨va, hva, rfl⟩ := List.mem_map.1 hx
    obtain ⟨p, hp⟩ := hv va hva
    simp [key _ hp]
  have h2 : (vas.map fun va => (va, n)).map (fun x => (x.1, x.2, (s.lookup s.cord x.1).getD none)) =
      (vas.zip ps).map fun x => (x.1, n, some x.2) := by
    apply List.ext_getElem
    · simp [hl]
    · intro i hi hj
      simp only [List.length_map, List.length_zip] at hi hj
      have := key (vas[i], ps[i]) (List.mem_iff_getElem.2 ⟨i, by simp [hl] at *; omega, by simp⟩)
      simp [this]
  have h3 : ((vas.zip ps).map fun x => (x.1, n, some x.2)).filterMap
      (fun x => (s.pageFault s.sys x.2.1 x.1 x.2.2).map fun k => (x.1, k)) = [] := by
    rw [List.filterMap_eq_nil_iff]
    intro x hx
    obtain ⟨y, hy, rfl⟩ := List.mem_map.1 hx
    simp [(h y hy).2]
  have h4 : ((vas.zip ps).map fun x => (x.1, n, some x.2)).filterMap (fun x => x.2.2) = ps := by
    rw [List.filterMap_map]
    show List.filterMap (some ∘ Prod.snd) (vas.zip ps) = ps
    rw [List.filterMap_eq_map, List.map_snd_zip (by omega)]
  unfold State.xlate
  simp only [h1, List.map_nil, List.eraseDups_nil, List.isEmpty_nil, Bool.not_true, Bool.false_eq_true, ↓reduceIte]
  rw [h2, h3, h4, lowestFault_nil]
  rfl

theorem withPages_hits {s : State} {n : Need} {vas : List Nat} {ps : List Page} (h : Hits s n vas ps) (k : List Page → State → Res) :
    withPages vas n s k = k ps (translated s) := by
  unfold withPages withNeeds
  rw [xlate_hits h]

end Sys2Proof.Machine
end

