-- ==== Sys2Proof/Laws/Records.lean ====
section
/-! SUPPORT. Laws/Records.lean: what a cord, motif, core, context, picot cache or queue reads as after one of them has
changed, once for each kind of record, and what register writes leave of a cord. -/

namespace Sys2Proof.Machine

/-- In a list whose entries with key k are changed by g, the first entry of key j that p admits is the first before,
changed if j is k. -/
theorem find_change {α : Type} (l : List α) (key : α → Nat) (p : α → Bool) (k j : Nat) (g : α → α)
    (hk : ∀ x, key (g x) = key x) (hp : ∀ x, p (g x) = p x) :
    (l.map fun x => if key x = k then g x else x).find? (fun x => p x && key x == j) =
      if j = k then (l.find? fun x => p x && key x == k).map g else l.find? fun x => p x && key x == j := by
  induction l with
  | nil => simp
  | cons x l ih =>
    simp only [List.map_cons, List.find?_cons, ih]
    by_cases hx : key x = k
    · by_cases hj : j = k
      · subst hj; cases hq : p x <;> simp [hx, hk, hp, hq]
      · have : (k == j) = false := by simpa using fun e : k = j => hj e.symm
        cases hq : p x <;> simp [hx, hk, hp, hq, hj, this]
    · by_cases hj : j = k
      · have : (key x == j) = false := by simpa [hj] using hx
        subst hj; cases hq : p x <;> simp [hx, hq, this]
      · cases hq : p x <;> simp [hx, hq, hj]

theorem findCord_onCord (c d : Nat) (f : Cord → Cord) (s : State) (hc : ∀ x, (f x).cid = x.cid) (hl : ∀ x, (f x).live = x.live) :
    (s.onCord c f).findCord d = if d = c then (s.findCord c).map f else s.findCord d := by
  simpa [State.findCord, State.onCord, State.mapCords] using
    find_change (s.cord :: s.cords) (·.cid) (·.live) c d f hc hl

theorem findCord_onCord_self {c : Nat} {f : Cord → Cord} {s : State} {x : Cord} (hc : ∀ x, (f x).cid = x.cid)
    (hl : ∀ x, (f x).live = x.live) (h : s.findCord c = some x) : (s.onCord c f).findCord c = some (f x) := by
  rw [findCord_onCord c c f s hc hl, if_pos rfl, h]; rfl

theorem cordRec_onCord (c d : Nat) (f : Cord → Cord) (s : State) (hc : ∀ x, (f x).cid = x.cid) :
    (s.onCord c f).cordRec d = if d = c then (s.cordRec c).map f else s.cordRec d := by
  have := find_change (s.cord :: s.cords) (·.cid) (fun _ => true) c d f hc fun _ => rfl
  simp only [Bool.true_and] at this
  exact this

/-- A live cord that its number finds first is also found among the live ones. -/
theorem findCord_of_cordRec {s : State} {c : Nat} {x : Cord} (h : s.cordRec c = some x) (hl : x.live = true) : s.findCord c = some x := by
  have key : ∀ l : List Cord, l.find? (fun x => x.cid == c) = some x → l.find? (fun x => x.live && x.cid == c) = some x := by
    intro l h
    rw [List.find?_eq_some_iff_append] at h ⊢
    obtain ⟨hx, as, bs, e, hn⟩ := h
    exact ⟨by simp [hl, hx], as, bs, e, fun a ha => by simp [hn a ha]⟩
  exact key _ h

theorem findMotif_onMotif (m n : Nat) (f : Motif → Motif) (s : State) (h : ∀ x, (f x).mid = x.mid) :
    (s.onMotif m f).findMotif n = if n = m then (s.findMotif m).map f else s.findMotif n := by
  have := find_change (s.motif :: s.motifs) (·.mid) (fun x => x.mid != 0) m n f h fun x => by rw [h]
  unfold State.findMotif State.allMotifs
  rw [List.find?_filter, List.find?_filter, List.find?_filter]
  simp only [Bool.decide_and, Bool.decide_eq_true]
  exact this

theorem coreOf_onCore (k j : Nat) (f : Core → Core) (s : State) (h : ∀ x, (f x).core = x.core) :
    (s.onCore k f).coreOf j = if j = k then f (s.coreOf k) else s.coreOf j := by
  unfold State.onCore State.coreOf
  split
  · rename_i hk
    have := find_change s.cores (·.core) (fun _ => true) k j f h fun _ => rfl
    simp only [Bool.true_and] at this
    rw [this]
    split
    · obtain ⟨x, hx, hx'⟩ := List.any_eq_true.mp hk
      cases hf : s.cores.find? (fun x => x.core == k) with
      | none => exact absurd hx' (by simpa using List.find?_eq_none.mp hf x hx)
      | some y => simp
    · rfl
  · rename_i hk
    have hk' : s.cores.find? (fun x => x.core == k) = none := by
      rw [List.find?_eq_none]; intro x hx hx'; exact hk (List.any_eq_true.mpr ⟨x, hx, hx'⟩)
    simp only [List.find?_append]
    split
    · subst j; simp [hk', h]
    · rename_i hj
      have : ¬ k = j := fun e => hj e.symm
      simp [h, this]

theorem ctxOf_onCtx (k j : Nat) (f : Ctx → Ctx) (s : State) (h : ∀ x, (f x).id = x.id) :
    (s.onCtx k f).ctxOf j = if j = k then f (s.ctxOf k) else s.ctxOf j := by
  unfold State.onCtx State.ctxOf
  split
  · rename_i hk
    have := find_change s.ctxs (·.id) (fun _ => true) k j f h fun _ => rfl
    simp only [Bool.true_and] at this
    rw [this]
    split
    · obtain ⟨x, hx, hx'⟩ := List.any_eq_true.mp hk
      cases hf : s.ctxs.find? (fun x => x.id == k) with
      | none => exact absurd hx' (by simpa using List.find?_eq_none.mp hf x hx)
      | some y => simp
    · rfl
  · rename_i hk
    have hk' : s.ctxs.find? (fun x => x.id == k) = none := by
      rw [List.find?_eq_none]; intro x hx hx'; exact hk (List.any_eq_true.mpr ⟨x, hx, hx'⟩)
    simp only [List.find?_append]
    split
    · subst j; simp [hk', h]
    · rename_i hj
      have : ¬ k = j := fun e => hj e.symm
      simp [h, this]

theorem picotOf_onPicot (k j : Nat) (f : Picot → Picot) (s : State) (h : ∀ x, (f x).cl = x.cl) :
    (s.onPicot k f).picotOf j = if j = k then f (s.picotOf k) else s.picotOf j := by
  unfold State.onPicot State.picotOf
  split
  · rename_i hk
    have := find_change s.picots (·.cl) (fun _ => true) k j f h fun _ => rfl
    simp only [Bool.true_and] at this
    rw [this]
    split
    · obtain ⟨x, hx, hx'⟩ := List.any_eq_true.mp hk
      cases hf : s.picots.find? (fun x => x.cl == k) with
      | none => exact absurd hx' (by simpa using List.find?_eq_none.mp hf x hx)
      | some y => simp
    · rfl
  · rename_i hk
    have hk' : s.picots.find? (fun x => x.cl == k) = none := by
      rw [List.find?_eq_none]; intro x hx hx'; exact hk (List.any_eq_true.mpr ⟨x, hx, hx'⟩)
    simp only [List.find?_append]
    split
    · subst j; simp [hk', h]
    · rename_i hj
      have : ¬ k = j := fun e => hj e.symm
      simp [h, this]

theorem queueOf_onQueue (k j : Nat) (f : Queue → Queue) (s : State) :
    (s.onQueue k f).queueOf j = if j = k then f (s.queueOf k) else s.queueOf j := by
  unfold State.onQueue State.queueOf
  exact SMap.get_upd _ s.queues k j f

/-! Register writes leave the rest of a cord alone. -/

/-- What each single register write leaves, a list of them leaves. -/
theorem applyAll_keeps {β : Type} (g : Cord → β) (h : ∀ c w, g (Cord.apply c w) = g c) (c : Cord) (ws : List RegWrite) :
    g (c.applyAll ws) = g c := by
  unfold Cord.applyAll
  induction ws generalizing c with
  | nil => rfl
  | cons w ws ih => rw [List.foldl_cons, ih, h]

@[simp] theorem applyAll_cid (c : Cord) (ws : List RegWrite) : (c.applyAll ws).cid = c.cid :=
  applyAll_keeps (·.cid) (fun _ w => by cases w <;> rfl) c ws
@[simp] theorem applyAll_live (c : Cord) (ws : List RegWrite) : (c.applyAll ws).live = c.live :=
  applyAll_keeps (·.live) (fun _ w => by cases w <;> rfl) c ws
@[simp] theorem applyAll_mid (c : Cord) (ws : List RegWrite) : (c.applyAll ws).mid = c.mid :=
  applyAll_keeps (·.mid) (fun _ w => by cases w <;> rfl) c ws
@[simp] theorem applyAll_ctx (c : Cord) (ws : List RegWrite) : (c.applyAll ws).ctx = c.ctx :=
  applyAll_keeps (·.ctx) (fun _ w => by cases w <;> rfl) c ws
@[simp] theorem applyAll_core (c : Cord) (ws : List RegWrite) : (c.applyAll ws).core = c.core :=
  applyAll_keeps (·.core) (fun _ w => by cases w <;> rfl) c ws
@[simp] theorem applyAll_slot (c : Cord) (ws : List RegWrite) : (c.applyAll ws).slot = c.slot :=
  applyAll_keeps (·.slot) (fun _ w => by cases w <;> rfl) c ws
@[simp] theorem applyAll_idx (c : Cord) (ws : List RegWrite) : (c.applyAll ws).idx = c.idx :=
  applyAll_keeps (·.idx) (fun _ w => by cases w <;> rfl) c ws
@[simp] theorem applyAll_role (c : Cord) (ws : List RegWrite) : (c.applyAll ws).role = c.role :=
  applyAll_keeps (·.role) (fun _ w => by cases w <;> rfl) c ws
@[simp] theorem applyAll_wb (c : Cord) (ws : List RegWrite) : (c.applyAll ws).wb = c.wb :=
  applyAll_keeps (·.wb) (fun _ w => by cases w <;> rfl) c ws
@[simp] theorem applyAll_cl (c : Cord) (ws : List RegWrite) : (c.applyAll ws).cl = c.cl :=
  applyAll_keeps (·.cl) (fun _ w => by cases w <;> rfl) c ws
@[simp] theorem applyAll_threads (c : Cord) (ws : List RegWrite) : (c.applyAll ws).threads = c.threads :=
  applyAll_keeps (·.threads) (fun _ w => by cases w <;> rfl) c ws
@[simp] theorem applyAll_eyes (c : Cord) (ws : List RegWrite) : (c.applyAll ws).eyes = c.eyes :=
  applyAll_keeps (·.eyes) (fun _ w => by cases w <;> rfl) c ws
@[simp] theorem applyAll_epoch (c : Cord) (ws : List RegWrite) : (c.applyAll ws).epoch = c.epoch :=
  applyAll_keeps (·.epoch) (fun _ w => by cases w <;> rfl) c ws
@[simp] theorem applyAll_ops (c : Cord) (ws : List RegWrite) : (c.applyAll ws).ops = c.ops :=
  applyAll_keeps (·.ops) (fun _ w => by cases w <;> rfl) c ws
@[simp] theorem applyAll_rels (c : Cord) (ws : List RegWrite) : (c.applyAll ws).rels = c.rels :=
  applyAll_keeps (·.rels) (fun _ w => by cases w <;> rfl) c ws
@[simp] theorem applyAll_ldcnt (c : Cord) (ws : List RegWrite) : (c.applyAll ws).ldcnt = c.ldcnt :=
  applyAll_keeps (·.ldcnt) (fun _ w => by cases w <;> rfl) c ws
@[simp] theorem applyAll_stcnt (c : Cord) (ws : List RegWrite) : (c.applyAll ws).stcnt = c.stcnt :=
  applyAll_keeps (·.stcnt) (fun _ w => by cases w <;> rfl) c ws
@[simp] theorem applyAll_f (c : Cord) (ws : List RegWrite) : (c.applyAll ws).f = c.f :=
  applyAll_keeps (·.f) (fun _ w => by cases w <;> rfl) c ws
@[simp] theorem applyAll_wait (c : Cord) (ws : List RegWrite) : (c.applyAll ws).wait = c.wait :=
  applyAll_keeps (·.wait) (fun _ w => by cases w <;> rfl) c ws
@[simp] theorem applyAll_blk (c : Cord) (ws : List RegWrite) : (c.applyAll ws).blk = c.blk :=
  applyAll_keeps (·.blk) (fun _ w => by cases w <;> rfl) c ws
@[simp] theorem applyAll_trap (c : Cord) (ws : List RegWrite) : (c.applyAll ws).trap = c.trap :=
  applyAll_keeps (·.trap) (fun _ w => by cases w <;> rfl) c ws
@[simp] theorem applyAll_pend (c : Cord) (ws : List RegWrite) : (c.applyAll ws).pend = c.pend :=
  applyAll_keeps (·.pend) (fun _ w => by cases w <;> rfl) c ws
@[simp] theorem applyAll_async (c : Cord) (ws : List RegWrite) : (c.applyAll ws).async = c.async :=
  applyAll_keeps (·.async) (fun _ w => by cases w <;> rfl) c ws
@[simp] theorem applyAll_resume (c : Cord) (ws : List RegWrite) : (c.applyAll ws).resume = c.resume :=
  applyAll_keeps (·.resume) (fun _ w => by cases w <;> rfl) c ws
@[simp] theorem applyAll_chosen (c : Cord) (ws : List RegWrite) : (c.applyAll ws).chosen = c.chosen :=
  applyAll_keeps (·.chosen) (fun _ w => by cases w <;> rfl) c ws
@[simp] theorem applyAll_tiles (c : Cord) (ws : List RegWrite) : (c.applyAll ws).tiles = c.tiles :=
  applyAll_keeps (·.tiles) (fun _ w => by cases w <;> rfl) c ws
@[simp] theorem applyAll_amode (c : Cord) (ws : List RegWrite) : (c.applyAll ws).amode = c.amode :=
  applyAll_keeps (·.amode) (fun _ w => by cases w <;> rfl) c ws
@[simp] theorem applyAll_chain (c : Cord) (ws : List RegWrite) : (c.applyAll ws).chain = c.chain :=
  applyAll_keeps (·.chain) (fun _ w => by cases w <;> rfl) c ws
@[simp] theorem applyAll_fpctl (c : Cord) (ws : List RegWrite) : (c.applyAll ws).fpctl = c.fpctl :=
  applyAll_keeps (·.fpctl) (fun _ w => by cases w <;> rfl) c ws

end Sys2Proof.Machine
end

