-- ==== Sys2Proof/Laws/Ops.lean ====
section
/-! SUPPORT. Laws/Ops.lean: what issuing a form comes to, once for each kind of form, and what the operations that the forms
share do: events, completions, releases, transfers and traps. -/

namespace Sys2Proof.Machine

open Claims

/-- A form whose checks pass and whose body is done issues over the body's state. -/
theorem runForm_done {f : Form} {s t : State} {body : State → Res} (h : f.check s = none) (hb : body s = .done t) :
    runForm f s body = .next (f.issued t) := by
  simp [runForm, h, hb, Form.settle]

/-- A form whose checks pass and whose body raises a cause takes the trap. -/
theorem runForm_trap {f : Form} {s : State} {body : State → Res} {k : Cause} {x : Dword} (h : f.check s = none)
    (hb : body s = .trap k x) : runForm f s body = .next (s.raise k x) := by
  simp [runForm, h, hb, Form.settle]

/-- The writes of a fixed-latency form only put their item in the agenda. -/
theorem write_eq (lat : Lat) (ws : List RegWrite) (s : State) :
    s.write lat ws = { s with agenda := s.agenda ++ fixed s lat.hold ws } := by
  unfold State.write fixed
  cases ws <;> simp [State.after]

/-- A form that only computes registers from registers issues, and its writes follow. -/
theorem runRegs_done {f : Form} {s : State} (h : f.check s = none) (ws : Cord → List RegWrite) :
    runRegs f s ws = .next (f.issued { s with agenda := s.agenda ++ fixed s f.lat.hold (ws s.cord) }) := by
  unfold runRegs
  rw [runForm_done (t := s.write f.lat (ws s.cord)) h rfl, write_eq]

/-- A form whose checks pass and whose body stalls stays at its slot, to try again in the next cycle. -/
theorem runForm_stall {f : Form} {s t : State} {body : State → Res} {b : Blk} (h : f.check s = none) (hb : body s = .stall b t) :
    runForm f s body = .next { t with cord := { t.cord with blk := b, stallAt := s.cycle + 1 } } := by
  simp [runForm, h, hb, Form.settle, State.onSelf]

/-- A form that its checks stop takes the trap that they raise. -/
theorem runForm_check_trap {f : Form} {s : State} {k : Cause} {x : Dword} (body : State → Res) (h : f.check s = some (.trap k x)) :
    runForm f s body = .next (s.raise k x) := by
  simp [runForm, h, Form.settle]

/-- A legal transfer, the first of its clause, is the clause's decision (R85, R86, R98). -/
theorem transfer_done {t : Transfer} {s : State} (h : s.cord.cl.xf = .none)
    (ha : ∀ ds, t = .jump ds → ∀ d ∈ ds, fld d.2 0 2 = 0) :
    transfer t s = .done { s with cord := { s.cord with cl := { s.cord.cl with xf := t } } } := by
  unfold transfer
  rw [if_neg (by simp [h])]
  cases t with
  | jump ds =>
    have : ds.find? (fun d => fld d.2 0 2 != 0) = none := by
      rw [List.find?_eq_none]; intro d hd; simp [ha ds rfl d hd]
    simp [this, State.onSelf]
  | _ => rfl

/-! Events put in the agenda. -/

theorem sends_after (d : Nat) (e : Event) (s : State) : Sends s (s.after d e) d e :=
  ⟨⟨s.cycle + d, e⟩, by simp [State.after], rfl, Nat.le_refl _⟩

theorem sends_afterFree (d : Nat) (e : Event) (s : State) : Sends s (s.afterFree d e) d e :=
  ⟨⟨s.cycle + (d + Config.freeDelay s.fresh), e⟩, by simp [State.afterFree, State.after, State.tick], rfl, by simp⟩

theorem sends_afterPath (core home d : Nat) (e : Event) (s : State) : Sends s (s.afterPath core home d e) d e := by
  have h : ∀ (l : List Due) (y : Due), y ∈ l ++ [y] := by simp
  exact ⟨_, h _ _, rfl, Nat.le_trans (Nat.le_add_right _ _) (Nat.le_max_left _ _)⟩

/-- An event that stands in the agenda still does after a change that only adds to it. -/
theorem sends_mono {s t u : State} {n : Nat} {e : Event} (h : Sends s t n e) (hu : ∀ d ∈ t.agenda, d ∈ u.agenda) : Sends s u n e :=
  let ⟨d, hd, h⟩ := h
  ⟨d, hu d hd, h⟩

/-! Completion, counters and releases of a cord. -/

/-- The record of a cord after its V-class work is complete: the writes, then the flag down (R81). -/
theorem cordRec_complete {c : Nat} {x : Cord} {s : State} (f : Flag) (ws : List RegWrite) (h : s.cordRec c = some x) :
    (s.complete c f ws).cordRec c = some ((x.applyAll ws).flagDown f.val) := by
  unfold State.complete
  rw [cordRec_onCord c c (fun x => (x.applyAll ws).flagDown f.val) s (fun y => applyAll_cid y ws), if_pos rfl, h]; rfl

theorem flagOf_flagDown (c : Cord) (f : Nat) : (c.flagDown f).flagOf f = c.flagOf f - 1 := by
  simp [Cord.flagDown, Cord.flagOf, SMap.get_upd]

/-- A release stands last in the cord's order, counted in stcnt with what it is itself (R201). -/
theorem release_cord (k : RelKind) (own : Nat) (s : State) :
    (s.release k own).cord = { s.cord with
      rels := s.cord.rels ++ [⟨k, own, (s.motif.wf.filter fun w => w.cord == s.cord.cid).map (·.k)⟩], stcnt := s.cord.stcnt + own } := rfl

theorem release_motif (k : RelKind) (own : Nat) (s : State) :
    (s.release k own).motif = { s.motif with pastIdend := s.motif.pastIdend || k.outside } := rfl

/-! Taking a trap. -/

/-- A trap entry leaves memory alone, whatever it comes to (R345). -/
@[simp] theorem enterTrap_mem (p : PendTrap) (s : State) : (s.enterTrap p).mem = s.mem := by
  unfold State.enterTrap
  dsimp only
  split
  · simp
  · split <;> simp

@[simp] theorem freeSlot_mem (s : State) : s.freeSlot.mem = s.mem := by
  unfold State.freeSlot State.onCore; split <;> rfl

@[simp] theorem raise_mem (k : Cause) (x : Dword) (s : State) : (s.raise k x).mem = s.mem := by
  unfold State.raise State.raiseWith
  dsimp only
  split
  · rw [enterTrap_mem]; exact freeSlot_mem s
  · exact freeSlot_mem s

@[simp] theorem runEnds_catches (m : Motif) (k : Cause) (s : State) : s.runEnds.catches m k = s.catches m k := by
  unfold State.runEnds; split <;> rfl

@[simp] theorem raised_catches (m n : Motif) (k j : Cause) (s : State) : (s.raised m k).catches n j = s.catches n j := by
  unfold State.raised; split <;> simp

/-- A cause that needle does not catch changes nothing of it (R315). -/
theorem raised_of_not_catches {m : Motif} {k : Cause} {s : State} (h : s.catches m k = false) : s.raised m k = s := by
  simp [State.raised, h]

/-- With a handler and none active, a trap entry changes the focused cord, and of the rest only whether needle's run has
returned (R315, R345 steps 3 to 6). -/
theorem enterTrap_handled {p : PendTrap} {s : State} (h : s.cord.handler ≠ 0) (hv : s.cord.trap.v = false) :
    ∃ ts, s.enterTrap p = { s.raised s.motif p.cause with cord := { s.cord with
      trap := { v := true, xfer := (if p.boundary then Transfer.none else s.cord.cl.xf) != .none, slot := p.slot, rnx := p.rnx,
                rslot := p.rslot, cause := p.cause.code, hdr := p.hdr, info := p.info, tract := p.act },
      trapXf := if p.boundary then .none else s.cord.cl.xf, trapFt := s.cord.cl.ft, pend := none, cl := {}, chosen := some s.cord.handler,
      wait := if s.catches s.motif p.cause then .caught else .none, blk := {}, skipBrk := false,
      rotP := lowest p.act, resume := none, refetch := false, fetched := none, threads := ts } } := by
  unfold State.enterTrap
  dsimp only
  rw [State.raised_cord, State.raised_motif, raised_catches, if_neg h, if_neg (by simp [hv])]
  exact ⟨_, rfl⟩

end Sys2Proof.Machine
end

