-- ==== Sys2Proof/Laws/PerInstr.lean ====
section
/-! SUPPORT. Laws/PerInstr.lean: family RoundTrip, one lemma per constructor: the word and literal that the encoder
gives a well-formed instruction decode to it; an event has none. -/

namespace Sys2Proof.Laws.RoundTrip

open Sys2Proof Sys2Proof.Machine

set_option Elab.async false

/-- The words of a well-formed instruction decode to it under map 0 (R42, R44, R49, R51). -/
def Statement (i : Instr) : Prop := ∀ e, i.enc = some e → i.wf = true → decode e.word e.lit = .ok i

/-- What each lemma below shows: fields in their places, the row of the opcode, its policy and its operands. -/
theorem of_row {i : Instr} {op d a b : Nat} {lit : Option Word} (r : Row) (he : i.enc = some ⟨op, d, a, b, lit⟩)
    (h1 : op < 1024) (h2 : d < 128) (h3 : a < 128) (h4 : b < 128) (hr : opRow op = some r)
    (hp : r.pol.accepts lit = true) (hb : i.wf = true → r.build d a b lit = some i) : Statement i := by
  intro e' he' hw
  obtain rfl := Option.some.inj (he.symm.trans he')
  exact decode_word ⟨op, d, a, b, lit⟩ r i ⟨h1, h2, h3, h4⟩ hr hp (hb hw) hw

/-- A comparison of numerals. -/
theorem lt {a b : Nat} (h : Nat.ble (a + 1) b = true := by rfl) : a < b := Nat.le_of_ble_eq_true h

/-- An event has no words. -/
theorem of_event {i : Instr} (he : i.enc = none) : Statement i := by
  intro e h
  rw [he] at h
  exact absurd h (by simp)

theorem nop : Statement (.nop) := by
  refine of_row _ rfl lt lt lt lt rfl rfl fun _ => ?_; simp
theorem bra (lit : Word) : Statement (.bra lit) := by
  refine of_row _ rfl lt lt lt lt rfl rfl fun _ => ?_; simp
theorem brk (k : Msk) (lit : Word) : Statement (.brk k lit) := by
  refine of_row _ rfl lt lt (by have := k.isLt; omega) lt rfl rfl fun _ => ?_; simp
theorem brz (a : Rd) (lit : Word) : Statement (.brz a lit) := by
  refine of_row _ rfl lt lt a.field_lt lt rfl rfl fun _ => ?_; simp
theorem brnz (a : Rd) (lit : Word) : Statement (.brnz a lit) := by
  refine of_row _ rfl lt lt a.field_lt lt rfl rfl fun _ => ?_; simp
theorem jmp (a b : Rd) : Statement (.jmp a b) := by
  refine of_row _ rfl lt lt a.field_lt b.field_lt rfl rfl fun _ => ?_; simp
theorem call (d : Wr) (lit : Word) : Statement (.call d lit) := by
  refine of_row _ rfl lt d.field_lt lt lt rfl rfl fun _ => ?_; simp
theorem ret (a : Rd) : Statement (.ret a) := by
  refine of_row _ rfl lt lt a.field_lt lt rfl rfl fun _ => ?_; simp
theorem meet (lit : Word) : Statement (.meet lit) := by
  refine of_row _ rfl lt lt lt lt rfl rfl fun _ => ?_; simp
theorem join (k : Msk) : Statement (.join k) := by
  refine of_row _ rfl lt lt (by have := k.isLt; omega) lt rfl rfl fun _ => ?_; simp
theorem leave (k : Msk) : Statement (.leave k) := by
  refine of_row _ rfl lt lt (by have := k.isLt; omega) lt rfl rfl fun _ => ?_; simp
theorem waitk (k : Msk) : Statement (.waitk k) := by
  refine of_row _ rfl lt lt (by have := k.isLt; omega) lt rfl rfl fun _ => ?_; simp
theorem kset (d : Msk) (lit : Word) : Statement (.kset d lit) := by
  refine of_row _ rfl lt (by have := d.isLt; omega) lt lt rfl rfl fun _ => ?_; simp
theorem kmov (d a : Msk) : Statement (.kmov d a) := by
  refine of_row _ rfl lt (by have := d.isLt; omega) (by have := a.isLt; omega) lt rfl rfl fun _ => ?_; simp
theorem kand (d a b : Msk) : Statement (.kand d a b) := by
  refine of_row _ rfl lt (by have := d.isLt; omega) (by have := a.isLt; omega) (by have := b.isLt; omega) rfl rfl fun _ => ?_; simp
theorem kor (d a b : Msk) : Statement (.kor d a b) := by
  refine of_row _ rfl lt (by have := d.isLt; omega) (by have := a.isLt; omega) (by have := b.isLt; omega) rfl rfl fun _ => ?_; simp
theorem kxor (d a b : Msk) : Statement (.kxor d a b) := by
  refine of_row _ rfl lt (by have := d.isLt; omega) (by have := a.isLt; omega) (by have := b.isLt; omega) rfl rfl fun _ => ?_; simp
theorem knot (d a : Msk) : Statement (.knot d a) := by
  refine of_row _ rfl lt (by have := d.isLt; omega) (by have := a.isLt; omega) lt rfl rfl fun _ => ?_; simp
theorem kpop (d : Wr) (a : Msk) : Statement (.kpop d a) := by
  refine of_row _ rfl lt d.field_lt (by have := a.isLt; omega) lt rfl rfl fun _ => ?_; simp
theorem elect (d a : Msk) : Statement (.elect d a) := by
  refine of_row _ rfl lt (by have := d.isLt; omega) (by have := a.isLt; omega) lt rfl rfl fun _ => ?_; simp
theorem exit : Statement (.exit) := by
  refine of_row _ rfl lt lt lt lt rfl rfl fun _ => ?_; simp
theorem yield : Statement (.yield) := by
  refine of_row _ rfl lt lt lt lt rfl rfl fun _ => ?_; simp
theorem sleep (n : Imm) : Statement (.sleep n) := by
  refine of_row _ rfl lt lt lt n.isLt rfl rfl fun _ => ?_; simp
theorem winb (n : Imm) : Statement (.winb n) := by
  refine of_row _ rfl lt lt lt n.isLt rfl rfl fun _ => ?_; simp
theorem xacq (n : Imm) : Statement (.xacq n) := by
  refine of_row _ rfl lt lt lt n.isLt rfl rfl fun _ => ?_; simp
theorem xrel (n : Imm) : Statement (.xrel n) := by
  refine of_row _ rfl lt lt lt n.isLt rfl rfl fun _ => ?_; simp
theorem add (w : Bool) (d : Wr) (a : Rd) (b : Src) : Statement (.add w d a b) := by
  cases w <;>
  (refine of_row _ rfl lt d.field_lt a.field_lt b.field_lt rfl rfl fun _ => ?_; simp)
theorem sub (w : Bool) (d : Wr) (a : Rd) (b : Src) : Statement (.sub w d a b) := by
  cases w <;>
  (refine of_row _ rfl lt d.field_lt a.field_lt b.field_lt rfl rfl fun _ => ?_; simp)
theorem mul (w : Bool) (d : Wr) (a : Rd) (b : Src) : Statement (.mul w d a b) := by
  cases w <;>
  (refine of_row _ rfl lt d.field_lt a.field_lt b.field_lt rfl rfl fun _ => ?_; simp)
theorem mulh (w : Bool) (d : Wr) (a : Rd) (b : Src) : Statement (.mulh w d a b) := by
  cases w <;>
  (refine of_row _ rfl lt d.field_lt a.field_lt b.field_lt rfl rfl fun _ => ?_; simp)
theorem mad (w : Bool) (d : Wr) (a : Rd) (b : Src) : Statement (.mad w d a b) := by
  cases w <;>
  (refine of_row _ rfl lt d.field_lt a.field_lt b.field_lt rfl rfl fun _ => ?_; simp)
theorem neg (w : Bool) (d : Wr) (a : Rd) : Statement (.neg w d a) := by
  cases w <;>
  (refine of_row _ rfl lt d.field_lt a.field_lt lt rfl rfl fun _ => ?_; simp)
theorem abs (w : Bool) (d : Wr) (a : Rd) : Statement (.abs w d a) := by
  cases w <;>
  (refine of_row _ rfl lt d.field_lt a.field_lt lt rfl rfl fun _ => ?_; simp)
theorem min (w : Bool) (d : Wr) (a : Rd) (b : Src) : Statement (.min w d a b) := by
  cases w <;>
  (refine of_row _ rfl lt d.field_lt a.field_lt b.field_lt rfl rfl fun _ => ?_; simp)
theorem max (w : Bool) (d : Wr) (a : Rd) (b : Src) : Statement (.max w d a b) := by
  cases w <;>
  (refine of_row _ rfl lt d.field_lt a.field_lt b.field_lt rfl rfl fun _ => ?_; simp)
theorem minu (w : Bool) (d : Wr) (a : Rd) (b : Src) : Statement (.minu w d a b) := by
  cases w <;>
  (refine of_row _ rfl lt d.field_lt a.field_lt b.field_lt rfl rfl fun _ => ?_; simp)
theorem maxu (w : Bool) (d : Wr) (a : Rd) (b : Src) : Statement (.maxu w d a b) := by
  cases w <;>
  (refine of_row _ rfl lt d.field_lt a.field_lt b.field_lt rfl rfl fun _ => ?_; simp)
theorem and (w : Bool) (d : Wr) (a : Rd) (b : Src) : Statement (.and w d a b) := by
  cases w <;>
  (refine of_row _ rfl lt d.field_lt a.field_lt b.field_lt rfl rfl fun _ => ?_; simp)
theorem or (w : Bool) (d : Wr) (a : Rd) (b : Src) : Statement (.or w d a b) := by
  cases w <;>
  (refine of_row _ rfl lt d.field_lt a.field_lt b.field_lt rfl rfl fun _ => ?_; simp)
theorem xor (w : Bool) (d : Wr) (a : Rd) (b : Src) : Statement (.xor w d a b) := by
  cases w <;>
  (refine of_row _ rfl lt d.field_lt a.field_lt b.field_lt rfl rfl fun _ => ?_; simp)
theorem not (w : Bool) (d : Wr) (a : Rd) : Statement (.not w d a) := by
  cases w <;>
  (refine of_row _ rfl lt d.field_lt a.field_lt lt rfl rfl fun _ => ?_; simp)
theorem andn (w : Bool) (d : Wr) (a : Rd) (b : Src) : Statement (.andn w d a b) := by
  cases w <;>
  (refine of_row _ rfl lt d.field_lt a.field_lt b.field_lt rfl rfl fun _ => ?_; simp)
theorem shl (w : Bool) (d : Wr) (a : Rd) (b : Src) : Statement (.shl w d a b) := by
  cases w <;>
  (refine of_row _ rfl lt d.field_lt a.field_lt b.field_lt rfl rfl fun _ => ?_; simp)
theorem shr (w : Bool) (d : Wr) (a : Rd) (b : Src) : Statement (.shr w d a b) := by
  cases w <;>
  (refine of_row _ rfl lt d.field_lt a.field_lt b.field_lt rfl rfl fun _ => ?_; simp)
theorem sar (w : Bool) (d : Wr) (a : Rd) (b : Src) : Statement (.sar w d a b) := by
  cases w <;>
  (refine of_row _ rfl lt d.field_lt a.field_lt b.field_lt rfl rfl fun _ => ?_; simp)
theorem rot (w : Bool) (d : Wr) (a : Rd) (b : Src) : Statement (.rot w d a b) := by
  cases w <;>
  (refine of_row _ rfl lt d.field_lt a.field_lt b.field_lt rfl rfl fun _ => ?_; simp)
theorem popc (w : Bool) (d : Wr) (a : Rd) : Statement (.popc w d a) := by
  cases w <;>
  (refine of_row _ rfl lt d.field_lt a.field_lt lt rfl rfl fun _ => ?_; simp)
theorem clz (w : Bool) (d : Wr) (a : Rd) : Statement (.clz w d a) := by
  cases w <;>
  (refine of_row _ rfl lt d.field_lt a.field_lt lt rfl rfl fun _ => ?_; simp)
theorem ctz (w : Bool) (d : Wr) (a : Rd) : Statement (.ctz w d a) := by
  cases w <;>
  (refine of_row _ rfl lt d.field_lt a.field_lt lt rfl rfl fun _ => ?_; simp)
theorem brev (w : Bool) (d : Wr) (a : Rd) : Statement (.brev w d a) := by
  cases w <;>
  (refine of_row _ rfl lt d.field_lt a.field_lt lt rfl rfl fun _ => ?_; simp)
theorem bfx (w : Bool) (d : Wr) (a b : Rd) (lit : Word) : Statement (.bfx w d a b lit) := by
  cases w <;>
  (refine of_row _ rfl lt d.field_lt a.field_lt b.field_lt rfl rfl fun _ => ?_; simp)
theorem bfi (w : Bool) (d : Wr) (a b : Rd) (lit : Word) : Statement (.bfi w d a b lit) := by
  cases w <;>
  (refine of_row _ rfl lt d.field_lt a.field_lt b.field_lt rfl rfl fun _ => ?_; simp)
theorem prmt (d : Wr) (a b : Rd) (lit : Word) : Statement (.prmt d a b lit) := by
  refine of_row _ rfl lt d.field_lt a.field_lt b.field_lt rfl rfl fun _ => ?_; simp
theorem sel (w : Bool) (d : Wr) (a b : Rd) (lit : Word) : Statement (.sel w d a b lit) := by
  cases w <;>
  (refine of_row _ rfl lt d.field_lt a.field_lt b.field_lt rfl rfl fun _ => ?_; simp)
theorem cmp (w : Bool) (d : Wr) (a b : Rd) (lit : Word) : Statement (.cmp w d a b lit) := by
  cases w <;>
  (refine of_row _ rfl lt d.field_lt a.field_lt b.field_lt rfl rfl fun _ => ?_; simp)
theorem cmpv (w : Bool) (d : Wr) (a b : Rd) (lit : Word) : Statement (.cmpv w d a b lit) := by
  cases w <;>
  (refine of_row _ rfl lt d.field_lt a.field_lt b.field_lt rfl rfl fun _ => ?_; simp)
theorem mov (w : Bool) (d : Wr) (a : Rd) : Statement (.mov w d a) := by
  cases w <;>
  (refine of_row _ rfl lt d.field_lt a.field_lt lt rfl rfl fun _ => ?_; simp)
theorem movl (d : Wr) (lit : Word) : Statement (.movl d lit) := by
  refine of_row _ rfl lt d.field_lt lt lt rfl rfl fun _ => ?_; simp
theorem lea (d : Wr) (a b : Rd) (lit : Word) : Statement (.lea d a b lit) := by
  refine of_row _ rfl lt d.field_lt a.field_lt b.field_lt rfl rfl fun _ => ?_; simp
theorem divu (w : Bool) (d : Wr) (a : Rd) (b : Src) : Statement (.divu w d a b) := by
  cases w <;>
  (refine of_row _ rfl lt d.field_lt a.field_lt b.field_lt rfl rfl fun _ => ?_; simp)
theorem divs (w : Bool) (d : Wr) (a : Rd) (b : Src) : Statement (.divs w d a b) := by
  cases w <;>
  (refine of_row _ rfl lt d.field_lt a.field_lt b.field_lt rfl rfl fun _ => ?_; simp)
theorem remu (w : Bool) (d : Wr) (a : Rd) (b : Src) : Statement (.remu w d a b) := by
  cases w <;>
  (refine of_row _ rfl lt d.field_lt a.field_lt b.field_lt rfl rfl fun _ => ?_; simp)
theorem rems (w : Bool) (d : Wr) (a : Rd) (b : Src) : Statement (.rems w d a b) := by
  cases w <;>
  (refine of_row _ rfl lt d.field_lt a.field_lt b.field_lt rfl rfl fun _ => ?_; simp)
theorem addc (w : Bool) (d : Wr) (a : Rd) (b : Src) : Statement (.addc w d a b) := by
  cases w <;>
  (refine of_row _ rfl lt d.field_lt a.field_lt b.field_lt rfl rfl fun _ => ?_; simp)
theorem addImm (w : Bool) (d : Wr) (a : Rd) (n : Imm) : Statement (.addImm w d a n) := by
  cases w <;>
  (refine of_row _ rfl lt d.field_lt a.field_lt n.isLt rfl rfl fun _ => ?_; simp)
theorem subImm (w : Bool) (d : Wr) (a : Rd) (n : Imm) : Statement (.subImm w d a n) := by
  cases w <;>
  (refine of_row _ rfl lt d.field_lt a.field_lt n.isLt rfl rfl fun _ => ?_; simp)
theorem mulImm (w : Bool) (d : Wr) (a : Rd) (n : Imm) : Statement (.mulImm w d a n) := by
  cases w <;>
  (refine of_row _ rfl lt d.field_lt a.field_lt n.isLt rfl rfl fun _ => ?_; simp)
theorem minImm (w : Bool) (d : Wr) (a : Rd) (n : Imm) : Statement (.minImm w d a n) := by
  cases w <;>
  (refine of_row _ rfl lt d.field_lt a.field_lt n.isLt rfl rfl fun _ => ?_; simp)
theorem maxImm (w : Bool) (d : Wr) (a : Rd) (n : Imm) : Statement (.maxImm w d a n) := by
  cases w <;>
  (refine of_row _ rfl lt d.field_lt a.field_lt n.isLt rfl rfl fun _ => ?_; simp)
theorem minuImm (w : Bool) (d : Wr) (a : Rd) (n : Imm) : Statement (.minuImm w d a n) := by
  cases w <;>
  (refine of_row _ rfl lt d.field_lt a.field_lt n.isLt rfl rfl fun _ => ?_; simp)
theorem maxuImm (w : Bool) (d : Wr) (a : Rd) (n : Imm) : Statement (.maxuImm w d a n) := by
  cases w <;>
  (refine of_row _ rfl lt d.field_lt a.field_lt n.isLt rfl rfl fun _ => ?_; simp)
theorem andImm (w : Bool) (d : Wr) (a : Rd) (n : Imm) : Statement (.andImm w d a n) := by
  cases w <;>
  (refine of_row _ rfl lt d.field_lt a.field_lt n.isLt rfl rfl fun _ => ?_; simp)
theorem orImm (w : Bool) (d : Wr) (a : Rd) (n : Imm) : Statement (.orImm w d a n) := by
  cases w <;>
  (refine of_row _ rfl lt d.field_lt a.field_lt n.isLt rfl rfl fun _ => ?_; simp)
theorem xorImm (w : Bool) (d : Wr) (a : Rd) (n : Imm) : Statement (.xorImm w d a n) := by
  cases w <;>
  (refine of_row _ rfl lt d.field_lt a.field_lt n.isLt rfl rfl fun _ => ?_; simp)
theorem shlImm (w : Bool) (d : Wr) (a : Rd) (n : Imm) : Statement (.shlImm w d a n) := by
  cases w <;>
  (refine of_row _ rfl lt d.field_lt a.field_lt n.isLt rfl rfl fun _ => ?_; simp)
theorem shrImm (w : Bool) (d : Wr) (a : Rd) (n : Imm) : Statement (.shrImm w d a n) := by
  cases w <;>
  (refine of_row _ rfl lt d.field_lt a.field_lt n.isLt rfl rfl fun _ => ?_; simp)
theorem sarImm (w : Bool) (d : Wr) (a : Rd) (n : Imm) : Statement (.sarImm w d a n) := by
  cases w <;>
  (refine of_row _ rfl lt d.field_lt a.field_lt n.isLt rfl rfl fun _ => ?_; simp)
theorem rotImm (w : Bool) (d : Wr) (a : Rd) (n : Imm) : Statement (.rotImm w d a n) := by
  cases w <;>
  (refine of_row _ rfl lt d.field_lt a.field_lt n.isLt rfl rfl fun _ => ?_; simp)
theorem fadd (d : Wr) (a : Rd) (b : Src) : Statement (.fadd d a b) := by
  refine of_row _ rfl lt d.field_lt a.field_lt b.field_lt rfl rfl fun _ => ?_; simp
theorem fsub (d : Wr) (a : Rd) (b : Src) : Statement (.fsub d a b) := by
  refine of_row _ rfl lt d.field_lt a.field_lt b.field_lt rfl rfl fun _ => ?_; simp
theorem fmul (d : Wr) (a : Rd) (b : Src) : Statement (.fmul d a b) := by
  refine of_row _ rfl lt d.field_lt a.field_lt b.field_lt rfl rfl fun _ => ?_; simp
theorem ffma (d : Wr) (a : Rd) (b : Src) : Statement (.ffma d a b) := by
  refine of_row _ rfl lt d.field_lt a.field_lt b.field_lt rfl rfl fun _ => ?_; simp
theorem fmin (d : Wr) (a : Rd) (b : Src) : Statement (.fmin d a b) := by
  refine of_row _ rfl lt d.field_lt a.field_lt b.field_lt rfl rfl fun _ => ?_; simp
theorem fmax (d : Wr) (a : Rd) (b : Src) : Statement (.fmax d a b) := by
  refine of_row _ rfl lt d.field_lt a.field_lt b.field_lt rfl rfl fun _ => ?_; simp
theorem fneg (d : Wr) (a : Rd) : Statement (.fneg d a) := by
  refine of_row _ rfl lt d.field_lt a.field_lt lt rfl rfl fun _ => ?_; simp
theorem fabs (d : Wr) (a : Rd) : Statement (.fabs d a) := by
  refine of_row _ rfl lt d.field_lt a.field_lt lt rfl rfl fun _ => ?_; simp
theorem fcmp (d : Wr) (a b : Rd) (lit : Word) : Statement (.fcmp d a b lit) := by
  refine of_row _ rfl lt d.field_lt a.field_lt b.field_lt rfl rfl fun _ => ?_; simp
theorem fclass (d : Wr) (a : Rd) : Statement (.fclass d a) := by
  refine of_row _ rfl lt d.field_lt a.field_lt lt rfl rfl fun _ => ?_; simp
theorem frnd (d : Wr) (a : Rd) (n : Imm) : Statement (.frnd d a n) := by
  refine of_row _ rfl lt d.field_lt a.field_lt n.isLt rfl rfl fun _ => ?_; simp
theorem fdiv (d : Wr) (a : Rd) (b : Src) : Statement (.fdiv d a b) := by
  refine of_row _ rfl lt d.field_lt a.field_lt b.field_lt rfl rfl fun _ => ?_; simp
theorem frcp (d : Wr) (a : Rd) : Statement (.frcp d a) := by
  refine of_row _ rfl lt d.field_lt a.field_lt lt rfl rfl fun _ => ?_; simp
theorem frsq (d : Wr) (a : Rd) : Statement (.frsq d a) := by
  refine of_row _ rfl lt d.field_lt a.field_lt lt rfl rfl fun _ => ?_; simp
theorem fsqrt (d : Wr) (a : Rd) : Statement (.fsqrt d a) := by
  refine of_row _ rfl lt d.field_lt a.field_lt lt rfl rfl fun _ => ?_; simp
theorem fexp2 (d : Wr) (a : Rd) : Statement (.fexp2 d a) := by
  refine of_row _ rfl lt d.field_lt a.field_lt lt rfl rfl fun _ => ?_; simp
theorem flog2 (d : Wr) (a : Rd) : Statement (.flog2 d a) := by
  refine of_row _ rfl lt d.field_lt a.field_lt lt rfl rfl fun _ => ?_; simp
theorem fsin (d : Wr) (a : Rd) : Statement (.fsin d a) := by
  refine of_row _ rfl lt d.field_lt a.field_lt lt rfl rfl fun _ => ?_; simp
theorem fcos (d : Wr) (a : Rd) : Statement (.fcos d a) := by
  refine of_row _ rfl lt d.field_lt a.field_lt lt rfl rfl fun _ => ?_; simp
theorem ftanh (d : Wr) (a : Rd) : Statement (.ftanh d a) := by
  refine of_row _ rfl lt d.field_lt a.field_lt lt rfl rfl fun _ => ?_; simp
theorem dadd (d : Wr) (a : Rd) (b : Src) : Statement (.dadd d a b) := by
  refine of_row _ rfl lt d.field_lt a.field_lt b.field_lt rfl rfl fun _ => ?_; simp
theorem dsub (d : Wr) (a : Rd) (b : Src) : Statement (.dsub d a b) := by
  refine of_row _ rfl lt d.field_lt a.field_lt b.field_lt rfl rfl fun _ => ?_; simp
theorem dmul (d : Wr) (a : Rd) (b : Src) : Statement (.dmul d a b) := by
  refine of_row _ rfl lt d.field_lt a.field_lt b.field_lt rfl rfl fun _ => ?_; simp
theorem dfma (d : Wr) (a : Rd) (b : Src) : Statement (.dfma d a b) := by
  refine of_row _ rfl lt d.field_lt a.field_lt b.field_lt rfl rfl fun _ => ?_; simp
theorem dmin (d : Wr) (a : Rd) (b : Src) : Statement (.dmin d a b) := by
  refine of_row _ rfl lt d.field_lt a.field_lt b.field_lt rfl rfl fun _ => ?_; simp
theorem dmax (d : Wr) (a : Rd) (b : Src) : Statement (.dmax d a b) := by
  refine of_row _ rfl lt d.field_lt a.field_lt b.field_lt rfl rfl fun _ => ?_; simp
theorem dcmp (d : Wr) (a b : Rd) (lit : Word) : Statement (.dcmp d a b lit) := by
  refine of_row _ rfl lt d.field_lt a.field_lt b.field_lt rfl rfl fun _ => ?_; simp
theorem ddiv (d : Wr) (a b : Rd) : Statement (.ddiv d a b) := by
  refine of_row _ rfl lt d.field_lt a.field_lt b.field_lt rfl rfl fun _ => ?_; simp
theorem dsqrt (d : Wr) (a : Rd) : Statement (.dsqrt d a) := by
  refine of_row _ rfl lt d.field_lt a.field_lt lt rfl rfl fun _ => ?_; simp
theorem hadd2 (d : Wr) (a : Rd) (b : Src) : Statement (.hadd2 d a b) := by
  refine of_row _ rfl lt d.field_lt a.field_lt b.field_lt rfl rfl fun _ => ?_; simp
theorem hmul2 (d : Wr) (a : Rd) (b : Src) : Statement (.hmul2 d a b) := by
  refine of_row _ rfl lt d.field_lt a.field_lt b.field_lt rfl rfl fun _ => ?_; simp
theorem hfma2 (d : Wr) (a : Rd) (b : Src) : Statement (.hfma2 d a b) := by
  refine of_row _ rfl lt d.field_lt a.field_lt b.field_lt rfl rfl fun _ => ?_; simp
theorem shfl (d : Wr) (a : Rd) (b : Src) : Statement (.shfl d a b) := by
  refine of_row _ rfl lt d.field_lt a.field_lt b.field_lt rfl rfl fun _ => ?_; simp
theorem shfld (d : Wr) (a : Rd) (b : Src) : Statement (.shfld d a b) := by
  refine of_row _ rfl lt d.field_lt a.field_lt b.field_lt rfl rfl fun _ => ?_; simp
theorem vote (d : Wr) (a : Rd) (lit : Word) : Statement (.vote d a lit) := by
  refine of_row _ rfl lt d.field_lt a.field_lt lt rfl rfl fun _ => ?_; simp
theorem redu (d : Wr) (a : Rd) (lit : Word) : Statement (.redu d a lit) := by
  refine of_row _ rfl lt d.field_lt a.field_lt lt rfl rfl fun _ => ?_; simp
theorem scan (d : Wr) (a : Rd) (lit : Word) : Statement (.scan d a lit) := by
  refine of_row _ rfl lt d.field_lt a.field_lt lt rfl rfl fun _ => ?_; simp
theorem chain (a : Rd) (lit : Word) : Statement (.chain a lit) := by
  refine of_row _ rfl lt lt a.field_lt lt rfl rfl fun _ => ?_; simp
theorem fpcr (d : Wr) : Statement (.fpcr d) := by
  refine of_row _ rfl lt d.field_lt lt lt rfl rfl fun _ => ?_; simp
theorem fpcw (a : Rd) : Statement (.fpcw a) := by
  refine of_row _ rfl lt lt a.field_lt lt rfl rfl fun _ => ?_; simp
theorem fpcs (a : Rd) : Statement (.fpcs a) := by
  refine of_row _ rfl lt lt a.field_lt lt rfl rfl fun _ => ?_; simp
theorem fpcc (a : Rd) : Statement (.fpcc a) := by
  refine of_row _ rfl lt lt a.field_lt lt rfl rfl fun _ => ?_; simp
theorem cvt (d : Wr) (a b : Rd) (lit : Word) : Statement (.cvt d a b lit) := by
  refine of_row _ rfl lt d.field_lt a.field_lt b.field_lt rfl rfl fun _ => ?_; simp
theorem cvtsc (d : Wr) (a b : Rd) (lit : Word) : Statement (.cvtsc d a b lit) := by
  refine of_row _ rfl lt d.field_lt a.field_lt b.field_lt rfl rfl fun _ => ?_; simp
theorem pack (d : Wr) (a b : Rd) (lit : Word) : Statement (.pack d a b lit) := by
  refine of_row _ rfl lt d.field_lt a.field_lt b.field_lt rfl rfl fun _ => ?_; simp
theorem unpk (d : Wr) (a b : Rd) (lit : Word) : Statement (.unpk d a b lit) := by
  refine of_row _ rfl lt d.field_lt a.field_lt b.field_lt rfl rfl fun _ => ?_; simp
theorem scfind (d a : Vec) (b : Rd) : Statement (.scfind d a b) := by
  refine of_row _ rfl lt (by have := d.isLt; omega) (by have := a.isLt; omega) b.field_lt rfl rfl fun _ => ?_; simp
theorem tclass (d : Wr) (a : Rd) (n : Imm) : Statement (.tclass d a n) := by
  refine of_row _ rfl lt d.field_lt a.field_lt n.isLt rfl rfl fun _ => ?_; simp
theorem openLine (d : Eye) (a b : Rd) : Statement (.openLine d a b) := by
  refine of_row _ rfl lt (by have := d.isLt; omega) a.field_lt b.field_lt rfl rfl fun _ => ?_; simp
theorem openAcq (d : Eye) (a b : Rd) : Statement (.openAcq d a b) := by
  refine of_row _ rfl lt (by have := d.isLt; omega) a.field_lt b.field_lt rfl rfl fun _ => ?_; simp
theorem openf (d a : Vec) (b : Rd) (lit : Word) : Statement (.openf d a b lit) := by
  refine of_row _ rfl lt (by have := d.isLt; omega) (by have := a.isLt; omega) b.field_lt rfl rfl fun _ => ?_; simp
theorem close (e : Eye) : Statement (.close e) := by
  refine of_row _ rfl lt (by have := e.isLt; omega) lt lt rfl rfl fun _ => ?_; simp
theorem eqry (d : Wr) (e : Eye) : Statement (.eqry d e) := by
  refine of_row _ rfl lt d.field_lt (by have := e.isLt; omega) lt rfl rfl fun _ => ?_; simp
theorem erfr (e : Eye) : Statement (.erfr e) := by
  refine of_row _ rfl lt (by have := e.isLt; omega) lt lt rfl rfl fun _ => ?_; simp
theorem ldl (z : LdSize) (d : Wr) (e : Eye) (n : Imm) : Statement (.ldl z d e n) := by
  cases z <;>
  (refine of_row _ rfl lt d.field_lt (by have := e.isLt; omega) n.isLt rfl rfl fun _ => ?_; simp)
theorem ldlReg (z : LdSize) (d : Wr) (e : Eye) (b : Rd) : Statement (.ldlReg z d e b) := by
  cases z <;>
  (refine of_row _ rfl lt d.field_lt (by have := e.isLt; omega) b.field_lt rfl rfl fun _ => ?_; simp)
theorem ldlAcq (z : LdSize) (d : Wr) (e : Eye) (n : Imm) : Statement (.ldlAcq z d e n) := by
  cases z <;>
  (refine of_row _ rfl lt d.field_lt (by have := e.isLt; omega) n.isLt rfl rfl fun _ => ?_; simp)
theorem ldlAcqReg (z : LdSize) (d : Wr) (e : Eye) (b : Rd) : Statement (.ldlAcqReg z d e b) := by
  cases z <;>
  (refine of_row _ rfl lt d.field_lt (by have := e.isLt; omega) b.field_lt rfl rfl fun _ => ?_; simp)
theorem ldlx (z : LdSize) (d : Wr) (a : Vec) (n : Imm) : Statement (.ldlx z d a n) := by
  cases z <;>
  (refine of_row _ rfl lt d.field_lt (by have := a.isLt; omega) n.isLt rfl rfl fun _ => ?_; simp)
theorem ldlxReg (z : LdSize) (d : Wr) (a : Vec) (b : Rd) : Statement (.ldlxReg z d a b) := by
  cases z <;>
  (refine of_row _ rfl lt d.field_lt (by have := a.isLt; omega) b.field_lt rfl rfl fun _ => ?_; simp)
theorem stl (z : StSize) (d : Rd) (e : Eye) (n : Imm) : Statement (.stl z d e n) := by
  cases z <;>
  (refine of_row _ rfl lt d.field_lt (by have := e.isLt; omega) n.isLt rfl rfl fun _ => ?_; simp)
theorem stlReg (z : StSize) (d : Rd) (e : Eye) (b : Rd) : Statement (.stlReg z d e b) := by
  cases z <;>
  (refine of_row _ rfl lt d.field_lt (by have := e.isLt; omega) b.field_lt rfl rfl fun _ => ?_; simp)
theorem stlRel (z : StSize) (d : Rd) (e : Eye) (n : Imm) : Statement (.stlRel z d e n) := by
  cases z <;>
  (refine of_row _ rfl lt d.field_lt (by have := e.isLt; omega) n.isLt rfl rfl fun _ => ?_; simp)
theorem stlRelReg (z : StSize) (d : Rd) (e : Eye) (b : Rd) : Statement (.stlRelReg z d e b) := by
  cases z <;>
  (refine of_row _ rfl lt d.field_lt (by have := e.isLt; omega) b.field_lt rfl rfl fun _ => ?_; simp)
theorem stlx (z : StSize) (d : Rd) (a : Vec) (n : Imm) : Statement (.stlx z d a n) := by
  cases z <;>
  (refine of_row _ rfl lt d.field_lt (by have := a.isLt; omega) n.isLt rfl rfl fun _ => ?_; simp)
theorem stlxReg (z : StSize) (d : Rd) (a : Vec) (b : Rd) : Statement (.stlxReg z d a b) := by
  cases z <;>
  (refine of_row _ rfl lt d.field_lt (by have := a.isLt; omega) b.field_lt rfl rfl fun _ => ?_; simp)
theorem lock (d : Wr) (a b : Rd) : Statement (.lock d a b) := by
  refine of_row _ rfl lt d.field_lt a.field_lt b.field_lt rfl rfl fun _ => ?_; simp
theorem unlk (a b : Rd) : Statement (.unlk a b) := by
  refine of_row _ rfl lt lt a.field_lt b.field_lt rfl rfl fun _ => ?_; simp
theorem prefl (a b : Rd) : Statement (.prefl a b) := by
  refine of_row _ rfl lt lt a.field_lt b.field_lt rfl rfl fun _ => ?_; simp
theorem waitcLd (n : Imm) : Statement (.waitcLd n) := by
  refine of_row _ rfl lt lt lt n.isLt rfl rfl fun _ => ?_; simp
theorem waitcSt (n : Imm) : Statement (.waitcSt n) := by
  refine of_row _ rfl lt lt lt n.isLt rfl rfl fun _ => ?_; simp
theorem atom (d : Wr) (e : Eye) (b : Rd) (lit : Word) : Statement (.atom d e b lit) := by
  refine of_row _ rfl lt d.field_lt (by have := e.isLt; omega) b.field_lt rfl rfl fun _ => ?_; simp
theorem atomcas (d : Wr) (e : Eye) (b : Rd) (lit : Word) : Statement (.atomcas d e b lit) := by
  refine of_row _ rfl lt d.field_lt (by have := e.isLt; omega) b.field_lt rfl rfl fun _ => ?_; simp
theorem atomred (e : Eye) (b : Rd) (lit : Word) : Statement (.atomred e b lit) := by
  refine of_row _ rfl lt lt (by have := e.isLt; omega) b.field_lt rfl rfl fun _ => ?_; simp
theorem sealBatch (d : Wr) : Statement (.sealBatch d) := by
  refine of_row _ rfl lt d.field_lt lt lt rfl rfl fun _ => ?_; simp
theorem waitb (a : Rd) : Statement (.waitb a) := by
  refine of_row _ rfl lt lt a.field_lt lt rfl rfl fun _ => ?_; simp
theorem flushr (a b : Rd) (lit : Word) : Statement (.flushr a b lit) := by
  refine of_row _ rfl lt lt a.field_lt b.field_lt rfl rfl fun _ => ?_; simp
theorem disc (a b : Rd) (lit : Word) : Statement (.disc a b lit) := by
  refine of_row _ rfl lt lt a.field_lt b.field_lt rfl rfl fun _ => ?_; simp
theorem tstv (d : Wr) (e : Eye) : Statement (.tstv d e) := by
  refine of_row _ rfl lt d.field_lt (by have := e.isLt; omega) lt rfl rfl fun _ => ?_; simp
theorem openv (d : Eye) (a b : Rd) : Statement (.openv d a b) := by
  refine of_row _ rfl lt (by have := d.isLt; omega) a.field_lt b.field_lt rfl rfl fun _ => ?_; simp
theorem bsdef (d : Wr) (a b : Rd) (lit : Word) : Statement (.bsdef d a b lit) := by
  refine of_row _ rfl lt d.field_lt a.field_lt b.field_lt rfl rfl fun _ => ?_; simp
theorem bsfree (a : Rd) : Statement (.bsfree a) := by
  refine of_row _ rfl lt lt a.field_lt lt rfl rfl fun _ => ?_; simp
theorem opent (d : Eye) (a b : Rd) (lit : Word) : Statement (.opent d a b lit) := by
  refine of_row _ rfl lt (by have := d.isLt; omega) a.field_lt b.field_lt rfl rfl fun _ => ?_; simp
theorem vads (d : Rd) (e : Eye) (b : Rd) : Statement (.vads d e b) := by
  refine of_row _ rfl lt d.field_lt (by have := e.isLt; omega) b.field_lt rfl rfl fun _ => ?_; simp
theorem bsdrn (a : Rd) : Statement (.bsdrn a) := by
  refine of_row _ rfl lt lt a.field_lt lt rfl rfl fun _ => ?_; simp
theorem bsqry (d : Wr) (a : Rd) (lit : Word) : Statement (.bsqry d a lit) := by
  refine of_row _ rfl lt d.field_lt a.field_lt lt rfl rfl fun _ => ?_; simp
theorem ldp (z : PilSize) (d : Wr) (a : Rd) (n : Imm) : Statement (.ldp z d a n) := by
  cases z <;>
  (refine of_row _ rfl lt d.field_lt a.field_lt n.isLt rfl rfl fun _ => ?_; simp)
theorem ldpWfTake (z : PilSize) (d : Wr) (a : Rd) (n : Imm) : Statement (.ldpWfTake z d a n) := by
  cases z <;>
  (refine of_row _ rfl lt d.field_lt a.field_lt n.isLt rfl rfl fun _ => ?_; simp)
theorem ldpWfPeek (z : PilSize) (d : Wr) (a : Rd) (n : Imm) : Statement (.ldpWfPeek z d a n) := by
  cases z <;>
  (refine of_row _ rfl lt d.field_lt a.field_lt n.isLt rfl rfl fun _ => ?_; simp)
theorem stp (z : PilSize) (d : Rd) (a : Rd) (n : Imm) : Statement (.stp z d a n) := by
  cases z <;>
  (refine of_row _ rfl lt d.field_lt a.field_lt n.isLt rfl rfl fun _ => ?_; simp)
theorem feset (a : Rd) (n : Imm) : Statement (.feset a n) := by
  refine of_row _ rfl lt lt a.field_lt n.isLt rfl rfl fun _ => ?_; simp
theorem feclr (a : Rd) (n : Imm) : Statement (.feclr a n) := by
  refine of_row _ rfl lt lt a.field_lt n.isLt rfl rfl fun _ => ?_; simp
theorem feqry (d : Wr) (a : Rd) (n : Imm) : Statement (.feqry d a n) := by
  refine of_row _ rfl lt d.field_lt a.field_lt n.isLt rfl rfl fun _ => ?_; simp
theorem bara (b : Bar) (n : Imm) : Statement (.bara b n) := by
  refine of_row _ rfl lt lt (by have := b.isLt; omega) n.isLt rfl rfl fun _ => ?_; simp
theorem barw (b : Bar) (n : Imm) : Statement (.barw b n) := by
  refine of_row _ rfl lt lt (by have := b.isLt; omega) n.isLt rfl rfl fun _ => ?_; simp
theorem barx (b : Bar) : Statement (.barx b) := by
  refine of_row _ rfl lt lt (by have := b.isLt; omega) lt rfl rfl fun _ => ?_; simp
theorem barq (d : Wr) (b : Bar) : Statement (.barq d b) := by
  refine of_row _ rfl lt d.field_lt (by have := b.isLt; omega) lt rfl rfl fun _ => ?_; simp
theorem sracq (d : Wr) (q : Ring) : Statement (.sracq d q) := by
  refine of_row _ rfl lt d.field_lt (by have := q.isLt; omega) lt rfl rfl fun _ => ?_; simp
theorem srpub (q : Ring) (b : Rd) : Statement (.srpub q b) := by
  refine of_row _ rfl lt lt (by have := q.isLt; omega) b.field_lt rfl rfl fun _ => ?_; simp
theorem srwait (q : Ring) (b : Rd) : Statement (.srwait q b) := by
  refine of_row _ rfl lt lt (by have := q.isLt; omega) b.field_lt rfl rfl fun _ => ?_; simp
theorem srfree (q : Ring) (b : Rd) : Statement (.srfree q b) := by
  refine of_row _ rfl lt lt (by have := q.isLt; omega) b.field_lt rfl rfl fun _ => ?_; simp
theorem srqry (d : Wr) (q : Ring) : Statement (.srqry d q) := by
  refine of_row _ rfl lt d.field_lt (by have := q.isLt; omega) lt rfl rfl fun _ => ?_; simp
theorem peerarr (k : Bar) (b : Rd) (lit : Word) : Statement (.peerarr k b lit) := by
  refine of_row _ rfl lt lt (by have := k.isLt; omega) b.field_lt rfl rfl fun _ => ?_; simp
theorem tdset (d : Td) (a : Sreg) : Statement (.tdset d a) := by
  refine of_row _ rfl lt (by have := d.isLt; omega) (by have := a.isLt; omega) lt rfl rfl fun _ => ?_; simp
theorem tdmod (d : Td) (a : Rd) (n : Imm) : Statement (.tdmod d a n) := by
  refine of_row _ rfl lt (by have := d.isLt; omega) a.field_lt n.isLt rfl rfl fun _ => ?_; simp
theorem tdq (d : Wr) (t : Td) (n : Imm) : Statement (.tdq d t n) := by
  refine of_row _ rfl lt d.field_lt (by have := t.isLt; omega) n.isLt rfl rfl fun _ => ?_; simp
theorem azero (d : Acc) : Statement (.azero d) := by
  refine of_row _ rfl lt (by have := d.isLt; omega) lt lt rfl rfl fun _ => ?_; simp
theorem ald (d : Acc) (a : Vec) (n : Imm) : Statement (.ald d a n) := by
  refine of_row _ rfl lt (by have := d.isLt; omega) (by have := a.isLt; omega) n.isLt rfl rfl fun _ => ?_; simp
theorem ast (d : Vec) (a : Acc) (n : Imm) : Statement (.ast d a n) := by
  refine of_row _ rfl lt (by have := d.isLt; omega) (by have := a.isLt; omega) n.isLt rfl rfl fun _ => ?_; simp
theorem aprom (d : Acc) : Statement (.aprom d) := by
  refine of_row _ rfl lt (by have := d.isLt; omega) lt lt rfl rfl fun _ => ?_; simp
theorem acvt (d : Acc) (n : Imm) : Statement (.acvt d n) := by
  refine of_row _ rfl lt (by have := d.isLt; omega) lt n.isLt rfl rfl fun _ => ?_; simp
theorem mma (d : Acc) (a b : Td) : Statement (.mma d a b) := by
  refine of_row _ rfl lt (by have := d.isLt; omega) (by have := a.isLt; omega) (by have := b.isLt; omega) rfl rfl fun _ => ?_; simp
theorem mmaAcc (d a : Acc) (b : Td) : Statement (.mmaAcc d a b) := by
  refine of_row _ rfl lt (by have := d.isLt; omega) (by have := a.isLt; omega) (by have := b.isLt; omega) rfl rfl fun _ => ?_; simp
theorem mmas (d : Acc) (a b : Td) (lit : Word) : Statement (.mmas d a b lit) := by
  refine of_row _ rfl lt (by have := d.isLt; omega) (by have := a.isLt; omega) (by have := b.isLt; omega) rfl rfl fun _ => ?_; simp
theorem mmast (d : Acc) (a b : Td) (lit : Word) : Statement (.mmast d a b lit) := by
  refine of_row _ rfl lt (by have := d.isLt; omega) (by have := a.isLt; omega) (by have := b.isLt; omega) rfl rfl fun _ => ?_; simp
theorem amaxu (d : Acc) : Statement (.amaxu d) := by
  refine of_row _ rfl lt (by have := d.isLt; omega) lt lt rfl rfl fun _ => ?_; simp
theorem arsc (d a : Acc) : Statement (.arsc d a) := by
  refine of_row _ rfl lt (by have := d.isLt; omega) (by have := a.isLt; omega) lt rfl rfl fun _ => ?_; simp
theorem adrn (a : Acc) (b : Td) (lit : Word) : Statement (.adrn a b lit) := by
  refine of_row _ rfl lt lt (by have := a.isLt; omega) (by have := b.isLt; omega) rfl rfl fun _ => ?_; simp
theorem cmpr (d a b : Vec) : Statement (.cmpr d a b) := by
  refine of_row _ rfl lt (by have := d.isLt; omega) (by have := a.isLt; omega) (by have := b.isLt; omega) rfl rfl fun _ => ?_; simp
theorem mtchk (d : Wr) (a : Vec) : Statement (.mtchk d a) := by
  refine of_row _ rfl lt d.field_lt (by have := a.isLt; omega) lt rfl rfl fun _ => ?_; simp
theorem launch (d : Wr) (a b : Rd) : Statement (.launch d a b) := by
  refine of_row _ rfl lt d.field_lt a.field_lt b.field_lt rfl rfl fun _ => ?_; simp
theorem post (a : Rd) (n : Imm) : Statement (.post a n) := by
  refine of_row _ rfl lt lt a.field_lt n.isLt rfl rfl fun _ => ?_; simp
theorem phadv (n : Imm) : Statement (.phadv n) := by
  refine of_row _ rfl lt lt lt n.isLt rfl rfl fun _ => ?_; simp
theorem idend : Statement (.idend) := by
  refine of_row _ rfl lt lt lt lt rfl rfl fun _ => ?_; simp
theorem trap (n : Imm) : Statement (.trap n) := by
  refine of_row _ rfl lt lt lt n.isLt rfl rfl fun _ => ?_; simp
theorem rte : Statement (.rte) := by
  refine of_row _ rfl lt lt lt lt rfl rfl fun _ => ?_; simp
theorem csrr (d : Wr) (lit : Word) : Statement (.csrr d lit) := by
  refine of_row _ rfl lt d.field_lt lt lt rfl rfl fun hw => ?_
  have hn : ¬(0xB00 ≤ lit.toNat ∧ lit.toNat ≤ 0xB03) := by
    intro h
    simp [Instr.wf] at hw
    omega
  simp [csrForm, hn]
theorem csrw (a : Rd) (lit : Word) : Statement (.csrw a lit) := by
  refine of_row _ rfl lt lt a.field_lt lt rfl rfl fun _ => ?_; simp
theorem csrs (a : Rd) (lit : Word) : Statement (.csrs a lit) := by
  refine of_row _ rfl lt lt a.field_lt lt rfl rfl fun _ => ?_; simp
theorem csrc (a : Rd) (lit : Word) : Statement (.csrc a lit) := by
  refine of_row _ rfl lt lt a.field_lt lt rfl rfl fun _ => ?_; simp
theorem bobq (d : Wr) (q : Fin 4) : Statement (.bobq d q) := by
  refine of_row _ rfl lt d.field_lt lt lt rfl rfl fun _ => ?_
  have hq := q.isLt
  have ht : (BitVec.ofNat 32 (0xB00 + q.val)).toNat = 0xB00 + q.val := by simp; omega
  simp [csrForm, ht]
  omega
theorem dtld : Statement (.dtld) := by
  refine of_row _ rfl lt lt lt lt rfl rfl fun _ => ?_; simp
theorem tlbi (a b : Rd) : Statement (.tlbi a b) := by
  refine of_row _ rfl lt lt a.field_lt b.field_lt rfl rfl fun _ => ?_; simp
theorem brkpt (n : Imm) : Statement (.brkpt n) := by
  refine of_row _ rfl lt lt lt n.isLt rfl rfl fun _ => ?_; simp
theorem halt : Statement (.halt) := by
  refine of_row _ rfl lt lt lt lt rfl rfl fun _ => ?_; simp
theorem ared (d : Wr) (a b : Rd) (lit : Word) : Statement (.ared d a b lit) := by
  refine of_row _ rfl lt d.field_lt a.field_lt b.field_lt rfl rfl fun _ => ?_; simp
theorem acol (a b : Rd) (lit : Word) : Statement (.acol a b lit) := by
  refine of_row _ rfl lt lt a.field_lt b.field_lt rfl rfl fun _ => ?_; simp
theorem rsig (a b : Rd) (lit : Word) : Statement (.rsig a b lit) := by
  refine of_row _ rfl lt lt a.field_lt b.field_lt rfl rfl fun _ => ?_; simp
theorem clauseStart : Statement (.clauseStart) := of_event rfl
theorem clauseEnd : Statement (.clauseEnd) := of_event rfl
theorem cordUrgent : Statement (.cordUrgent) := of_event rfl
theorem sleepExpiry : Statement (.sleepExpiry) := of_event rfl
theorem xacqGrant : Statement (.xacqGrant) := of_event rfl
theorem fixedLatencyWrite : Statement (.fixedLatencyWrite) := of_event rfl
theorem divideComplete : Statement (.divideComplete) := of_event rfl
theorem specialFunctionComplete : Statement (.specialFunctionComplete) := of_event rfl
theorem chainComplete : Statement (.chainComplete) := of_event rfl
theorem pageWalkEnd : Statement (.pageWalkEnd) := of_event rfl
theorem fillComplete : Statement (.fillComplete) := of_event rfl
theorem fillFailure : Statement (.fillFailure) := of_event rfl
theorem erfrComplete : Statement (.erfrComplete) := of_event rfl
theorem acquireComplete : Statement (.acquireComplete) := of_event rfl
theorem openvAttemptEnd : Statement (.openvAttemptEnd) := of_event rfl
theorem recallAtCore : Statement (.recallAtCore) := of_event rfl
theorem recallAck : Statement (.recallAck) := of_event rfl
theorem debugRecall : Statement (.debugRecall) := of_event rfl
theorem storeAtHome : Statement (.storeAtHome) := of_event rfl
theorem ownerLossNotice : Statement (.ownerLossNotice) := of_event rfl
theorem storeAck : Statement (.storeAck) := of_event rfl
theorem atomicAtHome : Statement (.atomicAtHome) := of_event rfl
theorem atomicResult : Statement (.atomicResult) := of_event rfl
theorem releaseTakesEffect : Statement (.releaseTakesEffect) := of_event rfl
theorem waitFullLoadService : Statement (.waitFullLoadService) := of_event rfl
theorem pillowLoadResult : Statement (.pillowLoadResult) := of_event rfl
theorem lockComplete : Statement (.lockComplete) := of_event rfl
theorem flushrComplete : Statement (.flushrComplete) := of_event rfl
theorem discAtHome : Statement (.discAtHome) := of_event rfl
theorem discDrop : Statement (.discDrop) := of_event rfl
theorem tlbiComplete : Statement (.tlbiComplete) := of_event rfl
theorem dtldComplete : Statement (.dtldComplete) := of_event rfl
theorem additionAtPicot : Statement (.additionAtPicot) := of_event rfl
theorem passThroughAdd : Statement (.passThroughAdd) := of_event rfl
theorem picotDrainComplete : Statement (.picotDrainComplete) := of_event rfl
theorem shareRequest : Statement (.shareRequest) := of_event rfl
theorem shareGrant : Statement (.shareGrant) := of_event rfl
theorem trim : Statement (.trim) := of_event rfl
theorem shareReturn : Statement (.shareReturn) := of_event rfl
theorem forcedDrain : Statement (.forcedDrain) := of_event rfl
theorem tolerantReadService : Statement (.tolerantReadService) := of_event rfl
theorem regionTableUpdateComplete : Statement (.regionTableUpdateComplete) := of_event rfl
theorem bsqryResult : Statement (.bsqryResult) := of_event rfl
theorem bobbinTake : Statement (.bobbinTake) := of_event rfl
theorem bobbinPageReach : Statement (.bobbinPageReach) := of_event rfl
theorem bobbinIndexRead : Statement (.bobbinIndexRead) := of_event rfl
theorem bobbinDataReturn : Statement (.bobbinDataReturn) := of_event rfl
theorem bobbinWriteAck : Statement (.bobbinWriteAck) := of_event rfl
theorem bobbinCompletionRecord : Statement (.bobbinCompletionRecord) := of_event rfl
theorem tambourFormStart : Statement (.tambourFormStart) := of_event rfl
theorem tileFetchLine : Statement (.tileFetchLine) := of_event rfl
theorem tambourOccupancyEnd : Statement (.tambourOccupancyEnd) := of_event rfl
theorem tambourFormComplete : Statement (.tambourFormComplete) := of_event rfl
theorem adrnLineAck : Statement (.adrnLineAck) := of_event rfl
theorem adrnVersionPerformed : Statement (.adrnVersionPerformed) := of_event rfl
theorem postAtHome : Statement (.postAtHome) := of_event rfl
theorem qtailWrite : Statement (.qtailWrite) := of_event rfl
theorem queueSuspend : Statement (.queueSuspend) := of_event rfl
theorem queueUnsuspend : Statement (.queueUnsuspend) := of_event rfl
theorem recordTake : Statement (.recordTake) := of_event rfl
theorem recordStart : Statement (.recordStart) := of_event rfl
theorem motifPlacement : Statement (.motifPlacement) := of_event rfl
theorem motifSave : Statement (.motifSave) := of_event rfl
theorem motifRetirement : Statement (.motifRetirement) := of_event rfl
theorem patternCompletion : Statement (.patternCompletion) := of_event rfl
theorem successorEnqueue : Statement (.successorEnqueue) := of_event rfl
theorem knotDetectorReading : Statement (.knotDetectorReading) := of_event rfl
theorem trapEntry : Statement (.trapEntry) := of_event rfl
theorem asyncTrapDelivery : Statement (.asyncTrapDelivery) := of_event rfl
theorem pipeErr : Statement (.pipeErr) := of_event rfl
theorem eccUncorrectable : Statement (.eccUncorrectable) := of_event rfl
theorem correctableError : Statement (.correctableError) := of_event rfl
theorem launchKillFinish : Statement (.launchKillFinish) := of_event rfl
theorem contextKill : Statement (.contextKill) := of_event rfl
theorem ctxevClear : Statement (.ctxevClear) := of_event rfl
theorem clusterLeavesService : Statement (.clusterLeavesService) := of_event rfl
theorem scheduleEntryWrite : Statement (.scheduleEntryWrite) := of_event rfl
theorem arRoundComplete : Statement (.arRoundComplete) := of_event rfl
theorem arRoundTimeout : Statement (.arRoundTimeout) := of_event rfl
theorem acolComplete : Statement (.acolComplete) := of_event rfl
theorem linkCrcRetry : Statement (.linkCrcRetry) := of_event rfl
theorem linkFailure : Statement (.linkFailure) := of_event rfl
theorem destinationUnreachable : Statement (.destinationUnreachable) := of_event rfl
theorem remoteNotice : Statement (.remoteNotice) := of_event rfl
theorem hostAccess : Statement (.hostAccess) := of_event rfl
theorem adapterAtomic : Statement (.adapterAtomic) := of_event rfl
theorem registerWrite : Statement (.registerWrite) := of_event rfl
theorem reset : Statement (.reset) := of_event rfl
theorem firmwareVerifyDone : Statement (.firmwareVerifyDone) := of_event rfl
theorem calibrationDone : Statement (.calibrationDone) := of_event rfl
theorem initDone : Statement (.initDone) := of_event rfl
theorem lpddrTrainingDone : Statement (.lpddrTrainingDone) := of_event rfl
theorem bringupTimeout : Statement (.bringupTimeout) := of_event rfl
theorem powerWindow : Statement (.powerWindow) := of_event rfl
theorem pwrctlWrite : Statement (.pwrctlWrite) := of_event rfl
theorem thermalThrottle : Statement (.thermalThrottle) := of_event rfl
theorem clockHalve : Statement (.clockHalve) := of_event rfl
theorem thrClear : Statement (.thrClear) := of_event rfl
theorem thermalTrip : Statement (.thermalTrip) := of_event rfl
theorem powerRemoval : Statement (.powerRemoval) := of_event rfl
theorem attestationRequest : Statement (.attestationRequest) := of_event rfl
theorem attestationComplete : Statement (.attestationComplete) := of_event rfl
theorem debugResume : Statement (.debugResume) := of_event rfl
theorem illegalWordIssue : Statement (.illegalWordIssue) := of_event rfl
theorem hlthbaseWrite : Statement (.hlthbaseWrite) := of_event rfl
theorem preflFetchComplete : Statement (.preflFetchComplete) := of_event rfl

end Sys2Proof.Laws.RoundTrip
end

