-- ==== Sys2Proof/Tests/Slice0.lean ====
section
/-! SUPPORT. Slice0.lean: tests of the decoder and of the form checks, and for every obligation with hypotheses a state
and operands that meet them. -/

set_option Elab.async false

namespace Sys2Proof.Tests

open Sys2Proof Sys2Proof.Machine Sys2Proof.Claims

/-- The word decodes to the instruction. -/
abbrev Reads (w : Word) (lit : Option Word) (i : Instr) : Prop := decode w lit = .ok i

/-- One word of every row of this class, written bit by bit from R48 to R52. -/
theorem test_decode_control :
    Reads 0x00000000 none .nop ∧
    Reads 0x00400001 (some 0x100) (.bra 0x100) ∧
    Reads 0x00807301 (some 0x100) (.brk 3 0x100) ∧
    Reads 0x00C00601 (some 0x100) (.brz (.v 6) 0x100) ∧
    Reads 0x01000601 (some 0x100) (.brnz (.v 6) 0x100) ∧
    Reads 0x0140060C none (.jmp (.v 6) (.v 6)) ∧
    Reads 0x01840001 (some 0x100) (.call (.v 8) 0x100) ∧
    Reads 0x01C00600 none (.ret (.v 6)) ∧
    Reads 0x02000001 (some 0x100) (.meet 0x100) ∧
    Reads 0x02407300 none (.join 3) ∧
    Reads 0x02807300 none (.leave 3) ∧
    Reads 0x02C07300 none (.waitk 3) ∧
    Reads 0x03398001 (some 0x100) (.kset 3 0x100) ∧
    Reads 0x0379F300 none (.kmov 3 3) ∧
    Reads 0x03B9F3E6 none (.kand 3 3 3) ∧
    Reads 0x03F9F3E6 none (.kor 3 3 3) ∧
    Reads 0x0439F3E6 none (.kxor 3 3 3) ∧
    Reads 0x0479F300 none (.knot 3 3) ∧
    Reads 0x04847300 none (.kpop (.v 8) 3) ∧
    Reads 0x04F9F300 none (.elect 3 3) ∧
    Reads 0x05000000 none .exit ∧
    Reads 0x05400000 none .yield ∧
    Reads 0x05800004 none (.sleep 2) ∧
    Reads 0x05C00004 none (.winb 2) ∧
    Reads 0x06000004 none (.xacq 2) ∧
    Reads 0x06400004 none (.xrel 2) := by
  refine ⟨rfl, rfl, rfl, rfl, rfl, rfl, rfl, rfl, rfl, rfl, rfl, rfl, rfl, rfl, rfl, rfl, rfl, rfl, rfl, rfl, rfl, rfl, rfl, rfl, rfl, rfl⟩

/-- One word of every row of this class, written bit by bit from R48 to R52. -/
theorem test_decode_integer_1 :
    Reads 0x20040614 none (.add false (.v 8) (.v 6) (.reg (.v 10))) ∧
    Reads 0x20440614 none (.sub false (.v 8) (.v 6) (.reg (.v 10))) ∧
    Reads 0x20840614 none (.mul false (.v 8) (.v 6) (.reg (.v 10))) ∧
    Reads 0x20C40614 none (.mulh false (.v 8) (.v 6) (.reg (.v 10))) ∧
    Reads 0x21040614 none (.mad false (.v 8) (.v 6) (.reg (.v 10))) ∧
    Reads 0x21440600 none (.neg false (.v 8) (.v 6)) ∧
    Reads 0x21840600 none (.abs false (.v 8) (.v 6)) ∧
    Reads 0x21C40614 none (.min false (.v 8) (.v 6) (.reg (.v 10))) ∧
    Reads 0x22040614 none (.max false (.v 8) (.v 6) (.reg (.v 10))) ∧
    Reads 0x22440614 none (.minu false (.v 8) (.v 6) (.reg (.v 10))) ∧
    Reads 0x22840614 none (.maxu false (.v 8) (.v 6) (.reg (.v 10))) ∧
    Reads 0x22C40614 none (.and false (.v 8) (.v 6) (.reg (.v 10))) ∧
    Reads 0x23040614 none (.or false (.v 8) (.v 6) (.reg (.v 10))) ∧
    Reads 0x23440614 none (.xor false (.v 8) (.v 6) (.reg (.v 10))) ∧
    Reads 0x23840600 none (.not false (.v 8) (.v 6)) ∧
    Reads 0x23C40614 none (.andn false (.v 8) (.v 6) (.reg (.v 10))) ∧
    Reads 0x24040614 none (.shl false (.v 8) (.v 6) (.reg (.v 10))) ∧
    Reads 0x24440614 none (.shr false (.v 8) (.v 6) (.reg (.v 10))) ∧
    Reads 0x24840614 none (.sar false (.v 8) (.v 6) (.reg (.v 10))) ∧
    Reads 0x24C40614 none (.rot false (.v 8) (.v 6) (.reg (.v 10))) ∧
    Reads 0x25040600 none (.popc false (.v 8) (.v 6)) ∧
    Reads 0x25440600 none (.clz false (.v 8) (.v 6)) ∧
    Reads 0x25840600 none (.ctz false (.v 8) (.v 6)) ∧
    Reads 0x25C40600 none (.brev false (.v 8) (.v 6)) ∧
    Reads 0x260406F9 (some 0x204) (.bfx false (.v 8) (.v 6) (.zero) 0x204) ∧
    Reads 0x264406F9 (some 0x204) (.bfi false (.v 8) (.v 6) (.zero) 0x204) := by
  refine ⟨rfl, rfl, rfl, rfl, rfl, rfl, rfl, rfl, rfl, rfl, rfl, rfl, rfl, rfl, rfl, rfl, rfl, rfl, rfl, rfl, rfl, rfl, rfl, rfl, rfl, rfl⟩

/-- One word of every row of this class, written bit by bit from R48 to R52. -/
theorem test_decode_integer_2 :
    Reads 0x2684060D (some 0x3210) (.prmt (.v 8) (.v 6) (.v 6) 0x3210) ∧
    Reads 0x26C4060D (some 0x3) (.sel false (.v 8) (.v 6) (.v 6) 0x3) ∧
    Reads 0x2704060D (some 0xF2) (.cmp false (.v 8) (.v 6) (.v 6) 0xF2) ∧
    Reads 0x2744060D (some 0xF2) (.cmpv false (.v 8) (.v 6) (.v 6) 0xF2) ∧
    Reads 0x27840600 none (.mov false (.v 8) (.v 6)) ∧
    Reads 0x27C40001 (some 0x100) (.movl (.v 8) 0x100) ∧
    Reads 0x2804060D (some 0x1003) (.lea (.v 8) (.v 6) (.v 6) 0x1003) ∧
    Reads 0x28440614 none (.divu false (.v 8) (.v 6) (.reg (.v 10))) ∧
    Reads 0x28840614 none (.divs false (.v 8) (.v 6) (.reg (.v 10))) ∧
    Reads 0x28C40614 none (.remu false (.v 8) (.v 6) (.reg (.v 10))) ∧
    Reads 0x29040614 none (.rems false (.v 8) (.v 6) (.reg (.v 10))) ∧
    Reads 0x29440614 none (.addc false (.v 8) (.v 6) (.reg (.v 10))) ∧
    Reads 0x2A040604 none (.addImm false (.v 8) (.v 6) 2) ∧
    Reads 0x2A440604 none (.subImm false (.v 8) (.v 6) 2) ∧
    Reads 0x2A840604 none (.mulImm false (.v 8) (.v 6) 2) ∧
    Reads 0x2AC40604 none (.minImm false (.v 8) (.v 6) 2) ∧
    Reads 0x2B040604 none (.maxImm false (.v 8) (.v 6) 2) ∧
    Reads 0x2B440604 none (.minuImm false (.v 8) (.v 6) 2) ∧
    Reads 0x2B840604 none (.maxuImm false (.v 8) (.v 6) 2) ∧
    Reads 0x2BC40604 none (.andImm false (.v 8) (.v 6) 2) ∧
    Reads 0x2C040604 none (.orImm false (.v 8) (.v 6) 2) ∧
    Reads 0x2C440604 none (.xorImm false (.v 8) (.v 6) 2) ∧
    Reads 0x2C840604 none (.shlImm false (.v 8) (.v 6) 2) ∧
    Reads 0x2CC40604 none (.shrImm false (.v 8) (.v 6) 2) ∧
    Reads 0x2D040604 none (.sarImm false (.v 8) (.v 6) 2) ∧
    Reads 0x2D440604 none (.rotImm false (.v 8) (.v 6) 2) := by
  refine ⟨rfl, rfl, rfl, rfl, rfl, rfl, rfl, rfl, rfl, rfl, rfl, rfl, rfl, rfl, rfl, rfl, rfl, rfl, rfl, rfl, rfl, rfl, rfl, rfl, rfl, rfl⟩

/-- One word of every row of this class, written bit by bit from R48 to R52. -/
theorem test_decode_float_1 :
    Reads 0x40040614 none (.fadd (.v 8) (.v 6) (.reg (.v 10))) ∧
    Reads 0x40440614 none (.fsub (.v 8) (.v 6) (.reg (.v 10))) ∧
    Reads 0x40840614 none (.fmul (.v 8) (.v 6) (.reg (.v 10))) ∧
    Reads 0x40C40614 none (.ffma (.v 8) (.v 6) (.reg (.v 10))) ∧
    Reads 0x41040614 none (.fmin (.v 8) (.v 6) (.reg (.v 10))) ∧
    Reads 0x41440614 none (.fmax (.v 8) (.v 6) (.reg (.v 10))) ∧
    Reads 0x41840600 none (.fneg (.v 8) (.v 6)) ∧
    Reads 0x41C40600 none (.fabs (.v 8) (.v 6)) ∧
    Reads 0x4204060D (some 0xF2) (.fcmp (.v 8) (.v 6) (.v 6) 0xF2) ∧
    Reads 0x42440600 none (.fclass (.v 8) (.v 6)) ∧
    Reads 0x42840604 none (.frnd (.v 8) (.v 6) 2) ∧
    Reads 0x42C40614 none (.fdiv (.v 8) (.v 6) (.reg (.v 10))) ∧
    Reads 0x43040600 none (.frcp (.v 8) (.v 6)) ∧
    Reads 0x43440600 none (.frsq (.v 8) (.v 6)) ∧
    Reads 0x43840600 none (.fsqrt (.v 8) (.v 6)) ∧
    Reads 0x43C40600 none (.fexp2 (.v 8) (.v 6)) ∧
    Reads 0x44040600 none (.flog2 (.v 8) (.v 6)) ∧
    Reads 0x44440600 none (.fsin (.v 8) (.v 6)) ∧
    Reads 0x44840600 none (.fcos (.v 8) (.v 6)) ∧
    Reads 0x44C40600 none (.ftanh (.v 8) (.v 6)) ∧
    Reads 0x48040614 none (.dadd (.v 8) (.v 6) (.reg (.v 10))) := by
  refine ⟨rfl, rfl, rfl, rfl, rfl, rfl, rfl, rfl, rfl, rfl, rfl, rfl, rfl, rfl, rfl, rfl, rfl, rfl, rfl, rfl, rfl⟩

/-- One word of every row of this class, written bit by bit from R48 to R52. -/
theorem test_decode_float_2 :
    Reads 0x48440614 none (.dsub (.v 8) (.v 6) (.reg (.v 10))) ∧
    Reads 0x48840614 none (.dmul (.v 8) (.v 6) (.reg (.v 10))) ∧
    Reads 0x48C40614 none (.dfma (.v 8) (.v 6) (.reg (.v 10))) ∧
    Reads 0x49040614 none (.dmin (.v 8) (.v 6) (.reg (.v 10))) ∧
    Reads 0x49440614 none (.dmax (.v 8) (.v 6) (.reg (.v 10))) ∧
    Reads 0x4984060D (some 0xF2) (.dcmp (.v 8) (.v 6) (.v 6) 0xF2) ∧
    Reads 0x49C4060C none (.ddiv (.v 8) (.v 6) (.v 6)) ∧
    Reads 0x4A040600 none (.dsqrt (.v 8) (.v 6)) ∧
    Reads 0x4C040614 none (.hadd2 (.v 8) (.v 6) (.reg (.v 10))) ∧
    Reads 0x4C440614 none (.hmul2 (.v 8) (.v 6) (.reg (.v 10))) ∧
    Reads 0x4C840614 none (.hfma2 (.v 8) (.v 6) (.reg (.v 10))) ∧
    Reads 0x50040614 none (.shfl (.v 8) (.v 6) (.reg (.v 10))) ∧
    Reads 0x50440614 none (.shfld (.v 8) (.v 6) (.reg (.v 10))) ∧
    Reads 0x50840601 (some 0xF0) (.vote (.v 8) (.v 6) 0xF0) ∧
    Reads 0x50C40601 (some 0xA0) (.redu (.v 8) (.v 6) 0xA0) ∧
    Reads 0x51040601 (some 0xA0) (.scan (.v 8) (.v 6) 0xA0) ∧
    Reads 0x51400601 (some 0x403F) (.chain (.v 6) 0x403F) ∧
    Reads 0x5C040000 none (.fpcr (.v 8)) ∧
    Reads 0x5C400600 none (.fpcw (.v 6)) ∧
    Reads 0x5C800600 none (.fpcs (.v 6)) ∧
    Reads 0x5CC00600 none (.fpcc (.v 6)) := by
  refine ⟨rfl, rfl, rfl, rfl, rfl, rfl, rfl, rfl, rfl, rfl, rfl, rfl, rfl, rfl, rfl, rfl, rfl, rfl, rfl, rfl, rfl⟩

/-- One word of every row of this class, written bit by bit from R48 to R52. -/
theorem test_decode_cross_lane_and_conversion :
    Reads 0x600406F9 (some 0xAC) (.cvt (.v 8) (.v 6) (.zero) 0xAC) ∧
    Reads 0x6044060D (some 0x10AC) (.cvtsc (.v 8) (.v 6) (.v 6) 0x10AC) ∧
    Reads 0x6084060D (some 0xAC) (.pack (.v 8) (.v 6) (.v 6) 0xAC) ∧
    Reads 0x60C4060D (some 0xCA) (.unpk (.v 8) (.v 6) (.v 6) 0xCA) ∧
    Reads 0x61060C0C none (.scfind 12 12 (.v 6)) ∧
    Reads 0x61440604 none (.tclass (.v 8) (.v 6) 2) := by
  refine ⟨rfl, rfl, rfl, rfl, rfl, rfl⟩

/-- One word of every row of this class, written bit by bit from R48 to R52. -/
theorem test_decode_memory_1 :
    Reads 0x8031060C none (.openLine 2 (.v 6) (.v 6)) ∧
    Reads 0x8071060C none (.openAcq 2 (.v 6) (.v 6)) ∧
    Reads 0x80860C0D (some 0xC) (.openf 12 12 (.v 6) 0xC) ∧
    Reads 0x80F10000 none (.close 2) ∧
    Reads 0x81046200 none (.eqry (.v 8) 2) ∧
    Reads 0x81710000 none (.erfr 2) ∧
    Reads 0x83046204 none (.ldl .w (.v 8) 2 2) ∧
    Reads 0x8504620C none (.ldlReg .w (.v 8) 2 (.v 6)) ∧
    Reads 0x87046204 none (.ldlAcq .w (.v 8) 2 2) ∧
    Reads 0x8904620C none (.ldlAcqReg .w (.v 8) 2 (.v 6)) ∧
    Reads 0x8B040C04 none (.ldlx .w (.v 8) 12 2) ∧
    Reads 0x8D040C0C none (.ldlxReg .w (.v 8) 12 (.v 6)) ∧
    Reads 0x8E836204 none (.stl .w (.v 6) 2 2) ∧
    Reads 0x8F83620C none (.stlReg .w (.v 6) 2 (.v 6)) ∧
    Reads 0x90836204 none (.stlRel .w (.v 6) 2 2) ∧
    Reads 0x9183620C none (.stlRelReg .w (.v 6) 2 (.v 6)) ∧
    Reads 0x92830C04 none (.stlx .w (.v 6) 12 2) ∧
    Reads 0x93830C0C none (.stlxReg .w (.v 6) 12 (.v 6)) ∧
    Reads 0x9404060C none (.lock (.v 8) (.v 6) (.v 6)) := by
  refine ⟨rfl, rfl, rfl, rfl, rfl, rfl, rfl, rfl, rfl, rfl, rfl, rfl, rfl, rfl, rfl, rfl, rfl, rfl, rfl⟩

/-- One word of every row of this class, written bit by bit from R48 to R52. -/
theorem test_decode_memory_2 :
    Reads 0x9440060C none (.unlk (.v 6) (.v 6)) ∧
    Reads 0x9480060C none (.prefl (.v 6) (.v 6)) ∧
    Reads 0x96000004 none (.waitcLd 2) ∧
    Reads 0x96400004 none (.waitcSt 2) ∧
    Reads 0x9684620D (some 0x45009) (.atom (.v 8) 2 (.v 6) 0x45009) ∧
    Reads 0x96C4620D (some 0x4004) (.atomcas (.v 8) 2 (.v 6) 0x4004) ∧
    Reads 0x9700620D (some 0x4A009) (.atomred 2 (.v 6) 0x4A009) ∧
    Reads 0x97440000 none (.sealBatch (.v 8)) ∧
    Reads 0x97800600 none (.waitb (.v 6)) ∧
    Reads 0x97C0060D (some 0x5) (.flushr (.v 6) (.v 6) 0x5) ∧
    Reads 0x9800060D (some 0x5) (.disc (.v 6) (.v 6) 0x5) ∧
    Reads 0x98446200 none (.tstv (.v 8) 2) ∧
    Reads 0x98B1060C none (.openv 2 (.v 6) (.v 6)) ∧
    Reads 0x9A04480D (some 0x5) (.bsdef (.v 8) (.s 8) (.v 6) 0x5) ∧
    Reads 0x9A400600 none (.bsfree (.v 6)) ∧
    Reads 0x9AB1060D (some 0x3F000000) (.opent 2 (.v 6) (.v 6) 0x3F000000) ∧
    Reads 0x9AC3620C none (.vads (.v 6) 2 (.v 6)) ∧
    Reads 0x9B000600 none (.bsdrn (.v 6)) ∧
    Reads 0x9B440601 (some 0x1) (.bsqry (.v 8) (.v 6) 0x1) := by
  refine ⟨rfl, rfl, rfl, rfl, rfl, rfl, rfl, rfl, rfl, rfl, rfl, rfl, rfl, rfl, rfl, rfl, rfl, rfl, rfl⟩

/-- One word of every row of this class, written bit by bit from R48 to R52. -/
theorem test_decode_waiting_and_barriers :
    Reads 0xA0040604 none (.ldp .w (.v 8) (.v 6) 2) ∧
    Reads 0xA1040604 none (.ldpWfTake .w (.v 8) (.v 6) 2) ∧
    Reads 0xA2040604 none (.ldpWfPeek .w (.v 8) (.v 6) 2) ∧
    Reads 0xA4030604 none (.stp .w (.v 6) (.v 6) 2) ∧
    Reads 0xA5000604 none (.feset (.v 6) 2) ∧
    Reads 0xA5400604 none (.feclr (.v 6) 2) ∧
    Reads 0xA5840604 none (.feqry (.v 8) (.v 6) 2) ∧
    Reads 0xA6000304 none (.bara 3 2) ∧
    Reads 0xA6400304 none (.barw 3 2) ∧
    Reads 0xA6800300 none (.barx 3) ∧
    Reads 0xA6C40300 none (.barq (.v 8) 3) ∧
    Reads 0xA8040400 none (.sracq (.v 8) 4) ∧
    Reads 0xA840040C none (.srpub 4 (.v 6)) ∧
    Reads 0xA880040C none (.srwait 4 (.v 6)) ∧
    Reads 0xA8C0040C none (.srfree 4 (.v 6)) ∧
    Reads 0xA9040400 none (.srqry (.v 8) 4) ∧
    Reads 0xAA00030D (some 0x3) (.peerarr 3 (.v 6) 0x3) := by
  refine ⟨rfl, rfl, rfl, rfl, rfl, rfl, rfl, rfl, rfl, rfl, rfl, rfl, rfl, rfl, rfl, rfl, rfl⟩

/-- One word of every row of this class, written bit by bit from R48 to R52. -/
theorem test_decode_matrix :
    Reads 0xC0014800 none (.tdset 2 8) ∧
    Reads 0xC0410604 none (.tdmod 2 (.v 6) 2) ∧
    Reads 0xC0840204 none (.tdq (.v 8) 2 2) ∧
    Reads 0xC2008000 none (.azero 1) ∧
    Reads 0xC2408C04 none (.ald 1 12 2) ∧
    Reads 0xC2860104 none (.ast 12 1 2) ∧
    Reads 0xC2C08000 none (.aprom 1) ∧
    Reads 0xC3008004 none (.acvt 1 2) ∧
    Reads 0xC4008204 none (.mma 1 2 2) ∧
    Reads 0xC4408204 none (.mmaAcc 1 2 2) ∧
    Reads 0xC4808205 (some 0x28) (.mmas 1 2 2 0x28) ∧
    Reads 0xC4C08205 (some 0x0) (.mmast 1 2 2 0x0) ∧
    Reads 0xC6008000 none (.amaxu 1) ∧
    Reads 0xC6408100 none (.arsc 1 1) ∧
    Reads 0xC8000105 (some 0x10) (.adrn 1 2 0x10) ∧
    Reads 0xCA06041C none (.cmpr 12 4 14) ∧
    Reads 0xCA440C00 none (.mtchk (.v 8) 12) := by
  refine ⟨rfl, rfl, rfl, rfl, rfl, rfl, rfl, rfl, rfl, rfl, rfl, rfl, rfl, rfl, rfl, rfl, rfl⟩

/-- One word of every row of this class, written bit by bit from R48 to R52. -/
theorem test_decode_system :
    Reads 0xE004060C none (.launch (.v 8) (.v 6) (.v 6)) ∧
    Reads 0xE0400602 none (.post (.v 6) 1) ∧
    Reads 0xE0800004 none (.phadv 2) ∧
    Reads 0xE0C00000 none .idend ∧
    Reads 0xE4000004 none (.trap 2) ∧
    Reads 0xE4400000 none .rte ∧
    Reads 0xE4840001 (some 0x50) (.csrr (.v 8) 0x50) ∧
    Reads 0xE4C00601 (some 0x40) (.csrw (.v 6) 0x40) ∧
    Reads 0xE5000601 (some 0x1) (.csrs (.v 6) 0x1) ∧
    Reads 0xE5400601 (some 0x1) (.csrc (.v 6) 0x1) ∧
    Reads 0xE5800000 none .dtld ∧
    Reads 0xE5C0060C none (.tlbi (.v 6) (.v 6)) ∧
    Reads 0xE6000004 none (.brkpt 2) ∧
    Reads 0xE6400000 none .halt ∧
    Reads 0xE804060D (some 0xA000) (.ared (.v 8) (.v 6) (.v 6) 0xA000) ∧
    Reads 0xE840060D (some 0xA000) (.acol (.v 6) (.v 6) 0xA000) ∧
    Reads 0xE880060D (some 0x3) (.rsig (.v 6) (.v 6) 0x3) ∧
    Reads 0xE4A28001 (some 0xB01) (.bobq (.s 5) 1) := by
  refine ⟨rfl, rfl, rfl, rfl, rfl, rfl, rfl, rfl, rfl, rfl, rfl, rfl, rfl, rfl, rfl, rfl, rfl, rfl⟩

/-- Words that the manual's entries print. -/
theorem test_manual_words_1 :
    Reads 0x600101F9 (some 0xAC) (.cvt (.v 2) (.v 1) (.zero) 0xAC) ∧
    Reads 0x60428109 (some 0x10AC) (.cvtsc (.v 5) (.v 1) (.v 4) 0x10AC) ∧
    Reads 0x6102018C none (.scfind 4 1 (.s 6)) ∧
    Reads 0x61418518 none (.tclass (.v 3) (.v 5) 0xC) ∧
    Reads 0x01C04A00 none (.ret (.s 10)) ∧
    Reads 0x0140060E none (.jmp (.v 6) (.v 7)) ∧
    Reads 0x02407100 none (.join 1) ∧
    Reads 0x02807200 none (.leave 2) ∧
    Reads 0x02C07300 none (.waitk 3) ∧
    Reads 0x03797100 none (.kmov 2 1) ∧
    Reads 0x03B9F1E4 none (.kand 3 1 2) ∧
    Reads 0x04A1F100 none (.kpop (.s 3) 1) ∧
    Reads 0x04FA7100 none (.elect 4 1) ∧
    Reads 0x05000000 none .exit ∧
    Reads 0x05400000 none .yield ∧
    Reads 0x05800008 none (.sleep 0x4) ∧
    Reads 0x00000000 none .nop ∧
    Reads 0x2A00820A none (.addImm false (.v 1) (.v 2) 0x5) ∧
    Reads 0x280A140B (some 0x1003) (.lea (.v 20) (.v 20) (.v 5) 0x1003) ∧
    Reads 0x40018104 none (.fadd (.v 3) (.v 1) (.reg (.v 2))) ∧
    Reads 0x40C20184 none (.ffma (.v 4) (.v 1) (.reg (.s 2))) ∧
    Reads 0x40828501 (some 0x3F000000) (.fmul (.v 5) (.v 5) (.lit 0x3F000000)) ∧
    Reads 0x41810200 none (.fneg (.v 2) (.v 2)) ∧
    Reads 0x42030105 (some 0x32) (.fcmp (.v 6) (.v 1) (.v 2) 0x32) ∧
    Reads 0x42448100 none (.fclass (.v 9) (.v 1)) ∧
    Reads 0x42810106 none (.frnd (.v 2) (.v 1) 0x3) ∧
    Reads 0x43038100 none (.frcp (.v 7) (.v 1)) ∧
    Reads 0x4804040C none (.dadd (.v 8) (.v 4) (.reg (.v 6))) ∧
    Reads 0x4C818104 none (.hfma2 (.v 3) (.v 1) (.reg (.v 2))) := by
  refine ⟨rfl, rfl, rfl, rfl, rfl, rfl, rfl, rfl, rfl, rfl, rfl, rfl, rfl, rfl, rfl, rfl, rfl, rfl, rfl, rfl, rfl, rfl, rfl, rfl, rfl, rfl, rfl, rfl, rfl⟩

/-- Words that the manual's entries print. -/
theorem test_manual_words_2 :
    Reads 0x5C220000 none (.fpcr (.s 4)) ∧
    Reads 0x50410101 (some 0x24) (.shfld (.v 2) (.v 1) (.lit 0x24)) ∧
    Reads 0x50A28201 (some 0xF0) (.vote (.s 5) (.v 2) 0xF0) ∧
    Reads 0x50C50901 (some 0xA0) (.redu (.v 10) (.v 9) 0xA0) ∧
    Reads 0x51404801 (some 0x403F) (.chain (.s 8) 0x403F) ∧
    Reads 0x803144F8 none (.openLine 2 (.s 4) (.zero)) ∧
    Reads 0x80728A16 none (.openAcq 5 (.v 10) (.v 11)) ∧
    Reads 0x808A0AF9 (some 0xC) (.openf 20 10 (.zero) 0xC) ∧
    Reads 0x80F08000 none (.close 1) ∧
    Reads 0x81216700 none (.eqry (.s 2) 7) ∧
    Reads 0x81718000 none (.erfr 3) ∧
    Reads 0x83046220 none (.ldl (.w) (.v 8) 2 0x10) ∧
    Reads 0x87046220 none (.ldlAcq (.w) (.v 8) 2 0x10) ∧
    Reads 0x84C4E006 none (.ldlReg (.sh) (.v 9) 0 (.v 3)) ∧
    Reads 0x8B031404 none (.ldlx (.w) (.v 6) 20 0x2) ∧
    Reads 0x8EC26306 none (.stl (.d) (.v 4) 3 0x3) ∧
    Reads 0x90A3E33E none (.stlRel (.w) (.s 7) 3 0x1F) ∧
    Reads 0x94018812 none (.lock (.v 3) (.v 8) (.v 9)) ∧
    Reads 0x944044F8 none (.unlk (.s 4) (.zero)) ∧
    Reads 0x9480448A none (.prefl (.s 4) (.s 5)) ∧
    Reads 0xA0024206 none (.ldp (.w) (.v 4) (.s 2) 0x3) ∧
    Reads 0xA1840100 none (.ldpWfTake (.q) (.v 8) (.v 1) 0x0) ∧
    Reads 0xA4434304 none (.stp (.d) (.v 6) (.s 3) 0x2) ∧
    Reads 0xA5004508 none (.feset (.s 5) 0x4) ∧
    Reads 0xA5400200 none (.feclr (.v 2) 0x0) ∧
    Reads 0xA5818200 none (.feqry (.v 3) (.v 2) 0x0) ∧
    Reads 0xA6000108 none (.bara 1 0x4) ∧
    Reads 0xA6400208 none (.barw 2 0x4) ∧
    Reads 0xA6800100 none (.barx 1) := by
  refine ⟨rfl, rfl, rfl, rfl, rfl, rfl, rfl, rfl, rfl, rfl, rfl, rfl, rfl, rfl, rfl, rfl, rfl, rfl, rfl, rfl, rfl, rfl, rfl, rfl, rfl, rfl, rfl, rfl, rfl⟩

/-- Words that the manual's entries print. -/
theorem test_manual_words_3 :
    Reads 0xA6E30300 none (.barq (.s 6) 3) ∧
    Reads 0xAA000495 (some 0x3) (.peerarr 4 (.s 10) 0x3) ∧
    Reads 0xA8240200 none (.sracq (.s 8) 2) ∧
    Reads 0xA8400290 none (.srpub 2 (.s 8)) ∧
    Reads 0xA8800292 none (.srwait 2 (.s 9)) ∧
    Reads 0xA8C00292 none (.srfree 2 (.s 9)) ∧
    Reads 0xA9028000 none (.srqry (.v 5) 0) ∧
    Reads 0x96400000 none (.waitcSt 0x0) ∧
    Reads 0x96000004 none (.waitcLd 0x2) ∧
    Reads 0x9683640F (some 0x45009) (.atom (.v 6) 4 (.v 7) 0x45009) ∧
    Reads 0x96C3640F (some 0x4004) (.atomcas (.v 6) 4 (.v 7) 0x4004) ∧
    Reads 0x9700650F (some 0x4A009) (.atomred 5 (.v 7) 0x4A009) ∧
    Reads 0x97418000 none (.sealBatch (.v 3)) ∧
    Reads 0x97800300 none (.waitb (.v 3)) ∧
    Reads 0x98B1448A none (.openv 2 (.s 4) (.s 5)) ∧
    Reads 0x98636200 none (.tstv (.s 6) 2) ∧
    Reads 0x9A21C899 (some 0x5) (.bsdef (.s 3) (.s 8) (.s 12) 0x5) ∧
    Reads 0x9A404200 none (.bsfree (.s 2)) ∧
    Reads 0x9AB0C4F9 (some 0x3F000000) (.opent 1 (.s 4) (.zero) 0x3F000000) ∧
    Reads 0x9AC2620C none (.vads (.v 4) 2 (.v 6)) ∧
    Reads 0x9B004200 none (.bsdrn (.s 2)) ∧
    Reads 0x9B634201 (some 0x1) (.bsqry (.s 6) (.s 2) 0x1) ∧
    Reads 0xA421C400 none (.stp (.w) (.s 3) (.s 4) 0x0) ∧
    Reads 0xE4A28001 (some 0xB01) (.bobq (.s 5) 1) ∧
    Reads 0xC0004800 none (.tdset 0 8) ∧
    Reads 0xC000D000 none (.tdset 1 16) ∧
    Reads 0xC0404510 none (.tdmod 0 (.s 5) 0x8) ∧
    Reads 0xC0A3010A none (.tdq (.s 6) 1 0x5) ∧
    Reads 0xC4000002 none (.mma 0 0 1) := by
  refine ⟨rfl, rfl, rfl, rfl, rfl, rfl, rfl, rfl, rfl, rfl, rfl, rfl, rfl, rfl, rfl, rfl, rfl, rfl, rfl, rfl, rfl, rfl, rfl, rfl, rfl, rfl, rfl, rfl, rfl⟩

/-- Words that the manual's entries print. -/
theorem test_manual_words_4 :
    Reads 0xC2000000 none (.azero 0) ∧
    Reads 0xC2408806 none (.ald 1 8 0x3) ∧
    Reads 0xC2860000 none (.ast 12 0 0x0) ∧
    Reads 0xC2C10000 none (.aprom 2) ∧
    Reads 0xC3008004 none (.acvt 1 0x2) ∧
    Reads 0xCA050416 none (.cmpr 10 4 11) ∧
    Reads 0xCA630B00 none (.mtchk (.s 6) 11) ∧
    Reads 0xC4808207 (some 0x28) (.mmas 1 2 3 0x28) ∧
    Reads 0xC4C0040B none (.mmast 0 4 5 0x0) ∧
    Reads 0xC6000000 none (.amaxu 0) ∧
    Reads 0xC6408000 none (.arsc 1 0) ∧
    Reads 0xC4408004 none (.mmaAcc 1 0 2) ∧
    Reads 0xC8000109 (some 0x10) (.adrn 1 4 0x10) ∧
    Reads 0xE0C00000 none .idend ∧
    Reads 0xE0800004 none (.phadv 0x2) ∧
    Reads 0xE023448A none (.launch (.s 6) (.s 4) (.s 5)) ∧
    Reads 0xE0404702 none (.post (.s 7) 0x1) ∧
    Reads 0xE4AE0001 (some 0x50) (.csrr (.s 28) 0x50) ∧
    Reads 0xE4C04401 (some 0x40) (.csrw (.s 4) 0x40) ∧
    Reads 0xE400000A none (.trap 0x5) ∧
    Reads 0xE6000002 none (.brkpt 0x1) ∧
    Reads 0xE6400000 none .halt ∧
    Reads 0xE5C0448A none (.tlbi (.s 4) (.s 5)) ∧
    Reads 0xE5800000 none .dtld ∧
    Reads 0xE823448B (some 0xA000) (.ared (.s 6) (.s 4) (.s 5) 0xA000) ∧
    Reads 0xE840448B (some 0xA000) (.acol (.s 4) (.s 5) 0xA000) ∧
    Reads 0xE880448B (some 0x3) (.rsig (.s 4) (.s 5) 0x3) ∧
    Reads 0x5C804300 none (.fpcs (.s 3)) ∧
    Reads 0x30040008 none (.add true (.v 8) (.v 0) (.reg (.v 4))) := by
  refine ⟨rfl, rfl, rfl, rfl, rfl, rfl, rfl, rfl, rfl, rfl, rfl, rfl, rfl, rfl, rfl, rfl, rfl, rfl, rfl, rfl, rfl, rfl, rfl, rfl, rfl, rfl, rfl, rfl, rfl⟩

/-- An ill-formed term for each check of the integer and control forms: odd pairs, and literals of R101 to R108. -/
theorem test_wf_refuses_integer :
    (∀ i ∈ [Instr.call (.v 3) 0, .ret (.s 5), .add true (.v 9) (.v 0) (.lit 1), .add true (.v 8) (.v 1) (.lit 1),
      .add true (.v 8) (.v 0) (.reg (.v 5)), .neg true (.v 8) (.v 1), .shlImm true (.v 7) (.v 0) 3, .mov true (.v 1) (.v 0),
      .addImm true (.v 8) (.v 3) 5, .bfx false (.v 8) (.v 0) .zero 0x801, .bfi true (.v 9) (.v 0) .zero 0x804,
      .prmt (.v 1) (.v 2) (.v 3) 0x10000, .sel false (.v 1) (.v 2) (.v 3) 12, .cmp false (.v 1) (.v 2) (.v 3) 0xFA,
      .cmpv false (.v 1) (.v 2) (.v 3) 0x1F0, .lea (.v 3) (.v 2) (.v 5) 0x3, .lea (.v 4) (.v 2) (.v 5) 0x13,
      .divu true (.v 8) (.v 0) (.reg (.v 3)), .addc true (.v 8) (.v 1) (.reg (.v 4))], i.wf = false) ∧
    (∀ i ∈ [Instr.call (.v 4) 0, .ret (.s 6), .add true (.v 8) (.v 0) (.lit 1), .bfx false (.v 8) (.v 0) .zero 0x204,
      .prmt (.v 1) (.v 2) (.v 3) 0xFFFF, .sel false (.v 1) (.v 2) (.v 3) 11, .cmp false (.v 1) (.v 2) (.v 3) 0xF2,
      .lea (.v 4) (.v 2) (.v 5) 0x1003], i.wf = true) := by decide

/-- The same for the floating-point, cross-lane and conversion forms. -/
theorem test_wf_refuses_float :
    (∀ i ∈ [Instr.fcmp (.v 6) (.v 1) (.v 2) 0xF8, .frnd (.v 2) (.v 1) 4, .dadd (.v 9) (.v 4) (.reg (.v 6)),
      .dadd (.v 8) (.v 5) (.reg (.v 6)), .dcmp (.v 1) (.v 3) (.v 4) 0xF2, .dcmp (.v 1) (.v 2) (.v 4) 0xF8, .dsqrt (.v 2) (.v 3),
      .vote (.s 5) (.v 2) 0xF9, .redu (.v 10) (.v 9) 0xAF, .scan (.v 10) (.v 9) 0xAF, .chain (.s 8) 0x20000,
      .cvt (.v 2) (.v 1) .zero 0x10AC, .cvt (.v 2) (.v 1) .zero 0x20AC, .cvtsc (.v 2) (.v 1) (.v 3) 0x4AC,
      .pack (.v 2) (.v 1) (.v 3) 0x10AC, .pack (.v 2) (.v 1) (.v 3) 0x60AC, .unpk (.v 2) (.v 1) .zero 0x20CA,
      .tclass (.v 3) (.v 5) 16], i.wf = false) ∧
    (∀ i ∈ [Instr.fcmp (.v 6) (.v 1) (.v 2) 0xF2, .frnd (.v 2) (.v 1) 3, .dadd (.v 8) (.v 4) (.reg (.v 6)),
      .vote (.s 5) (.v 2) 0xF0, .redu (.v 10) (.v 9) 0xA0, .scan (.v 10) (.v 9) 0xA0, .chain (.s 8) 0x403F,
      .cvt (.v 2) (.v 1) .zero 0xAC, .cvtsc (.v 2) (.v 1) (.v 3) 0x10AC, .pack (.v 2) (.v 1) (.v 3) 0xAC,
      .unpk (.v 2) (.v 1) .zero 0xCA, .tclass (.v 3) (.v 5) 0xC], i.wf = true) := by decide

/-- The same for the forms of memory, of the pillow and of ordering. -/
theorem test_wf_refuses_memory :
    (∀ i ∈ [Instr.openf 20 10 .zero 0x20, .ldl .d (.v 5) 2 0, .ldlx .d (.v 5) 20 0, .stl .d (.v 5) 3 0, .stlRel .d (.v 7) 3 0,
      .atom (.v 6) 4 (.v 7) 0x1005009, .atomcas (.v 6) 4 (.v 7) 0x4104, .atomred 5 (.v 7) 0xF04A009, .flushr (.s 1) (.s 2) 0x8000000,
      .disc (.s 1) (.s 2) 0x8000000, .bsdef (.s 3) (.s 9) (.s 12) 5, .bsdef (.s 3) (.v 8) (.s 12) 5,
      .bsdef (.s 3) (.s 8) (.s 12) 0x15, .opent 1 (.s 4) .zero 0x7FC00000, .bsqry (.s 6) (.s 2) 4, .ldp .d (.v 5) (.s 2) 0,
      .ldp .q (.v 6) (.s 2) 0, .ldpWfTake .q (.v 6) (.v 1) 0, .ldpWfPeek .d (.v 7) (.v 1) 0, .stp .q (.v 10) (.s 3) 0,
      .peerarr 4 (.s 10) 0x80], i.wf = false) ∧
    (∀ i ∈ [Instr.openf 20 10 .zero 0xC, .ldl .d (.v 6) 2 0, .stl .d (.v 4) 3 3, .atom (.v 6) 4 (.v 7) 0x45009,
      .atomcas (.v 6) 4 (.v 7) 0x4004, .atomred 5 (.v 7) 0x4A009, .flushr (.s 1) (.s 2) 5, .bsdef (.s 3) (.s 8) (.s 12) 5,
      .opent 1 (.s 4) .zero 0x3F000000, .ldp .q (.v 8) (.s 2) 0, .peerarr 4 (.s 10) 0x7F], i.wf = true) := by decide

/-- The same for the matrix forms, the system forms and the collectives. -/
theorem test_wf_refuses_matrix_and_system :
    (∀ i ∈ [Instr.tdset 0 12, .tdq (.s 6) 1 8, .acvt 1 3, .mmas 1 2 3 0x40, .mmast 1 2 3 0x40,
      .adrn 1 4 0x80000000, .cmpr 10 5 11, .cmpr 10 4 10, .csrr (.s 28) 0x1050, .csrr (.s 28) 0xB02,
      .csrw (.s 4) 0x1040, .csrs (.s 4) 0x1040, .csrc (.s 4) 0x1040, .ared (.s 6) (.s 4) (.s 5) 0xA00F,
      .acol (.s 4) (.s 5) 0xF0A000, .rsig (.s 4) (.s 5) 0x40], i.wf = false) ∧
    (∀ i ∈ [Instr.tdset 0 8, .tdmod 0 (.s 5) 10, .tdq (.s 6) 1 7, .acvt 1 2, .mmaAcc 1 1 2, .mmas 1 2 3 0x28, .adrn 1 4 0x10,
      .cmpr 10 4 11, .post (.s 7) 2, .csrr (.s 28) 0x50, .csrw (.s 4) 0xB01, .ared (.s 6) (.s 4) (.s 5) 0xA000,
      .acol (.s 4) (.s 5) 0xA000, .rsig (.s 4) (.s 5) 3], i.wf = true) := by decide

/-- A cord of 32 ready threads in the compute role with 64 registers, that executes the clause at 0x04000000, flag f0. -/
def cord1 : Cord :=
  { cid := 1, live := true, mid := 1, ctx := 1, regs := 64, xmax := 4, nacc := 4, role := 2, amode := [],
    threads := (List.range 32).map fun l => (l, { st := .ready, pc := 0x04000000 }),
    cl := { on := true, hdrA := 0x04000000, hdr := 0x00001E02, words := [(0, none)], act := 0xFFFFFFFF } }

/-- Page 0x10000 of context 1, which lies at 0x20000. -/
def page1 : Page := ⟨1, 0x10000, false, 0x20000, true, true, false, false⟩

/-- The cord's motif. -/
def motif1 : Motif := { mid := 1, ctx := 1, status := .running, copies := 1, matrices := 1, vectors := 1, regs := 64, xregs := 4 }

/-- The page of the program, at 0x30000. -/
def page2 : Page := ⟨1, 0x04000000, false, 0x30000, true, false, false, false⟩

/-- A device in FULL with one core, whose open TLB holds the page. -/
def core1 : Core := { core := 0, tlb := [page1] }

/-- The machine of most witnesses: the cord, its motif, its core, context 1 with its page. -/
def base : State :=
  { cycle := 100, cord := cord1, motif := motif1, cores := [core1], ctxs := [{ id := 1, en := true, sys := true }], pages := [page1, page2],
    dev := { st := .full, erdy := true }, mem := [(0x30000, 0x02), (0x30001, 0x1E)] }

/-- The machine at the event e. -/
def ev (e : Event) : State := { base with now := some e }

/-- A cord with eyelet e2 open on page 1's first line and allowed to write it. -/
def eye2 : Eyelet := { st := .opened, vla := 0x200, pla := 0x400, w := true }

/-- The machine with that eyelet, and with scalar s4 holding the line's address. -/
def opened : State := { base with cord := { cord1 with eyes := [(2, eye2)], s := [(4, 0x10000)] } }

/-- The checks of a form pass in `base`, whatever its latency class, whole or privileged or of the network. -/
theorem witness_FormChecksPassExactly :
    Form.check { lat := .i4 } base = none ∧ Form.check { lat := .v, unit := .vec 4 } base = none ∧
    Form.check { lat := .n, whole := true, priv := true } base = none ∧ Form.check { lat := .v, unit := .net, role := some 2 } base = none ∧
    Form.check { lat := .i4, vecs := [(63, 1)] } base = none ∧ Form.check { lat := .i4, vecs := [(63, 2)] } base ≠ none ∧
    Form.check { lat := .v, role := some 1 } base ≠ none := by
  refine ⟨rfl, rfl, rfl, rfl, rfl, by decide, by decide⟩

/-- The checks of the two-operand forms pass, registers and immediates, 32 and 64 bits. -/
theorem witness_TwoOperandIntegerResults :
    (binForm .i4 false (.v 8) (.v 0) (.reg (.s 4))).check base = none ∧ (binForm .d10 true (.v 8) (.v 0) (.lit 7)).check base = none ∧
    Form.check { lat := .i4, vecs := wrVecs (.v 8) (span true) ++ rdVecs (.v 62) (span true) } base = none ∧
    Form.check { lat := .d10, vecs := wrVecs (.s 8) (span true) ++ rdVecs (.v 62) (span true) } base = none := ⟨rfl, rfl, rfl, rfl⟩

/-- The checks of the one-operand forms and of the shifts pass. -/
theorem witness_OneOperandAndShiftResults :
    Form.check { lat := .i4, vecs := wrVecs (.v 8) (span true) ++ rdVecs (.v 0) (span true) } base = none ∧
    Form.check { lat := .i4, vecs := wrVecs (.v 63) 1 } base = none ∧
    Form.check { lat := .i4, vecs := wrVecs (.v 8) (span false) ++ rdVecs (.v 0) (span false) ++ srcVecs (.reg (.v 3)) 1 } base = none :=
  ⟨rfl, rfl, rfl⟩

/-- The checks of the bit-field forms and of prmt pass. -/
theorem witness_BitFieldAndPermuteResults :
    Form.check { lat := .i4, vecs := wrVecs (.v 8) (span true) ++ rdVecs (.v 0) (span true) ++ rdVecs .zero 1 } base = none ∧
    Form.check { lat := .i4, vecs := wrVecs (.v 8) 1 ++ rdVecs (.v 0) 1 ++ rdVecs (.v 3) 1 } base = none := ⟨rfl, rfl⟩

/-- The checks of selection, comparison and lea pass. -/
theorem witness_SelectCompareAndLeaResults :
    Form.check { lat := .i4, vecs := wrVecs (.v 8) (span true) ++ rdVecs (.v 0) (span true) ++ rdVecs (.s 2) (span true) } base = none ∧
    Form.check { lat := .i4, vecs := wrVecs (.v 4) 2 ++ rdVecs (.v 2) 2 ++ rdVecs (.v 5) 1 } base = none := ⟨rfl, rfl⟩

/-- A divide's unit is free, and its completion happens. -/
theorem witness_DivideResultsAndTiming :
    (binForm .v true (.v 8) (.v 0) (.lit 0)).check base = none ∧
    SMap.get 0 (base.coreOf base.cord.core).divFree base.cord.slot ≤ base.cycle ∧
    (ev (.divideComplete 1 0 [.s 3 5])).now = some (.divideComplete 1 0 [.s 3 5]) := ⟨rfl, by decide, rfl⟩

/-- Destinations at multiples of 4, and each of the two ways in which a second clause decides or traps. -/
theorem witness_TransferForms :
    Form.check { lat := .i4, vecs := rdVecs (.v 6) 1 ++ rdVecs (.v 7) 1 } base = none ∧ Form.check { lat := .i4, vecs := wrVecs (.s 4) 2 } base = none ∧
    base.cord.cl.xf = .none ∧ (0x100 : Word).toNat % 4 = 0 ∧ (∀ l, (base.cord.rd .zero l).toNat % 4 = 0) ∧
    (∀ l, (base.cord.rd64 .zero l).toNat % 4 = 0) ∧
    (let s := { base with cord := { cord1 with trap := { v := true, tract := 0xFFFFFFFF } } }
     Form.check { lat := .n } s = none ∧ s.cord.cl.xf = .none ∧ s.cord.trap.v = true ∧ s.cord.act = s.cord.trap.tract) ∧
    (let s := { base with cord := { cord1 with cl := { cord1.cl with xf := .exit } } }
     Form.check { lat := .i4 } s = none ∧ s.cord.cl.xf ≠ .none) ∧
    base.cord.act ≠ 0 ∧ (0x102 : Word).toNat % 4 ≠ 0 ∧ (¬∃ l < 32, bit base.cord.act l = true ∧ bit (base.cord.kreg 2) l = true) ∧
    (let s := { base with cord := { cord1 with k := [(2, 8)], s := [(4, 2)], cl := { cord1.cl with xf := .exit },
                                               trap := { v := true, tract := 0xFFFFFFFF } } }
     s.cord.cl.xf ≠ .none ∧ s.cord.trap.v = true ∧ s.cord.act = s.cord.trap.tract) ∧ base.cord.trap.v = false ∧
    (let s := { base with cord := { cord1 with k := [(2, 8)], s := [(4, 2)] } }
     s.cord.cl.xf = .none ∧ bit s.cord.act 3 = true ∧ bit (s.cord.kreg 2) 3 = true ∧ s.cord.rd .zero 0 = 0 ∧ s.cord.rd (.s 4) 0 ≠ 0 ∧
     bit s.cord.act 0 = true ∧ (s.cord.rd .zero 0 ++ s.cord.rd (.s 4) 0).toNat % 4 ≠ 0 ∧ (s.cord.rd64 (.s 4) 0).toNat % 4 ≠ 0) := by
  refine ⟨rfl, rfl, rfl, rfl, fun _ => rfl, fun _ => by simp [Cord.rd64, Cord.rdAt, Cord.rd, pair64], ⟨rfl, rfl, rfl, rfl⟩, ⟨rfl, by decide⟩,
    by decide, by decide, by decide, ⟨by decide, rfl, rfl⟩, rfl, rfl, by decide, by decide, rfl, by decide, by decide, by decide, by decide⟩

/-- The checks of the mask forms pass. -/
theorem witness_MaskRegisterResults :
    Form.check { lat := .i4 } base = none ∧ Form.check { lat := .i4, vecs := wrVecs (.s 3) 1 } base = none := ⟨rfl, rfl⟩

/-- A meeting address at a multiple of 4, and a thread that stays held because thread 1 has not met. -/
theorem witness_MeetingForms :
    Form.check { lat := .i4 } base = none ∧ (0x100 : Word).toNat % 4 = 0 ∧
    (let c : Cord := { jm := 3, threads := [(0, { st := .held, pc := 0x04000100 }), (1, { st := .ready, pc := 0x04000000 })] }
     (c.meetRelease.thread 0).st = .held) := ⟨rfl, rfl, by decide +kernel⟩

/-- The window at its last place; blocks that are free, and blocks to give back; a request at the head of the list. -/
theorem witness_WindowAndBlockForms :
    (12 : Imm).toNat ≤ 12 ∧ Form.check { lat := .i4 } base = none ∧ Form.check { lat := .i4, whole := true } base = none ∧
    0 < (2 : Imm).toNat ∧ base.cord.xblk + (2 : Imm).toNat ≤ base.cord.xmax ∧
    (base.coreOf base.cord.core).xreqs = [] ∧ (2 : Imm).toNat ≤ base.poolFree base.cord.core ∧
    (let s := { base with cord := { cord1 with xgrant := 2 } }
     s.cord.xgrant = (2 : Imm).toNat ∧ Form.check { lat := .i4, whole := true } s = none) ∧
    (let s := { base with cord := { cord1 with xblk := 2 } }
     Form.check { lat := .i4, whole := true } s = none ∧ (2 : Imm).toNat ≤ s.cord.xblk) ∧
    (let s := { ev (.xacqGrant 0) with cores := [{ core1 with xreqs := [(1, 4)] }] }
     (s.coreOf 0).xreqs = (1, 4) :: [] ∧ (s.findCord 1).isSome = true ∧ 4 ≤ s.poolFree 0) := by
  refine ⟨by decide, rfl, rfl, by decide, by decide, rfl, by decide, ⟨rfl, rfl⟩, ⟨rfl, by decide⟩, ⟨rfl, rfl, by decide⟩⟩

/-- A group whose flags read zero, at a header with its WAIT field clear, also where the header is kept from its fetch; and one whose
header waits for flag f0. -/
theorem witness_ClauseStartsOnWait :
    (let s := { ev (.clauseStart 1) with cord := { cord1 with cl := {}, chosen := some 0x04000000, f := [(0, 1)] },
                                         mem := [(0x30000, 0x02), (0x30001, 0x1E), (0x30002, 0x02)] }
     s.findCord 1 = some s.cord ∧ ∃ h tab, s.tryStart s.cord = .fetch 0x04000000 h tab) ∧
    (let s := { ev (.clauseStart 1) with cord := { cord1 with cl := {}, chosen := some 0x04000000, fetched := some (0x04000000, 0x1E02, none) } }
     s.findCord 1 = some s.cord ∧ ∃ cl, s.tryStart s.cord = .go cl ∧ s.cord.fetched = some (cl.hdrA, 0x1E02, none)) ∧
    let s := { ev (.clauseStart 1) with cord := { cord1 with cl := {}, chosen := some 0x04000000 } }
    s.findCord 1 = some s.cord ∧ ∃ cl, s.tryStart s.cord = .go cl := ⟨⟨rfl, _, _, rfl⟩, ⟨rfl, _, rfl, rfl⟩, rfl, _, rfl⟩

/-- A clause past its last slot with each kind of decision, a thread whose sleep is over, and a cord that waited for 48 cycles. -/
theorem witness_ClauseEndsAndWaking :
    (∀ xf ∈ [Transfer.none, .yield, .exit, .waitk 3, .sleep 4, .jump [(0, 0x04000100)]],
      let s := { ev (.clauseEnd 1) with cord := { cord1 with cl := { cord1.cl with slot := 1, xf := xf } } }
      s.cordRec 1 = some s.cord ∧ s.clauseOver s.cord = true ∧ bit s.cord.cl.act 31 = true) ∧
    (let s := { ev (.sleepExpiry 1 0) with cord := { cord1 with threads := [(0, { st := .sleeping 100 })] } }
     s.findCord 1 = some s.cord ∧ (s.cord.thread 0).st = .sleeping 100 ∧ 100 ≤ s.cycle) ∧
    let s := { ev (.cordUrgent 1) with cord := { cord1 with count := 48 } }
    s.findCord 1 = some s.cord ∧ 48 ≤ s.cord.count := by
  exact ⟨by decide +kernel, ⟨rfl, rfl, by decide⟩, rfl, by decide⟩

/-- The writes of a fixed-latency form are due in a cord that lives, and register 5 is no destination of `v4`. -/
theorem witness_ResultsReachTheirRegisters :
    let e := Event.fixedLatencyWrite 1 (cord1.writes32 (.v 4) fun _ => 7)
    (ev e).now = some e ∧ (ev e).findCord 1 = some cord1 ∧ 5 ≠ cord1.wb + (4 : Vec).val ∧ 31 < 32 := ⟨rfl, rfl, by decide, by decide⟩

/-- The checks of the three vector latencies pass. -/
theorem witness_FloatArithmeticResults :
    (vecForm .f6 1 1 (.v 3) (.v 1) (.lit 0x3F000000)).check base = none ∧ (vecForm .d10 2 2 (.v 8) (.v 4) (.reg (.v 6))).check base = none :=
  ⟨rfl, rfl⟩

/-- The checks of the sign, comparison, classification and rounding forms pass. -/
theorem witness_FloatSignCompareClassRound :
    Form.check { lat := .f6, unit := .vec 1, vecs := wrVecs (.v 2) 1 ++ rdVecs (.v 2) 1 } base = none ∧
    Form.check { lat := .f6, unit := .vec 1, vecs := wrVecs (.v 6) 1 ++ rdVecs (.v 1) 1 ++ rdVecs (.v 2) 1 } base = none ∧
    Form.check { lat := .d10, unit := .vec 2, vecs := wrVecs (.s 6) 1 ++ rdVecs (.v 2) 2 ++ rdVecs (.v 4) 2 } base = none := ⟨rfl, rfl, rfl⟩

/-- The special-function unit is free, and a completion happens. -/
theorem witness_SpecialFunctionResultsAndTiming :
    Form.check { lat := .v, vecs := wrVecs (.v 7) 1 ++ rdVecs (.v 1) 1 } base = none ∧
    Form.check { lat := .v, vecs := wrVecs (.v 8) 2 ++ rdVecs (.v 0) 2 ++ rdVecs (.v 4) 2 } base = none ∧
    SMap.get 0 (base.coreOf base.cord.core).sfuFree base.cord.slot ≤ base.cycle ∧
    (let e := Event.specialFunctionComplete 1 0 []; (ev e).now = some e) := ⟨rfl, rfl, by decide, rfl⟩

/-- The checks of the fpctl forms pass, and a divisor is positive. -/
theorem witness_FpctlFormsAndRounding :
    Form.check { lat := .i4, vecs := wrVecs (.s 4) 1 } base = none ∧ Form.check { lat := .i4, vecs := rdVecs (.v 4) 1 } base = none ∧ 0 < 1 :=
  ⟨rfl, rfl, by decide⟩

/-- The checks of the exchange-network forms pass. -/
theorem witness_ShuffleAndVoteResults :
    Form.check { lat := .x 12, unit := .net, vecs := wrVecs (.v 2) 1 ++ rdVecs (.v 1) 1 ++ srcVecs (.lit 36) 1 } base = none ∧
    Form.check { lat := .x 16, unit := .net, vecs := wrVecs (.v 2) 1 ++ rdVecs (.v 1) 1 ++ srcVecs (.reg (.v 3)) 1 } base = none ∧
    Form.check { lat := .x 12, unit := .net, vecs := wrVecs (.s 5) 1 ++ rdVecs (.v 2) 1 } base = none := ⟨rfl, rfl, rfl⟩

/-- The checks of the reduction and the scan pass, 32 and 64 bits wide. -/
theorem witness_ReductionAndScanResults :
    Form.check { lat := .x 32, unit := .net, vecs := wrVecs (.v 10) 1 ++ rdVecs (.v 9) 1 } base = none ∧
    Form.check { lat := .x 40, unit := .net, vecs := wrVecs (.v 10) 2 ++ rdVecs (.v 8) 2 } base = none ∧ red64 0xB0 = true := ⟨rfl, rfl, rfl⟩

/-- The checks of the conversion forms pass. -/
theorem witness_ConversionResults :
    Form.check { lat := .f6, vecs := wrVecs (.v 2) 1 ++ rdVecs (.v 1) 1 ++ rdVecs .zero 1 } base = none ∧
    Form.check { lat := .d10, vecs := wrVecs (.v 2) 2 ++ rdVecs (.v 4) 1 ++ rdVecs (.v 5) 1 } base = none ∧
    Form.check { lat := .x 16, unit := .net, vecs := [(4, 1), (1, 1)] ++ rdVecs (.s 6) 1 } base = none := ⟨rfl, rfl, rfl⟩

/-- The lanes name one line, which hits the page. -/
theorem witness_OpenFormsBindAndFill :
    Form.check { lat := .v, vecs := rdVecs (.s 4) 1 ++ rdVecs .zero 1 } opened = none ∧ opened.cord.live = true ∧ opened.cord.act ≠ 0 ∧
    (opened.cord.rd (.s 4) (lowest opened.cord.act)).toNat + (opened.cord.rd .zero (lowest opened.cord.act)).toNat * 2 ^ 32 = 0x10000 ∧
    (∀ l, l < 32 → bit opened.cord.act l = true →
      ((opened.cord.rd (.s 4) l).toNat + (opened.cord.rd .zero l).toNat * 2 ^ 32) / 128 = 0x10000 / 128) ∧
    opened.cord.ldcnt + 1 ≤ 255 ∧ Hits opened .r [0x10000] [page1] ∧ NoRead opened opened.cord.cid 5 := by
  refine ⟨rfl, rfl, by decide, by decide +kernel, by decide +kernel, by decide, ⟨rfl, by decide +kernel⟩, by simp [NoRead, opened, base]⟩

/-- A machine whose lanes all read address 0 of a page there. -/
def page0 : Page := ⟨1, 0, false, 0x20000, true, true, false, false⟩

/-- One line for all lanes, which has an eyelet, and two lines of which the second finds none. -/
theorem witness_OpenfServesDistinctLines :
    let s := { base with cores := [{ core1 with tlb := [page0] }], pages := [page0] }
    let u := { s with cord := { cord1 with v := [(320, 128)] } }
    Form.check { lat := .v, vecs := [(20, 1), (10, 1)] ++ rdVecs .zero 1 } s = none ∧
    ((lanesOf s.cord.act).map fun l => (pair64 (s.cord.vreg 10 l) (s.cord.rd .zero l)).toNat / 128).eraseDups = [0] ∧
    s.cord.ldcnt + 1 ≤ 255 ∧ Hits s .r [0] [page0] ∧
    ((lanesOf u.cord.act).map fun l => (pair64 (u.cord.vreg 10 l) (u.cord.rd .zero l)).toNat / 128).eraseDups = [1, 0] ∧
    Hits u .r [128] [page0] := by
  refine ⟨rfl, by decide +kernel, by decide, ⟨rfl, by decide +kernel⟩, by decide +kernel, ⟨rfl, by decide +kernel⟩⟩

/-- A cord whose eyelet e2 is filling under the outstanding form 7 of that kind, and what is on its way for it. -/
def closing (k : OpKind) (e : Event) : State :=
  { base with
    cord := { cord1 with ldcnt := 1, f := [(0, 1)], eyes := [(2, { st := .filling, pla := 0x400, w := true, tok := 7 })],
                         ops := [{ tok := 7, left := 1, kind := k, flag := some 0 }] },
    agenda := [⟨200, e⟩] }

/-- A closed eyelet and an open one, without a read in flight; one that is filling, under an open or an openv. -/
theorem witness_CloseQueryAndRefresh :
    Form.check { lat := .n } opened = none ∧ opened.cord.live = true ∧ NoRead opened opened.cord.cid 2 ∧ NoRead opened opened.cord.cid 3 ∧
    (opened.cord.eye 2).st = .opened ∧ (opened.cord.eye 3).st = .closed ∧ Form.check { lat := .i4, vecs := wrVecs (.s 2) 1 } opened = none ∧
    Form.check { lat := .v } opened = none ∧ opened.cord.ldcnt + 1 ≤ 255 ∧
    (let s := closing .plain (.fillComplete 1 2 7 none none)
     Form.check { lat := .n } s = none ∧ (s.cord.eye 2).st = .filling ∧
     s.cord.ops.find? (·.tok == 7) = some { tok := 7, left := 1, flag := some 0 } ∧
     (∃ d ∈ s.agenda, readOf 1 2 d.what = some 7) ∧ ∀ d ∈ s.agenda, ∀ k, ReadsInto 1 2 k d.what → readOf 1 2 d.what = some 7) ∧
    (let s := closing (.versioned 2 1 1 0 false) (.acquireComplete 1 7 ⟨some [], [(2, 7)], [], [], [], []⟩)
     Form.check { lat := .n } s = none ∧ (s.cord.eye 2).st = .filling ∧ (s.cord.eye 2).tok = 7 ∧
     s.cord.ops.find? (·.tok == 7) = some { tok := 7, left := 1, flag := some 0, kind := .versioned 2 1 1 0 false } ∧
     ∀ d ∈ s.agenda, ∀ k, ReadsInto 1 2 k d.what → k = 7) := by
  refine ⟨rfl, rfl, by simp [NoRead, opened, base], by simp [NoRead, opened, base], rfl, rfl, rfl, rfl, by decide,
    ⟨rfl, rfl, rfl, ⟨_, List.mem_singleton.mpr rfl, rfl⟩, ?_⟩, ⟨rfl, rfl, rfl, rfl, ?_⟩⟩
  · intro d h k _
    rw [List.mem_singleton.mp h]; rfl
  · intro d h k r
    rw [List.mem_singleton.mp h] at r
    simp [ReadsInto, readOf] at r
    exact r

/-- Every lane reaches the open eyelet at the last word of its line; and the selectors of registers may all be 0xFF. -/
theorem witness_EyeletLoads :
    let d : Wr := .v 8
    let s := { opened with cord := { opened.cord with v := (List.range 32).map fun l => (320 + l, if l = 31 then 2 else 0xFF) } }
    Form.check { lat := .l6, vecs := wrVecs d 2 ++ ([(10, 1)] ++ rdVecs (.v 3) 1) } s = none ∧
    Form.check { lat := .v, vecs := wrVecs d 1 ++ rdVecs (.v 3) 1 } s = none ∧
    Reachable opened ((opened.cord.runLanes d).map fun l => (l, 2, 124)) 4 ∧
    Reachable opened ((opened.cord.runLanes d).map fun l => (l, 2, (opened.cord.rd (.v 3) l).toNat)) 8 ∧ opened.cord.live = true ∧
    ((s.cord.runLanes d).filter fun l => (s.cord.vreg 10 l).toNat % 256 != 255) = [31] ∧ (s.cord.vreg 10 31).toNat % 256 < 16 := by
  unfold Reachable
  decide +kernel

/-- A drain of two rows of eight FP32 elements to page 1's first line, in core 0's queue, and a second cord there. -/
def drainAhead : State :=
  { opened with
    cords := [{ opened.cord with cid := 2 }],
    cores := [{ core1 with tq :=
      [{ q := 6, cord := 1, ctx := 1, flag := 0, work := .adrn 0 [0x10000, 0, 64, 0, 0, 0x802A0] 0x10, occ := 4, lat := 8, opTok := 7, trans := [page1] }] }] }

/-- Every lane reaches the open eyelet, which may be written; a pending release holds the word that they name, and a drain does, or none;
another cord of the core has the line. -/
theorem witness_EyeletStores :
    let as := (lanesOf opened.cord.act).map fun l => (l, 2, 124)
    Form.check { lat := .n, vecs := rdVecs (.v 4) 2 ++ ([(10, 1)] ++ rdVecs (.v 3) 1) } opened = none ∧ Reachable opened as 4 ∧
    (∀ x ∈ as, (opened.cord.eye x.2.1).w = true) ∧ opened.cord.stcnt + ((as.map (·.2.1)).eraseDups).length ≤ 255 ∧
    (∀ x ∈ as, ∀ y ∈ as, (opened.cord.eye y.2.1).pla = (opened.cord.eye x.2.1).pla → y.2.1 = x.2.1) ∧
    (∃ r ∈ ([⟨.store { core := 0, cord := 1, line := 0x400, bytes := [(124, 7)] }, 1, []⟩] : List Release), bit (r.kind.holds (opened.cord.eye 2).pla) (124 / 4) = true) ∧
    (∀ r ∈ opened.cord.rels, r.kind.holds (opened.cord.eye 2).pla = 0) ∧ (∀ k, opened.drainOwes 1 0x400 k = 0) ∧
    bit (drainAhead.drainOwes 1 0x400 9) 0 = true ∧ (2 ≠ opened.cord.cid ∧ drainAhead.cordRec 2 = some { opened.cord with cid := 2 }) := by
  unfold Reachable
  intro as
  refine ⟨rfl, ?_, ?_, ?_, ?_, ?_, ?_, fun _ => rfl, by decide +kernel, by decide, rfl⟩ <;> revert as <;> decide +kernel

/-- A message of two bytes at the ends of its line. -/
theorem witness_StoreAtHomeWritesExactlyItsBytes :
    let m : StoreMsg := { core := 0, cord := 1, line := 0x400, bytes := [(0, 1), (127, 2)] }
    let s := { ev (.storeAtHome m) with owners := [(0x400 * 32, 0)] }
    s.unreachable m.line = false ∧ s.epochs = [] ∧ (∀ o ∈ s.owners, o.1 / 32 = m.line → o.2 = m.core) ∧ (∀ d ∈ s.agenda, adapterWrite m.line d = false) ∧ s.loadAhead m.core m.cord m.line m.tok = none ∧
    (s.isLocal (m.line * 128) && inWindow (m.line * 128)) = false ∧ m.bytes ≠ [] ∧ (∀ b ∈ m.bytes, b.1 < 128) ∧
    SMap.sorted m.bytes = true ∧ (ev (.storeAck 1 0x400 2 5)).now = some (.storeAck 1 0x400 2 5) := by
  refine ⟨by decide +kernel, rfl, by decide, by decide, rfl, by decide +kernel, by decide, by decide, by decide, rfl⟩

/-- A cord whose eyelet e2 is filling (or in another STATE) under the outstanding form 7. -/
def filling (st : EyeState) (k : OpKind) (ld : Nat) : Cord :=
  { cord1 with ldcnt := 1, eyes := [(2, { st := st, pla := 0x400, w := true, tok := 7 })], ops := [{ tok := 7, left := 1, ld := ld, kind := k }] }

/-- The machine at e with that cord. -/
def fillAt (e : Event) : State := { ev e with cord := filling .filling .plain 0 }

/-- A line's half. -/
def half64 : List Byte := List.replicate 64 5

/-- The read of a line at each of its moments, of a line that is there and of one that is lost, behind nothing and behind a drain. -/
theorem witness_FillsReachTheirEyelet :
    let x := filling .filling .plain 0
    (∀ e, Runs (fillAt e) 1 x) ∧ x.ops.find? (·.tok == 7) = some { tok := 7, left := 1 } ∧
    (∀ e, (fillAt e).readFails (x.eye 2).pla = none ∧ (fillAt e).now = some e) ∧
    half64.length = 64 ∧
    (let s : State := { fillAt (.fillComplete 1 2 7 none none) with lostLines := [0x400] }
     s.readFails (x.eye 2).pla = some .ecc) ∧
    (x.eye 2).st ≠ .closed ∧ (∀ e, (fillAt e).readWaits 1 7 0x400 = false) ∧ drainAhead.readWaits 1 9 0x400 = true := by
  refine ⟨fun e => ⟨rfl, rfl⟩, rfl, fun e => ⟨rfl, rfl⟩, rfl, by decide, by decide, fun e => rfl, by decide +kernel⟩

/-- A cord with the outstanding form 7, whose eyelet e2 of that form is open. -/
def acquiring (o : Op) (e : Event) : State :=
  { ev e with cord := { cord1 with ldcnt := 1, f := [(0, 1)], eyes := [(2, { st := .opened, pla := 0x400, w := true, tok := 7 })], ops := [o] } }

/-- An ldl.acq with an open eyelet behind the new epoch, a fill in flight, another acquire that opens an eyelet and the attempt of an openv;
what it returns is read, late and in time, and so is the line of an open.acq; the reads of other eyelets, the last arrivals, and a
tolerant read whose shares have come back. -/
theorem witness_RefreshesReachTheirEyelets :
    (let d : Wr := .v 8
     let g : Refresh := ⟨some [], [(6, 8)], [], [], [], []⟩
     let s : State := { opened with
       cord := { opened.cord with
         eyes := opened.cord.eyes ++ [(5, { st := .filling, tok := 7 }), (6, { st := .filling, tok := 8 }), (9, { st := .filling, tok := 9 })],
         ops := [{ tok := 9, left := 1, kind := .versioned 9 1 1 0 false }] },
       agenda := [⟨200, .fillComplete 1 5 7 none (some [])⟩, ⟨200, .acquireComplete 1 8 g⟩] }
     Form.check { lat := .v, vecs := wrVecs d 1 } s = none ∧ Reachable s ((s.cord.runLanes d).map fun l => (l, 2, 124)) 4 ∧
       s.cord.live = true ∧ (s.cord.eye 2).st = .opened ∧ (s.cord.eye 2).fep < s.cord.epoch + 1 ∧ (s.cord.eye 5).st = .filling ∧ g.fills ≠ [] ∧
       s.cord.runOf { tok := 9, left := 1, kind := .versioned 9 1 1 0 false } ≠ [] ∧
       ∀ r, Event.acquireComplete 1 9 r ∉ s.agenda.map (·.what)) ∧
    (let load : Op := { tok := 7, left := 1, flag := some 0, kind := .load .w (.v 8) 0 2 [(0, 124)] [] }
     let s := acquiring load (.acquireComplete 1 7 ⟨some [], [], [(2, 7, true)], [], [], []⟩)
     let before : State := { s with agenda := [⟨200, .acquireComplete 1 6 ⟨some [], [], [(2, 7, true)], [], [], []⟩⟩] }
     Runs s 1 s.cord ∧ s.cord.ops.find? (·.tok == 7) = some load ∧ (s.cord.eye 2).st = .opened ∧ (s.cord.eye 2).tok = 7 ∧
     s.readFails 0x400 = none ∧ 124 + ldBytes .w ≤ 128 ∧ s.acquiresAhead s.cord 7 = false ∧ s.readWaits 1 7 0x400 = false ∧
     before.acquiresAhead s.cord 7 = true) ∧
    (∀ k ∈ [1, 2], ∀ e,
      let o : Op := { tok := 7, left := k, flag := some 0, writes := [.v 8 0 5] }
      let s := acquiring o e
      Runs s 1 s.cord ∧ s.cord.ops.find? (·.tok == 7) = some o ∧ s.readFails 0x400 = none ∧ s.resultsOut 1 0x400 = false ∧
        s.now = some e ∧ (s.cord.eye 2).st = .opened) ∧
    half64.length = 64 ∧ (half64 ++ half64).length = 128 ∧
    ¬∃ h ∈ ([] : List (Nat × Nat × Nat)), (fillAt (.tolerantReadService 1 2 7 (some []))).owing h = true := by
  refine ⟨⟨rfl, by unfold Reachable; decide +kernel, rfl, rfl, by decide, rfl, by decide, by decide +kernel, by simp⟩,
    ⟨⟨rfl, rfl⟩, rfl, rfl, rfl, rfl, by decide, rfl, rfl, by decide⟩, ?_, rfl, rfl, by simp⟩
  intro k hk e
  exact ⟨⟨rfl, rfl⟩, rfl, rfl, rfl, rfl, rfl⟩

/-- An openv of one line whose lanes agree; attempts of its last and of an earlier number, with an even and an odd version word; the last
fills of an attempt; and a run that a close has ended. -/
theorem witness_VersionedOpens :
    Form.check { lat := .v, vecs := rdVecs (.s 4) 1 ++ rdVecs .zero 1 } opened = none ∧ opened.cord.live = true ∧ opened.cord.act ≠ 0 ∧
    (∀ l, l < 32 → bit opened.cord.act l = true → (opened.cord.rd (.s 4) l).toNat + (opened.cord.rd .zero l).toNat * 2 ^ 32 = 0x10000) ∧
    0x10000 / 16 % 8 = 0 ∧ 15 + (0x10000 % 16 + 1) ≤ 16 ∧ opened.cord.ldcnt + (0x10000 % 16 + 1) ≤ 255 ∧
    Hits opened .r ((List.range (0x10000 % 16 + 1)).map fun i => (0x10000 / 128 + i) * 128 % 2 ^ 64) [page1] ∧
    (∀ i < 1, NoRead opened opened.cord.cid (15 + i)) ∧
    (let x := filling .filling (.version 2 1 3 false) 1
     let s : State := { ev (.openvAttemptEnd 1 7) with cord := x }
     Runs s 1 x ∧ x.ops.find? (·.tok == 7) = some { tok := 7, left := 1, ld := 1, kind := .version 2 1 3 false } ∧
       ∃ i < 1, (x.eye (2 + i)).tok = 7) ∧
    (let x := filling .filling (.versioned 2 1 4 0 true) 1
     let e := Event.acquireComplete 1 7 ⟨some [], [], [], [], [], [(2, 7, half64 ++ half64)]⟩
     let s : State := { ev e with cord := x }
     s.now = some e ∧ Runs s 1 x ∧ (half64 ++ half64).length = 128 ∧
       x.ops.find? (·.tok == 7) = some { tok := 7, left := 1, ld := 1, kind := .versioned 2 1 4 0 true }) ∧
    (let x := filling .filling (.version 2 1 3 true) 1
     let s : State := { ev (.openvAttemptEnd 1 7) with cord := x }
     let o : Op := { tok := 7, left := 1, ld := 1, kind := .version 2 1 3 true }
     Runs s 1 x ∧ x.ops.find? (·.tok == 7) = some o ∧ x.staleRun o = false ∧ o.ld = 1 ∧ (x.eye 2).st = .filling ∧ (x.eye 2).tok = 7) ∧
    ∀ v1 ∈ [0, 1], ∀ k ∈ [1, 16],
      let x := filling .filling (.versioned 2 1 k v1 false) 1
      let s : State := { ev (.openvAttemptEnd 1 7) with cord := x }
      (s.cordRec 1 = some x ∧ x.live = true) ∧
      x.ops.find? (·.tok == 7) = some { tok := 7, left := 1, ld := 1, kind := .versioned 2 1 k v1 false } ∧
      (∀ i < 1, (x.eye (2 + i)).st = .filling ∧ (x.eye (2 + i)).tok = 7) ∧
      (v1 = leNat ((List.range 8).map fun i => s.homeByte ((x.eye 2).pla * 128 + i)) ↔ v1 = 0) := by
  refine ⟨rfl, rfl, by decide, by decide +kernel, by decide, by decide, by decide, ⟨rfl, by decide +kernel⟩,
    by simp [NoRead, opened, base], ⟨⟨rfl, rfl⟩, rfl, 0, by decide, rfl⟩, ⟨rfl, ⟨rfl, rfl⟩, rfl, rfl⟩,
    ⟨⟨rfl, rfl⟩, rfl, by decide +kernel, rfl, rfl, rfl⟩, by decide +kernel⟩

/-- A walk that finds page 1; a recall, acknowledged at once or behind a store; a debug recall; a notice. -/
theorem witness_WalksRecallsAndNotices :
    (let s := ev (.pageWalkEnd 1 [1])
     Runs s 1 cord1 ∧ s.walk cord1.ctx (1 * 65536) = some page1 ∧ page1.bad = false) ∧
    (let s : State := { ev (.recallAtCore 0 0x400 .disc 9) with cord := filling .opened .plain 0 }
     Runs s 1 s.cord ∧ s.cord.core = 0 ∧ (s.cord.eye 2).st ≠ .closed ∧ (s.cord.eye 2).pla = 0x400) ∧
    (∀ only ∈ [none, some (1, 2)],
     let s : State := { ev (.recallAck 9 6 only) with recalls := [(9, 0, 0x400)] }
     let m : StoreMsg := { core := 0, cord := 1, line := 0x400, bytes := [(0, 1)], eye := 2, tok := 5 }
     let u (k : Nat) : State := { s with agenda := [⟨200, .storeAtHome { m with tok := k }⟩] }
     s.recalls.find? (·.1 == 9) = some (9, 0, 0x400) ∧ s.storesOut 0 0x400 6 only = false ∧ (u 5).storesOut 0 0x400 6 only = true ∧
       (u 6).storesOut 0 0x400 6 only = false ∧ (only = none ∨ only = some (m.cord, m.eye))) ∧
    (let s : State := { ev (.debugRecall 1 2) with cord := filling .opened .plain 0 }
     Runs s 1 s.cord ∧ (s.cord.eye 2).st ≠ .closed) ∧
    let s : State := { ev (.ownerLossNotice 0 0x400 0x80000001) with cord := filling .opened .plain 0 }
    bit (0x80000001 : Word) 31 = true ∧ Runs s 1 s.cord ∧ (s.cord.eye 2).st = .opened ∧ (s.cord.eye 2).pla = 0x400 := by
  refine ⟨⟨⟨rfl, rfl⟩, rfl, rfl⟩, ⟨⟨rfl, rfl⟩, rfl, by decide, rfl⟩, by decide +kernel, ⟨⟨rfl, rfl⟩, by decide⟩,
    by decide, ⟨rfl, rfl⟩, rfl, rfl⟩

/-- Counters on both sides of the immediate, an empty batch table, and batches that are complete and not the running one. -/
theorem witness_CounterWaitsAndBatches :
    (let s : State := { base with cord := { cord1 with ldcnt := 3, stcnt := 2 } }
     Form.check { lat := .n } s = none ∧ s.cord.ldcnt ≤ (3 : Imm).toNat ∧ (2 : Imm).toNat < s.cord.ldcnt ∧ s.cord.stcnt ≤ (2 : Imm).toNat ∧
       (1 : Imm).toNat < s.cord.stcnt) ∧
    Form.check { lat := .i4, vecs := wrVecs (.v 3) 1 } base = none ∧ (∀ l, bit base.cord.act l = true → (base.cord.thread l).batches.length < 8) ∧
    let s : State := { base with cord := { cord1 with s := [(3, 4)], threads := (List.range 32).map fun l => (l, { bseq := 5, batches := [(4, [])] }) } }
    Form.check { lat := .n, vecs := rdVecs (.s 3) 1 } s = none ∧ s.cord.live = true ∧
      ∀ l < 32, bit s.cord.act l = true → (s.cord.thread l).bseq ≠ (s.cord.rd (.s 3) l).setWidth 16 := by
  refine ⟨⟨rfl, by decide, by decide, by decide, by decide⟩, rfl, ?_, rfl, rfl, by decide +kernel⟩
  intro l h
  by_cases hl : l < 32
  · exact (by decide +kernel : ∀ l < 32, (base.cord.thread l).batches.length < 8) l hl
  · exact absurd h (by simpa [bit] using BitVec.getLsbD_of_ge base.cord.act l (Nat.le_of_not_lt hl))

/-- An atomic that returns its result, one that is a release, and a reduction, on the open eyelet, 32 and 64 bits wide. -/
theorem witness_AtomicsAtIssue :
    (let f (z : Nat) : Form := { lat := .v, vecs := wrVecs (.v 6) (z / 4) ++ rdVecs (.v 8) (z / 4) ++ [] }
     (f 4).check opened = none ∧ (f 8).check opened = none) ∧
    Form.check { lat := .n, vecs := [] ++ rdVecs (.v 8) 1 ++ [] } opened = none ∧
    atomOff 0x4004 = none ∧ atomOff 0x24004 = none ∧ atomOff 0x6004 = none ∧
    Reachable opened ((lanesOf opened.cord.act).map fun l => (l, 2, (0x4004 : Word).toNat % 128 * 4)) 4 ∧
    Reachable opened ((lanesOf opened.cord.act).map fun l => (l, 2, (0x6004 : Word).toNat % 128 * 8)) 8 ∧
    (opened.cord.eye 2).w = true ∧ inWindow ((opened.cord.eye 2).pla * 128) = false ∧ opened.cord.stcnt + 1 ≤ 255 ∧
    opened.cord.ldcnt + 1 ≤ 255 ∧ opened.drainOwes 1 0x400 9 = 0 ∧ bit (drainAhead.drainOwes 1 0x400 9) 0 = true := by
  unfold Reachable
  refine ⟨⟨rfl, rfl⟩, rfl, rfl, rfl, rfl, by decide +kernel, by decide +kernel, rfl, by decide, by decide, by decide, rfl, by decide +kernel⟩

/-- An atomic of one lane on line `line`. -/
def atom1 (line : Nat) (sys acq : Bool) : AtomReq :=
  { core := 0, cord := 1, line := line, kind := 0, op := 0, ty := 4, lanes := [⟨0, 124, 1, 0⟩], dst := some (.v 6), wb := 0, acq := acq,
    flag := some 0, sysAtomic := sys }

/-- The atomic at a home on this device, at a host line in its two ways and its second step; its result, with and without an acquire. -/
theorem witness_AtomicsAtHome :
    (∀ line ∈ [0x400, 960 * 2 ^ 47], ∀ sys : Bool,
      let r := atom1 line sys false
      let s := ev (.atomicAtHome r)
      (∀ x ∈ r.lanes, x.off % 4 = 0 ∧ x.off + 4 ≤ 128) ∧ s.epochs = [] ∧ (∀ o ∈ s.owners, o.1 / 32 ≠ r.line) ∧
      (s.isLocal (r.line * 128) && inWindow (r.line * 128)) = false ∧ s.unreachable r.line = false ∧ s.loadAhead r.core r.cord r.line r.tok = none ∧
      isHostLine r.line = decide (line ≠ 0x400)) ∧
    (ev (.adapterAtomic (atom1 0x400 false false) (some [(0, 5)]))).now = some (.adapterAtomic (atom1 0x400 false false) (some [(0, 5)])) ∧
    (5 : Dword).toNat < 2 ^ (8 * 4) ∧
    (let o : Op := { tok := 7, left := 1, kind := .atom 0x400 [(124, 6), (125, 0)] }
     let x : Cord := { cord1 with ops := [o], eyes := [(2, eye2)] }
     let s : State := { ev (.acquireComplete 1 7 ⟨some [], [], [], [], [], []⟩) with cord := x }
     Runs s 1 x ∧ x.ops.find? (·.tok == 7) = some o ∧ (x.eye 2).st = .opened ∧ (x.eye 2).pla = 0x400) ∧
    ∀ acq : Bool, let e := Event.atomicResult (atom1 0x400 false acq) [(0, 5)] [(124, 6), (125, 0)]
      Runs (ev e) 1 cord1 ∧ (ev e).now = some e ∧
        ∀ p ∈ [(124, (6 : Byte)), (125, 0)], ∀ q ∈ [(124, (6 : Byte)), (125, 0)], p.1 = q.1 → p = q := by
  refine ⟨by decide +kernel, rfl, by decide, ⟨⟨rfl, rfl⟩, rfl, rfl, rfl⟩, fun acq => ⟨⟨rfl, rfl⟩, rfl, by decide⟩⟩

/-- A range of one line, at each stage of a flush and of a discard; a line that is dirty and old, and one that is not there. -/
theorem witness_FlushAndDiscard :
    Form.check { lat := .v, vecs := rdVecs (.s 4) 1 ++ rdVecs .zero 1 } opened = none ∧ opened.cord.once64 (.s 4) .zero % 128 = 0 ∧
    opened.cord.stcnt = 0 ∧ (∀ r ∈ physRuns 0x10000 128 [page1], inWindow r.1 = false) ∧
    Hits opened .r (pageStarts 0x10000 128) [page1] ∧ Hits opened .w (pageStarts 0x10000 128) [page1] ∧
    (∀ r ∈ (opened.ctxOf opened.cord.ctx).regions, overlaps 0x10000 128 r.base r.size = false) ∧
    (∀ e, Runs (ev e) 1 cord1 ∧ (ev e).now = some e) ∧
    (let s : State := { ev (.flushrComplete 1 0 { runs := [(0x400, 1)], stamps := some [(3, 0)] }) with l2 := [{ line := 0x400, slice := 0, set := 0, way := 0, dirty := true }] }
     ∃ x, s.l2.find? (·.line == 0x400) = some x ∧ x.dirty = true ∧
       x.stamp ≤ ((([(3, 0)] : List (Nat × Nat)).find? fun p => p.1 == s.homeOf 0x400).map (·.2)).getD 0) ∧
    (let s := ev (.discDrop 1 0 { runs := [(0x400, 1)], stamps := some [] } [9])
     s.recalling [9] = false ∧ s.cacheable 0x400 = true ∧ s.epochs = [] ∧ ∀ o ∈ s.owners, o.1 / 32 ≠ 0x400) ∧
    (let job : FlushJob := { runs := [], stamps := some [], away := [(7, 1)] }
     let s : State := { ev (.flushrComplete 1 0 job) with asked := [7] }
     let lost : State := { s with dev := { s.dev with lost := [1] } }
     job.runs = [] ∧ job.back = none ∧ job.stamps.isSome = true ∧ Runs s 1 cord1 ∧ (∃ a ∈ job.away, a.1 ∈ s.asked) ∧
     (∀ a ∈ job.away, a.2 ∉ s.dev.lost) ∧ (∀ a ∈ job.away, a.1 ∉ base.asked) ∧ ∀ a ∈ job.away, a.2 ∈ lost.dev.lost) ∧
    (devOf (2 ^ 47 * 128) ≠ base.dev.devno ∧ devOf (2 ^ 47 * 128) < 960 ∧ devOf (0x400 * 128) = base.dev.devno) ∧
    (let job : FlushJob := { runs := [], stamps := some [], back := some (1, 5, [(0x400, 1)]) }
     job.runs = [] ∧ job.back = some (1, 5, [(0x400, 1)])) ∧
    base.dev.working = true ∧ base.dev.alive = true := by
  refine ⟨rfl, by decide +kernel, rfl, by decide +kernel, ⟨rfl, by decide +kernel⟩, ⟨rfl, by decide +kernel⟩, by decide +kernel,
    fun e => ⟨⟨rfl, rfl⟩, rfl⟩, ⟨_, rfl, rfl, by decide⟩, by decide +kernel,
    ⟨rfl, rfl, rfl, ⟨rfl, rfl⟩, by decide, by decide, by decide, by decide⟩, by decide, ⟨rfl, rfl⟩, rfl, rfl⟩

/-- Six ways of the set of line 0x400, each locked by another context. -/
def fullSet : State :=
  { base with
    ctxs := [{ id := 1, en := true, sys := true, quota := 1 }],
    l2 := (List.range 6).map fun i => { line := 0x9000 + i, slice := base.homeOf 0x400, set := Config.l2Set 0x400 % 256, way := i, lockers := [2] } }

/-- A lock of each status, its result, an unlk and a prefl of the page, and the arrival of a line. -/
theorem witness_LocksAndPrefetch :
    (let s : State := { opened with ctxs := [{ id := 1, en := true, sys := true, quota := 1 }] }
     let held : State := { opened with ctxs := [{ id := 1, en := true, sys := true, quota := 1, locks := [0x400] }] }
     Form.check { lat := .v, vecs := wrVecs (.s 3) 1 ++ rdVecs (.s 4) 1 ++ rdVecs .zero 1 } s = none ∧
     s.cord.runLanes (.s 3) = [0] ∧ (pair64 (s.cord.rd (.s 4) 0) (s.cord.rd .zero 0)).toNat = 0x10000 ∧
     page1.addr 0x10000 / 128 = 0x400 ∧ inWindow (0x400 * 128) = false ∧ s.isLocal (0x400 * 128) = true ∧
     0x400 ∉ (s.ctxOf 1).locks ∧ (s.ctxOf 1).quota.toNat ≠ (s.ctxOf 1).locks.length ∧ s.setPins 0x400 = (0, 0) ∧
     0x400 ∈ (held.ctxOf 1).locks ∧ 0x401 ∉ (held.ctxOf 1).locks ∧ (held.ctxOf 1).quota.toNat = (held.ctxOf 1).locks.length) ∧
    6 ≤ (fullSet.setPins 0x400).1 ∧ 0x400 ∉ (fullSet.ctxOf 1).locks ∧ (fullSet.ctxOf 1).quota.toNat ≠ (fullSet.ctxOf 1).locks.length ∧
    opened.cord.runLanes (.v 3) = List.range 32 ∧
    inWindow 0x3F0000000000 = true ∧ (inWindow (2 ^ 54) = false ∧ base.isLocal (2 ^ 54) = false) ∧
    Hits opened .r [0x10000] [page1] ∧
    (∀ e, Runs (ev e) 1 cord1 ∧ (ev e).now = some e) ∧
    Form.check { lat := .n, vecs := rdVecs (.s 4) 1 ++ rdVecs .zero 1 } opened = none ∧
    Hits opened .r ((lanesOf opened.cord.act).map fun l => (pair64 (opened.cord.rd (.s 4) l) (opened.cord.rd .zero l)).toNat)
      (List.replicate 32 page1) ∧
    (opened.lookup opened.cord 0x10000).isSome = true ∧ opened.pageFault opened.sys .r 0x10000 (some page1) = none ∧
    base.cacheable 0x400 = true ∧ opened.cord.walked = [] ∧ lanesOf opened.cord.act ≠ [] := by
  refine ⟨⟨rfl, by decide +kernel, by decide +kernel, rfl, by decide, by decide +kernel, by decide +kernel, by decide +kernel, rfl, by decide +kernel,
      by decide +kernel, by decide +kernel⟩, ?_, by decide, by decide, by decide +kernel, by decide, by decide +kernel, ⟨rfl, by decide +kernel⟩, fun e => ⟨⟨rfl, rfl⟩, rfl⟩, rfl,
    ⟨by decide +kernel, by decide +kernel⟩, by decide +kernel, by decide +kernel, by decide +kernel, rfl, by decide⟩
  have h : fullSet.homeOf 0x400 = base.homeOf 0x400 := rfl
  simp [State.setPins, h]
  simp [fullSet, List.range, List.range.loop]

/-- Region 5 of context 1 over page 1, with bound 1.0, and cluster 0's holder of 64 units. -/
def region5 (closing : Bool) (hs : List Holder) : Region :=
  { n := 5, gen := 0, base := 0x10000, size := 65536, bnd := 0x3F800000, dtol := 0, free := 960, holders := hs, closing := closing }

/-- The machine with that region, an eyelet of it, and cluster 0's tracker. -/
def sums (closing : Bool) (hs : List Holder) (trs : List Tracker) (e : Event) : State :=
  { ev e with
    cord := { cord1 with
      s := [(4, 5), (5, 20), (8, 0x10000), (10, 0x3F800000), (12, 1)], eyes := [(2, { eye2 with rgn := 5 })],
      ops := [{ tok := 7, flag := some 0, left := 1, stc := 1 }] },
    ctxs := [{ id := 1, en := true, sys := true, regions := [region5 closing hs] }], picots := [{ trackers := trs }] }

/-- The tracker of cluster 0. -/
def tracker5 (draining : Bool) (t : Word) : Tracker := { ctx := 1, rgn := 5, units := 64, t := t, draining := draining }

/-- The operands of a bsdef, the region of bsfree, bsdrn and bsqry, every region of a cord, an eyelet of the region for vads; and completions
of a region that closes, with a share still out and with none, and of one that does not close. -/
theorem witness_RegionForms :
    (let s := sums false [⟨0, 64, false⟩] [] (.hlthbaseWrite 0)
     let as := (lanesOf s.cord.act).map fun l => (l, 2, (s.cord.rd (.s 12) l).toNat * 0)
     Form.check { lat := .v, vecs := wrVecs (.s 3) 1 ++ rdVecs (.s 12) 1 } s = none ∧
     (pair64 (s.cord.rdAt (.s 8) 0 0) (s.cord.rdAt (.s 8) 1 0)).toNat = 0x10000 ∧ (s.cord.once (.s 12)).toNat = 1 ∧
     (s.cord.rdAt (.s 8) 2 0).toNat = 0x3F800000 ∧ (s.cord.rdAt (.s 8) 3 0).toNat ≤ 0x7F800000 ∧
     Hits s .w (pageStarts 0x10000 (1 * 65536)) [page1] ∧
     Form.check { lat := .v, vecs := rdVecs (.s 4) 1 } s = none ∧ (s.cord.once (.s 4)).toNat = 5 ∧ (s.cord.once (.s 5)).toNat = 20 ∧
     s.region s.cord.ctx 5 = some (region5 false [⟨0, 64, false⟩]) ∧
     Form.check { lat := .n, vecs := rdVecs (.v 4) 1 ++ rdVecs (.s 13) 1 } s = none ∧ Reachable s as 4 ∧ (s.cord.rd (.s 13) 0).toNat = 0 ∧
     (s.cord.eye 2).w = true ∧ s.eyeRegion s.cord.ctx (s.cord.eye 2) = some (region5 false [⟨0, 64, false⟩]) ∧ s.cord.stcnt + 1 ≤ 255) ∧
    (let s := sums true [⟨0, 64, true⟩] [] (.regionTableUpdateComplete 1 0 1 5 [])
     Runs s 1 s.cord ∧ s.region 1 5 = some (region5 true [⟨0, 64, true⟩]) ∧ [(⟨0, 64, true⟩ : Holder)] ≠ []) ∧
    (let s := sums true [] [] (.regionTableUpdateComplete 1 0 1 5 [])
     Runs s 1 s.cord ∧ s.region 1 5 = some (region5 true []) ∧ (region5 true []).holders = [] ∧ s.masterAway (region5 true []).phys = none ∧ ∀ d ∈ s.agenda, shareTraffic 1 5 d.what = false) ∧
    let s := sums false [] [] (.bsqryResult 1 0 1 5 3 [.s 6 0])
    Runs s 1 s.cord ∧ s.region 1 5 = some (region5 false []) ∧ s.masterAway (region5 false []).phys = none ∧
      s.masterAway [0x20000] = none ∧ s.masterAway [2 ^ 54] = some 1 ∧ 1 ∉ s.dev.lost := by
  unfold Reachable
  refine ⟨⟨rfl, by decide +kernel, by decide +kernel, by decide +kernel, by decide +kernel, ⟨rfl, by decide +kernel⟩, rfl, by decide +kernel,
      by decide +kernel, rfl, rfl, by decide +kernel, by decide +kernel, rfl, rfl, by decide⟩,
    ⟨⟨rfl, rfl⟩, rfl, by decide⟩, ⟨⟨rfl, rfl⟩, rfl, rfl, rfl, by decide⟩, ⟨rfl, rfl⟩, rfl, rfl, by decide +kernel, by decide +kernel, by decide⟩

/-- An addition of 1.0 to the region's first word. -/
def addition (v : Word) : Addition := ⟨1, 0, 1, 5, 0x20000, v, 7, 0⟩

/-- One addition on its way home. -/
def adds1 (b : AddBack) (owes : List (Nat × Nat)) : HomeAdds := ⟨0, 1, 5, 3, none, none, [(0x20000, 0x3F800000)], b, owes⟩

/-- Additions without a tracker, within its share and beyond it, and to a region freed since; a drain that is over and one that is not; requests that are granted,
refused and answered after a trim; grants, trims, returns and forced drains, each in every case. -/
theorem witness_WithheldSums :
    (let e := Event.additionAtPicot (addition 0x3D000000)
     let s := sums false [⟨0, 64, false⟩] [] e
     let u := sums false [⟨0, 64, false⟩] [tracker5 false 0] e
     s.now = some e ∧ s.region 1 5 = some (region5 false [⟨0, 64, false⟩]) ∧ s.tracker 0 1 5 = none ∧ (s.picotOf 0).trackers.length < 64 ∧
     (1, 5) ∉ (s.picotOf 0).asked ∧ (region5 false []).gen = (addition 0).gen ∧ (region5 false []).gen ≠ { addition 0 with gen := 1 }.gen ∧
     (s.cord.ops.find? (·.tok == 7)).isSome = true ∧ u.tracker 0 1 5 = some (tracker5 false 0) ∧
     Machine.Num.lt ((region5 false []).share 64) (f32 (addPartial 0x80000000 0 0x3D000000).2) = false ∧
     Machine.Num.lt ((region5 false []).share 64) (f32 (addPartial 0x80000000 0 0x3F800000).2) = true) ∧
    (∀ b ∈ [(AddBack.drain, [(1, 7)]), (.op 1 7, [])],
      let s := sums false [⟨0, 64, false⟩] [tracker5 true 0] (.passThroughAdd (adds1 b.1 b.2))
      0x20000 % 4 = 0 ∧ s.unreachable (0x20000 / 128) = false ∧
      s.agenda.any (adapterWrite (0x20000 / 128)) = false ∧ s.epochs = [] ∧ (s.isLocal 0x20000 && inWindow 0x20000) = false ∧
      s.tracker 0 1 5 = some (tracker5 true 0) ∧ (s.cordRec 1 = some s.cord ∧ s.cord.live = true) ∧
      s.cord.ops.find? (·.tok == 7) = some { tok := 7, flag := some 0, left := 1, stc := 1 }) ∧
    (let e := Event.picotDrainComplete 0 1 5
     let s := sums false [⟨0, 64, true⟩] [tracker5 true 0] e
     let u : State := { s with agenda := [⟨200, .passThroughAdd { adds1 .drain [] with id := 0 }⟩] }
     let tr : Tracker := { tracker5 true 0 with upto := 1 }
     s.now = some e ∧ s.tracker 0 1 5 = some (tracker5 true 0) ∧ (tracker5 true 0).draining = true ∧
     (∀ d ∈ s.agenda, passing 0 1 5 0 d.what = false) ∧ ¬∀ d ∈ u.agenda, passing 0 1 5 tr.upto d.what = false) ∧
    (let e := Event.shareRequest 0 1 5
     (sums true [] [] e).region 1 5 = some (region5 true []) ∧ (sums false [] [] e).region 1 5 = some (region5 false []) ∧
     (region5 false []).holders.length < 256 ∧ 64 ≤ (region5 false []).free ∧
     (let r : Region := { region5 false [⟨3, 1024, false⟩] with free := 0 }
      let s : State := { ev e with ctxs := [{ id := 1, regions := [r] }] }
      s.region 1 5 = some r ∧ r.closing = false ∧ r.holders.length < 256 ∧ r.free < 64 ∧ r.trims = 0 ∧ r.holders ≠ [])) ∧
    (∀ k ∈ [0, 64], (sums false [] [] (.shareGrant 0 1 5 k)).now = some (.shareGrant 0 1 5 k)) ∧
    (∀ dr : Bool, let s := sums false [⟨0, 64, dr⟩] [tracker5 dr 0x3D000000] (.trim 0 1 5)
     s.tracker 0 1 5 = some (tracker5 dr 0x3D000000) ∧ s.region 1 5 = some (region5 false [⟨0, 64, dr⟩]) ∧
     (tracker5 dr 0x3D000000).units ≤ 1024) ∧
    ((sums false [⟨0, 64, false⟩] [] (.shareReturn 0 1 5 64 false [])).region 1 5 = some (region5 false [⟨0, 64, false⟩]) ∧
     (region5 false [⟨0, 64, false⟩]).asking = []) ∧
    (let e := Event.forcedDrain 0 1 5 4 [(1, 7)]
     let s := sums false [] [] e
     let u : State := { s with agenda := [⟨200, .passThroughAdd (adds1 .drain [])⟩] }
     let w : State := { s with agenda := [⟨200, .additionAtPicot (addition 0x3D000000)⟩] }
     (∃ x ∈ [(1, 9)], w.addsAhead 1 5 x.1 x.2 = true) ∧ (∀ x ∈ [(1, 7)], s.addsAhead 1 5 x.1 x.2 = false) ∧
     (sums false [⟨0, 64, false⟩] [tracker5 false 0] e).tracker 0 1 5 = some (tracker5 false 0) ∧
     s.tracker 0 1 5 = none ∧ (∀ d ∈ s.agenda, passing 0 1 5 4 d.what = false) ∧ (∃ d ∈ u.agenda, passing 0 1 5 4 d.what = true) ∧
     Runs s 1 s.cord ∧ s.cord.ops.find? (·.tok == 7) = some { tok := 7, flag := some 0, left := 1, stc := 1 }) := by
  refine ⟨⟨rfl, rfl, rfl, by decide, by decide, rfl, by decide, rfl, rfl, by decide +kernel, by decide +kernel⟩, ?_, ⟨rfl, rfl, rfl, by decide, by decide⟩,
    ⟨rfl, rfl, by decide, by decide, rfl, rfl, by decide, by decide, rfl, by decide⟩, by decide +kernel, by decide +kernel, ⟨rfl, rfl⟩,
    ⟨by decide +kernel, by decide +kernel, rfl, rfl, by decide, by decide, ⟨rfl, rfl⟩, rfl⟩⟩
  decide +kernel

/-- The machine with a pillow of 1 KiB, scalar s4 holding 0x40, at e. -/
def pil (m : Motif) (e : Event) : State := { ev e with cord := { cord1 with s := [(4, 0x40)] }, motif := { m with pb := 1024, copies := 0 } }

/-- Lanes at the pillow's last quad and at a granule; a notify store of a copy cord that fits, one that does not, and one of another role;
its publication; and a wait-full load whose granule is full, or not. -/
theorem witness_PillowAccess :
    (let s := pil motif1 (.hlthbaseWrite 0)
     let off (z l : Nat) (n : Nat) : Nat := ((s.cord.rd (.s 4) l).toNat + n * z) % 2 ^ 32
     Form.check { lat := .v, vecs := wrVecs (.v 8) (16 / 4) ++ rdVecs (.s 4) 1 } s = none ∧
     Form.check { lat := .n, vecs := rdVecs (.v 8) (16 / 4) ++ rdVecs (.s 4) 1 } s = none ∧
     Form.check { lat := .n, vecs := rdVecs (.s 4) 1 } s = none ∧ Form.check { lat := .v, vecs := wrVecs (.v 3) 1 ++ rdVecs (.s 4) 1 } s = none ∧
     s.cord.act ≠ 0 ∧
     (∀ l ∈ lanesOf s.cord.act, off 16 l 59 % 16 = 0 ∧ off 16 l 59 + 16 ≤ s.motif.pb ∧ touches s.motif.reserved (off 16 l 59) 16 = false) ∧
     (∀ l ∈ lanesOf s.cord.act, off 16 l 0 + 1 ≤ s.motif.pb ∧ touches s.motif.reserved (off 16 l 0) 1 = false)) ∧
    (∀ p ∈ [(0, 7), (0, 200), (2, 7)],
      let s : State := { base with
        cord := { cord1 with role := p.1, s := [(4, 0x800), (6, BitVec.ofNat 32 p.2)] }, motif := { motif1 with pb := 2064, notified := 5, done := 4 } }
      let t2 : BitVec 16 := BitVec.ofNat 16 p.2
      s.motif.ba = some 0 ∧ (∀ l ∈ lanesOf s.cord.act, ((s.cord.rd (.s 4) l).toNat + 0 * 4) % 2 ^ 32 = 0 + 0x800) ∧
      Form.check { lat := .n, vecs := rdVecs (.s 6) 1 ++ rdVecs (.s 4) 1 } s = none ∧
      decide ((t2 - s.motif.notified).toNat + (s.motif.notified - s.motif.done).toNat ≤ 64) = decide (p.2 = 7)) ∧
    (let r : Release := { kind := .notify 0 5 7 0xFFFFFFFF, own := 0 }
     let s : State := { ev (.releaseTakesEffect 1) with cord := { cord1 with rels := [r] }, motif := { motif1 with tail := 5 } }
     Runs s 1 s.cord ∧ s.relDue s.cord = some r ∧ s.findMotif 1 = some s.motif) ∧
    (let e := Event.pillowLoadResult 1 0 [.v 3 0 1]
     (ev e).now = some e ∧ Runs (ev e) 1 cord1) ∧
    let w : WfLoad := { k := 3, cord := 1, take := true, z := 4, lanes := [(0, 0x40)], dst := .v 3, wb := 0, flag := 0, due := 100 }
    let full := pil { motif1 with wf := [w], fe := [(4, true)] } (.waitFullLoadService 1 3)
    let empty := pil { motif1 with wf := [w] } (.waitFullLoadService 1 3)
    full.findMotif 1 = some full.motif ∧ full.motif.wf.find? (·.k == 3) = some w ∧ full.motif.servable w = true ∧
      empty.findMotif 1 = some empty.motif ∧ empty.motif.wf.find? (·.k == 3) = some w ∧ empty.motif.servable w = false ∧
      Runs full 1 full.cord := by
  refine ⟨⟨rfl, rfl, rfl, rfl, by decide, by decide +kernel, by decide +kernel⟩, by decide +kernel, ⟨⟨rfl, rfl⟩, by decide +kernel, rfl⟩, ⟨rfl, rfl, rfl⟩, rfl, rfl, by decide, rfl, rfl,
    by decide, rfl, rfl⟩

/-- A motif whose cord waits at barrier 2, which one more arrival completes; a peer in the same pattern, running or saved. -/
def waiting2 (r : RelKind) (own : Nat) : State :=
  { base with
    cord := { cord1 with wait := .barw 2, stcnt := own, rels := [{ kind := r, own := own }], s := [(4, 1)] },
    motif := { motif1 with bars := [(2, { exp := 1, reg := 1, wm := 1 })] } }

/-- First and later arrivals, an exit from a barrier in use, a peer; a release of each kind as the oldest of its cord, also in a
motif that is discarded; a store that follows a release. -/
theorem witness_BarriersAndReleases :
    (Form.check { lat := .n } base = none ∧ bit (base.motif.bar 3).am base.cord.idx = false ∧ (127 : Imm).toNat ≠ 0 ∧ (base.motif.bar 3).exp = 0) ∧
    (let s : State := { base with motif := { motif1 with bars := [(3, { exp := 4, arr := 1 })] } }
     bit (s.motif.bar 3).am s.cord.idx = false ∧ (s.motif.bar 3).exp = (4 : Imm).toNat ∧ s.motif.mid ≠ 0) ∧
    Form.check { lat := .i4, vecs := wrVecs (.s 6) 1 } base = none ∧
    (let m : Motif := { motif1 with mid := 2, idx := 1 }
     let s : State := { base with cord := { cord1 with s := [(4, 1)] }, motifs := [m] }
     Form.check { lat := .n, vecs := rdVecs (.s 4) 1 } s = none ∧ s.peer (s.cord.once (.s 4)).toNat = some m ∧ s.findMotif m.mid = some m ∧
     m.status = .running ∧ (3 : Word).toNat % 128 ≠ 0 ∧ (m.bar 3).exp = 0) ∧
    (∀ r ∈ [RelKind.store { core := 0, cord := 1, line := 0x400, bytes := [] }, .atom (atom1 0x400 false false), .arrive 2, .peer 1 2 1],
      let s : State := { waiting2 r 1 with now := some (.releaseTakesEffect 1) }
      (s.cordRec 1 = some s.cord ∧ s.cord.live = true) ∧ s.relDue s.cord = some { kind := r, own := 1 } ∧
      s.findMotif s.cord.mid = some s.motif ∧ s.motif.status ≠ .saved ∧ s.cord.idx < 32 ∧ bit (s.motif.bar 2).wm s.cord.idx = true ∧
      s.cord.wait = .barw 2 ∧ (s.motif.bar 2).exp ≤ min 127 ((s.motif.bar 2).arr + 1)) ∧
    (∀ p ∈ [(RelKind.follow { core := 0, cord := 1, line := 0x400, bytes := [] } 9, false), (.coll ⟨1, 1, 1, 1, 0, false, 0, 0, [], [], [], [], [], none⟩, true)],
      let s : State := { waiting2 p.1 0 with now := some (.releaseTakesEffect 1), motif := { motif1 with discard := p.2 } }
      (s.cordRec 1 = some s.cord ∧ s.cord.live = true) ∧ s.relDue s.cord = some { kind := p.1, own := 0 } ∧
      s.findMotif 1 = some s.motif ∧ s.motif.status = .running) ∧
    base.drainsPast 1 (.follow { core := 0, cord := 1, line := 0x400, bytes := [] } 9) = true ∧
    let s : State := { waiting2 (.peer 2 2 1) 1 with now := some (.releaseTakesEffect 1), motifs := [{ motif1 with mid := 2, status := .saved }] }
    s.relDue s.cord = some { kind := .peer 2 2 1, own := 1 } ∧ s.findMotif 2 = some { motif1 with mid := 2, status := .saved } := by
  refine ⟨⟨rfl, by decide, by decide, rfl⟩, ⟨by decide, rfl, by decide⟩, rfl, ⟨rfl, rfl, rfl, rfl, by decide, rfl⟩, ?_, ?_, rfl, rfl, rfl⟩ <;> decide +kernel

/-- A declared ring whose slot 0 is in state st with phase p. -/
def ring4 (st : Nat) (role : Nat) (wf : List WfLoad) (e : Event) : State :=
  { ev e with
    cord := { cord1 with role := role, s := [(4, 0)] },
    motif := { motif1 with wf := wf, rings := [(4, { dcl := true, prod := 1, cons := 2, st := [(0, st)] })] } }

/-- A descriptor of one operation on three streams of one element at 0x100, in a pillow of 1 KiB. -/
def chainPil : Motif := { motif1 with pb := 1024, copies := 0, pil := [(1, 1), (5, 1), (9, 1)] }

/-- Slots of each state for their roles, a publish that wakes a waiter, a legal chain descriptor and a bad one, and a chain at its first
and last operation, with the vector unit held and not. -/
theorem witness_RingsAndChain :
    (let e := Event.hlthbaseWrite 0
     (ring4 0 1 [] e).motif.ring 4 = { dcl := true, prod := 1, cons := 2, st := [(0, 0)] } ∧
     Form.check { lat := .i4, vecs := wrVecs (.s 8) 1 } (ring4 0 1 [] e) = none ∧
     (ring4 0 1 [] e).cord.role = 1 ∧ SMap.get 0 ((ring4 0 1 [] e).motif.ring 4).st 0 = 0 ∧
     Form.check { lat := .n, vecs := rdVecs (.s 4) 1 } (ring4 1 1 [] e) = none ∧ SMap.get 0 ((ring4 1 1 [] e).motif.ring 4).st 0 = 1 ∧
     ((ring4 1 1 [] e).cord.once (.s 4)).toNat % 8 = 0 ∧ bit ((ring4 1 1 [] e).cord.once (.s 4)) 3 = false ∧
     SMap.get 0 ((ring4 1 1 [] e).motif.ring 4).own 0 = (ring4 1 1 [] e).cord.idx ∧
     (ring4 2 2 [] e).cord.role = 2 ∧ SMap.get 0 ((ring4 2 2 [] e).motif.ring 4).st 0 = 2 ∧ (ring4 2 2 [] e).cord.live = true ∧
     Form.check { lat := .n, vecs := rdVecs (.s 4) 1 } (ring4 2 2 [] e) = none ∧
     ¬SMap.get 0 ((ring4 1 2 [] e).motif.ring 4).st 0 = 2) ∧
    (let s : State := { ring4 1 1 [] (.releaseTakesEffect 1) with
       cord := { cord1 with role := 1, rels := [{ kind := .publish 4 0, own := 1 }], stcnt := 1 },
       cords := [{ cord1 with cid := 2, wait := .srwait 4 0 false }] }
     Runs s 1 s.cord ∧ s.relDue s.cord = some { kind := .publish 4 0, own := 1 } ∧ s.findMotif s.cord.mid = some s.motif ∧
     Runs s 2 { cord1 with cid := 2, wait := .srwait 4 0 false } ∧ SMap.get false (s.motif.ring 4).sp 0 = false) ∧
    (let s : State := { base with cord := { cord1 with s := [(4, 4)] }, motif := chainPil }
     let word (x : Nat) : Word := BitVec.ofNat 32 (leNat ((List.range 4).map fun i => SMap.get 0 s.motif.pil (x + i)))
     Form.check { lat := .v, vecs := rdVecs .zero 1 } s = none ∧ s.cord.chain = false ∧ (s.cord.once .zero).toNat = 0 ∧
     s.motif.chainOk 0 ((List.range 20).map fun i => word (0 + 4 * i)) 0 = true ∧
     Form.check { lat := .v, vecs := rdVecs (.s 4) 1 } s = none ∧ (s.cord.once (.s 4)).toNat = 4 ∧
     s.motif.chainOk 4 ((List.range 20).map fun i => word (4 + 4 * i)) 0 = false) ∧
    ∀ lit : Word, ∀ free : Nat,
      let job : ChainJob := { words := [0x100, 0x100, 0x100, 0], lit := lit, fz := 0, j := 0, i := 0, t := [], held := 0, in0 := [0], in1 := [0] }
      let s : State := { ev (.chainComplete 1 0 job) with motif := chainPil, cores := [{ core1 with vecFree := [(0, free)] }] }
      s.cordRec 1 = some cord1 ∧ s.findMotif 1 = some chainPil ∧
        (job.words.getD 0 0).toNat = (job.words.getD 2 0).toNat ∧ (job.words.getD 1 0).toNat = (job.words.getD 2 0).toNat ∧
        SMap.get 0 (s.coreOf cord1.core).vecFree cord1.slot = free ∧ (1 ≤ { job with held := 1 }.held) ∧ s.cycle = 100 ∧ job.i = 0 ∧ job.lit = lit := by
  refine ⟨⟨rfl, rfl, rfl, rfl, rfl, rfl, by decide, by decide, rfl, rfl, rfl, rfl, rfl, by decide⟩, ⟨⟨rfl, rfl⟩, by decide +kernel, rfl, ⟨rfl, rfl⟩, rfl⟩,
    ⟨rfl, rfl, by decide, by decide +kernel, rfl, by decide, by decide +kernel⟩,
    fun _ _ => ⟨rfl, rfl, rfl, rfl, rfl, Nat.le_refl 1, rfl, rfl, rfl⟩⟩

/-- A copy cord's motif with a pillow of 4 KiB and one published command. -/
def motifB : Motif := { motif1 with pb := 4096, pubs := [⟨0, 1, 1⟩] }

/-- A gather of one row of 16 bytes, in the journal. -/
def gather1 : JEntry := { j := 3, mid := 1, pub := ⟨0, 1, 1⟩, w := [0x20000000, 0x10010, 0, 8, 0x10000, 0, 0x10000, 0], trans := [page1] }

/-- The machine at e with that command in core 0's journal and nothing in the open TLB. -/
def bob (j : JEntry) (ps : List Page) (e : Event) : State :=
  { ev e with motif := motifB, pages := ps, cores := [{ core1 with tlb := [], journal := [j] }] }

/-- A take; a page that is reached, one of another device, one that may not be written; each stage of a piece; and a completion. -/
theorem witness_BobbinCommands :
    (Form.check { lat := .i4, vecs := wrVecs (.s 5) 1 } (bob gather1 [] (.bobbinTake 0)) = none ∧ motif1.copies ≠ 0) ∧
    (let s : State := { ev (.bobbinTake 0) with motif := motifB }
     s.bobPick 0 = some motifB ∧ motifB.replays = [] ∧ motifB.pubs = [⟨0, 1, 1⟩] ∧ ∀ x ∈ (s.coreOf 0).journal, x.j ≠ s.fresh) ∧
    (let far : Page := { page1 with pa := 2 ^ 54 }
     let ro : Page := { page1 with w := false }
     (∀ p ∈ [page1, far, ro, { page1 with bad := true }], ∀ w : Bool,
       let s := bob gather1 [p] (.bobbinPageReach 0 3 0x10000 w)
       s.cmd 0 3 = some gather1 ∧ (∀ q ∈ (s.coreOf 0).tlb, q.covers 1 0x10000 = false) ∧ s.walk 1 0x10000 = some p ∧
       s.isLocal (p.addr 0x10000) = decide (p ≠ far)) ∧
     (∀ p ∈ [page1, ro], base.pageFault true .r 0x10000 (some p) = none) ∧ base.pageFault true .w 0x10000 (some ro) = some .permFault) ∧
    (let s := bob gather1 [page1] (.bobbinIndexRead 0 3)
     s.bobHeldAt 0 = false ∧ min 8 (Cmd.count gather1.w - gather1.idx.length) = 1 ∧
     s.bobReadFails (((gather1.page 1 0x10000).map fun p => p.addr 0x10000).getD 0 / 128) = 0) ∧
    (∀ x ∈ [(⟨0, 0, true, [(0x20000, 64)], [], some 0x20000⟩ : BobPiece), ⟨0, 0, false, [(0, 16)], [], none⟩, ⟨0, 0, true, [], [], some 0x20000⟩,
        ⟨0, 0, true, [], List.replicate 16 7, none⟩],
      let s := bob gather1 [page1] (.bobbinDataReturn 0 3 x)
      s.bobHeldAt 0 = false ∧ s.bobReadFails (0x20000 / 128) = 0 ∧ s.findMotif 1 = some motifB ∧ (List.replicate 16 (7 : Byte)).length = 16) ∧
    (let x : BobWrite := ⟨0x20070, List.replicate 16 7, none⟩
     let s := bob gather1 [page1] (.bobbinWriteAck 0 3 (some x))
     s.bobHeldAt 0 = false ∧ s.unreachable (x.addr / 128) = false ∧ s.agenda.any (adapterWrite (x.addr / 128)) = false ∧
     x.addr % 128 + x.bytes.length ≤ 128 ∧ s.epochs = [] ∧ (∀ o ∈ s.owners, o.1 / 32 ≠ x.addr / 128) ∧
     (s.isLocal x.addr && inWindow x.addr) = false) ∧
    (let s := bob gather1 [page1] (.bobbinWriteAck 0 3 none)
     s.cmd 0 3 = some gather1) ∧
    (let s : State := { bob gather1 [page1] (.bobbinIndexRead 0 3) with needle := { held := some 0 } }
     s.bobHeldAt 0 = true ∧ s.cmd 0 3 = some gather1) ∧
    let s := bob { gather1 with complete := true } [page1] (.bobbinCompletionRecord 1)
    s.findMotif 1 = some motifB ∧ motifB.core = 0 ∧ s.recordable motifB = some { gather1 with complete := true } ∧ Cmd.be gather1.w = false ∧
      s.cmd 0 3 = some { gather1 with complete := true } := by
  refine ⟨⟨rfl, by decide⟩, ⟨rfl, rfl, rfl, by decide⟩, ⟨by decide +kernel, by decide +kernel, by decide +kernel⟩,
    ⟨by decide +kernel, by decide, by decide +kernel⟩, by decide +kernel, by decide +kernel, rfl, by decide +kernel, rfl, rfl, rfl, by decide, rfl⟩

/-- The checks of the matrix role pass with all lanes, for descriptor and sparsity forms, and no write is due. -/
theorem witness_DescriptorAndSparsityForms :
    let s : State := { base with cord := { cord1 with role := 1 } }
    Form.check { lat := .i4, vecs := [], role := some 1, whole := true } s = none ∧
    Form.check { lat := .i4, vecs := rdVecs (.v 5) 1, role := some 1, whole := true } s = none ∧
    (∀ n ∈ [(7 : Imm), 8, 9, 10], n.toNat ≤ 7 ∨ n.toNat = 8 ∨ n.toNat = 9 ∨ 9 < n.toNat) ∧
    Form.check { lat := .i4, vecs := wrVecs (.s 6) 1, role := some 1, whole := true } s = none ∧
    (∀ x ∈ s.agenda, isFixedWrite s.cord.cid x.what = false) ∧
    Form.check { lat := .f6, vecs := [(10, 1), (4, 2), (11, 1)], whole := true, unit := .vec 1 } s = none ∧
    Form.check { lat := .x 16, vecs := wrVecs (.s 6) 1 ++ [(11, 1)], whole := true, unit := .net } s = none := by
  refine ⟨rfl, rfl, by decide, rfl, by simp [base], rfl, rfl⟩

/-- A matrix cord with descriptors of two rows of eight elements of page 1: td1 of INT8, td2 of FP32, td3 of TAP8, and td4 compressed INT8
with its metadata in v40; accumulator a1 is in mode F. -/
def cordM : Cord :=
  { cord1 with
    role := 1, amode := [(1, .f)], v := (List.range 8).map (fun l => (40 * 32 + l, if l < 4 then 0o3210 else 0o7654)),
    tds := [(8, 0x10000), (10, 64), (13, 0x80200), (16, 0x10000), (18, 64), (21, 0x802A0), (24, 0x10000), (26, 64), (29, 0x802C0),
      (32, 0x10000), (34, 64), (37, 0x80808), (40, 0x10000), (42, 64), (45, 0x80290)] }

/-- The machine with that cord, at e. -/
def mat (e : Event) : State := { ev e with cord := cordM }

/-- Every kind of matrix form with descriptors, tiles and registers that it accepts. -/
theorem witness_MatrixFormsQueue :
    let s := mat .reset
    let c := s.cord
    (Form.check { lat := .v, vecs := [], role := some 1, whole := true } s = none ∧
      Form.check { lat := .v, vecs := [(8, 1)], role := some 1, whole := true } s = none ∧ 3 < c.nacc ∧ s.queueFull = false) ∧
    (c.modeOf 1 = .f ∧ c.modeOf 0 = .z) ∧
    (8 % 4 = 0 ∧ 8 % 8 = 0 ∧ c.owns [(8, 4)] = true ∧ c.owns [(8, 8)] = true) ∧
    ((c.desc 1).ok mmaFmts false (kOf (c.desc 1).fmt) = true ∧ (c.desc 1).fmt = 0 ∧ (c.desc 5).ok mmaFmts false 64 = true ∧ (c.desc 5).fmt = 9 ∧
      (c.desc 3).ok mmaFmts false 64 = true ∧ (c.desc 3).fmt = 12) ∧
    Hits s .r (runStarts ((c.desc 1).runs ++ (c.desc 1).runs)) [page1, page1] ∧ Hits s .r (runStarts (c.desc 3).runs) [page1, page1] ∧
    ((c.desc 4).ok [0, 12] true 64 = true ∧ (c.desc 4).rows % 8 = 0 ∧ (c.desc 1).ok [0, 12] false 64 = true ∧ (c.desc 4).fmt = (c.desc 1).fmt ∧
      (∀ r ∈ metaRegs 40 (c.desc 4).rows 1, r.2.2 ≤ 63 ∧ c.owns [(r.2.2, 1)] = true) ∧ c.metaBad true 40 (c.desc 4).rows 1 = none ∧
      Hits s .r (runStarts ((c.desc 4).runs ++ (c.desc 1).runs)) (List.replicate 8 page1)) ∧
    ((c.desc 5).ok [9, 12, 13] false 64 = true ∧ (c.desc 1).ok (List.range 16) false 64 = true ∧ (c.desc 1).fmt ∉ [9, 12, 13] ∧
      (c.desc 4).ok (List.range 16) false 64 = false ∧ (c.desc 4).ok mmaFmts false (kOf (c.desc 4).fmt) = false ∧ (c.desc 1).fmt ≠ (c.desc 3).fmt ∧
      (c.desc 0).ok [0, 12] true 64 = false ∧ (c.desc 4).fmt ≠ (c.desc 3).fmt ∧ (c.desc 3).ok [0, 12] false 96 = true ∧
      (c.desc 4).ok [0, 12] true 96 = true ∧ c.modeOf 2 ≠ .f ∧ c.nacc ≤ 4) ∧
    (drainSatOk (c.desc 2) 0x50 = true ∧ (c.desc 2).drainOk 0x50 = true ∧ (0x50 : Word).toNat / 16 % 4 ≠ 2 ∧ bit (0x50 : Word) 7 = false ∧
      (c.desc 2).scen = false ∧ c.stcnt + 1 ≤ 255 ∧ Hits s .w (runStarts (c.desc 2).drainRuns) [page1, page1]) := by
  refine ⟨⟨rfl, rfl, by decide, rfl⟩, ⟨rfl, rfl⟩, by decide +kernel, by decide +kernel, ⟨by decide +kernel, by decide +kernel⟩,
    ⟨by decide +kernel, by decide +kernel⟩,
    ⟨by decide +kernel, by decide +kernel, by decide +kernel, by decide +kernel, by decide +kernel, by decide +kernel, by decide +kernel, by decide +kernel⟩,
    by decide +kernel, by decide +kernel, by decide +kernel, by decide +kernel, by decide +kernel, by decide +kernel, by decide +kernel, by decide +kernel,
    by decide +kernel⟩

/-- Form 6 of core 0's queue. -/
def form6 (w : TWork) (p : TPhase) : TForm :=
  { q := 6, cord := 1, ctx := 1, flag := 0, work := w, occ := 4, lat := 8, phase := p, opTok := 7, trans := [page1] }

/-- The machine at e with that form and the outstanding form of its drain. -/
def tamb (f : TForm) (e : Event) : State :=
  { ev e with
    cord := { cordM with ops := [{ tok := 7, flag := some 0, left := 1, stc := 1, kind := .drain 0 6 }] }, cores := [{ core1 with tq := [f] }],
    dev := { st := .full, erdy := true, tokens := [(0, 1)] } }

/-- A drain line of two elements at the ends of its line. -/
def line2 : DrainLine := { line := 0x400, add := true, fmt := 10, elems := [(0, 5), (124, 6)] }

/-- A form that can start, a drain that can start, a form whose line L2 has replaced, a half-line that is needed, an occupancy that ends, a completion, a line and a
version update at their homes, and the end of a drain. -/
theorem witness_TambourEvents :
    (∀ w ∈ [TWork.azero 0, .adrn 0 [0, 0, 0, 0x10000] 0x10],
      let f := form6 w .queued
      let s := tamb f (.tambourFormStart 0)
      s.canStart 0 = some f ∧ s.replaced f = [] ∧ s.cordRec 1 = some s.cord ∧ s.cord.live = true ∧ s.form 0 6 = some f) ∧
    (let f : TForm := { form6 (.azero 0) .queued with loose := [(0x400, 1)], vas := [(0x800, 0x10000)] }
     let s := tamb f (.tambourFormStart 0)
     s.form 0 6 = some f ∧ s.canStart 0 = some f ∧ s.replaced f = [0x400]) ∧
    (let f : TForm := { form6 (.azero 0) .queued with need := [0x800] }
     let s := tamb f (.tileFetchLine 0 6 0x800 (some []))
     s.form 0 6 = some f ∧ 0x800 ∈ f.need ∧ s.readFails (0x800 / 2) = none) ∧
    (let f := form6 (.azero 0) .occupying
     let s := tamb f (.tambourOccupancyEnd 0 6)
     s.form 0 6 = some f ∧ ∀ o ∈ s.cord.ops, o.tok = f.opTok) ∧
    (let f := form6 (.azero 0) .leaving
     let s := tamb f (.tambourFormComplete 0 6)
     s.form 0 6 = some f ∧ Runs s 1 s.cord ∧ f.work.dest = some 0) ∧
    (let f := form6 (.adrn 0 [0, 0, 0, 0x10000] 0x90) .leaving
     let s := tamb f (.adrnLineAck 0 6 (some line2))
     s.form 0 6 = some f ∧ s.unreachable line2.line = false ∧ s.agenda.any (adapterWrite line2.line) = false ∧ s.epochs = [] ∧ (∀ o ∈ s.owners, o.1 / 32 ≠ line2.line) ∧
     s.loadAhead 0 f.cord line2.line f.opTok = none ∧
     (s.isLocal (line2.line * 128) && inWindow (line2.line * 128)) = false ∧
     line2.elems.Pairwise (fun e e' => e.1 + drainBytes line2.fmt ≤ e'.1) ∧ ∀ e ∈ line2.elems, e.1 + drainBytes line2.fmt ≤ 128) ∧
    (let f := form6 (.adrn 0 [0, 0, 0, 0x10000] 0x90) .leaving
     let s := tamb f (.adrnLineAck 0 6 none)
     Runs s 1 s.cord ∧
     s.cord.ops.find? (·.tok == f.opTok) = some { tok := 7, flag := some 0, left := 1, stc := 1, kind := .drain 0 6 } ∧
     ∀ g ∈ (s.coreOf 0).tq, g.phase ≠ .occupying) ∧
    let f := form6 (.adrn 0 [0, 0, 0, 0x10000] 0x90) .leaving
    let s := tamb f (.adrnVersionPerformed 0 6)
    let va := xaddr f.trans f.ctx (Desc.scale [0, 0, 0, 0x10000])
    f.version = 0 ∧ va % 8 = 0 ∧ s.unreachable (va / 128) = false ∧ s.agenda.any (adapterWrite (va / 128)) = false ∧ s.epochs = [] ∧
      (∀ o ∈ s.owners, o.1 / 32 ≠ va / 128) ∧ (s.isLocal va && inWindow va) = false := by
  refine ⟨?_, by decide +kernel, ⟨rfl, by decide, rfl⟩, ⟨rfl, by decide⟩, ⟨rfl, ⟨rfl, rfl⟩, rfl⟩,
    ⟨rfl, rfl, rfl, rfl, by decide, rfl, by decide +kernel, by decide, by decide⟩, ⟨⟨rfl, rfl⟩, rfl, by decide⟩,
    ⟨rfl, by decide +kernel, by decide +kernel, rfl, rfl, by decide, by decide +kernel⟩⟩
  decide +kernel

/-- Every work that makes a tile makes one. -/
theorem witness_TileEffects :
    (∀ w ∈ [TWork.azero 0, .aprom 1, .acvt 1 .d, .mma 1 (cordM.desc 3) (cordM.desc 3), .sparse false 2 (cordM.desc 4) (cordM.desc 1) [],
        .mmaAcc 2 1 (cordM.desc 5), .ald 2 0 [(0, 1), (1, 2)] [], .ald 2 3 [] [(0, (1, 2, 3))], .amaxu 1, .arsc 1 1],
      ((form6 w .occupying).effect cordM).isSome = true) ∧
    ([(0, (1 : Dword)), (1, 2)].map (·.1)).Pairwise (· ≠ ·) ∧ ([(0, ((1 : Word), (2 : Word), (3 : Word)))].map (·.1)).Pairwise (· ≠ ·) ∧
    (cordM.tile 1).mode = .z ∧ ({ cordM with tiles := [(1, { mode := .f })] }.tile 1).mode = .f := by
  refine ⟨?_, by decide, by decide, rfl, rfl⟩
  intro w h
  simp only [List.mem_cons, List.not_mem_nil, or_false] at h
  rcases h with rfl | rfl | rfl | rfl | rfl | rfl | rfl | rfl | rfl | rfl <;> rfl

/-- A record of one motif with one vector cord: entry 0x04000000, result word at 0x10100. -/
def record1 (w0 sctl saddr : Word) : List Word :=
  [w0, 0, 0x04000000, 0, 0x10001, 1, 0x1000, 0, 0, 0, 0, 0, 0x10100, 0, 0, 0, 0, 0, sctl, 0, 0, 0, 0, 0, saddr] ++ List.replicate 7 0

/-- The launch of queue 0 that this record starts. -/
def pattern1 (w0 : Word) (st : PState) : Pattern :=
  { q := 0, ctx := 1, rcd := record1 w0 0x80 0x10000, entry := 0x10000, res := 0x20100, st := st, ord := 5 }

/-- The record's bytes in page 1. -/
def recordBytes : SMap Byte :=
  [(0x20003, 0x10), (0x2000B, 4), (0x20010, 1), (0x20012, 1), (0x20014, 1), (0x20019, 0x10), (0x20031, 1), (0x20032, 1)]

/-- Queue 0 over page 1, enabled, open to launches, with one record. -/
def queue1 : Queue := { base := 0x10000, ctl := 0xC0400001, tail := 1 }

/-- The machine at e with that queue and the patterns ps. -/
def launched (ps : List Pattern) (e : Event) : State :=
  { ev e with queues := [(0, queue1)], mem := recordBytes, patterns := ps }

/-- A launch of each status; a post, a phase; a record that goes into its queue; and a post that reaches its result word. -/
theorem witness_LaunchAndPost :
    (let s : State := { launched [] .reset with cord := { cord1 with s := [(4, 0x10000), (5, 0x10040)] } }
     Form.check { lat := .v, vecs := wrVecs (.s 6) 1 ++ rdVecs (.s 4) 1 ++ rdVecs .zero 1 } s = none ∧
     s.cord.once64 (.s 4) .zero / 64 % 2 = 0 ∧ s.cord.once64 (.s 5) .zero / 64 % 2 = 1 ∧
     Hits s .r [s.cord.once64 (.s 4) .zero / 128 * 128] [page1] ∧ s.launchable s.cord.ctx 0 = true ∧ s.launchable s.cord.ctx 1 = false ∧
     s.cord.live = true ∧ Form.check { lat := .v, vecs := rdVecs (.s 4) 1 } s = none ∧ (1 : Imm).toNat ≤ 1 ∧ 1 < (2 : Imm).toNat ∧ s.cord.stcnt + 1 ≤ 255 ∧
     Form.check { lat := .n } s = none) ∧
    (let e : Release := { kind := .launch ⟨0, 0, 0x20000, [.s 6 0]⟩, own := 1 }
     let s : State := { launched [] (.releaseTakesEffect 1) with cord := { cord1 with stcnt := 1, rels := [e] } }
     Runs s 1 s.cord ∧ s.relDue s.cord = some e ∧ s.epochs = [] ∧
     (queue1.tail - queue1.head).toNat < 2 ^ (queue1.ctl.toNat / 2 ^ 20 % 16) ∧
     s.transl (queue1.ctl.toNat % 2 ^ 12) .w 0x10080 = .ok 0x20080 ∧ (s.isLocal 0x20080 && inWindow 0x20080) = false) ∧
    (let s := launched [pattern1 0x10000000 .running] (.postAtHome 1 0 7 true)
     let p := pattern1 0x10000000 .running
     Runs s 1 s.cord ∧ s.resultOf 1 = some p ∧ s.unreachable (p.res / 128) = false ∧ s.agenda.any (adapterWrite (p.res / 128)) = false ∧
     s.epochs = [] ∧
     (∀ o ∈ s.owners, o.1 / 32 ≠ p.res / 128) ∧ (s.isLocal p.res && inWindow p.res) = false ∧ p.res % 4 = 0) := by
  refine ⟨⟨rfl, by decide +kernel, by decide +kernel, ⟨rfl, by decide +kernel⟩, rfl, by decide +kernel, rfl, rfl, by decide, by decide, by decide, rfl⟩,
    ⟨⟨rfl, rfl⟩, rfl, rfl, by decide, by decide +kernel, by decide +kernel⟩,
    ⟨⟨rfl, rfl⟩, rfl, by decide +kernel, rfl, rfl, by decide, by decide +kernel, by decide⟩⟩

/-- Nothing on its way, so nothing owed by an adapter. -/
theorem noneOwed_of_empty {s : State} (h : s.agenda = []) : NoneOwed s := by simp [NoneOwed, h]

/-- Each event of queues and patterns in a state where it acts: a record that passes its checks and one of zeros; a running and a complete
pattern whose successor is legal; and the rest. -/
theorem witness_QueuesAndPatterns :
    (let s := launched [] (.recordTake 0)
     let x := s.queueOf 0
     s.startable 0 = true ∧ inWindow 0x20000 = false ∧
     s.transl (x.ctl.toNat % 2 ^ 12) .rw ((x.base.toNat + 128 * (x.head.toNat % 2 ^ (x.ctl.toNat / 2 ^ 20 % 16))) % 2 ^ 64) = .ok 0x20000 ∧
     s.check (pattern1 0x10000000 .waiting) = .ok (pattern1 0x10000000 .waiting) ∧
     s.check { pattern1 0 .waiting with rcd := List.replicate 32 0 } = .error 1 ∧ s.transl 1 .w (0x10000 + 4) = .ok 0x20004) ∧
    (let p := pattern1 0x10000000 .waiting
     let s := launched [p] (.recordStart 0)
     s.patterns.find? (fun p => p.q == 0 && s.canBegin p) = some p ∧ p.rollgrp = 0 ∧ s.epochs = [] ∧ NoneOwed s ∧ (s.isLocal p.res && inWindow p.res) = false) ∧
    (let p := pattern1 0x10000000 .running
     (launched [p] (.queueSuspend 0)).patternOf 0 = some p ∧ ((launched [p] (.queueSuspend 0)).runningOf p).map (·.mid) = [1] ∧
      ∀ m ∈ (launched [p] (.queueSuspend 0)).runningOf p, (launched [p] (.queueSuspend 0)).findMotif m.mid = some m) ∧
    (let run : Pattern := { pattern1 0x10000000 .running with retired := [(0, true)] }
     let done : Pattern := { pattern1 0x10000000 .completing with retired := [(0, true)], drains := some [] }
     let s := launched [run] (.patternCompletion 0)
     let u := launched [done] (.patternCompletion 0)
     s.patternOf 0 = some run ∧ s.completable run = true ∧ u.patternOf 0 = some done ∧ u.completable done = true ∧ done.advanced = false ∧
     done.successor 0 = some 0 ∧ (u.checkSuccessor done 0).toOption.isSome = true ∧ NoneOwed u) ∧
    (let e : Enq := ⟨0, 0x20000, none, some 1⟩
     let s : State := { launched [] (.successorEnqueue 0) with succs := [e] }
     s.succs.find? (·.q == 0) = some e) ∧
    (let e : Enq := ⟨0, 0x20000, none, none⟩
     let s : State := { launched [] (.successorEnqueue 0) with succs := [e] }
     s.succs.find? (·.q == 0) = some e ∧ (s.queueOf 0).room = true ∧
     s.transl (qCtx (s.queueOf 0)) .w (entryVa (s.queueOf 0) (s.queueOf 0).tail) = .ok 0x20080) ∧
    (let s := launched [pattern1 0x10000000 .running] (.contextKill 1)
     qCtx (s.queueOf 0) = 1 ∧ s.motif.ctx = 1) := by
  refine ⟨⟨rfl, by decide, by decide +kernel, by decide +kernel, by decide +kernel, by decide +kernel⟩, ⟨by decide +kernel, rfl, rfl, noneOwed_of_empty rfl, by decide +kernel⟩,
    ⟨rfl, by decide +kernel⟩, ⟨rfl, by decide +kernel, rfl, by decide +kernel, rfl, by decide +kernel, by decide +kernel, noneOwed_of_empty rfl⟩,
    rfl, ⟨rfl, by decide +kernel, by decide +kernel⟩, by decide +kernel, rfl⟩

/-- The machine as motif 1, whose cord has ended, retires. -/
def retiring (ds : Option (List (Nat × Nat × Nat))) (w0 : Word) : State :=
  { launched [pattern1 w0 .running] (.motifRetirement 1) with
    motif := { motif1 with drains := ds }, cord := { cord1 with live := false } }

/-- A motif that can be placed, saved, discarded, retired with and without drains, and a killed launch before and after its drains. -/
theorem witness_MotifsAndKills :
    (let p := pattern1 0x10000000 .running
     let s : State := { launched [p] (.motifPlacement 0 0) with motif := {}, cord := {} }
     s.offers.find? (fun o => o.1.q == 0 && o.2 == 0) = some (p, 0) ∧ p.whole = false ∧ s.savedMotif p.q 0 = none ∧ s.offer p 0 = some (0, 0, 0) ∧
     p.gx ≠ 0 ∧ p.gy ≠ 0) ∧
    (∀ d : Bool,
      let m : Motif := { motif1 with saving := true, discard := d }
      let s : State := { launched [pattern1 0x10000000 .running] (.motifSave 1) with motif := m }
      let p : Pattern := { pattern1 0x10000000 .running with sbAt := [2] }
      let u : State := { s with patterns := [p], dev := { s.dev with cpsb := 0x40003 } }
      s.findMotif 1 = some m ∧ s.savable m = true ∧ (s.patternOf m.queue).isSome = true ∧ u.savable m = true ∧ u.patternOf m.queue = some p ∧
        p.sbAt.Nodup ∧ u.agenda = [] ∧ inWindow (u.dev.cpsb.toNat / 4096 * 4096 + 4096 * 2) = false) ∧
    ({ base with picots := [{ trackers := [tracker5 false 0] }] }.tracker (motif1.core / 16) 1 5).isSome = true ∧ motif1.core < 16000 ∧
    ((retiring none 0x10000000).findMotif 1 = some motif1 ∧ (retiring none 0x10000000).retirable motif1 = true ∧
      (retiring none 0x10000000).doeOf motif1 = false) ∧
    ((retiring none 0x10008000).findMotif 1 = some motif1 ∧ (retiring none 0x10008000).retirable motif1 = true ∧
      (retiring none 0x10008000).doeOf motif1 = true) ∧
    (let m : Motif := { motif1 with drains := some [] }
     (retiring (some []) 0x10008000).findMotif 1 = some m ∧ (retiring (some []) 0x10008000).retirable m = true ∧ m.drains ≠ none) ∧
    (∀ ds ∈ [none, some []],
      let p : Pattern := { pattern1 0x10000000 (.killing 0x20) with drains := ds }
      let s : State := { launched [p] (.launchKillFinish 0 0x20) with motif := {}, cord := {} }
      s.patterns.find? (fun p => p.q == 0 && (s.killDue p).isSome) = some p ∧ p.rollgrp = 0 ∧ p.advanced = false ∧ s.epochs = [] ∧ s.agenda = [] ∧
      s.transl p.ctx .w (p.entry + 4) = .ok 0x20004 ∧ inWindow 0x20004 = false) := by
  refine ⟨⟨by decide +kernel, rfl, rfl, by decide +kernel, by decide +kernel, by decide +kernel⟩, by decide +kernel,
    by decide +kernel, by decide,
    ⟨rfl, by decide +kernel, rfl⟩, ⟨rfl, by decide +kernel, by decide +kernel⟩, ⟨rfl, by decide +kernel, by decide⟩, by decide +kernel⟩

/-- A cord with a handler at 0x04000200, inside a trap or not. -/
def cordT (active : Bool) : Cord := { cord1 with trapvec := 0x04000200, trap := { v := active, tract := 0xFFFFFFFF, hdr := 0x04000000 } }

/-- A launch of record1 in queue 0 and that cord. -/
def trapping (c : Cord) (e : Event) : State := { launched [pattern1 0x10000000 .running] e with cord := c }

/-- A cause with a handler, with an active one and with none, in a cord that is not quiet, and caught by needle; brkpt under both kinds of arming; a cause that waited; an asynchronous one; the
end of a handler; and the control registers. -/
theorem witness_TrapsAndControlRegisters :
    (∀ c ∈ [cordT false, cordT true, cord1],
      let s := trapping c .reset
      s.trapReady s.cord = true ∧
      s.patternOf s.motif.queue = some (pattern1 0x10000000 .running) ∧
      (s.cord.trapvec &&& 0xFFFFFFFFFFFFFFFC = 0 ↔ c = cord1) ∧ (s.cord.trap.v = true ↔ c = cordT true)) ∧
    (let c : Cord := { cordT false with f := [(0, 1)] }
     let s := { trapping c (.trapEntry 1) with agenda := [⟨104, .fixedLatencyWrite 1 [.s 3 5]⟩] }
     let u := { trapping (cordT false) (.trapEntry 1) with agenda := [⟨104, .fixedLatencyWrite 1 [.s 3 5]⟩] }
     s.trapReady s.cord = false ∧ Runs s 1 c ∧ u.quiet u.cord = true ∧ u.trapReady u.cord = false) ∧
    (let s := { trapping (cordT false) .reset with needle := { loaded := some 0, catches := [Cause.soft.code], running := true } }
     s.trapReady s.cord = true ∧ s.catches s.motif .soft = true ∧ Runs { s with cord := { s.cord with wait := .caught } } 1 { s.cord with wait := .caught }) ∧
    (Form.check { lat := .n } base = none ∧ (base.coreOf 0).armed = false ∧ Form.check { lat := .n, priv := true } base = none ∧
      ({ base with cores := [{ core1 with armed := true }] }.coreOf 0).armed = true) ∧
    (let p : PendTrap := ⟨.soft, 5, 0, 0, true, false, 0x04000000, 0xFFFFFFFF⟩
     let c : Cord := { cordT false with pend := some p }
     let s := trapping c (.trapEntry 1)
     Runs s 1 c ∧ c.trapvec &&& 0xFFFFFFFFFFFFFFFC ≠ 0 ∧ c.trap.v = false ∧ s.trapReady c = true ∧ c.pend = some p ∧ 1 ≠ 0) ∧
    (let c : Cord := { cordT false with async := [⟨.bobFault, 9, none, none⟩], cl := {}, chosen := some 0x04000000 }
     let s := trapping c (.asyncTrapDelivery 1)
     Runs s 1 c ∧ (s.asyncDue c).isSome = true) ∧
    (let c : Cord := { cordT true with cl := { cord1.cl with slot := 1, xf := .rte } }
     let s := trapping c (.clauseEnd 1)
     Runs s 1 c ∧ s.clauseOver c = true ∧ c.cl.xf = .rte ∧ bit c.trap.tract 0 = true ∧ (c.thread 0).live = true) ∧
    (let c : Cord := { cord1 with wait := .armed }
     Runs (trapping c (.debugResume 1)) 1 c ∧ (ev (.needle .run)).now = some (.needle .run)) ∧
    (∀ n ∈ [0x001, 0x010, 0x011, 0x020, 0x030, 0x031, 0x032, 0x033, 0x040, 0x041, 0x050, 0x051, 0x052, 0x053, 0x054, 0x055, 0x060, 0x061, 0x070, 0x071,
      0xC00], (base.csr n).isSome = true) ∧
    Form.check { lat := .i4, vecs := wrVecs (.s 28) 1, priv := true } base = none ∧
    Form.check { lat := .i4, vecs := rdVecs (.v 4) 1, priv := false } base = none := by
  refine ⟨by decide +kernel, ⟨by decide +kernel, ⟨rfl, rfl⟩, by decide +kernel, by decide +kernel⟩, ⟨by decide +kernel, by decide, rfl, rfl⟩, ⟨rfl, rfl, rfl, rfl⟩, ⟨⟨rfl, rfl⟩, by decide, rfl, rfl, rfl, by decide⟩, ⟨⟨rfl, rfl⟩, by decide +kernel⟩,
    ⟨⟨rfl, rfl⟩, rfl, rfl, by decide, rfl⟩, ⟨⟨rfl, rfl⟩, rfl⟩, by decide +kernel, rfl, rfl⟩

/-- A cord that waits for good at a barrier of two, as the detector saw it before. -/
def knotted : State :=
  let s : State := { ev .knotDetectorReading with
    knotAt := 50, cord := { cord1 with wait := .barw 2 },
    motif := { motif1 with bars := [(2, { exp := 2, arr := 1, am := 1, wm := 1 })], watch := [(0, 2)] } }
  { s with cord := { s.cord with seen := (s.blockedCords.head?).map (·.2) } }

/-- A decode table, none, and their completions; a tlbi of every kind, at work and over; a knot; a list pricking that cannot go on. -/
theorem witness_TranslationAndKnots :
    (let s : State := { base with ctxs := [{ id := 1, en := true, sys := true, decbase := 0x10000 }] }
     Form.check { lat := .v } s = none ∧ (base.ctxOf 1).decbase.toNat / 2 ^ 12 * 2 ^ 12 = 0 ∧
     (s.ctxOf 1).decbase.toNat / 2 ^ 12 * 2 ^ 12 = 0x10000 ∧ Hits s .r [0x10000] [page1]) ∧
    (Form.check { lat := .v, vecs := rdVecs (.v 4) 1 ++ rdVecs .zero 1, priv := true } base = none ∧ base.cord.once64 (.v 4) .zero / 2 ^ 14 % 4 = 0) ∧
    (∀ e, Runs (ev e) 1 cord1 ∧ (ev e).now = some e) ∧
    (let job : TlbiJob := ⟨[9], [], [], []⟩
     let s : State := { ev (.tlbiComplete 1 0 job) with recalls := [(9, 0, 0x400)] }
     (∃ r ∈ s.recalls, r.1 ∈ job.rids) ∧ ¬∃ r ∈ base.recalls, r.1 ∈ job.rids) ∧
    (knotted.knotMembers.length = 1 ∧ knotted.now = some .knotDetectorReading ∧ knotted.cord.trap.v = false) ∧
    (let p : Pattern :=
       { pattern1 0x10000000 .running with
         rcd := [0x10000000, 0, 0, 0, 0x10002, 1, 0x1000, 0, 0, 0, 0, 0, 0, 0, 2], preds := [[1], [0]], stuck := some [] }
     let s : State := { ev .knotDetectorReading with patterns := [p], motif := {}, cord := {} }
     s.knotMembers = [] ∧ s.listStuck p = true ∧ p.stuck = some p.retired) := by
  refine ⟨⟨rfl, rfl, rfl, ⟨rfl, by decide +kernel⟩⟩, ⟨rfl, by decide +kernel⟩, fun e => ⟨⟨rfl, rfl⟩, rfl⟩, by decide, ⟨by decide +kernel, rfl, rfl⟩,
    rfl, by decide +kernel, rfl⟩

/-- Each error, a write of each kind of register, a cluster that leaves, busy and empty, a page that is idle and one that is not, and a host's
access to its own memory and to this device's. -/
theorem witness_HealthAndRegisters :
    (∀ e, Runs (ev e) 1 cord1 ∧ (ev e).now = some e ∧ (ev e).findMotif 1 = some motif1) ∧
    (let s := launched [pattern1 0x10000000 .running] (.eccUncorrectable (.command 0))
     s.patternOf 0 = some (pattern1 0x10000000 .running) ∧ s.cordRec 1 = some cord1) ∧
    (let s : State := { ev (.eccUncorrectable (.eyelet 1 2)) with cord := opened.cord }
     Runs s 1 s.cord ∧ (s.cord.eye 2).st ≠ .closed) ∧
    (let s : State := { ev (.eccUncorrectable (.granule 0 0x20000)) with picots := [{ granules := [⟨1, 5, 0x20000, none, none, [], []⟩] }] }
     ∃ x ∈ (s.picotOf 0).granules, x.addr = 0x20000) ∧
    (let s : State := { ev (.correctableError 7) with dev := { st := .full, correctable := [(7, 4096)] } }
     SMap.get 0 s.dev.correctable (7 : Word).toNat + 1 = 4097 ∧ SMap.get 0 base.dev.correctable (7 : Word).toNat + 1 ≠ 4097) ∧
    (let s : State := { ev (.hlthbaseWrite 0x10000) with dev := { st := .full, owed := [(1, List.replicate 8 0), (2, List.replicate 8 4)] } }
     (0x10000 : Dword) ≠ 0 ∧ (s.dev.owed.map fun o => o.1 % 128).Nodup ∧ ∀ o ∈ s.dev.owed, o.2.length = 8) ∧
    (let s := ev (.clusterLeavesService 0)
     40 ≤ 40 ∧ bit s.dev.clusters 0 = true ∧ bit s.dev.clusters 39 = true ∧ (∃ m ∈ s.allMotifs, m.status = .running ∧ m.core / 16 = 0) ∧
     (∀ m ∈ s.allMotifs, ¬(m.status = .running ∧ m.core / 16 = 39)) ∧ cord1.cid ≠ 0 ∧ cord1.liveMask ≠ 0) ∧
    (0x3F2000000000 % 2 ^ 54 = 0x3F2000000000 + 64 * 0 ∧ 0x3F2000000FC0 % 2 ^ 54 = 0x3F2000000000 + 64 * 63 ∧
      0x3F2000100000 % 2 ^ 54 = 0x3F2000100000 + 64 * 0 ∧ 0x3F3000010000 % 2 ^ 54 = 0x3F3000010000 + 0x1000 * 0 ∧
      0x3F3000010100 % 2 ^ 54 = 0x3F3000010100 + 0x1000 * 0 + 4 * 0 ∧ 0x3F1000000008 % 2 ^ 54 = 0x3F1000000008 + 0x400 * 0 + 16 * 0) ∧
    (opened.pageIdle 1 = true ∧ (∃ c ∈ opened.allCords, ∃ e ∈ c.eyes, e.2.st ≠ .closed ∧ opened.isLocal (e.2.pla * 128) = true ∧
      e.2.pla * 128 % 2 ^ 54 / 2 ^ 25 = 0)) ∧
    (960 * 2 ^ 54 / 2 ^ 54 % 1024 = 960 + 0 ∧ 0 < [(1 : Byte), 2].length ∧ (960 * 2 ^ 54 + 126) % 128 + [(1 : Byte), 2].length ≤ 128) ∧
    (0x2007E / 2 ^ 54 % 1024 ≠ 960 + 0 ∧ base.dev.st ≠ .off ∧ base.dev.st ≠ .tripped ∧ base.isLocal 0x2007E = true ∧ base.dev.working = true ∧
      base.mapFault true 0x2007E = none ∧ base.epochs = [] ∧ 0x2007E % 128 + [(1 : Byte), 2].length ≤ 128 ∧ inWindow 0x2007E = false) ∧
    ({ base with dev := { st := .off } } : State).dev.st = .off := by
  refine ⟨fun e => ⟨⟨rfl, rfl⟩, rfl, rfl⟩, ⟨rfl, rfl⟩, ⟨⟨rfl, rfl⟩, by decide⟩, by decide, ⟨rfl, by decide⟩, by decide, by decide +kernel, by decide,
    by decide +kernel, by decide, by decide +kernel, rfl⟩

/-- The device in a STATE, at e. -/
def boot (st : DevState) (e : Event) : State := { now := some e, dev := { st := st } }

/-- Each event of bring-up in the STATE that it belongs to, with a result of each kind; images of which the first is missing, and a device
without any; a power window that makes the device FULL, and one
of a hot device. -/
theorem witness_BringupAndPower :
    (∀ st e, (boot st e).now = some e ∧ (boot st e).dev.st = st) ∧
    ((0 : Nat) % 2 ^ 36 = 0 ∧ (2 ^ 36 - 2) % 2 ^ 36 ≠ 0 ∧ (0 : Dword).toNat % 2 ^ 40 = 0 ∧ (1 : Dword).toNat % 2 ^ 40 ≠ 0) ∧
    (let s : State := { now := some .firmwareVerifyDone, dev := { st := .verify, images := [none] } }
     s.dev.images[0]? = some none ∧ ∀ j < 0, ∀ y, s.dev.images[j]? ≠ some y) ∧ (∀ j : Nat, (boot .verify .firmwareVerifyDone).dev.images[j]? = none) ∧
    (List.replicate 5 (none : Option Image)).length = 5 ∧
    ((boot .early (.lpddrTrainingDone 40)).dev.fcode ≠ 9 ∧ ({ st := .early, fcode := 9 } : Dev).fcode = 9) ∧
    (let d : Dev := { st := .early, erdy := true, lpddrReady := true, cool := 999, thr := true }
     d.erdy = true ∧ d.st = .early ∧ d.lpddrReady = true ∧ d.pwrNext = none ∧ 999 ≤ d.cool ∧ d.thr = true ∧ 99 < d.tlim ∧ d.tlim + 5 ≤ 115) ∧
    (boot .early (.powerWindow 0 0)).dev.erdy = false ∧ (boot .full (.attestationRequest 1)).dev.attBusy = false ∧
    (4, DevState.full) ∉ [(1, DevState.verify), (2, .calib), (3, .init), (4, .early)] := by
  refine ⟨fun _ _ => ⟨rfl, rfl⟩, by decide, ⟨rfl, fun _ h => absurd h (by omega)⟩, fun _ => rfl, rfl, by decide, by decide, rfl, rfl, by decide⟩

/-- A call of ared in round 0 of group 0, whose only member is this device. -/
def call1 : CollCall :=
  { g := 0, round := 0, cord := 1, mid := 1, flag := 0, col := false, lit := 0xA000, off := 0, desc := [], src := List.replicate 16 0, srcRuns := [],
    dst := [.s 6 0], dstRuns := [], status := none }

/-- The machine at e with that call open, or one of acol. -/
def calling (x : CollCall) (lost : List Nat) (e : Event) : State :=
  { ev e with calls := [x], groups := [(0, { ctl := 0x80000000 })], dev := { st := .full, erdy := true, lost := lost } }

/-- A link that works, devices, calls that issue, a signal to this device, and a call that ends in each way. -/
theorem witness_ReseauResults :
    (let s : State := { ev (.linkFailure 3) with dev := { st := .full, links := 0xFFFFFFFFF } }
     bit s.dev.links 35 = true ∧ bit base.dev.links 3 = false) ∧
    (5 ∉ base.dev.lost ∧ (calling call1 [5] .reset).dev.lost.contains 5 = true) ∧
    (∃ x ∈ (calling call1 [] .reset).calls, ∃ r ≤ (SMap.get {} (calling call1 [] .reset).groups x.g).ctl.toNat / 2 ^ 16 % 2 ^ 10,
      SMap.get 0 (SMap.get {} (calling call1 [] .reset).groups x.g).ranks r = 0) ∧
    (let s : State := { ev (.remoteNotice (.recall 0x400 .disc 5 none)) with cord := opened.cord }
     let u : State := { ev (.remoteNotice (.recall 0x400 .disc 5 (some [9]))) with recalls := [(9, 0, 0x400)] }
     s.dev.working = true ∧ s.sharers 0x400 = [0] ∧ base.sharers 0x400 = [] ∧ (∃ r ∈ u.recalls, r.1 ∈ [9]) ∧
     ∀ r ∈ base.recalls, r.1 ∉ [9]) ∧
    (({ st := .calib } : Dev).working = false ∧ DevState.calib ≠ .off ∧ DevState.calib ≠ .tripped ∧ inWindow 0x20000 = false) ∧
    (base.isLocal (0x400 * 128) = true ∧ base.readFails 0x400 = none ∧ base.readFails (0x2007E / 128) = none ∧ base.isLocal 0x2007E = true ∧ inWindow 0x2007E = false ∧
      base.epochs = [] ∧ (∀ o ∈ base.owners, o.1 / 32 ≠ 0x2007E / 128) ∧ 0 < [(1 : Byte), 2].length ∧ 0x2007E % 128 + [(1 : Byte), 2].length ≤ 128) ∧
    (let m : Motif := { motif1 with pb := 64, copies := 0, pil := [(2, 1), (10, 1), (16, 1)] }
     let s : State :=
       { base with motif := m, groups := [(0, { ctl := 0x80000000 })], cord := { cord1 with s := [(4, 0), (5, 0), (8, 1)] } }
     let x : CollCall := { call1 with col := true, desc := (List.range 8).map fun i => BitVec.ofNat 32 (s.motif.pilNum (0 + 4 * i) 4) }
     collLitOk false 0xA000 = true ∧ collLitOk false 0xA00F = false ∧ collLitOk true 0xA000 = true ∧ s.motif.checkBuffer 0 (collNb 0xA000) = none ∧
     s.motif.checkBuffer 0 32 = none ∧ (s.cord.once (.s 5)).toNat ≤ 63 ∧ (s.cord.once (.s 4)).toNat = 0 ∧
     Form.check { lat := .v, vecs := wrVecs (.s 6) 1 ++ rdVecs (.s 4) 1 ++ rdVecs (.s 5) 1 } s = none ∧
     Form.check { lat := .v, vecs := rdVecs (.s 4) 1 ++ rdVecs (.s 5) 1 } s = none ∧
     bit (SMap.get {} s.groups 0).ctl 31 = true ∧ bit (SMap.get {} s.groups 1).ctl 31 = false ∧
     s.motif.pilNum 16 4 = 1 ∧ s.motif.pilNum 0 4 = 0x10000 ∧ s.motif.pilNum 28 4 = 0 ∧
     Hits s .r (pageStarts 0x10000 (x.sizes (SMap.get {} s.groups 0)).1) [page1] ∧
     Hits s .w (pageStarts 0x10000 (x.sizes (SMap.get {} s.groups 0)).2) [page1] ∧
     (3 : Word).toNat < 64 ∧ Form.check { lat := .n, vecs := rdVecs (.s 4) 1 ++ rdVecs (.s 8) 1 } s = none) ∧
    (let e : Release := { kind := .rsig 0 0 2, own := 1 }
     let s : State := { launched [] (.releaseTakesEffect 1) with cord := { cord1 with stcnt := 1, rels := [e] } }
     Runs s 1 s.cord ∧ s.relDue s.cord = some e ∧ s.dev.devno = 0 ∧ bit (s.queueOf 0).ctl 30 = true ∧ bit (s.queueOf 0).ctl 31 = true) ∧
    (let s := calling call1 [] (.arRoundComplete 0 0)
     s.callOf 0 0 = some call1 ∧ call1.mid ≠ 0 ∧ Runs s 1 cord1 ∧ s.memberLost 0 = false ∧ (calling call1 [0] (.arRoundComplete 0 0)).memberLost 0 = true ∧
     s.contributions call1 = some [(0xA000, 16, List.replicate 16 0)] ∧ call1.lit = 0xA000 ∧ call1.amount = 16 ∧ (s.groupOf 0).pm1 = 0 ∧
     s.findMotif 1 = some motif1) ∧
    (let x : CollCall := { call1 with col := true }
     let s := calling x [] (.acolComplete 0 0)
     s.dstNotices x = none ∧
     (∀ z ∈ s.calls, z.g = 0 → z.round = 0 → z = x) ∧ x.mid ≠ 0 ∧ s.findMotif x.mid = some motif1) ∧
    [1, 2].Perm [2, 1] ∧ collExact 0xA000 = false ∧ (fp32.decode 0x3F800000 = .fin false (2 ^ 23) (-23)) := by
  refine ⟨by decide, by decide, by decide, by decide +kernel, by decide, by decide +kernel, ⟨rfl, rfl, rfl, rfl, rfl, by decide +kernel, by decide +kernel, rfl, rfl, by decide +kernel,
      by decide +kernel, by decide +kernel, by decide +kernel, by decide +kernel, ⟨rfl, by decide +kernel⟩, ⟨rfl, by decide +kernel⟩, by decide, rfl⟩,
    ⟨⟨rfl, rfl⟩, rfl, rfl, by decide, by decide⟩, ⟨rfl, by decide, ⟨rfl, rfl⟩, by decide +kernel, by decide +kernel, rfl, rfl, rfl, rfl, rfl⟩,
    ⟨rfl, by decide, by decide, rfl⟩, by decide, rfl, by decide +kernel⟩

/-- Every instruction of Slice0's decode tests has an encoding; two of them are well-formed, one ill-formed. -/
theorem witness_EncodeDecodeRoundTrip :
    (Instr.add true (.v 8) (.v 0) (.reg (.v 4))).enc.isSome = true ∧ (Instr.add true (.v 8) (.v 0) (.reg (.v 4))).wf = true ∧
    (Instr.rsig (.s 4) (.s 5) 3).enc.isSome = true ∧ (Instr.rsig (.s 4) (.s 5) 3).wf = true ∧ Instr.clauseEnd.enc = none := by
  refine ⟨rfl, rfl, rfl, rfl, rfl⟩

/-- A state whose agenda has a due event, one whose clocks have stopped, one with an enabled event, one whose cords are to be judged, one whose cord issues, an idle one. -/
theorem witness_StepRunsTheDecodedInstruction :
    (let s : State := { base with agenda := [⟨50, .storeAck 1 0x400 2 5⟩] }
     takeDue s.cycle s.agenda = some (.storeAck 1 0x400 2 5, [])) ∧
    (takeDue 0 [] = none ∧ ({ dev := { st := .off } } : State).stopped = true) ∧
    (let s : State := { base with cord := { cord1 with cl := { cord1.cl with slot := 1 } } }
     takeDue s.cycle s.agenda = none ∧ s.stopped = false ∧ s.enabled = some (.clauseEnd 1)) ∧
    (base.enabled = none ∧ base.dev.working = true ∧ base.counted ≠ base.cycle + 1 ∧ (({ base with counted := 101 } : State).chosen.map (·.cid)) = some 1) ∧
    (let s : State := { base with cord := {}, motif := {}, counted := 101 }
     s.enabled = none ∧ s.counted = s.cycle + 1 ∧ s.chosen = none) := by
  refine ⟨rfl, ⟨rfl, rfl⟩, ⟨rfl, rfl, by decide +kernel⟩, ⟨by decide +kernel, rfl, by decide, by decide +kernel⟩, by decide +kernel, rfl, by decide +kernel⟩

/-- nop answers a next state. -/
theorem witness_NoInstructionChangesMemoryAtIssue : Instr.nop.enc.isSome = true ∧ ∃ t, exec .nop base = .next t := ⟨rfl, _, rfl⟩

/-- The first step after reset. -/
theorem witness_StepKeepsMemoryCanonical : Canon State.reset ∧ ∃ t, step State.reset = .next t := ⟨⟨rfl, rfl⟩, _, rfl⟩

/-! Values that the manual states. -/

/-- What a conversion of x makes: fpctl, literal, bits of B for sr. -/
def converted (fz : Byte) (lit sr : Word) (x : Nat) : Word :=
  place32 (fld lit 0 4) (encodeFmt fz (fld lit 0 4) (convRm lit sr) (bit lit 11) (decodeFmt fz (fld lit 4 4) x))

/-- The rows of the table of worked conversions. -/
theorem test_worked_conversions :
    converted 0 0xAC 0 0x40533333 = 0x5A ∧ converted 0 0xAC 0 0x45000000 = 0x7E ∧ converted 0 0xAC 0 0x45001000 = 0x7F ∧
    converted 0 0xAC 0 0x3727C5AC = 0x01 ∧ converted 0 0xAC 0 0xB727C5AC = 0xFF ∧ converted 0 0xAC 0 0x7F800000 = 0x7F ∧
    converted 0 0x4AC 0xA000 0x40533333 = 0x5B ∧ converted 0 0x4AC 0x1234 0x40533333 = 0x5A ∧ converted 0 0xAD 0 0x3F400000 = 0x0C ∧
    converted 0 0xA0 0 0xC348B333 = 0xFFFFFF80 ∧ converted 0 0xA0 0 0x40200000 = 2 ∧ converted 0 0xA4 0 0x7FC00000 = 0 ∧
    converted 0 0x4A 0 0x01000001 = 0x4B800000 ∧ converted 0 0xBA 0 0x7E37E43C8800759C = 0x7F800000 ∧
    converted 0 0x8BA 0 0x7E37E43C8800759C = 0x7F7FFFFF ∧ converted 0 0xBA 0 0xB7D0000000000000 = 0x80080000 ∧
    converted 0x20 0xBA 0 0xB7D0000000000000 = 0x80000000 ∧ converted 0 0xEA 0 0x3F80003F = 0x3F800000 ∧
    converted 0 0xFA 0 0x85 = 0x42800000 ∧ converted 0 0xFA 0 0xFF = 0x7FC00000 := by decide +kernel

/-- fexp2 of 0.5 and flog2 of 3.0, as R129 gives them. -/
theorem test_special_functions :
    fexp2Of false false 0x3F000000 = 0x3FB504F3 ∧ flog2Of false false 0x40400000 = 0x3FCAE00D := by decide +kernel

/-- A cord of which only lane 0 is active, with registers of its own. -/
def lane0 (v : SMap Word) (s : SMap Word) : State :=
  { base with cord := { cord1 with cl := { cord1.cl with act := 1 }, v := v, s := s } }

/-- The register writes that an instruction makes when it completes. -/
def wrote (i : Instr) (s : State) : List RegWrite :=
  match exec i s with
  | .next t => t.agenda.flatMap fun d =>
      match d.what with
      | .fixedLatencyWrite _ ws | .divideComplete _ _ ws | .specialFunctionComplete _ _ ws => ws
      | _ => []
  | _ => []

/-- Sums wrap, and addc gives the carry (R110). -/
theorem test_add_wraps :
    let s := lane0 [(32, 0xFFFFFFFF)] []
    wrote (.add false (.v 8) (.v 1) (.lit 1)) s = [.v 8 0 0] ∧ wrote (.addc false (.v 8) (.v 1) (.lit 1)) s = [.v 8 0 1] := by decide +kernel

/-- The high word of a product of signed words; a `.64` literal is sign-extended (R107, R110). -/
theorem test_mulh_signed :
    wrote (.mulh false (.v 8) (.v 1) (.lit 0xFFFFFFFF)) (lane0 [(32, 2)] []) = [.v 8 0 0xFFFFFFFF] ∧
    wrote (.add true (.v 8) (.v 0) (.lit 0xFFFFFFFF)) (lane0 [(0, 1)] []) = [.v 8 0 0, .v 9 0 0] := by decide +kernel

/-- Shifts by the width and more (R112). -/
theorem test_shifts_past_width :
    wrote (.shl false (.v 8) (.v 1) (.lit 32)) (lane0 [(32, 3)] []) = [.v 8 0 0] ∧
    wrote (.sar false (.v 8) (.v 1) (.lit 200)) (lane0 [(32, 0x80000000)] []) = [.v 8 0 0xFFFFFFFF] ∧
    wrote (.rot false (.v 8) (.v 1) (.lit 33)) (lane0 [(32, 0x80000001)] []) = [.v 8 0 3] := by decide +kernel

/-- Division by zero and the signed overflow (R117). -/
theorem test_divide_corners :
    wrote (.divu false (.v 8) (.v 1) (.lit 0)) (lane0 [(32, 7)] []) = [.v 8 0 0xFFFFFFFF] ∧
    wrote (.divs false (.v 8) (.v 1) (.lit 0xFFFFFFFF)) (lane0 [(32, 0x80000000)] []) = [.v 8 0 0x80000000] ∧
    wrote (.rems false (.v 8) (.v 1) (.lit 2)) (lane0 [(32, 0xFFFFFFF9)] []) = [.v 8 0 0xFFFFFFFF] := by decide +kernel

/-- Byte selectors with sign replication; extraction of a signed field (R113, R114). -/
theorem test_bits_and_bytes :
    wrote (.prmt (.v 8) (.v 1) (.v 2) 0x84B0) (lane0 [(32, 0x00000080), (64, 0x11223344)] []) = [.v 8 0 0xFF440080] ∧
    wrote (.bfx false (.v 8) (.v 1) .zero 0x2204) (lane0 [(32, 0xFFF)] []) = [.v 8 0 0xFFFFFFFF] := by decide +kernel

/-- A scalar destination takes the lowest active lane's result, and a compare writes its mask in active lanes only (R104, R115). -/
theorem test_compare_mask :
    wrote (.cmp false (.s 5) (.v 1) (.v 2) 0x12) { lane0 [(32, 0xFFFFFFFF), (64, 1)] [] with cord := { (lane0 [(32, 0xFFFFFFFF), (64, 1)] []).cord with k := [(1, 0xF0)] } }
      = [.s 5 1, .k 1 0xF1] := by decide +kernel

/-- cmpr on the manual's first group, as needle shows it: −5, −2, 1, 4, −4, −1, 2, 5 keeps 0, 3, 4 and 7; a tie keeps the lower index. -/
theorem test_cmpr_example :
    let s : State := { base with cord := { cord1 with v := [(4 * 32, 0x0401FEFB), (5 * 32, 0x0502FFFC), (4 * 32 + 1, 0xFB0300FD), (5 * 32 + 1, 0xFC0401FE)] } }
    ((wrote (.cmpr 12 4 40) s).filter fun w => match w with | .v _ l _ => decide (l ≤ 2) | _ => false) =
      [.v 12 0 0x05FC04FB, .v 12 1 0xFC04FBFD, .v 12 2 0, .v 40 0 0xF18, .v 40 1 0xF98, .v 40 2 0x688] := by decide +kernel

/-- tclass of TAP8 0x6C in v5 (the entry's example). -/
theorem test_tclass_example : wrote (.tclass (.v 3) (.v 5) 0xC) (lane0 [(160, 0x6C)] []) = [.v 3 0 0x20] := by decide +kernel

/-- trap without a handler kills the launch with code 0x23; with one, the handler is the cord's next clause, and the record names the
immediate (R345, R347). -/
theorem test_trap_entry :
    (match exec (.trap 5) (trapping cord1 .reset) with | .next t => t.patterns.map (·.st) | _ => []) = [.killing 0x23] ∧
    (match exec (.trap 5) (trapping (cordT false) .reset) with | .next t => (t.cord.trap.v, t.cord.trap.cause, t.cord.trap.info, t.cord.chosen) | _ => default) =
      (true, 0x38, 5, some 0x04000200) := by decide +kernel

/-- A store to the last word of a line: its message, and the cord's own eyelet at once (R155). -/
theorem test_store_sends_message :
    (match exec (.stl .w (.s 4) 2 31) { opened with cord := { opened.cord with cl := { cord1.cl with act := 1 } } } with
     | .next t => (SMap.get 0 (t.cord.eye 2).data 126, t.cord.stcnt, (t.cord.eye 2).own, SMap.get 0 t.mem 0x2007E)
     | _ => default) = (1, 1, 0x80000000, 0) := by decide +kernel

/-- Home writes of values and of zeros keep the memory's one form. -/
theorem test_poke_canonical :
    ({ base with mem := [] }.poke [(5, 1), (3, 2), (5, 0)]).mem = [(3, 2)] := by decide +kernel

/-- The decoder on table words: an instruction, an L bit without its literal in the row, an unmapped opcode. -/
theorem test_decode_table_word :
    decodeTableWord 32 0x2A00820A = some (.addImm false (.v 1) (.v 2) 5) ∧ decodeTableWord 32 0xFFC00000 = none := by decide +kernel

/-- withFetchWord makes the next step run its instruction. -/
theorem test_with_fetch_word :
    (match step (State.reset.withFetchWord 32 0x2A00820A) with | .next t => t.agenda.map (·.what) | _ => []) ≠ [] := by decide +kernel

/-- The hashes of FIPS 180-4's one-block message "abc" (R404). -/
theorem test_sha2_abc :
    beNat (sha256 [0x61, 0x62, 0x63]) = 0xBA7816BF8F01CFEA414140DE5DAE2223B00361A396177A9CB410FF61F20015AD ∧
    beNat (sha384Bytes [0x61, 0x62, 0x63]) =
      0xCB00753F45A35E8BB5A03D699AC65007272C32AB0EDED1631A8B605A43FF5BED8086072BA1E7CC2358BAECA134C825A7 := by decide +kernel

/-! Witnesses of the clauses that say what is raised, what stalls, and what the parts of a statement mean. -/

/-- A form that fails each of the checks of R343, those before it held: the flag of a slot whose nibble is 15, registers past the owned ones,
a role, a lane that is off, the privilege; and a full flag, a busy vector unit and a busy network. The last legal flag nibble. -/
theorem witness_FormChecksPassExactly_failures :
    (let s : State := { base with cord := { cord1 with cl := { cord1.cl with hdr := 0x0001E002 } } }
     s.cord.slotFlag = none ∧ Form.check { lat := .v } s ≠ none) ∧
    Form.check { lat := .i4, vecs := [(63, 2)] } base = some (.trap .regIllegal base.cord.word) ∧
    Form.check { lat := .i4, vecs := [(63, 1)], role := some 1 } base = some (.trap .roleBad base.cord.word) ∧
    (let s : State := { base with cord := { cord1 with cl := { cord1.cl with act := 0x7FFFFFFF } } }
     Form.check { lat := .i4, role := some 2, whole := true } s = some (.trap .convIllegal 0x7FFFFFFF)) ∧
    (let s : State := { base with ctxs := [{ id := 1, en := true }] }
     Form.check { lat := .n, priv := true } s = some (.trap .priv s.cord.word) ∧ Form.check { lat := .n } s = none ∧
     (s.ctxOf s.cord.ctx).sys = false) ∧
    (let s : State := { base with cord := { cord1 with f := [(0, 63)] }, cores := [{ core1 with vecFree := [(0, 101)], xchFree := [(0, 101)] }] }
     (∃ b, Form.check { lat := .v } s = some (.stall b s)) ∧ (∃ b, Form.check { lat := .f6, unit := .vec 1 } s = some (.stall b s)) ∧
     ∃ b, Form.check { lat := .x 12, unit := .net } s = some (.stall b s)) ∧
    (cord1.cl.hdr.toNat / 2 ^ (if 0 < 4 then 13 else 9) % 16 < 12 ∧ ({ cord1 with cl := { cord1.cl with hdr := 0x00016002 } }.slotFlag.map fun n : Flag => n.val) = some 11) ∧
    formOf .halt = some { lat := .n, priv := true } ∧ formOf (.csrr (.s 4) 0x020) = some { lat := .i4, vecs := wrVecs (.s 4) 1, priv := true } ∧
    formOf .clauseEnd = none := by
  refine ⟨⟨rfl, by decide⟩, rfl, rfl, rfl, ⟨rfl, rfl, rfl⟩, ⟨⟨_, rfl⟩, ⟨_, rfl⟩, ⟨_, rfl⟩⟩, ⟨by decide, by decide⟩, rfl, rfl, rfl⟩

/-- A literal that is no multiple of 4; a held thread whose join mask has all met or exited, and a thread that is not held. -/
theorem witness_MeetingForms_release :
    ((0x102 : Word).toNat % 4 ≠ 0 ∧ Form.check { lat := .i4 } base = none) ∧
    (let c : Cord := { jm := 7, threads := [(0, { st := .held, pc := 0x04000100 }), (1, { st := .held, pc := 0x04000100 }), (2, { st := .exited }),
       (31, { st := .ready })] }
     (c.thread 0).st = .held ∧ (c.thread 31).st ≠ .held ∧
     ∀ j < 32, bit c.jm j = true → (c.thread j).live = false ∨ ((c.thread j).st = .held ∧ (c.thread j).pc = (c.thread 0).pc)) := by
  exact ⟨⟨by decide, rfl⟩, by decide +kernel⟩

/-- A cord that stands where no clause has begun, its header in memory. -/
def between (r : Option Resume) (c : Cord) : State :=
  { ev (.clauseStart 1) with cord := { c with resume := r } }

/-- A group that resumes at the first slot, inside the clause, past its last slot with nothing left and with a decision; a cord saved inside a
clause and one saved past its last slot, whose decision is all that is left. -/
theorem witness_ClauseStartsOnWait_resumes :
    let c : Cord := { cord1 with cl := {}, chosen := some 0x04000000 }
    let two : State := { between none c with mem := [(0x30000, 0x02), (0x30001, 0x1E), (0x30003, 0x20)] }
    (∀ slot ∈ [0, 1, 7, 8], ∀ xf ∈ [Transfer.none, .exit],
      let r : Resume := ⟨slot, xf, 0x80000001, 0x04000000, 0x04000008⟩
      let s := between (some r) c
      s.findCord 1 = some s.cord ∧ s.cord.refetch = false ∧ r.slot ≤ 8 ∧
        ((slot = 0 ∨ slot = 8) → ∃ cl, s.tryStart s.cord = .go cl)) ∧
    (let s := { two with cord := { c with resume := some ⟨1, .none, 0x80000001, 0x04000000, 0⟩ } }
     s.findCord 1 = some s.cord ∧ ∃ cl, s.tryStart s.cord = .go cl) ∧
    ∀ slot ∈ [0, 1],
      let s := between none { cord1 with cl := { cord1.cl with on := false, hdr := 0, slot := slot, xf := .exit }, refetch := true }
      s.findCord 1 = some s.cord ∧ s.cord.refetch = true ∧ ∃ cl, s.tryStart s.cord = .go cl := by
  refine ⟨?_, ⟨rfl, _, rfl⟩, ?_⟩
  · intro slot hs xf hx
    simp only [List.mem_cons, List.not_mem_nil, or_false] at hs hx
    rcases hs with rfl | rfl | rfl | rfl <;> rcases hx with rfl | rfl <;> refine ⟨rfl, rfl, by decide, ?_⟩ <;>
      first | (intro _; exact ⟨_, rfl⟩) | (intro h; simp at h)
  · intro slot hs
    simp only [List.mem_cons, List.not_mem_nil, or_false] at hs
    rcases hs with rfl | rfl <;> exact ⟨rfl, rfl, _, rfl⟩

/-- A cord at the end of a clause, two threads of which jump to their meeting address, with the join mask jm. -/
def meeting (jm : Word) : Cord :=
  { cord1 with
    jm := jm,
    threads := [(0, { st := .ready, pc := 0x04000000, mr := 0x04000100 }), (1, { st := .ready, pc := 0x04000000, mr := 0x04000100 }),
      (31, { st := .ready, pc := 0x04000000 })],
    cl := { cord1.cl with slot := 1, act := 3, xf := .jump [(0, 0x04000100), (1, 0x04000100)] } }

/-- A cord whose k11 is x and of which a thread waits on that register. -/
def waitingOn (x : Word) : Cord :=
  { cord1 with k := [(11, x)], threads := [(0, { st := .waiting 11 }), (1, { st := .exited }), (31, { st := .ready })] }

/-- Ends of a clause: of a cord between nothing and a choice, by yield and not; of threads that meet, all of the mask or one alone; of threads
that wait on k11, all that it names or not all; and a write of that register while a thread waits on it. -/
theorem witness_ClauseEndsAndWaking_meetings :
    (∀ xf ∈ [Transfer.none, .yield, .waitk 11, .exit],
      let s := { ev (.clauseEnd 1) with cord := { cord1 with cl := { cord1.cl with slot := 1, xf := xf } } }
      s.cordRec 1 = some s.cord ∧ s.clauseOver s.cord = true ∧ s.cord.resume = none ∧ s.cord.chosen = none ∧ s.cord.trap.v = false ∧
        s.cord.age ≤ s.fresh ∧ (∀ l < 32, (s.cord.thread l).mr = 0 ∧ (s.cord.thread l).st ≠ .held)) ∧
    (∀ jm, let s := { ev (.clauseEnd 1) with cord := meeting jm }
      s.cordRec 1 = some (meeting jm) ∧ (meeting jm).resume = none ∧ (meeting jm).trap.v = false) ∧
    ({ ev (.clauseEnd 1) with cord := meeting 3 } : State).clauseOver (meeting 3) = true ∧
    ({ ev (.clauseEnd 1) with cord := meeting 0x80000003 } : State).clauseOver (meeting 0x80000003) = true ∧
    (∀ l < 32, ((meeting 3).thread l).st = .ready ∨ ((meeting 3).thread l).st = .exited) ∧
    (∀ j < 32, bit (meeting 3).jm j = true → ((meeting 3).thread j).mr = 0x04000100) ∧
    (bit (meeting 0x80000003).jm 31 = true ∧ ((meeting 0x80000003).thread 31).live = true ∧ ((meeting 0x80000003).thread 31).mr = 0) ∧
    (∀ x, let s := { ev (.fixedLatencyWrite 1 [.k 11 x]) with cord := waitingOn x }
      s.findCord 1 = some (waitingOn x) ∧ (waitingOn x).cl.on = true ∧ ((waitingOn x).thread 0).st = .waiting 11) ∧
    (∀ j < 32, bit ((waitingOn 3).kreg 11) j = true → ((waitingOn 3).thread j).st = .exited ∨ ((waitingOn 3).thread j).st = .waiting 11) ∧
    ¬∀ j < 32, bit ((waitingOn 0x80000003).kreg 11) j = true →
      ((waitingOn 0x80000003).thread j).st = .exited ∨ ((waitingOn 0x80000003).thread j).st = .waiting 11 :=
  ⟨by decide +kernel, fun _ => ⟨rfl, rfl, rfl⟩, by decide +kernel, by decide +kernel, by decide +kernel, by decide +kernel, by decide +kernel, fun _ => ⟨rfl, rfl, rfl⟩,
    by decide +kernel, by decide +kernel⟩

/-- A format of each family, the least and the greatest encodings of TAP6 and their neighbours, a value between them, above and below them, and
leading places. -/
theorem witness_ConversionResults_formats :
    (15 < 16 ∧ fmtWidth 13 = 6 ∧ 63 < 2 ^ fmtWidth 13 ∧ 2 ^ fmtWidth 13 - 1 < 2 ^ fmtWidth 13) ∧ (31 + 1 ≤ 32 ∧ 0 + 32 ≤ 32) ∧
    ((8, 5, 10, (15 : Int), 0x7E00) ∈ [(8, 5, 10, (15 : Int), 0x7E00), (9, 8, 7, 127, 0x7FC0)]) ∧
    (pow2 (3 - 0) ≤ 8 * pow2 (0 - 3) ∧ 8 * pow2 (0 - 3) < 2 * pow2 ((3 : Int) - 0)) ∧
    (pow2 (-1 - 0) ≤ 1 * pow2 (0 - -1) ∨ True) ∧
    (Machine.Num.lt (decodeFmt 0 13 31) (.fin false 17 0) = true ∧ Machine.Num.lt (.fin false 1 (-5)) (decodeFmt 0 13 1) = true ∧
      Machine.Num.eq (.fin false 16 0) (decodeFmt 0 13 31) = true) ∧
    (30 + 1 < 2 ^ 5 ∧ Machine.Num.lt (decodeFmt 0 13 30) (.fin false 9 0) = true ∧ Machine.Num.lt (.fin false 9 0) (decodeFmt 0 13 31) = true ∧
      Machine.Num.lt (decodeFmt 0 12 0x7E) (.fin false 1 11) = true ∧ Machine.Num.lt (.fin false 1 11) (decodeFmt 0 12 0x7F) = true) ∧
    (0xFF % 2 ^ fmtWidth 15 = 255 ∧ 0x20 % 2 ^ fmtWidth 13 = 2 ^ 5) := by decide +kernel

/-- A cord with the eyelet y at e15. -/
def eye15 (y : Eyelet) : State := { base with cord := { cord1 with eyes := [(15, y)] } }

/-- An eyelet that is closed and one that is filling; the checks of tstv and erfr pass. -/
theorem witness_CloseQueryAndRefresh_stops :
    (∀ y ∈ [({ reason := .fill } : Eyelet), { st := .filling }],
      Form.check { lat := .i4, vecs := wrVecs (.s 2) 1 } (eye15 y) = none ∧ Form.check { lat := .v } (eye15 y) = none) ∧
    ((eye15 { reason := .fill }).cord.eye 15).st = .closed ∧ ((eye15 { st := .filling }).cord.eye 15).st = .filling := by
  refine ⟨?_, rfl, rfl⟩
  intro y h
  simp only [List.mem_cons, List.not_mem_nil, or_false] at h
  rcases h with rfl | rfl <;> exact ⟨rfl, rfl⟩

/-- A cord whose selectors in v10 are x in lane 31 and 0 below, with eyelet e2 in STATE st, writable or not. -/
def selecting (x : Word) (st : EyeState) (w : Bool) : State :=
  { opened with cord := { opened.cord with
      v := [(351, x)], eyes := [(2, { eye2 with st := st, w := w })] } }

/-- The lanes of an access through e2 whose highest has offset o. -/
def lanesAt (o : Nat) : List (Nat × Nat × Nat) := (List.range 31).map (fun l => (l, 2, 0)) ++ [(31, 2, o)]

/-- Selectors at both ends of the illegal range and at both neighbours; lanes that reach a closed, a filling and an open eyelet, with and
without W, at an offset that is misaligned, one past the line's end and one that fits. -/
theorem witness_EyeletAccesses_turned_away :
    (∀ x, (selecting x .opened true).cord.vreg 10 31 = x ∧ (selecting x .opened true).cord.vreg 10 0 = 0 ∧
      (selecting x .opened true).cord.vreg 10 30 = 0) ∧
    (¬(16 ≤ 15 ∧ 15 ≠ 255) ∧ (16 ≤ 16 ∧ 16 ≠ 255) ∧ (16 ≤ 254 ∧ 254 ≠ 255) ∧ ¬(16 ≤ 255 ∧ 255 ≠ 255)) ∧
    lanesOf opened.cord.act = List.range 31 ++ [31] ∧
    Form.check { lat := .l6, vecs := wrVecs (.v 8) 1 ++ [(10, 1)] } (selecting 16 .opened true) = none ∧
    Form.check { lat := .n, vecs := rdVecs (.v 4) 1 ++ [(10, 1)] } (selecting 16 .opened true) = none ∧
    (∀ st w, ((selecting 2 st w).cord.eye 2).st = st ∧ ((selecting 2 st w).cord.eye 2).w = w) ∧
    (∀ o ∈ [124, 126, 128], (lanesOf opened.cord.act).map (fun l => (l, 2, if l = 31 then o else 0)) = lanesAt o) ∧
    (First (lanesAt 126) (fun x => x.2.2 % 4 ≠ 0 ∨ 128 < x.2.2 + 4) (31, 2, 126) ∧
      First (lanesAt 128) (fun x => x.2.2 % 4 ≠ 0 ∨ 128 < x.2.2 + 4) (31, 2, 128)) ∧
    (¬∃ x ∈ lanesAt 124, x.2.2 % 4 ≠ 0 ∨ 128 < x.2.2 + 4) := by
  refine ⟨fun _ => ⟨rfl, rfl, rfl⟩, by decide, by decide +kernel, rfl, rfl, fun _ _ => ⟨rfl, rfl⟩, by decide +kernel,
    ⟨⟨(List.range 31).map (fun l => (l, 2, 0)), [], rfl, by decide +kernel, by decide +kernel⟩, ⟨(List.range 31).map (fun l => (l, 2, 0)), [], rfl, by decide +kernel, by decide +kernel⟩⟩,
    by decide +kernel⟩

/-- A refresh for which nothing is forced, since the eyelet is of no region; a form that is not yet due, and one that just is. -/
theorem witness_RefreshesReachTheirEyelets_due :
    (opened.cord.eye 2).rgn = 31 ∧
    ∀ d ∈ [100, 101],
      let o : Op := { tok := 7, left := 1, flag := some 0, due := d }
      let s := acquiring o (.acquireComplete 1 7 ⟨none, [], [], [], [(2, 7, false, half64), (2, 7, true, half64)], []⟩)
      Runs s 1 s.cord ∧ s.cord.ops.find? (·.tok == 7) = some o ∧ (s.cord.eye 2).rgn = 31 ∧ (o.due ≤ s.cycle ↔ d = 100) := by
  refine ⟨rfl, ?_⟩
  intro d h
  simp only [List.mem_cons, List.not_mem_nil, or_false] at h
  rcases h with rfl | rfl <;> exact ⟨⟨rfl, rfl⟩, rfl, rfl, by decide⟩

/-- An atomic on a line of the register window, that its lanes reach; and a region eyelet whose region is freed, is defined anew, or is the
one that it was opened in, with room for one more store and with none. -/
theorem witness_AtomicsAndVads_refused :
    (let s : State := { opened with cord := { opened.cord with eyes := [(2, { eye2 with pla := 0x3F0000000000 / 128 })] } }
     (s.cord.eye 2).w = true ∧ inWindow ((s.cord.eye 2).pla * 128) = true ∧ Reachable s ((lanesOf s.cord.act).map fun l => (l, 2, 124)) 4) ∧
    (opened.eyeRegion 1 eye2 = none ∧
     (sums false [] [] .reset).eyeRegion 1 { eye2 with rgn := 5, rgnGen := 1 } = none ∧
     ((sums false [] [] .reset).eyeRegion 1 { eye2 with rgn := 5 }).isSome = true) ∧
    255 < 255 + 1 ∧ ¬255 < 254 + 1 := by
  refine ⟨⟨rfl, rfl, ?_⟩, ⟨rfl, rfl, rfl⟩, by decide, by decide⟩
  unfold Reachable
  decide +kernel

/-- Two contexts that have joined one record on another device, and one whose region is its own. -/
def joined2 : State :=
  { base with ctxs := [{ id := 1, regions := [{ region5 false [] with phys := [2 ^ 54] }] },
      { id := 2, regions := [{ region5 false [] with n := 9, phys := [2 ^ 54] }, { region5 true [] with n := 4, phys := [0x20000] }] }] }

/-- The share of both is the first one's; the other's is its own; and a partial and T after an addition of 1.0 to 2^24, rounded to even and up. -/
theorem witness_WithheldSums_shares :
    (joined2.region 2 9).isSome = true ∧ joined2.masterAway [2 ^ 54] ≠ none ∧ joined2.shareKey 2 9 = (1, 5) ∧ joined2.shareKey 1 5 = (1, 5) ∧
    joined2.masterAway [0x20000] = none ∧ joined2.shareKey 2 4 = (2, 4) ∧ (joined2.region 2 4).map (·.closing) = some true ∧
    addPartial 0x4B800000 0x4B800000 0x3F800000 = (0x4B800000, 0x4B800000) ∧
    addPartial 0x4B800000 0x4B800000 0x3FC00000 = (0x4B800001, 0x4B800001) := by decide +kernel

/-- Offsets of which the second is misaligned by one, is the first past the end, and lies in a ring control block or just below it; the bank of
one word and of three lanes' words in one bank; BA without and with rings. -/
theorem witness_PillowAccess_refused :
    let m : Motif := { motif1 with pb := 4096, copies := 0, rings := [(0, { dcl := true })] }
    First [16, 17] (fun o => true = true ∧ o % 16 ≠ 0) 17 ∧ First [4080, 4096] (fun o => m.pb < o + 16) 4096 ∧
    First [3952, 3968] (fun o => Taken m o 16) 3968 ∧ m.hasRings = true ∧
    ({ motif1 with pb := 4096 }.ba = some 2032 ∧ { m with copies := 1 }.ba = some 1904) ∧
    (Taken { motif1 with pb := 4096 } (2032 + 0x80F) 1 ∧ ¬Taken { motif1 with pb := 4096 } (2032 + 0x7FF) 1) ∧
    bankLoad [0] 4 = 1 ∧ bankLoad [0, 128, 256, 0] 4 = 3 ∧ bankLoad [] 4 = 0 := by
  refine ⟨⟨[16], [], rfl, by decide, by decide⟩, ⟨[4080], [], rfl, by decide, by decide⟩, ⟨[3952], [], rfl, ?_, ?_⟩, by decide, by decide, ?_,
    by decide, by decide, by decide⟩
  · exact Or.inl ⟨by decide, by decide, by decide⟩
  · intro y h
    simp only [List.mem_singleton] at h
    subst h
    rintro (h | ⟨x, h, -⟩)
    · exact absurd h.2.2 (by decide)
    · exact absurd h (by simp [Motif.ba])
  · refine ⟨Or.inr ⟨2032, by decide, by decide, by decide⟩, ?_⟩
    rintro (h | ⟨x, h, h1, h2⟩)
    · exact absurd h.1 (by decide)
    · have e : ({ motif1 with pb := 4096 } : Motif).ba = some 2032 := by decide
      obtain rfl : 2032 = x := Option.some.inj (e.symm.trans h)
      exact absurd h2 (by decide)

/-- A barrier whose phase has a count and one that has none, a cord that has arrived and one that has not; and a peer motif that is saved and
whose cluster's buffer is full, or has one place. -/
theorem witness_BarriersAndReleases_refused :
    (Form.check { lat := .n } base = none ∧ Form.check { lat := .n, vecs := rdVecs (.s 4) 1 } base = none) ∧
    (let b : Machine.Bar := { exp := 4, am := 0 }
     bit b.am cord1.idx = false ∧ b.exp ≠ 0 ∧ (3 : Imm).toNat ≠ b.exp ∧ (0 : Imm).toNat = 0 ∧ bit ({ b with am := 1 } : Machine.Bar).am cord1.idx = true ∧
     ({} : Machine.Bar).exp = 0) ∧
    ∀ k ∈ [63, 64],
      let m : Motif := { motif1 with mid := 2, idx := 1, status := .saved, shadow := [(3, { exp := 2 })] }
      let s : State := { base with motifs := [m], cord := { cord1 with s := [(4, 1)] }, peers := List.replicate k ⟨0, 2, 3, 2⟩ }
      m ∈ s.motifs ∧ m.queue = s.motif.queue ∧ m.idx = (s.cord.once (.s 4)).toNat ∧ m.core / 16 = s.cord.core / 16 ∧ m.status = .saved ∧
        (SMap.get {} m.shadow 3).exp = 2 ∧ (64 ≤ s.bufferUse (s.cord.core / 16) ↔ k = 64) := by
  refine ⟨⟨rfl, rfl⟩, by decide, ?_⟩
  intro k h
  simp only [List.mem_cons, List.not_mem_nil, or_false] at h
  rcases h with rfl | rfl <;> exact ⟨by decide, rfl, rfl, rfl, rfl, rfl, by decide +kernel⟩

/-- Rings that are not declared, of another role, and whose slot is in another state, of another phase or of another cord; a chain while another
runs; descriptors that are legal and that are not. -/
theorem witness_RingsAndChain_refused :
    (let s : State := { base with cord := { cord1 with role := 1 } }
     Form.check { lat := .i4, vecs := wrVecs (.s 8) 1 } s = none ∧ Form.check { lat := .n, vecs := rdVecs (.s 4) 1 } s = none ∧
     (s.motif.ring 4).dcl = false) ∧
    (∀ st ∈ [0, 1, 2], ∀ role ∈ [1, 2],
      let s := ring4 st role [] .reset
      (s.motif.ring 4).dcl = true ∧ SMap.get 0 (s.motif.ring 4).st 0 = st ∧ (s.cord.role ≠ (s.motif.ring 4).prod ↔ role = 2) ∧
        (s.cord.role ≠ (s.motif.ring 4).cons ↔ role = 1)) ∧
    (let s : State := { base with cord := { cord1 with chain := true }, motif := chainPil }
     Form.check { lat := .v, vecs := rdVecs .zero 1 } s = none ∧ s.cord.chain = true) := by
  refine ⟨⟨rfl, rfl, rfl⟩, by decide +kernel, rfl, rfl⟩

/-- A copy of b bytes between pillow offset o and address a, and one within memory to address c. -/
def copy5 (b o a c : Word) (top : Word) (within : Bool) : Cmd := [if within then 0x08000000 else 0, b, o, 0, a, top, c, if within then top else 0]

/-- Commands at each boundary of the checks of R251: a KIND that there is not, an offset that is no multiple of 16, one byte more than BA, one more than
2^64, and ranges that touch by 16 bytes; next to each, one that passes. -/
theorem witness_BobbinCommands_checks :
    Cmd.check [0x80000000, 16, 0, 0, 0x10000, 0, 0, 0] 1024 = 1 ∧ Cmd.check [0x70000000, 0x10010, 0, 8, 0x10000, 0, 0x10000, 0] 1024 ≠ 1 ∧
    Cmd.check (copy5 16 8 0x10000 0 0 false) 1024 = 3 ∧ Cmd.check (copy5 16 1024 0x10000 0 0 false) 1024 = 2 ∧
    Cmd.check (copy5 16 1008 0x10000 0 0 false) 1024 = 0 ∧ Cmd.check (copy5 32 0 0xFFFFFFF0 0 0xFFFFFFFF false) 1024 = 5 ∧
    Cmd.check (copy5 16 0 0xFFFFFFF0 0 0xFFFFFFFF false) 1024 = 0 ∧ Cmd.check (copy5 32 0 0x10000 0x10010 0 true) 1024 = 4 ∧
    Cmd.check (copy5 32 0 0x10000 0x10020 0 true) 1024 = 0 ∧ Cmd.check gather1.w 2032 = 0 := by decide

/-- The take of a command that passes: a gather, and a copy from memory, to memory and within pillow. -/
theorem witness_BobbinCommands_begin :
    ∀ pil ∈ [([(2035, 0x20), (2036, 16), (2038, 1), (2044, 8), (2050, 1), (2058, 1)] : SMap Byte), [(2036, 16), (2050, 1)],
        [(2035, 4), (2036, 16), (2050, 1)], [(2035, 0x0C), (2036, 16), (2044, 32)]],
      let m : Motif := { motifB with pil := pil }
      let s : State := { ev (.bobbinTake 0) with motif := m }
      let w : List Word := (List.range 8).map fun i => BitVec.ofNat 32 (leNat ((List.range 4).map fun k => SMap.get 0 m.pil (2032 + 0x20 * (0 % 64) + 4 * i + k)))
      s.bobPick 0 = some m ∧ m.replays = [] ∧ m.pubs = [⟨0, 1, 1⟩] ∧ m.ba = some 2032 ∧ Cmd.check w 2032 = 0 ∧
        (pil.length = 6 → (w.getD 0 0).toNat / 2 ^ 28 = 2) ∧ (pil.length = 2 → (w.getD 0 0).toNat = 0) := by decide +kernel

/-- Completions with an arrival at a barrier that fits it, that completes it and that another count mismatches; and one that failed with code 10,
of a copy cord that lives. -/
theorem witness_BobbinCommands_completion :
    (∀ b ∈ [({} : Machine.Bar), { exp := 2, arr := 1 }, { exp := 3 }],
      let e : JEntry := { gather1 with w := 0x20802000 :: gather1.w.tail, complete := true }
      let m : Motif := { motifB with bars := [(0, b)] }
      let s : State := { ev (.bobbinCompletionRecord 1) with motif := m, cores := [{ core1 with journal := [e] }] }
      let w0 := (e.w.getD 0 0).toNat
      s.findMotif 1 = some m ∧ s.recordable m = some e ∧ (w0 / 2 ^ 23 % 2 = 1 ∧ w0 / 2 ^ 12 % 128 = 2) ∧ m.bar (w0 / 2 ^ 19 % 16) = b ∧
        s.cmd 0 3 = some e) ∧
    (let e : JEntry := { gather1 with fault := 10, complete := true }
     let s : State := { launched [pattern1 0x10000000 .running] (.bobbinCompletionRecord 1) with
       motif := motifB, cord := { cord1 with role := 0 }, cores := [{ core1 with journal := [e] }] }
     s.recordable motifB = some e ∧ Runs s 1 s.cord ∧ s.cord.mid = motifB.mid ∧ s.cord.idx < 32 ∧ e.pub.cord = 1 ∧
       s.patternOf motifB.queue = some (pattern1 0x10000000 .running)) := by
  refine ⟨?_, rfl, ⟨rfl, rfl⟩, rfl, by decide, rfl, rfl⟩
  decide +kernel

/-- A half-line that a drain of the cord still owes, and one that nothing owes; the cord's own release that holds a word of it. -/
theorem witness_TambourEvents_fetch :
    (let f : TForm := { form6 (.azero 0) .queued with need := [0x800] }
     let s := tamb f (.tileFetchLine 0 6 0x800 (some []))
     s.readWaits f.cord f.q (0x800 / 2) = false) ∧
    drainAhead.readWaits 1 9 (0x800 / 2) = true := by decide +kernel

/-- Numbers that are listed and their neighbours that are not; the checks of a read and of a write of each. -/
theorem witness_TrapsAndControlRegisters_unlisted :
    let listed := [0x001, 0x010, 0x011, 0x020, 0x030, 0x031, 0x032, 0x033, 0x040, 0x041, 0x050, 0x051, 0x052, 0x053, 0x054, 0x055,
      0x060, 0x061, 0x070, 0x071, 0xC00]
    (∀ n ∈ [0x000, 0x002, 0x012, 0x034, 0x042, 0x056, 0x062, 0x072, 0xC01, 0xFFF], n ∉ listed) ∧ (0xC00 ∈ listed ∧ 0x001 ∈ listed) ∧
    Form.check { lat := .i4, vecs := wrVecs (.s 28) 1 } base = none ∧ Form.check { lat := .i4, vecs := rdVecs (.v 4) 1, priv := true } base = none := by
  refine ⟨by decide, by decide, rfl, rfl⟩

/-- A tlbi whose B has a bit of the reserved field; the completion of a dtld whose cord is gone; a blocked cord's barrier that has stood since the last
reading, and one that has changed. -/
theorem witness_TranslationAndKnots_kinds :
    (let s : State := { base with cord := { cord1 with s := [(4, 0x4000)] } }
     Form.check { lat := .v, vecs := rdVecs (.s 4) 1 ++ rdVecs .zero 1, priv := true } s = none ∧ s.cord.once64 (.s 4) .zero / 2 ^ 14 % 4 ≠ 0) ∧
    (let s : State := { ev (.dtldComplete 1 0 (some 0x20000) 0 1) with cord := {}, motif := {} }
     s.now = some (.dtldComplete 1 0 (some 0x20000) 0 1) ∧ s.findCord 1 = none) ∧
    (knotted.findMotif 1).isSome = true ∧ ((⟨1, 2, 0⟩ : Blk).named = some (0, 2) ∧ (0, 2) ∈ knotted.motif.watch ∧ (0, 3) ∉ knotted.motif.watch) ∧
    knotted.cord.issuedAt < knotted.knotAt := by
  refine ⟨⟨rfl, by decide +kernel⟩, ⟨rfl, rfl⟩, rfl, ⟨rfl, by decide, by decide⟩, by decide⟩

/-- A fill of a line of the register window, of a device in calibration. -/
theorem witness_ReseauResults_window :
    let line := 0x3F0000000000 / 128
    let s : State := boot .calib (.remoteNotice (.fill 5 0 line true none none))
    s.dev.st ≠ .off ∧ s.dev.st ≠ .tripped ∧ s.dev.working = false ∧ inWindow (line * 128) = true ∧ s.isLocal (line * 128) = true ∧
      s.readFails line = none ∧ inWindow (0x400 * 128) = false := by decide +kernel

end Sys2Proof.Tests
end

section
/-! SUPPORT. What the checks of a form come to, and what an instruction does when its form fails one (R343). -/

namespace Sys2Proof.Machine

open Claims

/-! The checks of a form, each by what it asks. -/

/-- A V form stands in a slot that has a completion flag (R48). -/
def Form.Flagged (f : Form) (c : Cord) : Prop := f.lat = .v → c.slotFlag ≠ none

/-- The cord owns each vector register that the form names (R96). -/
def Form.Owned (f : Form) (c : Cord) : Prop := ∀ x ∈ f.vecs, c.wb + x.1 + x.2 ≤ c.regs + 16 * c.xblk

/-- The form is of the cord's role, or of any (R13). -/
def Form.Fits (f : Form) (c : Cord) : Prop := ∀ r, f.role = some r → r = c.role

/-- A form that needs all 32 lanes has them (R95). -/
def Form.Full (f : Form) (c : Cord) : Prop := f.whole = true → c.act = 0xFFFFFFFF

/-- A privileged form stands in a context with SYS (R352). -/
def Form.Allowed (f : Form) (s : State) : Prop := f.priv = true → (s.ctxOf s.cord.ctx).sys = true

/-- The flag has room for a V form (R81), and the unit that the form occupies is free (R121). -/
def Form.Idle (f : Form) (s : State) : Prop :=
  (f.lat = .v → s.cord.flagOf s.cord.flag.val < 63) ∧
  (∀ n, f.unit = .vec n → SMap.get 0 (s.coreOf s.cord.core).vecFree s.cord.slot ≤ s.cycle) ∧
  (f.unit = .net → SMap.get 0 (s.coreOf s.cord.core).xchFree s.cord.slot ≤ s.cycle)

theorem owns_iff (f : Form) (c : Cord) : c.owns f.vecs = true ↔ f.Owned c := by
  rw [Cord.owns, List.all_eq_true]
  exact forall₂_congr fun _ _ => decide_eq_true_iff

theorem fits_iff (f : Form) (c : Cord) : ¬(f.role.isSome = true ∧ f.role ≠ some c.role) ↔ f.Fits c := by
  cases h : f.role <;> simp [Form.Fits, h]

open Classical in
/-- The checks are tested in the order of R343, and the first that fails says what becomes of the form. -/
theorem check_eq (f : Form) (s : State) :
    f.check s =
      if ¬f.Flagged s.cord then some (.trap .flagAbsent s.cord.word)
      else if ¬f.Owned s.cord then some (.trap .regIllegal s.cord.word)
      else if ¬f.Fits s.cord then some (.trap .roleBad s.cord.word)
      else if ¬f.Full s.cord then some (.trap .convIllegal (s.cord.act.setWidth 64))
      else if ¬f.Allowed s then some (.trap .priv s.cord.word)
      else if ¬f.Idle s then some (.stall {} s)
      else none := by
  unfold Form.check
  dsimp only
  refine if_congr (by simp [Form.Flagged]) rfl <| if_congr (by simp [← owns_iff]) rfl <|
    if_congr (by rw [← fits_iff, not_not]) rfl <| if_congr (by simp [Form.Full]) rfl <|
    if_congr (by simp [Form.Allowed, State.sys]) rfl ?_
  unfold Form.Idle
  by_cases hv : f.lat = .v ∧ 63 ≤ s.cord.flagOf s.cord.flag.val
  · rw [if_pos hv, if_pos fun h => absurd (h.1 hv.1) (Nat.not_lt.2 hv.2)]
  · have room : f.lat = .v → s.cord.flagOf s.cord.flag.val < 63 := by simpa using hv
    rw [if_neg hv, and_iff_right room]
    cases hu : f.unit <;> simp

theorem check_none_iff (f : Form) (s : State) :
    f.check s = none ↔
      f.Flagged s.cord ∧ f.Owned s.cord ∧ f.Fits s.cord ∧ f.Full s.cord ∧ f.Allowed s ∧ f.Idle s := by
  rw [check_eq]
  split_ifs <;> simp_all

/-- A form that its checks stop raises a cause, or stalls with the state as it was. -/
theorem check_stops {f : Form} {s : State} {r : Res} (h : f.check s = some r) :
    (∃ k info, r = .trap k info) ∨ r = .stall {} s := by
  rw [check_eq] at h
  split_ifs at h <;> cases h <;> simp

section

variable {f : Form} {s : State}

theorem check_of_not_flagged (h : ¬f.Flagged s.cord) : f.check s = some (.trap .flagAbsent s.cord.word) := by
  simp [check_eq, h]

theorem check_of_not_owned (hf : f.Flagged s.cord) (h : ¬f.Owned s.cord) : f.check s = some (.trap .regIllegal s.cord.word) := by
  simp [check_eq, hf, h]

theorem check_of_not_fits (hf : f.Flagged s.cord) (ho : f.Owned s.cord) (h : ¬f.Fits s.cord) :
    f.check s = some (.trap .roleBad s.cord.word) := by
  simp [check_eq, hf, ho, h]

theorem check_of_not_full (hf : f.Flagged s.cord) (ho : f.Owned s.cord) (hr : f.Fits s.cord) (h : ¬f.Full s.cord) :
    f.check s = some (.trap .convIllegal (s.cord.act.setWidth 64)) := by
  simp [check_eq, hf, ho, hr, h]

theorem check_of_not_allowed (hf : f.Flagged s.cord) (ho : f.Owned s.cord) (hr : f.Fits s.cord) (hw : f.Full s.cord)
    (h : ¬f.Allowed s) : f.check s = some (.trap .priv s.cord.word) := by
  simp [check_eq, hf, ho, hr, hw, h]

theorem check_of_not_idle (hf : f.Flagged s.cord) (ho : f.Owned s.cord) (hr : f.Fits s.cord) (hw : f.Full s.cord) (ha : f.Allowed s)
    (h : ¬f.Idle s) : f.check s = some (.stall {} s) := by
  simp [check_eq, hf, ho, hr, hw, ha, h]

/-- Privilege is tested before the flag's room and the unit, so a privileged form that passes every other check traps in a
context without SYS (R352). -/
theorem check_of_no_sys (hp : f.priv = true) (hs : (s.ctxOf s.cord.ctx).sys = false)
    (h : Form.check { f with priv := false } s = none) : f.check s = some (.trap .priv s.cord.word) := by
  obtain ⟨hf, ho, hr, hw, -, -⟩ := (check_none_iff _ s).1 h
  exact check_of_not_allowed hf ho hr hw (by simp [Form.Allowed, hp, hs])

end

/-- The flag nibble of the slot in the clause's header (R41, R48): 15 is no flag, and a number below 12 is that flag. -/
theorem slotFlag_eq (c : Cord) :
    c.slotFlag = finOf 12 (c.cl.hdr.toNat / 2 ^ (if c.cl.slot < 4 then 13 else 9) % 16) := by
  unfold Cord.slotFlag hdrFlag finOf fld
  split <;> simp [Nat.shiftRight_eq_div_pow]

/-! An instruction and the form that its checks are of. -/

/-- Outcome e in state s is that of a form f which, when a check stops it, settles as the check says and does nothing else. -/
def Gated (f : Form) (s : State) (e : Out) : Prop := ∀ r, f.check s = some r → e = .next (f.settle s r)

/-- An outcome that settles the check, where it stops the form, and some result of the form's own otherwise. -/
theorem gated_of_eq {f : Form} {s : State} {e : Out} (r : Res) (h : e = .next (f.settle s ((f.check s).getD r))) : Gated f s e := by
  intro q hq
  rw [h, hq, Option.getD_some]

/-- A collective ends its call at once only when the form issues, so a form that its checks stop is settled alone. -/
theorem gated_runColl (f : Form) (x : CollCall) (s : State) (body : State → Res) : Gated f s (runColl f x s body) := by
  intro r h
  obtain ⟨k, info, rfl⟩ | rfl := check_stops h <;> simp only [runColl, h, Option.getD_some]

/-- The status that a launch writes at once is also only of a form that issues. -/
theorem gated_launch (d : Wr) (a b : Rd) (s : State) :
    Gated { lat := .v, vecs := wrVecs d 1 ++ rdVecs a 1 ++ rdVecs b 1 } s (execLaunch d a b s) := by
  intro r h
  obtain ⟨k, info, rfl⟩ | rfl := check_stops h <;> simp only [execLaunch, h, Option.getD_some]

/-- The offset register that an atomic names, in the terms of its form and of its run. -/
theorem atomOff_vecs (lit : Word) :
    ((atomOff lit).map fun r => rdVecs r 1).getD [] = match atomOff lit with | some r => rdVecs r 1 | none => [] := by
  cases atomOff lit <;> rfl

theorem csrPriv_eq (n : Nat) : csrPriv n = [0x060, 0x061, 0x070, 0x071].contains n := by
  rw [Bool.eq_iff_iff]
  simp [csrPriv, or_assoc]

/-- What each instruction word does begins with the checks of its form: but for the launch and the collectives, its outcome is
that of `runForm` by definition. -/
theorem exec_gated {i : Instr} {f : Form} (s : State) (h : formOf i = some f) : Gated f s (exec i s) := by
  cases i with
  | launch d a b => cases h; exact gated_launch d a b s
  | ared d a b lit =>
    cases h
    change Gated _ s (execAred d a b lit s)
    unfold execAred
    exact gated_runColl _ _ s _
  | acol a b lit =>
    cases h
    change Gated _ s (execAcol a b lit s)
    unfold execAcol
    exact gated_runColl _ _ s _
  | atom _ _ _ lit | atomcas _ _ _ lit | atomred _ _ lit => cases h; rw [atomOff_vecs]; exact gated_of_eq _ rfl
  | csrw _ lit | csrs _ lit | csrc _ lit => cases h; rw [← csrPriv_eq]; exact gated_of_eq _ rfl
  | _ => cases h <;> exact gated_of_eq _ rfl

/-- The instruction words have a form, and the events none. -/
theorem isSome_formOf (i : Instr) : (formOf i).isSome = i.enc.isSome := by
  cases i <;> rfl

/-- The forms that need the system privilege (R352): halt, tlbi, the read of blkst, and the writes of a context's registers. -/
def privileged : Instr → Bool
  | .halt | .tlbi _ _ => true
  | .csrr _ lit => lit.toNat % 2 ^ 12 == 0x020
  | .csrw _ lit | .csrs _ lit | .csrc _ lit => [0x060, 0x061, 0x070, 0x071].contains (lit.toNat % 2 ^ 12)
  | _ => false

theorem formOf_priv {i : Instr} {f : Form} (h : formOf i = some f) : f.priv = privileged i := by
  cases i <;> cases h <;> rfl

theorem privileged_iff (i : Instr) :
    privileged i = true ↔ i = .halt ∨ (∃ a b, i = .tlbi a b) ∨ (∃ d lit, i = .csrr d lit ∧ lit.toNat % 2 ^ 12 = 0x020) ∨
      ∃ a lit, (i = .csrw a lit ∨ i = .csrs a lit ∨ i = .csrc a lit) ∧ lit.toNat % 2 ^ 12 ∈ [0x060, 0x061, 0x070, 0x071] := by
  constructor
  · unfold privileged
    split <;> simp
  · rintro (rfl | ⟨a, b, rfl⟩ | ⟨d, lit, rfl, h⟩ | ⟨a, lit, rfl | rfl | rfl, h⟩) <;> simp_all [privileged]

end Sys2Proof.Machine

namespace Sys2Proof

open Machine Claims

/-- Settles O6: the order of the checks is `check_eq`, and what a form that fails one does is `exec_gated`, over every instruction. -/
theorem formChecksPassExactly : Obligations.FormChecksPassExactly := by
  unfold Obligations.FormChecksPassExactly
  refine ⟨fun f s => ?_, fun c => ⟨fun h => ?_, fun h => ?_⟩, fun i => ?_, fun i f s hf => ⟨?_, fun b u h => ?_, ?_, ?_⟩⟩
  · exact ⟨check_none_iff f s, check_of_not_flagged, check_of_not_owned, check_of_not_fits, check_of_not_full,
      check_of_not_allowed, check_of_not_idle⟩
  · rw [slotFlag_eq, h]; rfl
  · exact ⟨⟨_, h⟩, by rw [slotFlag_eq, finOf, dif_pos h], rfl⟩
  · rw [← isSome_formOf, Option.isSome_iff_exists]
  · exact fun k info h => exec_gated s hf _ h
  · obtain ⟨k, info, hr⟩ | hr := check_stops h
    · cases hr
    · cases hr; exact exec_gated s hf _ h
  · rw [formOf_priv hf, privileged_iff]
  · exact fun hp h hs => exec_gated s hf _ (check_of_no_sys hp hs h)

end Sys2Proof
end

section
/-! The round trip over every instruction (R42 to R44, R49, R51), from the lemma of each under Laws/PerInstr. -/

namespace Sys2Proof.Machine

/-- The lowest byte comes first, and the others hold what is left (R21). -/
theorem leBytes_succ (x n : Nat) : leBytes x (n + 1) = BitVec.ofNat 8 x :: leBytes (x / 256) n := by
  have h : ∀ i, x >>> (8 * (i + 1)) = (x / 256) >>> (8 * i) := fun i => by
    rw [Nat.mul_succ, Nat.add_comm, Nat.shiftRight_add, Nat.shiftRight_eq_div_pow x 8]
  simp [leBytes, List.range_succ_eq_map, h]

/-- Little-endian bytes hold the number that they were made of, up to their width (R21). -/
theorem leNat_leBytes (x n : Nat) : leNat (leBytes x n) = x % 2 ^ (8 * n) := by
  induction n generalizing x with
  | zero => simp [leBytes, leNat, Nat.mod_one]
  | succ n ih =>
    have hp : 2 ^ (8 * (n + 1)) = 256 * 2 ^ (8 * n) := by rw [Nat.mul_succ, pow_add]; omega
    rw [leBytes_succ, leNat, ih, hp, Nat.mod_mul, BitVec.toNat_ofNat]

@[simp] theorem length_leBytes (x n : Nat) : (leBytes x n).length = n := by simp [leBytes]

/-- The four bytes of a word in memory order read back as the word (R21). -/
@[simp] theorem ofNat_leNat_leBytes_toNat (w : Word) : BitVec.ofNat 32 (leNat (leBytes w.toNat 4)) = w := by
  rw [leNat_leBytes, Nat.mod_eq_of_lt w.isLt, BitVec.ofNat_toNat, BitVec.setWidth_eq]

end Sys2Proof.Machine

namespace Sys2Proof

open Machine

/-- An instruction word without its L bit stands alone in memory (R42). -/
theorem decodeBytes_word {w : Word} (rest : List Byte) (h : bit w 0 = false) :
    decodeBytes (leBytes w.toNat 4 ++ rest) = some (decode w none, rest) := by
  simp [decodeBytes, h]

/-- An instruction word with its L bit takes the word after it as its literal (R42). -/
theorem decodeBytes_word_lit {w : Word} (x : Word) (rest : List Byte) (h : bit w 0 = true) :
    decodeBytes (leBytes w.toNat 4 ++ (leBytes x.toNat 4 ++ rest)) = some (decode w (some x), rest) := by
  simp [decodeBytes, h]

/-- The L bit of an encoded word is set just where a literal follows it, whatever the fields hold (R42). -/
theorem Enc.bit_word_zero (e : Enc) : bit e.word 0 = e.lit.isSome := by
  rw [bit, Enc.word, BitVec.getLsbD_ofNat, Nat.testBit_zero]
  cases e.lit <;> simp <;> omega

/-- Fields in memory order decode as their word and literal do, with what follows them left over (R42). -/
theorem Enc.decodeBytes_words (e : Enc) (rest : List Byte) :
    decodeBytes ((e.word :: e.lit.toList).flatMap (fun w => leBytes w.toNat 4) ++ rest) = some (decode e.word e.lit, rest) := by
  have h := e.bit_word_zero
  cases hl : e.lit with
  | none => simpa using decodeBytes_word rest (h.trans (by rw [hl]; rfl))
  | some x => simpa using decodeBytes_word_lit x rest (h.trans (by rw [hl]; rfl))

namespace Laws.RoundTrip

/-- Every instruction that has a word decodes from it, each by the lemma of its constructor; an event has no word. -/
theorem of_isSome_enc {i : Instr} (h : i.enc.isSome = true) : Statement i := by
  cases i <;> cases h <;> simp only [
    nop, bra, brk, brz, brnz, jmp, call, ret, meet, join, leave, waitk, kset, kmov, kand, kor, kxor, knot, kpop, elect, exit, yield,
    sleep, winb, xacq, xrel, add, sub, mul, mulh, mad, neg, abs, min, max, minu, maxu, and, or, xor, not, andn, shl, shr, sar, rot,
    popc, clz, ctz, brev, bfx, bfi, prmt, sel, cmp, cmpv, mov, movl, lea, divu, divs, remu, rems, addc, addImm, subImm, mulImm, minImm,
    maxImm, minuImm, maxuImm, andImm, orImm, xorImm, shlImm, shrImm, sarImm, rotImm, fadd, fsub, fmul, ffma, fmin, fmax, fneg, fabs,
    fcmp, fclass, frnd, fdiv, frcp, frsq, fsqrt, fexp2, flog2, fsin, fcos, ftanh, dadd, dsub, dmul, dfma, dmin, dmax, dcmp, ddiv, dsqrt,
    hadd2, hmul2, hfma2, shfl, shfld, vote, redu, scan, chain, fpcr, fpcw, fpcs, fpcc, cvt, cvtsc, pack, unpk, scfind, tclass, openLine,
    openAcq, openf, close, eqry, erfr, ldl, ldlReg, ldlAcq, ldlAcqReg, ldlx, ldlxReg, stl, stlReg, stlRel, stlRelReg, stlx, stlxReg,
    lock, unlk, prefl, waitcLd, waitcSt, atom, atomcas, atomred, sealBatch, waitb, flushr, disc, tstv, openv, bsdef, bsfree, opent,
    vads, bsdrn, bsqry, ldp, ldpWfTake, ldpWfPeek, stp, feset, feclr, feqry, bara, barw, barx, barq, sracq, srpub, srwait, srfree,
    srqry, peerarr, tdset, tdmod, tdq, azero, ald, ast, aprom, acvt, mma, mmaAcc, mmas, mmast, amaxu, arsc, adrn, cmpr, mtchk, launch,
    post, phadv, idend, trap, rte, csrr, csrw, csrs, csrc, bobq, dtld, tlbi, brkpt, halt, ared, acol, rsig]

end Laws.RoundTrip

/-- Settles O55: the bytes give back word and literal (`Enc.decodeBytes_words`), and these decode to the instruction
(`Laws.RoundTrip.of_isSome_enc`). -/
theorem encodeDecodeRoundTrip : Obligations.EncodeDecodeRoundTrip := by
  unfold Obligations.EncodeDecodeRoundTrip
  intro i rest hs hw
  obtain ⟨e, he⟩ := Option.isSome_iff_exists.1 hs
  rw [encode, he]
  dsimp only
  rw [e.decodeBytes_words, Laws.RoundTrip.of_isSome_enc hs e he hw]

/-- Settles O56: each word is read field by field. -/
theorem manualWordsDecode : Obligations.ManualWordsDecode := by
  unfold Obligations.ManualWordsDecode
  exact ⟨rfl, rfl, rfl, rfl, rfl, rfl⟩

end Sys2Proof
end

section
/-! The start of a clause: what a cord's view, target and header come to, and the cases of `State.tryStart` (R82, R349, R360). -/

namespace Sys2Proof.Machine

/-! Masks of lanes. -/

theorem bit_or_shift (m : Word) (k : Nat) {l : Nat} (hl : l < 32) : bit (m ||| ((1 <<< k : Nat) : Word)) l = (bit m l || l == k) := by
  have h : bit ((1 <<< k : Nat) : Word) l = (l == k) := by
    rw [bit, BitVec.natCast_eq_ofNat, BitVec.getLsbD_ofNat, Nat.one_shiftLeft, Nat.testBit_two_pow, decide_eq_true hl, Bool.true_and,
      Bool.beq_eq_decide_eq, decide_eq_decide, eq_comm]
  rw [bit, BitVec.getLsbD_or, ← bit, ← bit, h]

/-- The mask of a list of lanes has just these. -/
theorem bit_maskOf (ls : List Nat) {l : Nat} (hl : l < 32) : bit (maskOf ls) l = ls.contains l := by
  have h : ∀ m : Word, bit (ls.foldl (fun m k => m ||| (1 <<< k : Nat)) m) l = (bit m l || ls.contains l) := by
    induction ls with
    | nil => simp
    | cons k ls ih => intro m; rw [List.foldl_cons, ih, bit_or_shift m k hl, List.contains_cons, Bool.or_assoc]
  rw [maskOf, h]; simp [bit]

/-- A lane is in the mask of the lanes for which p holds when p holds for it. -/
theorem bit_maskWhere (p : Nat → Bool) {l : Nat} (hl : l < 32) : bit (maskWhere p) l = p l := by
  rw [maskWhere, bit_maskOf _ hl, Bool.eq_iff_iff]; simp [hl]

theorem ready_iff (t : Thread) : t.ready = true ↔ t.st = .ready ∧ t.parked = false := by
  simp [Thread.ready]

/-- The group at an address: its ready threads that stand there (R79). -/
theorem bit_groupAt (c : Cord) (pc : Dword) {l : Nat} (hl : l < 32) :
    bit (c.groupAt pc) l = true ↔ ((c.thread l).st = .ready ∧ (c.thread l).parked = false) ∧ (c.thread l).pc = pc := by
  rw [Cord.groupAt, bit_maskWhere _ hl, Bool.and_eq_true, ready_iff, beq_iff_eq]

/-! The view of a cord that was saved inside a clause (R360). -/

theorem view_of_not_refetch {c : Cord} (h : c.refetch = false) : c.view = c := by simp [Cord.view, h]

/-- A cord saved inside a clause goes on from its resume point, past the last slot where only the end of the clause is left (R360). -/
theorem view_resume_of_refetch {c : Cord} (h : c.refetch = true) (hw : c.wait = .none) :
    c.view.resume = some ⟨if hdrCount c.cl.hdr < c.cl.slot then 8 else c.cl.slot, c.cl.xf, c.cl.act, c.cl.hdrA, c.cl.ft⟩ := by
  simp [Cord.view, h, hw]

section
variable (c : Cord)
@[simp] theorem view_wait : c.view.wait = c.wait := by unfold Cord.view; split <;> rfl
@[simp] theorem view_fetched : c.view.fetched = c.fetched := by unfold Cord.view; split <;> rfl
@[simp] theorem view_thread (l : Nat) : c.view.thread l = c.thread l := by unfold Cord.view; split <;> rfl
@[simp] theorem view_flagOf (f : Nat) : c.view.flagOf f = c.flagOf f := by unfold Cord.view; split <;> rfl
end

/-! The WAIT field of a header (R82). -/

theorem of_waitFlag_some {c : Cord} {h : Word} {f : Nat} (hf : c.waitFlag h = some f) :
    f < 12 ∧ hdrWait h f = true ∧ c.flagOf f ≠ 0 := by
  have hp := List.find?_some hf
  have hm := List.mem_of_find?_eq_some hf
  simp at hp hm
  exact ⟨hm, hp⟩

theorem waitFlag_eq_none {c : Cord} {h : Word} :
    c.waitFlag h = none ↔ ∀ f < 12, hdrWait h f = true → c.flagOf f = 0 := by
  simp [Cord.waitFlag]

/-! The header at which a cord waits (R54). -/

/-- A header that was kept with its word and table is not fetched again (R54). -/
theorem header_of_fetched {s : State} {c : Cord} {pc : Dword} {x : Word × Option (List Word)} (h : c.fetched = some (pc, x)) :
    s.header c pc = .ok x := by
  rw [State.header, h, Option.filter_some, if_pos (beq_self_eq_true _)]

/-! The group that goes on (R79, R349, R360). -/

theorem target_of_resume_none {c : Cord} {pc : Dword} {act : Word} (hr : c.resume = none) (ht : c.target = some (pc, act)) :
    c.chosen = some pc ∧ act = c.groupAt pc := by
  unfold Cord.target at ht
  rw [hr] at ht
  obtain ⟨p, hp, he⟩ := Option.map_eq_some_iff.1 ht
  cases he
  exact ⟨hp, rfl⟩

/-- A group that resumes is that of the record, but for one that goes back to slot 0 undecided: all that stand at the header. -/
theorem target_of_resume_some {c : Cord} {r : Resume} {pc : Dword} {act : Word} (hr : c.resume = some r)
    (ht : c.target = some (pc, act)) :
    pc = r.hdr ∧ ∀ l < 32, bit act l = true ↔ ((c.thread l).st = .ready ∧ (c.thread l).parked = false) ∧
      if r.slot = 0 ∧ r.xf = .none then (c.thread l).pc = r.hdr else bit r.tract l = true := by
  unfold Cord.target at ht
  rw [hr] at ht
  cases ht
  refine ⟨rfl, fun l hl => ?_⟩
  split
  · exact bit_groupAt c r.hdr hl
  · rw [bit_maskWhere _ hl, Bool.and_eq_true, ready_iff, and_comm]

/-! The cases of a start. -/

/-- Only the end of a clause is left of it: the cord resumes past the last slot (R349, R360). -/
def Cord.pastLast (c : Cord) : Bool := (c.resume.map fun r => r.slot == 8).getD false

/-- What clause a cord fetches at header pc for the group act, its WAIT flags at zero but where it goes on past the last slot. -/
structure Fetched (s : State) (c : Cord) (pc : Dword) (act : Word) (cl : Clause) : Prop where
  on : cl.on = true
  hdrA : cl.hdrA = pc
  act : cl.act = act
  fall : cl.fall = none
  header : s.header c pc = .ok (cl.hdr, cl.tab)
  ok : hdrOk cl.hdr = true
  xf : cl.xf = (c.resume.map (·.xf)).getD .none
  slot : cl.slot = if c.pastLast = true then hdrCount cl.hdr + 1 else (c.resume.map (·.slot)).getD 0
  waitMet : c.pastLast = false → c.waitFlag cl.hdr = none

/-- A start that fetches the header alone: a flag that it waits for is not at zero (R82). -/
theorem waitFlag_of_tryStart_fetch {s : State} {x : Cord} {pc : Dword} {h : Word} {tab : Option (List Word)}
    (hs : s.tryStart x = .fetch pc h tab) : ∃ f, x.view.waitFlag h = some f := by
  unfold State.tryStart at hs
  extract_lets c rnx at hs
  split at hs <;> [cases hs; skip]
  split at hs <;> [cases hs; skip]
  split at hs <;> [cases hs; skip]
  split at hs <;> [cases hs; cases hs; skip]
  split at hs <;> [cases hs; skip]
  extract_lets at_ at hs
  split at hs <;> [cases hs; skip]
  split at hs
  next hw =>
    split at hs <;> cases hs
    exact Option.isSome_iff_exists.1 (Bool.and_eq_true_iff.1 hw).2
  next =>
    split at hs <;> [cases hs; skip]
    split at hs <;> [cases hs; skip]
    split at hs <;> cases hs

/-- A start that goes: the group is not empty, and its clause is a decision alone or one that is fetched. -/
theorem of_tryStart_go {s : State} {x : Cord} {cl : Clause} (hs : s.tryStart x = .go cl) :
    x.wait = .none ∧ ∃ pc act, x.view.target = some (pc, act) ∧ act ≠ 0 ∧
      (x.view.decided act = some cl ∨ x.view.decided act = none ∧ Fetched s x.view pc act cl) := by
  unfold State.tryStart at hs
  extract_lets c rnx at hs
  split at hs <;> [cases hs; skip]
  next hrun =>
  split at hs <;> [cases hs; skip]
  next pc act ht =>
  split at hs <;> [cases hs; skip]
  next ha =>
  have hwait : c.wait = .none := by simp at hrun; exact hrun.2
  refine ⟨(view_wait x).symm.trans hwait, pc, act, ht, ha, ?_⟩
  split at hs
  next hd => cases hs; exact .inl hd
  next => cases hs
  next hd _ =>
  refine .inr ⟨hd, ?_⟩
  split at hs <;> [cases hs; skip]
  next h tab hh =>
  extract_lets at_ at hs
  split at hs <;> [cases hs; skip]
  next hok =>
  split at hs
  next => split at hs <;> cases hs
  next hwait =>
  split at hs <;> [cases hs; skip]
  split at hs <;> [cases hs; skip]
  split at hs <;> cases hs
  refine ⟨rfl, rfl, rfl, rfl, hh, by simpa using hok, rfl, rfl, fun hp => ?_⟩
  change ¬(!x.view.pastLast && (x.view.waitFlag h).isSome) = true at hwait
  simpa [hp] using hwait

/-- Of a clause that a decision alone is left of, the record says all (R349, R360). -/
theorem decided_eq_some {c : Cord} {act : Word} {cl : Clause} (h : c.decided act = some cl) :
    ∃ r, c.resume = some r ∧ r.slot = 8 ∧ r.xf ≠ .none ∧
      cl = { on := true, hdrA := r.hdr, slot := 1, act := act, xf := r.xf, fall := some r.ft } := by
  unfold Cord.decided at h
  split at h
  · cases h
  next r hr =>
  split at h <;> cases h
  next hd => exact ⟨r, hr, hd.1, hd.2, rfl⟩

theorem decided_of_resume {c : Cord} {r : Resume} (act : Word) (hr : c.resume = some r) (h8 : r.slot = 8) (hx : r.xf ≠ .none) :
    (c.decided act).isSome = true := by
  simp [Cord.decided, hr, h8, hx]

/-- What is true of every clause that a cord comes to: it has a group and a legal header, and unless it is past its last slot the flags of
its WAIT field are at zero. -/
theorem go_clause {s : State} {x : Cord} {cl : Clause} (hs : s.tryStart x = .go cl) :
    cl.on = true ∧ cl.act ≠ 0 ∧ hdrOk cl.hdr = true ∧
      (cl.slot ≤ hdrCount cl.hdr → ∀ f < 12, hdrWait cl.hdr f = true → x.flagOf f = 0) := by
  obtain ⟨-, pc, act, -, ha, hd | ⟨-, hf⟩⟩ := of_tryStart_go hs
  · obtain ⟨r, -, -, -, rfl⟩ := decided_eq_some hd
    exact ⟨rfl, ha, (by decide : hdrOk 0 = true), fun h => absurd h (by decide : ¬1 ≤ hdrCount 0)⟩
  · refine ⟨hf.on, hf.act.symm ▸ ha, hf.ok, fun hle f hlt hw => ?_⟩
    have hp : x.view.pastLast = false := by
      by_contra hp
      rw [hf.slot, if_pos (by simpa using hp)] at hle
      omega
    rw [← view_flagOf]
    exact waitFlag_eq_none.1 (hf.waitMet hp) f hlt hw

/-- A clause that is fetched has the header and the table that the cord kept from its wait, if it kept them (R54). -/
theorem go_keeps_header {s : State} {x : Cord} {cl : Clause} {h : Word} {tab : Option (List Word)} (hs : s.tryStart x = .go cl)
    (hn : cl.fall = none) (hx : x.fetched = some (cl.hdrA, h, tab)) : cl.hdr = h ∧ cl.tab = tab := by
  obtain ⟨-, pc, act, -, -, hd | ⟨-, hf⟩⟩ := of_tryStart_go hs
  · obtain ⟨r, -, -, -, rfl⟩ := decided_eq_some hd
    cases hn
  · have := header_of_fetched (s := s) (c := x.view) (by rw [view_fetched]; exact hx)
    rw [hf.hdrA, hf.header] at this
    cases this
    exact ⟨rfl, rfl⟩

/-- A cord with nothing to resume starts the chosen group from slot 0, all of it that stands at the header (R90). -/
theorem go_of_resume_none {s : State} {x : Cord} {cl : Clause} (hs : s.tryStart x = .go cl) (hr : x.view.resume = none) :
    x.view.chosen = some cl.hdrA ∧ cl.slot = 0 ∧ cl.xf = .none ∧ cl.fall = none ∧ cl.act = x.view.groupAt cl.hdrA := by
  obtain ⟨-, pc, act, ht, -, hd | ⟨-, hf⟩⟩ := of_tryStart_go hs
  · obtain ⟨r, hr', -⟩ := decided_eq_some hd
    cases hr.symm.trans hr'
  · obtain ⟨hc, rfl⟩ := target_of_resume_none hr ht
    refine ⟨hf.hdrA ▸ hc, ?_, ?_, hf.fall, hf.hdrA ▸ hf.act⟩
    · simp [hf.slot, Cord.pastLast, hr]
    · simp [hf.xf, hr]

/-- What clause cl a cord goes on with that resumes by record r: at its slot inside the clause, behind the last one with what is left of
the end, the threads of the recorded group that are ready as ACT (R349, R360). -/
def GoesOn (x : Cord) (cl : Clause) (r : Resume) : Prop :=
  cl.hdrA = r.hdr ∧ cl.xf = r.xf ∧ (r.slot < 8 → cl.slot = r.slot ∧ cl.fall = none) ∧
  (r.slot = 8 → r.xf = .none → cl.slot = hdrCount cl.hdr + 1 ∧ cl.fall = none) ∧
  (r.slot = 8 → r.xf ≠ .none → hdrCount cl.hdr < cl.slot ∧ cl.ft = r.ft) ∧
  ∀ l < 32, bit cl.act l = true ↔ ((x.thread l).st = .ready ∧ (x.thread l).parked = false) ∧
    if r.slot = 0 ∧ r.xf = .none then (x.thread l).pc = r.hdr else bit r.tract l = true

theorem goesOn_of_resume {s : State} {x : Cord} {cl : Clause} {r : Resume} (hs : s.tryStart x = .go cl) (hr : x.view.resume = some r) :
    GoesOn x cl r := by
  obtain ⟨-, pc, act, ht, -, hd | ⟨hd, hf⟩⟩ := of_tryStart_go hs <;> obtain ⟨rfl, hact⟩ := target_of_resume_some hr ht <;>
    simp only [view_thread] at hact
  · obtain ⟨r', hr', h8, hx, rfl⟩ := decided_eq_some hd
    cases hr.symm.trans hr'
    exact ⟨rfl, rfl, fun h => by omega, fun _ h => absurd h hx, fun _ _ => ⟨(by decide : hdrCount 0 < 1), rfl⟩, hact⟩
  · have hp : x.view.pastLast = (r.slot == 8) := by simp [Cord.pastLast, hr]
    refine ⟨hf.hdrA, by simp [hf.xf, hr], fun h => ⟨?_, hf.fall⟩, fun h _ => ⟨?_, hf.fall⟩, fun h hx => ?_, hf.act ▸ hact⟩
    · rw [hf.slot, hp, if_neg (by simp; omega), hr]; rfl
    · rw [hf.slot, hp, if_pos (by simp [h])]
    · have := decided_of_resume act hr h hx
      rw [hd] at this
      cases this

/-- The start of a clause changes its cord alone, by what the start comes to. -/
theorem exec_clauseStart {s : State} {c : Nat} {x : Cord} (hn : s.now = some (.clauseStart c)) (hc : s.findCord c = some x) :
    (∀ pc h tab, s.tryStart x = .fetch pc h tab →
      exec .clauseStart s = .next (State.onCord c (fun x => { x with fetched := some (pc, h, tab) }) s)) ∧
    ∀ cl, s.tryStart x = .go cl → exec .clauseStart s = .next (State.onCord c (fun x =>
      { x with cl := cl, rotP := lowest cl.act, chosen := .none, resume := .none, refetch := false, fetched := .none,
               skipBrk := false, blk := {}, count := 0, urgent := false }) s) := by
  have he : exec .clauseStart s = execClauseStart s := rfl
  constructor <;> intros <;> simp_all [execClauseStart, State.ifCord]

end Sys2Proof.Machine

namespace Sys2Proof

open Machine

/-- Settles O12: by the cases of a start, `waitFlag_of_tryStart_fetch` and `of_tryStart_go`. -/
theorem clauseStartsOnWait : Obligations.ClauseStartsOnWait := by
  unfold Obligations.ClauseStartsOnWait
  refine ⟨fun s c x pc h tab hn hc hs => ⟨(exec_clauseStart hn hc).1 pc h tab hs, ?_⟩, fun s c x cl hn hc hs => ?_⟩
  · obtain ⟨f, hf⟩ := waitFlag_of_tryStart_fetch hs
    obtain ⟨hlt, hw, h0⟩ := of_waitFlag_some hf
    exact ⟨f, hlt, hw, view_flagOf x f ▸ h0⟩
  · obtain ⟨hon, hact, hok, hwait⟩ := go_clause hs
    refine ⟨⟨_, (exec_clauseStart hn hc).2 cl hs, rfl⟩, hon, hact, hok, hwait, fun hf h tab hx => go_keeps_header hs hf hx,
      fun hv hr => ?_, fun hv r hr _ => goesOn_of_resume hs ?_, fun hv => ?_⟩
    · obtain ⟨hch, hslot, hxf, hfall, ha⟩ := go_of_resume_none hs (by rw [view_of_not_refetch hv, hr])
      rw [view_of_not_refetch hv] at hch ha
      exact ⟨hch, hslot, hxf, hfall, fun l hl => ha ▸ bit_groupAt x cl.hdrA hl⟩
    · rw [view_of_not_refetch hv, hr]
    · exact goesOn_of_resume hs (view_resume_of_refetch hv (of_tryStart_go hs).1)

end Sys2Proof
end

section
/-! Translation control: what tlbi drops, recalls, unlocks and drains, stage by stage (R361). -/

namespace Sys2Proof.Machine

open Claims

/-! Folds whose steps only add. -/

/-- Through a fold of steps that are all in a preorder, each entry of the list is taken in some state between the first and the last. -/
theorem foldl_through {α σ : Type} {R : σ → σ → Prop} (refl : ∀ s, R s s) (trans : ∀ {s t u}, R s t → R t u → R s u) {f : σ → α → σ}
    (hf : ∀ s a, R s (f s a)) {l : List α} {a : α} (ha : a ∈ l) (s : σ) : ∃ t, R s t ∧ R (f t a) (l.foldl f s) := by
  induction l generalizing s with
  | nil => cases ha
  | cons b l ih =>
    rcases List.mem_cons.1 ha with rfl | ha
    · exact ⟨s, refl s, foldl_keeps (R (f s a)) f l (fun t b h => trans h (hf t b)) _ (refl _)⟩
    · obtain ⟨t, h1, h2⟩ := ih ha (f s b)
      exact ⟨t, trans (hf s b) h1, h2⟩

/-- A fold that gathers what each step gives, with the state that the steps make. -/
def foldGather {α β σ : Type} (g : α → σ → List β × σ) (l : List α) (s : σ) : List β × σ :=
  l.foldl (fun r a => (r.1 ++ (g a r.2).1, (g a r.2).2)) ([], s)

section
variable {α β σ : Type} {R : σ → σ → Prop} (refl : ∀ s, R s s) (trans : ∀ {s t u}, R s t → R t u → R s u)
  {g : α → σ → List β × σ} (hg : ∀ a s, R s (g a s).2)
include refl trans hg

theorem foldGather_through {l : List α} {a : α} (ha : a ∈ l) (s : σ) :
    ∃ t, R s t ∧ R (g a t).2 (foldGather g l s).2 ∧ ∀ b ∈ (g a t).1, b ∈ (foldGather g l s).1 := by
  obtain ⟨t, h1, h2⟩ := foldl_through (R := fun x y : List β × σ => x.1 ⊆ y.1 ∧ R x.2 y.2) (fun x => ⟨List.Subset.refl _, refl _⟩)
    (fun h k => ⟨List.Subset.trans h.1 k.1, trans h.2 k.2⟩) (f := fun r a => (r.1 ++ (g a r.2).1, (g a r.2).2))
    (fun r a => ⟨List.subset_append_left _ _, hg a r.2⟩) ha ([], s)
  exact ⟨t.2, h1.2, h2.2, fun b hb => h2.1 (List.mem_append_right _ hb)⟩

theorem foldGather_grows (l : List α) (s : σ) : R s (foldGather g l s).2 :=
  foldl_keeps (fun r : List β × σ => R s r.2) (fun r a => (r.1 ++ (g a r.2).1, (g a r.2).2)) l (fun r a h => trans h (hg a r.2)) ([], s) (refl s)

end

/-! States that work of other units is added to. -/

/-- Between s and t events, messages and requests were added; cords, cores, memory and device are as they were. -/
structure Extends (s t : State) : Prop where
  cycle : t.cycle = s.cycle
  cord : t.cord = s.cord
  cords : t.cords = s.cords
  cores : t.cores = s.cores
  dev : t.dev = s.dev
  mem : t.mem = s.mem
  backing : t.backing = s.backing
  agenda : s.agenda ⊆ t.agenda
  outbox : s.outbox ⊆ t.outbox
  asked : s.asked ⊆ t.asked

theorem Extends.refl (s : State) : Extends s s :=
  ⟨rfl, rfl, rfl, rfl, rfl, rfl, rfl, List.Subset.refl _, List.Subset.refl _, List.Subset.refl _⟩

theorem Extends.trans {s t u : State} (h : Extends s t) (k : Extends t u) : Extends s u :=
  ⟨k.cycle.trans h.cycle, k.cord.trans h.cord, k.cords.trans h.cords, k.cores.trans h.cores, k.dev.trans h.dev, k.mem.trans h.mem,
    k.backing.trans h.backing, List.Subset.trans h.agenda k.agenda, List.Subset.trans h.outbox k.outbox, List.Subset.trans h.asked k.asked⟩

theorem Extends.sends {s t u : State} {n : Nat} {e : Event} (k : Extends t u) (h : Sends s t n e) : Sends s u n e :=
  sends_mono h fun _ hd => k.agenda hd

theorem sends_of_cycle {s s' t : State} {n : Nat} {e : Event} (h : Sends s' t n e) (hc : s'.cycle = s.cycle) : Sends s t n e := by
  unfold Sends at h ⊢; rwa [← hc]

theorem Extends.sharers {s t : State} (h : Extends s t) (line : Nat) : t.sharers line = s.sharers line := by
  simp only [State.sharers, State.allCords, h.cord, h.cords]

theorem Extends.masterAway {s t : State} (h : Extends s t) (phys : List Nat) : t.masterAway phys = s.masterAway phys := by
  unfold State.masterAway State.isLocal
  rw [h.dev]

theorem extends_afterFree (d : Nat) (e : Event) (s : State) : Extends s (s.afterFree d e) :=
  ⟨rfl, rfl, rfl, rfl, rfl, rfl, rfl, by simp, List.Subset.refl _, List.Subset.refl _⟩

theorem extends_afterPath (core home d : Nat) (e : Event) (s : State) : Extends s (s.afterPath core home d e) :=
  ⟨rfl, rfl, rfl, rfl, rfl, rfl, rfl, by simp [State.afterPath], List.Subset.refl _, List.Subset.refl _⟩

theorem extends_sendOut (dest : Nat) (m : OutMsg) (s : State) : Extends s (s.sendOut dest m) :=
  ⟨rfl, rfl, rfl, rfl, rfl, rfl, rfl, List.Subset.refl _, List.subset_append_left _ _, List.Subset.refl _⟩

/-- A change of one context leaves every other, and that one changed. -/
theorem mem_onCtx {i : Nat} {f : Ctx → Ctx} {s : State} {k : Ctx} (hk : k ∈ s.ctxs) : ∃ k' ∈ (s.onCtx i f).ctxs, k' = f k ∨ k' = k := by
  unfold State.onCtx
  split
  · exact ⟨_, List.mem_map_of_mem hk, by split <;> simp⟩
  · exact ⟨k, List.mem_append_left _ hk, .inr rfl⟩

theorem extends_onCtx (i : Nat) (f : Ctx → Ctx) (s : State) : Extends s (s.onCtx i f) := by
  constructor <;> simp

/-! Recalls. -/

/-- Recalls only add: contexts too are as they were. -/
def Recalls (s t : State) : Prop := Extends s t ∧ t.ctxs = s.ctxs

theorem Recalls.refl (s : State) : Recalls s s := ⟨Extends.refl s, rfl⟩
theorem Recalls.trans {s t u : State} (h : Recalls s t) (k : Recalls t u) : Recalls s u := ⟨h.1.trans k.1, k.2.trans h.2⟩

/-- One core is asked to close its eyelets on a line, under a fresh number. -/
def State.recallAt (line : Nat) (reason : Reason) (core : Nat) (s : State) : List Nat × State :=
  ([s.fresh], State.afterFree 1 (.recallAtCore core line reason s.fresh)
    (State.tick { s with recalls := s.recalls ++ [(s.fresh, core, line)] }))

theorem recallHere_eq_foldGather (line : Nat) (reason : Reason) (s : State) :
    s.recallHere line reason = foldGather (State.recallAt line reason) (s.sharers line) s := rfl

theorem recallAt_grows (line : Nat) (reason : Reason) (core : Nat) (s : State) : Recalls s (s.recallAt line reason core).2 :=
  ⟨⟨rfl, rfl, rfl, rfl, rfl, rfl, rfl, List.subset_append_left _ _, List.Subset.refl _, List.Subset.refl _⟩, rfl⟩

theorem recallHere_grows (line : Nat) (reason : Reason) (s : State) : Recalls s (s.recallHere line reason).2 :=
  foldGather_grows Recalls.refl Recalls.trans (recallAt_grows line reason) _ s

/-- Every sharer of the line is asked, and the number of its recall is among those awaited (R157). -/
theorem recallHere_sends {line : Nat} {reason : Reason} {s : State} {core : Nat} (hc : core ∈ s.sharers line) :
    ∃ rid ∈ (s.recallHere line reason).1, Sends s (s.recallHere line reason).2 1 (.recallAtCore core line reason rid) := by
  obtain ⟨t, h1, h2, h3⟩ := foldGather_through Recalls.refl Recalls.trans (recallAt_grows line reason) hc s
  exact ⟨t.fresh, h3 _ (List.mem_singleton.2 rfl), h2.1.sends (sends_of_cycle (sends_afterFree 1 _ (State.tick _)) h1.1.cycle)⟩

/-- The recalls of several lines, with the numbers of all. -/
def State.recallLines (lines : List Nat) (s : State) : List Nat × State := foldGather (fun l s => s.recallHere l .shoot) lines s

theorem recallLines_grows (lines : List Nat) (s : State) : Recalls s (s.recallLines lines).2 :=
  foldGather_grows Recalls.refl Recalls.trans (fun l s => recallHere_grows l .shoot s) lines s

theorem recallLines_sends {lines : List Nat} {s : State} {line core : Nat} (hl : line ∈ lines) (hc : core ∈ s.sharers line) :
    ∃ rid ∈ (s.recallLines lines).1, Sends s (s.recallLines lines).2 1 (.recallAtCore core line .shoot rid) := by
  obtain ⟨t, h1, h2, h3⟩ := foldGather_through Recalls.refl Recalls.trans (fun l s => recallHere_grows l .shoot s) hl s
  obtain ⟨rid, hr, hs⟩ := recallHere_sends (reason := .shoot) (s := t) (core := core) (line := line) (by rwa [h1.1.sharers])
  exact ⟨rid, h3 rid hr, h2.1.sends (sends_of_cycle hs h1.1.cycle)⟩

/-! Locks. -/

theorem extends_unlockLine (ctx line : Nat) (s : State) : Extends s (s.unlockLine ctx line) :=
  by constructor <;> simp [State.unlockLine]

theorem mem_locks_unlockLine (ctx line i l : Nat) (s : State) :
    l ∈ ((s.unlockLine ctx line).ctxOf i).locks ↔ l ∈ (s.ctxOf i).locks ∧ (i, l) ≠ (ctx, line) := by
  have h := ctxOf_onCtx ctx i (fun x => { x with locks := x.locks.filter (· != line) })
    { s with l2 := s.l2.map fun y => if y.line = line then { y with lockers := y.lockers.filter (· != ctx) } else y } fun _ => rfl
  unfold State.unlockLine
  rw [h]
  split
  · rename_i hi; subst hi; simp [State.ctxOf]
  · rename_i hi; simp [State.ctxOf, hi]

/-- Locks end, each of a context on a line. -/
def State.unlockLines (ps : List (Nat × Nat)) (s : State) : State := ps.foldl (fun s p => s.unlockLine p.1 p.2) s

theorem extends_unlockLines (ps : List (Nat × Nat)) (s : State) : Extends s (s.unlockLines ps) :=
  foldl_keeps (Extends s) _ ps (fun _ p h => h.trans (extends_unlockLine p.1 p.2 _)) s (Extends.refl s)

theorem mem_locks_unlockLines (ps : List (Nat × Nat)) (i l : Nat) (s : State) :
    l ∈ ((s.unlockLines ps).ctxOf i).locks ↔ l ∈ (s.ctxOf i).locks ∧ (i, l) ∉ ps := by
  induction ps generalizing s with
  | nil => simp [State.unlockLines]
  | cons p ps ih =>
    have : s.unlockLines (p :: ps) = (s.unlockLine p.1 p.2).unlockLines ps := rfl
    rw [this, ih, mem_locks_unlockLine, List.mem_cons, not_or, and_assoc]

/-- The end of locks leaves every context's regions. -/
theorem regions_unlockLines (ps : List (Nat × Nat)) (s : State) :
    ∀ k ∈ s.ctxs, ∃ k' ∈ (s.unlockLines ps).ctxs, k'.id = k.id ∧ k'.regions = k.regions := by
  refine foldl_keeps (fun t : State => ∀ k ∈ s.ctxs, ∃ k' ∈ t.ctxs, k'.id = k.id ∧ k'.regions = k.regions) _ ps
    (fun t p h k hk => ?_) s fun k hk => ⟨k, hk, rfl, rfl⟩
  obtain ⟨k', hk', hi, hr⟩ := h k hk
  obtain ⟨x, hx, rfl | rfl⟩ := mem_onCtx (i := p.1) (f := fun x => { x with locks := x.locks.filter (· != p.2) })
    (s := { t with l2 := t.l2.map fun y => if y.line = p.2 then { y with lockers := y.lockers.filter (· != p.1) } else y }) hk'
  · exact ⟨_, hx, hi, hr⟩
  · exact ⟨x, hx, hi, hr⟩

/-! Drains. -/

/-- Drains only add, and leave the locks of every context. -/
def Drains (s t : State) : Prop := Extends s t ∧ ∀ i, (t.ctxOf i).locks = (s.ctxOf i).locks

theorem Drains.refl (s : State) : Drains s s := ⟨Extends.refl s, fun _ => rfl⟩
theorem Drains.trans {s t u : State} (h : Drains s t) (k : Drains t u) : Drains s u :=
  ⟨h.1.trans k.1, fun i => (k.2 i).trans (h.2 i)⟩

theorem drains_onRegion (ctx n : Nat) (f : Region → Region) (s : State) : Drains s (s.onRegion ctx n f) := by
  refine ⟨extends_onCtx _ _ _, fun i => ?_⟩
  have h := ctxOf_onCtx ctx i (fun x => { x with regions := x.regions.map fun r => if r.n = n then f r else r }) s fun _ => rfl
  rw [State.onRegion, h]
  split
  next hi => rw [hi]
  next => rfl

theorem drains_fromMaster (cl ctx n : Nat) (e : Event) (m : Nat → List Nat → OutMsg) (s : State) : Drains s (s.fromMaster cl ctx n e m) := by
  unfold State.fromMaster
  split
  · exact ⟨extends_sendOut _ _ s, fun _ => rfl⟩
  · exact ⟨extends_afterPath _ _ _ _ s, fun _ => rfl⟩

theorem drains_askMaster (dev : Nat) (phys : List Nat) (tol : Word) (s : State) : Drains s (s.askMaster dev phys tol).2 :=
  ⟨⟨rfl, rfl, rfl, rfl, rfl, rfl, rfl, List.Subset.refl _, List.subset_append_left _ _, List.subset_append_left _ _⟩, fun _ => rfl⟩

theorem drains_forceDrains (ctx n : Nat) (cls : List Nat) (s : State) : Drains s (s.forceDrains ctx n cls) :=
  foldl_keeps (Drains s) _ cls (fun t cl h => h.trans (drains_fromMaster cl ctx n _ _ t)) _ (drains_onRegion _ _ _ s)

theorem toldToDrain_mono {s s' t u : State} {ctx n : Nat} {h : Holder} (hd : ToldToDrain s' t ctx n h) (hc : s'.cycle = s.cycle)
    (hu : Extends t u) : ToldToDrain s u ctx n h := by
  unfold ToldToDrain at hd ⊢
  by_cases hr : h.cl < 1000
  · rw [if_pos hr] at hd ⊢
    exact hu.sends (sends_of_cycle hd hc)
  · rw [if_neg hr] at hd ⊢
    obtain ⟨phys, hp⟩ := hd
    exact ⟨phys, hu.outbox hp⟩

theorem told_fromMaster (ctx n : Nat) (h : Holder) (s : State) :
    ToldToDrain s (s.fromMaster h.cl ctx n (.forcedDrain h.cl ctx n 0 []) .force) ctx n h := by
  unfold ToldToDrain State.fromMaster isRemote remoteDev
  by_cases hr : h.cl < 1000
  · rw [if_pos hr, if_neg (by simpa using hr)]
    exact sends_afterPath _ _ _ _ _
  · rw [if_neg hr, if_pos (by simpa using hr)]
    exact ⟨_, List.mem_append_right _ (List.mem_singleton.2 rfl)⟩

/-- Each holder that is to be forced is told to drain (R232). -/
theorem told_forceDrains {ctx n : Nat} {cls : List Nat} {h : Holder} (hc : h.cl ∈ cls) (s : State) :
    ToldToDrain s (s.forceDrains ctx n cls) ctx n h := by
  obtain ⟨t, h1, h2⟩ := foldl_through Drains.refl Drains.trans
    (fun s cl => drains_fromMaster cl ctx n (.forcedDrain cl ctx n 0 []) .force s) hc
    (s.onRegion ctx n fun r => { r with holders := r.holders.map fun h => if cls.contains h.cl then { h with draining := true } else h })
  exact toldToDrain_mono (told_fromMaster ctx n h t) (h1.1.cycle.trans (drains_onRegion _ _ _ s).1.cycle) h2.1

theorem drains_drainRegion (ctx : Nat) (r : Region) (s : State) : Drains s (s.drainRegion ctx r none).2 := by
  unfold State.drainRegion
  cases s.masterAway r.phys with
  | some dev => exact drains_askMaster _ _ _ s
  | none => exact drains_forceDrains _ _ _ s

/-- A drain of a whole region asks its master on another device, or tells every holder and waits for it (R234, R383). -/
theorem drainRegion_asks (ctx : Nat) (r : Region) (s : State) :
    AsksDrain s (s.drainRegion ctx r none).2 ctx r ∧
      (s.masterAway r.phys = none → ∀ h ∈ r.holders, (h.cl, ctx, r.n) ∈ (s.drainRegion ctx r none).1) := by
  unfold State.drainRegion AsksDrain
  cases hm : s.masterAway r.phys with
  | some dev =>
    refine ⟨⟨nofun, fun d hd => ?_⟩, nofun⟩
    cases hd
    exact ⟨s.fresh, List.mem_append_right _ (List.mem_singleton.2 rfl), List.mem_append_right _ (List.mem_singleton.2 rfl)⟩
  | none =>
    have hc : ∀ h ∈ r.holders, h.cl ∈ (r.holders.filter fun h => (none : Option Nat).isNone || none == some h.cl).map (·.cl) :=
      fun h hh => List.mem_map_of_mem (List.mem_filter.2 ⟨hh, rfl⟩)
    exact ⟨⟨fun _ h hh => told_forceDrains (hc h hh) s, nofun⟩, fun _ h hh => List.mem_map_of_mem (hc h hh)⟩

theorem asksDrain_mono {s s' t u : State} {ctx : Nat} {r : Region} (h : AsksDrain s' t ctx r) (hs : Extends s s') (hu : Extends t u) :
    AsksDrain s u ctx r := by
  obtain ⟨h1, h2⟩ := h
  rw [hs.masterAway] at h1 h2
  refine ⟨fun hm x hx => toldToDrain_mono (h1 hm x hx) hs.cycle hu, fun dev hm => ?_⟩
  obtain ⟨rid, ha, ho⟩ := h2 dev hm
  exact ⟨rid, hu.asked ha, hu.outbox ho⟩

/-- The drains of several regions, each of its context, with what then is waited for. -/
def State.drainRegions (ps : List (Nat × Region)) (s : State) : List (Nat × Nat × Nat) × State :=
  foldGather (fun p s => s.drainRegion p.1 p.2 none) ps s

theorem drains_drainRegions (ps : List (Nat × Region)) (s : State) : Drains s (s.drainRegions ps).2 :=
  foldGather_grows Drains.refl Drains.trans (g := fun (p : Nat × Region) s => s.drainRegion p.1 p.2 none)
    (fun p s => drains_drainRegion p.1 p.2 s) ps s

theorem drainRegions_asks {ps : List (Nat × Region)} {ctx : Nat} {r : Region} (hp : (ctx, r) ∈ ps) (s : State) :
    AsksDrain s (s.drainRegions ps).2 ctx r ∧
      (s.masterAway r.phys = none → ∀ h ∈ r.holders, (h.cl, ctx, r.n) ∈ (s.drainRegions ps).1) := by
  obtain ⟨t, h1, h2, h3⟩ := foldGather_through Drains.refl Drains.trans (fun p s => drains_drainRegion p.1 p.2 s) hp s
  obtain ⟨ha, hw⟩ := drainRegion_asks ctx r t
  rw [h1.1.masterAway] at hw
  exact ⟨asksDrain_mono ha h1.1 h2.1, fun hm h hh => h3 _ (hw hm h hh)⟩

end Sys2Proof.Machine
end

section
/-! The translation forms and their completions (R53, R54, R361, R362). -/

namespace Sys2Proof.Machine

open Claims

/-! The course of a tlbi (R361), in its stages. -/

/-- The state of a tlbi of control word x after the first stage: no open TLB and no stalled form has a translation that it names. -/
def State.dropPages (x : Nat) (s : State) : State :=
  State.mapCords (fun y => { y with walked := y.walked.filter fun w => !tlbiCovers x y.ctx (w.1 * 2 ^ 16) })
    { s with cores := s.cores.map fun (k : Core) => { k with tlb := k.tlb.filter fun p => !tlbiHits x p } }

/-- The locks that a tlbi ends, each of a context on a line, for the physical runs of its pages. -/
def State.tlbiLocks (x : Nat) (runs : List (Nat × Nat)) (s : State) : List (Nat × Nat) :=
  s.ctxs.flatMap fun k =>
    if tlbiCtx x k.id then
      (k.locks.filter fun l => decide (2 ≤ x / 4096 % 4) || runs.any fun r => decide (r.1 ≤ l * 128) && decide (l * 128 < r.1 + r.2)).map
        fun l => (k.id, l)
    else []

/-- The regions on the addresses that a tlbi names, each with its context. -/
def State.tlbiRegions (x : Nat) (s : State) : List (Nat × Region) :=
  s.ctxs.flatMap fun k =>
    if tlbiCtx x k.id then (k.regions.filter fun r => overlaps (tlbiRange x).1 (tlbiRange x).2 r.base r.size).map fun r => (k.id, r) else []

/-- After the recalls, with their numbers. -/
def State.tlbiRecalled (x : Nat) (s : State) : List Nat × State := (s.dropPages x).recallLines (s.tlbiLines x)

/-- After the locks have ended. -/
def State.tlbiUnlocked (x : Nat) (s : State) : State :=
  (s.tlbiRecalled x).2.unlockLines ((s.tlbiRecalled x).2.tlbiLocks x (s.tlbiRuns x))

/-- After the drains have begun, with what they wait for. -/
def State.tlbiDrained (x : Nat) (s : State) : List (Nat × Nat × Nat) × State :=
  (s.tlbiUnlocked x).drainRegions ((s.tlbiUnlocked x).tlbiRegions x)

/-- What the completion of a tlbi waits for. -/
def State.tlbiJob (x : Nat) (s : State) : TlbiJob :=
  ⟨(s.tlbiRecalled x).1, (s.tlbiDrained x).1,
    s.cores.flatMap fun k => (k.tq.filter fun f => f.trans.any fun p => tlbiHits x p).map fun f => (k.core, f.q),
    s.cores.flatMap fun k => (k.journal.filter fun e => e.trans.any fun p => tlbiHits x p).map fun e => (k.core, e.j)⟩

/-- The state in which a tlbi issues. -/
def State.tlbiDone (x : Nat) (s : State) : State :=
  (s.tlbiDrained x).2.afterFree 1 (.tlbiComplete s.cord.cid s.cord.flag (s.tlbiJob x))

/-- The form of tlbi. -/
def tlbiForm (a b : Rd) : Form := { lat := .v, vecs := rdVecs a 1 ++ rdVecs b 1, priv := true }

/-- What becomes of a tlbi whose form may issue: control word bits [15:14] are reserved. -/
def tlbiBody (a b : Rd) (s : State) : Res :=
  if s.cord.once64 a b / 2 ^ 14 % 4 ≠ 0 then .trap .opndKind s.cord.word else .done (s.tlbiDone (s.cord.once64 a b))

/-- The stages above are the course of the instruction. -/
theorem exec_tlbi_eq (a b : Rd) (s : State) : exec (.tlbi a b) s = runForm (tlbiForm a b) s (tlbiBody a b) := by
  change execTlbi a b s = _
  unfold execTlbi tlbiForm
  refine congrArg (runForm _ s) (funext fun t => ?_)
  unfold tlbiBody
  refine if_congr Iff.rfl rfl ?_
  generalize t.cord.once64 a b = x
  unfold State.tlbiDone State.tlbiJob State.tlbiDrained State.tlbiRegions
  generalize tlbiRange x = range
  obtain ⟨ra, rn⟩ := range
  rfl

theorem exec_tlbi_trap {a b : Rd} {s : State} (h : (tlbiForm a b).check s = none) (hx : s.cord.once64 a b / 2 ^ 14 % 4 ≠ 0) :
    exec (.tlbi a b) s = .next (s.raise .opndKind s.cord.word) :=
  (exec_tlbi_eq a b s).trans (runForm_trap h (if_pos hx))

theorem exec_tlbi {a b : Rd} {s : State} (h : (tlbiForm a b).check s = none) (hx : s.cord.once64 a b / 2 ^ 14 % 4 = 0) :
    exec (.tlbi a b) s = .next ((tlbiForm a b).issued (s.tlbiDone (s.cord.once64 a b))) :=
  (exec_tlbi_eq a b s).trans (runForm_done h (if_neg (not_not.2 hx)))

/-! What each stage leaves. -/

/-- The sharers of a line are told by the cords that live, their cores and their eyelets (R157). -/
theorem sharers_mapCords (f : Cord → Cord) (s : State) (line : Nat)
    (hf : ∀ y, (f y).live = y.live ∧ (f y).core = y.core ∧ (f y).eyes = y.eyes) : (s.mapCords f).sharers line = s.sharers line := by
  have h : (s.mapCords f).cord :: (s.mapCords f).cords = (s.cord :: s.cords).map f := rfl
  simp only [State.sharers, State.allCords, h, List.filter_map, List.map_map, Function.comp_def, hf]

section
variable (x : Nat) (s : State)

theorem dropPages_sharers (line : Nat) : (s.dropPages x).sharers line = s.sharers line :=
  sharers_mapCords _ _ line fun _ => ⟨rfl, rfl, rfl⟩

theorem recalls_tlbiRecalled : Recalls (s.dropPages x) (s.tlbiRecalled x).2 := recallLines_grows _ _

theorem extends_tlbiUnlocked : Extends (s.dropPages x) (s.tlbiUnlocked x) := (recalls_tlbiRecalled x s).1.trans (extends_unlockLines _ _)

theorem drains_tlbiDrained : Drains (s.tlbiUnlocked x) (s.tlbiDrained x).2 := drains_drainRegions _ _

theorem extends_tlbiDone : Extends (s.dropPages x) (s.tlbiDone x) :=
  ((extends_tlbiUnlocked x s).trans (drains_tlbiDrained x s).1).trans (extends_afterFree _ _ _)

theorem ctxs_tlbiRecalled : (s.tlbiRecalled x).2.ctxs = s.ctxs := (recalls_tlbiRecalled x s).2

/-- No open TLB keeps a page that the tlbi names. -/
theorem tlb_tlbiDone : ∀ k ∈ (s.tlbiDone x).cores, ∀ p ∈ k.tlb, tlbiHits x p = false := by
  rw [(extends_tlbiDone x s).cores]
  intro k hk p hp
  obtain ⟨k', -, rfl⟩ := List.mem_map.1 hk
  simpa using (List.mem_filter.1 hp).2

theorem sends_tlbiComplete : Sends s (s.tlbiDone x) 1 (.tlbiComplete s.cord.cid s.cord.flag (s.tlbiJob x)) :=
  sends_of_cycle (sends_afterFree 1 _ _) ((extends_tlbiUnlocked x s).trans (drains_tlbiDrained x s).1).cycle

/-- Every core that holds a line of the pages is asked to recall it, and its acknowledgement is awaited. -/
theorem recalls_tlbiDone {line core : Nat} (hl : line ∈ s.tlbiLines x) (hc : core ∈ s.sharers line) :
    ∃ rid ∈ (s.tlbiJob x).rids, Sends s (s.tlbiDone x) 1 (.recallAtCore core line .shoot rid) := by
  obtain ⟨rid, hr, hs⟩ := recallLines_sends hl ((dropPages_sharers x s line).symm ▸ hc)
  refine ⟨rid, hr, Extends.sends ?_ (sends_of_cycle hs rfl)⟩
  exact ((extends_unlockLines _ _).trans (drains_tlbiDrained x s).1).trans (extends_afterFree _ _ _)

/-- A lock on the pages, of a context that the tlbi names. -/
theorem mem_tlbiLocks {runs : List (Nat × Nat)} {i l : Nat} :
    (i, l) ∈ s.tlbiLocks x runs ↔ (∃ k ∈ s.ctxs, k.id = i ∧ l ∈ k.locks) ∧ tlbiCtx x i = true ∧
      (2 ≤ x / 4096 % 4 ∨ ∃ r ∈ runs, r.1 ≤ l * 128 ∧ l * 128 < r.1 + r.2) := by
  simp only [State.tlbiLocks, List.mem_flatMap]
  constructor
  · rintro ⟨k, hk, h⟩
    split at h
    next hc =>
      obtain ⟨l', hl, he⟩ := List.mem_map.1 h
      cases he
      obtain ⟨h1, h2⟩ := List.mem_filter.1 hl
      exact ⟨⟨k, hk, rfl, h1⟩, hc, by simpa using h2⟩
    next => cases h
  · rintro ⟨⟨k, hk, rfl, hl⟩, hc, h⟩
    exact ⟨k, hk, by rw [if_pos hc]; exact List.mem_map_of_mem (List.mem_filter.2 ⟨hl, by simpa using h⟩)⟩

theorem tlbiCtx_iff (i : Nat) : tlbiCtx x i = true ↔ x / 4096 % 4 = 3 ∨ i = x % 4096 := by
  simp [tlbiCtx]

/-- A context that the device has reads as one of its records. -/
theorem ctxOf_mem {k : Ctx} (hk : k ∈ s.ctxs) : s.ctxOf k.id ∈ s.ctxs ∧ (s.ctxOf k.id).id = k.id := by
  unfold State.ctxOf
  cases hf : s.ctxs.find? (fun y => y.id == k.id) with
  | none => exact absurd (List.find?_eq_none.1 hf k hk) (by simp)
  | some y => exact ⟨List.mem_of_find?_eq_some hf, by simpa using List.find?_some hf⟩

@[simp] theorem afterFree_ctxOf (d : Nat) (e : Event) (i : Nat) : (s.afterFree d e).ctxOf i = s.ctxOf i := rfl

/-- The locks that stay are those that the tlbi does not name. -/
theorem mem_locks_tlbiDone {k : Ctx} (hk : k ∈ s.ctxs) (l : Nat) :
    l ∈ ((s.tlbiDone x).ctxOf k.id).locks ↔ l ∈ (s.ctxOf k.id).locks ∧
      ¬((x / 4096 % 4 = 3 ∨ k.id = x % 4096) ∧ (2 ≤ x / 4096 % 4 ∨ ∃ r ∈ s.tlbiRuns x, r.1 ≤ l * 128 ∧ l * 128 < r.1 + r.2)) := by
  have hctx : (s.tlbiRecalled x).2.ctxOf k.id = s.ctxOf k.id := by rw [State.ctxOf, ctxs_tlbiRecalled]; rfl
  rw [State.tlbiDone, afterFree_ctxOf, (drains_tlbiDrained x s).2, State.tlbiUnlocked, mem_locks_unlockLines, hctx, mem_tlbiLocks, tlbiCtx_iff, ctxs_tlbiRecalled]
  obtain ⟨hm, hi⟩ := ctxOf_mem s hk
  constructor
  · rintro ⟨hl, hn⟩
    exact ⟨hl, fun h => hn ⟨⟨_, hm, hi, hl⟩, h⟩⟩
  · rintro ⟨hl, hn⟩
    exact ⟨hl, fun h => hn h.2⟩

/-- A region that overlaps the addresses, of a context that the tlbi names, is drained, and its holders are waited for. -/
theorem asks_tlbiDone {k : Ctx} {r : Region} (hk : k ∈ s.ctxs) (hr : r ∈ k.regions) (hc : tlbiCtx x k.id = true)
    (ho : overlaps (tlbiRange x).1 (tlbiRange x).2 r.base r.size = true) :
    AsksDrain s (s.tlbiDone x) k.id r ∧ (s.masterAway r.phys = none → ∀ h ∈ r.holders, (h.cl, k.id, r.n) ∈ (s.tlbiJob x).drains) := by
  obtain ⟨k', hk', hi, hrs⟩ := regions_unlockLines ((s.tlbiRecalled x).2.tlbiLocks x (s.tlbiRuns x)) _ k
    ((ctxs_tlbiRecalled x s).symm ▸ hk)
  have hp : (k.id, r) ∈ (s.tlbiUnlocked x).tlbiRegions x := by
    refine List.mem_flatMap.2 ⟨k', hk', ?_⟩
    rw [hi, hrs, if_pos hc]
    exact List.mem_map_of_mem (List.mem_filter.2 ⟨hr, ho⟩)
  obtain ⟨ha, hw⟩ := drainRegions_asks hp (s.tlbiUnlocked x)
  have hu := extends_tlbiUnlocked x s
  have hm : (s.tlbiUnlocked x).masterAway r.phys = s.masterAway r.phys := hu.masterAway r.phys
  rw [hm] at hw
  refine ⟨?_, hw⟩
  have := asksDrain_mono ha hu (extends_afterFree 1 (.tlbiComplete s.cord.cid s.cord.flag (s.tlbiJob x)) (s.tlbiDrained x).2)
  exact this

end

/-! Decode tables (R52 to R54, R362). -/

/-- The base of a decode table is the register's page, bits [11:0] left out (R52). -/
theorem tableBase_eq (x : Ctx) : x.tableBase = x.decbase.toNat / 2 ^ 12 * 2 ^ 12 := by
  have hm : (0xFFFFFFFFFFFFF000 : Dword).toNat = (2 ^ 52 - 1) <<< 12 := by decide
  rw [Ctx.tableBase, BitVec.toNat_and, hm, ← Nat.shiftRight_eq_div_pow, ← Nat.shiftLeft_eq]
  refine Nat.eq_of_testBit_eq fun i => ?_
  rw [Nat.testBit_and, Nat.testBit_shiftLeft, Nat.testBit_shiftLeft, Nat.testBit_shiftRight, Nat.testBit_two_pow_sub_one]
  have hi : 64 ≤ i → x.decbase.toNat.testBit i = false := fun h =>
    Nat.testBit_lt_two_pow (x.decbase.isLt.trans_le (Nat.pow_le_pow_right (by decide) h))
  by_cases h : 12 ≤ i
  · by_cases h64 : i < 64
    · simp [h, show i - 12 < 52 by omega]
    · simp [h, hi (by omega)]
  · simp [h]

theorem exec_dtld_map0 {s : State} (h : Form.check { lat := .v } s = none) (hb : (s.ctxOf s.cord.ctx).tableBase = 0) :
    exec .dtld s = .next (Form.issued { lat := .v }
      (s.afterFree 1 (.dtldComplete s.cord.cid s.cord.flag none s.cord.core s.cord.ctx))) := by
  change execDtld s = _
  exact runForm_done h (if_pos hb)

/-- A dtld whose page hits is performed by an event that has the table's physical address (R146, R362). -/
theorem exec_dtld_table {s : State} {p : Page} (h : Form.check { lat := .v } s = none) (hb : (s.ctxOf s.cord.ctx).tableBase ≠ 0)
    (hp : Hits s .r [(s.ctxOf s.cord.ctx).tableBase] [p]) :
    exec .dtld s = .next (Form.issued { lat := .v } ((translated s).afterFree 1
      (.dtldComplete s.cord.cid s.cord.flag (some (p.addr (s.ctxOf s.cord.ctx).tableBase)) s.cord.core s.cord.ctx))) := by
  change execDtld s = _
  exact runForm_done h ((if_neg hb).trans (withPages_hits hp _))

/-- The hold of a translation that hits changes its core alone (R146). -/
theorem translated_mem (s : State) : (translated s).mem = s.mem := by
  unfold translated State.holdSlot; split <;> simp

theorem translated_cycle (s : State) : (translated s).cycle = s.cycle := by
  unfold translated State.holdSlot; split <;> simp

/-- The table that a context has on a core after one has been read for it (R54). -/
theorem tableOf_setTable (core ctx : Nat) (t : Option (List Word)) (s : State) : (s.setTable core ctx t).tableOf core ctx = t := by
  have h := coreOf_onCore core core (fun x => { x with tabs := (x.tabs.filter fun p => p.1 != ctx) ++ [(ctx, t)] }) s fun _ => rfl
  rw [State.tableOf, State.setTable, h, if_pos rfl]
  have : (((s.coreOf core).tabs.filter fun p => p.1 != ctx)).find? (fun p => p.1 == ctx) = none :=
    List.find?_eq_none.2 fun p hp => by simpa using (List.mem_filter.1 hp).2
  simp [List.find?_append, this]

theorem cordRec_setTable (core ctx : Nat) (t : Option (List Word)) (s : State) (c : Nat) : (s.setTable core ctx t).cordRec c = s.cordRec c := by
  rw [State.cordRec, State.setTable, State.onCore_cord, State.onCore_cords]
  rfl

/-! Completions (R81, R361, R362). -/

theorem exec_dtldComplete {s : State} {c : Nat} {f : Flag} {pa : Option Nat} {core ctx : Nat}
    (h : s.now = some (.dtldComplete c f pa core ctx)) :
    exec .dtldComplete s = .next (State.complete c f [] (s.setTable core ctx (pa.map s.readTable))) := by
  change execDtldComplete s = _
  unfold execDtldComplete
  rw [h]

/-- The work that a tlbi still waits for. -/
def State.tlbiBusy (job : TlbiJob) (s : State) : Prop :=
  (∃ r ∈ s.recalls, r.1 ∈ job.rids) ∨ (∃ h ∈ job.drains, s.owing h = true) ∨ (∃ p ∈ job.forms, (s.form p.1 p.2).isSome = true) ∨
    ∃ p ∈ job.commands, (s.cmd p.1 p.2).isSome = true

open Classical in
/-- A tlbi's completion comes again in the next cycle while it waits (R361). -/
theorem exec_tlbiComplete {s : State} {c : Nat} {f : Flag} {job : TlbiJob} (h : s.now = some (.tlbiComplete c f job)) :
    exec .tlbiComplete s = .next (if s.tlbiBusy job then s.after 1 (.tlbiComplete c f job) else s.complete c f []) := by
  change execTlbiComplete s = _
  unfold execTlbiComplete
  rw [h]
  refine congrArg Host.Outcome.next (if_congr ?_ rfl rfl)
  simp [State.tlbiBusy, State.recalling, or_assoc]

/-- A completion without a result lowers the flag of its cord (R81). -/
theorem flagOf_complete {s : State} {c : Nat} {f : Flag} {x : Cord} (h : s.cordRec c = some x) :
    ∃ y, (s.complete c f []).cordRec c = some y ∧ y.flagOf f.val = x.flagOf f.val - 1 :=
  ⟨_, cordRec_complete f [] h, flagOf_flagDown x f.val⟩

end Sys2Proof.Machine
end

section
/-! The knot detector: the greatest set of blocked cords that only their own could wake, and what becomes of its members (R191, R333). -/

namespace Sys2Proof.Machine

/-! The greatest closed set. -/

/-- Each waker of a member is a member. -/
def WakersWithin (ms : List (Cord × Seen × List Nat)) : Prop := ∀ m ∈ ms, ∀ w ∈ m.2.2, ∃ x ∈ ms, x.1.cid = w

/-- The members whose wakers are all members: one step of `closedSet`. -/
def keepClosed (ms : List (Cord × Seen × List Nat)) : List (Cord × Seen × List Nat) :=
  ms.filter fun m => m.2.2.all fun w => ms.any fun x => x.1.cid == w

theorem mem_keepClosed {ms : List (Cord × Seen × List Nat)} {m : Cord × Seen × List Nat} :
    m ∈ keepClosed ms ↔ m ∈ ms ∧ ∀ w ∈ m.2.2, ∃ x ∈ ms, x.1.cid = w := by
  simp [keepClosed]

theorem closedSet_succ (ms : List (Cord × Seen × List Nat)) (n : Nat) : closedSet ms (n + 1) = closedSet (keepClosed ms) n := rfl

theorem closedSet_subset (n : Nat) (ms : List (Cord × Seen × List Nat)) : closedSet ms n ⊆ ms := by
  induction n generalizing ms with
  | zero => exact List.Subset.refl _
  | succ n ih => exact List.Subset.trans (ih _) (List.filter_subset_self _)

theorem keepClosed_eq_self {ms : List (Cord × Seen × List Nat)} (h : WakersWithin ms) : keepClosed ms = ms :=
  List.filter_eq_self.2 fun m hm => by simpa using h m hm

theorem closedSet_of_closed {ms : List (Cord × Seen × List Nat)} (h : WakersWithin ms) (n : Nat) : closedSet ms n = ms := by
  induction n with
  | zero => rfl
  | succ n ih => rw [closedSet_succ, keepClosed_eq_self h, ih]

/-- After as many steps as there are members nothing is left to drop: each step drops a member, or is the last. -/
theorem wakersWithin_closedSet {n : Nat} {ms : List (Cord × Seen × List Nat)} (h : ms.length ≤ n) : WakersWithin (closedSet ms n) := by
  induction n generalizing ms with
  | zero =>
    rw [List.eq_nil_of_length_eq_zero (Nat.le_zero.1 h)]
    intro m hm
    cases hm
  | succ n ih =>
    by_cases hl : (keepClosed ms).length = ms.length
    · have hc : WakersWithin ms := by
        intro m hm
        have hk : keepClosed ms = ms := List.filter_sublist.eq_of_length hl
        exact (mem_keepClosed.1 (hk.symm ▸ hm)).2
      rwa [closedSet_of_closed hc]
    · have : (keepClosed ms).length ≤ ms.length := List.length_filter_le _ _
      rw [closedSet_succ]
      exact ih (by omega)

/-- What is closed under its wakers is never dropped. -/
theorem mem_closedSet {P : Cord × Seen × List Nat → Prop} (hw : ∀ m, P m → ∀ w ∈ m.2.2, ∃ x, P x ∧ x.1.cid = w) {n : Nat}
    {ms : List (Cord × Seen × List Nat)} (hs : ∀ m, P m → m ∈ ms) {m : Cord × Seen × List Nat} (hm : P m) : m ∈ closedSet ms n := by
  induction n generalizing ms with
  | zero => exact hs m hm
  | succ n ih =>
    refine ih fun m hm => mem_keepClosed.2 ⟨hs m hm, fun w h => ?_⟩
    obtain ⟨x, hx, he⟩ := hw m hm w h
    exact ⟨x, hs x hx, he⟩

/-! The members of knots (R191). -/

/-- The blocked cords that have not changed since the last reading, each with its wakers then and now. -/
def State.unmovedCords (s : State) : List (Cord × Seen × List Nat) :=
  s.blockedCords.filterMap fun (c, y) =>
    match c.seen with
    | some x => if s.unmoved c x y then some (c, y, x.wakers ++ y.wakers) else none
    | none => none

theorem knotMembers_eq (s : State) :
    s.knotMembers = (closedSet s.unmovedCords s.unmovedCords.length).map fun b => (b.1, b.2.1) := rfl

theorem mem_unmovedCords {s : State} {m : Cord × Seen × List Nat} :
    m ∈ s.unmovedCords ↔ (m.1, m.2.1) ∈ s.blockedCords ∧
      ∃ x, m.1.seen = some x ∧ s.unmoved m.1 x m.2.1 = true ∧ m.2.2 = x.wakers ++ m.2.1.wakers := by
  obtain ⟨c, y, ws⟩ := m
  simp only [State.unmovedCords, List.mem_filterMap]
  constructor
  · rintro ⟨⟨c', y'⟩, hb, h⟩
    dsimp only at h
    split at h
    next x hx =>
      split at h <;> cases h
      next hu => exact ⟨hb, x, hx, hu, rfl⟩
    next => cases h
  · rintro ⟨hb, x, hx, hu, rfl⟩
    exact ⟨(c, y), hb, by dsimp only; rw [hx]; exact if_pos hu⟩

/-- Every member is a blocked cord that has not changed, and its wakers, then and now, are members. -/
theorem knotMembers_closed {s : State} {m : Cord × Seen} (hm : m ∈ s.knotMembers) :
    m ∈ s.blockedCords ∧ ∃ x, m.1.seen = some x ∧ s.unmoved m.1 x m.2 = true ∧
      ∀ w ∈ x.wakers ++ m.2.wakers, ∃ k ∈ s.knotMembers, k.1.cid = w := by
  rw [knotMembers_eq] at hm ⊢
  obtain ⟨b, hb, rfl⟩ := List.mem_map.1 hm
  obtain ⟨hblk, x, hx, hu, hw⟩ := mem_unmovedCords.1 (closedSet_subset _ _ hb)
  refine ⟨hblk, x, hx, hu, fun w h => ?_⟩
  obtain ⟨k, hk, he⟩ := wakersWithin_closedSet (Nat.le_refl _) b hb w (hw ▸ h)
  exact ⟨_, List.mem_map_of_mem hk, he⟩

/-- A cord of a set, with its wakers then and now. -/
def OfSet (set : List (Cord × Seen)) (b : Cord × Seen × List Nat) : Prop :=
  (b.1, b.2.1) ∈ set ∧ ∃ x, b.1.seen = some x ∧ b.2.2 = x.wakers ++ b.2.1.wakers

/-- A set of such cords, closed under its wakers, is a part of the members: they are the greatest one. -/
theorem knotMembers_greatest {s : State} {set : List (Cord × Seen)}
    (h : ∀ m ∈ set, m ∈ s.blockedCords ∧ ∃ x, m.1.seen = some x ∧ s.unmoved m.1 x m.2 = true ∧
      ∀ w ∈ x.wakers ++ m.2.wakers, ∃ k ∈ set, k.1.cid = w) : ∀ m ∈ set, m ∈ s.knotMembers := by
  have ofSet : ∀ m ∈ set, ∃ ws, OfSet set (m.1, m.2, ws) := fun m hm => by
    obtain ⟨-, x, hx, -, -⟩ := h m hm
    exact ⟨x.wakers ++ m.2.wakers, hm, x, hx, rfl⟩
  have hw : ∀ b, OfSet set b → ∀ w ∈ b.2.2, ∃ x, OfSet set x ∧ x.1.cid = w := by
    rintro b ⟨hb, x, hx, he⟩ w hm
    obtain ⟨-, x', hx', -, hc⟩ := h _ hb
    cases hx.symm.trans hx'
    obtain ⟨k, hk, hkc⟩ := hc w (he ▸ hm)
    obtain ⟨ws, hp⟩ := ofSet k hk
    exact ⟨_, hp, hkc⟩
  have hs : ∀ b, OfSet set b → b ∈ s.unmovedCords := by
    rintro b ⟨hb, x, hx, he⟩
    obtain ⟨hblk, x', hx', hu, -⟩ := h _ hb
    cases hx.symm.trans hx'
    exact mem_unmovedCords.2 ⟨hblk, x, hx, hu, he⟩
  intro m hm
  obtain ⟨ws, hp⟩ := ofSet m hm
  rw [knotMembers_eq]
  exact List.mem_map.2 ⟨_, mem_closedSet hw hs hp, rfl⟩

theorem unmoved_iff {s : State} {c : Cord} {m : Motif} (hm : s.findMotif c.mid = some m) (was now : Seen) :
    s.unmoved c was now = true ↔ was.blk = now.blk ∧ c.issuedAt < s.knotAt ∧ ∀ o ∈ now.blk.named, o ∈ m.watch := by
  simp [State.unmoved, hm, Option.all_eq_true, and_assoc]

/-! Cords by a property, through the operations on them. -/

/-- Some cord has a property. -/
def State.HasCord (p : Cord → Prop) (s : State) : Prop := ∃ y ∈ s.cord :: s.cords, p y

theorem hasCord_mapCords {p q : Cord → Prop} {f : Cord → Cord} (hf : ∀ y, p y → q (f y)) {s : State} (h : s.HasCord p) :
    (s.mapCords f).HasCord q := by
  obtain ⟨y, hy, hp⟩ := h
  exact ⟨f y, (List.mem_map_of_mem hy : f y ∈ (s.cord :: s.cords).map f), hf y hp⟩

/-- A change of the cords of one number: they have what the change makes of the property, the others have it as before. -/
theorem hasCord_onCord {p q : Cord → Prop} {c : Nat} {f : Cord → Cord} (hf : ∀ y, p y → y.cid = c → q (f y))
    (ho : ∀ y, p y → y.cid ≠ c → q y) {s : State} (h : s.HasCord p) : (s.onCord c f).HasCord q := by
  refine hasCord_mapCords (fun y hp => ?_) h
  split
  next hc => exact hf y hp hc
  next hc => exact ho y hp hc

/-! The trap of a knot (R191). -/

/-- The trap of member m stands in a cord: its wait is withdrawn, and the cause waits for its next issue point. -/
def KnotTrapped (m : Cord × Seen) (y : Cord) : Prop :=
  y.cid = m.1.cid ∧ y.wait = .none ∧ ∃ a ∈ y.async, a.cause = .knot ∧ a.info = m.2.blk.word.setWidth 64

/-- The last change of a cord that a knot traps: its waits and its request for registers go, and the cause is added. -/
def knotFreed (a : Async) (c : Cord) : Cord :=
  Cord.rechoose { c.freeWaits with wait := .none, async := c.async ++ [a], xgrant := 0 }

@[simp] theorem rechoose_cid (c : Cord) : c.rechoose.cid = c.cid := by unfold Cord.rechoose; split <;> rfl
@[simp] theorem rechoose_wait (c : Cord) : c.rechoose.wait = c.wait := by unfold Cord.rechoose; split <;> rfl
@[simp] theorem rechoose_async (c : Cord) : c.rechoose.async = c.async := by unfold Cord.rechoose; split <;> rfl

@[simp] theorem mapThreads_cid (c : Cord) (m : Word) (f : Nat → Thread → Thread) : (c.mapThreads m f).cid = c.cid := rfl
@[simp] theorem freeWaits_cid (c : Cord) : c.freeWaits.cid = c.cid := mapThreads_cid c _ _

theorem knotFreed_cid (a : Async) (c : Cord) : (knotFreed a c).cid = c.cid := by simp [knotFreed]
theorem knotFreed_wait (a : Async) (c : Cord) : (knotFreed a c).wait = .none := by simp [knotFreed]
theorem knotFreed_async (a : Async) (c : Cord) : (knotFreed a c).async = c.async ++ [a] := by simp [knotFreed]

/-- The pending wait-full loads of a cord end in it: its flags go down and its releases wait for them no longer (R191). -/
def loadsDropped (mine : List WfLoad) (x : Cord) : Cord :=
  let x := mine.foldl (fun x w => x.flagDown w.flag.val) x
  { x with rels := x.rels.map fun r => { r with loads := r.loads.filter fun k => !(mine.map (·.k)).contains k } }

theorem loadsDropped_keeps (mine : List WfLoad) (x : Cord) :
    (loadsDropped mine x).cid = x.cid ∧ (loadsDropped mine x).wait = x.wait ∧ (loadsDropped mine x).async = x.async :=
  foldl_keeps (fun y : Cord => y.cid = x.cid ∧ y.wait = x.wait ∧ y.async = x.async) (fun x (w : WfLoad) => x.flagDown w.flag.val) mine
    (fun _ _ h => h) x ⟨rfl, rfl, rfl⟩

/-- A member with an active handler kills its launch, which leaves the cords (R365). -/
theorem knotTrap_of_active {x : Cord × Seen} (s : State) (h : x.1.trap.v = true) :
    ∃ q m, s.knotTrap x = State.killLaunch q 0x22 (s.raised m .knot) :=
  ⟨_, _, if_pos h⟩

/-- A member without one gets the trap in its cord, after its pending loads have ended and its motif and core have let go of its wait. -/
theorem knotTrap_of_free {x : Cord × Seen} (s : State) (h : x.1.trap.v = false) :
    ∃ (a : Async) (g h : Motif → Motif) (mine : List WfLoad) (f : Core → Core),
      a.cause = .knot ∧ a.info = x.2.blk.word.setWidth 64 ∧
      s.knotTrap x = ((((s.onMotif x.1.mid g).onMotif x.1.mid h).onCord x.1.cid (loadsDropped mine)).onCore x.1.core f).onCord
        x.1.cid (knotFreed a) :=
  ⟨_, _, _, _, _, rfl, rfl, if_neg (by rw [h]; decide)⟩

@[simp] theorem knotTrap_mem (x : Cord × Seen) (s : State) : (s.knotTrap x).mem = s.mem := by
  cases h : x.1.trap.v with
  | true => obtain ⟨q, m, he⟩ := knotTrap_of_active s h; simp [he]
  | false => obtain ⟨a, g, g', mine, f, -, -, he⟩ := knotTrap_of_free s h; simp [he]

@[simp] theorem knotTrap_knotAt (x : Cord × Seen) (s : State) : (s.knotTrap x).knotAt = s.knotAt := by
  cases h : x.1.trap.v with
  | true => obtain ⟨q, m, he⟩ := knotTrap_of_active s h; simp [he]
  | false => obtain ⟨a, g, g', mine, f, -, -, he⟩ := knotTrap_of_free s h; simp [he]

/-- The cords of an operation that leaves them have what they had. -/
theorem hasCord_of_cords_eq {p : Cord → Prop} {s t : State} (h : s.HasCord p) (h1 : t.cord = s.cord) (h2 : t.cords = s.cords) :
    t.HasCord p := by
  rwa [State.HasCord, h1, h2]

/-- What the changes of cords by the trap of x make of a property makes that of the whole trap: the end of the loads, then the trap itself. -/
theorem hasCord_knotTrap {p q : Cord → Prop} {x : Cord × Seen} {s : State} (hv : x.1.trap.v = false)
    (hf : ∀ y a, a.cause = .knot → a.info = x.2.blk.word.setWidth 64 → p y → y.cid = x.1.cid → q (knotFreed a y))
    (ho : ∀ y, p y → y.cid ≠ x.1.cid → q y) (hl : ∀ y mine, p y → p (loadsDropped mine y)) (h : s.HasCord p) :
    (s.knotTrap x).HasCord q := by
  obtain ⟨a, g, g', mine, f, hc, hi, he⟩ := knotTrap_of_free s hv
  rw [he]
  refine hasCord_onCord (fun y hp => hf y a hc hi hp) ho (hasCord_of_cords_eq ?_ (State.onCore_cord _ _ _) (State.onCore_cords _ _ _))
  exact hasCord_onCord (fun y hp _ => hl y mine hp) (fun y hp _ => hp) (hasCord_of_cords_eq h rfl rfl)

/-- Between s and t no cord has gone and no trap of a knot was withdrawn. -/
def KeepsTrapped (s t : State) : Prop :=
  (∀ c, s.HasCord (·.cid = c) → t.HasCord (·.cid = c)) ∧ ∀ m, s.HasCord (KnotTrapped m) → t.HasCord (KnotTrapped m)

theorem KeepsTrapped.refl (s : State) : KeepsTrapped s s := ⟨fun _ h => h, fun _ h => h⟩
theorem KeepsTrapped.trans {s t u : State} (h : KeepsTrapped s t) (k : KeepsTrapped t u) : KeepsTrapped s u :=
  ⟨fun c hc => k.1 c (h.1 c hc), fun m hm => k.2 m (h.2 m hm)⟩

theorem keepsTrapped_of_cords_eq {s t : State} (h1 : t.cord = s.cord) (h2 : t.cords = s.cords) : KeepsTrapped s t :=
  ⟨fun _ h => hasCord_of_cords_eq h h1 h2, fun _ h => hasCord_of_cords_eq h h1 h2⟩

theorem knotTrapped_loadsDropped {m : Cord × Seen} {y : Cord} (mine : List WfLoad) (h : KnotTrapped m y) :
    KnotTrapped m (loadsDropped mine y) := by
  obtain ⟨hc, hw, ha⟩ := loadsDropped_keeps mine y
  rwa [KnotTrapped, hc, hw, ha]

theorem keepsTrapped_knotTrap (s : State) (x : Cord × Seen) : KeepsTrapped s (s.knotTrap x) := by
  cases hv : x.1.trap.v with
  | true =>
    obtain ⟨q, m, he⟩ := knotTrap_of_active s hv
    rw [he]
    exact keepsTrapped_of_cords_eq (State.raised_cord _ _ _) (State.raised_cords _ _ _)
  | false =>
    refine ⟨fun c h => hasCord_knotTrap hv (fun y a _ _ hp _ => (knotFreed_cid a y).trans hp) (fun _ hp _ => hp)
      (fun y mine hp => (loadsDropped_keeps mine y).1.trans hp) h, fun m h => hasCord_knotTrap hv ?_ (fun _ hp _ => hp)
      (fun y mine hp => knotTrapped_loadsDropped mine hp) h⟩
    rintro y a - - ⟨hc, -, b, hb, hk⟩ -
    exact ⟨(knotFreed_cid a y).trans hc, knotFreed_wait a y, b, by rw [knotFreed_async]; exact List.mem_append_left _ hb, hk⟩

/-- A member without an active handler is trapped. -/
theorem knotTrap_traps {m : Cord × Seen} {s : State} (hv : m.1.trap.v = false) (h : s.HasCord (·.cid = m.1.cid)) :
    (s.knotTrap m).HasCord (KnotTrapped m) :=
  hasCord_knotTrap hv
    (fun y a hc hi hp _ => ⟨(knotFreed_cid a y).trans hp, knotFreed_wait a y, a, by simp [knotFreed_async], hc, hi⟩)
    (fun _ hp hn => absurd hp hn) (fun y mine hp => (loadsDropped_keeps mine y).1.trans hp) h

/-! The reading (R191, R333). -/

/-- What a reading notes of a cord: what it sees of a blocked one, unless it traps it. -/
def State.knotNote (s : State) (c : Cord) : Cord :=
  { c with seen := if s.knotMembers.any (fun m => m.1.cid == c.cid) then .none else (s.blockedCords.find? fun x => x.1.cid == c.cid).map (·.2) }

/-- What a reading notes of a pattern: the progress of a list that is stuck. -/
def State.knotMark (s : State) (p : Pattern) : Pattern := { p with stuck := if s.listStuck p then some p.retired else .none }

/-- The state of a reading after its notes, with what each motif's blocked cords name watched from now on. -/
def State.knotNoted (s : State) : State :=
  let t := s.mapMotifs fun m => { m with watch := s.blockedCords.filterMap fun x => if x.1.mid = m.mid then x.2.blk.named else none }
  State.mapCords s.knotNote { t with knotAt := t.cycle, patterns := t.patterns.map s.knotMark }

/-- The patterns that no progress since the last reading ends. -/
def State.knotDead (s : State) : List Pattern := s.patterns.filter fun p => s.listStuck p && p.stuck == some p.retired

/-- The state after the members were trapped. -/
def State.knotsTrapped (s : State) : State := s.knotMembers.foldl (fun s m => s.knotTrap m) s.knotNoted

/-- Patterns that are killed with code 0x10, one after another. -/
def State.killKnots (ps : List Pattern) (s : State) : State := ps.foldl (fun s p => s.killLaunch p.q 0x10) s

/-- The state after a reading. -/
def State.knotRead (s : State) : State := s.knotsTrapped.killKnots s.knotDead

theorem exec_knotDetectorReading {s : State} (h : s.now = some .knotDetectorReading) : exec .knotDetectorReading s = .next s.knotRead := by
  change execKnotDetectorReading s = _
  unfold execKnotDetectorReading
  rw [h]
  rfl

/-- What a kill leaves, kills leave. -/
theorem killKnots_keeps {β : Type} (g : State → β) (h : ∀ q s, g (State.killLaunch q 0x10 s) = g s) (ps : List Pattern) (s : State) :
    g (s.killKnots ps) = g s :=
  foldl_keeps (fun t => g t = g s) (fun s (p : Pattern) => s.killLaunch p.q 0x10) ps (fun t p ht => (h p.q t).trans ht) s rfl

/-- What the note of a reading and the trap of a member leave, a reading with its traps leaves. -/
theorem knotsTrapped_keeps {β : Type} (g : State → β) (h : ∀ m s, g (State.knotTrap m s) = g s) (s : State) :
    g s.knotsTrapped = g s.knotNoted :=
  foldl_keeps (fun t => g t = g s.knotNoted) (fun s m => s.knotTrap m) s.knotMembers (fun t m ht => (h m t).trans ht) s.knotNoted rfl

theorem knotRead_mem (s : State) : s.knotRead.mem = s.mem :=
  (killKnots_keeps (·.mem) (fun _ _ => rfl) _ _).trans (knotsTrapped_keeps (·.mem) knotTrap_mem s)

theorem knotRead_knotAt (s : State) : s.knotRead.knotAt = s.cycle :=
  (killKnots_keeps (·.knotAt) (fun _ _ => rfl) _ _).trans (knotsTrapped_keeps (·.knotAt) knotTrap_knotAt s)

theorem hasCord_knotNoted {s : State} {c : Nat} (h : s.HasCord (·.cid = c)) : s.knotNoted.HasCord (·.cid = c) :=
  hasCord_mapCords (p := (·.cid = c)) (f := s.knotNote) (fun _ hp => hp) h

theorem hasCord_of_blocked {s : State} {m : Cord × Seen} (h : m ∈ s.blockedCords) : s.HasCord (·.cid = m.1.cid) := by
  obtain ⟨c, hc, he⟩ := List.mem_filterMap.1 h
  dsimp only at he
  split at he <;> cases he
  exact ⟨c, (List.mem_filter.1 (List.mem_filter.1 hc).1).1, rfl⟩

/-- Each member without an active handler is trapped by the reading (R191). -/
theorem knotRead_traps {s : State} {m : Cord × Seen} (hm : m ∈ s.knotMembers) (hv : m.1.trap.v = false) :
    s.knotRead.HasCord (KnotTrapped m) := by
  have hn := hasCord_knotNoted (hasCord_of_blocked (knotMembers_closed hm).1)
  obtain ⟨t, h1, h2⟩ := foldl_through KeepsTrapped.refl KeepsTrapped.trans keepsTrapped_knotTrap hm s.knotNoted
  refine hasCord_of_cords_eq (h2.2 m (knotTrap_traps hv (h1.1 _ hn))) ?_ ?_
  · exact killKnots_keeps (·.cord) (fun _ _ => rfl) s.knotDead s.knotsTrapped
  · exact killKnots_keeps (·.cords) (fun _ _ => rfl) s.knotDead s.knotsTrapped

/-- A pattern that runs, or is being killed as stuck. -/
def Pattern.Stuck (p : Pattern) : Prop := p.st = .running ∨ p.st = .killing 0x10

/-- Between s and t no such pattern has gone, and one that is being killed as stuck still is. -/
def KeepsPatterns (s t : State) : Prop :=
  ∀ p ∈ s.patterns, p.Stuck → ∃ p' ∈ t.patterns, p'.ord = p.ord ∧ p'.q = p.q ∧ p'.Stuck ∧ (p.st = .killing 0x10 → p'.st = .killing 0x10)

theorem KeepsPatterns.refl (s : State) : KeepsPatterns s s := fun p hp h => ⟨p, hp, rfl, rfl, h, id⟩

theorem KeepsPatterns.trans {s t u : State} (h : KeepsPatterns s t) (k : KeepsPatterns t u) : KeepsPatterns s u := by
  intro p hp hs
  obtain ⟨p', hp', ho, hq, hs', hk⟩ := h p hp hs
  obtain ⟨p'', hp'', ho', hq', hs'', hk'⟩ := k p' hp' hs'
  exact ⟨p'', hp'', ho'.trans ho, hq'.trans hq, hs'', hk' ∘ hk⟩

/-- A kill with code 0x10 reaches such a pattern of its queue. -/
theorem killLaunch_kills {p : Pattern} {s : State} (q : Nat) (hp : p ∈ s.patterns) (h : p.Stuck) :
    ∃ p' ∈ (s.killLaunch q 0x10).patterns, p'.ord = p.ord ∧ p'.q = p.q ∧ p'.Stuck ∧
      (p.st = .killing 0x10 ∨ p.q = q → p'.st = .killing 0x10) := by
  refine ⟨_, List.mem_map_of_mem hp, ?_⟩
  by_cases hq : p.q = q ∧ p.st ≠ .waiting
  · rw [if_pos hq]
    rcases h with h | h <;> simp [Pattern.Stuck, h]
  · rw [if_neg hq]
    refine ⟨rfl, rfl, h, ?_⟩
    rintro (hk | hk)
    · exact hk
    · exact absurd ⟨hk, by rcases h with h | h <;> rw [h] <;> decide⟩ hq

theorem keepsPatterns_killLaunch (s : State) (q : Nat) : KeepsPatterns s (s.killLaunch q 0x10) := by
  intro p hp h
  obtain ⟨p', hp', ho, hq, hs, hk⟩ := killLaunch_kills q hp h
  exact ⟨p', hp', ho, hq, hs, fun h => hk (.inl h)⟩

/-- A list pricking that is as stuck as it was at the last reading is killed, with code 0x10, if no cord is trapped (R333). -/
theorem knotRead_kills {s : State} {p : Pattern} (hp : p ∈ s.patterns) (hm : s.knotMembers = []) (hs : s.listStuck p = true)
    (hr : p.stuck = some p.retired) : ∃ p' ∈ s.knotRead.patterns, p'.ord = p.ord ∧ p'.st = .killing 0x10 := by
  have hrun : p.st = .running := by
    simp only [State.listStuck, Bool.and_eq_true, beq_iff_eq] at hs
    exact hs.1.1.1.1
  have hdead : p ∈ s.knotDead := List.mem_filter.2 ⟨hp, by simp [hs, hr]⟩
  have hn : s.knotMark p ∈ s.knotsTrapped.patterns := by
    rw [State.knotsTrapped, hm]
    exact (List.mem_map_of_mem hp : s.knotMark p ∈ s.patterns.map s.knotMark)
  obtain ⟨t, h1, h2⟩ := foldl_through KeepsPatterns.refl KeepsPatterns.trans
    (f := fun s (p : Pattern) => s.killLaunch p.q 0x10) (fun s p => keepsPatterns_killLaunch s p.q) hdead s.knotsTrapped
  obtain ⟨p1, hp1, ho1, hq1, hs1, -⟩ := h1 _ hn (.inl hrun)
  obtain ⟨p2, hp2, ho2, -, hs2, hk2⟩ := killLaunch_kills p.q hp1 hs1
  obtain ⟨p3, hp3, ho3, -, -, hk3⟩ := h2 _ hp2 hs2
  exact ⟨p3, hp3, ho3.trans (ho2.trans ho1), hk3 (hk2 (.inr hq1))⟩

end Sys2Proof.Machine
end

section
/-! Translation, its invalidation and the knot detector, as the spec has them (R52 to R54, R166, R191, R333, R361, R362). -/

namespace Sys2Proof.Machine

open Claims

/-- The addresses that a tlbi names, by the scope in its control word: a page, a large page, or all (R361). -/
theorem tlbiRange_eq (x : Nat) :
    tlbiRange x = if x / 2 ^ 12 % 4 = 0 then (x / 2 ^ 16 * 2 ^ 16, 2 ^ 16)
      else if x / 2 ^ 12 % 4 = 1 then (x / 2 ^ 25 * 2 ^ 25, 2 ^ 25) else (0, 2 ^ 64) := by
  change (match x / 2 ^ 12 % 4 with | 0 => _ | 1 => _ | _ => _) = _
  generalize x / 2 ^ 12 % 4 = scope
  match scope with
  | 0 | 1 | _ + 2 => rfl

/-- The addresses that a tlbi names overlap a region that begins below their end and ends above their beginning (R361). -/
theorem overlaps_tlbiRange {x : Nat} {r : Region} :
    let scope := x / 2 ^ 12 % 4
    let lo := if scope = 0 then x / 2 ^ 16 * 2 ^ 16 else if scope = 1 then x / 2 ^ 25 * 2 ^ 25 else 0
    let hi := if scope = 0 then lo + 2 ^ 16 else if scope = 1 then lo + 2 ^ 25 else 2 ^ 64
    r.base < hi → lo < r.base + r.size → overlaps (tlbiRange x).1 (tlbiRange x).2 r.base r.size = true := by
  intro scope lo hi hhi hlo
  rw [overlaps, Bool.and_eq_true, decide_eq_true_iff, decide_eq_true_iff, tlbiRange_eq]
  dsimp only [lo, hi, scope] at hlo hhi
  split_ifs at hlo hhi ⊢
  · exact ⟨hlo, hhi⟩
  · exact ⟨hlo, hhi⟩
  · exact ⟨hlo, by rwa [Nat.zero_add]⟩

/-- dtld, with map 0 and with a table (R52, R362). -/
theorem dtld_issues {s : State} (h : Form.check { lat := .v } s = none) :
    let c := s.cord
    let base := ((s.ctxOf c.ctx).decbase.toNat / 2 ^ 12) * 2 ^ 12
    (base = 0 → ∃ t, exec .dtld s = .next (Form.issued { lat := .v } t) ∧ t.mem = s.mem ∧ Sends s t 1 (.dtldComplete c.cid c.flag none c.core c.ctx)) ∧
      ∀ p, base ≠ 0 → Hits s .r [base] [p] → ∃ t, exec .dtld s = .next (Form.issued { lat := .v } t) ∧ t.mem = s.mem ∧
        Sends s t 1 (.dtldComplete c.cid c.flag (some (p.addr base)) c.core c.ctx) := by
  intro c base
  have hb : (s.ctxOf c.ctx).tableBase = base := tableBase_eq _
  refine ⟨fun h0 => ⟨_, exec_dtld_map0 h (hb.trans h0), rfl, sends_afterFree 1 _ s⟩, fun p h0 hp => ?_⟩
  rw [← hb] at h0 hp ⊢
  exact ⟨_, exec_dtld_table h h0 hp, translated_mem s, sends_of_cycle (sends_afterFree 1 _ _) (translated_cycle s)⟩

end Sys2Proof.Machine

namespace Sys2Proof

open Machine Claims

/-- Settles O51: the stages of a tlbi are those of `State.tlbiDone`, the members of knots the greatest closed set by `knotMembers_closed` and
`knotMembers_greatest`. -/
theorem translationAndKnots : Obligations.TranslationAndKnots := by
  unfold Obligations.TranslationAndKnots
  refine ⟨fun a b s => ⟨dtld_issues, exec_tlbi_trap, fun h hx => ?_⟩, fun s c f x hr => ⟨fun pa core ctx hn => ?_, fun job hn => ?_⟩,
    fun s c f pa core ctx hn => ?_, fun c m s was now hm => unmoved_iff hm was now, fun s hn => ⟨fun m hm => ?_, fun set => knotMembers_greatest, ?_⟩⟩
  · have he := extends_tlbiDone (s.cord.once64 a b) s
    refine ⟨_, _, exec_tlbi h hx, he.mem, he.backing, sends_tlbiComplete _ s, tlb_tlbiDone _ s,
      fun line hl core hc => recalls_tlbiDone _ s hl hc, fun k hk l => mem_locks_tlbiDone _ s hk l, fun k hk hc r hr hhi hlo => ?_⟩
    exact asks_tlbiDone _ s hk hr ((tlbiCtx_iff _ _).2 hc) (overlaps_tlbiRange hhi hlo)
  · obtain ⟨y, hy, hf⟩ := flagOf_complete (f := f) ((cordRec_setTable core ctx (pa.map s.readTable) s c).trans hr.1)
    exact ⟨_, y, exec_dtldComplete hn, hy, hf⟩
  · by_cases hb : s.tlbiBusy job
    · exact ⟨s.after 1 (.tlbiComplete c f job), x, (exec_tlbiComplete hn).trans (by rw [if_pos hb]), hr.1, fun _ => ⟨rfl, sends_after 1 (.tlbiComplete c f job) s⟩, fun h => absurd hb h⟩
    · obtain ⟨y, hy, hf⟩ := flagOf_complete (f := f) hr.1
      exact ⟨_, y, (exec_tlbiComplete hn).trans (by rw [if_neg hb]), hy, fun h => absurd h hb, fun _ => hf⟩
  · exact ⟨_, exec_dtldComplete hn, tableOf_setTable core ctx _ s⟩
  · obtain ⟨hblk, x, hx, hu, hw⟩ := knotMembers_closed hm
    exact ⟨hblk, ⟨x, hx, hu, fun w h => hw w (List.mem_append_left _ h)⟩, fun w h => hw w (List.mem_append_right _ h)⟩
  · refine ⟨_, exec_knotDetectorReading hn, knotRead_knotAt s, knotRead_mem s, fun m hm hv => knotRead_traps hm hv,
      fun p hp hm hs hr => knotRead_kills hp hm hs hr⟩

end Sys2Proof
end

section
/-! Conversions to the tapered formats under sr: the rounding carries a value that is itself an encoding to the next one as soon as the u of
the mode has more than the 16 bits that R71 takes from B. -/

namespace Sys2Proof.Machine

/-- Under sr a quotient without remainder is kept if and only if u has at most 16 bits (R71). -/
theorem roundAt_sr_of_dvd {neg : Bool} {u num den : Nat} {e q : Int} (h : (scaled num den (e - q)).2 ∣ (scaled num den (e - q)).1) :
    roundAt (.sr u) neg num den e q =
      (scaled num den (e - q)).1 / (scaled num den (e - q)).2 + if 2 ^ 16 ≤ u then 1 else 0 := by
  simp only [roundAt, Nat.mod_eq_zero_of_dvd h, Nat.zero_mul, Nat.zero_div, Nat.zero_add, decide_eq_true_eq]
  split <;> rfl

/-- One in TAP8 under sr: its own encoding 0x40 while u has at most 16 bits, and the next encoding from there on (R65, R71). -/
theorem encodeFmt_tap8_one_sr (fz : Byte) (sat : Bool) (u : Nat) :
    encodeFmt fz 12 (.sr u) sat (.fin false 1 0) = 0x40 + if 2 ^ 16 ≤ u then 1 else 0 :=
  calc encodeFmt fz 12 (.sr u) sat (.fin false 1 0)
    _ = roundAt (.sr u) false 4 1 4 0 := rfl
    _ = 0x40 + if 2 ^ 16 ≤ u then 1 else 0 := roundAt_sr_of_dvd (by decide)

end Sys2Proof.Machine

namespace Sys2Proof

open Machine

/-- Refutes O21: its clause on the tapered formats gives every value that is an encoding that encoding back, in every mode, thus also under an
sr whose u has 17 bits. There the model encodes 1 in TAP8 as 0x41 and not as 0x40 (`encodeFmt_tap8_one_sr`). No conversion has such a u:
R71 takes it from B[15:0], and `convRm` gives 16 bits. -/
theorem not_conversionResults : ¬ Obligations.ConversionResults := by
  unfold Obligations.ConversionResults
  rintro ⟨-, -, -, formats, -⟩
  obtain ⟨-, -, -, tapered, -⟩ := formats 0 (.sr (2 ^ 16)) false
  obtain ⟨-, -, -, -, -, -, finite⟩ := tapered 12 7 (List.mem_cons_self ..)
  obtain ⟨-, -, atEncodings⟩ := finite false 1 0 Nat.one_pos
  have isOne : Machine.Num.eq (.fin false 1 0) (decodeFmt 0 12 0x40) = true := by decide
  have kept : encodeFmt 0 12 (.sr (2 ^ 16)) false (.fin false 1 0) = 0x40 := (atEncodings 0x40 (by decide) (by decide)).1 isOne
  rw [encodeFmt_tap8_one_sr, if_pos (Nat.le_refl _)] at kept
  exact absurd kept (by decide)

end Sys2Proof
end

section
/-! What the issue of a form changes (R81, R83, R88, R121). -/

namespace Sys2Proof.Machine

open Claims

/-! What the issue of a form takes of its core and of its cord. -/

/-- A core after form f has issued at slot q in cycle now. -/
def Form.takes (f : Form) (q now : Nat) (x : Core) : Core :=
  { x with
    slotUsed := SMap.set 0 x.slotUsed q (now + 1), holder := SMap.set 0 x.holder q 0,
    vecFree := (match f.unit with | .vec n => SMap.set 0 x.vecFree q (now + n) | _ => x.vecFree),
    xchFree := (match f.unit with | .net => SMap.set 0 x.xchFree q (now + 4) | _ => x.xchFree) }

/-- The completion flags of a cord after form f has issued (R81). -/
def Form.flags (f : Form) (c : Cord) : SMap Nat := if f.lat = .v then SMap.upd 0 c.f c.flag.val (· + 1) else c.f

theorem get_flags (f : Form) (c : Cord) (x : Nat) :
    SMap.get 0 (f.flags c) x = c.flagOf x + if f.lat = .v ∧ x = c.flag.val then 1 else 0 := by
  unfold Form.flags Cord.flagOf
  by_cases hv : f.lat = .v
  · rw [if_pos hv, SMap.get_upd]
    by_cases hx : x = c.flag.val <;> simp [hv, hx]
  · simp [hv]

theorem issued_eq (f : Form) (s : State) :
    f.issued s = State.onCore s.cord.core (f.takes s.cord.slot s.cycle)
      { s with
        cord := { s.cord with
          cl := { s.cord.cl with slot := s.cord.cl.slot + 1, lastC := s.cycle, lastH := f.lat.hold, any := true },
          f := f.flags s.cord, count := 0, urgent := false, issuedAt := s.cycle, blk := {}, walked := [] } } := by
  have ht : ∀ x, f.takes s.cord.slot s.cycle x = (
      let x := { x with slotUsed := SMap.set 0 x.slotUsed s.cord.slot (s.cycle + 1), holder := SMap.set 0 x.holder s.cord.slot 0 }
      match f.unit with
      | .none => x
      | .vec n => { x with vecFree := SMap.set 0 x.vecFree s.cord.slot (s.cycle + n) }
      | .net => { x with xchFree := SMap.set 0 x.xchFree s.cord.slot (s.cycle + 4) }) := by
    intro x; unfold Form.takes; cases f.unit <;> rfl
  rw [funext ht]
  unfold Form.issued Form.flags
  by_cases hv : f.lat = .v
  · simp only [if_pos hv] <;> rfl
  · simp only [if_neg hv] <;> rfl

theorem coreOf_issued (f : Form) (s : State) (j : Nat) :
    (f.issued s).coreOf j = if j = s.cord.core then f.takes s.cord.slot s.cycle (s.coreOf j) else s.coreOf j := by
  rw [issued_eq]
  refine (coreOf_onCore s.cord.core j (f.takes s.cord.slot s.cycle) _ fun _ => rfl).trans ?_
  split
  next h => rw [h]; rfl
  next => rfl

section
variable (f : Form) (q now : Nat) (x : Core)

/-- No other slot of the core is touched. -/
theorem takes_ne {i : Nat} (h : i ≠ q) :
    SMap.get 0 (f.takes q now x).slotUsed i = SMap.get 0 x.slotUsed i ∧
    SMap.get 0 (f.takes q now x).holder i = SMap.get 0 x.holder i ∧
    SMap.get 0 (f.takes q now x).vecFree i = SMap.get 0 x.vecFree i ∧
    SMap.get 0 (f.takes q now x).xchFree i = SMap.get 0 x.xchFree i := by
  unfold Form.takes
  cases f.unit <;> simp [SMap.get_set, h]

theorem takes_self :
    SMap.get 0 (f.takes q now x).slotUsed q = now + 1 ∧ SMap.get 0 (f.takes q now x).holder q = 0 ∧
    (∀ n, f.unit = .vec n → SMap.get 0 (f.takes q now x).vecFree q = now + n) ∧
    (f.unit = .net → SMap.get 0 (f.takes q now x).xchFree q = now + 4) := by
  unfold Form.takes
  exact ⟨by simp, by simp, fun n hn => by simp [hn], fun hn => by simp [hn]⟩

end

end Sys2Proof.Machine

namespace Sys2Proof

open Machine Claims

/-- Settles O7: what the issue takes of the core and of the flags is `Form.takes` and `Form.flags`. -/
theorem issueFrame : Obligations.IssueFrame := by
  unfold Obligations.IssueFrame
  intro f s k q x y
  have hy : y = f.takes q s.cycle x := by rw [← if_pos rfl (c := k = k) (t := f.takes q s.cycle x)]; exact coreOf_issued f s k
  rw [hy]
  obtain ⟨h1, h2, h3, h4⟩ := takes_self f q s.cycle x
  exact ⟨⟨f.flags s.cord, issued_eq f s, get_flags f s.cord⟩, fun j hj => (coreOf_issued f s j).trans (if_neg hj),
    fun i hi => takes_ne f q s.cycle x hi, h1, h2, h3, h4, rfl, rfl, rfl, rfl, rfl, rfl, rfl⟩

end Sys2Proof
end

section
/-! The course of a step: judgement, the end of a cycle, and the word that issues (R54, R87, R88). -/

namespace Sys2Proof.Machine

open Claims

/-! The judgement of a cycle only notes things of cords and of cores (R87). -/

/-- What a cycle's judgement keeps: memory, the agenda and the time. -/
def Judged (s t : State) : Prop := t.mem = s.mem ∧ t.agenda = s.agenda ∧ t.cycle = s.cycle

theorem judged_onCore (k : Nat) (f : Core → Core) (s : State) : Judged s (s.onCore k f) := by simp [Judged]

theorem judged_request (c after : Cord) (asked : List (Nat × Nat)) (s : State) : Judged s (State.request c after asked s) := by
  unfold State.request
  split_ifs
  · exact ⟨rfl, rfl, rfl⟩
  · exact judged_onCore _ _ s
  · exact judged_onCore _ _ s
  · exact ⟨rfl, rfl, rfl⟩

theorem judged_judge (s : State) (c : Cord) : Judged s (s.judge c) := by
  unfold State.judge
  extract_lets note
  split
  · exact ⟨rfl, rfl, rfl⟩
  · split
    · exact judged_request c _ _ (s.onCord c.cid _)
    · exact ⟨rfl, rfl, rfl⟩

theorem judged_judgeAll (s : State) : Judged s s.judgeAll :=
  foldl_keeps (Judged s) State.judge s.allCords
    (fun t c h => let ⟨hm, ha, hc⟩ := judged_judge t c; ⟨hm.trans h.1, ha.trans h.2.1, hc.trans h.2.2⟩) s ⟨rfl, rfl, rfl⟩

/-! The end of a cycle. -/

theorem cordRec_mapCords (f : Cord → Cord) (s : State) (c : Nat) (h : ∀ x, (f x).cid = x.cid) :
    (s.mapCords f).cordRec c = (s.cordRec c).map f := by
  have hm : (s.mapCords f).cord :: (s.mapCords f).cords = (s.cord :: s.cords).map f := rfl
  rw [State.cordRec, hm, List.find?_map]
  simp only [Function.comp_def, h]
  rfl

/-- Each cord of s is still there in t, and has what g tells of it. -/
def KeepsOf {β : Type} (g : Cord → β) (s t : State) : Prop := ∀ c x, s.cordRec c = some x → ∃ y, t.cordRec c = some y ∧ g y = g x

namespace KeepsOf
variable {β : Type} {g : Cord → β}

theorem of_cords_eq {s t : State} (h1 : t.cord = s.cord) (h2 : t.cords = s.cords) : KeepsOf g s t :=
  fun c x h => ⟨x, by rw [State.cordRec, h1, h2]; exact h, rfl⟩

theorem refl (s : State) : KeepsOf g s s := of_cords_eq rfl rfl

theorem trans {s t u : State} (h : KeepsOf g s t) (k : KeepsOf g t u) : KeepsOf g s u := fun c x hx =>
  let ⟨y, hy, hg⟩ := h c x hx
  let ⟨z, hz, hg'⟩ := k c y hy
  ⟨z, hz, hg'.trans hg⟩

theorem mapCords {f : Cord → Cord} (s : State) (hc : ∀ x, (f x).cid = x.cid) (hg : ∀ x, g (f x) = g x) : KeepsOf g s (s.mapCords f) :=
  fun c x h => ⟨f x, by rw [cordRec_mapCords f s c hc, h]; rfl, hg x⟩

theorem onCord {f : Cord → Cord} (c : Nat) (s : State) (hc : ∀ x, (f x).cid = x.cid) (hg : ∀ x, g (f x) = g x) :
    KeepsOf g s (s.onCord c f) := by
  refine mapCords s (fun x => ?_) fun x => ?_ <;> split
  exacts [hc x, rfl, hg x, rfl]

end KeepsOf

/-- Between s and t no time passes, memory and agenda stay, and each cord keeps its count and its urgency (R88). -/
structure KeepsCounts (s t : State) : Prop where
  mem : t.mem = s.mem
  agenda : t.agenda = s.agenda
  cycle : t.cycle = s.cycle
  cords : KeepsOf (fun x => (x.urgent, x.count)) s t

namespace KeepsCounts

theorem of_cords_eq {s t : State} (hm : t.mem = s.mem) (ha : t.agenda = s.agenda) (hc : t.cycle = s.cycle) (h1 : t.cord = s.cord)
    (h2 : t.cords = s.cords) : KeepsCounts s t :=
  ⟨hm, ha, hc, .of_cords_eq h1 h2⟩

theorem refl (s : State) : KeepsCounts s s := of_cords_eq rfl rfl rfl rfl rfl

theorem trans {s t u : State} (h : KeepsCounts s t) (k : KeepsCounts t u) : KeepsCounts s u :=
  ⟨k.mem.trans h.mem, k.agenda.trans h.agenda, k.cycle.trans h.cycle, h.cords.trans k.cords⟩

theorem onCore (k : Nat) (f : Core → Core) (s : State) : KeepsCounts s (s.onCore k f) :=
  of_cords_eq (by simp) (by simp) (by simp) (by simp) (by simp)
theorem onCtx (k : Nat) (f : Ctx → Ctx) (s : State) : KeepsCounts s (s.onCtx k f) := of_cords_eq (by simp) (by simp) (by simp) (by simp) (by simp)
theorem onMotif (m : Nat) (f : Motif → Motif) (s : State) : KeepsCounts s (s.onMotif m f) := of_cords_eq rfl rfl rfl rfl rfl
theorem mapMotifs (f : Motif → Motif) (s : State) : KeepsCounts s (s.mapMotifs f) := of_cords_eq rfl rfl rfl rfl rfl
theorem onQueue (q : Nat) (f : Queue → Queue) (s : State) : KeepsCounts s (s.onQueue q f) := of_cords_eq rfl rfl rfl rfl rfl
theorem onPatterns (ps : List Pattern) (s : State) : KeepsCounts s { s with patterns := ps } := of_cords_eq rfl rfl rfl rfl rfl
theorem runEnds (s : State) : KeepsCounts s s.runEnds := of_cords_eq (by simp) (by simp) (by simp) (by simp) (by simp)
theorem unlockLine (ctx line : Nat) (s : State) : KeepsCounts s (s.unlockLine ctx line) := by
  apply of_cords_eq <;> simp [State.unlockLine]

theorem withdraw (s : State) (m : Motif) : KeepsCounts s (s.withdraw m) := by
  unfold State.withdraw
  refine (onCore m.core _ s).trans ⟨rfl, rfl, rfl, .mapCords _ (fun x => ?_) fun x => ?_⟩ <;> split <;> rfl

theorem preempt (m : Motif) (b : Option (Nat × Nat)) (s : State) : KeepsCounts s (s.preempt m b) := by
  unfold State.preempt
  extract_lets disc n s'
  split
  · exact onMotif _ _ s
  · exact (onMotif _ _ s).trans (onCtx _ _ _)

theorem killContext (ctx : Nat) (s : State) : KeepsCounts s (s.killContext ctx) := by
  have hq : KeepsCounts s ((List.range 64).foldl (fun s q =>
      if qCtx (s.queueOf q) = ctx then s.onQueue q fun x => { x with ctl := x.ctl &&& 0x7FFFFFFF } else s) s) := by
    refine foldl_keeps (KeepsCounts s) _ _ (fun t q h => ?_) s (refl s)
    split
    · exact h.trans (onQueue q _ t)
    · exact h
  exact foldl_keeps (KeepsCounts s) _ _ (fun t l h => h.trans (unlockLine ctx l t)) _ ((hq.trans (onPatterns _ _)).trans (mapMotifs _ _))

theorem stopMotif (s : State) (m : Motif) : KeepsCounts s (s.stopMotif m) := by
  unfold State.stopMotif
  extract_lets runs
  split_ifs
  · exact withdraw s m
  · exact (preempt m m.madeFor s).trans (withdraw _ m)
  · exact onMotif _ _ s
  · exact killContext _ s

theorem withdrawAll (s : State) : KeepsCounts s s.withdrawAll :=
  foldl_keeps (KeepsCounts s) State.stopMotif _ (fun t m h => h.trans (stopMotif t m)) s (refl s)

end KeepsCounts

theorem tally_cid (now : Nat) (c : Cord) : (c.tally now).cid = c.cid := by
  unfold Cord.tally; split
  · rfl
  · split <;> rfl

theorem tally_urgent (now : Nat) (c : Cord) : (c.tally now).urgent = c.urgent := by
  unfold Cord.tally; split
  · rfl
  · split <;> rfl

/-- The count of R88 at the end of a cycle. -/
theorem tally_count (now : Nat) (c : Cord) :
    (c.tally now).count =
      if c.issuedAt = now then c.count else match c.fit with | none => c.count | some true => c.count + 1 | some false => 0 := by
  unfold Cord.tally
  split
  · rfl
  · cases c.fit with
    | none => rfl
    | some b => cases b <;> rfl

/-- The end of a cycle tallies the cords of a device in service, and nothing else that it does touches what a count is made of. -/
theorem endCycle_tallies (s : State) : ∃ u, KeepsCounts (if s.dev.working then s.mapCords (Cord.tally s.cycle) else s) u ∧
    s.endCycle = { u with cycle := s.cycle + 1, now := none } := by
  unfold State.endCycle
  extract_lets u v
  have hu : KeepsCounts (if s.dev.working then s.mapCords (Cord.tally s.cycle) else s) u := by
    simp only [u]
    split
    · exact .withdrawAll _
    · exact .refl s
  have hv : KeepsCounts u v := by
    simp only [v]
    split
    · exact .runEnds u
    · exact .refl u
  have hc : v.cycle = s.cycle := by rw [(hu.trans hv).cycle]; split <;> rfl
  exact ⟨v, hu.trans hv, by rw [hc]⟩

theorem endCycle_keeps (s : State) : s.endCycle.mem = s.mem ∧ s.endCycle.agenda = s.agenda ∧ s.endCycle.cycle = s.cycle + 1 := by
  obtain ⟨u, hu, he⟩ := endCycle_tallies s
  rw [he]
  refine ⟨hu.mem.trans ?_, hu.agenda.trans ?_, rfl⟩ <;> split <;> rfl

theorem endCycle_cordRec {s : State} {c : Nat} {x : Cord} (hw : s.dev.working = true) (hx : s.cordRec c = some x) :
    ∃ y, s.endCycle.cordRec c = some y ∧ y.urgent = x.urgent ∧ y.count = (x.tally s.cycle).count := by
  obtain ⟨u, hu, he⟩ := endCycle_tallies s
  rw [if_pos hw] at hu
  obtain ⟨y, hy, hg⟩ := hu.cords c (x.tally s.cycle) (by rw [cordRec_mapCords _ _ _ (tally_cid s.cycle), hx]; rfl)
  obtain ⟨h1, h2⟩ := Prod.mk.inj hg
  exact ⟨y, by rw [he]; exact hy, h1.trans (tally_urgent _ x), h2⟩

/-! The word that issues. -/

/-- Bit 31 of a word, by its number. -/
theorem bit_31 (e : Word) : bit e 31 = decide (2 ^ 31 ≤ e.toNat) := by
  have := e.isLt
  rw [bit, BitVec.getLsbD, Nat.testBit_eq_decide_div_mod_eq, decide_eq_decide]
  omega

/-- The opcode of a word (R42). -/
theorem fld_opcode (w : Word) : fld w 22 10 = w.toNat / 2 ^ 22 := by
  have := w.isLt
  rw [fld, Nat.shiftRight_eq_div_pow, Nat.mod_eq_of_lt (by omega)]

/-- The operation of an opcode is the opcode itself under map 0 (R54). -/
theorem operationOf_none (w : Word) : operationOf none w = some (w.toNat / 2 ^ 22) := congrArg some (fld_opcode w)

/-- Under a table it is that of the opcode's entry, which is valid with bit 31 set and the reserved bits clear (R53). -/
theorem operationOf_some (tab : List Word) (w : Word) : operationOf (some tab) w =
    let e := (tab.getD (w.toNat / 2 ^ 22) 0).toNat
    if 2 ^ 31 ≤ e ∧ e / 2 ^ 10 % 2 ^ 21 = 0 then some (e % 2 ^ 10) else none := by
  simp only [operationOf, fld_opcode]
  simp only [bit_31, fld, Nat.shiftRight_eq_div_pow, Bool.and_eq_true, decide_eq_true_eq, beq_iff_eq, pow_zero, Nat.div_one]

theorem issue_of_ok {s : State} {i : Instr} (h : s.cord.next = .ok i) : s.issue = exec i { s with now := none } := by
  rw [State.issue, h]

theorem issue_of_error {s : State} {k : DecodeCause} (h : s.cord.next = .error k) :
    s.issue = exec .illegalWordIssue { s with now := some (.illegalWordIssue k (s.cord.word.setWidth 32)) } := by
  rw [State.issue, h]; rfl

/-! The branches of a step. -/

theorem step_of_due {s : State} {e : Event} {rest : List Due} (h : takeDue s.cycle s.agenda = some (e, rest)) :
    step s = exec e.row { s with agenda := rest, now := some e } := by
  rw [step, State.advanceOne, h]; rfl

section
variable {s : State} (hd : takeDue s.cycle s.agenda = none)
include hd

theorem step_of_stopped (h : s.stopped = true) : step s = .fault .clocksStopped := by
  rw [step, State.advanceOne, hd]; simp [h]

variable (hs : s.stopped = false)
include hs

theorem step_of_enabled {e : Event} (he : s.enabled = some e) : step s = exec e.row { s with now := some e } := by
  rw [step, State.advanceOne, hd]; simp only [hs, he]; rfl

variable (he : s.enabled = none)
include he

theorem step_of_uncounted (hw : s.dev.working = true) (hc : s.counted ≠ s.cycle + 1) : step s = .next s.judgeAll := by
  rw [step, State.advanceOne, hd]; simp [hs, he, hw, hc]

theorem step_of_chosen (hw : s.dev.working = true) (hc : s.counted = s.cycle + 1) {c : Cord} (hx : s.chosen = some c) :
    step s = (s.focus c.cid).issue := by
  rw [step, State.advanceOne, hd]; simp [hs, he, hw, hc, hx]

theorem step_of_idle (h : s.dev.working = true → s.counted = s.cycle + 1 ∧ s.chosen = none) : step s = .next s.endCycle := by
  rw [step, State.advanceOne, hd]
  cases hw : s.dev.working with
  | false => simp [hs, he]
  | true => simp [hs, he, h hw]

end

end Sys2Proof.Machine

namespace Sys2Proof

open Machine Claims

/-- Settles O57: the branches of `State.advanceOne` one by one, the counts at the end of a cycle by `endCycle_tallies`. -/
theorem stepRunsTheDecodedInstruction : Obligations.StepRunsTheDecodedInstruction := by
  unfold Obligations.StepRunsTheDecodedInstruction
  refine fun s => ⟨fun e rest h => step_of_due h, fun hd hs => step_of_stopped hd hs, fun hd hs => ⟨fun e he => step_of_enabled hd hs he,
    fun he hw hc => ⟨step_of_uncounted hd hs he hw hc, ?_⟩, fun c he hw hc hx => ?_, fun he h => ⟨_, step_of_idle hd hs he h, ?_⟩⟩⟩
  · obtain ⟨hm, ha, ht⟩ := judged_judgeAll s
    exact ⟨hm, ha, ht, rfl⟩
  · intro t x op
    have hop : op = operationOf t.cord.cl.tab x.1 := by
      simp only [op]
      cases t.cord.cl.tab with
      | none => exact (operationOf_none x.1).symm
      | some tab => exact (operationOf_some tab x.1).symm
    have hn : t.cord.next = decodeOp op x.1 x.2 := by rw [hop]; rfl
    rw [step_of_chosen hd hs he hw hc hx]
    constructor <;> intro i hi <;> rw [← hn] at hi
    · exact issue_of_ok hi
    · exact issue_of_error hi
  · obtain ⟨hm, ha, ht⟩ := endCycle_keeps s
    refine ⟨ht, hm, ha, fun c x hw hx => ?_⟩
    obtain ⟨y, hy, hu, hn⟩ := endCycle_cordRec hw hx
    exact ⟨y, hy, hu, hn.trans (tally_count s.cycle x)⟩

end Sys2Proof
end

section
/-! Masks, mask forms, the register window and extra blocks (R94, R97, R101, R103). -/

namespace Sys2Proof.Machine

open Claims

/-! Lanes of a mask. -/

theorem mem_lanesOf {m : Word} {l : Nat} : l ∈ lanesOf m ↔ l < 32 ∧ bit m l = true := by
  simp [lanesOf]

theorem nodup_lanesOf (m : Word) : (lanesOf m).Nodup := List.nodup_range.filter _

/-- The first lane of a mask is the one below which the mask has none. -/
theorem head?_lanesOf {m : Word} {l : Nat} :
    (lanesOf m).head? = some l ↔ l < 32 ∧ bit m l = true ∧ ∀ j < l, bit m j = false := by
  rw [lanesOf, List.head?_filter, List.find?_range_eq_some]
  simp only [List.mem_range, Bool.not_eq_true']
  exact and_left_comm

theorem bit_lt {m : Word} {l : Nat} (h : bit m l = true) : l < 32 := by
  by_contra hl
  rw [bit, BitVec.getLsbD_of_ge m l (by omega)] at h
  cases h

theorem bit_lowestAlone (m : Word) (l : Nat) :
    bit (maskOf ((lanesOf m).take 1)) l = true ↔ bit m l = true ∧ ∀ j < l, bit m j = false := by
  have key : l < 32 → (bit (maskOf ((lanesOf m).take 1)) l = true ↔ (lanesOf m).head? = some l) := fun hl => by
    rw [bit_maskOf _ hl, List.take_one, List.contains_iff_mem, Option.mem_toList]
  constructor
  · exact fun h => (head?_lanesOf.1 ((key (bit_lt h)).1 h)).2
  · exact fun h => (key (bit_lt h.1)).2 (head?_lanesOf.2 ⟨bit_lt h.1, h⟩)

/-! Forms that compute registers from registers. -/

theorem computes_of_runRegs {i : Instr} {f : Form} {g : Cord → List RegWrite} (h : ∀ s, exec i s = runRegs f s g) :
    Computes i f f.lat.hold g := fun s hc => (h s).trans (runRegs_done hc g)

end Sys2Proof.Machine

namespace Sys2Proof

open Machine Claims

/-- Settles O9: each form only computes registers from registers, and `bit_lowestAlone` says what elect takes. -/
theorem maskRegisterResults : Obligations.MaskRegisterResults := by
  unfold Obligations.MaskRegisterResults
  intro d a b v lit m
  have mask {i : Instr} {g : Cord → Word} (h : ∀ s, exec i s = runMask d g s) : m i g := computes_of_runRegs h
  exact ⟨fun s h => runForm_done h rfl, mask fun _ => rfl, mask fun _ => rfl, mask fun _ => rfl, mask fun _ => rfl, mask fun _ => rfl,
    mask fun _ => rfl, ⟨_, mask fun _ => rfl, fun c l => bit_lowestAlone _ l⟩, computes_of_runRegs fun _ => rfl⟩

end Sys2Proof
end

section
/-! The register window and extra blocks (R97, R103). -/

namespace Sys2Proof.Machine

open Claims

theorem exec_winb {n : Imm} {s : State} (hc : Form.check { lat := .i4 } s = none) (hn : n.toNat ≤ 12) :
    exec (.winb n) s = .next (Form.issued { lat := .i4 } { s with cord := { s.cord with wb := 16 * n.toNat } }) :=
  show execWinb n s = _ from runForm_done hc (if_neg (by omega))

/-- A sparse map without the keys that p excludes. -/
theorem get_filter_keys {α : Type} (d : α) (m : SMap α) (p : Nat → Bool) (k : Nat) :
    SMap.get d (m.filter fun e => p e.1) k = if p k = true then SMap.get d m k else d := by
  induction m with
  | nil => simp
  | cons e m ih =>
    obtain ⟨k', v⟩ := e
    by_cases hp : p k' = true
    · rw [List.filter_cons_of_pos (by exact hp), SMap.get, SMap.get, ih]
      by_cases hk : k = k'
      · simp [hk, hp]
      · simp [hk]
    · rw [List.filter_cons_of_neg (by exact hp), SMap.get, ih]
      by_cases hk : k = k'
      · simp [hk, hp]
      · simp [hk]

theorem exec_xacq {n : Imm} {s : State} (hc : Form.check { lat := .i4, whole := true } s = none) (h0 : 0 < n.toNat)
    (hx : s.cord.xblk + n.toNat ≤ s.cord.xmax)
    (hf : s.cord.xgrant = n.toNat ∨ (s.coreOf s.cord.core).xreqs = [] ∧ n.toNat ≤ s.poolFree s.cord.core) :
    exec (.xacq n) s = .next (Form.issued { lat := .i4, whole := true } { s with cord := s.cord.takeBlocks n.toNat }) := by
  change execXacq n s = _
  refine runForm_done hc ?_
  dsimp only
  rw [if_neg (by omega), if_pos hf]
  rfl

/-- The registers of blocks that a cord takes read 0 in every lane (R103). -/
theorem get_takeBlocks (c : Cord) {n p l : Nat} (h1 : c.own ≤ p) (h2 : p < c.own + 16 * n) (hl : l < 32) :
    SMap.get 0 (c.takeBlocks n).v (p * 32 + l) = 0 := by
  have := get_filter_keys 0 c.v (fun k => !(decide (c.own * 32 ≤ k) && decide (k < (c.own + 16 * n) * 32))) (p * 32 + l)
  rw [if_neg (by simp; omega)] at this
  exact this

/-- The vector registers of a cord after its n highest blocks have gone back. -/
def Cord.keepBelow (c : Cord) (n : Nat) : SMap Word := c.v.filter fun e => decide (e.1 < (c.own - 16 * n) * 32)

theorem get_keepBelow (c : Cord) (n p : Nat) {l : Nat} (hl : l < 32) :
    SMap.get 0 (c.keepBelow n) (p * 32 + l) = if p < c.own - 16 * n then SMap.get 0 c.v (p * 32 + l) else 0 := by
  rw [Cord.keepBelow, get_filter_keys 0 c.v (fun k => decide (k < (c.own - 16 * n) * 32))]
  exact if_congr (by rw [decide_eq_true_eq]; omega) rfl rfl

/-- The state of an xrel of n blocks. -/
def State.giveBack (n : Nat) (s : State) : State :=
  { State.onCore s.cord.core (fun k => { k with xrelAt := s.cycle + 1, xrelN := s.justBack s.cord.core + n }) s with
    cord := { s.cord with xblk := s.cord.xblk - n, v := s.cord.keepBelow n } }

theorem exec_xrel {n : Imm} {s : State} (hc : Form.check { lat := .i4, whole := true } s = none) (h0 : 0 < n.toNat)
    (hn : n.toNat ≤ s.cord.xblk) : exec (.xrel n) s = .next (Form.issued { lat := .i4, whole := true } (s.giveBack n.toNat)) := by
  change execXrel n s = _
  refine runForm_done hc ?_
  dsimp only
  rw [if_neg (by omega)]
  unfold State.giveBack Cord.keepBelow State.onSelf
  simp

/-! The pool after an xrel. -/

/-- A cord is resident on a core (R12). -/
def State.resides (s : State) (core : Nat) (c : Cord) : Bool :=
  c.cid != 0 && c.core == core && (((s.findMotif c.mid).map fun m => m.status == .running).getD false)

theorem residents_eq (s : State) (core : Nat) :
    s.residents core = (if s.resides core s.cord = true then [s.cord] else []) ++ s.cords.filter (s.resides core) := by
  have h : s.residents core = (s.cord :: s.cords).filter (s.resides core) := rfl
  rw [h, List.filter_cons]
  split <;> rfl

/-- The blocks that go back count as just returned until the cycle ends (R103). -/
theorem justBack_issued_giveBack (f : Form) (n : Nat) (s : State) :
    (f.issued (s.giveBack n)).justBack s.cord.core = s.justBack s.cord.core + n := by
  have hc : (f.issued (s.giveBack n)).cycle = s.cycle := by simp [issued_eq, State.giveBack]
  have hg : (s.giveBack n).coreOf s.cord.core =
      { s.coreOf s.cord.core with xrelAt := s.cycle + 1, xrelN := s.justBack s.cord.core + n } :=
    (coreOf_onCore s.cord.core s.cord.core (fun k => { k with xrelAt := s.cycle + 1, xrelN := s.justBack s.cord.core + n }) s
      fun _ => rfl).trans (if_pos rfl)
  have hk := (coreOf_issued f (s.giveBack n) s.cord.core).trans (if_pos rfl)
  rw [State.justBack, hk, hg, hc]
  exact if_pos rfl

/-- An xrel gives nothing that the same cycle could grant (R103). -/
theorem poolFree_issued_giveBack (f : Form) {n : Nat} {s : State} (hn : n ≤ s.cord.xblk) :
    (f.issued (s.giveBack n)).poolFree s.cord.core ≤ s.poolFree s.cord.core := by
  have hm : (f.issued (s.giveBack n)).findMotif = s.findMotif := by
    funext m; simp [State.findMotif, State.allMotifs, issued_eq, State.giveBack]
  have hr : (f.issued (s.giveBack n)).resides = s.resides := by
    funext k c; rw [State.resides, hm]; rfl
  have hd : (f.issued (s.giveBack n)).cords = s.cords := by simp [issued_eq, State.giveBack]
  have hs : s.resides s.cord.core (f.issued (s.giveBack n)).cord = s.resides s.cord.core s.cord := by
    simp [issued_eq, State.giveBack, State.resides]
  simp only [State.poolFree, State.poolSize, residents_eq, justBack_issued_giveBack, hr, hd, hs]
  have h1 : (f.issued (s.giveBack n)).cord.regs = s.cord.regs := by simp [issued_eq, State.giveBack]
  have h2 : (f.issued (s.giveBack n)).cord.xblk = s.cord.xblk - n := by simp [issued_eq, State.giveBack]
  have h3 : (f.issued (s.giveBack n)).cord.xgrant = s.cord.xgrant := by simp [issued_eq, State.giveBack]
  split
  · simp only [List.map_append, List.map_cons, List.map_nil, List.sum_append, List.sum_cons, h1, h2, h3]
    omega
  · simp only [List.nil_append]
    omega

/-- A pending request is granted whole once its blocks are free (R97). -/
theorem exec_xacqGrant {s : State} {k c m : Nat} {rest : List (Nat × Nat)} (hn : s.now = some (.xacqGrant k))
    (hr : (s.coreOf k).xreqs = (c, m) :: rest) (hc : (s.findCord c).isSome = true) (hm : m ≤ s.poolFree k) :
    exec .xacqGrant s = .next (State.onCord c (fun x => { x with xgrant := m })
      (State.onCore k (fun x => { x with xreqs := rest }) s)) := by
  change execXacqGrant s = _
  unfold execXacqGrant
  rw [hn]
  dsimp only
  rw [hr]
  dsimp only
  rw [if_neg (by simpa [Option.isSome_iff_ne_none] using hc), if_neg (by omega)]

end Sys2Proof.Machine

namespace Sys2Proof

open Machine Claims

/-- Settles O11: what becomes of the pool is `poolFree_issued_giveBack`. -/
theorem windowAndBlockForms : Obligations.WindowAndBlockForms := by
  unfold Obligations.WindowAndBlockForms
  refine fun n s => ⟨fun hn hc => exec_winb hc hn, fun hc h0 hx hf => ⟨exec_xacq hc h0 hx hf, rfl, fun p l h1 h2 hl =>
    get_takeBlocks s.cord h1 h2 hl⟩, fun hc h0 hn => ?_, fun k c m rest hn hr hc hm => exec_xacqGrant hn hr hc hm⟩
  exact ⟨s.cord.keepBelow n.toNat, _, exec_xrel hc h0 hn, rfl, poolFree_issued_giveBack _ hn, fun p l hl => get_keepBelow s.cord _ p hl⟩

end Sys2Proof
end

section
/-! The threads of a cord: those of a mask changed, and the releases of meetings and of mask registers, each by what it does to one
thread (R91, R92). -/

namespace Sys2Proof.Machine

/-! Threads of a mask. -/

/-- Entries changed one after the other, each named once, are changed each by itself. -/
theorem get_foldl_upd {α : Type} [DecidableEq α] (d : α) (f : Nat → α → α) {ls : List Nat} (hn : ls.Nodup) (m : SMap α) (k : Nat) :
    SMap.get d (ls.foldl (fun m l => SMap.upd d m l (f l)) m) k = if k ∈ ls then f k (SMap.get d m k) else SMap.get d m k := by
  induction ls generalizing m with
  | nil => simp
  | cons l ls ih =>
    obtain ⟨hl, hn⟩ := List.nodup_cons.1 hn
    rw [List.foldl_cons, ih hn, SMap.get_upd]
    by_cases hk : k = l
    · subst hk; simp [hl]
    · simp [hk]

theorem thread_mapThreads (c : Cord) (m : Word) (f : Nat → Thread → Thread) (l : Nat) :
    (c.mapThreads m f).thread l = if bit m l = true then f l (c.thread l) else c.thread l := by
  have hm : l ∈ lanesOf m ↔ bit m l = true := mem_lanesOf.trans ⟨And.right, fun h => ⟨bit_lt h, h⟩⟩
  exact (get_foldl_upd {} f (nodup_lanesOf m) c.threads l).trans (if_congr hm rfl rfl)

/-- Two cords differ in their threads alone. -/
def OnlyThreads (c c' : Cord) : Prop := { c' with threads := [] } = { c with threads := [] }

namespace OnlyThreads
variable {c c' c'' : Cord}

theorem refl (c : Cord) : OnlyThreads c c := rfl
theorem symm (h : OnlyThreads c c') : OnlyThreads c' c := Eq.symm h
theorem trans (h : OnlyThreads c c') (k : OnlyThreads c' c'') : OnlyThreads c c'' := Eq.trans k h
theorem mapThreads (c : Cord) (m : Word) (f : Nat → Thread → Thread) : OnlyThreads c (c.mapThreads m f) := rfl

/-- What is no matter of threads is the same. -/
theorem keeps (h : OnlyThreads c c') {β : Type} (g : Cord → β) (hg : ∀ c ts, g { c with threads := ts } = g c) : g c' = g c :=
  (hg c' []).symm.trans ((congrArg g h).trans (hg c []))

theorem eq (h : OnlyThreads c c') : c' = { c with threads := c'.threads } := congrArg (fun x : Cord => { x with threads := c'.threads }) h

end OnlyThreads

/-! The meeting release (R91). -/

theorem bit_heldAt (c : Cord) (x : Dword) {l : Nat} (hl : l < 32) :
    bit (c.heldAt x) l = true ↔ (c.thread l).st = .held ∧ (c.thread l).pc = x := by
  rw [Cord.heldAt, bit_maskWhere _ hl, Bool.and_eq_true, beq_iff_eq, beq_iff_eq]

theorem meets_iff (c : Cord) (x : Dword) :
    c.meets x = true ↔ ∀ j < 32, bit c.jm j = true → (c.thread j).live = false ∨ ((c.thread j).st = .held ∧ (c.thread j).pc = x) := by
  rw [Cord.meets, List.all_eq_true]
  refine ⟨fun h j hj hb => ?_, fun h j hj => ?_⟩
  · have := h j (mem_lanesOf.2 ⟨hj, hb⟩)
    rwa [Bool.or_eq_true, Bool.not_eq_true', bit_heldAt c x hj] at this
  · obtain ⟨hj, hb⟩ := mem_lanesOf.1 hj
    rw [Bool.or_eq_true, Bool.not_eq_true', bit_heldAt c x hj]
    exact h j hj hb

/-- A thread that the meeting release lets go. -/
def Thread.released (t : Thread) : Thread := { t with st := .ready, mr := 0 }

/-- One lane of the meeting release: the threads held at its address go, if all have met there. -/
def Cord.meetLane (c : Cord) (l : Nat) : Cord :=
  if (c.thread l).st = .held ∧ c.meets (c.thread l).pc then c.mapThreads (c.heldAt (c.thread l).pc) fun _ => Thread.released else c

theorem meetRelease_eq (c : Cord) : c.meetRelease = (List.range 32).foldl Cord.meetLane c := rfl

/-- Cord c' is c after those held at the addresses xs, where all have met, have been let go. -/
structure LetGo (c : Cord) (xs : List Dword) (c' : Cord) : Prop where
  only : OnlyThreads c c'
  met : ∀ x ∈ xs, c.meets x = true
  thread : ∀ j < 32, c'.thread j = if (c.thread j).st = .held ∧ (c.thread j).pc ∈ xs then (c.thread j).released else c.thread j

namespace LetGo
variable {c c' : Cord} {xs : List Dword}

theorem refl (c : Cord) : LetGo c [] c := ⟨.refl c, by simp, by simp⟩

/-- The threads that are still held stand at other addresses. -/
theorem held_iff (h : LetGo c xs c') {j : Nat} (hj : j < 32) (x : Dword) :
    ((c'.thread j).st = .held ∧ (c'.thread j).pc = x) ↔ ((c.thread j).st = .held ∧ (c.thread j).pc = x) ∧ x ∉ xs := by
  rw [h.thread j hj]
  split
  next hg => simp only [Thread.released]; aesop
  next hg => aesop

theorem live_eq (h : LetGo c xs c') {j : Nat} (hj : j < 32) : (c'.thread j).live = (c.thread j).live := by
  rw [h.thread j hj]
  split
  next hg => rw [Thread.live, Thread.live, hg.1]; rfl
  next => rfl

/-- Of an address that has not been let go, all meet there now if they did before. -/
theorem meets_eq (h : LetGo c xs c') {x : Dword} (hx : x ∉ xs) : c'.meets x = c.meets x := by
  rw [Bool.eq_iff_iff, meets_iff, meets_iff, h.only.keeps (·.jm) fun _ _ => rfl]
  refine forall₂_congr fun j hj => ?_
  rw [h.live_eq hj, h.held_iff hj x, and_iff_left hx]

/-- One more lane. -/
theorem meetLane (h : LetGo c xs c') {l : Nat} (hl : l < 32) : ∃ ys, LetGo c ys (c'.meetLane l) ∧ xs ⊆ ys ∧
    ((c.thread l).st = .held → c.meets (c.thread l).pc = true → (c.thread l).pc ∈ ys) := by
  by_cases hg : (c.thread l).st = .held ∧ (c.thread l).pc ∉ xs
  · obtain ⟨hst, hx⟩ := hg
    have ht : c'.thread l = c.thread l := by rw [h.thread l hl, if_neg (by simp [hx])]
    unfold Cord.meetLane
    rw [ht, h.meets_eq hx]
    by_cases hm : c.meets (c.thread l).pc = true
    · rw [if_pos ⟨hst, hm⟩]
      refine ⟨(c.thread l).pc :: xs, ⟨h.only.trans (.mapThreads ..), ?_, fun j hj => ?_⟩, List.subset_cons_self .., fun _ _ => by simp⟩
      · exact fun x hx => (List.mem_cons.1 hx).elim (fun e => e ▸ hm) (h.met x)
      · rw [thread_mapThreads, if_congr ((bit_heldAt c' _ hj).trans (h.held_iff hj _)) rfl rfl, h.thread j hj]
        aesop
    · rw [if_neg fun h => hm h.2]
      exact ⟨xs, h, List.Subset.refl _, fun _ h => absurd h hm⟩
  · have hn : (c'.thread l).st ≠ .held := fun hs => hg <| by
      obtain ⟨⟨h1, h2⟩, h3⟩ := (h.held_iff hl _).1 ⟨hs, rfl⟩
      exact ⟨h1, h2 ▸ h3⟩
    rw [Cord.meetLane, if_neg fun h => hn h.1]
    exact ⟨xs, h, List.Subset.refl _, fun hs _ => by_contra fun hx => hg ⟨hs, hx⟩⟩

theorem foldl (h : LetGo c xs c') {ls : List Nat} (hls : ∀ l ∈ ls, l < 32) : ∃ ys, LetGo c ys (ls.foldl Cord.meetLane c') ∧ xs ⊆ ys ∧
    ∀ l ∈ ls, (c.thread l).st = .held → c.meets (c.thread l).pc = true → (c.thread l).pc ∈ ys := by
  induction ls generalizing xs c' with
  | nil => exact ⟨xs, h, List.Subset.refl _, by simp⟩
  | cons l ls ih =>
    obtain ⟨ys, hy, hxy, hl⟩ := h.meetLane (hls l (by simp))
    obtain ⟨zs, hz, hyz, hls⟩ := ih hy fun k hk => hls k (by simp [hk])
    refine ⟨zs, hz, List.Subset.trans hxy hyz, fun k hk => ?_⟩
    rcases List.mem_cons.1 hk with rfl | hk
    · exact fun h1 h2 => hyz (hl h1 h2)
    · exact hls k hk

end LetGo

theorem onlyThreads_meetRelease (c : Cord) : OnlyThreads c c.meetRelease :=
  let ⟨_, h, _⟩ := (LetGo.refl c).foldl (ls := List.range 32) fun _ => List.mem_range.1
  h.only

/-- The meeting release lets go just the threads held where all have met, told before any went (R91). -/
theorem thread_meetRelease (c : Cord) {l : Nat} (hl : l < 32) : c.meetRelease.thread l =
    if (c.thread l).st = .held ∧ c.meets (c.thread l).pc = true then (c.thread l).released else c.thread l := by
  obtain ⟨xs, h, -, hall⟩ := (LetGo.refl c).foldl (ls := List.range 32) fun _ => List.mem_range.1
  rw [meetRelease_eq, h.thread l hl]
  exact if_congr (and_congr_right fun hs => ⟨h.met _, hall l (List.mem_range.2 hl) hs⟩) rfl rfl

end Sys2Proof.Machine
end

section
/-! The release of mask registers and the regrouping at a clause boundary (R90 to R92). -/

namespace Sys2Proof.Machine

theorem live_eq_false_iff (t : Thread) : t.live = false ↔ t.st = .exited := by
  rw [Thread.live, bne_eq_false_iff_eq]

/-! The release of threads that wait on a mask register (R92). -/

/-- Every thread that mask register k names has exited or waits on it. -/
def Cord.allWait (c : Cord) (k : Nat) : Bool := (lanesOf (c.kreg k)).all fun l => !(c.thread l).live || bit (c.waitersOn k) l

theorem bit_waitersOn (c : Cord) (k : Nat) {l : Nat} (hl : l < 32) : bit (c.waitersOn k) l = true ↔ (c.thread l).st = .waiting k := by
  rw [Cord.waitersOn, bit_maskWhere _ hl, beq_iff_eq]

theorem allWait_iff (c : Cord) (k : Nat) :
    c.allWait k = true ↔ ∀ j < 32, bit (c.kreg k) j = true → (c.thread j).st = .exited ∨ (c.thread j).st = .waiting k := by
  have lane : ∀ j < 32, ((!(c.thread j).live || bit (c.waitersOn k) j) = true ↔ (c.thread j).st = .exited ∨ (c.thread j).st = .waiting k) :=
    fun j hj => by rw [Bool.or_eq_true, Bool.not_eq_true', bit_waitersOn c k hj, live_eq_false_iff]
  rw [Cord.allWait, List.all_eq_true]
  refine ⟨fun h j hj hb => (lane j hj).1 (h j (mem_lanesOf.2 ⟨hj, hb⟩)), fun h j hj => ?_⟩
  obtain ⟨hj, hb⟩ := mem_lanesOf.1 hj
  exact (lane j hj).2 (h j hj hb)

/-- A thread that comes ready. -/
def Thread.woken (t : Thread) : Thread := { t with st := .ready }

/-- One mask register of the release. -/
def Cord.wakeReg (c : Cord) (k : Nat) : Cord := if c.allWait k then c.mapThreads (c.waitersOn k) fun _ => Thread.woken else c

theorem waitkRelease_eq (c : Cord) : c.waitkRelease = (List.range 12).foldl Cord.wakeReg c := rfl

/-- Thread t of cord c waits on one of the first n mask registers, and all that the register names have come. -/
def Cord.Wakes (c : Cord) (n : Nat) (t : Thread) : Prop := ∃ k < n, t.st = .waiting k ∧ c.allWait k = true

open Classical in
/-- Cord c' is c after the releases of its first n mask registers, all told before any thread was released. -/
structure Woken (c : Cord) (n : Nat) (c' : Cord) : Prop where
  only : OnlyThreads c c'
  thread : ∀ j < 32, c'.thread j = if c.Wakes n (c.thread j) then (c.thread j).woken else c.thread j

namespace Woken
variable {c c' : Cord} {n : Nat}

theorem exited_iff (h : Woken c n c') {j : Nat} (hj : j < 32) : (c'.thread j).st = .exited ↔ (c.thread j).st = .exited := by
  rw [h.thread j hj]
  split
  next hw => obtain ⟨k, -, hs, -⟩ := hw; simp [Thread.woken, hs]
  next => rfl

/-- The threads that wait on a register still to come are the same. -/
theorem waiting_iff (h : Woken c n c') {j : Nat} (hj : j < 32) : (c'.thread j).st = .waiting n ↔ (c.thread j).st = .waiting n := by
  rw [h.thread j hj]
  split
  next hw =>
    obtain ⟨k, hk, hs, -⟩ := hw
    simp [Thread.woken, hs]
    omega
  next => rfl

theorem allWait_eq (h : Woken c n c') : c'.allWait n = c.allWait n := by
  rw [Bool.eq_iff_iff, allWait_iff, allWait_iff, h.only.keeps (·.kreg n) fun _ _ => rfl]
  refine forall₂_congr fun j hj => ?_
  rw [h.exited_iff hj, h.waiting_iff hj]

theorem wakes_succ (c : Cord) (n : Nat) (t : Thread) : c.Wakes (n + 1) t ↔ c.Wakes n t ∨ t.st = .waiting n ∧ c.allWait n = true := by
  unfold Cord.Wakes
  constructor
  · rintro ⟨k, hk, h⟩
    rcases Nat.lt_succ_iff_lt_or_eq.1 hk with hk | rfl
    · exact .inl ⟨k, hk, h⟩
    · exact .inr h
  · rintro (⟨k, hk, h⟩ | h)
    · exact ⟨k, by omega, h⟩
    · exact ⟨n, by omega, h⟩

open Classical in
/-- One more register. -/
theorem wakeReg (h : Woken c n c') : Woken c (n + 1) (c'.wakeReg n) := by
  unfold Cord.wakeReg
  rw [h.allWait_eq]
  by_cases ha : c.allWait n = true
  · rw [if_pos ha]
    refine ⟨h.only.trans (.mapThreads ..), fun j hj => ?_⟩
    rw [thread_mapThreads]
    by_cases hw : (c.thread j).st = .waiting n
    · have hn : ¬c.Wakes n (c.thread j) := by
        rintro ⟨k, hk, hs, -⟩
        rw [hw] at hs
        cases hs
        omega
      rw [if_pos ((bit_waitersOn c' n hj).2 ((h.waiting_iff hj).2 hw)), if_pos ((wakes_succ ..).2 (.inr ⟨hw, ha⟩)), h.thread j hj, if_neg hn]
    · rw [if_neg fun hb => hw ((h.waiting_iff hj).1 ((bit_waitersOn c' n hj).1 hb)), h.thread j hj]
      refine if_congr ?_ rfl rfl
      rw [wakes_succ, or_iff_left fun h => hw h.1]
  · rw [if_neg ha]
    refine ⟨h.only, fun j hj => ?_⟩
    rw [h.thread j hj]
    refine if_congr ?_ rfl rfl
    rw [wakes_succ, or_iff_left fun h => ha h.2]

theorem range (c : Cord) (n : Nat) : Woken c n ((List.range n).foldl Cord.wakeReg c) := by
  induction n with
  | zero => exact ⟨.refl c, fun j _ => by simp [Cord.Wakes]⟩
  | succ n ih =>
    rw [List.range_succ, List.foldl_append]
    exact ih.wakeReg

end Woken

theorem woken_waitkRelease (c : Cord) : Woken c 12 c.waitkRelease := by
  rw [waitkRelease_eq]
  exact Woken.range c 12

/-! The threads that a meeting holds (R91). -/

/-- Thread t of lane l has come to its meeting address: it is ready, its bit of the join mask is set, and it does not go on inside a
clause. -/
def Cord.Arrives (c : Cord) (l : Nat) (t : Thread) : Prop :=
  (t.st = .ready ∧ t.parked = false) ∧ t.mr ≠ 0 ∧ t.pc = t.mr ∧ bit c.jm l = true ∧ ∀ r, c.resume = some r → bit r.tract l = false

theorem onlyThreads_holdMet (c : Cord) : OnlyThreads c c.holdMet := .mapThreads ..

open Classical in
theorem thread_holdMet (c : Cord) {l : Nat} (hl : l < 32) :
    c.holdMet.thread l = if c.Arrives l (c.thread l) then { c.thread l with st := .held } else c.thread l := by
  have hall : bit (0xFFFFFFFF : Word) l = true := by
    interval_cases l <;> rfl
  rw [Cord.holdMet, thread_mapThreads, if_pos hall]
  refine if_congr ?_ rfl rfl
  unfold Cord.Arrives
  rw [← ready_iff]
  cases c.resume <;> simp [and_assoc]

/-! Regrouping at a clause boundary. -/

theorem onlyThreads_testReleases (c : Cord) : OnlyThreads c c.testReleases :=
  (onlyThreads_meetRelease c).trans (woken_waitkRelease _).only

theorem onlyThreads_regroup (c : Cord) : OnlyThreads c c.regroup :=
  (((onlyThreads_holdMet c).trans (onlyThreads_testReleases _)).trans (onlyThreads_holdMet _)).trans (onlyThreads_testReleases _)

end Sys2Proof.Machine
end

section
/-! Meeting forms, and the call of a clause whose decision alone is left (R91, R99, R100, R349). -/

namespace Sys2Proof.Machine

open Claims

theorem fld_two (lit : Word) : fld lit 0 2 = lit.toNat % 4 := by simp [fld]

section
variable {lit : Word} {s : State} (hc : Form.check { lat := .i4 } s = none)
include hc

theorem exec_meet (h : lit.toNat % 4 = 0) : exec (.meet lit) s = .next (Form.issued { lat := .i4 }
    { s with cord := s.cord.mapThreads s.cord.act fun _ t => { t with mr := if lit = 0 then 0 else hi32 s.cord.cl.hdrA ++ lit } }) :=
  show execMeet lit s = _ from runForm_done hc (if_neg (by simp [fld_two, h]))

theorem exec_meet_misaligned (h : lit.toNat % 4 ≠ 0) : exec (.meet lit) s = .next (s.raise .pcAlign (hi32 s.cord.cl.hdrA ++ lit)) := by
  have h0 : lit ≠ 0 := fun e => h (by simp [e])
  exact show execMeet lit s = _ from runForm_trap hc (if_pos ⟨h0, by rwa [fld_two]⟩)

theorem exec_join (k : Msk) : exec (.join k) s = .next (Form.issued { lat := .i4 }
    { s with cord := { s.cord with jm := s.cord.kreg k.val }.meetRelease }) :=
  show execJoin k s = _ from runForm_done hc rfl

theorem exec_leave (k : Msk) : exec (.leave k) s = .next (Form.issued { lat := .i4 }
    { s with cord := { s.cord with jm := s.cord.jm &&& ~~~s.cord.kreg k.val }.meetRelease }) :=
  show execLeave k s = _ from runForm_done hc rfl

end

/-- A clause that is a decision alone, fetched nowhere: its fall-through is not that of its words (R349). -/
def decisionAlone : State := { cord := { cl := { fall := some 0 } } }

end Sys2Proof.Machine

namespace Sys2Proof

open Machine Claims

/-- Settles O10: whom the meeting release lets go is `thread_meetRelease`. -/
theorem meetingForms : Obligations.MeetingForms := by
  unfold Obligations.MeetingForms
  refine fun k lit => ⟨fun h s hc => exec_meet hc h, fun s hc => exec_join hc k, fun s hc => exec_leave hc k,
    fun h s hc => exec_meet_misaligned hc h, fun c => ⟨(onlyThreads_meetRelease c).eq, fun l hl => ?_⟩⟩
  intro x gathered
  have hg : gathered ↔ c.meets x.pc = true := (meets_iff c x.pc).symm
  have ht := thread_meetRelease c hl
  rw [hg]
  exact ⟨fun h1 h2 => ht.trans (if_pos ⟨h1, h2⟩), fun h => ht.trans (if_neg h)⟩

/-- Refutes O8: of a clause that keeps its fall-through apart (`Clause.fall`), call writes that one to D, and not the address after the
clause's words; the statement leaves no such clause out. -/
theorem not_transferForms : ¬ Obligations.TransferForms := by
  unfold Obligations.TransferForms
  rintro ⟨h, -⟩
  obtain ⟨-, -, -, -, -, -, -, -, -, -, hcall, -⟩ := h 0 .zero .zero (.s 0) 0 0
  have he := hcall decisionAlone rfl rfl fun _ => rfl
  have hw : [(⟨4, .fixedLatencyWrite 0 [.s 0 0, .s 1 0]⟩ : Due)] = [⟨4, .fixedLatencyWrite 0 [.s 0 4, .s 1 0]⟩] :=
    congrArg State.agenda (Host.Outcome.next.inj he)
  exact absurd hw (by decide)

end Sys2Proof
end

section
/-! Fixed-latency results (R83, R84, R92, R96, R104). -/

namespace Sys2Proof.Machine

/-! What a clause boundary changes of a cord. -/

theorem rechoose_keeps (c : Cord) {β : Type} (g : Cord → β) (hg : ∀ c ts ch, g { c with threads := ts, chosen := ch } = g c) :
    g c.rechoose = g c := by
  unfold Cord.rechoose
  split
  · rfl
  · exact hg c c.threads c.rotate

/-- At a clause boundary a cord changes in its threads and in the group that it comes to, and in nothing else. -/
theorem atBoundary_keeps (c : Cord) {β : Type} (g : Cord → β) (hg : ∀ c ts ch, g { c with threads := ts, chosen := ch } = g c) :
    g c.atBoundary = g c := by
  unfold Cord.atBoundary
  split
  · rfl
  · exact (rechoose_keeps _ g hg).trans ((onlyThreads_regroup c).keeps g fun c ts => hg c ts c.chosen)

/-- A cord after register writes have landed in it: those of a mask register test the release of R92. -/
def Cord.landed (ws : List RegWrite) (c : Cord) : Cord :=
  if ws.any isMaskWrite then (c.applyAll ws).waitkRelease.atBoundary else c.applyAll ws

theorem landed_keeps (ws : List RegWrite) (c : Cord) {β : Type} (g : Cord → β)
    (hg : ∀ c ts ch, g { c with threads := ts, chosen := ch } = g c) : g (c.landed ws) = g (c.applyAll ws) := by
  unfold Cord.landed
  split
  · exact (atBoundary_keeps _ g hg).trans ((woken_waitkRelease _).only.keeps g fun c ts => hg c ts c.chosen)
  · rfl

theorem landed_cid (ws : List RegWrite) (c : Cord) : (c.landed ws).cid = c.cid :=
  (landed_keeps ws c (·.cid) fun _ _ _ => rfl).trans (applyAll_cid c ws)

theorem landed_live (ws : List RegWrite) (c : Cord) : (c.landed ws).live = c.live :=
  (landed_keeps ws c (·.live) fun _ _ _ => rfl).trans (applyAll_live c ws)

theorem exec_fixedLatencyWrite {s : State} {c : Nat} {ws : List RegWrite} (h : s.now = some (.fixedLatencyWrite c ws)) :
    exec .fixedLatencyWrite s = .next (s.onCord c (Cord.landed ws)) := by
  change execFixedLatencyWrite s = _
  unfold execFixedLatencyWrite
  rw [h]
  rfl

theorem findCord_landed {s : State} {c : Nat} {x : Cord} (ws : List RegWrite) (h : s.findCord c = some x) :
    (s.onCord c (Cord.landed ws)).findCord c = some (x.landed ws) :=
  findCord_onCord_self (landed_cid ws) (landed_live ws) h

/-! The writes of a 32-bit result. -/

theorem writes32_v (c : Cord) (n : Vec) (g : Nat → Word) :
    c.writes32 (.v n) g = (lanesOf c.act).map fun l => .v (c.wb + n) l (g l) := by
  rw [List.map_eq_flatMap]
  rfl

/-- Writes of one vector register, lane after lane, are writes of its cells. -/
theorem applyAll_map_v (c : Cord) (p : Nat) (g : Nat → Word) (ls : List Nat) :
    c.applyAll (ls.map fun l => .v p l (g l)) = { c with v := SMap.setAll 0 c.v (ls.map fun l => (p * 32 + l, g l)) } := by
  induction ls generalizing c with
  | nil => rfl
  | cons l ls ih => exact ih (c.apply (.v p l (g l)))

theorem applyAll_writes32_v (c : Cord) (n : Vec) (g : Nat → Word) :
    c.applyAll (c.writes32 (.v n) g) =
      { c with v := SMap.setAll 0 c.v ((lanesOf c.act).map fun l => ((c.wb + n) * 32 + l, g l)) } := by
  rw [writes32_v, applyAll_map_v]

/-- D reads the result in the lanes that were active, and as before in the others (R104). -/
theorem vreg_writes32 (c : Cord) (n : Vec) (g : Nat → Word) (l : Nat) :
    (c.applyAll (c.writes32 (.v n) g)).vreg n.val l = if bit c.act l = true then g l else c.vreg n.val l := by
  rw [applyAll_writes32_v]
  change SMap.get 0 (SMap.setAll 0 c.v _) ((c.wb + n) * 32 + l) = _
  split
  next hb =>
    have hn : ((lanesOf c.act).map fun l => ((c.wb + n) * 32 + l, g l)).map (·.1) = (lanesOf c.act).map ((c.wb + n) * 32 + ·) := by
      rw [List.map_map]; rfl
    refine SMap.get_setAll_mem 0 _ c.v ?_ ((c.wb + n) * 32 + l, g l) (List.mem_map_of_mem (mem_lanesOf.2 ⟨bit_lt hb, hb⟩))
    rw [hn]
    exact (nodup_lanesOf _).map fun a b h => Nat.add_left_cancel h
  next hb =>
    refine SMap.get_setAll_ne 0 _ c.v _ fun w hw => ?_
    obtain ⟨k, hk, rfl⟩ := List.mem_map.1 hw
    intro h
    exact hb (Nat.add_left_cancel h ▸ (mem_lanesOf.1 hk).2)

/-- No other physical register changes. -/
theorem get_writes32_ne (c : Cord) (n : Vec) (g : Nat → Word) {p l : Nat} (hl : l < 32) (hp : p ≠ c.wb + n) :
    SMap.get 0 (c.applyAll (c.writes32 (.v n) g)).v (p * 32 + l) = SMap.get 0 c.v (p * 32 + l) := by
  rw [applyAll_writes32_v]
  refine SMap.get_setAll_ne 0 _ c.v _ fun w hw => ?_
  obtain ⟨k, hk, rfl⟩ := List.mem_map.1 hw
  have := (mem_lanesOf.1 hk).1
  dsimp only
  omega

theorem sreg_writes32 (c : Cord) (n m : Sreg) (g : Nat → Word) :
    (c.applyAll (c.writes32 (.s n) g)).sreg m.val = if m = n then g (lowest c.act) else c.sreg m.val :=
  (SMap.get_set 0 c.s n.val m.val _).trans (if_congr Fin.ext_iff.symm rfl rfl)

end Sys2Proof.Machine

namespace Sys2Proof

open Machine

/-- Settles O14: by what landing writes keeps (`landed_keeps`), and by the cells that the writes of a 32-bit result name. -/
theorem resultsReachTheirRegisters : Obligations.ResultsReachTheirRegisters := by
  unfold Obligations.ResultsReachTheirRegisters
  refine ⟨fun s c x ws hn hc => ⟨_, x.landed ws, exec_fixedLatencyWrite hn, findCord_landed ws hc, ?_⟩, fun c g =>
    ⟨fun n l _ => vreg_writes32 c n g l, fun n p l hl hp => get_writes32_ne c n g hl hp, fun n => ?_, fun n m => ⟨sreg_writes32 c n m g, rfl, rfl⟩⟩⟩
  · have keep {β : Type} (g : Cord → β) (hg : ∀ c ts ch, g { c with threads := ts, chosen := ch } = g c) := landed_keeps ws x g hg
    refine ⟨keep (·.v) fun _ _ _ => rfl, keep (·.s) fun _ _ _ => rfl, keep (·.k) fun _ _ _ => rfl, keep (·.tds) fun _ _ _ => rfl,
      (keep (·.trap) fun _ _ _ => rfl).trans (applyAll_trap x ws), (keep (·.fpctl) fun _ _ _ => rfl).trans (applyAll_fpctl x ws),
      (keep (·.f) fun _ _ _ => rfl).trans (applyAll_f x ws), (keep (·.eyes) fun _ _ _ => rfl).trans (applyAll_eyes x ws),
      (keep (·.wb) fun _ _ _ => rfl).trans (applyAll_wb x ws), rfl, fun d hd => ?_⟩
    rw [findCord_onCord c d _ s (landed_cid ws) (landed_live ws), if_neg hd]
  · rw [applyAll_writes32_v]
    exact ⟨rfl, rfl⟩

end Sys2Proof
end

section
/-! What regrouping comes to for one thread: when nothing waits on a mask register, when nothing meets, and at its edges (R90 to R92). -/

namespace Sys2Proof.Machine

/-! Cords whose threads read the same. -/

/-- Two cords differ in their threads alone, and each thread of a lane reads the same in both. -/
structure SameThreads (c c' : Cord) : Prop where
  only : OnlyThreads c c'
  thread : ∀ l < 32, c'.thread l = c.thread l

namespace SameThreads
variable {c c' c'' : Cord}

theorem trans (h : SameThreads c c') (k : SameThreads c' c'') : SameThreads c c'' :=
  ⟨h.only.trans k.only, fun l hl => (k.thread l hl).trans (h.thread l hl)⟩

theorem meets (h : SameThreads c c') (x : Dword) : c'.meets x = c.meets x := by
  rw [Bool.eq_iff_iff, meets_iff, meets_iff, h.only.keeps (·.jm) fun _ _ => rfl]
  refine forall₂_congr fun j hj => ?_
  rw [h.thread j hj]

theorem allWait (h : SameThreads c c') (k : Nat) : c'.allWait k = c.allWait k := by
  rw [Bool.eq_iff_iff, allWait_iff, allWait_iff, h.only.keeps (·.kreg k) fun _ _ => rfl]
  refine forall₂_congr fun j hj => ?_
  rw [h.thread j hj]

theorem meetRelease (h : SameThreads c c') : SameThreads c.meetRelease c'.meetRelease := by
  refine ⟨((onlyThreads_meetRelease c).symm.trans h.only).trans (onlyThreads_meetRelease c'), fun l hl => ?_⟩
  rw [thread_meetRelease c' hl, thread_meetRelease c hl, h.thread l hl, h.meets]

open Classical in
theorem waitkRelease (h : SameThreads c c') : SameThreads c.waitkRelease c'.waitkRelease := by
  have w := woken_waitkRelease c
  have w' := woken_waitkRelease c'
  refine ⟨(w.only.symm.trans h.only).trans w'.only, fun l hl => ?_⟩
  rw [w'.thread l hl, w.thread l hl, h.thread l hl]
  exact if_congr (exists_congr fun k => by rw [h.allWait]) rfl rfl

theorem arrives (h : SameThreads c c') (l : Nat) (t : Thread) : c'.Arrives l t ↔ c.Arrives l t := by
  unfold Cord.Arrives
  rw [h.only.keeps (·.jm) fun _ _ => rfl, h.only.keeps (·.resume) fun _ _ => rfl]

open Classical in
theorem holdMet (h : SameThreads c c') : SameThreads c.holdMet c'.holdMet := by
  refine ⟨((onlyThreads_holdMet c).symm.trans h.only).trans (onlyThreads_holdMet c'), fun l hl => ?_⟩
  rw [thread_holdMet c' hl, thread_holdMet c hl, h.thread l hl]
  exact if_congr (h.arrives l _) rfl rfl

end SameThreads

/-! Steps that find nothing to do. -/

theorem sameThreads_holdMet {c : Cord} (h : ∀ l < 32, ¬c.Arrives l (c.thread l)) : SameThreads c c.holdMet :=
  ⟨onlyThreads_holdMet c, fun l hl => by rw [thread_holdMet c hl, if_neg (h l hl)]⟩

theorem sameThreads_meetRelease {c : Cord} (h : ∀ l < 32, (c.thread l).st = .held → c.meets (c.thread l).pc = false) :
    SameThreads c c.meetRelease :=
  ⟨onlyThreads_meetRelease c, fun l hl => by
    rw [thread_meetRelease c hl, if_neg]
    exact fun ⟨hs, hm⟩ => by rw [h l hl hs] at hm; cases hm⟩

theorem sameThreads_waitkRelease {c : Cord} (h : ∀ l < 32, ¬c.Wakes 12 (c.thread l)) : SameThreads c c.waitkRelease :=
  ⟨(woken_waitkRelease c).only, fun l hl => by rw [(woken_waitkRelease c).thread l hl, if_neg (h l hl)]⟩

/-- After a meeting release the threads that are still held do not all meet. -/
theorem sameThreads_meetRelease_again (c : Cord) : SameThreads c.meetRelease c.meetRelease.meetRelease := by
  obtain ⟨xs, h, -, hall⟩ := (LetGo.refl c).foldl (ls := List.range 32) fun _ => List.mem_range.1
  rw [← meetRelease_eq] at h
  refine sameThreads_meetRelease fun l hl hs => ?_
  obtain ⟨⟨hs', hpc⟩, hx⟩ := (h.held_iff hl _).1 ⟨hs, rfl⟩
  rw [h.meets_eq hx, ← hpc, Bool.eq_false_iff]
  exact fun hm => hx (hpc ▸ hall l (List.mem_range.2 hl) hs' hm)

/-- After the release of mask registers no thread waits on one at which all have come. -/
theorem sameThreads_waitkRelease_again (c : Cord) : SameThreads c.waitkRelease c.waitkRelease.waitkRelease := by
  have w := woken_waitkRelease c
  refine sameThreads_waitkRelease fun l hl ⟨k, hk, hs, ha⟩ => ?_
  have wait : ∀ j < 32, (c.waitkRelease.thread j).st = .waiting k → (c.thread j).st = .waiting k ∧ ¬c.Wakes 12 (c.thread j) := by
    intro j hj h
    rw [w.thread j hj] at h
    split at h
    next => cases h
    next hn => exact ⟨h, hn⟩
  obtain ⟨hs', hn⟩ := wait l hl hs
  refine hn ⟨k, hk, hs', (allWait_iff c k).2 fun j hj hb => ?_⟩
  rw [← w.only.keeps (·.kreg k) fun _ _ => rfl] at hb
  exact ((allWait_iff _ k).1 ha j hj hb).imp (w.exited_iff hj).1 fun h => (wait j hj h).1

/-! Regrouping. -/

/-- No thread has a meeting address or is held. -/
def Cord.NoMeeting (c : Cord) : Prop := ∀ l < 32, (c.thread l).mr = 0 ∧ (c.thread l).st ≠ .held

/-- Where nothing meets, meetings change nothing. -/
theorem Cord.NoMeeting.same {c : Cord} (h : c.NoMeeting) : SameThreads c c.holdMet.meetRelease := by
  have hold : SameThreads c c.holdMet := sameThreads_holdMet fun l hl ⟨_, hm, _⟩ => hm (h l hl).1
  exact hold.trans (sameThreads_meetRelease fun l hl hs => absurd ((hold.thread l hl) ▸ hs) (h l hl).2)

theorem Cord.NoMeeting.waitkRelease {c : Cord} (h : c.NoMeeting) : c.waitkRelease.NoMeeting := fun l hl => by
  rw [(woken_waitkRelease c).thread l hl]
  split
  next => exact ⟨(h l hl).1, by simp [Thread.woken]⟩
  next => exact h l hl

/-- Where nothing meets, regrouping is the release of mask registers. -/
theorem Cord.NoMeeting.regroup {c : Cord} (h : c.NoMeeting) : SameThreads c.waitkRelease c.regroup := by
  have first : SameThreads c.waitkRelease c.holdMet.testReleases := h.same.waitkRelease
  have second : SameThreads c.waitkRelease c.waitkRelease.holdMet.testReleases :=
    (sameThreads_waitkRelease_again c).trans h.waitkRelease.same.waitkRelease
  exact second.trans first.holdMet.meetRelease.waitkRelease

/-- No thread waits on a mask register. -/
def Cord.NoWaiting (c : Cord) : Prop := ∀ l < 32, ∀ k, (c.thread l).st ≠ .waiting k

theorem Cord.NoWaiting.same {c : Cord} (h : c.NoWaiting) : SameThreads c c.waitkRelease :=
  sameThreads_waitkRelease fun l hl ⟨k, _, hs, _⟩ => h l hl k hs

theorem Cord.NoWaiting.holdMet {c : Cord} (h : c.NoWaiting) : c.holdMet.NoWaiting := fun l hl k => by
  rw [thread_holdMet c hl]
  split
  next => simp
  next => exact h l hl k

theorem Cord.NoWaiting.meetRelease {c : Cord} (h : c.NoWaiting) : c.meetRelease.NoWaiting := fun l hl k => by
  rw [thread_meetRelease c hl]
  split
  next => simp [Thread.released]
  next => exact h l hl k

/-- After the meeting no further thread arrives: one that was let go has no meeting address, and one that arrives has been held. -/
theorem sameThreads_holdMet_again (c : Cord) : SameThreads c.holdMet.meetRelease c.holdMet.meetRelease.holdMet := by
  refine sameThreads_holdMet fun l hl => ?_
  have only := (onlyThreads_holdMet c).trans (onlyThreads_meetRelease _)
  rw [thread_meetRelease _ hl]
  split
  next => exact fun ⟨_, hm, _⟩ => hm rfl
  next =>
    rw [thread_holdMet c hl]
    split
    next => exact fun ⟨⟨hs, _⟩, _⟩ => by cases hs
    next hn =>
      intro h
      refine hn ?_
      unfold Cord.Arrives at h ⊢
      rwa [only.keeps (·.jm) fun _ _ => rfl, only.keeps (·.resume) fun _ _ => rfl] at h

/-- Where nothing waits on a mask register, regrouping is one meeting. -/
theorem Cord.NoWaiting.regroup {c : Cord} (h : c.NoWaiting) : SameThreads c.holdMet.meetRelease c.regroup := by
  have first : SameThreads c.holdMet.meetRelease c.holdMet.testReleases := h.holdMet.meetRelease.same
  have met : SameThreads c.holdMet.meetRelease c.holdMet.meetRelease.holdMet.meetRelease :=
    (sameThreads_meetRelease_again c.holdMet).trans (sameThreads_holdMet_again c).meetRelease
  exact (met.trans h.holdMet.meetRelease.holdMet.meetRelease.same).trans first.holdMet.meetRelease.waitkRelease

/-- What of a thread survives that it is held, let go and woken, survives regrouping. -/
theorem regroup_keeps (P : Thread → Prop) (hold : ∀ t, t.st = .ready → P t → P { t with st := .held })
    (go : ∀ t, t.st = .held → P t → P t.released) (wake : ∀ t k, t.st = .waiting k → P t → P t.woken) (c : Cord) {l : Nat} (hl : l < 32)
    (h : P (c.thread l)) : P (c.regroup.thread l) := by
  have holdMet : ∀ c : Cord, P (c.thread l) → P (c.holdMet.thread l) := fun c h => by
    rw [thread_holdMet c hl]
    split
    next ha =>
      obtain ⟨⟨hs, -⟩, -⟩ := ha
      exact hold _ hs h
    next => exact h
  have meet : ∀ c : Cord, P (c.thread l) → P (c.meetRelease.thread l) := fun c h => by
    rw [thread_meetRelease c hl]
    split
    next hm => exact go _ hm.1 h
    next => exact h
  have waitk : ∀ c : Cord, P (c.thread l) → P (c.waitkRelease.thread l) := fun c h => by
    rw [(woken_waitkRelease c).thread l hl]
    split
    next hw => obtain ⟨k, -, hs, -⟩ := hw; exact wake _ k hs h
    next => exact h
  have round (c : Cord) (h : P (c.thread l)) : P (c.holdMet.testReleases.thread l) :=
    waitk c.holdMet.meetRelease (meet c.holdMet (holdMet c h))
  exact round c.holdMet.testReleases (round c h)

theorem pc_regroup (c : Cord) {l : Nat} (hl : l < 32) : (c.regroup.thread l).pc = (c.thread l).pc :=
  regroup_keeps (fun t => t.pc = (c.thread l).pc) (fun _ _ h => h) (fun _ _ h => h) (fun _ _ _ h => h) c hl rfl

/-- A thread that has exited or sleeps is let be. -/
theorem thread_regroup_of_settled (c : Cord) {l : Nat} (hl : l < 32)
    (h : (c.thread l).st = .exited ∨ ∃ u, (c.thread l).st = .sleeping u) : c.regroup.thread l = c.thread l := by
  have no {st : TState} (h1 : st ≠ .exited) (h2 : ∀ u, st ≠ .sleeping u) : (c.thread l).st ≠ st := by
    rintro rfl
    exact h.elim h1 fun ⟨u, hu⟩ => h2 u hu
  exact regroup_keeps (fun t => t = c.thread l) (fun t hs h => absurd (h ▸ hs) (no (by simp) (by simp)))
    (fun t hs h => absurd (h ▸ hs) (no (by simp) (by simp))) (fun t k hs h => absurd (h ▸ hs) (no (by simp) (by simp))) c hl rfl

end Sys2Proof.Machine
end

section
/-! The group that rotation comes to, and the end of a cord (R90, R102, R160). -/

namespace Sys2Proof.Machine

/-! Rotation (R90). -/

/-- The thread of lane l is ready. -/
def Cord.ReadyAt (c : Cord) (l : Nat) : Prop := l < 32 ∧ (c.thread l).st = .ready ∧ (c.thread l).parked = false

/-- Lane l is the lowest of a ready group. -/
def Cord.Leads (c : Cord) (l : Nat) : Prop := c.ReadyAt l ∧ ∀ j < l, c.ReadyAt j → (c.thread j).pc ≠ (c.thread l).pc

theorem bit_groupAt_iff (c : Cord) (pc : Dword) (l : Nat) : bit (c.groupAt pc) l = true ↔ c.ReadyAt l ∧ (c.thread l).pc = pc := by
  have lane (hl : l < 32) : bit (c.groupAt pc) l = true ↔ c.ReadyAt l ∧ (c.thread l).pc = pc := by
    rw [bit_groupAt c pc hl, Cord.ReadyAt, and_iff_right hl, and_assoc]
  exact ⟨fun h => (lane (bit_lt h)).1 h, fun h => (lane h.1.1).2 h⟩

theorem lowest_eq_iff {m : Word} {l : Nat} (h : bit m l = true) : lowest m = l ↔ ∀ j < l, bit m j = false := by
  have hl : l ∈ lanesOf m := mem_lanesOf.2 ⟨bit_lt h, h⟩
  have hd : lowest m = l ↔ (lanesOf m).head? = some l := by
    rw [lowest]
    cases hm : lanesOf m with
    | nil => rw [hm] at hl; cases hl
    | cons a as => simp
  rw [hd, head?_lanesOf, and_iff_right (bit_lt h), and_iff_right h]

/-- The lanes that rotation looks at. -/
def Cord.leaders (c : Cord) : List Nat := (List.range 32).filter fun l => (c.thread l).ready && lowest (c.groupAt (c.thread l).pc) == l

theorem mem_leaders (c : Cord) (l : Nat) : l ∈ c.leaders ↔ c.Leads l := by
  have ready : l < 32 ∧ (c.thread l).ready = true ↔ c.ReadyAt l := by rw [ready_iff]; rfl
  rw [Cord.leaders, List.mem_filter, List.mem_range, Bool.and_eq_true, beq_iff_eq, ← and_assoc, ready]
  refine and_congr_right fun hr => ?_
  rw [lowest_eq_iff ((bit_groupAt_iff c _ l).2 ⟨hr, rfl⟩)]
  refine forall₂_congr fun j _ => ?_
  rw [← Bool.not_eq_true, bit_groupAt_iff, not_and]

/-- What is found first in a part of a range is the least of the part. -/
theorem find?_filter_range_eq_some {p q : Nat → Bool} {n l : Nat} : ((List.range n).filter p).find? q = some l ↔
    l ∈ (List.range n).filter p ∧ q l = true ∧ ∀ j ∈ (List.range n).filter p, q j = true → l ≤ j := by
  rw [List.find?_filter, List.find?_range_eq_some]
  simp only [List.mem_filter, List.mem_range, Bool.decide_and, Bool.decide_eq_true, Bool.and_eq_true, Bool.not_eq_true', Bool.and_eq_false_iff]
  constructor
  · rintro ⟨⟨hp, hq⟩, hl, hm⟩
    refine ⟨⟨hl, hp⟩, hq, fun j ⟨_, hpj⟩ hqj => ?_⟩
    by_contra hj
    rcases hm j (by omega) with h | h
    · rw [hpj] at h; cases h
    · rw [hqj] at h; cases h
  · rintro ⟨⟨hl, hp⟩, hq, hm⟩
    refine ⟨⟨hp, hq⟩, hl, fun j hj => ?_⟩
    by_contra h
    simp only [not_or, Bool.not_eq_false] at h
    have := hm j ⟨by omega, h.1⟩ h.2
    omega

theorem find?_leaders (c : Cord) (q : Nat → Bool) (l : Nat) :
    c.leaders.find? q = some l ↔ c.Leads l ∧ q l = true ∧ ∀ j, c.Leads j → q j = true → l ≤ j := by
  simp only [← mem_leaders]
  exact find?_filter_range_eq_some

/-- Rotation comes to the ready group whose lowest lane is the least above P, or the least of all when none is above. -/
theorem rotate_eq_some_iff (c : Cord) (pc : Dword) : c.rotate = some pc ↔ ∃ l, c.Leads l ∧ (c.thread l).pc = pc ∧
    ((c.rotP < l ∧ ∀ j, c.Leads j → c.rotP < j → l ≤ j) ∨ ((∀ j, c.Leads j → j ≤ c.rotP) ∧ ∀ j, c.Leads j → l ≤ j)) := by
  have above (l : Nat) : c.leaders.find? (fun l => decide (c.rotP < l)) = some l ↔
      c.Leads l ∧ c.rotP < l ∧ ∀ j, c.Leads j → c.rotP < j → l ≤ j := by
    rw [find?_leaders]
    simp only [decide_eq_true_eq]
  have first (l : Nat) : c.leaders.head? = some l ↔ c.Leads l ∧ ∀ j, c.Leads j → l ≤ j := by
    have hh : c.leaders.head? = c.leaders.find? fun _ => true := by cases c.leaders <;> rfl
    rw [hh, find?_leaders]
    simp
  have none : c.leaders.find? (fun l => decide (c.rotP < l)) = none ↔ ∀ j, c.Leads j → j ≤ c.rotP := by
    simp [List.find?_eq_none, mem_leaders]
  have hr : c.rotate = ((c.leaders.find? fun l => decide (c.rotP < l)).orElse fun _ => c.leaders.head?).map fun l => (c.thread l).pc := rfl
  rw [hr, Option.map_eq_some_iff]
  refine exists_congr fun l => ?_
  rw [and_comm (b := (c.thread l).pc = pc), and_left_comm, and_congr_right_iff]
  intro _
  cases hf : c.leaders.find? fun l => decide (c.rotP < l) with
  | none =>
    have hn := none.1 hf
    simp only [Option.orElse_none, first]
    refine and_congr_right fun hl => ⟨fun h => .inr ⟨hn, h⟩, fun h => ?_⟩
    rcases h with h | h
    · exact absurd h.1 (by have := hn l hl; omega)
    · exact h.2
  | some k =>
    obtain ⟨hk, hpk, -⟩ := (above k).1 hf
    have hs := above l
    rw [hf] at hs
    simp only [Option.orElse_some]
    rw [hs]
    refine and_congr_right fun hl => ⟨.inl, fun h => ?_⟩
    rcases h with h | h
    · exact h
    · exact absurd (h.1 k hk) (by omega)

/-! The end of a cord. -/

/-- What of a cord the end of its eyelets keeps: its threads, its join mask and its place among the cords. -/
def Cord.course (c : Cord) : SMap Thread × Word × Nat × Nat := (c.threads, c.jm, c.age, c.stallAt)

theorem endOp_cid (c : Cord) (o : Op) : (c.endOp o).cid = c.cid := by
  unfold Cord.endOp
  cases o.flag <;> cases o.kind <;> exact applyAll_cid c o.writes

theorem endOp_course (c : Cord) (o : Op) : (c.endOp o).course = c.course := by
  have h : (c.applyAll o.writes).course = c.course := applyAll_keeps Cord.course (fun c w => by cases w <;> rfl) c o.writes
  unfold Cord.endOp
  cases o.flag <;> cases o.kind <;> exact h

namespace KeepsOf

theorem askVersion {β : Type} {g : Cord → β} (c : Nat) (o : Op) (first : Nat) (s : State) : KeepsOf g s (s.askVersion c o first) := by
  unfold State.askVersion
  split
  · exact refl s
  · exact of_cords_eq (by simp) (by simp)

theorem attempt (c : Nat) (o : Op) (first n k : Nat) (dead : Bool) (s : State) :
    KeepsOf Cord.course s (s.attempt c o first n k dead) :=
  trans (t := s.setOp c o 0 (.version first n k dead)) (onCord c s (fun _ => rfl) fun _ => rfl) (askVersion c o first _)

theorem endOp (c : Nat) (o : Op) (s : State) : KeepsOf Cord.course s (s.onCord c fun x => x.endOp o) :=
  onCord c s (endOp_cid · o) (endOp_course · o)

theorem opPart (c tok : Nat) (s : State) : KeepsOf Cord.course s (s.opPart c tok) := by
  unfold State.opPart
  split
  · exact refl s
  split
  · exact refl s
  next o _ =>
    extract_lets t
    have ht : KeepsOf Cord.course s t := onCord c s (fun _ => rfl) fun _ => rfl
    split
    · exact ht
    refine ht.trans ?_
    split
    next first n _ dead _ => exact attempt c o first n 1 dead t
    next => exact askVersion c o _ t
    next => exact (endOp c o t).trans (of_cords_eq (by simp [State.dropDrain]) (by simp [State.dropDrain]))
    next => exact endOp c o t

theorem readEnded (c tok : Nat) (s : State) : KeepsOf Cord.course s (s.readEnded c tok) := by
  unfold State.readEnded
  split
  · exact refl s
  split
  · exact refl s
  · exact trans (t := s.ldDown c 1) (onCord c s (fun _ => rfl) fun _ => rfl) (opPart c tok _)

theorem dropReads (c e : Nat) (s : State) : KeepsOf Cord.course s (s.dropReads c e) := by
  unfold State.dropReads
  extract_lets mine toks t u
  have ht : KeepsOf Cord.course s t := of_cords_eq rfl rfl
  have hu : KeepsOf Cord.course s u := ht.trans (onCord c t (fun x => by split <;> rfl) fun x => by split <;> rfl)
  exact foldl_keeps (KeepsOf Cord.course s) _ _ (fun v tok h => h.trans (readEnded c tok v)) u hu

theorem closeEye (c e : Nat) (r : Reason) (s : State) : KeepsOf Cord.course s (s.closeEye c e r) := by
  unfold State.closeEye
  split
  · exact refl s
  split
  · exact refl s
  · exact (dropReads c e s).trans (onCord c _ (fun _ => rfl) fun _ => rfl)

end KeepsOf

/-- A cord that ends comes to no group. -/
theorem cordRec_endCord {s : State} {c : Nat} {e : Cord} (h : s.cordRec c = some e) :
    ∃ y, (s.endCord c).cordRec c = some y ∧ y.course = e.course ∧ y.chosen = none := by
  have closed : KeepsOf Cord.course s ((List.range 16).foldl (fun s e => s.closeEye c e .close) s) :=
    foldl_keeps (KeepsOf Cord.course s) _ _ (fun t e h => h.trans (.closeEye c e .close t)) s (.refl s)
  obtain ⟨y, hy, hc⟩ := closed c e h
  refine ⟨{ y with live := false, xblk := 0, xgrant := 0, chosen := none }, ?_, hc, rfl⟩
  unfold State.endCord
  rw [cordRec_onCord _ _ _ _ fun _ => by rfl, if_pos rfl, hy]
  rfl

end Sys2Proof.Machine
end

section
/-! The cord at the end of its clause (R85, R90 to R92, R102). -/

namespace Sys2Proof.Machine

/-! The decision of a clause taken, before its threads are held and released. -/

/-- A thread that takes part in a clause keeps the cycle and the hold of the clause's last issue. -/
def Thread.stamped (t : Thread) (cl : Clause) : Thread := if cl.any then { t with lastC := cl.lastC, lastH := cl.lastH } else t

/-- The cord after the decision of its clause, unless that is rte. -/
def Cord.transferred (c : Cord) (now fresh : Nat) : Cord :=
  { c.mapThreads c.cl.act (fun l t => c.cl.xf.apply c.cl.ft now l (t.stamped c.cl)) with
    cl := {}, blk := {}, jm := if c.cl.xf = .exit then c.jm &&& ~~~c.cl.act else c.jm,
    age := if c.cl.xf = .yield then fresh else c.age, stallAt := if c.cl.xf = .yield then now + 2 else c.stallAt }

theorem endClause_eq {c : Cord} (h : c.cl.xf ≠ .rte) (now fresh : Nat) :
    c.endClause now fresh = (c.transferred now fresh).dropHandler.regroup.rechoose := by
  unfold Cord.endClause
  extract_lets cl ft step d1 d2 d3 d4 d5
  have h4 : d4 = d3 := if_neg h
  have h5 : d5 = c.transferred now fresh := by
    by_cases he : c.cl.xf = .exit
    · have hy : c.cl.xf ≠ .yield := by simp [he]
      have h3 : d3 = { d2 with jm := d2.jm &&& ~~~cl.act } := if_pos he
      rw [show d5 = d4 from if_neg hy, h4, h3, Cord.transferred, if_pos he, if_neg hy, if_neg hy]
      rfl
    · have h3 : d3 = d2 := if_neg he
      rw [Cord.transferred, if_neg he]
      by_cases hy : c.cl.xf = .yield
      · rw [show d5 = { d4 with age := fresh, stallAt := now + 2 } from if_pos hy, h4, h3, if_pos hy, if_pos hy]
        rfl
      · rw [show d5 = d4 from if_neg hy, h4, h3, if_neg hy, if_neg hy]
        rfl
  rw [h5]

section
variable {c : Cord} {now fresh l : Nat}

theorem thread_transferred : (c.transferred now fresh).thread l =
    if bit c.cl.act l = true then c.cl.xf.apply c.cl.ft now l ((c.thread l).stamped c.cl) else c.thread l :=
  thread_mapThreads c c.cl.act _ l

theorem stamped_eq (t : Thread) (cl : Clause) : ∃ n m, t.stamped cl = { t with lastC := n, lastH := m } := by
  unfold Thread.stamped
  split
  · exact ⟨_, _, rfl⟩
  · exact ⟨_, _, rfl⟩

end

/-! A handler that is over. -/

theorem dropHandler_of_none {c : Cord} (h : c.trap.v = false) : c.dropHandler = c := by
  rw [Cord.dropHandler, if_neg (by simp [h])]

theorem unpark_eq (c : Cord) : c.unpark =
    { c with threads := (List.range 32).foldl (fun m l => SMap.upd {} m l fun t => { t with parked := false }) c.threads } := rfl

/-- The end of a handler unparks threads, and changes nothing else of them. -/
theorem dropHandler_eq (c : Cord) : ∃ ts tr, c.dropHandler = { c with threads := ts, trap := tr } ∧
    ∀ l < 32, ∃ b, SMap.get {} ts l = { c.thread l with parked := b } := by
  unfold Cord.dropHandler
  rw [unpark_eq]
  generalize hts : (List.range 32).foldl (fun m l => SMap.upd {} m l fun t => { t with parked := false }) c.threads = ts
  split
  · refine ⟨ts, { c.trap with v := false }, rfl, fun l hl => ⟨false, ?_⟩⟩
    rw [← hts, get_foldl_upd {} (fun (_ : Nat) (t : Thread) => { t with parked := false }) List.nodup_range, if_pos (List.mem_range.2 hl)]
    rfl
  · exact ⟨c.threads, c.trap, rfl, fun l _ => ⟨_, rfl⟩⟩

theorem thread_dropHandler (c : Cord) {l : Nat} (hl : l < 32) : ∃ b, c.dropHandler.thread l = { c.thread l with parked := b } := by
  obtain ⟨ts, tr, h, ht⟩ := dropHandler_eq c
  rw [h]
  exact ht l hl

theorem dropHandler_keeps (c : Cord) {β : Type} (g : Cord → β) (hg : ∀ c ts tr, g { c with threads := ts, trap := tr } = g c) :
    g c.dropHandler = g c := by
  obtain ⟨ts, tr, h, -⟩ := dropHandler_eq c
  rw [h]
  exact hg c ts tr

/-! The end of the clause in the state. -/

theorem returnFrom_cid (c : Cord) : c.returnFrom.cid = c.cid := by
  unfold Cord.returnFrom
  rw [unpark_eq]

theorem returnFrom_live (c : Cord) : c.returnFrom.live = c.live := by
  unfold Cord.returnFrom
  rw [unpark_eq]

/-- What the end of a clause leaves of the number and the life of its cord. -/
theorem endClause_keeps (c : Cord) (now fresh : Nat) : (c.endClause now fresh).cid = c.cid ∧ (c.endClause now fresh).live = c.live := by
  have key {β : Type} (g : Cord → β) (h1 : ∀ c ts ch, g { c with threads := ts, chosen := ch } = g c)
      (h2 : ∀ c ts tr, g { c with threads := ts, trap := tr } = g c) (d : Cord) : g d.dropHandler.regroup.rechoose = g d :=
    (rechoose_keeps _ g h1).trans (((onlyThreads_regroup _).keeps g fun c ts => h1 c ts c.chosen).trans (dropHandler_keeps d g h2))
  unfold Cord.endClause
  extract_lets cl ft step d1 d2 d3 d4 d5
  have h3 : d3.cid = d2.cid ∧ d3.live = d2.live := by simp only [d3]; split <;> exact ⟨rfl, rfl⟩
  have h4 : d4.cid = d3.cid ∧ d4.live = d3.live := by
    simp only [d4]
    split
    · exact ⟨returnFrom_cid d3, returnFrom_live d3⟩
    · exact ⟨rfl, rfl⟩
  have h5 : d5.cid = d4.cid ∧ d5.live = d4.live := by simp only [d5]; split <;> exact ⟨rfl, rfl⟩
  exact ⟨(key (·.cid) (fun _ _ _ => rfl) (fun _ _ _ => rfl) d5).trans (h5.1.trans (h4.1.trans h3.1)),
    (key (·.live) (fun _ _ _ => rfl) (fun _ _ _ => rfl) d5).trans (h5.2.trans (h4.2.trans h3.2))⟩

theorem live_of_clauseOver {s : State} {x : Cord} (h : s.clauseOver x = true) : x.live = true := by
  simp only [State.clauseOver, State.mayRun, Bool.and_eq_true] at h
  tauto

/-- Sleepers of a clause, each with its wake-up. -/
theorem foldl_after_sleepExpiry (ls : List Nat) (n c : Nat) (s : State) :
    ls.foldl (fun s l => s.after n (.sleepExpiry c l)) s = { s with agenda := s.agenda ++ ls.map fun l => ⟨s.cycle + n, .sleepExpiry c l⟩ } := by
  induction ls generalizing s with
  | nil => simp
  | cons l ls ih => rw [List.foldl_cons, ih]; simp [State.after]

theorem thread_of_course {y e : Cord} (h : y.course = e.course) (l : Nat) : y.thread l = e.thread l :=
  by
  unfold Cord.thread
  rw [(Prod.mk.inj h).1]

/-- A cord with no live thread has none that is not exited. -/
theorem exited_of_liveMask {e : Cord} (h : e.liveMask = 0) {l : Nat} (hl : l < 32) : (e.thread l).st = .exited := by
  have hb := bit_maskWhere (fun l => (e.thread l).live) hl
  rw [← Cord.liveMask, h] at hb
  rw [← live_eq_false_iff, ← hb]
  simp [bit]

/-- The end of a clause: the cord takes the decision, its sleepers' wake-ups are put in the agenda, and it ends when no thread of it
lives, coming to no group. -/
theorem exec_clauseEnd {s : State} {c : Nat} {x : Cord} (hn : s.now = some (.clauseEnd c)) (hx : s.cordRec c = some x)
    (ho : s.clauseOver x = true) : ∃ t y, exec .clauseEnd s = .next t ∧ t.cordRec c = some y ∧
      y.course = (x.endClause s.cycle (s.fresh + 1)).course ∧
      y.chosen = (if (x.endClause s.cycle (s.fresh + 1)).liveMask = 0 then none else (x.endClause s.cycle (s.fresh + 1)).chosen) ∧
      ((x.endClause s.cycle (s.fresh + 1)).liveMask ≠ 0 →
        ∀ l ∈ x.cl.sleepers.1, (⟨s.cycle + x.cl.sleepers.2, .sleepExpiry c l⟩ : Due) ∈ t.agenda) := by
  generalize he : x.endClause s.cycle (s.fresh + 1) = e
  have hl := live_of_clauseOver ho
  let u : State := x.cl.sleepers.1.foldl (fun s l => s.after x.cl.sleepers.2 (.sleepExpiry c l))
    (State.onCord c (fun x => x.endClause s.cycle (s.fresh + 1)) s.tick)
  have hcord : u.cordRec c = some e := by
    simp only [u, foldl_after_sleepExpiry]
    refine (cordRec_onCord c c _ s.tick fun x => (endClause_keeps x _ _).1).trans ?_
    rw [if_pos rfl]
    exact (congrArg _ hx).trans (congrArg some he)
  have hfind : u.findCord c = some e := findCord_of_cordRec hcord (he ▸ (endClause_keeps x _ _).2.trans hl)
  have hexec : exec .clauseEnd s = .next (if e.liveMask = 0 then u.endCord c else u) := by
    change execClauseEnd s = _
    unfold execClauseEnd
    rw [hn]
    change s.ifCord c _ = _
    unfold State.ifCord
    rw [findCord_of_cordRec hx hl]
    dsimp only
    rw [ho]
    change Host.Outcome.next (match u.findCord c with | some x => if x.liveMask = 0 then u.endCord c else u | none => u) = _
    rw [hfind]
  rw [hexec]
  by_cases h0 : e.liveMask = 0
  · obtain ⟨y, hy, hc, hch⟩ := cordRec_endCord hcord
    exact ⟨_, y, by rw [if_pos h0], hy, hc, by rw [if_pos h0, hch], fun h => absurd h0 h⟩
  · refine ⟨_, e, by rw [if_neg h0], hcord, rfl, by rw [if_neg h0], fun _ l hl => ?_⟩
    simp only [u, foldl_after_sleepExpiry]
    exact List.mem_append_right _ (List.mem_map_of_mem hl)

end Sys2Proof.Machine
end

section
/-! What becomes of the threads at a clause end and when they are woken (R85, R90 to R92, R102). -/

namespace Sys2Proof.Machine

open Claims

/-! A meeting, by what it does to one thread of a cord that goes on inside no clause. -/

/-- The thread of lane l stands at its meeting address: it is held there, or comes to be. -/
def Cord.Stands (c : Cord) (l : Nat) : Prop := (c.thread l).st = .held ∨
  ((c.thread l).st = .ready ∧ (c.thread l).parked = false ∧ (c.thread l).mr ≠ 0 ∧ (c.thread l).pc = (c.thread l).mr ∧ bit c.jm l = true)

/-- All of the join mask stand at pc, or have exited. -/
def Cord.Met (c : Cord) (pc : Dword) : Prop :=
  ∀ j < 32, bit c.jm j = true → (c.thread j).live = false ∨ (c.Stands j ∧ (c.thread j).pc = pc)

section
variable {c : Cord} (hr : c.resume = none)
include hr

theorem arrives_iff (l : Nat) : c.Arrives l (c.thread l) ↔ (c.thread l).st = .ready ∧ (c.thread l).parked = false ∧ (c.thread l).mr ≠ 0 ∧
    (c.thread l).pc = (c.thread l).mr ∧ bit c.jm l = true := by
  simp [Cord.Arrives, hr, and_assoc]

/-- Holding changes the state of those that stand alone. -/
theorem thread_holdMet_of_stands {l : Nat} (hl : l < 32) (h : c.Stands l) : c.holdMet.thread l = { c.thread l with st := .held } := by
  rw [thread_holdMet c hl]
  split
  next => rfl
  next ha =>
    have hs : (c.thread l).st = .held := h.resolve_right fun h => ha ((arrives_iff hr l).2 h)
    rw [← hs]

theorem thread_holdMet_of_not_stands {l : Nat} (hl : l < 32) (h : ¬c.Stands l) : c.holdMet.thread l = c.thread l := by
  rw [thread_holdMet c hl, if_neg fun ha => h (.inr ((arrives_iff hr l).1 ha))]

theorem held_holdMet_iff {l : Nat} (hl : l < 32) : (c.holdMet.thread l).st = .held ↔ c.Stands l := by
  by_cases h : c.Stands l
  · simp [thread_holdMet_of_stands hr hl h, h]
  · rw [thread_holdMet_of_not_stands hr hl h, iff_false_right h]
    exact fun hs => h (.inl hs)

omit hr in
theorem pc_holdMet {l : Nat} (hl : l < 32) : (c.holdMet.thread l).pc = (c.thread l).pc := by
  rw [thread_holdMet c hl]; split <;> rfl

theorem live_holdMet {l : Nat} (hl : l < 32) : (c.holdMet.thread l).live = (c.thread l).live := by
  rw [thread_holdMet c hl]
  split
  next ha =>
    obtain ⟨hs, -⟩ := (arrives_iff hr l).1 ha
    rw [Thread.live, Thread.live, hs]; rfl
  next => rfl

theorem meets_holdMet_iff (pc : Dword) : c.holdMet.meets pc = true ↔ c.Met pc := by
  rw [meets_iff, (onlyThreads_holdMet c).keeps (·.jm) fun _ _ => rfl]
  refine forall₂_congr fun j hj => ?_
  rw [live_holdMet hr hj, held_holdMet_iff hr hj, pc_holdMet hj]

/-- One meeting: those that stand go with no meeting address if all have met, and are held if not; no other thread changes. -/
theorem thread_meeting {l : Nat} (hl : l < 32) :
    (c.Stands l → c.Met (c.thread l).pc → c.holdMet.meetRelease.thread l = (c.thread l).released) ∧
    (c.Stands l → ¬c.Met (c.thread l).pc → c.holdMet.meetRelease.thread l = { c.thread l with st := .held }) ∧
    (¬c.Stands l → c.holdMet.meetRelease.thread l = c.thread l) := by
  have held := held_holdMet_iff hr hl
  have all : c.holdMet.meets (c.holdMet.thread l).pc = true ↔ c.Met (c.thread l).pc := by rw [pc_holdMet hl, meets_holdMet_iff hr]
  rw [thread_meetRelease _ hl]
  refine ⟨fun hs hm => ?_, fun hs hm => ?_, fun hs => ?_⟩
  · rw [if_pos ⟨held.2 hs, all.2 hm⟩, thread_holdMet_of_stands hr hl hs]; rfl
  · rw [if_neg fun h => hm (all.1 h.2), thread_holdMet_of_stands hr hl hs]
  · rw [if_neg fun h => hs (held.1 h.1), thread_holdMet_of_not_stands hr hl hs]

end

/-! Threads that wait on a mask register, by what its release does to one. -/

/-- The release of a mask register wakes those that wait on it when all that it names have come, and no other thread. -/
theorem st_woken {c c' : Cord} (w : Woken c 12 c') {l : Nat} (hl : l < 32) :
    (∀ k < 12, (c.thread l).st = .waiting k →
      (c.allWait k = true → (c'.thread l).st = .ready) ∧ (c.allWait k ≠ true → (c'.thread l).st = .waiting k)) ∧
    ((∀ k, (c.thread l).st ≠ .waiting k) → (c'.thread l).st = (c.thread l).st) := by
  refine ⟨fun k hk hs => ⟨fun ha => ?_, fun ha => ?_⟩, fun hs => ?_⟩
  · rw [w.thread l hl, if_pos ⟨k, hk, hs, ha⟩]; rfl
  · rw [w.thread l hl, if_neg, hs]
    rintro ⟨j, -, hj, ha'⟩
    rw [hs] at hj
    cases hj
    exact ha ha'
  · rw [w.thread l hl, if_neg]
    exact fun ⟨k, _, hk, _⟩ => hs k hk

theorem thread_rechoose (c : Cord) (l : Nat) : c.rechoose.thread l = c.thread l := by
  unfold Cord.rechoose
  split <;> rfl

/-- Where nothing meets, what landing writes of a mask register do to threads is its release. -/
theorem thread_atBoundary_waitkRelease {c : Cord} (h : c.cl.on = true ∨ c.NoMeeting) {l : Nat} (hl : l < 32) :
    c.waitkRelease.atBoundary.thread l = c.waitkRelease.thread l := by
  have hcl : c.waitkRelease.cl = c.cl := (woken_waitkRelease c).only.keeps (·.cl) fun _ _ => rfl
  unfold Cord.atBoundary
  rw [hcl]
  split
  next => rfl
  next hon =>
    have again := (sameThreads_waitkRelease_again c).trans (h.resolve_left hon).waitkRelease.regroup
    rw [thread_rechoose, again.thread l hl]

/-! The events that wake threads and make cords urgent. -/

/-- A thread when its wake-up is due. -/
def Thread.awake (now : Nat) (t : Thread) : Thread :=
  match t.st with
  | .sleeping u => if u ≤ now then { t with st := .ready } else t
  | _ => t

/-- A cord when the wake-up of lane l is due. -/
def Cord.wakeLane (now l : Nat) (c : Cord) : Cord := (c.mapThreads (maskOf [l]) fun _ => Thread.awake now).atBoundary

theorem wakeLane_keeps (now l : Nat) (c : Cord) {β : Type} (g : Cord → β) (hg : ∀ c ts ch, g { c with threads := ts, chosen := ch } = g c) :
    g (c.wakeLane now l) = g c :=
  (atBoundary_keeps _ g hg).trans ((OnlyThreads.mapThreads ..).keeps g fun c ts => hg c ts c.chosen)

theorem exec_sleepExpiry {s : State} {c l : Nat} (h : s.now = some (.sleepExpiry c l)) :
    exec .sleepExpiry s = .next (s.onCord c (Cord.wakeLane s.cycle l)) := by
  change execSleepExpiry s = _
  unfold execSleepExpiry
  rw [h]
  rfl

/-- A sleeper whose time has come is ready, or held if it meets where it stands. -/
theorem st_wakeLane {now l u : Nat} {c : Cord} (hl : l < 32) (hs : (c.thread l).st = .sleeping u) (hu : u ≤ now) :
    ((c.wakeLane now l).thread l).st = .ready ∨ ((c.wakeLane now l).thread l).st = .held := by
  have hb : bit (maskOf [l]) l = true := by rw [bit_maskOf _ hl]; simp
  have hw : ((c.mapThreads (maskOf [l]) fun _ => Thread.awake now).thread l).st = .ready := by
    rw [thread_mapThreads, if_pos hb, Thread.awake, hs]
    exact congrArg Thread.st (if_pos hu)
  unfold Cord.wakeLane Cord.atBoundary
  split
  · exact .inl hw
  · rw [thread_rechoose]
    exact regroup_keeps (fun t => t.st = .ready ∨ t.st = .held) (fun _ _ _ => .inr rfl) (fun _ _ _ => .inl rfl) (fun _ _ _ _ => .inl rfl)
      _ hl (.inl hw)

/-- A cord whose count tells that it is urgent (R88). -/
def Cord.urge (c : Cord) : Cord := if 48 ≤ c.count then { c with urgent := true } else c

theorem exec_cordUrgent {s : State} {c : Nat} (h : s.now = some (.cordUrgent c)) : exec .cordUrgent s = .next (s.onCord c Cord.urge) := by
  change execCordUrgent s = _
  unfold execCordUrgent
  rw [h]
  rfl

/-! The cord that a clause end leaves. -/

/-- The cord after the decision of its clause and the regrouping of its threads. -/
def Cord.regrouped (x : Cord) (now fresh : Nat) : Cord := (x.transferred now fresh).dropHandler.regroup

theorem regrouped_keeps (x : Cord) (now fresh : Nat) {β : Type} (g : Cord → β)
    (hg : ∀ c ts tr, g { c with threads := ts, trap := tr } = g c) : g (x.regrouped now fresh) = g (x.transferred now fresh) :=
  ((onlyThreads_regroup _).keeps g fun c ts => hg c ts c.trap).trans (dropHandler_keeps _ g hg)

section
variable {x y : Cord} {now fresh : Nat} (hx : x.cl.xf ≠ .rte)
include hx

/-- Between clauses the cord comes to the group that rotation chooses. -/
theorem chosen_endClause (hr : x.resume = none) (hc : x.chosen = none) : (x.endClause now fresh).chosen = (x.regrouped now fresh).rotate := by
  have on : (x.regrouped now fresh).cl.on = false := congrArg Clause.on (regrouped_keeps x now fresh (·.cl) fun _ _ _ => rfl)
  have chosen : (x.regrouped now fresh).chosen = none := (regrouped_keeps x now fresh (·.chosen) fun _ _ _ => rfl).trans hc
  have resume : (x.regrouped now fresh).resume = none := (regrouped_keeps x now fresh (·.resume) fun _ _ _ => rfl).trans hr
  rw [endClause_eq hx, ← Cord.regrouped, Cord.rechoose, if_neg (by simp [on, chosen, resume])]

variable (hy : y.course = (x.endClause now fresh).course)
include hy

theorem course_left : y.threads = (x.regrouped now fresh).threads ∧ y.jm = (x.transferred now fresh).jm ∧
    y.age = (x.transferred now fresh).age ∧ y.stallAt = (x.transferred now fresh).stallAt := by
  have he : y.course = (x.regrouped now fresh).course :=
    hy.trans ((congrArg Cord.course (endClause_eq hx now fresh)).trans (by unfold Cord.rechoose; split <;> rfl))
  have hk : (y.jm, y.age, y.stallAt) = ((x.transferred now fresh).jm, (x.transferred now fresh).age, (x.transferred now fresh).stallAt) :=
    (Prod.mk.inj he).2.trans (regrouped_keeps x now fresh (fun c => (c.jm, c.age, c.stallAt)) fun _ _ _ => rfl)
  simp only [Prod.mk.injEq] at hk
  exact ⟨(Prod.mk.inj he).1, hk⟩

theorem thread_left (l : Nat) : y.thread l = (x.regrouped now fresh).thread l := by
  unfold Cord.thread
  rw [(course_left hx hy).1]

theorem pc_left {l : Nat} (hl : l < 32) : (y.thread l).pc = ((x.transferred now fresh).thread l).pc := by
  obtain ⟨b, hb⟩ := thread_dropHandler (x.transferred now fresh) hl
  rw [thread_left hx hy, Cord.regrouped, pc_regroup _ hl, hb]

theorem st_left_of_settled {l : Nat} (hl : l < 32) (h : ((x.transferred now fresh).thread l).st = .exited ∨
    ∃ u, ((x.transferred now fresh).thread l).st = .sleeping u) : (y.thread l).st = ((x.transferred now fresh).thread l).st := by
  obtain ⟨b, hb⟩ := thread_dropHandler (x.transferred now fresh) hl
  rw [thread_left hx hy, Cord.regrouped, thread_regroup_of_settled _ hl (by rwa [hb]), hb]

end

theorem apply_active {x : Cord} {now fresh l : Nat} (h : bit x.cl.act l = true) :
    ∃ n m, (x.transferred now fresh).thread l = x.cl.xf.apply x.cl.ft now l { x.thread l with lastC := n, lastH := m } := by
  obtain ⟨n, m, ht⟩ := stamped_eq (x.thread l) x.cl
  exact ⟨n, m, by rw [thread_transferred, if_pos h, ht]⟩

end Sys2Proof.Machine
end

section
/-! Clause ends and waking: the clauses of the obligation, one by one (R85, R88, R90 to R92, R102). -/

namespace Sys2Proof.Machine

open Claims

/-! Where a clause takes its threads. -/

/-- The header that the thread of lane l comes to. -/
def Cord.goesTo (x : Cord) (l : Nat) : Dword :=
  if bit x.cl.act l then (match x.cl.xf with | .jump ds => ((ds.find? fun d => d.1 == l).map (·.2)).getD x.cl.ft | _ => x.cl.ft)
  else (x.thread l).pc

/-- What the thread of lane l comes to, of a clause that does not send it to sleep. -/
def Cord.comesTo (x : Cord) (l : Nat) : TState :=
  if bit x.cl.act l then (match x.cl.xf with | .waitk k => .waiting k | .exit => .exited | _ => (x.thread l).st) else (x.thread l).st

section
variable {x : Cord} (now fresh : Nat)

/-- A clause that goes on moves its threads, and leaves their state. -/
theorem transferred_goes (hxf : x.cl.xf = .none ∨ x.cl.xf = .yield ∨ ∃ ds, x.cl.xf = .jump ds) (l : Nat) :
    ∃ n m, (x.transferred now fresh).thread l = { x.thread l with pc := x.goesTo l, lastC := n, lastH := m } := by
  unfold Cord.goesTo
  by_cases ha : bit x.cl.act l = true
  · obtain ⟨n, m, ht⟩ := apply_active (now := now) (fresh := fresh) ha
    refine ⟨n, m, ?_⟩
    rw [ht, if_pos ha]
    rcases hxf with h | h | ⟨ds, h⟩ <;> rw [h] <;> rfl
  · rw [thread_transferred, if_neg ha, if_neg ha]
    exact ⟨_, _, rfl⟩

theorem jm_transferred (h : x.cl.xf ≠ .exit) : (x.transferred now fresh).jm = x.jm := if_neg h

theorem stands_transferred (hxf : x.cl.xf = .none ∨ x.cl.xf = .yield ∨ ∃ ds, x.cl.xf = .jump ds) (l : Nat) :
    (x.transferred now fresh).Stands l ↔ (x.thread l).st = .held ∨ ((x.thread l).st = .ready ∧ (x.thread l).parked = false ∧
      (x.thread l).mr ≠ 0 ∧ x.goesTo l = (x.thread l).mr ∧ bit x.jm l = true) := by
  obtain ⟨n, m, ht⟩ := transferred_goes now fresh hxf l
  rw [Cord.Stands, ht, jm_transferred now fresh (by rcases hxf with h | h | ⟨ds, h⟩ <;> simp [h])]

theorem met_transferred (hxf : x.cl.xf = .none ∨ x.cl.xf = .yield ∨ ∃ ds, x.cl.xf = .jump ds) (pc : Dword) :
    (x.transferred now fresh).Met pc ↔ ∀ j < 32, bit x.jm j = true →
      (x.thread j).live = false ∨ ((x.transferred now fresh).Stands j ∧ x.goesTo j = pc) := by
  rw [Cord.Met, jm_transferred now fresh (by rcases hxf with h | h | ⟨ds, h⟩ <;> simp [h])]
  refine forall₂_congr fun j _ => ?_
  obtain ⟨n, m, ht⟩ := transferred_goes now fresh hxf j
  rw [ht]; rfl

/-- Any other clause, but one of rte, sleep or a jump, leaves where they meet. -/
theorem transferred_comes (hj : ∀ ds, x.cl.xf ≠ .jump ds) (hs : ∀ n, x.cl.xf ≠ .sleep n) (hr : x.cl.xf ≠ .rte) (l : Nat) :
    ((x.transferred now fresh).thread l).st = x.comesTo l ∧ ((x.transferred now fresh).thread l).mr = (x.thread l).mr := by
  unfold Cord.comesTo
  by_cases ha : bit x.cl.act l = true
  · obtain ⟨n, m, ht⟩ := apply_active (now := now) (fresh := fresh) ha
    rw [ht, if_pos ha]
    cases h : x.cl.xf with
    | none | exit | waitk | yield => exact ⟨rfl, rfl⟩
    | jump ds => exact absurd h (hj ds)
    | sleep n => exact absurd h (hs n)
    | rte => exact absurd h hr
  · rw [thread_transferred, if_neg ha, if_neg ha]
    exact ⟨rfl, rfl⟩

end

/-! The clauses of the obligation about a cord that a clause end leaves. -/

section
variable {x y : Cord} {now fresh : Nat} (hy : y.course = (x.endClause now fresh).course)
include hy

/-- A group is chosen by rotation among the threads that are left ready; of a cord that has ended there is none. -/
theorem chosen_left {e : Cord} (he : x.endClause now fresh = e) (hch : y.chosen = if e.liveMask = 0 then none else e.chosen)
    (hx : x.cl.xf ≠ .rte) (hr : x.resume = none) (hc : x.chosen = none) (pc : Dword) : y.chosen = some pc ↔
      ∃ l, y.Leads l ∧ (y.thread l).pc = pc ∧
        ((x.rotP < l ∧ ∀ j, y.Leads j → x.rotP < j → l ≤ j) ∨ ((∀ j, y.Leads j → j ≤ x.rotP) ∧ ∀ j, y.Leads j → l ≤ j)) := by
  by_cases h0 : e.liveMask = 0
  · rw [hch, if_pos h0]
    refine iff_of_false (by simp) ?_
    rintro ⟨l, ⟨⟨hl, hs, -⟩, -⟩, -⟩
    rw [thread_of_course (hy.trans (congrArg _ he)), exited_of_liveMask h0 hl] at hs
    cases hs
  · have hp : (x.regrouped now fresh).rotP = x.rotP := regrouped_keeps x now fresh (·.rotP) fun _ _ _ => rfl
    have hl (l : Nat) : y.Leads l ↔ (x.regrouped now fresh).Leads l := by
      simp only [Cord.Leads, Cord.ReadyAt, thread_left hx hy]
    rw [hch, if_neg h0, ← he, chosen_endClause hx hr hc, rotate_eq_some_iff, hp]
    simp only [hl, thread_left hx hy]

section
variable (htr : x.trap.v = false)
include htr

/-- Threads that go on meet where the clause takes them. -/
theorem meeting_left (hr : x.resume = none) (hxf : x.cl.xf = .none ∨ x.cl.xf = .yield ∨ ∃ ds, x.cl.xf = .jump ds)
    (hw : ∀ l < 32, ∀ k, (x.thread l).st ≠ .waiting k) {l : Nat} (hl : l < 32) :
    let d := x.transferred now fresh
    (d.Stands l → d.Met (x.goesTo l) → y.thread l = (d.thread l).released) ∧
    (d.Stands l → ¬d.Met (x.goesTo l) → y.thread l = { d.thread l with st := .held }) ∧ (¬d.Stands l → y.thread l = d.thread l) := by
  intro d
  have hx : x.cl.xf ≠ .rte := by rcases hxf with h | h | ⟨ds, h⟩ <;> simp [h]
  have nw : d.NoWaiting := fun j hj k => by
    obtain ⟨n, m, ht⟩ := transferred_goes now fresh hxf j
    rw [ht]; exact hw j hj k
  have hpc : (d.thread l).pc = x.goesTo l := by
    obtain ⟨n, m, ht⟩ := transferred_goes now fresh hxf l
    rw [ht]
  have hd : d.dropHandler = d := dropHandler_of_none htr
  have ht : y.thread l = d.holdMet.meetRelease.thread l := by
    rw [thread_left hx hy, Cord.regrouped, hd, nw.regroup.thread l hl]
  rw [ht, ← hpc]
  exact thread_meeting (c := d) hr hl

/-- Where nothing meets, those that wait on a mask register at which all have come are woken. -/
theorem waking_left (hj : ∀ ds, x.cl.xf ≠ .jump ds) (hs : ∀ n, x.cl.xf ≠ .sleep n) (hx : x.cl.xf ≠ .rte)
    (hm : ∀ l < 32, (x.thread l).mr = 0 ∧ (x.thread l).st ≠ .held) {l : Nat} (hl : l < 32) :
    (∀ k < 12, x.comesTo l = .waiting k →
      ((x.transferred now fresh).allWait k = true → (y.thread l).st = .ready) ∧
      ((x.transferred now fresh).allWait k ≠ true → (y.thread l).st = .waiting k)) ∧
    ((∀ k, x.comesTo l ≠ .waiting k) → (y.thread l).st = x.comesTo l) := by
  have hd : (x.transferred now fresh).dropHandler = x.transferred now fresh := dropHandler_of_none htr
  have nm : (x.transferred now fresh).NoMeeting := fun j hj' => by
    obtain ⟨h1, h2⟩ := transferred_comes now fresh hj hs hx j
    rw [h1, h2]
    refine ⟨(hm j hj').1, ?_⟩
    unfold Cord.comesTo
    split
    · split <;> simp [(hm j hj').2]
    · exact (hm j hj').2
  have ht : y.thread l = (x.transferred now fresh).waitkRelease.thread l := by
    rw [thread_left hx hy, Cord.regrouped, hd, nm.regroup.thread l hl]
  rw [ht, ← (transferred_comes now fresh hj hs hx l).1]
  exact st_woken (woken_waitkRelease _) hl

end
end

/-! Single threads. -/

section
variable {x y : Cord} {now fresh l : Nat} (hy : y.course = (x.endClause now fresh).course) (hl : l < 32) (ha : bit x.cl.act l = true)
include hy hl ha

theorem jump_left {ds : List (Nat × Dword)} (h : x.cl.xf = .jump ds) :
    (y.thread l).pc = ((ds.find? fun d => d.1 == l).map (·.2)).getD x.cl.ft := by
  obtain ⟨n, m, ht⟩ := apply_active (now := now) (fresh := fresh) ha
  rw [pc_left (by simp [h]) hy hl, ht, h]; rfl

theorem fall_left (h : x.cl.xf = .none ∨ x.cl.xf = .yield ∨ (∃ k, x.cl.xf = .waitk k) ∨ ∃ n, x.cl.xf = .sleep n) :
    (y.thread l).pc = x.cl.ft := by
  obtain ⟨n, m, ht⟩ := apply_active (now := now) (fresh := fresh) ha
  have hx : x.cl.xf ≠ .rte := by rcases h with h | h | ⟨k, h⟩ | ⟨k, h⟩ <;> simp [h]
  rw [pc_left hx hy hl, ht]
  rcases h with h | h | ⟨k, h⟩ | ⟨k, h⟩ <;> rw [h]
  · rfl
  · rfl
  · rfl
  · unfold Transfer.apply; dsimp only; split <;> rfl

theorem exit_left (h : x.cl.xf = .exit) : (y.thread l).st = .exited ∧ bit y.jm l = false := by
  obtain ⟨n, m, ht⟩ := apply_active (now := now) (fresh := fresh) ha
  have hx : x.cl.xf ≠ .rte := by simp [h]
  have hs : ((x.transferred now fresh).thread l).st = .exited := by rw [ht, h]; rfl
  refine ⟨(st_left_of_settled hx hy hl (.inl hs)).trans hs, ?_⟩
  obtain ⟨-, hj, -⟩ := course_left hx hy
  rw [hj, Cord.transferred]
  dsimp only
  rw [if_pos h]
  simp only [bit] at ha ⊢
  simp [ha]

theorem sleep_left {n : Nat} (h : x.cl.xf = .sleep n) (hn : 0 < n) : (y.thread l).st = .sleeping (now + 64 * n) := by
  obtain ⟨_, _, ht⟩ := apply_active (now := now) (fresh := fresh) ha
  have hs : ((x.transferred now fresh).thread l).st = .sleeping (now + 64 * n) := by
    rw [ht, h]
    exact congrArg Thread.st (if_neg (by omega))
  exact (st_left_of_settled (by simp [h]) hy hl (.inr ⟨_, hs⟩)).trans hs

end

/-- The sleepers of a clause and the cycles they sleep. -/
theorem sleepers_eq {cl : Clause} {n : Nat} (h : cl.xf = .sleep n) (hn : 0 < n) : cl.sleepers = (lanesOf cl.act, 64 * n) := by
  unfold Clause.sleepers
  rw [h]
  exact if_neg (by omega)

end Sys2Proof.Machine

namespace Sys2Proof

open Machine Claims

/-- Settles O13: what a clause end leaves is told of one thread after the decision (`Cord.transferred`), and of it after the regrouping,
which is one meeting where nothing waits (`meeting_left`) and one release of the mask registers where nothing meets (`waking_left`). -/
theorem clauseEndsAndWaking : Obligations.ClauseEndsAndWaking := by
  unfold Obligations.ClauseEndsAndWaking
  refine ⟨fun s c l x hn hx ho hl ha => ?_, fun s c x hn hx ho hr hc hrte => ?_, fun s c x hn hx ho hr htr => ?_,
    fun s c x ws hn hx hw hm => ?_, fun s c l u x hn hx hl hs hu => ?_, fun s c x hn hx hcount => ?_⟩
  · obtain ⟨t, y, he, hy, hcourse, -, hag⟩ := exec_clauseEnd hn hx ho
    refine ⟨t, y, he, hy, fun ds h => jump_left hcourse hl ha h, fun h => fall_left hcourse hl ha (h.imp_right .inl),
      fun k h => fall_left hcourse hl ha (.inr (.inr (.inl ⟨k, h⟩))), exit_left hcourse hl ha, fun n h hn => ?_⟩
    have hsl := sleep_left hcourse hl ha h hn
    refine ⟨fall_left hcourse hl ha (.inr (.inr (.inr ⟨n, h⟩))), hsl, ?_⟩
    have hlive : (x.endClause s.cycle (s.fresh + 1)).liveMask ≠ 0 := fun h0 => by
      rw [thread_of_course hcourse, exited_of_liveMask h0 hl] at hsl
      cases hsl
    have hd := hag hlive l
    rw [sleepers_eq h hn] at hd
    exact hd (mem_lanesOf.2 ⟨hl, ha⟩)
  · obtain ⟨t, y, he, hy, hcourse, hch, -⟩ := exec_clauseEnd hn hx ho
    obtain ⟨-, -, hage, hstall⟩ := course_left hrte hcourse
    refine ⟨t, y, he, hy, chosen_left hcourse rfl hch hrte hr hc, fun h => ?_, fun h => hage.trans (if_neg h)⟩
    have hage : y.age = s.fresh + 1 := hage.trans (if_pos h)
    exact ⟨hage, hstall.trans (if_pos h), fun z _ hz => by omega⟩
  · obtain ⟨t, y, he, hy, hcourse, -, -⟩ := exec_clauseEnd hn hx ho
    refine ⟨t, y, he, hy, fun hxf hw l hl => ?_, fun hj hs hrte hm l hl => ?_⟩
    · have hrte : x.cl.xf ≠ .rte := by rcases hxf with h | h | ⟨ds, h⟩ <;> simp [h]
      obtain ⟨hmet, hheld, hrest⟩ := meeting_left hcourse htr hr hxf hw hl
      obtain ⟨n, m, ht⟩ := transferred_goes s.cycle (s.fresh + 1) hxf l
      simp only [met_transferred _ _ hxf, stands_transferred _ _ hxf, ht] at hmet hheld hrest
      have hpc : (y.thread l).pc = x.goesTo l := by
        rw [pc_left hrte hcourse hl, ht]
      exact ⟨hpc, fun h1 h2 => by rw [hmet h1 h2]; exact ⟨rfl, rfl⟩, fun h1 h2 => by rw [hheld h1 h2]; exact ⟨rfl, rfl⟩,
        fun h1 => by rw [hrest h1]; exact ⟨rfl, rfl⟩⟩
    · have hd := transferred_comes s.cycle (s.fresh + 1) hj hs hrte
      obtain ⟨hwait, hrest⟩ := waking_left hcourse htr hj hs hrte hm hl
      refine ⟨fun k hk h => ?_, hrest⟩
      have := hwait k hk h
      simp only [ne_eq, allWait_iff, (hd _).1] at this
      exact this
  · refine ⟨_, x.landed ws, exec_fixedLatencyWrite hn, findCord_landed ws hx, fun l hl k hk hs => ?_⟩
    have any : ws.any isMaskWrite = true := by
      obtain ⟨w, hw, n, v, rfl⟩ := hw
      exact List.any_eq_true.2 ⟨_, hw, rfl⟩
    have ht (j : Nat) : (x.applyAll ws).thread j = x.thread j := by simp [Cord.thread]
    have hb : (x.applyAll ws).cl.on = true ∨ (x.applyAll ws).NoMeeting := hm.imp (by simp) fun h j hj => by rw [ht]; exact h j hj
    rw [Cord.landed, if_pos any, thread_atBoundary_waitkRelease hb hl]
    obtain ⟨hwait, -⟩ := st_woken (woken_waitkRelease (x.applyAll ws)) hl
    have := hwait k hk (by rw [ht]; exact hs)
    simpa only [ne_eq, allWait_iff, ht] using this
  · exact ⟨_, x.wakeLane s.cycle l, exec_sleepExpiry hn,
      findCord_onCord_self (fun x => wakeLane_keeps _ _ x (·.cid) fun _ _ _ => rfl) (fun x => wakeLane_keeps _ _ x (·.live) fun _ _ _ => rfl) hx,
      st_wakeLane hl hs hu⟩
  · have keep (x : Cord) : x.urge.cid = x.cid ∧ x.urge.live = x.live := by unfold Cord.urge; split <;> exact ⟨rfl, rfl⟩
    refine ⟨_, exec_cordUrgent hn, (findCord_onCord_self (fun x => (keep x).1) (fun x => (keep x).2) hx).trans ?_⟩
    rw [Cord.urge, if_pos hcount]

end Sys2Proof
end

section
/-! What leaves memory as it is: the operations that forms use as they issue (R79, R199, R201). -/

namespace Sys2Proof.Machine

/-- Steps that leave memory leave it one after the other. -/
theorem foldl_mem {α : Type} {f : State → α → State} (h : ∀ s a, (f s a).mem = s.mem) (l : List α) (s : State) :
    (l.foldl f s).mem = s.mem :=
  foldl_keeps (fun t => t.mem = s.mem) f l (fun t a ht => (h t a).trans ht) s rfl

/-- The same of steps that gather something besides. -/
theorem foldl_snd_mem {α β : Type} {f : β × State → α → β × State} (h : ∀ r a, (f r a).2.mem = r.2.mem) (l : List α) (r : β × State) :
    (l.foldl f r).2.mem = r.2.mem :=
  foldl_keeps (fun t => t.2.mem = r.2.mem) f l (fun t a ht => (h t a).trans ht) r rfl

variable (s : State)

/-! Slots, walks and outstanding forms. -/

@[simp] theorem issued_mem (f : Form) : (f.issued s).mem = s.mem := by
  rw [issued_eq, State.onCore_mem]

@[simp] theorem write_mem (lat : Lat) (ws : List RegWrite) : (s.write lat ws).mem = s.mem := by
  unfold State.write
  split <;> simp

@[simp] theorem holdSlot_mem (n : Nat) : (s.holdSlot n).mem = s.mem := State.onCore_mem ..

@[simp] theorem startWalk_mem (pages : List Nat) : (s.startWalk pages).mem = s.mem :=
  (holdSlot_mem _ _).trans (by simp)

@[simp] theorem openOp_mem (o : Op) : (s.open_ o).mem = s.mem := rfl

@[simp] theorem askVersion_mem (c : Nat) (o : Op) (first : Nat) : (s.askVersion c o first).mem = s.mem := by
  unfold State.askVersion
  split <;> simp

@[simp] theorem dropDrain_mem (core q : Nat) : (s.dropDrain core q).mem = s.mem := State.onCore_mem ..

@[simp] theorem setOp_mem (c : Nat) (o : Op) (left : Nat) (k : OpKind) : (s.setOp c o left k).mem = s.mem := rfl

@[simp] theorem attempt_mem (c : Nat) (o : Op) (first n t : Nat) (dead : Bool) : (s.attempt c o first n t dead).mem = s.mem := by
  simp [State.attempt]

@[simp] theorem opPart_mem (c tok : Nat) : (s.opPart c tok).mem = s.mem := by
  unfold State.opPart
  split
  · rfl
  split
  · rfl
  next o _ =>
    extract_lets t
    split
    · rfl
    split <;> simp [t]

@[simp] theorem readEnded_mem (c tok : Nat) : (s.readEnded c tok).mem = s.mem := by
  unfold State.readEnded
  split
  · rfl
  split <;> simp

/-! Eyelets. -/

@[simp] theorem dropReads_mem (c e : Nat) : (s.dropReads c e).mem = s.mem := by
  unfold State.dropReads
  extract_lets mine toks t u
  exact foldl_mem (fun v tok => readEnded_mem v c tok) toks u

@[simp] theorem closeEye_mem (c e : Nat) (r : Reason) : (s.closeEye c e r).mem = s.mem := by
  unfold State.closeEye
  split
  · rfl
  split <;> simp

@[simp] theorem bindEye_mem (e va : Nat) (p : Page) (tok : Nat) (tol : Option Word) : (s.bindEye e va p tok tol).mem = s.mem := by
  simp [State.bindEye]

@[simp] theorem setDue_mem (c e : Nat) : (s.setDue c e).mem = s.mem := by
  unfold State.setDue
  split <;> rfl

@[simp] theorem sendFill_mem (c e tok : Nat) : (s.sendFill c e tok).mem = s.mem := by
  unfold State.sendFill
  split <;> simp

@[simp] theorem sendReads_mem (c tok : Nat) (r : Refresh) : (s.sendReads c tok r).mem = s.mem := by
  unfold State.sendReads
  split
  · rfl
  · rw [State.afterPaths_mem]
    exact foldl_mem (fun t (f : Nat × Nat) => setDue_mem t c f.1) _ s

@[simp] theorem resendRun_mem (c : Nat) (x : Cord) (o : Op) : (s.resendRun c x o).mem = s.mem := by
  unfold State.resendRun
  split
  · extract_lets es asked
    split <;> simp
  · rfl

@[simp] theorem resendFills_mem (c : Nat) : (s.resendFills c).mem = s.mem := by
  unfold State.resendFills
  extract_lets filling fills opens jobs gone t u
  have ht : t.mem = s.mem := foldl_mem (fun t (f : Nat × Nat) => sendFill_mem t c f.1 f.2) fills _
  have hu : u.mem = s.mem := (foldl_mem (fun t (j : Nat × Refresh) => sendReads_mem t c j.1 (readAgain j.2)) jobs t).trans ht
  split
  · exact hu
  next x _ => exact (foldl_mem (fun t o => resendRun_mem t c x o) x.ops u).trans hu

@[simp] theorem beginAcquireOf_mem (c tok : Nat) (fills : List (Nat × Nat)) (first : List (Nat × Nat × Bool)) :
    (s.beginAcquireOf c tok fills first).mem = s.mem := by
  unfold State.beginAcquireOf
  extract_lets t u
  have hu : u.mem = s.mem := resendFills_mem t c
  split
  · exact hu
  · exact (sendReads_mem _ _ _ _).trans hu

@[simp] theorem beginAcquire_mem (c tok : Nat) : (s.beginAcquire c tok).mem = s.mem := beginAcquireOf_mem ..

@[simp] theorem wakeAcquire_mem (c : Nat) (kind : OpKind) : (s.wakeAcquire c kind).mem = s.mem := by
  simp [State.wakeAcquire]

@[simp] theorem openAll_mem (acq : Bool) (ws : List RegWrite) (tol : Option Word) (es : List (Nat × Nat × Page)) :
    (s.openAll acq ws tol es).mem = s.mem := by
  unfold State.openAll
  extract_lets c tok n t u v
  have hv : v.mem = s.mem := foldl_mem (fun t (e, va, p) => bindEye_mem t e va p tok tol) es u
  split
  · rw [beginAcquireOf_mem, hv]
  · exact (foldl_mem (fun t (e, _, _) => sendFill_mem t c.cid e tok) es v).trans hv

/-! Stores and releases. -/

@[simp] theorem storeLine_mem (line : Nat) (bs : List (Nat × Byte)) : (s.storeLine line bs).mem = s.mem := rfl

@[simp] theorem release_mem (k : RelKind) (own : Nat) : (s.release k own).mem = s.mem := rfl

@[simp] theorem putStore_mem (rel : Bool) (m : StoreMsg) : (s.putStore rel m).mem = s.mem := by
  unfold State.putStore
  split
  · rfl
  split
  · rfl
  · simp [State.sendStore]

@[simp] theorem disown_mem (line : Nat) (offs : List Nat) : (s.disown line offs).mem = s.mem := rfl

@[simp] theorem sendAtom_mem (r : AtomReq) : (s.sendAtom r).mem = s.mem := rfl

/-! Locks, regions and what leaves the device. -/

@[simp] theorem givePin_mem (line : Nat) : (s.givePin line).mem = s.mem := by
  unfold State.givePin
  split
  extract_lets set
  split
  · rfl
  split <;> rfl

@[simp] theorem lockLine_mem (ctx line : Nat) : (s.lockLine ctx line).2.mem = s.mem := by
  unfold State.lockLine
  extract_lets x
  split
  split_ifs
  iterate 5 rfl
  exact (State.onCtx_mem ..).trans ((l2Fetch_mem line _).trans (givePin_mem s line))

@[simp] theorem unlockLine_mem (ctx line : Nat) : (s.unlockLine ctx line).mem = s.mem := State.onCtx_mem ..

@[simp] theorem sendOut_mem (dest : Nat) (m : OutMsg) : (s.sendOut dest m).mem = s.mem := rfl

@[simp] theorem onRegion_mem (ctx n : Nat) (f : Region → Region) : (s.onRegion ctx n f).mem = s.mem := State.onCtx_mem ..

@[simp] theorem define_mem (ctx : Nat) (new : Region) : (s.define ctx new).mem = s.mem := by
  unfold State.define
  extract_lets put
  split <;> simp [put]

@[simp] theorem messageLost_mem (c : Nat) : (s.messageLost c).mem = s.mem := by
  unfold State.messageLost
  split <;> simp

@[simp] theorem fromMaster_mem (cl ctx rgn : Nat) (i : Event) (m : Nat → List Nat → OutMsg) : (s.fromMaster cl ctx rgn i m).mem = s.mem := by
  unfold State.fromMaster
  split <;> rfl

@[simp] theorem forceDrains_mem (ctx n : Nat) (cls : List Nat) : (s.forceDrains ctx n cls).mem = s.mem := by
  unfold State.forceDrains
  extract_lets mark
  exact (foldl_mem (fun t cl => fromMaster_mem t cl ctx n _ _) cls _).trans (onRegion_mem ..)

/-! Barriers. -/

@[simp] theorem phaseTest_mem (m i : Nat) : (s.phaseTest m i).mem = s.mem := by
  unfold State.phaseTest
  split
  · rfl
  next x _ =>
    extract_lets b t
    split
    · rfl
    · exact foldl_mem (fun u (c : Cord) => wakeAcquire_mem u c.cid .wakeBarw) _ t

@[simp] theorem countArrival_mem (m i : Nat) : (s.countArrival m i).mem = s.mem := phaseTest_mem ..

/-! Tile forms. -/

@[simp] theorem setMode_mem (a : Nat) (m : TMode) : (s.setMode a m).mem = s.mem := rfl

@[simp] theorem onForm_mem (core q : Nat) (g : TForm → TForm) : (s.onForm core q g).mem = s.mem := State.onCore_mem ..

@[simp] theorem sendFetches_mem (core : Nat) (f : TForm) (halves : List Nat) : (s.sendFetches core f halves).mem = s.mem := by
  refine foldl_mem (fun t h => ?_) halves s
  rfl

@[simp] theorem startFetches_mem (core : Nat) : (s.startFetches core).mem = s.mem := by
  unfold State.startFetches
  extract_lets x held pick
  split
  exact foldl_mem (fun t f => by simp) _ s

@[simp] theorem enqueue_mem (work : TWork) (occ lat : Nat) (ps : List Page) (halves : List Nat) :
    (s.enqueue work occ lat ps halves).mem = s.mem := by
  simp [State.enqueue]

/-! Control registers, phases and collectives. -/

@[simp] theorem csrSet_mem (n : Nat) (v : Word) : (s.csrSet n v).mem = s.mem := by
  unfold State.csrSet
  extract_lets self ctx
  split <;> simp [self, ctx]

@[simp] theorem phaseAdvance_mem (ctx n : Nat) : (s.phaseAdvance ctx n).mem = s.mem := State.onCtx_mem ..

@[simp] theorem endCall_mem (x : CollCall) (st : Nat) : (s.endCall x st).mem = s.mem := by
  unfold State.endCall
  extract_lets t u
  have hu : u.mem = s.mem := by
    simp only [u]
    split <;> rfl
  rw [State.complete_mem, hu]

end Sys2Proof.Machine
end

section
/-! What leaves memory as it is: the runs that forms share. -/

namespace Sys2Proof.Machine

/-- A result that leaves memory m. -/
def Res.Leaves (m : SMap Byte) : Res → Prop
  | .done t | .stall _ t => t.mem = m
  | .trap .. => True

/-- An outcome that, when it goes on, leaves memory m. -/
def Leaves (m : SMap Byte) : Out → Prop
  | .next t => t.mem = m
  | .fault _ | .refused _ => True

@[simp] theorem leaves_next (m : SMap Byte) (t : State) : Leaves m (.next t) ↔ t.mem = m := Iff.rfl

section
variable {m : SMap Byte}

@[simp] theorem leaves_done (t : State) : (Res.done t).Leaves m ↔ t.mem = m := Iff.rfl
@[simp] theorem leaves_stall (b : Blk) (t : State) : (Res.stall b t).Leaves m ↔ t.mem = m := Iff.rfl
@[simp] theorem leaves_trap (k : Cause) (x : Dword) : (Res.trap k x).Leaves m := trivial

end

variable {s : State}

/-! Forms. -/

theorem settle_mem (f : Form) {r : Res} (h : r.Leaves s.mem) : (f.settle s r).mem = s.mem := by
  cases r with
  | done t => exact (issued_mem t f).trans h
  | trap k x => exact raise_mem k x s
  | stall b t => exact h

theorem leaves_checked (f : Form) {r : Res} (h : r.Leaves s.mem) : ((f.check s).getD r).Leaves s.mem := by
  cases hc : f.check s with
  | none => exact h
  | some q => obtain ⟨k, x, rfl⟩ | rfl := check_stops hc <;> simp

theorem leaves_runForm {f : Form} {body : State → Res} (h : (body s).Leaves s.mem) : Leaves s.mem (runForm f s body) :=
  (leaves_next _ _).2 (settle_mem f (leaves_checked f h))

theorem leaves_runDiv (w : Bool) (g : Bin) (d : Wr) (a : Rd) (b : Src) : Leaves s.mem (runDiv w g d a b s) := by
  refine leaves_runForm ?_
  extract_lets c t
  split
  · rfl
  · simp [t]

/-- What becomes of a form of the special function unit. -/
theorem leaves_sfuResult (every result : Nat) (e : Event) : Res.Leaves s.mem (
    if s.cycle < SMap.get 0 (s.coreOf s.cord.core).sfuFree s.cord.slot then .stall {} s
    else .done ((s.onCore s.cord.core fun x => { x with sfuFree := SMap.set 0 x.sfuFree s.cord.slot (s.cycle + every) }).after result e)) := by
  split
  · rfl
  · simp

theorem leaves_runCsr (g : Word → Word → Word) (a : Rd) (lit : Word) : Leaves s.mem (runCsr g a lit s) := by
  unfold runCsr
  refine leaves_runForm ?_
  split <;> simp

theorem leaves_transfer (t : Transfer) : (transfer t s).Leaves s.mem := by
  unfold transfer
  split
  · trivial
  extract_lets bad
  cases bad with
  | some x => trivial
  | none => rfl

/-! Bodies that translate addresses. -/

theorem leaves_withNeeds {m : SMap Byte} {k : List Page → State → Res} (vns : List (Nat × Need)) (hs : s.mem = m)
    (h : ∀ ps t, t.mem = m → (k ps t).Leaves m) : (withNeeds vns s k).Leaves m := by
  have hx : (∃ t, s.xlate vns = .walk t ∧ t.mem = m) ∨ (∃ c va, s.xlate vns = .fault c va) ∨
      ∃ t ps, s.xlate vns = .ok t ps ∧ t.mem = m := by
    unfold State.xlate
    extract_lets c missed got
    split
    · exact .inl ⟨_, rfl, by simp [hs]⟩
    split
    · exact .inr (.inl ⟨_, _, rfl⟩)
    · exact .inr (.inr ⟨_, _, rfl, by split <;> simp [hs]⟩)
  unfold withNeeds
  obtain ⟨t, hx, ht⟩ | ⟨c, va, hx⟩ | ⟨t, ps, hx, ht⟩ := hx <;> rw [hx]
  · exact ht
  · trivial
  · exact h ps t ht

theorem leaves_withPages {m : SMap Byte} {k : List Page → State → Res} (vas : List Nat) (n : Need) (hs : s.mem = m)
    (h : ∀ ps t, t.mem = m → (k ps t).Leaves m) : (withPages vas n s k).Leaves m :=
  leaves_withNeeds _ hs h

theorem leaves_runOpen (acq : Bool) (tol : Option Word) (d : Eye) (a b : Rd) : Leaves s.mem (runOpen acq tol d a b s) := by
  refine leaves_runForm ?_
  extract_lets xs x
  split
  · trivial
  split
  · simp
  · exact leaves_withPages _ _ rfl fun ps t ht => by simp [ht]

theorem leaves_runRange (n : Need) (drop : Bool) (a b : Rd) (lit : Word) {k : List (Nat × Nat) → State → State}
    (h : ∀ runs t, (k runs t).mem = t.mem) : Leaves s.mem (runRange n drop a b lit s k) := by
  refine leaves_runForm ?_
  split
  extract_lets starts
  refine leaves_withPages _ _ rfl fun ps t ht => ?_
  extract_lets runs meets
  split
  · trivial
  split
  · simp [ht]
  · simp [h, ht]

/-! Bodies that go through eyelets. -/

theorem leaves_checkLanes {m : SMap Byte} {k : State → Res} (as : List Access) (z : Nat) (store : Bool) (hs : s.mem = m)
    (h : (k s).Leaves m) : (s.checkLanes as z store k).Leaves m := by
  unfold State.checkLanes
  extract_lets c
  split
  · trivial
  split
  · exact hs
  split
  · trivial
  split
  · trivial
  · exact h

theorem leaves_checkSel {m : SMap Byte} {k : List Access → Res} (a : Vec) (lanes : List Nat) (off : Nat → Nat)
    (h : ∀ as, (k as).Leaves m) : (s.checkSel a lanes off k).Leaves m := by
  unfold State.checkSel
  extract_lets sel
  split
  · trivial
  · exact h _

theorem leaves_load (z : LdSize) (d : Wr) (as : List Access) : (s.load z d as).Leaves s.mem :=
  leaves_checkLanes _ _ _ rfl (by simp)

theorem leaves_loadAcq (z : LdSize) (d : Wr) (e : Eye) (as : List Access) : (s.loadAcq z d e as).Leaves s.mem :=
  leaves_checkLanes _ _ _ rfl (by simp)

theorem leaves_store (rel : Bool) (z : StSize) (d : Rd) (as : List Access) : (s.store rel z d as).Leaves s.mem := by
  refine leaves_checkLanes _ _ _ rfl ?_
  extract_lets c es lines n t
  have ht : t.mem = s.mem := foldl_mem (fun u line => storeLine_mem u line _) lines s
  split
  · rfl
  · exact (foldl_mem (fun u e => putStore_mem u rel _) es t).trans ht

theorem leaves_runAtom (kind : Nat) (d : Option Wr) (e : Eye) (b : Rd) (lit : Word) : Leaves s.mem (runAtom kind d e b lit s) := by
  unfold runAtom
  refine leaves_runForm (leaves_checkLanes _ _ _ rfl ?_)
  extract_lets c y wide cmp lanes r t
  have ht : t.mem = s.mem := by simp only [t]; split <;> simp
  split
  · trivial
  split
  · rfl
  split
  · simp [ht]
  split
  · simp [ht]
  · simp [ht]

/-! Bodies of the pillow, of barriers and of tile forms. -/

theorem leaves_runPillow {f : Form} {align : Bool} {z : Nat} {off : Cord → Nat → Nat} {k : List (Nat × Nat) → State → Res}
    (h : ∀ los, (k los s).Leaves s.mem) : Leaves s.mem (runPillow f align z off s k) := by
  refine leaves_runForm ?_
  extract_lets los
  split
  · trivial
  · exact h los

theorem leaves_runWaitFull (take : Bool) (z : PilSize) (d : Wr) (a : Rd) (n : Imm) : Leaves s.mem (runWaitFull take z d a n s) := by
  unfold runWaitFull
  exact leaves_runPillow fun _ => rfl

theorem leaves_runFull (v : Bool) (a : Rd) (n : Imm) : Leaves s.mem (runFull v a n s) := by
  refine leaves_runForm ?_
  extract_lets c os
  split
  · trivial
  · rfl

theorem leaves_arrive {k : State → Res} (i n : Nat) (h : ∀ t, t.mem = s.mem → (k t).Leaves s.mem) : (s.arrive i n k).Leaves s.mem := by
  unfold State.arrive
  extract_lets b
  split
  · trivial
  · rfl
  · exact h _ rfl

theorem leaves_notify (d : Rd) : (s.notify d).Leaves s.mem := by
  unfold State.notify
  extract_lets c v t2 t0 p seqs publish n t
  split
  · trivial
  split
  · trivial
  · rfl

theorem leaves_also {m : SMap Byte} {g : State → State} {r : Res} (hg : ∀ t, (g t).mem = t.mem) (h : r.Leaves m) : (r.also g).Leaves m := by
  cases r with
  | done t => exact (hg t).trans h
  | trap | stall => exact h

theorem leaves_queueForm (work : TWork) (occ lat : Nat) : (s.queueForm work occ lat).Leaves s.mem := by
  unfold State.queueForm
  split <;> simp

theorem leaves_queueFetch (work : TWork) (occ lat : Nat) (rs : List (Nat × Nat)) : (s.queueFetch work occ lat rs).Leaves s.mem := by
  unfold State.queueFetch
  split
  · rfl
  · exact leaves_withPages _ _ rfl fun ps t ht => by simp [ht]

theorem leaves_runAcc (vs : List (Nat × Nat)) (as : List Nat) {k : State → Res} (h : (k s).Leaves s.mem) : Leaves s.mem (runAcc vs as s k) := by
  refine leaves_runForm ?_
  split
  · trivial
  · exact h

theorem leaves_runSparse (tr : Bool) (d : Acc) (a b : Td) (lit : Word) : Leaves s.mem (runSparse tr d a b lit s) := by
  refine leaves_runAcc _ _ ?_
  extract_lets c x y cols mode reg groups regs
  split_ifs
  iterate 6 trivial
  split
  · trivial
  · exact leaves_also (fun t => setMode_mem t _ _) (leaves_queueFetch ..)

/-! Collectives. -/

theorem leaves_runColl {f : Form} (x : CollCall) {body : State → Res} (h : (body s).Leaves s.mem) : Leaves s.mem (runColl f x s body) := by
  have hs := settle_mem f (leaves_checked f h)
  rw [runColl, leaves_next]
  cases hr : (f.check s).getD (body s) with
  | done u =>
    rw [hr] at hs
    dsimp only
    split
    · exact hs
    · exact (endCall_mem _ x 1).trans hs
  | trap | stall => rw [hr] at hs; exact hs

end Sys2Proof.Machine
end

section
/-! The instructions that leave memory as they issue, in the order of the manual's groups. -/

namespace Sys2Proof.Machine

open Claims

variable {s : State}

/-! Control and the register window. -/

theorem leaves_execMeet (lit : Word) : Leaves s.mem (execMeet lit s) := by
  refine leaves_runForm ?_
  split
  · trivial
  · rfl

theorem leaves_execJoin (k : Msk) : Leaves s.mem (execJoin k s) := by
  refine leaves_runForm ?_
  exact State.onSelf_mem ..

theorem leaves_execLeave (k : Msk) : Leaves s.mem (execLeave k s) := by
  refine leaves_runForm ?_
  exact State.onSelf_mem ..

theorem leaves_execCall (d : Wr) (lit : Word) : Leaves s.mem (execCall d lit s) := by
  refine leaves_runForm ?_
  have h := leaves_transfer (s := s.write .i4 (s.cord.writes64 d fun _ => s.cord.cl.ft))
    (branch s.cord (fun _ => true) fun _ => litTarget s.cord lit)
  rwa [write_mem] at h

theorem leaves_execWinb (n : Imm) : Leaves s.mem (execWinb n s) := by
  refine leaves_runForm ?_
  split
  · trivial
  · rfl

theorem leaves_execXacq (n : Imm) : Leaves s.mem (execXacq n s) := by
  refine leaves_runForm ?_
  extract_lets c k asked
  split
  · trivial
  split
  · rfl
  · rw [leaves_stall]
    split <;> simp

theorem leaves_execXrel (n : Imm) : Leaves s.mem (execXrel n s) := by
  refine leaves_runForm ?_
  extract_lets c k t
  split
  · trivial
  · simp [t]

theorem leaves_execRte : Leaves s.mem (execRte s) := by
  refine leaves_runForm ?_
  split
  · trivial
  · exact leaves_transfer _

theorem leaves_execBrkpt (n : Imm) : Leaves s.mem (execBrkpt n s) := by
  refine leaves_runForm ?_
  split
  · rfl
  · trivial

theorem leaves_execCsrr (d : Wr) (lit : Word) : Leaves s.mem (execCsrr d lit s) := by
  unfold execCsrr
  refine leaves_runForm ?_
  split
  · trivial
  · extract_lets t
    rw [leaves_done]
    split <;> simp [t]

theorem leaves_execCsrw (a : Rd) (lit : Word) : Leaves s.mem (execCsrw a lit s) := leaves_runCsr ..
theorem leaves_execCsrs (a : Rd) (lit : Word) : Leaves s.mem (execCsrs a lit s) := leaves_runCsr ..
theorem leaves_execCsrc (a : Rd) (lit : Word) : Leaves s.mem (execCsrc a lit s) := leaves_runCsr ..

/-! The chain and eyelets. -/

theorem leaves_execChain (a : Rd) (lit : Word) : Leaves s.mem (execChain a lit s) := by
  refine leaves_runForm ?_
  extract_lets c o word ws stream uses1 job t
  split
  · rfl
  split
  · trivial
  · rfl

theorem leaves_execOpenf (d a : Vec) (b : Rd) (lit : Word) : Leaves s.mem (execOpenf d a b lit s) := by
  refine leaves_runForm ?_
  extract_lets c lanes xs lines first n served
  split
  · rfl
  · exact leaves_withPages _ _ rfl fun ps t ht => by simp [ht]

theorem leaves_execOpenv (d : Eye) (a b : Rd) : Leaves s.mem (execOpenv d a b s) := by
  refine leaves_runForm ?_
  extract_lets c xs x n vas
  split
  · trivial
  split
  · trivial
  split
  · rfl
  refine leaves_withPages _ _ rfl fun ps t ht => ?_
  extract_lets tok u v w
  have hw : w.mem = v.mem := foldl_mem (fun z ((va, p), i) => bindEye_mem z (d.val + i) va p tok none) _ v
  exact (beginAcquire_mem w _ _).trans (hw.trans ht)

theorem leaves_execClose (e : Eye) : Leaves s.mem (execClose e s) := leaves_runForm (closeEye_mem ..)

theorem leaves_execErfr (e : Eye) : Leaves s.mem (execErfr e s) := by
  refine leaves_runForm ?_
  extract_lets c y tok t u
  split
  · trivial
  · rfl
  split
  · rfl
  · rfl

theorem leaves_execTstv (d : Wr) (e : Eye) : Leaves s.mem (execTstv d e s) := by
  refine leaves_runForm ?_
  extract_lets y
  split
  · trivial
  · simp

/-! Locks, prefetches and waits. -/

theorem leaves_execLock (d : Wr) (a b : Rd) : Leaves s.mem (execLock d a b s) := by
  refine leaves_runForm ?_
  extract_lets c lanes vas step
  refine leaves_withPages _ _ rfl fun ps t ht => ?_
  split
  next ws u hu =>
    have hf := foldl_snd_mem (f := step) (fun r (l, va, p) => lockLine_mem r.2 _ _) (lanes.zip (vas.zip ps)) ([], t)
    rw [hu] at hf
    exact hf.trans ht

theorem leaves_execUnlk (a b : Rd) : Leaves s.mem (execUnlk a b s) := by
  refine leaves_runForm ?_
  extract_lets c vas
  refine leaves_withPages _ _ rfl fun ps t ht => ?_
  exact (foldl_mem (fun u (va, p) => unlockLine_mem u _ _) (vas.zip ps) t).trans ht

theorem leaves_execPrefl (a b : Rd) : Leaves s.mem (execPrefl a b s) := by
  refine leaves_runForm ?_
  extract_lets c vas missed good t
  have ht : t.mem = s.mem := by
    simp only [t]
    split <;> simp
  split
  · simp
  · refine (foldl_mem (fun u line => ?_) _ t).trans ht
    rfl

theorem leaves_execWaitcLd (n : Imm) : Leaves s.mem (execWaitcLd n s) := by
  refine leaves_runForm ?_
  split <;> rfl

theorem leaves_execWaitcSt (n : Imm) : Leaves s.mem (execWaitcSt n s) := by
  refine leaves_runForm ?_
  split <;> rfl

theorem leaves_execAtom (d : Wr) (e : Eye) (b : Rd) (lit : Word) : Leaves s.mem (execAtom d e b lit s) := leaves_runAtom ..
theorem leaves_execAtomcas (d : Wr) (e : Eye) (b : Rd) (lit : Word) : Leaves s.mem (execAtomcas d e b lit s) := leaves_runAtom ..
theorem leaves_execAtomred (e : Eye) (b : Rd) (lit : Word) : Leaves s.mem (execAtomred e b lit s) := leaves_runAtom ..

theorem leaves_execSealBatch (d : Wr) : Leaves s.mem (execSealBatch d s) := by
  refine leaves_runForm ?_
  extract_lets c t
  split
  · rfl
  · simp [t]

theorem leaves_execWaitb (a : Rd) : Leaves s.mem (execWaitb a s) := by
  refine leaves_runForm ?_
  extract_lets c n tok t u
  split
  · trivial
  split
  · rfl
  · exact beginAcquire_mem u _ _

theorem leaves_execFlushr (a b : Rd) (lit : Word) : Leaves s.mem (execFlushr a b lit s) := by
  unfold execFlushr
  refine leaves_runRange _ _ _ _ _ fun runs t => ?_
  exact State.afterPaths_mem ..

theorem leaves_execDisc (a b : Rd) (lit : Word) : Leaves s.mem (execDisc a b lit s) := by
  unfold execDisc
  refine leaves_runRange _ _ _ _ _ fun runs t => ?_
  exact State.afterPaths_mem ..

/-! Shared regions. -/

theorem leaves_execBsdef (d : Wr) (a b : Rd) (lit : Word) : Leaves s.mem (execBsdef d a b lit s) := by
  refine leaves_runForm ?_
  extract_lets c l base bnd dtol n okBnd okTol k
  split
  · trivial
  refine leaves_withPages _ _ rfl fun ps t ht => ?_
  extract_lets phys new st answer
  split
  · simp [answer, ht]
  split
  · simp [answer, ht]
  split
  · simp [answer, ht]
  · exact ht

theorem leaves_execBsfree (a : Rd) : Leaves s.mem (execBsfree a s) := by
  refine leaves_runForm ?_
  extract_lets c x k
  split
  · trivial
  · extract_lets t
    have ht : t.mem = s.mem := by
      simp only [t]
      split
      · exact onRegion_mem ..
      · exact (forceDrains_mem ..).trans (onRegion_mem ..)
    exact ht

theorem leaves_execBsdrn (a : Rd) : Leaves s.mem (execBsdrn a s) := by
  refine leaves_runForm ?_
  extract_lets c x k named named' tok t cl
  split
  · trivial
  split
  · trivial
  · exact foldl_mem (fun u n => State.afterPath_mem ..) _ t

theorem leaves_execBsqry (d : Wr) (a : Rd) (lit : Word) : Leaves s.mem (execBsqry d a lit s) := by
  refine leaves_runForm ?_
  extract_lets c x k
  split
  · trivial
  split
  · trivial
  split
  · split <;> simp
  · rfl

theorem leaves_execVads (d : Rd) (e : Eye) (b : Rd) : Leaves s.mem (execVads d e b s) := by
  refine leaves_runForm ?_
  extract_lets as
  refine leaves_checkLanes _ _ _ rfl ?_
  extract_lets c y
  split
  · trivial
  split
  · rfl
  · exact foldl_mem (fun t a => State.afterPath_mem ..) as _

/-! The pillow, barriers and rings. -/

theorem leaves_execLdp (z : PilSize) (d : Wr) (a : Rd) (n : Imm) : Leaves s.mem (execLdp z d a n s) := by
  unfold execLdp
  exact leaves_runPillow fun _ => rfl

theorem leaves_execStp (z : PilSize) (d a : Rd) (n : Imm) : Leaves s.mem (execStp z d a n s) := by
  unfold execStp
  refine leaves_runForm ?_
  extract_lets c os word
  split
  · exact leaves_notify d
  split
  · trivial
  · rfl

theorem leaves_execFeqry (d : Wr) (a : Rd) (n : Imm) : Leaves s.mem (execFeqry d a n s) := leaves_runPillow fun _ => rfl

theorem leaves_execBara (b : Sys2Proof.Bar) (n : Imm) : Leaves s.mem (execBara b n s) :=
  leaves_runForm (leaves_arrive _ _ fun _ ht => ht)

theorem leaves_execBarw (b : Sys2Proof.Bar) (n : Imm) : Leaves s.mem (execBarw b n s) :=
  leaves_runForm (leaves_arrive _ _ fun _ ht => ht)

theorem leaves_execBarx (b : Sys2Proof.Bar) : Leaves s.mem (execBarx b s) := by
  refine leaves_runForm ?_
  extract_lets x
  split
  · trivial
  · exact leaves_arrive _ _ fun t ht => (countArrival_mem t _ _).trans ht

theorem leaves_execSracq (d : Wr) (q : Ring) : Leaves s.mem (execSracq d q s) := by
  refine leaves_runForm ?_
  extract_lets r h r' v
  split
  · trivial
  split
  · rfl
  · simp

theorem leaves_execSrpub (q : Ring) (b : Rd) : Leaves s.mem (execSrpub q b s) := by
  refine leaves_runForm ?_
  extract_lets r
  split
  split
  · trivial
  · rfl

theorem leaves_execSrwait (q : Ring) (b : Rd) : Leaves s.mem (execSrwait q b s) := by
  refine leaves_runForm ?_
  extract_lets r
  split
  split
  · trivial
  split
  · simp
  · rfl

theorem leaves_execSrfree (q : Ring) (b : Rd) : Leaves s.mem (execSrfree q b s) := by
  refine leaves_runForm ?_
  extract_lets r
  split
  split
  · trivial
  split
  · rfl
  · rfl

theorem leaves_execSrqry (d : Wr) (q : Ring) : Leaves s.mem (execSrqry d q s) := by
  refine leaves_runForm ?_
  extract_lets r
  split
  · trivial
  · simp

theorem leaves_execPeerarr (k : Sys2Proof.Bar) (b : Rd) (lit : Word) : Leaves s.mem (execPeerarr k b lit s) := by
  refine leaves_runForm ?_
  extract_lets idx n
  split
  · trivial
  split
  · trivial
  · rfl
  split
  · rfl
  · rfl

/-! Tile forms. -/

theorem leaves_execTdmod (d : Td) (a : Rd) (n : Imm) : Leaves s.mem (execTdmod d a n s) := by
  refine leaves_runForm ?_
  split
  · trivial
  · simp

theorem leaves_execAzero (d : Acc) : Leaves s.mem (execAzero d s) :=
  leaves_runAcc _ _ (leaves_also (fun t => setMode_mem t _ _) (leaves_queueForm ..))

theorem leaves_execAcvt (d : Acc) (n : Imm) : Leaves s.mem (execAcvt d n s) :=
  leaves_runAcc _ _ (leaves_also (fun t => setMode_mem t _ _) (leaves_queueForm ..))

theorem leaves_execAprom (d : Acc) : Leaves s.mem (execAprom d s) := leaves_runAcc _ _ (leaves_queueForm ..)

theorem leaves_execAld (d : Acc) (a : Vec) (n : Imm) : Leaves s.mem (execAld d a n s) := by
  refine leaves_runAcc _ _ ?_
  extract_lets view p c
  split
  · trivial
  split
  · trivial
  split
  · exact leaves_queueForm ..
  · exact leaves_also (fun t => setMode_mem t _ _) (leaves_queueForm ..)

theorem leaves_execAst (d : Vec) (a : Acc) (n : Imm) : Leaves s.mem (execAst d a n s) := by
  refine leaves_runAcc _ _ ?_
  extract_lets view p c
  split
  · trivial
  split
  · trivial
  · exact leaves_queueForm ..

theorem leaves_execMma (d : Acc) (a b : Td) : Leaves s.mem (execMma d a b s) := by
  refine leaves_runAcc _ _ ?_
  extract_lets c x y occ
  split_ifs
  iterate 4 trivial
  all_goals exact leaves_also (fun t => setMode_mem t _ _) (leaves_queueFetch ..)

theorem leaves_execMmaAcc (d a : Acc) (b : Td) : Leaves s.mem (execMmaAcc d a b s) := by
  refine leaves_runAcc _ _ ?_
  extract_lets c y k occ
  split_ifs
  iterate 5 trivial
  all_goals exact leaves_also (fun t => setMode_mem t _ _) (leaves_queueFetch ..)

theorem leaves_execAmaxu (d : Acc) : Leaves s.mem (execAmaxu d s) := by
  refine leaves_runAcc _ _ ?_
  split
  · trivial
  · exact leaves_queueForm ..

theorem leaves_execArsc (d a : Acc) : Leaves s.mem (execArsc d a s) := by
  refine leaves_runAcc _ _ ?_
  split
  · trivial
  split
  · trivial
  · exact leaves_queueForm ..

theorem leaves_execAdrn (a : Acc) (b : Td) (lit : Word) : Leaves s.mem (execAdrn a b lit s) := by
  refine leaves_runForm ?_
  extract_lets c y rs ver scales
  split
  · trivial
  split
  · trivial
  split
  · trivial
  split
  · rfl
  refine leaves_withNeeds _ rfl fun ps t ht => ?_
  extract_lets tok u v q kind w
  split
  · trivial
  · rw [leaves_done, onForm_mem, enqueue_mem]
    exact ht

/-! Launches, posts and what else the host sees. -/

theorem leaves_execLaunch (d : Wr) (a b : Rd) : Leaves s.mem (execLaunch d a b s) := by
  unfold execLaunch
  extract_lets f c x q dst early body r t
  have hb : (body s).Leaves s.mem := by
    simp only [body]
    split
    · rfl
    refine leaves_withPages _ _ rfl fun ps t ht => ?_
    split <;> exact ht
  have ht : t.mem = s.mem := settle_mem f (leaves_checked f hb)
  clear_value t r early
  rw [leaves_next]
  split
  · exact ht
  · exact ht

theorem leaves_execPost (a : Rd) (n : Imm) : Leaves s.mem (execPost a n s) := by
  refine leaves_runForm ?_
  extract_lets c
  split
  · trivial
  split
  · rfl
  · rfl

theorem leaves_execDtld : Leaves s.mem (execDtld s) := by
  refine leaves_runForm ?_
  extract_lets c base
  split
  · rfl
  · exact leaves_withPages _ _ rfl fun ps t ht => ht

/-- The stages of a tlbi only note things (`extends_tlbiDone`). -/
theorem leaves_exec_tlbi (a b : Rd) : Leaves s.mem (exec (.tlbi a b) s) := by
  rw [exec_tlbi_eq]
  refine leaves_runForm ?_
  unfold tlbiBody
  split
  · trivial
  · exact (extends_tlbiDone _ s).mem

/-! Collectives and remote signals. -/

theorem leaves_execAred (d : Wr) (a b : Rd) (lit : Word) : Leaves s.mem (execAred d a b lit s) := by
  unfold execAred
  refine leaves_runColl _ ?_
  split
  · trivial
  · rw [leaves_done]
    split <;> rfl

theorem leaves_execAcol (a b : Rd) (lit : Word) : Leaves s.mem (execAcol a b lit s) := by
  unfold execAcol
  refine leaves_runColl _ ?_
  split
  · trivial
  extract_lets x g
  split
  · trivial
  split
  refine leaves_withNeeds _ rfl fun ps t ht => ?_
  rw [leaves_done]
  split <;> exact ht

theorem leaves_execRsig (a b : Rd) (lit : Word) : Leaves s.mem (execRsig a b lit s) := by
  refine leaves_runForm ?_
  extract_lets c
  split
  · trivial
  · rfl

/-! All instructions. -/

/-- The outcome of a form whose own result leaves memory. -/
theorem leaves_of_form {f : Form} {r : Res} {o : Out} (ho : o = .next (f.settle s ((f.check s).getD r))) (h : r.Leaves s.mem) :
    Leaves s.mem o := by
  rw [ho, leaves_next]
  exact settle_mem f (leaves_checked f h)

/-- Each instruction, those that share a run together; the events have no form. -/
theorem leaves_exec {i : Instr} {f : Form} (hf : formOf i = some f) : Leaves s.mem (exec i s) := by
  cases i with
  | kset | kmov | kand | kor | kxor | knot | elect | kpop | mad | bfx | bfi | prmt | sel | cmp | cmpv | movl | lea | fneg | fabs | fcmp
  | fclass | frnd | dcmp | shfl | shfld | vote | redu | scan | fpcr | cvt | cvtsc | pack | unpk | scfind | tclass | eqry | tdset | cmpr | mtchk
  | add | sub | mul | mulh | min | max | minu | maxu | and | or | xor | andn | addc | neg | abs | not | popc | clz | ctz | brev | mov
  | shl | shr | sar | rot | shlImm | shrImm | sarImm | rotImm
  | addImm | subImm | mulImm | minImm | maxImm | minuImm | maxuImm | andImm | orImm | xorImm
  | fadd | fsub | fmul | ffma | fmin | fmax | dadd | dsub | dmul | dfma | dmin | dmax | hadd2 | hmul2 | hfma2
  | barq | tdq | bobq =>
    cases hf
    refine leaves_of_form rfl ?_
    exact write_mem ..
  | divu | divs | remu | rems => exact leaves_runDiv ..
  | fdiv | ddiv | dsqrt | frcp | frsq | fsqrt | fexp2 | flog2 | fsin | fcos | ftanh =>
    cases hf
    refine leaves_of_form rfl ?_
    exact leaves_sfuResult ..
  | fpcw | fpcs | fpcc =>
    cases hf
    refine leaves_of_form rfl ?_
    trivial
  | csrr => exact leaves_execCsrr ..
  | csrw => exact leaves_execCsrw ..
  | csrs => exact leaves_execCsrs ..
  | csrc => exact leaves_execCsrc ..
  | nop | idend | trap | halt =>
    cases hf
    refine leaves_of_form rfl ?_
    trivial
  | join => exact leaves_execJoin ..
  | leave => exact leaves_execLeave ..
  | bra | brk | brz | brnz | jmp | ret | waitk | exit | yield | sleep =>
    cases hf
    refine leaves_of_form rfl ?_
    exact leaves_transfer _
  | call => exact leaves_execCall ..
  | meet => exact leaves_execMeet ..
  | winb => exact leaves_execWinb ..
  | xacq => exact leaves_execXacq ..
  | xrel => exact leaves_execXrel ..
  | rte => exact leaves_execRte
  | brkpt => exact leaves_execBrkpt ..
  | chain => exact leaves_execChain ..
  | openLine | openAcq | opent => exact leaves_runOpen ..
  | openf => exact leaves_execOpenf ..
  | openv => exact leaves_execOpenv ..
  | close => exact leaves_execClose ..
  | erfr => exact leaves_execErfr ..
  | tstv => exact leaves_execTstv ..
  | ldl | ldlReg =>
    cases hf
    refine leaves_of_form rfl ?_
    exact leaves_load ..
  | ldlAcq | ldlAcqReg =>
    cases hf
    refine leaves_of_form rfl ?_
    exact leaves_loadAcq ..
  | ldlx | ldlxReg =>
    cases hf
    refine leaves_of_form rfl ?_
    exact leaves_checkSel _ _ _ fun as => leaves_load ..
  | stl | stlReg | stlRel | stlRelReg =>
    cases hf
    refine leaves_of_form rfl ?_
    exact leaves_store ..
  | stlx | stlxReg =>
    cases hf
    refine leaves_of_form rfl ?_
    exact leaves_checkSel _ _ _ fun as => leaves_store ..
  | lock => exact leaves_execLock ..
  | unlk => exact leaves_execUnlk ..
  | prefl => exact leaves_execPrefl ..
  | waitcLd => exact leaves_execWaitcLd ..
  | waitcSt => exact leaves_execWaitcSt ..
  | atom => exact leaves_execAtom ..
  | atomcas => exact leaves_execAtomcas ..
  | atomred => exact leaves_execAtomred ..
  | sealBatch => exact leaves_execSealBatch ..
  | waitb => exact leaves_execWaitb ..
  | flushr => exact leaves_execFlushr ..
  | disc => exact leaves_execDisc ..
  | bsdef => exact leaves_execBsdef ..
  | bsfree => exact leaves_execBsfree ..
  | bsdrn => exact leaves_execBsdrn ..
  | bsqry => exact leaves_execBsqry ..
  | vads => exact leaves_execVads ..
  | ldp => exact leaves_execLdp ..
  | ldpWfTake | ldpWfPeek => exact leaves_runWaitFull ..
  | stp => exact leaves_execStp ..
  | feset | feclr => exact leaves_runFull ..
  | feqry => exact leaves_execFeqry ..
  | bara => exact leaves_execBara ..
  | barw => exact leaves_execBarw ..
  | barx => exact leaves_execBarx ..
  | sracq => exact leaves_execSracq ..
  | srpub => exact leaves_execSrpub ..
  | srwait => exact leaves_execSrwait ..
  | srfree => exact leaves_execSrfree ..
  | srqry => exact leaves_execSrqry ..
  | peerarr => exact leaves_execPeerarr ..
  | tdmod => exact leaves_execTdmod ..
  | azero => exact leaves_execAzero ..
  | acvt => exact leaves_execAcvt ..
  | aprom => exact leaves_execAprom ..
  | ald => exact leaves_execAld ..
  | ast => exact leaves_execAst ..
  | mma => exact leaves_execMma ..
  | mmaAcc => exact leaves_execMmaAcc ..
  | mmas | mmast => exact leaves_runSparse ..
  | amaxu => exact leaves_execAmaxu ..
  | arsc => exact leaves_execArsc ..
  | adrn => exact leaves_execAdrn ..
  | launch => exact leaves_execLaunch ..
  | post => exact leaves_execPost ..
  | phadv =>
    cases hf
    refine leaves_of_form rfl ?_
    exact phaseAdvance_mem ..
  | dtld => exact leaves_execDtld
  | tlbi => exact leaves_exec_tlbi ..
  | ared => exact leaves_execAred ..
  | acol => exact leaves_execAcol ..
  | rsig => exact leaves_execRsig ..
  | _ => cases hf

end Sys2Proof.Machine

namespace Sys2Proof

open Machine

/-- Settles O58: `leaves_exec`, instruction by instruction. -/
theorem noInstructionChangesMemoryAtIssue : Obligations.NoInstructionChangesMemoryAtIssue := by
  unfold Obligations.NoInstructionChangesMemoryAtIssue
  intro i s t hi he a
  unfold State.byte
  rw [← isSome_formOf, Option.isSome_iff_exists] at hi
  obtain ⟨f, hf⟩ := hi
  have hm := leaves_exec (s := s) hf
  rw [he, leaves_next] at hm
  rw [hm]

end Sys2Proof
end

section
/-! Integer and address arithmetic (R104, R110 to R118): the writes of each run that the integer forms share, in the arithmetic of the
spec. -/

namespace Sys2Proof.Machine

open Claims

/-! Forms of either width that compute registers from registers (R104). -/

section
variable {i : Instr} {f : Form} {w : Bool} {d : Wr} {a : Rd} {b : Src} {n : Imm} {lat : Lat}

theorem computes_of_eq {g g' : Cord → List RegWrite} (he : ∀ s, exec i s = runRegs f s g) (hg : ∀ c, g c = g' c) :
    Computes i f f.lat.hold g' := funext hg ▸ computes_of_runRegs he

theorem computes_result {x x' : Cord → Nat → Word} {y y' : Cord → Nat → Dword} (he : ∀ s, exec i s = runRegs f s (result w d x y))
    (hx : ∀ c l, x c l = x' c l) (hy : ∀ c l, y c l = y' c l) : Computes i f f.lat.hold (result w d x' y') := by
  obtain rfl : x = x' := funext₂ hx
  obtain rfl : y = y' := funext₂ hy
  exact computes_of_runRegs he

/-- The writes of a two-operand function, which only widths above 0 matter to. -/
theorem binWrites_eq_result {g g' : Bin} (hg : ∀ n, 0 < n → ∀ x y, g n x y = g' n x y) (c : Cord) :
    binWrites w g d a b c = result w d (fun c l => g' 32 (c.rd a l) (c.src b l)) (fun c l => g' 64 (c.rd64 a l) (c.src64 b l)) c := by
  simp only [binWrites, result, hg 32 (by decide), hg 64 (by decide)]

theorem computes_of_runBin {g g' : Bin} (he : ∀ s, exec i s = runBin lat w g d a b s) (hg : ∀ n x y, g n x y = g' n x y) :
    Computes i (binForm lat w d a b) lat.hold
      (result w d (fun c l => g' 32 (c.rd a l) (c.src b l)) fun c l => g' 64 (c.rd64 a l) (c.src64 b l)) :=
  computes_of_eq he (binWrites_eq_result fun n _ => hg n)

theorem computes_of_runImm {g g' : Bin} (he : ∀ s, exec i s = runImm lat w g d a n s) (hg : ∀ n x y, g n x y = g' n x y) :
    Computes i { lat := lat, vecs := wrVecs d (span w) ++ rdVecs a (span w) } lat.hold
      (result w d (fun c l => g' 32 (c.rd a l) (n.setWidth 32)) fun c l => g' 64 (c.rd64 a l) (n.setWidth 64)) :=
  computes_result he (fun _ _ => hg 32 _ _) fun _ _ => hg 64 _ _

theorem computes_of_runUna {g g' : Una} (he : ∀ s, exec i s = runUna w g d a s) (hg : ∀ n x, g n x = g' n x) :
    Computes i { lat := .i4, vecs := wrVecs d (span w) ++ rdVecs a (span w) } 4
      (result w d (fun c l => g' 32 (c.rd a l)) fun c l => g' 64 (c.rd64 a l)) :=
  computes_result he (fun _ _ => hg 32 _) fun _ _ => hg 64 _

/-- The count of a shift is B[7:0] (R112). -/
theorem computes_of_runShift {g g' : Shift} (he : ∀ s, exec i s = runShift w g d a b s)
    (hg : ∀ n, 0 < n → ∀ x k, g n x k = g' n x k) :
    Computes i { lat := .i4, vecs := wrVecs d (span w) ++ rdVecs a (span w) ++ srcVecs b 1 } 4
      (result w d (fun c l => g' 32 (c.rd a l) ((c.src b l).toNat % 256)) fun c l => g' 64 (c.rd64 a l) ((c.src b l).toNat % 256)) :=
  computes_result he (fun _ _ => hg 32 (by decide) _ _) fun _ _ => hg 64 (by decide) _ _

theorem computes_of_runShiftImm {g g' : Shift} (he : ∀ s, exec i s = runShiftImm w g d a n s)
    (hg : ∀ n, 0 < n → ∀ x k, g n x k = g' n x k) :
    Computes i { lat := .i4, vecs := wrVecs d (span w) ++ rdVecs a (span w) } 4
      (result w d (fun c l => g' 32 (c.rd a l) n.toNat) fun c l => g' 64 (c.rd64 a l) n.toNat) :=
  computes_result he (fun _ _ => hg 32 (by decide) _ _) fun _ _ => hg 64 (by decide) _ _

end

/-- The multiplications are D10 in their `.64` forms (R108). -/
theorem hold_lat64 (w : Bool) : (lat64 w).hold = if w then 10 else 4 := by cases w <;> rfl

end Sys2Proof.Machine

namespace Sys2Proof

open Machine Claims

/-- Settles O1: each form is a run of one two-operand function, which `computes_of_runBin` and `computes_of_runImm` give its writes. -/
theorem twoOperandIntegerResults : Obligations.TwoOperandIntegerResults := by
  unfold Obligations.TwoOperandIntegerResults
  intro w d a b n f fm fi fim h r ri
  have bin {i : Instr} {g g' : Bin} (he : ∀ s, exec i s = runBin .i4 w g d a b s) (hg : ∀ n x y, g n x y = g' n x y) :
      Computes i f 4 (r g') := computes_of_runBin he hg
  have imm {i : Instr} {g g' : Bin} (he : ∀ s, exec i s = runImm .i4 w g d a n s) (hg : ∀ n x y, g n x y = g' n x y) :
      Computes i fi 4 (ri g') := computes_of_runImm he hg
  have hh : (lat64 w).hold = h := hold_lat64 w
  have mul {i : Instr} {g : Bin} (he : ∀ s, exec i s = runBin (lat64 w) w g d a b s) : Computes i fm h (r g) :=
    hh ▸ computes_of_runBin he fun _ _ _ => rfl
  have mulImm : Computes (.mulImm w d a n) fim h (ri mulBv) :=
    hh ▸ computes_of_runImm (lat := lat64 w) (fun _ => rfl) fun _ _ _ => rfl
  have mad : Computes (.mad w d a b) fm h (result w d (fun c l => c.rd (wrRd d) l + c.rd a l * c.src b l)
      fun c l => c.rd64 (wrRd d) l + c.rd64 a l * c.src64 b l) :=
    hh ▸ computes_of_runRegs (f := binForm (lat64 w) w d a b) fun _ => rfl
  -- The runs are stated; with r and ri opaque, each goal names its function.
  clear_value f fm fi fim h r ri
  exact ⟨bin (fun _ => rfl) fun _ _ _ => rfl, imm (fun _ => rfl) fun _ _ _ => rfl,
    bin (fun _ => rfl) fun _ _ _ => rfl, imm (fun _ => rfl) fun _ _ _ => rfl,
    mul fun _ => rfl, mulImm, mul fun _ => rfl, mad,
    bin (fun _ => rfl) minBv_eq, imm (fun _ => rfl) minBv_eq, bin (fun _ => rfl) maxBv_eq, imm (fun _ => rfl) maxBv_eq,
    bin (fun _ => rfl) minuBv_eq, imm (fun _ => rfl) minuBv_eq, bin (fun _ => rfl) maxuBv_eq, imm (fun _ => rfl) maxuBv_eq,
    bin (fun _ => rfl) fun _ _ _ => rfl, imm (fun _ => rfl) fun _ _ _ => rfl,
    bin (fun _ => rfl) fun _ _ _ => rfl, imm (fun _ => rfl) fun _ _ _ => rfl,
    bin (fun _ => rfl) fun _ _ _ => rfl, imm (fun _ => rfl) fun _ _ _ => rfl,
    bin (fun _ => rfl) fun _ _ _ => rfl, bin (fun _ => rfl) fun _ _ _ => rfl⟩

/-- Settles O2: the results are those of Laws/Integer; the rotate's rests on a width above 0. -/
theorem oneOperandAndShiftResults : Obligations.OneOperandAndShiftResults := by
  unfold Obligations.OneOperandAndShiftResults
  constructor
  · intro w d a lit f r
    have una {i : Instr} {g g' : Una} (he : ∀ s, exec i s = runUna w g d a s) (hg : ∀ n x, g n x = g' n x) :
        Computes i f 4 (r g') := computes_of_runUna he hg
    clear_value f r
    exact ⟨una (fun _ => rfl) fun _ _ => rfl, una (fun _ => rfl) absBv_eq, una (fun _ => rfl) fun _ _ => rfl,
      una (fun _ => rfl) fun _ _ => rfl, una (fun _ => rfl) fun _ _ => rfl, una (fun _ => rfl) fun _ _ => rfl,
      una (fun _ => rfl) fun _ _ => rfl, una (fun _ => rfl) fun _ _ => rfl, computes_of_runRegs fun _ => rfl⟩
  · intro w d a b n f fi r ri shl shr sar rot
    have reg {i : Instr} {g g' : Shift} (he : ∀ s, exec i s = runShift w g d a b s) (hg : ∀ n, 0 < n → ∀ x k, g n x k = g' n x k) :
        Computes i f 4 (r g') := computes_of_runShift he hg
    have imm {i : Instr} {g g' : Shift} (he : ∀ s, exec i s = runShiftImm w g d a n s)
        (hg : ∀ n, 0 < n → ∀ x k, g n x k = g' n x k) : Computes i fi 4 (ri g') := computes_of_runShiftImm he hg
    have hrot (n : Nat) (h : 0 < n) (x : BitVec n) (k : Nat) : rotBv n x k = rot n x k := rotBv_eq n x k h
    clear_value f fi r ri
    exact ⟨reg (fun _ => rfl) fun n _ => shlBv_eq n, imm (fun _ => rfl) fun n _ => shlBv_eq n,
      reg (fun _ => rfl) fun n _ => shrBv_eq n, imm (fun _ => rfl) fun n _ => shrBv_eq n,
      reg (fun _ => rfl) fun n _ => sarBv_eq n, imm (fun _ => rfl) fun n _ => sarBv_eq n,
      reg (fun _ => rfl) hrot, imm (fun _ => rfl) hrot⟩

end Sys2Proof
end

section
/-! Bit fields, the byte permutation, selection, comparison, lea and the divides (R113 to R118). -/

namespace Sys2Proof.Machine

open Claims

/-! Bit fields and the byte permutation. -/

theorem fieldOf_fst (lit b : Word) : (fieldOf lit b).1 = if bit lit 14 then fld b 0 8 else fld lit 0 6 := by
  unfold fieldOf; split <;> rfl

theorem fieldOf_snd (lit b : Word) : (fieldOf lit b).2 = if bit lit 14 then fld b 8 8 else fld lit 6 7 := by
  unfold fieldOf; split <;> rfl

/-- The field that the word names, extracted from A in each lane. -/
theorem exec_bfx (w : Bool) (d : Wr) (a b : Rd) (lit : Word) (s : State) :
    exec (.bfx w d a b lit) s = runRegs (fieldForm w d a b) s (result w d
      (fun c l => bfxBv 32 (bit lit 13) (fieldOf lit (c.rd b l)).1 (fieldOf lit (c.rd b l)).2 (c.rd a l))
      fun c l => bfxBv 64 (bit lit 13) (fieldOf lit (c.rd b l)).1 (fieldOf lit (c.rd b l)).2 (c.rd64 a l)) := rfl

/-- The field that the word names, inserted into D in each lane. -/
theorem exec_bfi (w : Bool) (d : Wr) (a b : Rd) (lit : Word) (s : State) :
    exec (.bfi w d a b lit) s = runRegs (fieldForm w d a b) s (result w d
      (fun c l => bfiBv 32 (fieldOf lit (c.rd b l)).1 (fieldOf lit (c.rd b l)).2 (c.rd a l) (c.rd (wrRd d) l))
      fun c l => bfiBv 64 (fieldOf lit (c.rd b l)).1 (fieldOf lit (c.rd b l)).2 (c.rd64 a l) (c.rd64 (wrRd d) l)) := rfl

/-- A result byte of each selector in the word. -/
theorem exec_prmt (d : Wr) (a b : Rd) (lit : Word) (s : State) :
    exec (.prmt d a b lit) s = runRegs { lat := .i4, vecs := wrVecs d 1 ++ rdVecs a 1 ++ rdVecs b 1 } s fun c => c.writes32 d fun l =>
      BitVec.ofNat 32 ((List.range 4).map fun i => prmtByte (c.rd a l) (c.rd b l) (fld lit (4 * i) 4) * 2 ^ (8 * i)).sum := rfl

theorem sum_range_four (f : Nat → Nat) : ((List.range 4).map f).sum = f 0 + f 1 + f 2 + f 3 := by
  simp [List.sum_range_succ]

/-- The four bytes of a word, lowest first. -/
theorem sum_bytes (f : Nat → Nat) :
    ((List.range 4).map fun i => f i * 2 ^ (8 * i)).sum = f 0 + f 1 * 2 ^ 8 + f 2 * 2 ^ 16 + f 3 * 2 ^ 24 := by
  rw [sum_range_four]
  simp only [Nat.mul_zero, pow_zero, Nat.mul_one, Nat.reduceMul]

/-! Comparison. -/

/-- The conditions of R115 as propositions about the two numbers. -/
theorem icond_eq {n : Nat} (x y : BitVec n) : ∀ cc : Nat,
    icond cc x y = match cc with
      | 0 => decide (x = y) | 1 => decide (x ≠ y) | 2 => decide (x.toInt < y.toInt) | 3 => decide (x.toInt ≤ y.toInt)
      | 4 => decide (y.toInt < x.toInt) | 5 => decide (y.toInt ≤ x.toInt) | 6 => decide (x.toNat < y.toNat)
      | 7 => decide (x.toNat ≤ y.toNat) | 8 => decide (y.toNat < x.toNat) | _ => decide (y.toNat ≤ x.toNat)
  | 1 => show (x != y) = decide (x ≠ y) by rw [bne, Bool.beq_eq_decide_eq, decide_not]
  | 0 | 2 | 3 | 4 | 5 | 6 | 7 | 8 | _ + 9 => rfl

/-- The writes of a compare whose outcome in lane l is t c l, and which gives u, or v in its `.64` form, where it holds. -/
theorem cmpWrites_eq {ones w : Bool} {d : Wr} {a b : Rd} {lit : Word} {c : Cord} {t : Cord → Nat → Bool} {u : Word} {v : Dword}
    (ht : cmpAt w d a b (fld lit 0 4) c = t c) (hu : (if ones then BitVec.allOnes 32 else 1) = u)
    (hv : (if ones then BitVec.allOnes 64 else 1) = v) :
    cmpWrites ones w d a b lit c =
      result w d (fun c l => if t c l then u else 0) (fun c l => if t c l then v else 0) c ++ c.maskMerge (fld lit 4 4) (t c) := by
  subst hu hv
  rw [cmpWrites, ht]
  rfl

/-- The address that lea forms in each lane. -/
theorem exec_lea (d : Wr) (a b : Rd) (lit : Word) (s : State) :
    exec (.lea d a b lit) s = runRegs { lat := .i4, vecs := wrVecs d 2 ++ rdVecs a 2 ++ rdVecs b 1 } s fun c =>
      c.writes64 d fun l => leaBv (c.rd64 a l) (c.rd b l) lit := rfl

/-! Division. -/

/-- A divide that the slot's unit can accept holds the unit, and its completion follows with its writes (R118). -/
theorem exec_of_runDiv {i : Instr} {w : Bool} {g g' : Bin} {d : Wr} {a : Rd} {b : Src} {s : State}
    (he : exec i s = runDiv w g d a b s) (hg : ∀ n, 0 < n → ∀ x y, g n x y = g' n x y)
    (hc : (binForm .v w d a b).check s = none) (hu : SMap.get 0 (s.coreOf s.cord.core).divFree s.cord.slot ≤ s.cycle) :
    exec i s = .next ((binForm .v w d a b).issued
      { State.onCore s.cord.core
          (fun k => { k with divFree := SMap.set 0 k.divFree s.cord.slot (s.cycle + if w then 16 else 8) }) s with
        agenda := s.agenda ++ [⟨s.cycle + if w then 40 else 24, .divideComplete s.cord.cid s.cord.flag
          (result w d (fun c l => g' 32 (c.rd a l) (c.src b l)) (fun c l => g' 64 (c.rd64 a l) (c.src64 b l)) s.cord)⟩] }) := by
  rw [he, ← binWrites_eq_result hg]
  refine runForm_done hc ?_
  dsimp only
  rw [if_neg (by omega), State.after, State.onCore_agenda, State.onCore_cycle]

/-- The writes of a divide and the fall of its flag are one event (R118). -/
theorem exec_divideComplete {s : State} {c : Nat} {fl : Flag} {ws : List RegWrite} (h : s.now = some (.divideComplete c fl ws)) :
    exec .divideComplete s = .next (s.complete c fl ws) := by
  change execDivideComplete s = _
  unfold execDivideComplete
  rw [h]

end Sys2Proof.Machine

namespace Sys2Proof

open Machine Claims

/-- Settles O3, by `bfxBv_eq`, `bfiBv_getLsbD` and, byte by byte, `prmtByte_eq`. -/
theorem bitFieldAndPermuteResults : Obligations.BitFieldAndPermuteResults := by
  unfold Obligations.BitFieldAndPermuteResults
  intro w d a b lit f pos len bfx inserted sel byte
  have hpos (c : Cord) (l : Nat) : (fieldOf lit (c.rd b l)).1 = pos c l := fieldOf_fst ..
  have hlen (c : Cord) (l : Nat) : (fieldOf lit (c.rd b l)).2 = len c l := fieldOf_snd ..
  have hbfx (n : Nat) (c : Cord) (l : Nat) (x : BitVec n) :
      bfxBv n (bit lit 13) (fieldOf lit (c.rd b l)).1 (fieldOf lit (c.rd b l)).2 x = bfx n c l x := by
    rw [hpos, hlen]; exact bfxBv_eq ..
  have hbfi (n : Nat) (c : Cord) (l : Nat) (x y : BitVec n) :
      inserted n c l x y (bfiBv n (fieldOf lit (c.rd b l)).1 (fieldOf lit (c.rd b l)).2 x y) := by
    rw [hpos, hlen]; exact bfiBv_getLsbD n _ _ x y
  have hbyte (c : Cord) (l i : Nat) : prmtByte (c.rd a l) (c.rd b l) (fld lit (4 * i) 4) = byte c l i := prmtByte_eq ..
  refine ⟨?bfx, ?bfi, ?prmt⟩
  case bfx => exact computes_result (exec_bfx w d a b lit) (fun c l => hbfx 32 c l _) fun c l => hbfx 64 c l _
  case bfi => exact ⟨_, _, computes_of_runRegs (exec_bfi w d a b lit), fun c l => ⟨hbfi 32 c l _ _, hbfi 64 c l _ _⟩⟩
  case prmt =>
    refine computes_of_eq (exec_prmt d a b lit) fun c => congrArg (c.writes32 d) (funext fun l => congrArg (BitVec.ofNat 32) ?_)
    simp only [hbyte]
    exact sum_bytes (byte c l)

/-- Settles O4, by `cmpWrites_eq` and `leaBv_eq`. -/
theorem selectCompareAndLeaResults : Obligations.SelectCompareAndLeaResults := by
  unfold Obligations.SelectCompareAndLeaResults
  intro w d a b lit f cond at_ t mask p
  have ht (c : Cord) : cmpAt w d a b (fld lit 0 4) c = t c := by
    funext l
    simp only [cmpAt, icond_eq]
    rfl
  refine ⟨?sel, ?cmp, ?cmpv, ?lea⟩
  case sel => exact computes_of_runRegs fun _ => rfl
  case cmp =>
    exact computes_of_eq (g := cmpWrites false w d a b lit) (fun _ => rfl) fun c =>
      cmpWrites_eq (u := 1) (v := 1) (ht c) rfl rfl
  case cmpv =>
    exact computes_of_eq (g := cmpWrites true w d a b lit) (fun _ => rfl) fun c =>
      cmpWrites_eq (u := 0xFFFFFFFF) (v := 0xFFFFFFFFFFFFFFFF) (ht c) (by decide) (by decide)
  case lea =>
    exact computes_of_eq (exec_lea d a b lit) fun c => congrArg (c.writes64 d) (funext fun l => leaBv_eq (c.rd64 a l) (c.rd b l) lit)

/-- Settles O5, by `exec_of_runDiv` with the quotients and remainders of Laws/Integer. -/
theorem divideResultsAndTiming : Obligations.DivideResultsAndTiming := by
  unfold Obligations.DivideResultsAndTiming
  intro w d a b f r takes
  have div {i : Instr} {g g' : Bin} (he : ∀ s, exec i s = runDiv w g d a b s) (hg : ∀ n, 0 < n → ∀ x y, g n x y = g' n x y) :
      takes i g' := fun s hc hu => exec_of_runDiv (he s) hg hc hu
  clear_value takes
  exact ⟨div (fun _ => rfl) fun _ _ _ _ => rfl, div (fun _ => rfl) fun n _ => remuBv_eq n,
    div (fun _ => rfl) fun n h x y => divsBv_eq n x y h, div (fun _ => rfl) fun n _ => remsBv_eq n,
    fun s c fl ws => exec_divideComplete⟩

end Sys2Proof
end

section
/-! Floating point (R119 to R131): arithmetic, signs, comparison, classes, rounding to an integral value and the special functions. -/

namespace Sys2Proof.Machine

open Claims

/-! Comparison. -/

/-- A number that is below another is not above it. -/
theorem Num.lt_asymm : ∀ {x y : Num}, Num.lt x y = true → Num.lt y x = false
  | .inf s, .inf t, h => by cases s <;> cases t <;> simp_all [Num.lt]
  | .inf s, .fin .., h => by simp_all [Num.lt]
  | .fin .., .inf t, h => by simp_all [Num.lt]
  | .fin s m e, .fin t n f, h => by
    simp only [Num.lt, decide_eq_true_eq, decide_eq_false_iff_not, min_comm f e] at h ⊢
    omega

/-- Only numbers are below one another. -/
theorem Num.ne_nan_of_lt : ∀ {x y : Num}, Num.lt x y = true → x ≠ .nan ∧ y ≠ .nan
  | .inf _, .inf _, _ | .inf _, .fin .., _ | .fin .., .inf _, _ | .fin .., .fin .., _ => ⟨nofun, nofun⟩

/-- The conditions of R126 by order and by whether an operand is a NaN. -/
theorem fcond_eq (x y : Num) (cc : Nat) :
    fcond cc x y =
      let less := Num.lt x y
      let more := Num.lt y x
      let un := decide (x = .nan ∨ y = .nan)
      match cc with
      | 0 => !un && !less && !more | 1 => un || less || more | 2 => less | 3 => !un && !more
      | 4 => more | 5 => !un && !less | 6 => un | _ => !un := by
  have hun : (x == Num.nan || y == Num.nan) = decide (x = .nan ∨ y = .nan) := by
    rw [Bool.decide_or, Bool.beq_eq_decide_eq, Bool.beq_eq_decide_eq]
  have heq : Num.eq x y = (!decide (x = .nan ∨ y = .nan) && !Num.lt x y && !Num.lt y x) := by
    rw [← hun, Bool.not_or]; rfl
  have below {x y : Num} (h : Num.lt x y = true) : decide (x = .nan ∨ y = .nan) = false ∧ Num.lt y x = false := by
    obtain ⟨hx, hy⟩ := Num.ne_nan_of_lt h
    exact ⟨by simp [hx, hy], Num.lt_asymm h⟩
  have hmore : decide (y = .nan ∨ x = .nan) = decide (x = .nan ∨ y = .nan) := decide_eq_decide.2 or_comm
  have hle : (Num.lt x y || Num.eq x y) = (!decide (x = .nan ∨ y = .nan) && !Num.lt y x) := by
    rw [heq]
    cases h : Num.lt x y
    · simp
    · simp [below h]
  have hge : (Num.lt y x || Num.eq x y) = (!decide (x = .nan ∨ y = .nan) && !Num.lt x y) := by
    rw [heq]
    cases h : Num.lt y x
    · simp
    · obtain ⟨hu, hl⟩ := below h
      simp [← hmore, hu, hl]
  match cc with
  | 0 => exact heq
  | 1 => show (!Num.eq x y) = _; rw [heq]; simp only [Bool.not_and, Bool.not_not]
  | 3 => exact hle
  | 5 => exact hge
  | 6 => exact hun
  | 2 | 4 => rfl
  | _ + 7 => exact congrArg (! ·) hun

/-- The number of an FP32 operand in lane l, flushed by fpctl (R120). -/
def Cord.num32 (c : Cord) (r : Rd) (l : Nat) : Num := fp32.decode (fp32.flush (bit c.fpctl 4) (c.rd r l).toNat)

/-- The number of an FP64 operand in lane l, flushed by fpctl (R120). -/
def Cord.num64 (c : Cord) (r : Rd) (l : Nat) : Num := fp64.decode (fp64.flush (bit c.fpctl 6) (c.rd64 r l).toNat)

theorem exec_fcmp (d : Wr) (a b : Rd) (lit : Word) (s : State) :
    exec (.fcmp d a b lit) s = runRegs { lat := .f6, unit := .vec 1, vecs := wrVecs d 1 ++ rdVecs a 1 ++ rdVecs b 1 } s fun c =>
      fcmpWrites d lit c fun l => fcond (fld lit 0 4) (c.num32 a l) (c.num32 b l) := rfl

theorem exec_dcmp (d : Wr) (a b : Rd) (lit : Word) (s : State) :
    exec (.dcmp d a b lit) s = runRegs { lat := .d10, unit := .vec 2, vecs := wrVecs d 1 ++ rdVecs a 2 ++ rdVecs b 2 } s fun c =>
      fcmpWrites d lit c fun l => fcond (fld lit 0 4) (c.num64 a l) (c.num64 b l) := rfl

/-! Special functions. -/

/-- A special function that the slot's unit can accept holds the unit, and its completion follows with its writes (R122). -/
theorem exec_of_runSfu {i : Instr} {every result : Nat} {vs : List (Nat × Nat)} {ws : Cord → List RegWrite} {s : State}
    (he : exec i s = runSfu every result vs ws s) (hc : Form.check { lat := .v, vecs := vs } s = none)
    (hu : SMap.get 0 (s.coreOf s.cord.core).sfuFree s.cord.slot ≤ s.cycle) :
    exec i s = .next (Form.issued { lat := .v, vecs := vs }
      { State.onCore s.cord.core (fun k => { k with sfuFree := SMap.set 0 k.sfuFree s.cord.slot (s.cycle + every) }) s with
        agenda := s.agenda ++ [⟨s.cycle + result, .specialFunctionComplete s.cord.cid s.cord.flag (ws s.cord)⟩] }) := by
  rw [he]
  refine runForm_done hc ?_
  dsimp only
  rw [if_neg (by omega), State.after, State.onCore_agenda, State.onCore_cycle]

/-- The writes of a special function and the fall of its flag are one event (R122). -/
theorem exec_specialFunctionComplete {s : State} {c : Nat} {fl : Flag} {ws : List RegWrite}
    (h : s.now = some (.specialFunctionComplete c fl ws)) : exec .specialFunctionComplete s = .next (s.complete c fl ws) := by
  change execSpecialFunctionComplete s = _
  unfold execSpecialFunctionComplete
  rw [h]

/-- Quotients, roots and their reciprocals of zeros, infinities and negative operands (R123). -/
theorem quotient_root_specials (oz rz : Bool) :
    fp32.div oz rz 0 0x80000000 = 0x7FC00000 ∧ fp32.div oz rz 0x7F800000 0xFF800000 = 0x7FC00000 ∧
    fp32.div oz rz 0x3F800000 0x80000000 = 0xFF800000 ∧ fp32.div oz rz 0x3F800000 0xFF800000 = 0x80000000 ∧
    fp64.div oz rz 0 0 = 0x7FF8000000000000 ∧ fp64.div oz rz 0x3FF0000000000000 0x8000000000000000 = 0xFFF0000000000000 ∧
    fp32.rsqrt oz rz 0 = 0x7F800000 ∧ fp32.rsqrt oz rz 0x80000000 = 0xFF800000 ∧ fp32.rsqrt oz rz 0x7F800000 = 0 ∧
    fp32.rsqrt oz rz 0xBF800000 = 0x7FC00000 ∧ fp32.sqrt oz rz 0x80000000 = 0x80000000 ∧
    fp32.sqrt oz rz 0x7F800000 = 0x7F800000 ∧ fp32.sqrt oz rz 0xBF800000 = 0x7FC00000 ∧
    fp64.sqrt oz rz 0x8000000000000000 = 0x8000000000000000 ∧ fp64.sqrt oz rz 0xBFF0000000000000 = 0x7FF8000000000000 := by
  cases oz <;> cases rz <;> decide

theorem exp2_log2_specials (oz rz : Bool) :
    fexp2Of oz rz 0xFF800000 = 0 ∧ fexp2Of oz rz 0x7F800000 = 0x7F800000 ∧
    flog2Of oz rz 0 = 0xFF800000 ∧ flog2Of oz rz 0x80000000 = 0xFF800000 ∧ flog2Of oz rz 0x3F800000 = 0 ∧
    flog2Of oz rz 0x7F800000 = 0x7F800000 ∧ flog2Of oz rz 0xFF800000 = 0x7FC00000 := by
  cases oz <;> cases rz <;> decide

theorem trig_tanh_specials (oz rz : Bool) :
    (∀ c : Bool, ftrigOf c oz rz 0x7F800000 = 0x7FC00000 ∧ ftrigOf c oz rz 0xFF800000 = 0x7FC00000) ∧
    ftrigOf false oz rz 0 = 0 ∧ ftrigOf false oz rz 0x80000000 = 0x80000000 ∧
    ftanhOf oz rz 0 = 0 ∧ ftanhOf oz rz 0x80000000 = 0x80000000 ∧ ftanhOf oz rz 0x7F800000 = 0x3F800000 ∧
    ftanhOf oz rz 0xFF800000 = 0xBF800000 := by
  cases oz <;> cases rz <;> decide

end Sys2Proof.Machine

namespace Sys2Proof

open Machine Claims

/-- Settles O15: each form is a run of one function of its operands, which flushes, computes exactly, rounds once and flushes. -/
theorem floatArithmeticResults : Obligations.FloatArithmeticResults := by
  unfold Obligations.FloatArithmeticResults
  intro d a b rne val two fma pick f32 f64 f16 sub
  have r32 {i : Instr} {g g' : Ieee → Bool → Bool → Nat → Nat → Nat → Nat} (he : ∀ s, exec i s = runF32 (g fp32) d a b s) (hg : g = g') :
      f32 i g' := hg ▸ computes_of_runRegs he
  have r64 {i : Instr} {g g' : Ieee → Bool → Bool → Nat → Nat → Nat → Nat} (he : ∀ s, exec i s = runF64 (g fp64) d a b s) (hg : g = g') :
      f64 i g' := hg ▸ computes_of_runRegs he
  have r16 {i : Instr} {g g' : Ieee → Bool → Bool → Nat → Nat → Nat → Nat} (he : ∀ s, exec i s = runF16 (g fp16) d a b s) (hg : g = g') :
      f16 i g' := hg ▸ computes_of_runRegs he
  have hadd : opAdd = two Machine.Num.add := rfl
  have hsub : opSub = two sub := rfl
  have hmul : opMul = two Machine.Num.mul := rfl
  have hfma : opFma = fma := rfl
  have hmin : opMin = pick false := rfl
  have hmax : opMax = pick true := rfl
  clear_value f32 f64 f16 two fma pick
  exact ⟨r32 (fun _ => rfl) hadd, r32 (fun _ => rfl) hsub, r32 (fun _ => rfl) hmul, r32 (fun _ => rfl) hfma, r32 (fun _ => rfl) hmin,
    r32 (fun _ => rfl) hmax, r64 (fun _ => rfl) hadd, r64 (fun _ => rfl) hsub, r64 (fun _ => rfl) hmul, r64 (fun _ => rfl) hfma,
    r64 (fun _ => rfl) hmin, r64 (fun _ => rfl) hmax, r16 (fun _ => rfl) hadd, r16 (fun _ => rfl) hmul, r16 (fun _ => rfl) hfma⟩

/-- Settles O16: the comparison is `fcond_eq`, lane by lane. -/
theorem floatSignCompareClassRound : Obligations.FloatSignCompareClassRound := by
  unfold Obligations.FloatSignCompareClassRound
  intro d a b lit n f1 at_ holds writes
  have hw (c : Cord) (x y : Nat → Machine.Num) :
      fcmpWrites d lit c (fun l => fcond (fld lit 0 4) (x l) (y l)) = writes (fun l => holds (x (at_ c l)) (y (at_ c l))) c := by
    simp only [fcmpWrites, fcond_eq]
    rfl
  refine ⟨?fneg, ?fabs, ?fcmp, ?dcmp, ?fclass, ?frnd⟩
  case fneg => exact computes_of_runRegs fun _ => rfl
  case fabs => exact computes_of_runRegs fun _ => rfl
  case fcmp => exact computes_of_eq (exec_fcmp d a b lit) fun c => hw c (c.num32 a) (c.num32 b)
  case dcmp => exact computes_of_eq (exec_dcmp d a b lit) fun c => hw c (c.num64 a) (c.num64 b)
  case fclass => exact computes_of_runRegs fun _ => rfl
  case frnd => exact computes_of_runRegs fun _ => rfl

/-- Settles O17: the course of a special function is `exec_of_runSfu`. -/
theorem specialFunctionResultsAndTiming : Obligations.SpecialFunctionResultsAndTiming := by
  unfold Obligations.SpecialFunctionResultsAndTiming
  constructor
  · intro d a b r takes v1 one
    have sfu {i : Instr} {vs : List (Nat × Nat)} {every after_ : Nat} {ws : Cord → List RegWrite}
        (he : ∀ s, exec i s = runSfu every after_ vs ws s) : takes i vs every after_ ws := fun s => exec_of_runSfu (he s)
    clear_value takes
    exact ⟨sfu fun _ => rfl, sfu fun _ => rfl, sfu fun _ => rfl, sfu fun _ => rfl, sfu fun _ => rfl, sfu fun _ => rfl,
      sfu fun _ => rfl, sfu fun _ => rfl, sfu fun _ => rfl, sfu fun _ => rfl, sfu fun _ => rfl,
      fun s c fl ws => exec_specialFunctionComplete⟩
  · intro oz rz
    simpa only [and_assoc] using (⟨quotient_root_specials oz rz, exp2_log2_specials oz rz, trig_tanh_specials oz rz⟩ : _ ∧ _ ∧ _)

end Sys2Proof
end

section
/-! fpctl (R132), and the rounding of a quotient to an integer (R65, R70, R71). -/

namespace Sys2Proof.Machine

open Claims

/-! Rounding to an integer. -/

/-- Whether a mode rounds the quotient k with remainder r of a division by d up (R65, R71). -/
def Rm.carries (rm : Rm) (neg : Bool) (k r d : Nat) : Bool :=
  match rm with
  | .rne => decide (d < 2 * r) || (decide (2 * r = d) && decide (k % 2 = 1))
  | .rz => false
  | .ru => decide (0 < r) && !neg
  | .rd => decide (0 < r) && neg
  | .sr u => decide (2 ^ 16 ≤ r * 2 ^ 16 / d + u)

/-- A quotient is rounded to itself without its fraction, or to the next integer. -/
theorem roundAt_of_scaled {rm : Rm} {neg : Bool} {num den n d : Nat} {e q : Int} (h : scaled num den (e - q) = (n, d)) :
    roundAt rm neg num den e q = n / d + if rm.carries neg (n / d) (n % d) d then 1 else 0 := by
  simp only [roundAt, h]
  change (if rm.carries neg (n / d) (n % d) d then n / d + 1 else n / d) = _
  split <;> rfl

theorem roundAt_eq (rm : Rm) (neg : Bool) (n d : Nat) :
    roundAt rm neg n d 0 0 = n / d + if rm.carries neg (n / d) (n % d) d then 1 else 0 :=
  roundAt_of_scaled (by simp [scaled, pow2])

/-- A quotient scaled by a power of two is rounded as the quotient of the scaled numbers. -/
theorem roundAt_scaled (rm : Rm) (neg : Bool) (n d : Nat) (e q : Int) :
    roundAt rm neg n d e q = roundAt rm neg (n * pow2 (e - q)) (d * pow2 (q - e)) 0 0 := by
  rw [roundAt_eq]
  exact roundAt_of_scaled (by rw [scaled, Int.neg_sub])

/-- Upward rounding as a quotient. -/
theorem div_add_carry {n d : Nat} (hd : 0 < d) : n / d + (if 0 < n % d then 1 else 0) = (n + d - 1) / d := by
  have hn := Nat.div_add_mod n d
  have hr := Nat.mod_lt n hd
  symm
  rw [Nat.div_eq_iff hd, Nat.add_mul, Nat.mul_comm (n / d) d]
  split <;> omega

theorem roundAt_ru {n d : Nat} (neg : Bool) (hd : 0 < d) : roundAt .ru neg n d 0 0 = if neg then n / d else (n + d - 1) / d := by
  cases neg <;> simp [roundAt_eq, Rm.carries, ← div_add_carry hd]

theorem roundAt_rd {n d : Nat} (neg : Bool) (hd : 0 < d) : roundAt .rd neg n d 0 0 = if neg then (n + d - 1) / d else n / d := by
  cases neg <;> simp [roundAt_eq, Rm.carries, ← div_add_carry hd]

/-- What rne gives is no further than half from the quotient. -/
theorem roundAt_rne_near {n d : Nat} (neg : Bool) (hd : 0 < d) :
    2 * (roundAt .rne neg n d 0 0 * d) ≤ 2 * n + d ∧ 2 * n ≤ 2 * (roundAt .rne neg n d 0 0 * d) + d := by
  have hn := Nat.div_add_mod n d
  have hr := Nat.mod_lt n hd
  rw [roundAt_eq, Nat.add_mul, Nat.mul_comm (n / d) d]
  simp only [Rm.carries, Bool.or_eq_true, Bool.and_eq_true, decide_eq_true_eq]
  split <;> omega

/-- Of two integers as near as each other, rne gives the even one. -/
theorem roundAt_rne_even {n d : Nat} (neg : Bool) (hd : 0 < d)
    (h : 2 * (roundAt .rne neg n d 0 0 * d) = 2 * n + d ∨ 2 * n = 2 * (roundAt .rne neg n d 0 0 * d) + d) :
    roundAt .rne neg n d 0 0 % 2 = 0 := by
  have hn := Nat.div_add_mod n d
  have hr := Nat.mod_lt n hd
  rw [roundAt_eq, Nat.add_mul, Nat.mul_comm (n / d) d] at h
  rw [roundAt_eq]
  simp only [Rm.carries, Bool.or_eq_true, Bool.and_eq_true, decide_eq_true_eq] at h ⊢
  split at h <;> split <;> omega

/-! fpctl. -/

/-- fpctl as a word, in each lane of D (R132). -/
theorem exec_fpcr (d : Wr) (s : State) :
    exec (.fpcr d) s = runRegs { lat := .i4, vecs := wrVecs d 1 } s fun c => c.writes32 d fun _ => BitVec.ofNat 32 c.fpctl.toNat := by
  simp only [BitVec.ofNat_toNat]
  rfl

/-- A form that changes fpctl changes nothing else at its issue (R132). -/
theorem does_of_runFpctl {i : Instr} {a : Rd} {g : Byte → Byte → Byte} (he : ∀ s, exec i s = runFpctl a g s) :
    Does i { lat := .i4, vecs := rdVecs a 1 } fun s =>
      { s with cord := { s.cord with fpctl := g s.cord.fpctl (BitVec.ofNat 8 (s.cord.rd a (lowest s.cord.act)).toNat) } } := fun s hc => by
  simp only [BitVec.ofNat_toNat]
  exact (he s).trans (runForm_done hc rfl)

end Sys2Proof.Machine

namespace Sys2Proof

open Machine Claims

/-- Settles O18: the forms by `does_of_runFpctl`, the roundings mode by mode. -/
theorem fpctlFormsAndRounding : Obligations.FpctlFormsAndRounding := by
  unfold Obligations.FpctlFormsAndRounding
  constructor
  · intro d a f x
    exact ⟨computes_of_runRegs (exec_fpcr d), does_of_runFpctl (g := fun _ x => x) fun _ => rfl,
      does_of_runFpctl (g := fun f x => f ||| x) fun _ => rfl, does_of_runFpctl (g := fun f x => f &&& ~~~x) fun _ => rfl⟩
  · intro n d neg hd k
    refine ⟨roundAt_rne_near neg hd, roundAt_rne_even neg hd, roundAt_eq .rz neg n d, roundAt_ru neg hd, roundAt_rd neg hd, fun u => ?_,
      fun rm e q => roundAt_scaled rm neg n d e q⟩
    simp only [k, roundAt_eq, Rm.carries, decide_eq_true_eq]

end Sys2Proof
end

section
/-! Shuffles, votes, reductions and scans (R133 to R138). -/

namespace Sys2Proof.Machine

open Claims

/-! Shuffles and votes (R134, R135). -/

/-- The source lane of shfld by direction and distance, in arithmetic. -/
theorem shfldLane_eq (b : Word) (l : Nat) :
    shfldLane b l =
      let k := b.toNat % 32
      match b.toNat / 32 % 4 with
      | 0 => if k ≤ l then l - k else l
      | 1 => if l + k ≤ 31 then l + k else l
      | 2 => l ^^^ k
      | _ => (l + k) % 32 := by
  have hk : fld b 0 5 = b.toNat % 32 := rfl
  have hm : fld b 5 2 = b.toNat / 32 % 4 := congrArg (· % 4) (Nat.shiftRight_eq_div_pow _ 5)
  simp only [shfldLane, hk, hm] <;> rfl

/-- Which of the active lanes the mask of a vote of result r names (R135). -/
def voteMask (r : Word) (mode l : Nat) : Bool := if mode = 0 then bit r l else decide (r ≠ 0)

theorem exec_vote (d : Wr) (a : Rd) (lit : Word) (s : State) :
    exec (.vote d a lit) s = runRegs (netForm 12 (wrVecs d 1 ++ rdVecs a 1)) s fun c =>
      c.writesOnce d (voteResult c a (fld lit 0 2)) ++ c.maskMerge (fld lit 4 4) (voteMask (voteResult c a (fld lit 0 2)) (fld lit 0 2)) := by
  have hne (r : Word) : decide (r ≠ 0) = (r != 0) := by rw [bne, Bool.beq_eq_decide_eq, decide_not]
  unfold voteMask
  simp only [hne]
  rfl

/-- The result of a vote by its mode, over the lanes. -/
theorem voteResult_eq (c : Cord) (a : Rd) (mode : Nat) :
    voteResult c a mode =
      let p (l : Nat) : Bool := bit c.act l && decide (c.rd a l ≠ 0)
      let all (g : Nat → Bool) : Bool := (List.range 32).all g
      match mode with
      | 0 => maskWhere p
      | 1 => if (List.range 32).any p then 1 else 0
      | 2 => if all (fun l => !bit c.act l || p l) then 1 else 0
      | _ => if all (fun l => !bit c.act l || decide (c.rd a l = c.rd a (lowest c.act))) then 1 else 0 := by
  have hne (l : Nat) : (c.rd a l != 0) = decide (c.rd a l ≠ 0) := by rw [bne, Bool.beq_eq_decide_eq, decide_not]
  have himp (p q : Bool) : (!p || p && q) = (!p || q) := by cases p <;> rfl
  unfold voteResult
  match mode with
  | 0 => simp only [maskWhere, lanesOf, List.filter_filter, hne, Bool.and_comm]
  | 1 => simp only [lanesOf, List.any_filter, hne]
  | 2 => simp only [lanesOf, List.all_filter, hne, himp]
  | _ + 3 => simp only [lanesOf, List.all_filter, Bool.beq_eq_decide_eq]

/-- Of a mask register that is merged, lanes of ACT take the new value and the others keep theirs (R115, R126, R135). -/
theorem bit_merge (k act : Word) (t : Nat → Bool) (l : Nat) :
    bit ((k &&& ~~~act) ||| (maskWhere t &&& act)) l = if bit act l then t l else bit k l := by
  have hb : bit ((k &&& ~~~act) ||| (maskWhere t &&& act)) l = ((bit k l && (decide (l < 32) && !bit act l)) || (bit (maskWhere t) l && bit act l)) := by
    simp [bit]
  rw [hb]
  cases ha : bit act l
  · by_cases hl : l < 32
    · simp [hl]
    · have : bit k l = false := BitVec.getLsbD_of_ge k l (by omega)
      simp [this]
  · have hl := bit_lt ha
    simp [bit_maskWhere t hl]

/-! The operation and the identity of a literal (R136). -/

theorem atWidth_eq (g : Bin) {w : Bool} {n : Nat} (hn : n = if w then 64 else 32) (x y : Nat) :
    atWidth g w x y = (g n (BitVec.ofNat n x) (BitVec.ofNat n y)).toNat := by
  subst hn; cases w <;> rfl

/-- Writes of one value per lane differ only in the lanes that the form runs on. -/
theorem writes_congr {c : Cord} {d : Wr} {f g : Nat → List Word} (h : ∀ l ∈ c.runLanes d, f l = g l) : c.writes d f = c.writes d g := by
  unfold Cord.writes
  rw [List.flatMap_def, List.flatMap_def, List.map_congr_left fun l hl => by rw [h l hl]]

/-- The format of a floating-point type. -/
theorem ieeeOf_eq {ty : Nat} (h : ty = 10 ∨ ty = 11) : ieeeOf ty = if ty = 11 then fp64 else fp32 := by rcases h with rfl | rfl <;> rfl

theorem isFloat_eq (ty : Nat) : (ty == 10 || ty == 11) = decide (ty = 10 ∨ ty = 11) := by
  rw [Bool.decide_or, Bool.beq_eq_decide_eq, Bool.beq_eq_decide_eq]

theorem isSigned_eq (ty : Nat) : (ty == 4 || ty == 6) = decide (ty = 4 ∨ ty = 6) := by
  rw [Bool.decide_or, Bool.beq_eq_decide_eq, Bool.beq_eq_decide_eq]

theorem leastBv_eq {n : Nat} (sgn : Prop) [Decidable sgn] (x y : BitVec n) :
    (if sgn then minBv else minuBv) n x y = if (if sgn then x.toInt ≤ y.toInt else x.toNat ≤ y.toNat) then x else y := by
  by_cases h : sgn <;> simp only [h, if_true, if_false, minBv_eq, minuBv_eq]

theorem mostBv_eq {n : Nat} (sgn : Prop) [Decidable sgn] (x y : BitVec n) :
    (if sgn then maxBv else maxuBv) n x y = if (if sgn then x.toInt ≤ y.toInt else x.toNat ≤ y.toNat) then y else x := by
  by_cases h : sgn <;> simp only [h, if_true, if_false, maxBv_eq, maxuBv_eq]

/-- A reduction of a literal is one of the operations of R136, on the numbers or on the words of its type. -/
theorem reduceOp_eq {r rz : Bool} (ty op x y n : Nat) (hr : ty = 10 ∨ ty = 11 → r = rz) (hn : n = if ty = 6 ∨ ty = 7 then 64 else 32) :
    reduceOp ((ty == 10 || ty == 11) && r) ty op x y =
      let float := ty = 10 ∨ ty = 11
      let signed := ty = 4 ∨ ty = 6
      let fp : Ieee := if ty = 11 then fp64 else fp32
      let whole (g : BitVec n → BitVec n → BitVec n) (x y : Nat) : Nat := (g (BitVec.ofNat n x) (BitVec.ofNat n y)).toNat
      let least (x y : BitVec n) : BitVec n := if (if signed then x.toInt ≤ y.toInt else x.toNat ≤ y.toNat) then x else y
      let most (x y : BitVec n) : BitVec n := if (if signed then x.toInt ≤ y.toInt else x.toNat ≤ y.toNat) then y else x
      match op with
      | 0 => if float then fp.flush rz (fp.encode true .rne false (Num.add (fp.decode x) (fp.decode y))) else whole (fun x y => x + y) x y
      | 1 => if float then fp.flush rz (fp.minmax false x y) else whole least x y
      | 2 => if float then fp.flush rz (fp.minmax true x y) else whole most x y
      | 3 => whole (fun x y => x &&& y) x y
      | 4 => whole (fun x y => x ||| y) x y
      | _ => whole (fun x y => x ^^^ y) x y := by
  have hw : n = if (ty == 6 || ty == 7) = true then 64 else 32 := by simpa using hn
  -- On a floating-point type, an operation is that of its format.
  have hop (g : Ieee → Bool → Bool → Nat → Nat → Nat → Nat) (h : ty = 10 ∨ ty = 11) :
      g (ieeeOf ty) false (decide (ty = 10 ∨ ty = 11) && r) x y 0 = g (if ty = 11 then fp64 else fp32) false rz x y 0 := by
    rw [ieeeOf_eq h, hr h, decide_eq_true h, Bool.true_and]
  unfold reduceOp
  simp only [isFloat_eq, isSigned_eq, atWidth_eq _ hw, decide_eq_true_eq]
  match op with
  | 0 => exact ite_congr rfl (hop opAdd) fun _ => rfl
  | 1 => exact ite_congr rfl (hop opMin) fun _ => congrArg BitVec.toNat (leastBv_eq _ _ _)
  | 2 => exact ite_congr rfl (hop opMax) fun _ => congrArg BitVec.toNat (mostBv_eq _ _ _)
  | 3 | 4 | _ + 5 => rfl

/-- The identity of a literal (R136). -/
theorem reduceId_eq (ty op n : Nat) (hn : n = if ty = 6 ∨ ty = 7 then 64 else 32) :
    reduceId ty op =
      let signed := ty = 4 ∨ ty = 6
      match op with
      | 0 => if ty = 10 then 0x80000000 else if ty = 11 then 0x8000000000000000 else 0
      | 1 => if ty = 10 then 0x7F800000 else if ty = 11 then 0x7FF0000000000000 else if signed then 2 ^ (n - 1) - 1 else 2 ^ n - 1
      | 2 => if ty = 10 then 0xFF800000 else if ty = 11 then 0xFFF0000000000000 else if signed then 2 ^ (n - 1) else 0
      | 3 => 2 ^ n - 1
      | _ => 0 := by
  have hw : (if (ty == 6 || ty == 7) = true then 64 else 32) = n := by simpa using hn.symm
  have hcase {α : Type} (g : Ieee → α) (u v w : α) (hu : g fp32 = u) (hv : g fp64 = v) :
      (if ty = 10 ∨ ty = 11 then g (ieeeOf ty) else w) = if ty = 10 then u else if ty = 11 then v else w := by
    subst hu hv
    by_cases h10 : ty = 10
    · subst h10; rfl
    · by_cases h11 : ty = 11
      · subst h11; rfl
      · simp [h10, h11]
  unfold reduceId
  simp only [isFloat_eq, isSigned_eq, hw, decide_eq_true_eq]
  match op with
  | 0 => exact hcase (·.signBit true) _ _ _ (by decide) (by decide)
  | 1 => exact hcase (·.infBits false) _ _ _ (by decide) (by decide)
  | 2 => exact hcase (·.infBits true) _ _ _ (by decide) (by decide)
  | 3 | _ + 4 => rfl

/-- The value of a list of 32 made lane by lane. -/
theorem getD_lanes (f : Nat → Nat) {l : Nat} (hl : l < 32) : ((List.range 32).map f).getD l 0 = f l := by
  simp [List.getD, hl]

/-- What lane l brings: its operand, flushed where the type is floating-point, or the identity where it is not active (R136). -/
theorem getD_reduceInputs (c : Cord) (a : Rd) (lit : Word) {l : Nat} (hl : l < 32) :
    (reduceInputs c a lit).getD l 0 =
      let ty := fld lit 4 4
      let x := if red64 lit then (c.rd64 a l).toNat else (c.rd a l).toNat
      if bit c.act l then
        (if ty = 10 ∨ ty = 11 then Ieee.flush (if ty = 11 then fp64 else fp32) (bit c.fpctl (if ty = 11 then 6 else 4)) x else x)
      else reduceId ty (fld lit 0 4) := by
  have hflush (ty x : Nat) (h : ty = 10 ∨ ty = 11) :
      (ieeeOf ty).flush (c.oz ty) x = Ieee.flush (if ty = 11 then fp64 else fp32) (bit c.fpctl (if ty = 11 then 6 else 4)) x := by
    rcases h with rfl | rfl <;> rfl
  simp only [reduceInputs, getD_lanes _ hl, isFloat_eq, decide_eq_true_eq]
  exact ite_congr rfl (fun _ => ite_congr rfl (hflush _ _) fun _ => rfl) fun _ => rfl

theorem exec_redu (d : Wr) (a : Rd) (lit : Word) (s : State) :
    exec (.redu d a lit) s = runRegs (netForm (if red64 lit then 40 else 32) (redVecs d a lit)) s fun c =>
      c.writes d fun _ => redWords lit (reduceTree (redOp c lit) (reduceInputs c a lit)) := rfl

/-- The lane whose value a scan writes in lane l: a scalar D takes that of the highest active one (R138). -/
def Cord.scanLane (c : Cord) (d : Wr) (l : Nat) : Nat := match d with | .v _ => l | .s _ => ((lanesOf c.act).getLast?).getD 0

theorem exec_scan (d : Wr) (a : Rd) (lit : Word) (s : State) :
    exec (.scan d a lit) s = runRegs (netForm (if red64 lit then 40 else 36) (redVecs d a lit)) s fun c =>
      c.writes d fun l => redWords lit ((scanList (redOp c lit)
        (if bit lit 8 then reduceId (fld lit 4 4) (fld lit 0 4) :: (reduceInputs c a lit).dropLast else reduceInputs c a lit)).getD
          (c.scanLane d l) 0) := by
  cases d <;> rfl

theorem scanLane_lt {c : Cord} {d : Wr} {l : Nat} (hl : l ∈ c.runLanes d) : c.scanLane d l < 32 := by
  cases d with
  | v n => exact (mem_lanesOf.1 hl).1
  | s n =>
    cases h : (lanesOf c.act).getLast? with
    | none => simp [Cord.scanLane, h]
    | some k => simpa [Cord.scanLane, h] using (mem_lanesOf.1 (List.mem_of_getLast? h)).1

/-- The inputs of a scan: with the literal's bit 8 each lane takes those before it (R138). -/
theorem getD_scanInputs (x : List Nat) (e : Nat) (hx : x.length = 32) (b : Bool) {l : Nat} (hl : l < 32) :
    (if b then e :: x.dropLast else x).getD l 0 = if b then (if l = 0 then e else x.getD (l - 1) 0) else x.getD l 0 := by
  cases b
  · rfl
  · match l with
    | 0 => rfl
    | l + 1 =>
      have h : x.dropLast[l]? = x[l]? := by rw [List.getElem?_dropLast, if_pos (by omega)]
      exact congrArg (·.getD 0) h

/-! The order in which lanes are combined (R137, R138). -/

/-- One stage of the tree of R137, at distance e. -/
def treeStage (op : Nat → Nat → Nat) (x : List Nat) (e : Nat) : List Nat :=
  (List.range 32).map fun l => if l % (2 * e) = 0 then op (x.getD l 0) (x.getD (l + e) 0) else x.getD l 0

/-- One stage of the scan of R138, at distance e. -/
def scanStage (op : Nat → Nat → Nat) (x : List Nat) (e : Nat) : List Nat :=
  (List.range 32).map fun l => if e ≤ l then op (x.getD (l - e) 0) (x.getD l 0) else x.getD l 0

theorem reduceTree_stages (op : Nat → Nat → Nat) (x : List Nat) :
    reduceTree op x = (((List.range 5).map (2 ^ ·)).foldl (treeStage op) x).getD 0 0 := rfl

theorem scanList_stages (op : Nat → Nat → Nat) (x : List Nat) : scanList op x = ((List.range 5).map (2 ^ ·)).foldl (scanStage op) x := rfl

/-- After k stages of the tree, lane l holds the tree of 2^k lanes from l on, for l a multiple of 2^k. -/
theorem treeStages_getD {op : Nat → Nat → Nat} {x : List Nat} {t : Nat → Nat → Nat} (h0 : ∀ l < 32, x.getD l 0 = t 0 l)
    (hs : ∀ k l, t (k + 1) l = op (t k l) (t k (l + 2 ^ k))) :
    ∀ k ≤ 5, ∀ l < 32, l % 2 ^ k = 0 → (((List.range k).map (2 ^ ·)).foldl (treeStage op) x).getD l 0 = t k l
  | 0, _, l, hl, _ => h0 l hl
  | k + 1, hk, l, hl, hm => by
    have ih := treeStages_getD h0 hs k (by omega)
    have h2 : 2 * 2 ^ k ∣ l := by rw [← pow_succ']; exact Nat.dvd_of_mod_eq_zero hm
    have hd : 2 ^ k ∣ l := Dvd.dvd.trans (Dvd.intro_left 2 rfl) h2
    -- The partner's lane is one of the 32, which the next multiple of the double distance does not pass.
    have hp : l + 2 ^ k < 32 := by
      have h32 : 2 * 2 ^ k ∣ 32 := by rw [← pow_succ']; exact pow_dvd_pow 2 hk
      have := Nat.le_of_dvd (by omega) (Nat.dvd_sub h32 h2)
      have := Nat.two_pow_pos k
      omega
    rw [List.range_succ, List.map_append, List.foldl_append, List.map_singleton, List.foldl_cons, List.foldl_nil, treeStage, getD_lanes _ hl,
      if_pos (Nat.mod_eq_zero_of_dvd h2), ih l hl (Nat.mod_eq_zero_of_dvd hd), ih _ hp (Nat.mod_eq_zero_of_dvd (Nat.dvd_add hd dvd_rfl)), hs]

/-- After k stages of the scan, lane l holds what the lanes up to it have come to. -/
theorem scanStages_getD {op : Nat → Nat → Nat} {x : List Nat} {t : Nat → Nat → Nat} (h0 : ∀ l < 32, x.getD l 0 = t 0 l)
    (hs : ∀ k l, t (k + 1) l = if 2 ^ k ≤ l then op (t k (l - 2 ^ k)) (t k l) else t k l) :
    ∀ k, ∀ l < 32, (((List.range k).map (2 ^ ·)).foldl (scanStage op) x).getD l 0 = t k l
  | 0, l, hl => h0 l hl
  | k + 1, l, hl => by
    have ih := scanStages_getD h0 hs k
    rw [List.range_succ, List.map_append, List.foldl_append, List.map_singleton, List.foldl_cons, List.foldl_nil, scanStage, getD_lanes _ hl,
      ih l hl, ih (l - 2 ^ k) (Nat.lt_of_le_of_lt (Nat.sub_le l _) hl), hs]

theorem reduceTree_eq {op : Nat → Nat → Nat} {x : List Nat} {t : Nat → Nat → Nat} (h0 : ∀ l < 32, x.getD l 0 = t 0 l)
    (hs : ∀ k l, t (k + 1) l = op (t k l) (t k (l + 2 ^ k))) : reduceTree op x = t 5 0 :=
  (reduceTree_stages op x).trans (treeStages_getD h0 hs 5 le_rfl 0 (by decide) rfl)

theorem scanList_getD {op : Nat → Nat → Nat} {x : List Nat} {t : Nat → Nat → Nat} (h0 : ∀ l < 32, x.getD l 0 = t 0 l)
    (hs : ∀ k l, t (k + 1) l = if 2 ^ k ≤ l then op (t k (l - 2 ^ k)) (t k l) else t k l) {l : Nat} (hl : l < 32) :
    (scanList op x).getD l 0 = t 5 l :=
  (congrArg (·.getD l 0) (scanList_stages op x)).trans (scanStages_getD h0 hs 5 l hl)

end Sys2Proof.Machine

namespace Sys2Proof

open Machine Claims

/-- Settles O19: the vote by `voteResult_eq` and `bit_merge`. -/
theorem shuffleAndVoteResults : Obligations.ShuffleAndVoteResults := by
  unfold Obligations.ShuffleAndVoteResults
  intro d a b lit f dist from_ p all r k
  have hr (c : Cord) : voteResult c a (fld lit 0 2) = r c := voteResult_eq c a _
  refine ⟨?shfl, ?shfld, ?vote⟩
  case shfl => exact computes_of_runRegs fun _ => rfl
  case shfld =>
    have hl (c : Cord) (l : Nat) : shfldLane (c.src b l) l = from_ c l := shfldLane_eq ..
    exact computes_of_eq (g := fun c => c.writes32 d fun l => c.rd a (shfldLane (c.src b l) l)) (fun _ => rfl) fun c => by simp only [hl]
  case vote =>
    intro s hc
    refine ⟨(s.cord.kreg k &&& ~~~s.cord.act) ||| (maskWhere (voteMask (r s.cord) (fld lit 0 2)) &&& s.cord.act), ?_, fun l => ?_⟩
    · refine (exec_vote d a lit s).trans ((runRegs_done hc _).trans ?_)
      simp only [hr]
      rfl
    · rw [bit_merge]
      rfl

/-- Settles O20: the orders are `reduceTree_eq` and `scanList_getD`, the operations and identities `reduceOp_eq` and `reduceId_eq`. -/
theorem reductionAndScanResults : Obligations.ReductionAndScanResults := by
  unfold Obligations.ReductionAndScanResults
  intro d a lit wide vs ty op float signed fp oz rz n idle lane whole least most join tree along words place
  have hop (c : Cord) : redOp c lit = join c := by
    funext x y
    refine reduceOp_eq ty op x y n (fun h => ?_) rfl
    change bit c.fpctl (2 * (ty - 8) + 1) = bit c.fpctl (if ty = 11 then 7 else 5)
    rcases h with h | h <;> rw [h] <;> rfl
  have hid : reduceId ty op = idle := reduceId_eq ty op n rfl
  have hin (c : Cord) (l : Nat) (hl : l < 32) : (reduceInputs c a lit).getD l 0 = lane c l :=
    (getD_reduceInputs c a lit hl).trans (ite_congr rfl (fun _ => rfl) fun _ => hid)
  have htree (c : Cord) : reduceTree (redOp c lit) (reduceInputs c a lit) = tree c 5 0 := by
    rw [hop]
    exact reduceTree_eq (t := tree c) (hin c) fun _ _ => rfl
  have halong (c : Cord) (l : Nat) (hl : l < 32) :
      (scanList (redOp c lit) (if bit lit 8 then reduceId ty op :: (reduceInputs c a lit).dropLast else reduceInputs c a lit)).getD l 0 =
        along c 5 l := by
    rw [hop, hid]
    refine scanList_getD (t := along c) (fun l hl => ?_) (fun _ _ => rfl) hl
    rw [getD_scanInputs _ _ (by simp [reduceInputs]) _ hl, hin c l hl, hin c (l - 1) (by omega)]
    rfl
  refine ⟨?redu, ?scan⟩
  case redu =>
    refine computes_of_eq (exec_redu d a lit) fun c => ?_
    rw [htree]
    rfl
  case scan =>
    have hplace (c : Cord) (l : Nat) : c.scanLane d l = place c l := rfl
    refine computes_of_eq (exec_scan d a lit) fun c => writes_congr fun l hl => ?_
    rw [halong c _ (scanLane_lt hl), hplace]
    rfl

end Sys2Proof
end

section
/-! Acquires (R202, R203): what the start of one leaves of the cords, and the read that it sends. -/

namespace Sys2Proof.Machine

open Claims

/-- What of a cord the reads of an acquire leave alone. -/
def Cord.stand (c : Cord) : Nat × Bool × Wait × BitVec 8 := (c.cid, c.live, c.wait, c.epoch)

/-- Between s and t only reads are sent: time, motifs and what each cord stands at are as they were. -/
structure Steady (s t : State) : Prop where
  cycle : t.cycle = s.cycle
  motif : t.motif = s.motif
  motifs : t.motifs = s.motifs
  cord : t.cord.stand = s.cord.stand
  cords : t.cords.map Cord.stand = s.cords.map Cord.stand

namespace Steady
variable {s t u : State}

theorem refl (s : State) : Steady s s := ⟨rfl, rfl, rfl, rfl, rfl⟩

theorem trans (h : Steady s t) (k : Steady t u) : Steady s u :=
  ⟨k.cycle.trans h.cycle, k.motif.trans h.motif, k.motifs.trans h.motifs, k.cord.trans h.cord, k.cords.trans h.cords⟩

theorem onCord {f : Cord → Cord} (c : Nat) (s : State) (hf : ∀ x, (f x).stand = x.stand) : Steady s (s.onCord c f) := by
  have h (x : Cord) : (if x.cid = c then f x else x).stand = x.stand := by split <;> simp [hf]
  exact ⟨rfl, rfl, rfl, h s.cord, by simp [State.onCord, State.mapCords, Function.comp_def, h]⟩

/-- Two changes of a cord that together make it stand as a third does. -/
theorem onCord_onCord {f g h : Cord → Cord} (c : Nat) (s : State) (hf : ∀ x, (f x).cid = x.cid) (hs : ∀ x, (g (f x)).stand = (h x).stand) :
    Steady (s.onCord c h) ((s.onCord c f).onCord c g) := by
  have key (x : Cord) : (if (if x.cid = c then f x else x).cid = c then g (if x.cid = c then f x else x) else if x.cid = c then f x else x).stand =
      (if x.cid = c then h x else x).stand := by
    by_cases hx : x.cid = c <;> simp [hx, hf, hs]
  exact ⟨rfl, rfl, rfl, key s.cord, by simp [State.onCord, State.mapCords, Function.comp_def, key]⟩

/-- Which cord a number finds, among all or among the live, does not change. -/
theorem find? (h : Steady s t) (p : Nat × Bool × Wait × BitVec 8 → Bool) :
    ((t.cord :: t.cords).find? fun x => p x.stand).map Cord.stand = ((s.cord :: s.cords).find? fun x => p x.stand).map Cord.stand := by
  have key (v : State) : ((v.cord :: v.cords).find? fun x => p x.stand).map Cord.stand = (v.cord.stand :: v.cords.map Cord.stand).find? p := by
    rw [← List.map_cons, List.find?_map]
    rfl
  rw [key, key, h.cord, h.cords]

theorem findCord (h : Steady s t) (c : Nat) : (t.findCord c).map Cord.stand = (s.findCord c).map Cord.stand :=
  h.find? fun x => x.2.1 && x.1 == c

theorem cordRec (h : Steady s t) (c : Nat) : (t.cordRec c).map Cord.stand = (s.cordRec c).map Cord.stand := h.find? fun x => x.1 == c

theorem findMotif (h : Steady s t) (m : Nat) : t.findMotif m = s.findMotif m := by
  unfold State.findMotif State.allMotifs
  rw [h.motif, h.motifs]

theorem setDue (c e : Nat) (s : State) : Steady s (s.setDue c e) := by
  unfold State.setDue
  split
  · exact refl s
  · exact onCord c s fun _ => rfl

theorem sendFill (c e tok : Nat) (s : State) : Steady s (s.sendFill c e tok) := by
  unfold State.sendFill
  split
  · exact refl s
  · exact (setDue c e s).trans ⟨rfl, rfl, rfl, rfl, rfl⟩

theorem sendReads (c tok : Nat) (r : Refresh) (s : State) : Steady s (s.sendReads c tok r) := by
  unfold State.sendReads
  split
  · exact refl s
  · extract_lets lines least t
    have ht : Steady s t := foldl_keeps (Steady s) _ _ (fun u f h => h.trans (setDue c f.1 u)) s (refl s)
    exact ht.trans ⟨rfl, rfl, rfl, rfl, rfl⟩

theorem setOp (c : Nat) (o : Op) (left : Nat) (k : OpKind) (s : State) : Steady s (s.setOp c o left k) := by
  unfold State.setOp
  exact onCord c s fun _ => rfl

theorem resendRun (c : Nat) (x : Cord) (o : Op) (s : State) : Steady s (s.resendRun c x o) := by
  unfold State.resendRun
  split
  · extract_lets es asked
    split
    · exact refl s
    · have hc : Steady s (s.cancel asked) := ⟨rfl, rfl, rfl, rfl, rfl⟩
      exact (hc.trans (setOp ..)).trans (sendReads ..)
  · exact refl s

theorem resendFills (c : Nat) (s : State) : Steady s (s.resendFills c) := by
  unfold State.resendFills
  extract_lets filling fills opens jobs gone t u
  have ht : Steady s t := foldl_keeps (Steady s) _ _ (fun v f h => h.trans (sendFill c f.1 f.2 v)) _ ⟨rfl, rfl, rfl, rfl, rfl⟩
  have hu : Steady s u := foldl_keeps (Steady s) _ _ (fun v j h => h.trans (sendReads c j.1 _ v)) t ht
  split
  · exact hu
  next x _ => exact foldl_keeps (Steady s) _ _ (fun v o h => h.trans (resendRun c x o v)) u hu

end Steady

theorem sends_afterPaths (core : Nat) (homes : List Nat) (d : Nat) (e : Event) (s : State) : Sends s (s.afterPaths core homes d e) d e := by
  have hdue (a : Nat) (ps : List (Nat × Nat × Nat)) : a ≤ ps.foldl (fun m p => max m p.2.2) a :=
    foldl_keeps (a ≤ ·) _ _ (fun m p h => Nat.le_trans h (Nat.le_max_left _ _)) a le_rfl
  exact ⟨_, List.mem_append_right _ (List.mem_singleton_self _), rfl, Nat.le_trans (Nat.le_add_right _ _) (hdue _ _)⟩

/-- The reads of an acquire are one event, sent now (R198). -/
theorem sends_sendReads {c tok : Nat} {r : Refresh} {s : State} (h : (s.findCord c).isSome = true) :
    Sends s (s.sendReads c tok r) 0 (.acquireComplete c tok r) := by
  unfold State.sendReads
  split
  next hn => rw [hn] at h; cases h
  next x _ =>
    extract_lets lines least t
    have ht : t.cycle = s.cycle := (foldl_keeps (Steady s) _ _ (fun u f h => h.trans (Steady.setDue c f.1 u)) s (Steady.refl s)).cycle
    obtain ⟨d, hd, he, hle⟩ := sends_afterPaths x.core (lines.map t.homeOf).eraseDups least (.acquireComplete c tok r) t
    exact ⟨d, hd, he, by omega⟩

/-- A cord with the epoch of a new acquire. -/
def Cord.advanced (c : Cord) : Cord := { c with epoch := c.epoch + 1 }

theorem steady_beginAcquire (c tok : Nat) (s : State) : Steady (s.onCord c Cord.advanced) (s.beginAcquire c tok) := by
  unfold State.beginAcquire State.beginAcquireOf
  dsimp only
  have hr : Steady (s.onCord c Cord.advanced) _ := Steady.resendFills c _
  split
  · exact hr
  · exact hr.trans (Steady.sendReads ..)

/-- An acquire of a live cord sends its read. -/
theorem sends_beginAcquire {c tok : Nat} {s : State} (h : (s.findCord c).isSome = true) :
    ∃ g, Sends s (s.beginAcquire c tok) 0 (.acquireComplete c tok g) := by
  unfold State.beginAcquire State.beginAcquireOf
  dsimp only
  have hr : Steady (s.onCord c Cord.advanced) ((s.onCord c Cord.advanced).resendFills c) := Steady.resendFills c _
  have hf : (((s.onCord c Cord.advanced).resendFills c).findCord c).isSome = true := by
    rw [← Option.isSome_map (f := Cord.stand), hr.findCord, Option.isSome_map, findCord_onCord c c Cord.advanced s (fun _ => rfl) (fun _ => rfl)]
    simpa using h
  change ∃ g, Sends s (match ((s.onCord c Cord.advanced).resendFills c).findCord c with | none => _ | some x => _) 0 _
  split
  next hn => rw [hn] at hf; cases hf
  next x hx => exact ⟨_, sends_of_cycle (sends_sendReads hf) hr.cycle⟩

/-- A cord that waited and now acquires with the form of a token (R178, R188). -/
def Cord.acquiring (tok : Nat) (c : Cord) : Cord := { c with wait := .acquire tok, epoch := c.epoch + 1 }

/-- The same cord before its epoch advances, with the form that it waits for. -/
def Cord.woken (tok : Nat) (kind : OpKind) (c : Cord) : Cord :=
  { c with ops := c.ops ++ [{ tok := tok, left := 1, kind := kind }], wait := .acquire tok }

theorem steady_wakeAcquire (c : Nat) (kind : OpKind) (s : State) :
    Steady (s.onCord c (Cord.acquiring s.fresh)) (s.wakeAcquire c kind) := by
  have hw : Steady (s.onCord c (Cord.acquiring s.fresh)) ((s.onCord c (Cord.woken s.fresh kind)).tick.onCord c Cord.advanced) :=
    (Steady.onCord_onCord (f := Cord.woken s.fresh kind) (g := Cord.advanced) (h := Cord.acquiring s.fresh) c s (fun _ => rfl) fun _ => rfl).trans
      ⟨rfl, rfl, rfl, rfl, rfl⟩
  exact hw.trans (steady_beginAcquire c s.fresh _)

/-- A live cord that goes on with an acquire has its read sent. -/
theorem sends_wakeAcquire {c : Nat} {s : State} (kind : OpKind) (h : (s.findCord c).isSome = true) :
    ∃ g, Sends s (s.wakeAcquire c kind) 0 (.acquireComplete c s.fresh g) := by
  have hf : ((s.onCord c (Cord.woken s.fresh kind)).tick.findCord c).isSome = true := by
    have := findCord_onCord c c (Cord.woken s.fresh kind) s (fun _ => rfl) (fun _ => rfl)
    change ((s.onCord c (Cord.woken s.fresh kind)).findCord c).isSome = true
    rw [this, if_pos rfl, Option.isSome_map, h]
  obtain ⟨g, hg⟩ := sends_beginAcquire (tok := s.fresh) hf
  exact ⟨g, hg⟩

/-- The focused cord, when it goes on with an acquire (R188). -/
theorem wakeAcquire_focus (kind : OpKind) (s : State) :
    (s.wakeAcquire s.cord.cid kind).cord.wait = .acquire s.fresh ∧ (s.wakeAcquire s.cord.cid kind).cord.epoch = s.cord.epoch + 1 := by
  have h := (steady_wakeAcquire s.cord.cid kind s).cord
  have hs : (s.onCord s.cord.cid (Cord.acquiring s.fresh)).cord = s.cord.acquiring s.fresh := if_pos rfl
  rw [hs] at h
  exact ⟨congrArg (·.2.2.1) h, congrArg (·.2.2.2) h⟩

/-! Cords that a release lets go. -/

/-- Cord c has gone on with an acquire. -/
def State.Acquires (s : State) (c : Nat) : Prop := ∃ z tok, s.cordRec c = some z ∧ z.wait = .acquire tok

/-- Between s and t no cord vanishes, and one that acquires still does. -/
def LetsGo (s t : State) : Prop :=
  (∀ c, (s.cordRec c).isSome = true → (t.cordRec c).isSome = true) ∧ ∀ c, s.Acquires c → t.Acquires c

theorem cordRec_wakeAcquire (c : Nat) (kind : OpKind) (s : State) (j : Nat) :
    ((s.wakeAcquire c kind).cordRec j).map Cord.stand =
      if j = c then (s.cordRec c).map fun x => (x.acquiring s.fresh).stand else (s.cordRec j).map Cord.stand := by
  rw [(steady_wakeAcquire c kind s).cordRec, cordRec_onCord c j (Cord.acquiring s.fresh) s fun _ => rfl]
  split
  · rw [Option.map_map]; rfl
  · rfl

theorem acquires_iff {s : State} {c : Nat} : s.Acquires c ↔ ∃ z tok, (s.cordRec c).map Cord.stand = some z ∧ z.2.2.1 = .acquire tok := by
  constructor
  · rintro ⟨z, tok, hz, hw⟩
    exact ⟨z.stand, tok, by rw [hz]; rfl, hw⟩
  · rintro ⟨_, tok, hz, hw⟩
    obtain ⟨y, hy, rfl⟩ := Option.map_eq_some_iff.1 hz
    exact ⟨y, tok, hy, hw⟩

theorem acquires_wakeAcquire {c : Nat} {s : State} (kind : OpKind) (h : (s.cordRec c).isSome = true) : (s.wakeAcquire c kind).Acquires c := by
  obtain ⟨x, hx⟩ := Option.isSome_iff_exists.1 h
  exact acquires_iff.2 ⟨_, s.fresh, by rw [cordRec_wakeAcquire, if_pos rfl, hx]; rfl, rfl⟩

theorem letsGo_wakeAcquire (kind : OpKind) (s : State) (c : Nat) : LetsGo s (s.wakeAcquire c kind) := by
  constructor
  · intro j hj
    rw [← Option.isSome_map (f := Cord.stand), cordRec_wakeAcquire]
    split
    next e => rw [Option.isSome_map, ← e, hj]
    next => rw [Option.isSome_map, hj]
  · intro j hj
    by_cases e : j = c
    · subst e
      obtain ⟨z, tok, hz, _⟩ := hj
      exact acquires_wakeAcquire kind (by rw [hz]; rfl)
    · rw [acquires_iff, cordRec_wakeAcquire, if_neg e, ← acquires_iff]
      exact hj

/-- Each cord of a list that goes on acquires in the end. -/
theorem acquires_of_mem {cs : List Cord} {y : Cord} (hy : y ∈ cs) (kind : OpKind) {s : State} (h : (s.cordRec y.cid).isSome = true) :
    (cs.foldl (fun s c => s.wakeAcquire c.cid kind) s).Acquires y.cid := by
  obtain ⟨t, hst, htu⟩ := foldl_through (R := LetsGo) (fun s => ⟨fun _ h => h, fun _ h => h⟩)
    (fun h k => ⟨fun c hc => k.1 c (h.1 c hc), fun c hc => k.2 c (h.2 c hc)⟩)
    (f := fun s (c : Cord) => s.wakeAcquire c.cid kind) (fun s c => letsGo_wakeAcquire kind s c.cid) hy s
  exact htu.2 _ (acquires_wakeAcquire kind (hst.1 _ h))

theorem findMotif_wakeAll (cs : List Cord) (kind : OpKind) (s : State) (m : Nat) :
    (cs.foldl (fun s c => s.wakeAcquire c.cid kind) s).findMotif m = s.findMotif m :=
  foldl_keeps (fun t : State => t.findMotif m = s.findMotif m) _ _
    (fun t c h => ((steady_wakeAcquire c.cid kind t).findMotif m).trans h) s rfl

theorem mem_cordsOf {s : State} {m : Nat} {y : Cord} :
    y ∈ s.cordsOf m ↔ y.idx < 32 ∧ y ∈ s.cord :: s.cords ∧ y.live = true ∧ y.mid = m := by
  simp only [State.cordsOf, State.allCords, List.mem_flatMap, List.mem_range, List.mem_filter, beq_iff_eq]
  constructor
  · rintro ⟨i, hi, ⟨⟨hy, hl⟩, hm⟩, rfl⟩
    exact ⟨hi, hy, hl, hm⟩
  · rintro ⟨hi, hy, hl, hm⟩
    exact ⟨y.idx, hi, ⟨⟨hy, hl⟩, hm⟩, rfl⟩

end Sys2Proof.Machine
end

section
/-! Stage rings (R185 to R190): each form by what it does, and a publication as it takes effect. -/

namespace Sys2Proof.Machine

open Claims

@[simp] theorem ring_setRing_self (m : Motif) (q : Nat) (r : RingSt) : (m.setRing q r).ring q = r := SMap.get_set_self ..

section
variable {d : Wr} {q : Ring} {b : Rd} {s : State}

/-- The ring, as slot H is handed out to the cord of a number (R187). -/
def RingSt.handOut (r : RingSt) (idx : Nat) : RingSt :=
  { r with st := SMap.set 0 r.st r.h 1, sp := SMap.set false r.sp r.h r.hp, own := SMap.set 0 r.own r.h idx,
           h := (r.h + 1) % 8, hp := if (r.h + 1) % 8 = 0 then !r.hp else r.hp }

/-- Slot k of the ring is cord c's to publish, in phase p (R188). -/
def RingSt.Publishable (r : RingSt) (c : Cord) (k : Nat) (p : Bool) : Prop :=
  r.dcl = true ∧ c.role = r.prod ∧ SMap.get 0 r.st k = 1 ∧ SMap.get false r.sp k = p ∧ SMap.get 0 r.own k = c.idx

/-- Slot k is published in phase p (R188). -/
def RingSt.Published (r : RingSt) (k : Nat) (p : Bool) : Prop := SMap.get 0 r.st k = 2 ∧ SMap.get false r.sp k = p

/-- A ring form is refused (R189, R344). -/
def ringRefused (q : Ring) (s : State) : Out := .next (s.raise .ringState ((s.motif.ring q.val).query.setWidth 64))

section
variable (hc : Form.check { lat := .i4, vecs := wrVecs d 1 } s = none)
include hc

theorem exec_sracq_refused (h : (s.motif.ring q.val).dcl = false ∨ s.cord.role ≠ (s.motif.ring q.val).prod) :
    exec (.sracq d q) s = ringRefused q s := by
  change execSracq d q s = _
  exact runForm_trap hc (if_pos (by simpa using h))

theorem exec_sracq_stalled (hd : (s.motif.ring q.val).dcl = true) (hr : s.cord.role = (s.motif.ring q.val).prod)
    (hs : SMap.get 0 (s.motif.ring q.val).st (s.motif.ring q.val).h ≠ 0) : exec (.sracq d q) s = stalled s ⟨3, q.val, 0⟩ := by
  change execSracq d q s = _
  exact runForm_stall hc ((if_neg (by simp [hd, hr])).trans (if_pos hs))

theorem exec_sracq (hd : (s.motif.ring q.val).dcl = true) (hr : s.cord.role = (s.motif.ring q.val).prod)
    (hs : SMap.get 0 (s.motif.ring q.val).st (s.motif.ring q.val).h = 0) :
    exec (.sracq d q) s = .next (Form.issued { lat := .i4, vecs := wrVecs d 1 } { s with
      motif := s.motif.setRing q.val ((s.motif.ring q.val).handOut s.cord.idx),
      agenda := s.agenda ++ fixed s 4 (s.cord.writes32 d fun _ =>
        BitVec.ofNat 32 ((s.motif.ring q.val).h + if (s.motif.ring q.val).hp then 8 else 0)) }) := by
  change execSracq d q s = _
  exact runForm_done hc ((if_neg (by simp [hd, hr])).trans ((if_neg (by simp [hs])).trans (congrArg Res.done (write_eq .i4 _ _))))

theorem exec_srqry_refused (h : (s.motif.ring q.val).dcl = false) : exec (.srqry d q) s = ringRefused q s := by
  change execSrqry d q s = _
  exact runForm_trap hc (if_pos (by simpa using h))

theorem exec_srqry (hd : (s.motif.ring q.val).dcl = true) :
    exec (.srqry d q) s = .next (Form.issued { lat := .i4, vecs := wrVecs d 1 } { s with
      agenda := s.agenda ++ fixed s 4 (s.cord.writes32 d fun _ => (s.motif.ring q.val).query) }) := by
  change execSrqry d q s = _
  exact runForm_done hc ((if_neg (by simp [hd])).trans (congrArg Res.done (write_eq .i4 _ _)))

end

section
variable (hc : Form.check { lat := .n, vecs := rdVecs b 1 } s = none)
include hc

theorem exec_srpub_refused (h : ¬(s.motif.ring q.val).Publishable s.cord ((s.cord.once b).toNat % 8) (bit (s.cord.once b) 3)) :
    exec (.srpub q b) s = ringRefused q s := by
  change execSrpub q b s = _
  simp only [RingSt.Publishable, not_and_or, Bool.not_eq_true] at h
  exact runForm_trap hc (if_pos (h.imp (fun e => by simp [e]) id))

theorem exec_srpub (h : (s.motif.ring q.val).Publishable s.cord ((s.cord.once b).toNat % 8) (bit (s.cord.once b) 3)) :
    exec (.srpub q b) s = .next (Form.issued { lat := .n, vecs := rdVecs b 1 } (s.release (.publish q.val ((s.cord.once b).toNat % 8)) 0)) := by
  obtain ⟨hd, hr, hs, hp, ho⟩ := h
  change execSrpub q b s = _
  refine runForm_done hc (if_neg ?_)
  rintro (h | h | h | h | h)
  exacts [absurd hd (by simpa using h), h hr, h hs, h hp, h ho]

theorem exec_srwait_refused (h : (s.motif.ring q.val).dcl = false ∨ s.cord.role ≠ (s.motif.ring q.val).cons) :
    exec (.srwait q b) s = ringRefused q s := by
  change execSrwait q b s = _
  exact runForm_trap hc (if_pos (by simpa using h))

theorem exec_srwait_published (hd : (s.motif.ring q.val).dcl = true) (hr : s.cord.role = (s.motif.ring q.val).cons)
    (hs : (s.motif.ring q.val).Published ((s.cord.once b).toNat % 8) (bit (s.cord.once b) 3)) :
    exec (.srwait q b) s = .next (Form.issued { lat := .n, vecs := rdVecs b 1 } (s.wakeAcquire s.cord.cid .wakeWait)) := by
  change execSrwait q b s = _
  exact runForm_done hc ((if_neg (by simp [hd, hr])).trans (if_pos hs))

theorem exec_srwait_waits (hd : (s.motif.ring q.val).dcl = true) (hr : s.cord.role = (s.motif.ring q.val).cons)
    (hs : ¬(s.motif.ring q.val).Published ((s.cord.once b).toNat % 8) (bit (s.cord.once b) 3)) :
    exec (.srwait q b) s = .next (Form.issued { lat := .n, vecs := rdVecs b 1 } { s with
      cord := { s.cord with wait := .srwait q.val ((s.cord.once b).toNat % 8) (bit (s.cord.once b) 3) } }) := by
  change execSrwait q b s = _
  exact runForm_done hc ((if_neg (by simp [hd, hr])).trans (if_neg hs))

theorem exec_srfree_refused (h : (s.motif.ring q.val).dcl = false ∨ s.cord.role ≠ (s.motif.ring q.val).cons ∨
      ¬(s.motif.ring q.val).Published ((s.cord.once b).toNat % 8) (bit (s.cord.once b) 3)) : exec (.srfree q b) s = ringRefused q s := by
  change execSrfree q b s = _
  simp only [RingSt.Published, not_and_or] at h
  exact runForm_trap hc (if_pos (h.imp (fun e => by simp [e]) id))

/-- An srfree behind pending wait-full loads stands in the cord's order of releases; without one the slot is free at once (R188). -/
theorem exec_srfree (hd : (s.motif.ring q.val).dcl = true) (hr : s.cord.role = (s.motif.ring q.val).cons)
    (hs : (s.motif.ring q.val).Published ((s.cord.once b).toNat % 8) (bit (s.cord.once b) 3)) :
    exec (.srfree q b) s = .next (Form.issued { lat := .n, vecs := rdVecs b 1 }
      (if ∃ w ∈ s.motif.wf, w.cord = s.cord.cid then s.release (.free q.val ((s.cord.once b).toNat % 8) (bit (s.cord.once b) 3)) 0
       else { s with motif := s.motif.freeSlot q.val ((s.cord.once b).toNat % 8) (bit (s.cord.once b) 3) })) := by
  obtain ⟨hs, hp⟩ := hs
  change execSrfree q b s = _
  refine runForm_done hc ((if_neg ?_).trans ?_)
  · rintro (h | h | h | h)
    exacts [absurd hd (by simpa using h), h hr, h hs, h hp]
  · by_cases h : ∃ w ∈ s.motif.wf, w.cord = s.cord.cid
    · rw [if_pos h]
      exact if_pos (by simpa using h)
    · rw [if_neg h]
      exact if_neg (by simpa using h)

end

end

theorem ring_freeSlot {m : Motif} {q k : Nat} {p : Bool} (h : (m.ring q).Published k p) : SMap.get 0 ((m.freeSlot q k p).ring q).st k = 0 := by
  have hf : m.freeSlot q k p = m.setRing q { m.ring q with st := SMap.set 0 (m.ring q).st k 0 } := if_pos h
  rw [hf, ring_setRing_self, SMap.get_set_self]

/-- A release that is due leaves the cord's order and takes effect (R201). -/
theorem exec_releaseTakesEffect {s : State} {c : Nat} {x : Cord} {e : Release} (hn : s.now = some (.releaseTakesEffect c))
    (hx : s.cordRec c = some x) (he : s.relDue x = some e) :
    exec .releaseTakesEffect s = .next (e.kind.apply x (s.onCord c fun x => { x with rels := x.rels.erase e })) := by
  change execReleaseTakesEffect s = _
  unfold execReleaseTakesEffect
  rw [hn]
  dsimp only
  rw [hx]
  dsimp only
  rw [he]

/-- The slot of a publication is published, and the cords that wait for it acquire (R188). -/
theorem publishSlot_publishes {s : State} {mid q k : Nat} {m : Motif} (hm : s.findMotif mid = some m) :
    (∃ m', (s.publishSlot mid q k).findMotif mid = some m' ∧ SMap.get 0 (m'.ring q).st k = 2) ∧
    ∀ w y, s.cordRec w = some y → y.live = true → y.mid = mid → y.idx < 32 → y.wait = .srwait q k (SMap.get false (m.ring q).sp k) →
      (s.publishSlot mid q k).Acquires w := by
  unfold State.publishSlot
  rw [hm]
  dsimp only
  constructor
  · refine ⟨m.setRing q { m.ring q with st := SMap.set 0 (m.ring q).st k 2 }, ?_, by rw [ring_setRing_self, SMap.get_set_self]⟩
    rw [findMotif_wakeAll, findMotif_onMotif mid mid (fun x => x.setRing q { m.ring q with st := SMap.set 0 (m.ring q).st k 2 }) s fun _ => rfl,
      if_pos rfl, hm]
    rfl
  · intro w y hy hl hmid hidx hw
    have hw' : y.cid = w := by simpa using List.find?_some hy
    subst hw'
    refine acquires_of_mem (List.mem_filter.2 ⟨mem_cordsOf.2 ⟨hidx, List.mem_of_find?_eq_some hy, hl, hmid⟩, by simp [hw]⟩) _ ?_
    change (s.cordRec y.cid).isSome = true
    rw [hy]
    rfl

/-- A publication that takes effect (R188, R201). -/
theorem exec_publication {s : State} {c q k : Nat} {x : Cord} {m : Motif} {e : Release} (hn : s.now = some (.releaseTakesEffect c))
    (hx : s.cordRec c = some x) (he : s.relDue x = some e) (hk : e.kind = .publish q k) (hm : s.findMotif x.mid = some m) :
    ∃ t m', exec .releaseTakesEffect s = .next t ∧ t.findMotif x.mid = some m' ∧ SMap.get 0 (m'.ring q).st k = 2 ∧
      ∀ w y, s.cordRec w = some y → y.live = true → y.mid = x.mid → y.idx < 32 → y.wait = .srwait q k (SMap.get false (m.ring q).sp k) →
        t.Acquires w := by
  have hex := exec_releaseTakesEffect hn hx he
  rw [hk] at hex
  generalize hs' : (s.onCord c fun x => { x with rels := x.rels.erase e }) = s' at hex
  have hm' : s'.findMotif x.mid = some m := hs' ▸ hm
  obtain ⟨⟨m', hf, hst⟩, hwake⟩ := publishSlot_publishes (q := q) (k := k) hm'
  refine ⟨_, m', hex, hf, hst, fun w y hy hl hmid hidx hw => ?_⟩
  -- The cord is as it was but for the release that has left its order.
  obtain ⟨y', hy', hg⟩ := (hs' ▸ KeepsOf.onCord (g := fun y => (y.live, y.mid, y.idx, y.wait)) c s (fun _ => rfl) fun _ => rfl :
    KeepsOf (fun y => (y.live, y.mid, y.idx, y.wait)) s s') w y hy
  simp only [Prod.mk.injEq] at hg
  obtain ⟨hl', hmid', hidx', hw'⟩ := hg
  exact hwake w y' hy' (hl'.trans hl) (hmid'.trans hmid) (hidx' ▸ hidx) (hw'.trans hw)

end Sys2Proof.Machine
end

section
/-! chain (R139 to R143): the checks of its descriptor, its issue and the steps of its sequencer. -/

namespace Sys2Proof.Machine

open Claims

/-! The descriptor (R139 to R141). -/

/-- Bytes that a chain may touch: of the motif's pillow, outside the ring control blocks and the bobbin area (R141). -/
def Motif.Open (m : Motif) (o n : Nat) : Prop :=
  o + n ≤ m.pb ∧ ¬(m.hasRings = true ∧ o < m.pb - 128 + 128 ∧ m.pb - 128 < o + n) ∧ ∀ x, m.ba = some x → ¬(o < x + 2064 ∧ x < o + n)

/-- The same as the descriptor's check has it. -/
def Motif.chainInside (m : Motif) (o n : Nat) : Bool :=
  decide (o + n ≤ m.pb) &&
    !touches ((if m.hasRings then [(m.pb - 128, 128)] else []) ++ match m.ba with | some b => [(b, 2064)] | none => []) o n

theorem touches_iff {l : List (Nat × Nat)} {o n : Nat} : touches l o n = true ↔ ∃ x ∈ l, o < x.1 + x.2 ∧ x.1 < o + n := by simp [touches]

theorem chainInside_iff (m : Motif) (o n : Nat) : m.chainInside o n = true ↔ m.Open o n := by
  simp only [Motif.chainInside, Motif.Open, Bool.and_eq_true, decide_eq_true_eq, Bool.not_eq_true', ← Bool.not_eq_true, touches_iff]
  refine and_congr_right fun _ => ?_
  cases hr : m.hasRings <;> cases hb : m.ba <;> simp

theorem fld_eq {w : Nat} (x : BitVec w) (lo n : Nat) : fld x lo n = x.toNat / 2 ^ lo % 2 ^ n := by rw [fld, Nat.shiftRight_eq_div_pow]

theorem fld_top (w : Word) : fld w 28 4 = w.toNat / 2 ^ 28 := by
  rw [fld_eq]
  have := w.isLt
  omega

theorem fld_source (w : Word) : fld w 26 2 = w.toNat / 2 ^ 26 % 4 := fld_eq w 26 2

/-- An operation word is legal: its source is of the kind that the operation needs, and its other bits are clear (R140, R141). -/
theorem chainOpOk_iff (w : Word) :
    chainOpOk w = true ↔ w.toNat % 2 ^ 26 = 0 ∧ w.toNat / 2 ^ 28 ≤ 7 ∧ w.toNat / 2 ^ 26 % 4 ≠ 2 ∧
      (w.toNat / 2 ^ 28 = 5 ∨ w.toNat / 2 ^ 28 = 6 ↔ w.toNat / 2 ^ 26 % 4 = 3) := by
  have h0 : fld w 0 26 = w.toNat % 2 ^ 26 := by simp [fld]
  simp only [chainOpOk, h0, fld_source, fld_top, Bool.and_eq_true, beq_iff_eq, bne_iff_ne, decide_eq_true_eq, and_assoc]
  rw [Bool.eq_iff_iff]
  simp only [Bool.or_eq_true, beq_iff_eq]

theorem chainN_eq (lit : Word) : chainN lit = lit.toNat % 2 ^ 14 + 1 := by simp [chainN, fld]

theorem chainOps_eq (lit : Word) : chainOps lit = List.range (lit.toNat / 2 ^ 14 % 8 + 1) := congrArg (List.range <| · + 1) (fld_eq lit 14 3)

/-- Some operation of the chain reads the second stream (R140). -/
def UsesSecond (ws : List Word) (lit : Word) : Prop := ∃ i < lit.toNat / 2 ^ 14 % 8 + 1, (ws.getD (4 + i) 0).toNat / 2 ^ 26 % 4 = 0

theorem usesSecond_iff (ws : List Word) (lit : Word) :
    ((chainOps lit).any fun i => fld (ws.getD (4 + i) 0) 26 2 == 0) = true ↔ UsesSecond ws lit := by
  simp only [chainOps_eq, List.any_eq_true, List.mem_range, beq_iff_eq, fld_source]
  rfl

/-- The checks of R141, each by what it asks. -/
theorem chainOk_iff (m : Motif) (o : Nat) (ws : List Word) (lit : Word) :
    m.chainOk o ws lit = true ↔ o % 16 = 0 ∧ m.Open o 80 ∧ (ws.getD 3 0).toNat = 0 ∧
      (∀ i < lit.toNat / 2 ^ 14 % 8 + 1, chainOpOk (ws.getD (4 + i) 0) = true) ∧
      ∀ k, k = 0 ∨ k = 2 ∨ k = 1 ∧ UsesSecond ws lit → (ws.getD k 0).toNat % 4 = 0 ∧ m.Open (ws.getD k 0).toNat (4 * (lit.toNat % 2 ^ 14 + 1)) := by
  have he : m.chainOk o ws lit = (o % 16 == 0 && m.chainInside o 80 && ws.getD 3 0 == 0 &&
      ((chainOps lit).map fun i => ws.getD (4 + i) 0).all chainOpOk &&
      ((ws.getD 0 0).toNat % 4 == 0 && m.chainInside (ws.getD 0 0).toNat (4 * chainN lit)) &&
      ((ws.getD 2 0).toNat % 4 == 0 && m.chainInside (ws.getD 2 0).toNat (4 * chainN lit)) &&
      (!(((chainOps lit).map fun i => ws.getD (4 + i) 0).any fun w => fld w 26 2 == 0) ||
        ((ws.getD 1 0).toNat % 4 == 0 && m.chainInside (ws.getD 1 0).toNat (4 * chainN lit)))) := rfl
  have hz : ws.getD 3 0 = 0 ↔ (ws.getD 3 0).toNat = 0 := ⟨fun h => by rw [h]; rfl, fun h => BitVec.eq_of_toNat_eq h⟩
  have h2 : (((chainOps lit).map fun i => ws.getD (4 + i) 0).any fun w => fld w 26 2 == 0) = true ↔ UsesSecond ws lit := by
    rw [List.any_map]
    exact usesSecond_iff ws lit
  have hop : (((chainOps lit).map fun i => ws.getD (4 + i) 0).all chainOpOk) = true ↔
      ∀ i < lit.toNat / 2 ^ 14 % 8 + 1, chainOpOk (ws.getD (4 + i) 0) = true := by
    simp only [chainOps_eq, List.all_map, List.all_eq_true, List.mem_range, Function.comp_apply]
  rw [he]
  simp only [Bool.and_eq_true, Bool.or_eq_true, Bool.not_eq_true', ← Bool.not_eq_true, beq_iff_eq, chainInside_iff, hz, h2, hop, chainN_eq, and_assoc,
    ← imp_iff_not_or]
  constructor
  · rintro ⟨ha, hi, h3, ho, h0, h0', h2, h2', h1⟩
    refine ⟨ha, hi, h3, ho, ?_⟩
    rintro k (rfl | rfl | ⟨rfl, hu⟩)
    exacts [⟨h0, h0'⟩, ⟨h2, h2'⟩, h1 hu]
  · rintro ⟨ha, hi, h3, ho, hk⟩
    obtain ⟨h0, h0'⟩ := hk 0 (.inl rfl)
    obtain ⟨h2, h2'⟩ := hk 2 (.inr (.inl rfl))
    exact ⟨ha, hi, h3, ho, h0, h0', h2, h2', fun hu => hk 1 (.inr (.inr ⟨rfl, hu⟩))⟩

/-! The issue (R139 to R142). -/

/-- A word of the motif's pillow. -/
def Motif.pilWord (m : Motif) (o : Nat) : Word := BitVec.ofNat 32 (m.pilNum o 4)

/-- The words of a descriptor at o. -/
def Motif.chainWords (m : Motif) (o : Nat) : List Word := (List.range 20).map fun i => m.pilWord (o + 4 * i)

/-- The input words of stream k of a descriptor. -/
def Motif.chainStream (m : Motif) (ws : List Word) (lit : Word) (k : Nat) : List Word :=
  (List.range (lit.toNat % 2 ^ 14 + 1)).map fun j => m.pilWord ((ws.getD k 0).toNat + 4 * j)

section
variable {a : Rd} {lit : Word} {s : State} (hc : Form.check { lat := .v, vecs := rdVecs a 1 } s = none)
include hc

theorem exec_chain_stalled (h : s.cord.chain = true) : exec (.chain a lit) s = stalled s {} := by
  change execChain a lit s = _
  exact runForm_stall hc (if_pos h)

theorem exec_chain_refused (h : s.cord.chain = false)
    (hk : s.motif.chainOk (s.cord.once a).toNat (s.motif.chainWords (s.cord.once a).toNat) lit = false) :
    exec (.chain a lit) s = .next (s.raise .chainDesc (BitVec.ofNat 64 (s.cord.once a).toNat)) := by
  change execChain a lit s = _
  refine runForm_trap hc ((if_neg (by simp [h])).trans (if_pos ?_))
  exact congrArg (! ·) hk

/-- A chain with a legal descriptor copies it, its inputs and fpctl, and its sequencer starts (R139, R142). -/
theorem exec_chain (h : s.cord.chain = false) {_ : Decidable (UsesSecond (s.motif.chainWords (s.cord.once a).toNat) lit)}
    (hk : s.motif.chainOk (s.cord.once a).toNat (s.motif.chainWords (s.cord.once a).toNat) lit = true) :
    exec (.chain a lit) s = .next (Form.issued { lat := .v, vecs := rdVecs a 1 } { s with
      cord := { s.cord with chain := true },
      agenda := s.agenda ++ [⟨s.cycle + 2, .chainComplete s.cord.cid s.cord.flag
        { words := s.motif.chainWords (s.cord.once a).toNat, lit := lit, fz := s.cord.fpctl, j := 0, i := 0, t := [], held := 0,
          in0 := s.motif.chainStream (s.motif.chainWords (s.cord.once a).toNat) lit 0,
          in1 := if UsesSecond (s.motif.chainWords (s.cord.once a).toNat) lit then
            s.motif.chainStream (s.motif.chainWords (s.cord.once a).toNat) lit 1 else [] }⟩] }) := by
  have hstream (k : Nat) : (List.range (chainN lit)).map (fun j => s.motif.pilWord (((s.motif.chainWords (s.cord.once a).toNat).getD k 0).toNat + 4 * j)) =
      s.motif.chainStream (s.motif.chainWords (s.cord.once a).toNat) lit k := by rw [chainN_eq]; rfl
  change execChain a lit s = _
  refine runForm_done hc ((if_neg (by simp [h])).trans ((if_neg ?_).trans ?_))
  · intro hn
    rw [Bool.not_eq_true'] at hn
    exact absurd (hk.symm.trans hn) (by decide)
  · simp only [← usesSecond_iff, ← hstream]
    rfl

end

end Sys2Proof.Machine
end

section
/-! The sequencer of a chain (R141 to R143). -/

namespace Sys2Proof.Machine

open Claims

theorem leNat_lt : ∀ bs : List Byte, leNat bs < 256 ^ bs.length
  | [] => Nat.one_pos
  | b :: bs => by
    have := leNat_lt bs
    have := b.isLt
    rw [leNat, List.length_cons, pow_succ]
    omega

@[simp] theorem toNat_pilWord (m : Motif) (o : Nat) : (m.pilWord o).toNat = m.pilNum o 4 := by
  refine Nat.mod_eq_of_lt (Nat.lt_of_lt_of_eq (leNat_lt _) ?_)
  simp

/-! Inputs and results of a block. -/

/-- Where stream k of a chain starts; the output is stream 2 (R140). -/
def chainAt (job : ChainJob) (k : Nat) : Nat := (job.words.getD k 0).toNat

/-- Stream k and the output are the same or have no byte in common (R142). -/
def ChainApart (job : ChainJob) (k : Nat) : Prop :=
  chainAt job k = chainAt job 2 ∨ chainAt job k + 4 * chainN job.lit ≤ chainAt job 2 ∨ chainAt job 2 + 4 * chainN job.lit ≤ chainAt job k

/-- Elements of the block in hand. -/
def chainLen (job : ChainJob) : Nat := min 32 (chainN job.lit - job.j)

theorem chainPartly_of_apart {job : ChainJob} {k : Nat} (h : ChainApart job k) : chainPartly job k = false := by
  have he : chainPartly job k = (chainAt job k != chainAt job 2 && touches [(chainAt job 2, 4 * chainN job.lit)] (chainAt job k) (4 * chainN job.lit)) := rfl
  rw [he]
  unfold ChainApart at h
  simp only [touches, List.any_cons, List.any_nil, Bool.or_false, Bool.and_eq_false_iff, bne_eq_false_iff_eq, decide_eq_false_iff_not]
  omega

/-- An input of a stream that is apart from the output is the word that stands there (R142). -/
theorem chainInput_of_apart {job : ChainJob} {k : Nat} (h : ChainApart job k) (m : Motif) (j n : Nat) :
    chainInput job m k j n = m.pilWord (chainAt job k + 4 * j) := by
  unfold chainInput
  rw [chainPartly_of_apart h]
  rfl

/-- An operation on element j is that of its word, on the running value or the first stream and on the second stream or a constant (R141). -/
theorem chainApply_of_apart {job : ChainJob} (h0 : ChainApart job 0) (h1 : ChainApart job 1) (m : Motif) (n j : Nat) (t : Word) :
    chainApply job m n j t = BitVec.ofNat 32 (chainOp job.fz ((job.words.getD (4 + job.i) 0).toNat / 2 ^ 28)
      (if job.i = 0 then fp32.flush (bit job.fz 4) (m.pilNum (chainAt job 0 + 4 * j) 4) else t.toNat)
      (if (job.words.getD (4 + job.i) 0).toNat / 2 ^ 26 % 4 = 0 then fp32.flush (bit job.fz 4) (m.pilNum (chainAt job 1 + 4 * j) 4)
       else (job.words.getD (12 + job.i) 0).toNat)) := by
  simp only [chainApply, chainInput_of_apart h0, chainInput_of_apart h1, toNat_pilWord, fld_top, fld_source]
  rfl

/-- The operations of R141, each rounded once and flushed, or of the sign alone. -/
theorem chainOp_eq (fz : Byte) (k a b : Nat) :
    chainOp fz k a b =
      let rounded (y : Num) : Nat := fp32.flush (bit fz 5) (fp32.encode true .rne false y)
      let y := fp32.decode a
      let z := fp32.decode b
      match k with
      | 0 => rounded (Num.add y z)
      | 1 => rounded (Num.add y z.neg)
      | 2 => rounded (Num.mul y z)
      | 3 => fp32.flush (bit fz 5) (fp32.minmax false a b)
      | 4 => fp32.flush (bit fz 5) (fp32.minmax true a b)
      | 5 => a % 2 ^ 31
      | 6 => (a + 2 ^ 31) % 2 ^ 32
      | _ => rounded (Num.add z y.neg) :=
  match k with
  | 0 | 1 | 2 | 3 | 4 | 5 | 6 | _ + 7 => rfl

/-- The results of the operation in hand, element by element of the block. -/
def chainResults (job : ChainJob) (m : Motif) (n : Nat) : List Word :=
  (List.range (chainLen job)).map fun k => chainApply job m n (job.j + k) (job.t.getD k 0)

theorem results_eq (job : ChainJob) (m : Motif) (n : Nat) :
    ((chainBlock job).zipIdx.map fun (j, k) => chainApply job m n j (job.t.getD k 0)) = chainResults job m n := by
  unfold chainBlock chainResults chainLen
  apply List.ext_getElem <;> simp

/-! The output of a block. -/

/-- n words written one after another from o on. -/
def Motif.putWords (o : Nat) (v : Nat → Word) (n : Nat) (m : Motif) : Motif :=
  (List.range n).foldl (fun m k => m.pilPut (o + 4 * k) (leBytes (v k).toNat 4)) m

theorem putWords_succ (o : Nat) (v : Nat → Word) (n : Nat) (m : Motif) :
    m.putWords o v (n + 1) = (m.putWords o v n).pilPut (o + 4 * n) (leBytes (v n).toNat 4) := by
  simp [Motif.putWords, List.range_succ]

theorem putWords_mid (o : Nat) (v : Nat → Word) (n : Nat) (m : Motif) : (m.putWords o v n).mid = m.mid := by
  induction n with
  | zero => rfl
  | succ n ih => rw [putWords_succ]; exact ih

theorem get_pilPut_ne (m : Motif) {o a : Nat} {bs : List Byte} (h : a < o ∨ o + bs.length ≤ a) :
    SMap.get 0 (m.pilPut o bs).pil a = SMap.get 0 m.pil a := by
  refine SMap.get_setAll_ne _ _ _ _ fun w hw => ?_
  obtain ⟨i, hi, rfl⟩ := (mem_cellsAt ..).1 hw
  dsimp only
  omega

theorem get_pilPut (m : Motif) {o i : Nat} {bs : List Byte} (h : i < bs.length) : SMap.get 0 (m.pilPut o bs).pil (o + i) = bs.getD i 0 :=
  SMap.get_setAll_mem _ _ _ (cellsAt_nodup o bs) (o + i, bs.getD i 0) ((mem_cellsAt ..).2 ⟨i, h, rfl⟩)

theorem get_putWords_ne (m : Motif) {o a : Nat} (v : Nat → Word) {n : Nat} (h : a < o ∨ o + 4 * n ≤ a) :
    SMap.get 0 (m.putWords o v n).pil a = SMap.get 0 m.pil a := by
  induction n with
  | zero => rfl
  | succ n ih =>
    rw [putWords_succ, get_pilPut_ne _ (by rw [length_leBytes]; omega)]
    exact ih (by omega)

theorem pilNum_pilPut (m : Motif) (o : Nat) (x : Word) : (m.pilPut o (leBytes x.toNat 4)).pilNum o 4 = x.toNat := by
  have h : (List.range 4).map (fun i => SMap.get 0 (m.pilPut o (leBytes x.toNat 4)).pil (o + i)) = leBytes x.toNat 4 := by
    refine List.ext_getElem (by simp) fun i h1 h2 => ?_
    rw [List.getElem_map, List.getElem_range, get_pilPut m h2, List.getD_eq_getElem _ _ h2]
  rw [Motif.pilNum, h, leNat_leBytes]
  exact Nat.mod_eq_of_lt x.isLt

/-- Each word stands where it was written. -/
theorem pilNum_putWords (m : Motif) (o : Nat) (v : Nat → Word) {n k : Nat} (h : k < n) : (m.putWords o v n).pilNum (o + 4 * k) 4 = (v k).toNat := by
  induction n with
  | zero => omega
  | succ n ih =>
    rw [putWords_succ]
    by_cases e : k = n
    · rw [e, pilNum_pilPut]
    · rw [← ih (by omega)]
      refine congrArg leNat (List.map_congr_left fun i hi => get_pilPut_ne _ (.inl ?_))
      have := List.mem_range.1 hi
      omega

/-- The words of a block are written where its elements stand in the output (R143). -/
theorem putBlock_eq (job : ChainJob) (out : Nat) (v : Nat → Word) (m : Motif) :
    ((chainBlock job).zip ((List.range (chainLen job)).map v)).foldl (fun m (j, x) => m.pilPut (out + 4 * j) (leBytes x.toNat 4)) m =
      m.putWords (out + 4 * job.j) v (chainLen job) := by
  unfold chainBlock
  rw [← chainLen, List.zip_map', List.foldl_map]
  simp only [Motif.putWords, Nat.mul_add, Nat.add_assoc]

/-! The steps. -/

section
variable (c : Nat) (f : Flag) (job : ChainJob) (d : Nat) (x : Cord) (m : Motif) (u : State)

/-- The state with as many free values taken as a step of the sequencer may use. -/
def State.chainDrawn : State := { u with fresh := u.fresh + 2 * chainN job.lit }

/-- The state in which the words of the block in hand have been written to motif mid. -/
def State.chainWritten (mid : Nat) : State :=
  (u.chainDrawn job).onMotif mid fun y =>
    y.putWords (chainAt job 2 + 4 * job.j) (fun k => chainApply job m u.fresh (job.j + k) (job.t.getD k 0)) (chainLen job)

theorem chainStep_more (h : job.i < job.lit.toNat / 2 ^ 14 % 8) :
    State.chainStep c f job d x m u =
      (u.chainDrawn job).after d (.chainComplete c f { job with i := job.i + 1, t := chainResults job m u.fresh, held := 0 }) := by
  unfold State.chainStep
  simp only [results_eq, chainOps_eq, List.length_range]
  rw [if_pos (by omega)]
  rfl

theorem chainStep_block (h : job.lit.toNat / 2 ^ 14 % 8 ≤ job.i) (hj : job.j + 32 < chainN job.lit) :
    State.chainStep c f job d x m u =
      (u.chainWritten job m x.mid).after d (.chainComplete c f { job with j := job.j + 32, i := 0, t := [], held := 0 }) := by
  unfold State.chainStep
  simp only [results_eq, chainOps_eq, List.length_range]
  rw [if_neg (by omega), if_pos hj]
  simp only [chainResults, putBlock_eq]
  rfl

theorem chainStep_last (h : job.lit.toNat / 2 ^ 14 % 8 ≤ job.i) (hj : chainN job.lit ≤ job.j + 32) :
    State.chainStep c f job d x m u =
      State.complete c f [] ((u.chainWritten job m x.mid).onCord c fun x => { x with chain := false }) := by
  unfold State.chainStep
  simp only [results_eq, chainOps_eq, List.length_range]
  rw [if_neg (by omega), if_neg (by omega)]
  simp only [chainResults, putBlock_eq]
  rfl

variable {c m u}

theorem findMotif_chainWritten {mid : Nat} (hm : u.findMotif mid = some m) :
    (u.chainWritten job m mid).findMotif mid = some (m.putWords (chainAt job 2 + 4 * job.j)
      (fun k => chainApply job m u.fresh (job.j + k) (job.t.getD k 0)) (chainLen job)) := by
  unfold State.chainWritten
  rw [findMotif_onMotif _ _ _ _ (putWords_mid _ _ _), if_pos rfl]
  change Option.map _ (u.findMotif mid) = _
  rw [hm]
  rfl

theorem cores_chainStep : (State.chainStep c f job d x m u).cores = u.cores := by
  rcases Nat.lt_or_ge job.i (job.lit.toNat / 2 ^ 14 % 8) with h | h
  · rw [chainStep_more _ _ _ _ _ _ _ h]; rfl
  · rcases Nat.lt_or_ge (job.j + 32) (chainN job.lit) with hj | hj
    · rw [chainStep_block _ _ _ _ _ _ _ h hj]; rfl
    · rw [chainStep_last _ _ _ _ _ _ _ h hj]; rfl

end

section
variable {c : Nat} {f : Flag} {job : ChainJob} {x : Cord} {m : Motif} {s : State} (hn : s.now = some (.chainComplete c f job))
  (hx : s.cordRec c = some x) (hm : s.findMotif x.mid = some m)
include hn hx hm

theorem exec_chainComplete : exec .chainComplete s = .next (
    if SMap.get 0 (s.coreOf x.core).vecFree x.slot < s.cycle then State.chainStep c f job 1 x m (s.takeVec x.core x.slot s.cycle)
    else if 1 ≤ job.held ∧ SMap.get 0 (s.coreOf x.core).vecFree x.slot ≤ s.cycle then
      State.chainStep c f job 2 x m (s.takeVec x.core x.slot (s.cycle + 1))
    else s.after 1 (.chainComplete c f { job with held := job.held + 1 })) := by
  change execChainComplete s = _
  unfold execChainComplete
  rw [hn]
  dsimp only
  rw [hx]
  dsimp only
  rw [hm]

/-- A sequencer that does not hold the slot's vector unit tries again in the next cycle (R143). -/
theorem exec_chainComplete_waits (h : ¬(SMap.get 0 (s.coreOf x.core).vecFree x.slot < s.cycle ∨
      1 ≤ job.held ∧ SMap.get 0 (s.coreOf x.core).vecFree x.slot ≤ s.cycle)) :
    exec .chainComplete s = .next (s.after 1 (.chainComplete c f { job with held := job.held + 1 })) := by
  obtain ⟨h1, h2⟩ := not_or.1 h
  rw [exec_chainComplete hn hx hm, if_neg h1, if_neg h2]

/-- One that holds it takes it for the cycle, or until the next one, and does its step (R143). -/
theorem exec_chainComplete_steps (h : SMap.get 0 (s.coreOf x.core).vecFree x.slot < s.cycle ∨
      1 ≤ job.held ∧ SMap.get 0 (s.coreOf x.core).vecFree x.slot ≤ s.cycle) :
    ∃ d n, 1 ≤ d ∧ s.cycle ≤ n ∧ exec .chainComplete s = .next (State.chainStep c f job d x m (s.takeVec x.core x.slot n)) := by
  rw [exec_chainComplete hn hx hm]
  by_cases h1 : SMap.get 0 (s.coreOf x.core).vecFree x.slot < s.cycle
  · exact ⟨1, s.cycle, le_rfl, le_rfl, by rw [if_pos h1]⟩
  · exact ⟨2, s.cycle + 1, by omega, by omega, by rw [if_neg h1, if_pos (h.resolve_left h1)]⟩

end

@[simp] theorem takeVec_cycle (core slot n : Nat) (s : State) : (s.takeVec core slot n).cycle = s.cycle := by simp [State.takeVec]

theorem cordRec_takeVec (core slot n : Nat) (s : State) (c : Nat) : (s.takeVec core slot n).cordRec c = s.cordRec c := by
  simp [State.takeVec, State.cordRec]

theorem findMotif_takeVec (core slot n : Nat) (s : State) (m : Nat) : (s.takeVec core slot n).findMotif m = s.findMotif m := by
  simp [State.takeVec, State.findMotif, State.allMotifs]

theorem vecFree_takeVec (core slot n : Nat) (s : State) : SMap.get 0 ((s.takeVec core slot n).coreOf core).vecFree slot = n := by
  unfold State.takeVec
  rw [coreOf_onCore core core (fun k => { k with vecFree := SMap.set 0 k.vecFree slot n }) s fun _ => rfl, if_pos rfl]
  exact SMap.get_set_self ..

theorem sends_after_of_le {s t : State} {n d : Nat} (e : Event) (hc : t.cycle = s.cycle) (h : n ≤ d) : Sends s (t.after d e) n e :=
  ⟨⟨t.cycle + d, e⟩, by simp, rfl, by rw [hc]; exact Nat.add_le_add_left h _⟩

/-- A step of the sequencer (R141, R143): before the block's last operation only its results are kept; the last one writes them, and the
last of the last block ends the chain. -/
theorem chainStep_effect {c : Nat} (f : Flag) (job : ChainJob) {d : Nat} {x : Cord} {m : Motif} {u : State} (hd : 1 ≤ d)
    (hx : u.cordRec c = some x) (hm : u.findMotif x.mid = some m) {v : Nat → Word}
    (hv : ∀ k, chainApply job m u.fresh (job.j + k) (job.t.getD k 0) = v k) :
    ∃ y m', (State.chainStep c f job d x m u).cordRec c = some y ∧ (State.chainStep c f job d x m u).findMotif x.mid = some m' ∧
      (job.i < job.lit.toNat / 2 ^ 14 % 8 → m' = m ∧ y = x ∧ Sends u (State.chainStep c f job d x m u) 1
        (.chainComplete c f { job with i := job.i + 1, t := (List.range (chainLen job)).map v, held := 0 })) ∧
      (job.lit.toNat / 2 ^ 14 % 8 ≤ job.i →
        m' = m.putWords (chainAt job 2 + 4 * job.j) v (chainLen job) ∧
        (job.j + 32 < chainN job.lit → Sends u (State.chainStep c f job d x m u) 1
          (.chainComplete c f { job with j := job.j + 32, i := 0, t := [], held := 0 })) ∧
        (chainN job.lit ≤ job.j + 32 → y.chain = false ∧ y.flagOf f.val = x.flagOf f.val - 1)) := by
  obtain rfl : (fun k => chainApply job m u.fresh (job.j + k) (job.t.getD k 0)) = v := funext hv
  rcases Nat.lt_or_ge job.i (job.lit.toNat / 2 ^ 14 % 8) with h | h
  · rw [chainStep_more _ _ _ _ _ _ _ h]
    exact ⟨x, m, hx, hm, fun _ => ⟨rfl, rfl, sends_after_of_le _ rfl hd⟩, fun h' => absurd h (by omega)⟩
  have hw := findMotif_chainWritten job hm
  rcases Nat.lt_or_ge (job.j + 32) (chainN job.lit) with hj | hj
  · rw [chainStep_block _ _ _ _ _ _ _ h hj]
    exact ⟨x, _, hx, hw, fun h' => absurd h (by omega), fun _ => ⟨rfl, fun _ => sends_after_of_le _ rfl hd, fun hj' => absurd hj (by omega)⟩⟩
  · rw [chainStep_last _ _ _ _ _ _ _ h hj]
    have hy : ((u.chainWritten job m x.mid).onCord c fun x => { x with chain := false }).cordRec c = some { x with chain := false } := by
      rw [cordRec_onCord c c (fun x => { x with chain := false }) _ fun _ => rfl, if_pos rfl]
      change Option.map _ (u.cordRec c) = _
      rw [hx]
      rfl
    exact ⟨_, _, cordRec_complete f [] hy, hw, fun h' => absurd h (by omega),
      fun _ => ⟨rfl, fun hj' => absurd hj (by omega), fun _ => ⟨rfl, flagOf_flagDown { x with chain := false } f.val⟩⟩⟩

end Sys2Proof.Machine
end

section
/-! Stage rings and chain, as the spec has them (R139 to R143, R185 to R190). -/

namespace Sys2Proof

open Machine Claims

/-- Settles O41: the forms of a ring by what each does, publications by `publishSlot_publishes`, the chain's descriptor by `chainOk_iff`, and
its sequencer by the cases of `State.chainStep`. -/
theorem ringsAndChain : Obligations.RingsAndChain := by
  unfold Obligations.RingsAndChain
  refine ⟨?rings, ?publish, ?chain, ?sequencer⟩
  case rings =>
    intro d q b s r v k p fd fb word refuses
    refine ⟨fun hc => ⟨exec_sracq_refused hc, exec_srqry_refused hc, exec_sracq_stalled hc⟩, fun hc => ⟨fun h => ?_, fun h => ?_, fun h => ?_⟩,
      fun hd => ⟨fun hc hr hs => ?_, fun hc hr hs hp ho => ?_, fun hc hr => ⟨fun hs hl => ?_, exec_srwait_waits hc hd hr, fun hs hp => ?_⟩,
        fun hc => exec_srqry hc hd⟩⟩
    · refine exec_srpub_refused hc fun ⟨hd, hr, hs, hp, ho⟩ => ?_
      rcases h with h | h | h | h | h
      exacts [absurd (h.symm.trans hd) (by decide), h hr, h hs, h hp, h ho]
    · exact ⟨exec_srwait_refused hc h, exec_srfree_refused hc (h.imp_right .inl)⟩
    · exact exec_srfree_refused hc (.inr (.inr fun ⟨hs, hp⟩ => h.elim (· hs) (· hp)))
    · exact ⟨_, exec_sracq hc hd hr hs, rfl, rfl, SMap.get_set_self 0 r.st r.h 1, SMap.get_set_self false r.sp r.h r.hp,
        SMap.get_set_self 0 r.own r.h s.cord.idx, fun j hj => SMap.get_set_ne 0 r.st 1 hj⟩
    · refine ⟨_, exec_srpub hc ⟨hd, hr, hs, hp, ho⟩, ?_, _, List.mem_append_right _ (List.mem_singleton_self _), rfl⟩
      rw [release_motif]
      simp [RelKind.outside]
    · have hf : (s.findCord s.cord.cid).isSome = true := by rw [State.findCord, List.find?_cons_of_pos (by simp [hl])]; rfl
      obtain ⟨g, hg⟩ := sends_wakeAcquire .wakeWait hf
      obtain ⟨hw, he⟩ := wakeAcquire_focus .wakeWait s
      exact ⟨_, g, exec_srwait_published hc hd hr hs, hw, he, hg⟩
    · refine ⟨_, exec_srfree hc hd hr ⟨hs, hp⟩, ?_⟩
      by_cases h : ∃ w ∈ s.motif.wf, w.cord = s.cord.cid
      · rw [if_pos h, if_pos h]
        exact ⟨_, List.mem_append_right _ (List.mem_singleton_self _), rfl⟩
      · rw [if_neg h, if_neg h]
        exact ring_freeSlot ⟨hs, hp⟩
  case publish =>
    rintro s c q k x m e hn ⟨hx, _⟩ he hk hm
    obtain ⟨t, m', ht, hm', hst, hw⟩ := exec_publication hn hx he hk hm
    exact ⟨t, m', ht, hm', hst, fun w y ⟨hy, hl⟩ => hw w y hy hl⟩
  case chain =>
    intro a lit s f o word ws stream two n inside at_ legal
    refine ⟨?_, exec_chain_stalled, fun hc h => ⟨exec_chain_refused hc h, fun hk => ?_⟩⟩
    · rw [chainOk_iff]
      simp only [chainOpOk_iff]
      rfl
    · exact exec_chain hc h hk
  case sequencer =>
    intro s c f job x m hn hx hm n at_ num inp apart rounded op w len result free holds
    have hN : chainN job.lit = n := chainN_eq job.lit
    have hlen : chainLen job = len := congrArg (min 32 <| · - job.j) hN
    have happ (k : Nat) (h : apart k) : ChainApart job k := by
      unfold ChainApart
      rw [hN]
      exact h
    refine ⟨exec_chainComplete_waits hn hx hm, fun hh h0 h1 => ?_⟩
    obtain ⟨d, k, hd, hk, he⟩ := exec_chainComplete_steps hn hx hm hh
    have hres (i k : Nat) : chainApply job m i (job.j + k) (job.t.getD k 0) = result k := by
      rw [chainApply_of_apart (happ 0 h0) (happ 1 h1), chainOp_eq]
      rfl
    obtain ⟨y, m', hy, hm', hmore, hlast⟩ := chainStep_effect f job hd ((cordRec_takeVec ..).trans hx) ((findMotif_takeVec ..).trans hm) (hres _)
    rw [hN, hlen] at hlast
    rw [hlen] at hmore
    refine ⟨_, y, m', he, hy, hm', ?_, fun h => ?_, fun h => ?_⟩
    · rw [State.coreOf, cores_chainStep, ← State.coreOf, vecFree_takeVec]
      exact hk
    · obtain ⟨rfl, rfl, hs⟩ := hmore h
      exact ⟨rfl, rfl, sends_of_cycle hs (takeVec_cycle ..)⟩
    · obtain ⟨rfl, hblock, hend⟩ := hlast h
      refine ⟨fun k hk => ?_, fun o (ho : o < chainAt job 2 + _ ∨ chainAt job 2 + _ ≤ o) => ?_, fun hj => sends_of_cycle (hblock hj) (takeVec_cycle ..), hend⟩
      · rw [Nat.mul_add, ← Nat.add_assoc]
        exact pilNum_putWords m (chainAt job 2 + 4 * job.j) result hk
      · exact get_putWords_ne m result (by rw [Nat.mul_add] at ho; omega)

end Sys2Proof
end

section
/-! A wait-full load that is served beside an openv whose number the load's acquire takes (R172, R203, R218). -/

namespace Sys2Proof.Machine

/-- A wait-full load of one lane, pending with flag f0. -/
def pendingLoad : WfLoad := { k := 0, cord := 1, take := false, z := 4, lanes := [(0, 0)], dst := .v 3, wb := 0, flag := 0, due := 17 }

/-- The load's granule is full; its cord has an openv outstanding in its last attempt, under the number that is handed out next. -/
def numberTaken : State :=
  { now := some (.waitFullLoadService 1 0),
    cord := { cid := 1, live := true, mid := 1, eyes := [(2, { st := .filling })], ops := [{ tok := 0, kind := .versioned 2 1 1 0 false }] },
    motif := { mid := 1, fe := [(0, true)], wf := [pendingLoad] } }

/-- The acquire of the load asks for the openv's fills again (R203), which puts the openv in place of every form of its number: of the load
nothing is left outstanding, and no form of the cord has a flag. -/
theorem numberTaken_served :
    ∃ t y, exec .waitFullLoadService numberTaken = .next t ∧ t.cordRec 1 = some y ∧ ∀ o ∈ y.ops, o.flag = none :=
  ⟨_, _, rfl, rfl, by decide⟩

end Sys2Proof.Machine

namespace Sys2Proof

open Machine Claims

/-- Refutes O39: nothing in the statement says that no form of the cord has the number that the load's acquire takes. In `numberTaken` an openv
has it; the load is due, and after its service no outstanding form has its flag. -/
theorem not_pillowAccess : ¬ Obligations.PillowAccess := by
  unfold Obligations.PillowAccess
  rintro ⟨-, -, -, h⟩
  obtain ⟨-, -, service⟩ := h numberTaken
  obtain ⟨-, served⟩ := service 1 0 numberTaken.motif pendingLoad rfl rfl rfl
  obtain ⟨t, -, ht, -, -, -, -, acquires⟩ := served ⟨by decide, by decide, .inl rfl⟩
  obtain ⟨y, -, hy, -, -, o, ho, -, hflag, -⟩ := acquires numberTaken.cord ⟨rfl, rfl⟩
  obtain ⟨t', y', ht', hy', none⟩ := numberTaken_served
  obtain rfl := Host.Outcome.next.inj (ht.symm.trans ht')
  obtain rfl := Option.some.inj (hy.symm.trans hy')
  exact absurd ((none o ho).symm.trans hflag) (by decide)

end Sys2Proof
end

section
/-! Named barriers (R176 to R184): the registration of an arrival, its count, and each form by what it does. -/

namespace Sys2Proof.Machine

open Claims

/-! Registration and count (R177, R178). -/

/-- The barrier once an arrival is counted and reg others are still outstanding: the phase ends when enough are counted and none is
outstanding (R178). -/
def Bar.countTo (b : Bar) (reg : Nat) : Bar :=
  if b.exp ≠ 0 ∧ b.exp ≤ min 127 (b.arr + 1) ∧ reg = 0 then { ph := !b.ph } else { b with arr := min 127 (b.arr + 1), reg := reg }

section
variable {b : Bar} {n : Nat}

theorem register_cord_mismatch {c : Nat} (h : n = 0 ∨ bit b.am c = false ∧ b.exp ≠ 0 ∧ n ≠ b.exp) :
    b.register (some c) n = .mismatch := by
  by_cases h0 : n = 0
  · exact if_pos h0
  · obtain ⟨hc, h⟩ := h.resolve_left h0
    exact (if_neg h0).trans ((if_neg (Bool.eq_false_iff.1 hc)).trans (if_pos h))

theorem register_peer_mismatch (h : n = 0 ∨ b.exp ≠ 0 ∧ n ≠ b.exp) : b.register none n = .mismatch := by
  by_cases h0 : n = 0
  · exact if_pos h0
  · exact (if_neg h0).trans ((if_neg Bool.false_ne_true).trans (if_pos (h.resolve_left h0)))

theorem register_stall {c : Nat} (hn : n ≠ 0) (hc : bit b.am c = true) : b.register (some c) n = .stall :=
  (if_neg hn).trans (if_pos hc)

/-- A cord that has not arrived registers with the phase's count, or sets it as the first (R177). -/
theorem register_cord {c : Nat} (hn : n ≠ 0) (hc : bit b.am c = false) (he : b.exp = 0 ∨ n = b.exp) :
    b.register (some c) n = .ok { b with exp := n, reg := b.reg + 1, am := b.am ||| maskOf [c] } :=
  (if_neg hn).trans ((if_neg (Bool.eq_false_iff.1 hc)).trans (if_neg fun h => he.elim h.1 h.2))

theorem register_peer (hn : n ≠ 0) (he : b.exp = 0 ∨ n = b.exp) :
    b.register none n = .ok { b with exp := n, reg := b.reg + 1 } :=
  (if_neg hn).trans ((if_neg Bool.false_ne_true).trans (if_neg fun h => he.elim h.1 h.2))

theorem complete_count_iff (b : Bar) : b.count.complete = true ↔ b.exp ≠ 0 ∧ b.exp ≤ min 127 (b.arr + 1) ∧ b.reg - 1 = 0 := by
  simp [Bar.complete, Bar.count, and_assoc]

theorem countTo_of_complete (h : b.count.complete = true) : b.countTo (b.reg - 1) = b.count.next :=
  if_pos ((complete_count_iff b).1 h)

theorem countTo_of_not_complete (h : ¬b.count.complete = true) : b.countTo (b.reg - 1) = b.count :=
  if_neg (mt (complete_count_iff b).2 h)

end

@[simp] theorem bar_setBar_self (m : Motif) (i : Nat) (b : Bar) : (m.setBar i b).bar i = b := SMap.get_set_self ..

theorem findMotif_setBar {s : State} {m i : Nat} {x : Motif} (f : Motif → Bar) (hm : s.findMotif m = some x) :
    (s.onMotif m fun y => y.setBar i (f y)).findMotif m = some (x.setBar i (f x)) := by
  rw [findMotif_onMotif m m (fun y => y.setBar i (f y)) s fun _ => rfl, if_pos rfl, hm]
  rfl

/-! A registered arrival is counted, and the phase may end (R178). -/

/-- The cords that the end of a phase lets go: those whose WM bit is set and that wait for it (R178). -/
def State.barWaiters (s : State) (m i : Nat) (wm : Word) : List Cord := (s.cordsOf m).filter fun c => bit wm c.idx && c.wait == .barw i

/-- The barrier changes, and those that waited go on. -/
def State.endPhase (m i : Nat) (b : Bar) (s : State) : State :=
  ((s.onMotif m fun x => x.setBar i b.next).barWaiters m i b.wm).foldl (fun s c => s.wakeAcquire c.cid .wakeBarw)
    (s.onMotif m fun x => x.setBar i b.next)

/-- s with the arrival counted. -/
def State.withArrival (m i : Nat) (s : State) : State := s.onMotif m fun x => x.setBar i (x.bar i).count

theorem countArrival_eq {s : State} {m i : Nat} {x : Motif} (hm : s.findMotif m = some x) :
    s.countArrival m i = if (x.bar i).count.complete = true then (s.withArrival m i).endPhase m i (x.bar i).count else s.withArrival m i := by
  have hc : (s.withArrival m i).findMotif m = some (x.setBar i (x.bar i).count) := findMotif_setBar (fun y => (y.bar i).count) hm
  change State.phaseTest m i (s.withArrival m i) = _
  unfold State.phaseTest
  rw [hc]
  dsimp only
  rw [bar_setBar_self]
  cases (x.bar i).count.complete <;> rfl

theorem findMotif_countArrival {s : State} {m i : Nat} {x : Motif} (hm : s.findMotif m = some x) :
    ∃ x', (s.countArrival m i).findMotif m = some x' ∧ x'.bar i = (x.bar i).countTo ((x.bar i).reg - 1) := by
  have hc : (s.withArrival m i).findMotif m = some (x.setBar i (x.bar i).count) := findMotif_setBar (fun y => (y.bar i).count) hm
  rw [countArrival_eq hm]
  by_cases h : (x.bar i).count.complete = true
  · rw [if_pos h, countTo_of_complete h]
    exact ⟨_, (findMotif_wakeAll ..).trans (findMotif_setBar (fun _ => (x.bar i).count.next) hc), bar_setBar_self ..⟩
  · rw [if_neg h, countTo_of_not_complete h]
    exact ⟨_, hc, bar_setBar_self ..⟩

/-- Between s and t, the phase of barrier b, number i of motif m, ends if it is complete with one arrival more counted and reg still
outstanding, and the cords that waited for it have gone on with an acquire (R178). -/
def PhaseWakes (s t : State) (m i : Nat) (b : Bar) (reg : Nat) : Prop :=
  b.exp ≠ 0 → b.exp ≤ min 127 (b.arr + 1) → reg = 0 → ∀ c y, Runs s c y → y.mid = m → y.idx < 32 → bit b.wm y.idx = true →
    y.wait = .barw i → t.Acquires c

theorem phaseWakes_countArrival {s : State} {m i : Nat} {x : Motif} (hm : s.findMotif m = some x) :
    PhaseWakes s (s.countArrival m i) m i (x.bar i) ((x.bar i).reg - 1) := by
  rintro he ha hr c y ⟨hy, hl⟩ hmid hidx hw hwait
  obtain rfl : y.cid = c := by simpa using List.find?_some hy
  rw [countArrival_eq hm, if_pos ((complete_count_iff _).2 ⟨he, ha, hr⟩)]
  have hmem : y ∈ ((s.withArrival m i).onMotif m fun x' => x'.setBar i (x.bar i).count.next).barWaiters m i (x.bar i).count.wm :=
    List.mem_filter.2 ⟨mem_cordsOf.2 ⟨hidx, List.mem_of_find?_eq_some hy, hl, hmid⟩, by simp [hwait, Bar.count, hw]⟩
  refine acquires_of_mem hmem _ ?_
  change (s.cordRec y.cid).isSome = true
  rw [hy]
  rfl

theorem motif_wakeAll (cs : List Cord) (kind : OpKind) (s : State) : (cs.foldl (fun s c => s.wakeAcquire c.cid kind) s).motif = s.motif :=
  foldl_keeps (fun t : State => t.motif = s.motif) _ _ (fun t c h => (steady_wakeAcquire c.cid kind t).motif.trans h) s rfl

theorem findMotif_focus {s : State} (h : s.motif.mid ≠ 0) : s.findMotif s.motif.mid = some s.motif := by
  simp [State.findMotif, State.allMotifs, h]

theorem onMotif_focus (f : Motif → Motif) (s : State) : (s.onMotif s.motif.mid f).motif = f s.motif := if_pos rfl

/-- An arrival at a barrier of the focused motif is counted there. -/
theorem bar_countArrival_focus {s : State} (h0 : s.motif.mid ≠ 0) (i : Nat) :
    (s.countArrival s.motif.mid i).motif.bar i = (s.motif.bar i).countTo ((s.motif.bar i).reg - 1) := by
  have hc : (s.withArrival s.motif.mid i).motif = s.motif.setBar i (s.motif.bar i).count := onMotif_focus _ s
  rw [countArrival_eq (findMotif_focus h0)]
  by_cases h : (s.motif.bar i).count.complete = true
  · rw [if_pos h, countTo_of_complete h, State.endPhase, motif_wakeAll]
    have he := onMotif_focus (fun x => x.setBar i (s.motif.bar i).count.next) (s.withArrival s.motif.mid i)
    rw [hc] at he
    exact (congrArg (Motif.bar · i) he).trans (bar_setBar_self ..)
  · rw [if_neg h, countTo_of_not_complete h, hc, bar_setBar_self]

/-! The arrivals of the focused cord (R177, R180). -/

theorem barInfo_eq (n : Nat) (b : Bar) : barInfo n b = BitVec.ofNat 64 (n + b.exp * 2 ^ 7) := by
  rw [barInfo, Nat.add_comm, show 2 ^ 7 = 128 from rfl]

/-- The barrier with the arrival of a cord of count n registered (R177). -/
def Bar.arrived (b : Bar) (idx n : Nat) : Bar := { b with exp := n, reg := b.reg + 1, am := b.am ||| maskOf [idx] }

/-- The focused cord's arrival of count n is registered at barrier i of its motif. -/
def State.registered (i n : Nat) (s : State) : State := { s with motif := s.motif.setBar i ((s.motif.bar i).arrived s.cord.idx n) }

theorem bar_registered (i n : Nat) (s : State) : (s.registered i n).motif.bar i = (s.motif.bar i).arrived s.cord.idx n := bar_setBar_self ..

section
variable {i n : Nat} {s : State} {body : State → Res}

theorem arrive_mismatch (h : n = 0 ∨ bit (s.motif.bar i).am s.cord.idx = false ∧ (s.motif.bar i).exp ≠ 0 ∧ n ≠ (s.motif.bar i).exp) :
    s.arrive i n body = .trap .barMismatch (BitVec.ofNat 64 (n + (s.motif.bar i).exp * 2 ^ 7)) := by
  unfold State.arrive
  dsimp only
  rw [register_cord_mismatch h, barInfo_eq]

theorem arrive_stall (hn : n ≠ 0) (h : bit (s.motif.bar i).am s.cord.idx = true) : s.arrive i n body = .stall ⟨2, i, 0⟩ s := by
  unfold State.arrive
  dsimp only
  rw [register_stall hn h]

theorem arrive_registers (hn : n ≠ 0) (hb : bit (s.motif.bar i).am s.cord.idx = false)
    (he : (s.motif.bar i).exp = 0 ∨ n = (s.motif.bar i).exp) : s.arrive i n body = body (s.registered i n) := by
  unfold State.arrive
  dsimp only
  rw [register_cord hn hb he]
  rfl

end

section
variable {k : Sys2Proof.Bar} {n : Imm} {s : State} (hc : Form.check { lat := .n } s = none)
include hc

theorem exec_bara_barw_mismatch {i : Instr} (hi : i = .bara k n ∨ i = .barw k n)
    (h : n.toNat = 0 ∨ bit (s.motif.bar k.val).am s.cord.idx = false ∧ (s.motif.bar k.val).exp ≠ 0 ∧ n.toNat ≠ (s.motif.bar k.val).exp) :
    exec i s = .next (s.raise .barMismatch (BitVec.ofNat 64 (n.toNat + (s.motif.bar k.val).exp * 2 ^ 7))) := by
  rcases hi with rfl | rfl
  · change execBara k n s = _
    exact runForm_trap hc (arrive_mismatch h)
  · change execBarw k n s = _
    exact runForm_trap hc (arrive_mismatch h)

theorem exec_bara_barw_stalled {i : Instr} (hi : i = .bara k n ∨ i = .barw k n) (hn : n.toNat ≠ 0)
    (h : bit (s.motif.bar k.val).am s.cord.idx = true) : exec i s = stalled s ⟨2, k.val, 0⟩ := by
  rcases hi with rfl | rfl
  · change execBara k n s = _
    exact runForm_stall hc (arrive_stall hn h)
  · change execBarw k n s = _
    exact runForm_stall hc (arrive_stall hn h)

theorem exec_barx_mismatch (h : (s.motif.bar k.val).exp = 0) :
    exec (.barx k) s = .next (s.raise .barMismatch (BitVec.ofNat 64 (0 + (s.motif.bar k.val).exp * 2 ^ 7))) := by
  change execBarx k s = _
  rw [← barInfo_eq]
  exact runForm_trap hc (if_pos h)

theorem exec_barx_stalled (he : (s.motif.bar k.val).exp ≠ 0) (h : bit (s.motif.bar k.val).am s.cord.idx = true) :
    exec (.barx k) s = stalled s ⟨2, k.val, 0⟩ := by
  change execBarx k s = _
  exact runForm_stall hc ((if_neg he).trans (arrive_stall he h))

theorem exec_bara (hn : n.toNat ≠ 0) (hb : bit (s.motif.bar k.val).am s.cord.idx = false)
    (he : (s.motif.bar k.val).exp = 0 ∨ n.toNat = (s.motif.bar k.val).exp) :
    exec (.bara k n) s = .next (Form.issued { lat := .n } ((s.registered k.val n.toNat).release (.arrive k.val) 0)) := by
  change execBara k n s = _
  exact runForm_done hc (arrive_registers hn hb he)

/-- barw also sets the cord's WM bit, and the cord waits (R180). -/
theorem exec_barw (hn : n.toNat ≠ 0) (hb : bit (s.motif.bar k.val).am s.cord.idx = false)
    (he : (s.motif.bar k.val).exp = 0 ∨ n.toNat = (s.motif.bar k.val).exp) :
    ∃ m : Motif, exec (.barw k n) s = .next (Form.issued { lat := .n } (State.release (.arrive k.val) 0
        { s with motif := m, cord := { s.cord with wait := .barw k.val } })) ∧
      m.bar k.val = { (s.motif.bar k.val).arrived s.cord.idx n.toNat with wm := (s.motif.bar k.val).wm ||| maskOf [s.cord.idx] } := by
  change ∃ m : Motif, execBarw k n s = _ ∧ _
  refine ⟨_, runForm_done hc (arrive_registers hn hb he), ?_⟩
  rw [bar_setBar_self, bar_registered]
  rfl

/-- barx is counted at its issue, with no wait and no release (R180). -/
theorem exec_barx (hb : bit (s.motif.bar k.val).am s.cord.idx = false) (he : (s.motif.bar k.val).exp ≠ 0) (h0 : s.motif.mid ≠ 0) :
    ∃ t, exec (.barx k) s = .next (Form.issued { lat := .n } t) ∧
      t.motif.bar k.val = Bar.countTo { s.motif.bar k.val with am := (s.motif.bar k.val).am ||| maskOf [s.cord.idx] } (s.motif.bar k.val).reg ∧
      PhaseWakes s t s.motif.mid k.val (s.motif.bar k.val) (s.motif.bar k.val).reg := by
  change ∃ t, execBarx k s = _ ∧ _
  refine ⟨_, runForm_done hc ((if_neg he).trans (arrive_registers he hb (.inr rfl))), ?_, ?_⟩
  · refine (bar_countArrival_focus (s := s.registered k.val (s.motif.bar k.val).exp) h0 k.val).trans ?_
    rw [bar_registered]
    rfl
  · have hw := phaseWakes_countArrival (i := k.val) (findMotif_focus (s := s.registered k.val (s.motif.bar k.val).exp) h0)
    rw [bar_registered] at hw
    exact hw

end

theorem exec_barq {d : Wr} {k : Sys2Proof.Bar} {s : State} (hc : Form.check { lat := .i4, vecs := wrVecs d 1 } s = none) :
    exec (.barq d k) s = .next (Form.issued { lat := .i4, vecs := wrVecs d 1 } { s with
      agenda := s.agenda ++ fixed s 4 (s.cord.writes32 d fun _ => BitVec.ofNat 32
        ((if (s.motif.bar k.val).ph then 2 ^ 31 else 0) + (if bit (s.motif.bar k.val).am s.cord.idx then 2 ^ 30 else 0) +
          (s.motif.bar k.val).exp * 2 ^ 7 + (s.motif.bar k.val).arr)) }) := by
  change execBarq d k s = _
  exact runForm_done hc (congrArg Res.done (write_eq .i4 _ _))

/-! Peer arrivals (R182 to R184). -/

/-- Motif m is one that a peer arrival may name by index i: of the same pattern and cluster, running or saved (R182). -/
def State.MayName (s : State) (i : Nat) (m : Motif) : Prop :=
  m ∈ s.motifs ∧ m.queue = s.motif.queue ∧ m.idx = i ∧ m.core / 16 = s.cord.core / 16 ∧ (m.status = .running ∨ m.status = .saved)

/-- The same as the search of `State.peer` has it. -/
def State.names (s : State) (i : Nat) (m : Motif) : Bool :=
  m.queue == s.motif.queue && m.idx == i && clusterOf m.core == clusterOf s.cord.core && (m.status == .running || m.status == .saved)

theorem mayName_iff {s : State} {i : Nat} {m : Motif} : s.MayName i m ↔ m ∈ s.motifs ∧ s.names i m = true := by
  simp [State.MayName, State.names, clusterOf, and_assoc]

theorem peer_eq_none {s : State} {i : Nat} (h : ∀ m, ¬s.MayName i m) : s.peer i = none :=
  List.find?_eq_none.2 fun m hm ht => h m (mayName_iff.2 ⟨hm, ht⟩)

theorem peer_eq_some {s : State} {i : Nat} {m : Motif} (h : s.MayName i m) (only : ∀ m', s.MayName i m' → m' = m) : s.peer i = some m := by
  change s.motifs.find? (s.names i) = some m
  obtain ⟨hm, hn⟩ := mayName_iff.1 h
  cases hp : s.motifs.find? (s.names i) with
  | none => exact absurd hn (List.find?_eq_none.1 hp m hm)
  | some m' => rw [only m' (mayName_iff.2 ⟨List.mem_of_find?_eq_some hp, List.find?_some hp⟩)]

/-- The count of a peer arrival, bits 6 to 0 of its literal (R184). -/
theorem fld_count (lit : Word) : fld lit 0 7 = lit.toNat % 128 := by simp [fld]

theorem peerBar_eq {m : Motif} (h : m.status ≠ .saved) (i : Nat) : m.peerBar i = m.bar i := if_neg h

theorem bar_setPeerBar {m : Motif} (h : m.status ≠ .saved) (i : Nat) (b : Bar) : (m.setPeerBar i b).bar i = b := by
  rw [Motif.setPeerBar, if_neg h, bar_setBar_self]

theorem setPeerBar_mid (m : Motif) (i : Nat) (b : Bar) : (m.setPeerBar i b).mid = m.mid := by
  unfold Motif.setPeerBar
  split <;> rfl

theorem findMotif_setPeerBar {s : State} {j i : Nat} {m : Motif} (b : Bar) (hm : s.findMotif j = some m) :
    (s.onMotif j fun y => y.setPeerBar i b).findMotif j = some (m.setPeerBar i b) := by
  rw [findMotif_onMotif j j (fun y => y.setPeerBar i b) s fun y => setPeerBar_mid y i b, if_pos rfl, hm]
  rfl

/-- A release of the focused cord changes of the motifs only whether the focused one is past its idempotent part. -/
theorem findMotif_release {j : Nat} {m : Motif} (k : RelKind) (own : Nat) {s : State} (h : s.findMotif j = some m) :
    ∃ p, (s.release k own).findMotif j = some { m with pastIdend := p } := by
  rw [State.findMotif, State.allMotifs, List.find?_filter] at h ⊢
  by_cases hj : s.motif.mid ≠ 0 ∧ s.motif.mid = j
  · rw [List.find?_cons_of_pos (by simpa using hj)] at h
    cases h
    exact ⟨_, List.find?_cons_of_pos (by simpa [release_motif] using hj)⟩
  · rw [List.find?_cons_of_neg (by simpa using hj)] at h
    exact ⟨m.pastIdend, (List.find?_cons_of_neg (by simpa [release_motif] using hj)).trans h⟩

section
variable {k : Sys2Proof.Bar} {b : Rd} {lit : Word} {s : State} {m : Motif}
  (hc : Form.check { lat := .n, vecs := rdVecs b 1 } s = none)
include hc

theorem exec_peerarr_unnamed (h : s.peer (s.cord.once b).toNat = none) :
    exec (.peerarr k b lit) s = .next (s.raise .peerBad (BitVec.ofNat 64 (s.cord.once b).toNat)) := by
  change execPeerarr k b lit s = _
  refine runForm_trap hc ?_
  dsimp only
  rw [h]

theorem exec_peerarr_mismatch (h : s.peer (s.cord.once b).toNat = some m)
    (hm : lit.toNat % 128 = 0 ∨ (m.peerBar k.val).exp ≠ 0 ∧ lit.toNat % 128 ≠ (m.peerBar k.val).exp) :
    exec (.peerarr k b lit) s = .next (s.raise .barMismatch (BitVec.ofNat 64 (lit.toNat % 128 + (m.peerBar k.val).exp * 2 ^ 7))) := by
  change execPeerarr k b lit s = _
  refine runForm_trap hc ?_
  dsimp only
  rw [h, fld_count]
  dsimp only
  rw [register_peer_mismatch hm, barInfo_eq]

theorem exec_peerarr_stalled (h : s.peer (s.cord.once b).toNat = some m) (hn : lit.toNat % 128 ≠ 0)
    (he : (m.peerBar k.val).exp = 0 ∨ lit.toNat % 128 = (m.peerBar k.val).exp) (hs : m.status = .saved)
    (hf : 64 ≤ s.bufferUse (s.cord.core / 16)) : exec (.peerarr k b lit) s = stalled s ⟨9, k.val, 0⟩ := by
  change execPeerarr k b lit s = _
  refine runForm_stall hc ?_
  dsimp only
  rw [h, fld_count]
  dsimp only
  rw [register_peer hn he]
  exact if_pos ⟨hs, hf⟩

/-- At a running motif the arrival registers at its barrier, and stands in the cord's order of releases (R184). -/
theorem exec_peerarr (h : s.peer (s.cord.once b).toNat = some m) (hm : s.findMotif m.mid = some m) (hr : m.status = .running)
    (hn : lit.toNat % 128 ≠ 0) (he : (m.bar k.val).exp = 0 ∨ lit.toNat % 128 = (m.bar k.val).exp) :
    ∃ t m', exec (.peerarr k b lit) s = .next (Form.issued { lat := .n, vecs := rdVecs b 1 } t) ∧ t.findMotif m.mid = some m' ∧
      m'.bar k.val = { m.bar k.val with exp := lit.toNat % 128, reg := (m.bar k.val).reg + 1 } ∧
      ∃ r ∈ t.cord.rels, r.kind = .peer m.mid k.val (lit.toNat % 128) := by
  have hs : m.status ≠ .saved := by simp [hr]
  obtain ⟨p, hp⟩ := findMotif_release (.peer m.mid k.val (lit.toNat % 128)) 0
    (findMotif_setPeerBar { m.bar k.val with exp := lit.toNat % 128, reg := (m.bar k.val).reg + 1 } hm)
  change ∃ t m', execPeerarr k b lit s = _ ∧ _
  refine ⟨_, _, runForm_done hc ?_, hp, bar_setPeerBar hs _ _, _, List.mem_append_right _ (List.mem_singleton_self _), rfl⟩
  dsimp only
  rw [h, fld_count]
  dsimp only
  rw [peerBar_eq hs, register_peer hn he]
  exact if_neg fun hf => hs hf.1

end

end Sys2Proof.Machine
end

section
/-! Releases (R188, R201): which one is due, and what each does to messages, to barriers and to buffered arrivals. -/

namespace Sys2Proof.Machine

open Claims

/-! The release that is due (R201). -/

theorem isFree_iff (k : RelKind) : k.isFree = true ↔ ∃ q n p, k = .free q n p := by cases k <;> simp [RelKind.isFree]

theorem isCall_iff (k : RelKind) : k.isCall = true ↔ ∃ y, k = .coll y := by cases k <;> simp [RelKind.isCall]

theorem follows_iff (k : RelKind) : k.follows = true ↔ (∃ m n, k = .follow m n) ∨ ∃ a n, k = .followAtom a n := by
  cases k <;> simp [RelKind.follows]

theorem inTurn_notify {m : Motif} {n : Nat} {t0 t2 : BitVec 16} {ls : Word} : (RelKind.notify n t0 t2 ls).inTurn m = true ↔ m.noticed = n :=
  beq_iff_eq

/-- stcnt counts nothing but pending releases (R201). -/
def Cord.OnlyReleases (c : Cord) : Prop := c.stcnt = (c.rels.map (·.own)).sum

theorem stSettled_iff (c : Cord) : c.stSettled = true ↔ c.OnlyReleases := beq_iff_eq

/-- Release r of cord x may take effect in motif m (R201): a store or an atomic that follows once the drains before it have written its words,
another once the loads before it are served and nothing else is counted, in its turn. -/
def State.MayEffect (s : State) (x : Cord) (m : Motif) (r : Release) : Prop :=
  (r.kind.follows = true → s.drainsPast x.cid r.kind = true) ∧
  (¬r.kind.follows = true → (r.loads = [] ∧ x.OnlyReleases) ∧ r.kind.inTurn m = true)

/-- The cases of a release that is due: a call, in a motif that is discarded; an srfree behind no load; or the oldest of the others. -/
inductive State.ReleaseDue (s : State) (x : Cord) (m : Motif) (r : Release) : Prop where
  | call (hd : m.discard = true) (hr : First x.rels (fun e => e.kind.isCall = true) r) (hs : x.OnlyReleases)
  | free (hd : m.discard = false) (hr : First x.rels (fun e => e.kind.isFree = true ∧ e.loads = []) r)
  | oldest (hd : m.discard = false) (hr : First x.rels (fun e => ¬e.kind.isFree = true) r) (he : s.MayEffect x m r)

theorem first_of_find? {α : Type} {xs : List α} {x : α} {q : α → Bool} {p : α → Prop} (h : xs.find? q = some x) (hq : ∀ y, q y = true ↔ p y) :
    First xs p x := by
  obtain ⟨hx, older, newer, rfl, ho⟩ := List.find?_eq_some_iff_append.1 h
  exact ⟨older, newer, rfl, (hq x).1 hx, fun y hy => by rw [← hq]; simpa using ho y hy⟩

theorem of_relDue {s : State} {x : Cord} {r : Release} (h : s.relDue x = some r) :
    ∃ m, s.findMotif x.mid = some m ∧ m.status = .running ∧ s.ReleaseDue x m r := by
  unfold State.relDue at h
  split at h
  next => cases h
  next m hm =>
    refine ⟨m, hm, ?_⟩
    split at h
    next => cases h
    next hrun =>
      refine ⟨of_not_not hrun, ?_⟩
      split at h
      next hd =>
        obtain ⟨e, he, hs⟩ := Option.bind_eq_some_iff.1 h
        split at hs
        next hset =>
          cases hs
          exact .call hd (first_of_find? he fun _ => Iff.rfl) ((stSettled_iff x).1 hset)
        next => cases hs
      next hd =>
        have hd := Bool.eq_false_iff.2 hd
        split at h
        next e he =>
          cases h
          exact .free hd (first_of_find? he fun y => by simp)
        next =>
          obtain ⟨e, he, hs⟩ := Option.bind_eq_some_iff.1 h
          split at hs
          next hmay =>
            cases hs
            refine .oldest hd (first_of_find? he fun y => by simp) ⟨fun hf => ?_, fun hf => ?_⟩
            · simpa [hf] using hmay
            · simpa [hf, stSettled_iff] using hmay
          next => cases hs

/-! Messages that leave the core (R198, R207). -/

/-- The message that an entry of the order of releases holds back, for the home of its line. -/
def RelKind.message : RelKind → Option Event
  | .store m | .follow m _ => some (.storeAtHome m)
  | .atom a | .followAtom a _ => some (.atomicAtHome a)
  | _ => none

theorem message_isSome {k : RelKind} (h : (∃ m, k = .store m) ∨ (∃ a, k = .atom a) ∨ (∃ m n, k = .follow m n) ∨ ∃ a n, k = .followAtom a n) :
    ∃ e, k.message = some e := by
  rcases h with ⟨m, rfl⟩ | ⟨a, rfl⟩ | ⟨m, n, rfl⟩ | ⟨a, n, rfl⟩ <;> exact ⟨_, rfl⟩

/-- As it takes effect the message leaves on its path, and that is all. -/
theorem apply_message {k : RelKind} {e : Event} (h : k.message = some e) (x : Cord) (s : State) :
    ∃ core home d, k.apply x s = s.afterPath core home d e := by
  cases k <;> cases h <;> exact ⟨_, _, _, rfl⟩

/-! A release as it takes effect. -/

/-- A cord without a release that has left its order. -/
def Cord.dropRel (r : Release) (x : Cord) : Cord := { x with rels := x.rels.erase r }

section
variable {s : State} {c : Nat} {x : Cord} {r : Release}

theorem cordRec_dropRel (hx : s.cordRec c = some x) : (s.onCord c (Cord.dropRel r)).cordRec c = some (x.dropRel r) := by
  rw [cordRec_onCord c c (Cord.dropRel r) s fun _ => rfl, if_pos rfl, hx]
  rfl

/-- The release that is due leaves the order of its cord and takes effect. -/
theorem exec_releaseDue (hn : s.now = some (.releaseTakesEffect c)) (hx : s.cordRec c = some x) (hr : s.relDue x = some r) :
    exec .releaseTakesEffect s = .next (r.kind.apply x (s.onCord c (Cord.dropRel r))) :=
  exec_releaseTakesEffect hn hx hr

/-- A cord that waits still does after a release has left the order of one. -/
theorem runs_dropRel {w : Nat} {y : Cord} (hy : Runs s w y) (r : Release) :
    ∃ y', Runs (s.onCord c (Cord.dropRel r)) w y' ∧ y'.mid = y.mid ∧ y'.idx = y.idx ∧ y'.wait = y.wait := by
  obtain ⟨y', hy', hg⟩ := KeepsOf.onCord (f := Cord.dropRel r) (g := fun y => (y.live, y.mid, y.idx, y.wait)) c s (fun _ => rfl) (fun _ => rfl) w y hy.1
  simp only [Prod.mk.injEq] at hg
  obtain ⟨hl, hm, hi, hw⟩ := hg
  exact ⟨y', ⟨hy', hl.trans hy.2⟩, hm, hi, hw⟩

theorem PhaseWakes.of_dropRel {t : State} {m i : Nat} {b : Bar} {reg : Nat} (h : PhaseWakes (s.onCord c (Cord.dropRel r)) t m i b reg) :
    PhaseWakes s t m i b reg := by
  intro he ha hr w y hy hmid hidx hw hwait
  obtain ⟨y', hy', hm, hi, hw'⟩ := runs_dropRel hy r
  exact h he ha hr w y' hy' (hm.trans hmid) (hi ▸ hidx) (hi ▸ hw) (hw'.trans hwait)

/-- The message of a store or an atomic is sent, and the cord changes only in its order of releases. -/
theorem apply_dropRel_message {e : Event} (hx : s.cordRec c = some x) (he : r.kind.message = some e) :
    Sends s (r.kind.apply x (s.onCord c (Cord.dropRel r))) 0 e ∧
      (r.kind.apply x (s.onCord c (Cord.dropRel r))).cordRec c = some (x.dropRel r) := by
  obtain ⟨core, home, d, ht⟩ := apply_message he x (s.onCord c (Cord.dropRel r))
  rw [ht]
  obtain ⟨i, hi, hw, hle⟩ := sends_afterPath core home d e (s.onCord c (Cord.dropRel r))
  exact ⟨⟨i, hi, hw, (Nat.le_add_right ..).trans hle⟩, cordRec_dropRel hx⟩

end

/-- A peer arrival at a motif that is not saved is counted at its barrier (R183). -/
theorem countPeer_running {s : State} {mid : Nat} {m : Motif} (hm : s.findMotif mid = some m) (h : m.status ≠ .saved) (cl i n : Nat) :
    s.countPeer cl mid i n = s.countArrival mid i := by
  unfold State.countPeer
  rw [hm]
  exact if_neg h

/-- One at a saved motif is buffered (R183). -/
theorem peers_countPeer_saved {s : State} {mid : Nat} {m : Motif} (hm : s.findMotif mid = some m) (h : m.status = .saved) (cl i n : Nat) :
    (s.countPeer cl mid i n).peers = s.peers ++ [⟨cl, mid, i, n⟩] := by
  unfold State.countPeer
  rw [hm]
  dsimp only
  rw [if_pos h]
  rfl

end Sys2Proof.Machine
end

section
/-! Barriers, peer arrivals and releases, as the spec has them (R176 to R184, R190, R201). -/

namespace Sys2Proof

open Machine Claims

/-- Settles O40: each form of a barrier by what it does, the release that is due by the cases of `State.ReleaseDue`, and what takes effect by
`findMotif_countArrival`, `phaseWakes_countArrival` and `apply_dropRel_message`. -/
theorem barriersAndReleases : Obligations.BarriersAndReleases := by
  unfold Obligations.BarriersAndReleases
  intro counted woken
  refine ⟨?forms, ?releases⟩
  case forms =>
    intro k n d b lit s x mine mismatch
    refine ⟨fun hc => ⟨fun i hi => ?_, exec_barx_mismatch hc, exec_barx_stalled hc⟩, fun hc => ?_, fun hc hb hn he => ⟨?_, ?_⟩,
      fun hc => exec_barx hc, exec_barq, fun m hc hp hm hr hn he => exec_peerarr hc hp hm hr hn (he.imp_right Eq.symm)⟩
    · have hi : i = .bara k n ∨ i = .barw k n := by simpa using hi
      exact ⟨exec_bara_barw_mismatch hc hi, exec_bara_barw_stalled hc hi⟩
    · intro i named n
      refine ⟨fun h => exec_peerarr_unnamed hc (peer_eq_none h), fun m hm only => ?_⟩
      have hp : s.peer i = some m := peer_eq_some hm only
      exact ⟨exec_peerarr_mismatch hc hp, fun hn he hs hf => exec_peerarr_stalled hc hp hn he hs hf⟩
    · exact ⟨_, exec_bara hc hn hb (he.imp_right Eq.symm), ⟨_, List.mem_append_right _ (List.mem_singleton_self _), rfl⟩, bar_setBar_self ..⟩
    · obtain ⟨m, hex, hbar⟩ := exec_barw hc hn hb (he.imp_right Eq.symm)
      exact ⟨_, hex, ⟨_, List.mem_append_right _ (List.mem_singleton_self _), rfl⟩, rfl, hbar⟩
  case releases =>
    intro s c x r hnow hx hdue free follows call settled
    obtain ⟨hx, -⟩ := hx
    obtain rfl : x.cid = c := by simpa using List.find?_some hx
    obtain ⟨m, hm, hrun, hcase⟩ := of_relDue hdue
    have hfree (e : Release) : e.kind.isFree = true ↔ free e := isFree_iff e.kind
    have hcall (e : Release) : e.kind.isCall = true ↔ call e := isCall_iff e.kind
    have hfollows : r.kind.follows = true ↔ follows r := follows_iff r.kind
    have message (e : Event) (he : r.kind.message = some e) := apply_dropRel_message hx he
    refine ⟨?due, _, exec_releaseDue hnow hx hdue, ?stores, ?atoms, ?cord, ?arrival, ?peer⟩
    case due =>
      cases hcase with
      | call hd hr hs =>
        obtain ⟨older, newer, hrels, hc, ho⟩ := hr
        exact ⟨older, newer, m, hrels, hm, hrun, fun h => absurd (hd.symm.trans h) (by decide), fun h => absurd (hd.symm.trans h) (by decide),
          fun _ => ⟨(hcall r).1 hc, fun e he => mt (hcall e).2 (ho e he), hs⟩⟩
      | free hd hr =>
        obtain ⟨older, newer, hrels, ⟨hf, hl⟩, ho⟩ := hr
        exact ⟨older, newer, m, hrels, hm, hrun, fun _ _ => ⟨hl, fun e he h hl' => ho e he ⟨(hfree e).2 h, hl'⟩⟩,
          fun _ h => absurd ((hfree r).1 hf) h, fun h => absurd (h.symm.trans hd) (by decide)⟩
      | oldest hd hr he =>
        obtain ⟨older, newer, hrels, hf, ho⟩ := hr
        obtain ⟨hdrains, hsettled⟩ := he
        refine ⟨older, newer, m, hrels, hm, hrun, fun _ h => absurd ((hfree r).2 h) hf,
          fun _ _ => ⟨fun e he => (hfree e).1 (of_not_not (ho e he)), fun h => hdrains (hfollows.2 h), fun h => (hsettled (mt hfollows.1 h)).1, ?_⟩,
          fun h => absurd (h.symm.trans hd) (by decide)⟩
        intro n t0 t2 ls hk
        have hturn : r.kind.inTurn m = true := (hsettled (by simp [hk, RelKind.follows])).2
        rw [hk] at hturn
        exact inTurn_notify.1 hturn
    case stores =>
      rintro a (hk | ⟨n, hk⟩)
      · exact (message _ (by rw [hk]; rfl)).1
      · exact (message _ (by rw [hk]; rfl)).1
    case atoms =>
      rintro a (hk | ⟨n, hk⟩)
      · exact (message _ (by rw [hk]; rfl)).1
      · exact (message _ (by rw [hk]; rfl)).1
    case cord =>
      intro h
      obtain ⟨e, he⟩ := message_isSome h
      exact ⟨_, (message e he).2, rfl, rfl⟩
    case arrival =>
      intro i m hk hm
      rw [hk]
      obtain ⟨m', hm', hbar⟩ := findMotif_countArrival (i := i) (s := s.onCord x.cid (Cord.dropRel r)) hm
      exact ⟨m', hm', hbar, PhaseWakes.of_dropRel (r := r) (phaseWakes_countArrival hm)⟩
    case peer =>
      intro mid i n m hk hm
      rw [hk]
      have hm : (s.onCord x.cid (Cord.dropRel r)).findMotif mid = some m := hm
      change (_ → ∃ m', (State.countPeer (clusterOf x.core) mid i n (s.onCord x.cid (Cord.dropRel r))).findMotif mid = some m' ∧ _) ∧ _
      refine ⟨fun hs => ?_, fun hs => peers_countPeer_saved hm hs ..⟩
      rw [countPeer_running hm hs]
      exact findMotif_countArrival hm

end Sys2Proof
end

section
/-! Counter waits, seal and waitb (R208, R216): each form by what it does. -/

namespace Sys2Proof.Machine

open Claims

/-! Counter waits (R208). -/

section
variable {n : Imm} {s : State} (hc : Form.check { lat := .n } s = none)
include hc

theorem exec_waitcLd (h : s.cord.ldcnt ≤ n.toNat) : exec (.waitcLd n) s = .next (Form.issued { lat := .n } s) :=
  show execWaitcLd n s = _ from runForm_done hc (if_pos h)

theorem exec_waitcLd_stalled (h : n.toNat < s.cord.ldcnt) : exec (.waitcLd n) s = stalled s {} :=
  show execWaitcLd n s = _ from runForm_stall hc (if_neg (Nat.not_le_of_lt h))

theorem exec_waitcSt (h : s.cord.stcnt ≤ n.toNat) : exec (.waitcSt n) s = .next (Form.issued { lat := .n } s) :=
  show execWaitcSt n s = _ from runForm_done hc (if_pos h)

theorem exec_waitcSt_stalled (h : n.toNat < s.cord.stcnt) : exec (.waitcSt n) s = stalled s {} :=
  show execWaitcSt n s = _ from runForm_stall hc (if_neg (Nat.not_le_of_lt h))

end

/-! Copy batches (R216). -/

theorem seal_eq (t : Thread) : t.seal = { t with
    bseq := t.bseq + 1, unsealed := [],
    batches := t.batches ++ if t.unsealed = [] then [] else [(t.bseq.toNat, t.unsealed)] } := by
  unfold Thread.seal
  cases h : t.unsealed <;> simp

/-- The threads of a cord once its active lanes have sealed. -/
def Cord.sealed (c : Cord) : SMap Thread := c.lanes.foldl (fun ts l => SMap.upd {} ts l Thread.seal) c.threads

theorem get_sealed (c : Cord) (l : Nat) :
    SMap.get {} c.sealed l = if l < 32 ∧ bit c.act l = true then (c.thread l).seal else c.thread l :=
  (get_foldl_upd {} (fun _ => Thread.seal) (nodup_lanesOf c.act) c.threads l).trans (if_congr mem_lanesOf rfl rfl)

theorem exec_sealBatch {d : Wr} {s : State} (hc : Form.check { lat := .i4, vecs := wrVecs d 1 } s = none)
    (h : ∀ l, bit s.cord.act l = true → (s.cord.thread l).batches.length < 8) :
    exec (.sealBatch d) s = .next (Form.issued { lat := .i4, vecs := wrVecs d 1 } { s with
      agenda := s.agenda ++ fixed s 4 (s.cord.writes32 d fun l => (s.cord.thread l).bseq.setWidth 32),
      cord := { s.cord with threads := s.cord.sealed } }) := by
  have hroom : ¬(s.cord.lanes.any fun l => decide (8 ≤ (s.cord.thread l).batches.length)) = true := by
    simp only [List.any_eq_true, decide_eq_true_eq, not_exists, not_and, Nat.not_le]
    exact fun l hl => h l (mem_lanesOf.1 hl).2
  change execSealBatch d s = _
  refine runForm_done hc ((if_neg hroom).trans ?_)
  rw [write_eq]
  rfl

theorem batchDone_iff (t : Thread) (n : BitVec 16) :
    t.batchDone n = true ↔ ∀ b ∈ t.batches, (t.bseq - BitVec.ofNat 16 b.1).toNat < (t.bseq - n).toNat := by
  simp [Thread.batchDone]

/-- A waitb whose batches are complete goes on with an acquire of its cord, as a cord does that is woken. -/
theorem exec_waitb {a : Rd} {s : State} (hc : Form.check { lat := .n, vecs := rdVecs a 1 } s = none)
    (hopen : ∀ l ∈ s.cord.lanes, (s.cord.thread l).bseq ≠ (s.cord.rd a l).setWidth 16)
    (hdone : ∀ l ∈ s.cord.lanes, (s.cord.thread l).batchDone ((s.cord.rd a l).setWidth 16) = true) :
    exec (.waitb a) s = .next (Form.issued { lat := .n, vecs := rdVecs a 1 }
      (State.beginAcquire s.cord.cid s.fresh (State.tick (s.onSelf (Cord.woken s.fresh .wakeWait))))) := by
  have hnone : (s.cord.lanes.find? fun l => (s.cord.thread l).bseq == (s.cord.rd a l).setWidth 16) = none := by
    simpa using hopen
  have hall : ¬(!s.cord.lanes.all fun l => (s.cord.thread l).batchDone ((s.cord.rd a l).setWidth 16)) = true := by
    simpa using hdone
  change execWaitb a s = _
  refine runForm_done hc ?_
  simp only [hnone]
  exact if_neg hall

/-- The focused cord acquires: its wait stays, its epoch is the next, and its read is sent (R202). -/
theorem beginAcquire_focus {tok : Nat} {s : State} (hl : s.cord.live = true) :
    (s.beginAcquire s.cord.cid tok).cord.epoch = s.cord.epoch + 1 ∧ (s.beginAcquire s.cord.cid tok).cord.wait = s.cord.wait ∧
      ∃ r, Sends s (s.beginAcquire s.cord.cid tok) 0 (.acquireComplete s.cord.cid tok r) := by
  have h := (steady_beginAcquire s.cord.cid tok s).cord
  rw [show (s.onCord s.cord.cid Cord.advanced).cord = s.cord.advanced from if_pos rfl] at h
  refine ⟨congrArg (·.2.2.2) h, congrArg (·.2.2.1) h, sends_beginAcquire ?_⟩
  rw [findCord_of_cordRec (x := s.cord) (by simp [State.cordRec]) hl]
  rfl

end Sys2Proof.Machine

namespace Sys2Proof

open Machine Claims

/-- Settles O32: the acquire of waitb is that of a woken cord (`beginAcquire_focus`). -/
theorem counterWaitsAndBatches : Obligations.CounterWaitsAndBatches := by
  unfold Obligations.CounterWaitsAndBatches
  intro n d a s
  refine ⟨fun hc => ⟨exec_waitcLd hc, exec_waitcLd_stalled hc, exec_waitcSt hc, exec_waitcSt_stalled hc⟩, fun hc hroom => ?_,
    fun hc hl hlanes => ?_⟩
  · refine ⟨s.cord.sealed, exec_sealBatch hc hroom, fun l => ?_⟩
    rw [get_sealed, seal_eq]
  · have hlane (l : Nat) (hm : l ∈ s.cord.lanes) := hlanes l (mem_lanesOf.1 hm).1 (mem_lanesOf.1 hm).2
    obtain ⟨hepoch, hwait, r, hr⟩ := beginAcquire_focus (tok := s.fresh) (s := (s.onSelf (Cord.woken s.fresh .wakeWait)).tick) hl
    exact ⟨_, r, exec_waitb hc (fun l hm => (hlane l hm).1) fun l hm => (batchDone_iff ..).2 (hlane l hm).2, hepoch, hwait, hr⟩

end Sys2Proof
end

section
/-! Flush and discard (R220 to R222): what both do to a line, and their issue. -/

namespace Sys2Proof.Machine

open Claims

/-! The bytes of a line. -/

theorem lineCells_keys (m : SMap Byte) (line : Nat) : (lineCells m line).map (·.1) = (List.range 128).map (line * 128 + ·) := by
  rw [lineCells, List.map_map]
  rfl

theorem get_setAll_lineCells (m n : SMap Byte) (line a : Nat) :
    SMap.get 0 (SMap.setAll 0 m (lineCells n line)) a = if a / 128 = line then SMap.get 0 n a else SMap.get 0 m a := by
  split
  next h =>
    have ha : (a, SMap.get 0 n a) ∈ lineCells n line :=
      List.mem_map.2 ⟨a % 128, List.mem_range.2 (Nat.mod_lt _ (by decide)), by rw [← h, Nat.div_add_mod']⟩
    refine SMap.get_setAll_mem 0 _ m ?_ _ ha
    rw [lineCells_keys]
    exact List.nodup_range.map fun _ _ h => Nat.add_left_cancel h
  next h =>
    refine SMap.get_setAll_ne 0 _ m a fun w hw e => h ?_
    obtain ⟨i, hi, rfl⟩ := List.mem_map.1 hw
    have := List.mem_range.1 hi
    dsimp only at e
    omega

/-- A line that is written back is dirty no more, and its backing bytes are its content (R221). -/
theorem writeBack_clean (line : Nat) (s : State) : (∀ x ∈ (s.writeBack line).l2, x.line = line → x.dirty = false) ∧
    ∀ a, SMap.get 0 (s.writeBack line).backing a = if a / 128 = line then s.byte a else SMap.get 0 s.backing a := by
  refine ⟨fun x hx hl => ?_, get_setAll_lineCells _ _ line⟩
  obtain ⟨y, -, rfl⟩ := List.mem_map.1 hx
  split
  · rfl
  next h => exact absurd (by rwa [if_neg h] at hl) h

/-- With no rollback epoch open and no owner, the content of a line that is dropped is its backing content (R222). -/
theorem byte_dropLine {s : State} {line : Nat} (b : Agent) (hc : s.cacheable line = true) (he : s.epochs = [])
    (ho : ∀ o ∈ s.owners, o.1 / 32 ≠ line) (a : Nat) :
    (s.dropLine b line).byte a = if a / 128 = line then SMap.get 0 s.backing a else s.byte a := by
  have hn : s.noteWrite b (line * 128) = (s, true) := by simp [State.noteWrite, he]
  unfold State.dropLine
  rw [if_neg (by simp [hc]), hn]
  dsimp only
  rw [if_neg (by simp), takeOwner_none _ ho]
  exact get_setAll_lineCells _ _ line a

theorem dropLine_cycle (b : Agent) (line : Nat) {s : State} (he : s.epochs = []) (ho : ∀ o ∈ s.owners, o.1 / 32 ≠ line) :
    (s.dropLine b line).cycle = s.cycle := by
  have hn : s.noteWrite b (line * 128) = (s, true) := by simp [State.noteWrite, he]
  unfold State.dropLine
  split
  · rfl
  rw [hn]
  dsimp only
  rw [if_neg (by simp), takeOwner_none _ ho]

theorem extends_after (d : Nat) (e : Event) (s : State) : Extends s (s.after d e) :=
  ⟨rfl, rfl, rfl, rfl, rfl, rfl, rfl, List.subset_append_left _ _, List.Subset.refl _, List.Subset.refl _⟩

/-! The issue (R220). -/

/-- The lines of the physical runs of a range: each run's first line and its length. -/
def rangeLines (v n : Nat) (ps : List Page) : List (Nat × Nat) := (physRuns v n ps).map fun r => (r.1 / 128, r.2 / 128)

/-- The translation of addresses that all hit changes nothing but the cores (R146). -/
theorem translated_keeps {β : Type} (g : State → β) (hg : ∀ (s : State) cs, g { s with cores := cs } = g s) (s : State) :
    g (translated s) = g s := by
  unfold translated State.holdSlot State.onCore
  split
  · split <;> exact hg s _
  · rfl

/-- A range that starts at a line, translates and meets nothing that it may not issues, once the cord's stores are at their homes. -/
theorem runRange_done {need : Need} {drop : Bool} {a b : Rd} {lit : Word} {s : State} {ps : List Page} {v n : Nat}
    (k : List (Nat × Nat) → State → State) (hc : Form.check { lat := .v, vecs := rdVecs a 1 ++ rdVecs b 1 } s = none)
    (hv : s.cord.once64 a b = v) (hn : (lit.toNat % 2 ^ 27 + 1) * 128 = n) (h128 : v % 128 = 0) (hst : s.cord.stcnt = 0)
    (hw : ∀ r ∈ physRuns v n ps, inWindow r.1 = false) (hit : Hits s need (pageStarts v n) ps)
    (hr : drop = true → ∀ r ∈ (s.ctxOf s.cord.ctx).regions, overlaps v n r.base r.size = false) :
    runRange need drop a b lit s k =
      .next (Form.issued { lat := .v, vecs := rdVecs a 1 ++ rdVecs b 1 } (k (rangeLines v n ps) (translated s))) := by
  have hlit : fld lit 0 27 = lit.toNat % 2 ^ 27 := by simp [fld]
  have hcord : (translated s).cord = s.cord := translated_keeps (·.cord) (fun _ _ => rfl) s
  have hctx : (translated s).ctxOf s.cord.ctx = s.ctxOf s.cord.ctx := translated_keeps (·.ctxOf s.cord.ctx) (fun _ _ => rfl) s
  refine runForm_done hc ?_
  simp only [Cord.range, hv, hlit, hn]
  rw [withPages_hits hit, hcord, hctx, if_neg, if_neg (by simp [hst])]
  · rfl
  · rintro (h | h | h)
    · exact h h128
    · obtain ⟨r, hm, hi⟩ := List.any_eq_true.1 h
      exact absurd hi (by simp [hw r hm])
    · rw [Bool.and_eq_true, List.any_eq_true] at h
      obtain ⟨hd, r, hm, hi⟩ := h
      exact absurd hi (by simp [hr hd r hm])

/-- The event of a range that leaves for its homes, over the state of its translation (R198). -/
def State.toHomes (e : Event) (runs : List (Nat × Nat)) (s : State) : State :=
  (translated s).afterPaths s.cord.core ((translated s).homesOf runs) 1 e

theorem toHomes_leaves (e : Event) (runs : List (Nat × Nat)) (s : State) :
    (s.toHomes e runs).mem = s.mem ∧ (s.toHomes e runs).backing = s.backing ∧ (s.toHomes e runs).flushCtr = s.flushCtr :=
  translated_keeps (fun s => (s.mem, s.backing, s.flushCtr)) (fun _ _ => rfl) s |> fun h => by simpa [State.toHomes, State.afterPaths] using h

theorem sends_toHomes (e : Event) (runs : List (Nat × Nat)) (s : State) : Sends s (s.toHomes e runs) 1 e :=
  sends_of_cycle (sends_afterPaths ..) (translated_cycle s)

section
variable {a b : Rd} {lit : Word} {s : State} {ps : List Page} (hc : Form.check { lat := .v, vecs := rdVecs a 1 ++ rdVecs b 1 } s = none)
  (h128 : s.cord.once64 a b % 128 = 0) (hst : s.cord.stcnt = 0)
  (hw : ∀ r ∈ physRuns (s.cord.once64 a b) ((lit.toNat % 2 ^ 27 + 1) * 128) ps, inWindow r.1 = false)
include hc h128 hst hw

theorem exec_flushr (hit : Hits s .r (pageStarts (s.cord.once64 a b) ((lit.toNat % 2 ^ 27 + 1) * 128)) ps) :
    exec (.flushr a b lit) s = .next (Form.issued { lat := .v, vecs := rdVecs a 1 ++ rdVecs b 1 } (s.toHomes
      (.flushrComplete s.cord.cid s.cord.flag { runs := rangeLines (s.cord.once64 a b) ((lit.toNat % 2 ^ 27 + 1) * 128) ps })
      (rangeLines (s.cord.once64 a b) ((lit.toNat % 2 ^ 27 + 1) * 128) ps))) := by
  refine (runRange_done (drop := false) (fun runs s => s.afterPaths s.cord.core (s.homesOf runs) 1
    (.flushrComplete s.cord.cid s.cord.flag { runs := runs })) hc rfl rfl h128 hst hw hit (by simp)).trans ?_
  rw [translated_keeps (·.cord) (fun _ _ => rfl) s]
  rfl

theorem exec_disc (hit : Hits s .w (pageStarts (s.cord.once64 a b) ((lit.toNat % 2 ^ 27 + 1) * 128)) ps)
    (hr : ∀ r ∈ (s.ctxOf s.cord.ctx).regions, overlaps (s.cord.once64 a b) ((lit.toNat % 2 ^ 27 + 1) * 128) r.base r.size = false) :
    exec (.disc a b lit) s = .next (Form.issued { lat := .v, vecs := rdVecs a 1 ++ rdVecs b 1 } (s.toHomes
      (.discAtHome s.cord.cid s.cord.flag { runs := rangeLines (s.cord.once64 a b) ((lit.toNat % 2 ^ 27 + 1) * 128) ps })
      (rangeLines (s.cord.once64 a b) ((lit.toNat % 2 ^ 27 + 1) * 128) ps))) := by
  refine (runRange_done (drop := true) (fun runs s => s.afterPaths s.cord.core (s.homesOf runs) 1
    (.discAtHome s.cord.cid s.cord.flag { runs := runs })) hc rfl rfl h128 hst hw hit fun _ => hr).trans ?_
  rw [translated_keeps (·.cord) (fun _ _ => rfl) s]
  rfl

end

end Sys2Proof.Machine
end

section
/-! Flush and discard beyond their core (R221, R222, R377, R381): the start of a job, and the recalls of a line on every device. -/

namespace Sys2Proof.Machine

open Claims

/-! The start of a job: the homes of this device, and the walks that other devices are asked for (R221, R222, R377). -/

/-- A run of lines is homed on another device. -/
def State.Away (s : State) (r : Nat × Nat) : Prop := devOf (r.1 * 128) ≠ s.dev.devno ∧ devOf (r.1 * 128) < 960

theorem runAway_iff (s : State) (r : Nat × Nat) : s.runAway r = true ↔ s.Away r := by
  simp [State.runAway, State.Away, isHostLine]

/-- One device is asked to walk its part of the runs, under a fresh number. -/
def State.askWalk (drop : Bool) (out : List (Nat × Nat)) (dev : Nat) (s : State) : List (Nat × Nat) × State :=
  ([(s.fresh, dev)], (s.sendOut dev (.walk drop (out.filter fun x => devOf (x.1 * 128) == dev) s.fresh)).tick)

/-- Every device that is the home of one of these runs is asked. -/
def State.askWalks (drop : Bool) (out : List (Nat × Nat)) (s : State) : List (Nat × Nat) × State :=
  foldGather (State.askWalk drop out) (out.map fun x => devOf (x.1 * 128)).eraseDups s

/-- Messages left between s and t, and the flush counters are as they were. -/
def AsksOnly (s t : State) : Prop := Extends s t ∧ t.flushCtr = s.flushCtr

theorem AsksOnly.refl (s : State) : AsksOnly s s := ⟨.refl s, rfl⟩
theorem AsksOnly.trans {s t u : State} (h : AsksOnly s t) (k : AsksOnly t u) : AsksOnly s u := ⟨h.1.trans k.1, k.2.trans h.2⟩

theorem askWalk_asks (drop : Bool) (out : List (Nat × Nat)) (dev : Nat) (s : State) : AsksOnly s (s.askWalk drop out dev).2 :=
  ⟨⟨rfl, rfl, rfl, rfl, rfl, rfl, rfl, List.Subset.refl _, List.subset_append_left _ _, List.Subset.refl _⟩, rfl⟩

theorem askWalks_asks (drop : Bool) (out : List (Nat × Nat)) (s : State) : AsksOnly s (s.askWalks drop out).2 :=
  foldGather_grows AsksOnly.refl AsksOnly.trans (askWalk_asks drop out) _ s

/-- The home of a run on another device is asked for its part. -/
theorem askWalks_sends (drop : Bool) {out : List (Nat × Nat)} {r : Nat × Nat} (hr : r ∈ out) (s : State) :
    ∃ rid, (rid, devOf (r.1 * 128)) ∈ (s.askWalks drop out).1 ∧
      (devOf (r.1 * 128), .walk drop (out.filter fun x => devOf (x.1 * 128) == devOf (r.1 * 128)) rid) ∈ (s.askWalks drop out).2.outbox := by
  obtain ⟨t, -, hout, hids⟩ := foldGather_through AsksOnly.refl AsksOnly.trans (askWalk_asks drop out)
    (List.mem_eraseDups.2 (List.mem_map_of_mem (f := fun x => devOf (x.1 * 128)) hr)) s
  exact ⟨t.fresh, hids _ (List.mem_singleton.2 rfl), hout.1.outbox (List.mem_append_right _ (List.mem_singleton.2 rfl))⟩

/-- The walks that a job asks for. -/
def State.jobWalks (drop : Bool) (job : FlushJob) (s : State) : List (Nat × Nat) × State := s.askWalks drop (job.runs.filter s.runAway)

/-- The runs of a job that are homed here. -/
def State.jobHere (job : FlushJob) (s : State) : List (Nat × Nat) := job.runs.filter fun r => !s.runAway r

/-- The homes of those runs; a discard takes no stamps. -/
def State.jobHomes (drop : Bool) (job : FlushJob) (s : State) : List Nat := if drop then [] else s.homesOf (s.jobHere job)

theorem startJob_eq (drop : Bool) (job : FlushJob) (s : State) : s.startJob drop job =
    let u := (s.jobWalks drop job).2
    ({ job with
        runs := s.jobHere job
        stamps := some ((s.jobHomes drop job).map fun h => (h, SMap.get 0 u.flushCtr h))
        away := (s.jobWalks drop job).1 },
      { u with
        flushCtr := (s.jobHomes drop job).foldl (fun m h => SMap.upd 0 m h fun k => (k + 1) % 2 ^ 32) u.flushCtr
        asked := u.asked ++ (s.jobWalks drop job).1.map (·.1) }) := by
  unfold State.startJob
  rw [List.partition_eq_filter_filter]
  rfl

/-- Each run on another device is asked for of its home, in a job that awaits the answer. -/
def AsksWalks (s t : State) (drop : Bool) (runs : List (Nat × Nat)) (job : FlushJob) : Prop :=
  ∀ r ∈ runs, s.Away r → ∃ rid lines, (rid, devOf (r.1 * 128)) ∈ job.away ∧ rid ∈ t.asked ∧
    (devOf (r.1 * 128), .walk drop lines rid) ∈ t.outbox ∧ ∀ x, x ∈ lines ↔ x ∈ runs ∧ s.Away x ∧ devOf (x.1 * 128) = devOf (r.1 * 128)

theorem AsksWalks.mono {s t u : State} {drop : Bool} {runs : List (Nat × Nat)} {job : FlushJob} (h : AsksWalks s t drop runs job)
    (k : Extends t u) : AsksWalks s u drop runs job := fun r hr ha =>
  let ⟨rid, lines, haway, hasked, hsent, hlines⟩ := h r hr ha
  ⟨rid, lines, haway, k.asked hasked, k.outbox hsent, hlines⟩

section
variable (drop : Bool) (job : FlushJob) (s : State)

theorem startJob_back : (s.startJob drop job).1.back = job.back := by rw [startJob_eq]

theorem mem_startJob_runs (r : Nat × Nat) : r ∈ (s.startJob drop job).1.runs ↔ r ∈ job.runs ∧ ¬s.Away r := by
  rw [startJob_eq, ← runAway_iff]
  simp [State.jobHere]

theorem startJob_extends : Extends s (s.startJob drop job).2 := by
  have h := (askWalks_asks drop (job.runs.filter s.runAway) s).1
  rw [startJob_eq]
  exact ⟨h.cycle, h.cord, h.cords, h.cores, h.dev, h.mem, h.backing, h.agenda, h.outbox,
    List.Subset.trans h.asked (List.subset_append_left _ _)⟩

theorem startJob_asks : AsksWalks s (s.startJob drop job).2 drop job.runs (s.startJob drop job).1 := by
  have hout (x : Nat × Nat) : x ∈ job.runs.filter s.runAway ↔ x ∈ job.runs ∧ s.Away x := by rw [List.mem_filter, runAway_iff]
  intro r hr ha
  obtain ⟨rid, haway, hsent⟩ := askWalks_sends drop ((hout r).2 ⟨hr, ha⟩) s
  rw [startJob_eq]
  refine ⟨rid, _, haway, List.mem_append_right _ (List.mem_map_of_mem haway), hsent, fun x => ?_⟩
  rw [List.mem_filter, hout, beq_iff_eq, and_assoc]

end

theorem startJob_isSome (drop : Bool) (job : FlushJob) (s : State) : (s.startJob drop job).1.stamps.isSome = true := by
  rw [startJob_eq]
  rfl

theorem startJob_drop_flushCtr (job : FlushJob) (s : State) : (s.startJob true job).2.flushCtr = s.flushCtr := by
  rw [startJob_eq]
  exact (askWalks_asks true (job.runs.filter s.runAway) s).2

theorem nodup_eraseDups (l : List Nat) : l.eraseDups.Nodup := by
  induction hn : l.length using Nat.strong_induction_on generalizing l with
  | _ n ih =>
    cases l with
    | nil => simp
    | cons a l =>
      rw [List.eraseDups_cons, List.nodup_cons, List.mem_eraseDups]
      refine ⟨by simp, ih _ ?_ _ rfl⟩
      have := List.length_filter_le (fun b => !b == a) l
      rw [List.length_cons] at hn
      omega

theorem mem_homesOf {s : State} {runs : List (Nat × Nat)} {r : Nat × Nat} {i : Nat} (hr : r ∈ runs) (hi : i < r.2) :
    s.homeOf (r.1 + i) ∈ s.homesOf runs :=
  List.mem_eraseDups.2 (List.mem_flatMap.2 ⟨r, hr, List.mem_map_of_mem (f := fun i => s.homeOf (r.1 + i)) (List.mem_range.2 hi)⟩)

/-- The home of each line of this device gives its counter as a stamp and advances it by one (R221). -/
theorem startJob_stamps (job : FlushJob) (s : State) : ∃ stamps, (s.startJob false job).1.stamps = some stamps ∧
    ∀ r ∈ job.runs, ¬s.Away r → ∀ i < r.2, (s.homeOf (r.1 + i), SMap.get 0 s.flushCtr (s.homeOf (r.1 + i))) ∈ stamps ∧
      SMap.get 0 (s.startJob false job).2.flushCtr (s.homeOf (r.1 + i)) = (SMap.get 0 s.flushCtr (s.homeOf (r.1 + i)) + 1) % 2 ^ 32 := by
  have hctr : (s.jobWalks false job).2.flushCtr = s.flushCtr := (askWalks_asks false (job.runs.filter s.runAway) s).2
  rw [startJob_eq]
  dsimp only
  rw [hctr]
  refine ⟨_, rfl, fun r hr ha i hi => ?_⟩
  have hh : s.homeOf (r.1 + i) ∈ s.jobHomes false job :=
    mem_homesOf (List.mem_filter.2 ⟨hr, by simpa using mt (runAway_iff s r).1 ha⟩) hi
  exact ⟨List.mem_map_of_mem (f := fun h => (h, SMap.get 0 s.flushCtr h)) hh,
    (get_foldl_upd 0 (fun _ k => (k + 1) % 2 ^ 32) (nodup_eraseDups _) _ _).trans (if_pos hh)⟩

/-! The recalls of a line, on this device and on others (R157, R381). -/

/-- Recalls and notices only add: who holds a line elsewhere is as it was. -/
structure Calls (s t : State) : Prop where
  ext : Extends s t
  recalls : s.recalls ⊆ t.recalls
  remote : t.remote = s.remote
  overflow : t.overflow = s.overflow
  spread : t.spread = s.spread

theorem Calls.refl (s : State) : Calls s s := ⟨.refl s, List.Subset.refl _, rfl, rfl, rfl⟩

theorem Calls.trans {s t u : State} (h : Calls s t) (k : Calls t u) : Calls s u :=
  ⟨h.ext.trans k.ext, List.Subset.trans h.recalls k.recalls, k.remote.trans h.remote, k.overflow.trans h.overflow, k.spread.trans h.spread⟩

theorem Calls.noticeDies {s t : State} (h : Calls s t) (line : Nat) : t.noticeDies line = s.noticeDies line := by
  unfold State.noticeDies State.remoteEntry State.homeDie State.homeOf State.dieOfAddr State.isLocal
  rw [h.ext.dev, h.remote, h.overflow, h.spread]

theorem recallAt_calls (line : Nat) (reason : Reason) (core : Nat) (s : State) : Calls s (s.recallAt line reason core).2 :=
  ⟨(recallAt_grows line reason core s).1, List.subset_append_left _ _, rfl, rfl, rfl⟩

/-- One die of another device is sent a notice, under a fresh number. -/
def State.noticeAt (line : Nat) (reason : Reason) (d : Nat × Nat) (s : State) : List Nat × State :=
  ([s.fresh], State.sendOut d.1 (.notice d.2 line reason s.fresh)
    (State.tick { s with recalls := s.recalls ++ [(s.fresh, 1000 * (d.1 + 1) + d.2, line)] }))

theorem noticeAt_calls (line : Nat) (reason : Reason) (d : Nat × Nat) (s : State) : Calls s (s.noticeAt line reason d).2 :=
  ⟨⟨rfl, rfl, rfl, rfl, rfl, rfl, rfl, List.Subset.refl _, List.subset_append_left _ _, List.Subset.refl _⟩,
    List.subset_append_left _ _, rfl, rfl, rfl⟩

theorem recallLine_eq (line : Nat) (reason : Reason) (s : State) : s.recallLine line reason =
    ((s.recallHere line reason).1 ++ (foldGather (State.noticeAt line reason) ((s.recallHere line reason).2.noticeDies line) (s.recallHere line reason).2).1,
      (foldGather (State.noticeAt line reason) ((s.recallHere line reason).2.noticeDies line) (s.recallHere line reason).2).2) := rfl

theorem recallHere_calls (line : Nat) (reason : Reason) (s : State) : Calls s (s.recallHere line reason).2 :=
  foldGather_grows Calls.refl Calls.trans (recallAt_calls line reason) _ s

theorem noticeOut_calls (line : Nat) (reason : Reason) (s : State) :
    Calls (s.recallHere line reason).2 (s.recallLine line reason).2 :=
  foldGather_grows Calls.refl Calls.trans (noticeAt_calls line reason) _ _

theorem recallLine_calls (line : Nat) (reason : Reason) (s : State) : Calls s (s.recallLine line reason).2 :=
  (recallHere_calls line reason s).trans (noticeOut_calls line reason s)

/-- Each core of this device that holds the line is recalled, under a number that is awaited. -/
theorem recallLine_recalls {line core : Nat} {s : State} (reason : Reason) (hc : core ∈ s.sharers line) :
    ∃ rid ∈ (s.recallLine line reason).1, (rid, core, line) ∈ (s.recallLine line reason).2.recalls ∧
      Sends s (s.recallLine line reason).2 1 (.recallAtCore core line reason rid) := by
  obtain ⟨t, hst, htu, hids⟩ := foldGather_through Calls.refl Calls.trans (recallAt_calls line reason) hc s
  have hlast := htu.trans (noticeOut_calls line reason s)
  exact ⟨t.fresh, List.mem_append_left _ (hids _ (List.mem_singleton.2 rfl)),
    hlast.recalls (List.mem_append_right _ (List.mem_singleton.2 rfl)),
    hlast.ext.sends (sends_of_cycle (sends_afterFree 1 _ (State.tick _)) hst.ext.cycle)⟩

/-- Each die of another device that a notice goes to is sent one, under a number that is awaited. -/
theorem recallLine_notices {line : Nat} {d : Nat × Nat} {s : State} (reason : Reason) (hd : d ∈ s.noticeDies line) :
    ∃ rid ∈ (s.recallLine line reason).1, (d.1, .notice d.2 line reason rid) ∈ (s.recallLine line reason).2.outbox := by
  rw [← (recallHere_calls line reason s).noticeDies] at hd
  obtain ⟨t, -, htu, hids⟩ := foldGather_through Calls.refl Calls.trans (noticeAt_calls line reason) hd (s.recallHere line reason).2
  exact ⟨t.fresh, List.mem_append_right _ (hids _ (List.mem_singleton.2 rfl)),
    htu.ext.outbox (List.mem_append_right _ (List.mem_singleton.2 rfl))⟩

end Sys2Proof.Machine
end

section
/-! Flush and discard, step by step (R221, R222, R377, R378): a job starts, visits its lines one after another, and ends. -/

namespace Sys2Proof.Machine

open Claims

/-! The walker. -/

/-- What a step of a walk is, and the event that it comes as: a discard's or a flush's. -/
def walkRow (drop : Bool) : Instr := if drop then .discAtHome else .flushrComplete
def walkEvent (drop : Bool) (c : Nat) (f : Flag) (job : FlushJob) : Event := if drop then .discAtHome c f job else .flushrComplete c f job

section
variable {s : State} {c : Nat} {f : Flag} {job : FlushJob}

theorem exec_walk_starts {drop : Bool} {runs : List (Nat × Nat)} {back : Option (Nat × Nat × List (Nat × Nat))}
    (h : s.now = some (walkEvent drop c f { runs := runs, back := back })) :
    ∃ t, exec (walkRow drop) s = .next t ∧ SameMem s t ∧ t.flushCtr = (s.startJob drop { runs := runs, back := back }).2.flushCtr ∧
      Sends s t 0 (walkEvent drop c f (s.startJob drop { runs := runs, back := back }).1) ∧
      AsksWalks s t drop runs (s.startJob drop { runs := runs, back := back }).1 := by
  have hext := startJob_extends drop { runs := runs, back := back } s
  have hasks := startJob_asks drop { runs := runs, back := back } s
  generalize hu : (s.startJob drop { runs := runs, back := back }).2 = u at hext hasks ⊢
  generalize hjob : (s.startJob drop { runs := runs, back := back }).1 = job at hasks ⊢
  cases drop with
  | false =>
    refine ⟨u.afterFree 0 (.flushrComplete c f job), ?_, ⟨hext.mem, hext.backing⟩, rfl, sends_of_cycle (sends_afterFree ..) hext.cycle,
      hasks.mono (extends_afterFree ..)⟩
    change execFlushrComplete s = _
    simp [execFlushrComplete, h, walkEvent, hu, hjob]
  | true =>
    refine ⟨u.after 0 (.discAtHome c f job), ?_, ⟨hext.mem, hext.backing⟩, rfl, sends_of_cycle (sends_after ..) hext.cycle,
      hasks.mono (extends_after ..)⟩
    change execDiscAtHome s = _
    simp [execDiscAtHome, h, walkEvent, hu, hjob]

theorem exec_walk_skips {drop : Bool} {line : Nat} {rest : List (Nat × Nat)} (h : s.now = some (walkEvent drop c f job))
    (hj : job.stamps.isSome = true) (hr : job.runs = (line, 0) :: rest) :
    exec (walkRow drop) s = .next (s.after 0 (walkEvent drop c f { job with runs := rest })) := by
  obtain ⟨stamps, hj⟩ := Option.isSome_iff_exists.1 hj
  cases drop with
  | false =>
    change execFlushrComplete s = _
    simp [execFlushrComplete, h, walkEvent, hj, hr]
  | true =>
    change execDiscAtHome s = _
    simp [execDiscAtHome, h, walkEvent, hj, hr]

theorem exec_walk_ends {drop : Bool} (h : s.now = some (walkEvent drop c f job)) (hj : job.stamps.isSome = true) (hr : job.runs = []) :
    exec (walkRow drop) s = .next (s.endJob drop c f job (walkEvent drop c f job)) := by
  obtain ⟨stamps, hj⟩ := Option.isSome_iff_exists.1 hj
  cases drop with
  | false =>
    change execFlushrComplete s = _
    simp [execFlushrComplete, h, walkEvent, hj, hr]
  | true =>
    change execDiscAtHome s = _
    simp [execDiscAtHome, h, walkEvent, hj, hr]

/-- The stamp that the home of a line has given; 0 when it has given none. -/
def State.stampOf (s : State) (stamps : List (Nat × Nat)) (line : Nat) : Nat := ((stamps.find? fun p => p.1 == s.homeOf line).map (·.2)).getD 0

/-- A line is old: dirty, with a stamp no later than that of its home (R221). -/
def State.LineOld (s : State) (stamps : List (Nat × Nat)) (line : Nat) : Prop :=
  ∃ x, s.l2.find? (·.line == line) = some x ∧ x.dirty = true ∧ x.stamp ≤ s.stampOf stamps line

/-- A line that the walker of a flush has visited. -/
def State.visited (stamps : List (Nat × Nat)) (line : Nat) (s : State) : State :=
  if (s.l2Find line).any fun x => x.dirty && decide (x.stamp ≤ s.stampOf stamps line) then s.writeBack line else s

theorem lineOld_iff (stamps : List (Nat × Nat)) (line : Nat) : s.LineOld stamps line ↔
    ((s.l2Find line).any fun x => x.dirty && decide (x.stamp ≤ s.stampOf stamps line)) = true := by
  unfold State.LineOld State.l2Find
  cases s.l2.find? (·.line == line) <;> simp

theorem visited_old {stamps : List (Nat × Nat)} {line : Nat} (h : s.LineOld stamps line) : s.visited stamps line = s.writeBack line :=
  if_pos ((lineOld_iff stamps line).1 h)

theorem visited_new {stamps : List (Nat × Nat)} {line : Nat} (h : ¬s.LineOld stamps line) : s.visited stamps line = s :=
  if_neg (mt (lineOld_iff stamps line).2 h)

theorem visited_keeps (stamps : List (Nat × Nat)) (line : Nat) :
    (s.visited stamps line).mem = s.mem ∧ (s.visited stamps line).cycle = s.cycle := by
  unfold State.visited
  split <;> exact ⟨rfl, rfl⟩

/-- A flush visits a line and goes on with the next one. -/
theorem exec_flush_visits {stamps : List (Nat × Nat)} {line n : Nat} {rest : List (Nat × Nat)} (h : s.now = some (.flushrComplete c f job))
    (hj : job.stamps = some stamps) (hr : job.runs = (line, n + 1) :: rest) : exec .flushrComplete s =
      .next ((s.visited stamps line).afterFree 0 (.flushrComplete c f { job with runs := (line + 1, n) :: rest })) := by
  change execFlushrComplete s = _
  unfold execFlushrComplete
  rw [h]
  simp only [hj, hr]
  rfl

/-- A discard recalls a line, and drops it once the recalls are acknowledged. -/
theorem exec_disc_recalls {line n : Nat} {rest : List (Nat × Nat)} (h : s.now = some (.discAtHome c f job)) (hj : job.stamps.isSome = true)
    (hr : job.runs = (line, n + 1) :: rest) : exec .discAtHome s =
      .next ((s.recallLine line .disc).2.afterFree 1 (.discDrop c f job (s.recallLine line .disc).1)) := by
  obtain ⟨stamps, hj⟩ := Option.isSome_iff_exists.1 hj
  change execDiscAtHome s = _
  unfold execDiscAtHome
  rw [h]
  simp only [hj, hr]

theorem exec_discDrop {line n : Nat} {rest : List (Nat × Nat)} {rids : List Nat} (h : s.now = some (.discDrop c f job rids))
    (hr : job.runs = (line, n + 1) :: rest) (hack : s.recalling rids = false) (ho : ∀ o ∈ s.owners, o.1 / 32 ≠ line) :
    exec .discDrop s =
      .next ((s.dropLine (s.agentOfCord c) line).afterFree 0 (.discAtHome c f { job with runs := (line + 1, n) :: rest })) := by
  change execDiscDrop s = _
  unfold execDiscDrop
  rw [h]
  simp only [hack, hr, owedNotices_none none 0xFFFFFFFF ho, Bool.false_eq_true, ↓reduceIte]

end

/-! The end of a job (R221, R222, R377, R378). -/

theorem cordRec_messageLost (j c : Nat) (s : State) : (s.messageLost j).cordRec c = s.cordRec c := by
  unfold State.messageLost
  split <;> rfl

theorem sameMem_messageLost (j : Nat) (s : State) : SameMem s (s.messageLost j) := by
  unfold State.messageLost
  split <;> exact ⟨rfl, rfl⟩

section
variable {s : State} {drop : Bool} {c : Nat} {f : Flag} {job : FlushJob} {again : Event}

/-- A job of this device that awaits no answer of a device in reach is complete. -/
theorem endJob_completes {x : Cord} (hb : job.back = none) (hx : s.cordRec c = some x)
    (h : ∀ a ∈ job.away, a.1 ∉ s.asked ∨ a.2 ∈ s.dev.lost) : SameMem s (s.endJob drop c f job again) ∧
      ∃ y, (s.endJob drop c f job again).cordRec c = some y ∧ y.flagOf f.val = x.flagOf f.val - 1 := by
  have hdone := cordRec_complete f [] hx
  have hflag := flagOf_flagDown (x.applyAll []) f.val
  unfold State.endJob
  simp only [hb]
  split
  · exact ⟨sameMem_messageLost c (s.complete c f []), _, by rw [cordRec_messageLost]; exact hdone, hflag⟩
  next hlost =>
    have hasked : ¬(job.away.any fun a => s.asked.contains a.1) = true := by
      simp only [List.any_eq_true, not_exists, not_and, List.contains_iff_mem] at hlost ⊢
      exact fun a ha => (h a ha).resolve_right (hlost a ha)
    rw [if_neg hasked]
    exact ⟨⟨rfl, rfl⟩, _, hdone, hflag⟩

/-- A job that awaits an answer, with every home in reach, comes again. -/
theorem endJob_waits (hb : job.back = none) (h : ∃ a ∈ job.away, a.1 ∈ s.asked) (hlost : ∀ a ∈ job.away, a.2 ∉ s.dev.lost) :
    s.endJob drop c f job again = s.after 1 again := by
  unfold State.endJob
  simp only [hb]
  rw [if_neg (by simpa using hlost), if_pos (by simpa using h)]

/-- The lines that the answer of a walk brings, each with the content that it has now. -/
def State.walkedLines (s : State) (drop : Bool) (runs : List (Nat × Nat)) : List (Nat × List Byte) :=
  (if drop then runs.flatMap fun r => (List.range r.2).map (r.1 + ·) else []).map fun l => (l, s.homeBytes (l * 128) 128)

theorem endJob_answers {dev rid : Nat} {runs : List (Nat × Nat)} (hb : job.back = some (dev, rid, runs)) :
    s.endJob drop c f job again = s.sendOut dev (.walked rid (s.walkedLines drop runs)) := by
  unfold State.endJob
  simp only [hb]
  rfl

theorem mem_walkedLines {runs : List (Nat × Nat)} {r : Nat × Nat} {i : Nat} (hr : r ∈ runs) (hi : i < r.2) :
    (r.1 + i, s.homeBytes ((r.1 + i) * 128) 128) ∈ s.walkedLines true runs :=
  List.mem_map_of_mem (f := fun l => (l, s.homeBytes (l * 128) 128))
    (List.mem_flatMap.2 ⟨r, hr, List.mem_map_of_mem (List.mem_range.2 hi)⟩)

end

/-! A walk that another device asks for (R377). -/

theorem exec_walk_asked {s : State} {dev rid : Nat} {drop : Bool} {runs : List (Nat × Nat)}
    (h : s.now = some (.remoteNotice (.walk dev drop runs rid))) (hw : s.dev.working = true) (ha : s.dev.alive = true) :
    exec .remoteNotice s = .next (s.walkRemote dev drop runs rid) := by
  change execRemoteNotice s = _
  unfold execRemoteNotice
  rw [h]
  simp [Dev.closed, hw, ha, State.receive]

theorem sends_walkRemote (dev : Nat) (drop : Bool) (runs : List (Nat × Nat)) (rid : Nat) (s : State) :
    let mine := runs.filter fun r => s.isLocal (r.1 * 128)
    Sends s (s.walkRemote dev drop runs rid) 0 (walkEvent drop 0 0 { runs := mine, back := some (dev, rid, mine) }) :=
  ⟨_, List.mem_append_left _ (List.mem_map_of_mem (List.mem_singleton.2 rfl)), rfl, Nat.le_refl _⟩

end Sys2Proof.Machine

namespace Sys2Proof

open Machine Claims

/-- Settles O35, clause by clause: the issue (`runRange_done`), the start of a job (`exec_walk_starts`), its lines
(`exec_flush_visits`, `exec_disc_recalls`, `exec_discDrop`), its end (`exec_walk_ends`), and the walk for another device. -/
theorem flushAndDiscard : Obligations.FlushAndDiscard := by
  unfold Obligations.FlushAndDiscard
  constructor
  · intro a b lit s ps f v n runs lines hc h128 hst hw
    constructor
    · intro hit
      obtain ⟨hmem, hbacking, hctr⟩ := toHomes_leaves (.flushrComplete s.cord.cid s.cord.flag { runs := lines }) lines s
      exact ⟨_, exec_flushr hc h128 hst hw hit, hmem, hbacking, hctr, sends_toHomes ..⟩
    · intro hit hr
      obtain ⟨hmem, hbacking, -⟩ := toHomes_leaves (.discAtHome s.cord.cid s.cord.flag { runs := lines }) lines s
      exact ⟨_, exec_disc hc h128 hst hw hit hr, hmem, hbacking, sends_toHomes ..⟩
  intro s c f away asks stays begun
  refine ⟨fun runs back hn => ?_, fun runs back hn => ?_, fun job stamps line n rest hj hr hn => ?_, fun job line n rest hj hr hn => ?_,
    fun job line n rest rids hr hn hack hcache he ho => ?_, fun job drop hj => ?_, fun dev drop runs rid hn hw ha => ?_⟩
  · obtain ⟨t, ht, hsame, hctr, hsent, hasks⟩ := exec_walk_starts (drop := false) hn
    obtain ⟨stamps, hstamps, hlines⟩ := startJob_stamps { runs := runs, back := back } s
    refine ⟨t, _, stamps, ht, hsame, hsent, ⟨startJob_back .., fun r => mem_startJob_runs ..⟩, hstamps, hasks, ?_⟩
    rw [hctr]
    exact hlines
  · obtain ⟨t, ht, hsame, hctr, hsent, hasks⟩ := exec_walk_starts (drop := true) hn
    exact ⟨t, _, ht, hsame, hctr.trans (startJob_drop_flushCtr ..), hsent, ⟨startJob_back .., fun r => mem_startJob_runs ..⟩,
      startJob_isSome .., hasks⟩
  · obtain ⟨hmem, hcycle⟩ := visited_keeps (s := s) stamps line
    refine ⟨_, exec_flush_visits hn hj hr, hmem, sends_of_cycle (sends_afterFree ..) hcycle, fun ho => ?_, fun ho => ?_⟩
    · rw [visited_old ho]
      exact writeBack_clean line s
    · rw [visited_new ho]
      exact ⟨rfl, rfl⟩
  · have hcalls := recallLine_calls line .disc s
    have hlast := extends_afterFree 1 (.discDrop c f job (s.recallLine line .disc).1) (s.recallLine line .disc).2
    refine ⟨_, _, exec_disc_recalls hn hj hr, hcalls.ext.mem, sends_of_cycle (sends_afterFree ..) hcalls.ext.cycle, fun core hc => ?_,
      fun d hd => recallLine_notices .disc hd⟩
    obtain ⟨rid, hrid, hrecall, hsent⟩ := recallLine_recalls .disc hc
    exact ⟨rid, hrid, hrecall, hlast.sends hsent⟩
  · exact ⟨_, exec_discDrop hn hr hack ho, sends_of_cycle (sends_afterFree ..) (dropLine_cycle _ line he ho), byte_dropLine _ hcache he ho⟩
  · intro ev now hn
    refine ⟨fun rest line hr => ⟨_, exec_walk_skips hn hj hr, ⟨rfl, rfl⟩, sends_after ..⟩, fun hr hb => ⟨fun x hx hdone => ?_, fun hasked hlost => ?_⟩,
      fun dev rid runs hr hb => ?_⟩
    · obtain ⟨hsame, y, hy, hflag⟩ := endJob_completes (f := f) (drop := drop) (again := now) hb hx.1 hdone
      exact ⟨_, y, exec_walk_ends hn hj hr, hsame, hy, hflag⟩
    · refine ⟨_, exec_walk_ends hn hj hr, ?_⟩
      rw [endJob_waits hb hasked hlost]
      exact ⟨⟨rfl, rfl⟩, sends_after ..⟩
    · refine ⟨_, s.walkedLines drop runs, exec_walk_ends hn hj hr, ?_⟩
      rw [endJob_answers hb]
      refine ⟨⟨rfl, rfl⟩, List.mem_append_right _ (List.mem_singleton.2 rfl), ?_, ?_⟩
      · rintro rfl
        rfl
      · rintro rfl r hr i hi
        exact mem_walkedLines hr hi
  · exact ⟨_, _, exec_walk_asked hn hw ha, ⟨rfl, rfl⟩, sends_walkRemote .., rfl, rfl, fun r => List.mem_filter⟩

end Sys2Proof
end

section
/-! The eyelets of a cord and its outstanding forms, through the operations that acquires, opens and atomics share (R81, R145, R147, R203). -/

namespace Sys2Proof.Machine

open Claims

/-! Eyelets. -/

theorem eye_setEye (x : Cord) (e j : Nat) (y : Eyelet) : (x.setEye e y).eye j = if j = e then y else x.eye j := SMap.get_set ..

theorem SMap.get_map {α : Type} (d : α) (g : α → α) (hd : g d = d) (m : SMap α) (k : Nat) :
    SMap.get d (m.map fun x => (x.1, g x.2)) k = g (SMap.get d m k) := by
  induction m with
  | nil => exact hd.symm
  | cons x m ih =>
    rw [List.map_cons, SMap.get, ih, SMap.get]
    split <;> rfl

/-- A fold that changes one eyelet after another, each by what the cord keeps through it, changes each by itself. -/
theorem eye_foldl {f : Cord → Nat → Cord} {g : Eyelet → Eyelet} {p : Cord → Prop} (hp : ∀ x e, p x → p (f x e))
    (hf : ∀ x e j, p x → (f x e).eye j = if j = e then g (x.eye e) else x.eye j) {es : List Nat} (hn : es.Nodup) {x : Cord} (hx : p x) (j : Nat) :
    (es.foldl f x).eye j = if j ∈ es then g (x.eye j) else x.eye j := by
  induction es generalizing x with
  | nil => simp
  | cons e es ih =>
    obtain ⟨he, hn⟩ := List.nodup_cons.1 hn
    rw [List.foldl_cons, ih hn (hp x e hx), hf x e j hx]
    by_cases hj : j = e
    · subst hj; simp [he]
    · simp [hj]

/-- The eyelets of a run, from the first on. -/
theorem mem_run {first n e : Nat} : e ∈ (List.range n).map (first + ·) ↔ ∃ i < n, e = first + i := by
  simp [eq_comm]

theorem nodup_run (first n : Nat) : ((List.range n).map (first + ·)).Nodup := List.nodup_range.map fun _ _ => Nat.add_left_cancel

/-! Bytes put into an eyelet. -/

/-- Cells of which no two give an offset different values all read back. -/
theorem SMap.get_setAll_of_mem {α : Type} [DecidableEq α] (d : α) {ws : List (Nat × α)} (m : SMap α)
    (hf : ∀ p ∈ ws, ∀ q ∈ ws, p.1 = q.1 → p = q) {w : Nat × α} (hw : w ∈ ws) : SMap.get d (SMap.setAll d m ws) w.1 = w.2 := by
  induction ws generalizing m with
  | nil => cases hw
  | cons x ws ih =>
    obtain ⟨k, v⟩ := x
    rw [SMap.setAll]
    by_cases h : w ∈ ws
    · exact ih _ (fun p hp q hq => hf p (List.mem_cons_of_mem _ hp) q (List.mem_cons_of_mem _ hq)) h
    · obtain rfl : w = (k, v) := (List.mem_cons.1 hw).resolve_right h
      rw [SMap.get_setAll_ne, SMap.get_set_self]
      intro q hq e
      exact h (hf q (List.mem_cons_of_mem _ hq) (k, v) List.mem_cons_self e ▸ hq)

theorem get_fill (x : Eyelet) (base : Nat) (bs : List Byte) (keep : Word) (i : Nat) :
    SMap.get 0 (x.fill base bs keep).data i =
      if base ≤ i ∧ i < base + bs.length ∧ bit keep (i / 4) = false then bs.getD (i - base) 0 else SMap.get 0 x.data i := by
  have hkeys : (cellsAt base bs).map (·.1) = (List.range bs.length).map (base + ·) := cellsAt_keys base bs
  change SMap.get 0 (SMap.setAll 0 x.data ((cellsAt base bs).filter fun e => !bit keep (e.1 / 4))) i = _
  split
  next h =>
    obtain ⟨h1, h2, hk⟩ := h
    have hm : (i, bs.getD (i - base) 0) ∈ (cellsAt base bs).filter fun e => !bit keep (e.1 / 4) := by
      refine List.mem_filter.2 ⟨(mem_cellsAt ..).2 ⟨i - base, by omega, by rw [Nat.add_sub_cancel' h1]⟩, by simp [hk]⟩
    exact SMap.get_setAll_mem 0 _ _ ((cellsAt_nodup base bs).sublist (List.filter_sublist.map _)) _ hm
  next h =>
    refine SMap.get_setAll_ne 0 _ _ _ fun w hw e => h ?_
    obtain ⟨hw, hk⟩ := List.mem_filter.1 hw
    obtain ⟨j, hj, rfl⟩ := (mem_cellsAt ..).1 hw
    dsimp only at e hk
    subst e
    exact ⟨by omega, by omega, by simpa using hk⟩

/-- A whole line of 128 bytes that arrives is all that the eyelet then holds (R147). -/
theorem get_arrive (x : Eyelet) {bs : List Byte} (hb : bs.length = 128) {i : Nat} (hi : i < 128) :
    SMap.get 0 (x.arrive (bs.take 64) (bs.drop 64) 0).data i = bs.getD i 0 := by
  have hzero : bit (0 : Word) (i / 4) = false := by simp [bit]
  rw [Eyelet.arrive, get_fill, get_fill]
  simp only [List.length_take, List.length_drop, hb, hzero, and_true, List.getD_eq_getElem?_getD, List.getElem?_take, List.getElem?_drop]
  split
  next h => rw [Nat.add_sub_cancel' h.1]
  next h => rw [if_pos (by omega), if_pos (by omega), Nat.sub_zero]

/-! Live cords: what g tells of each stays. -/

/-- Each live cord of s is still live in t, and has what g tells of it. -/
def KeepsLive {β : Type} (g : Cord → β) (s t : State) : Prop := ∀ c x, s.findCord c = some x → ∃ y, t.findCord c = some y ∧ g y = g x

namespace KeepsLive
variable {β : Type} {g : Cord → β} {s t u : State}

theorem of_cords_eq (h1 : t.cord = s.cord) (h2 : t.cords = s.cords) : KeepsLive g s t :=
  fun c x h => ⟨x, by rw [State.findCord, h1, h2]; exact h, rfl⟩

theorem refl (s : State) : KeepsLive g s s := of_cords_eq rfl rfl

theorem trans (h : KeepsLive g s t) (k : KeepsLive g t u) : KeepsLive g s u := fun c x hx =>
  let ⟨y, hy, hg⟩ := h c x hx
  let ⟨z, hz, hg'⟩ := k c y hy
  ⟨z, hz, hg'.trans hg⟩

/-- A change of one cord that keeps what g tells, at least of the one that its number finds. -/
theorem onCord {f : Cord → Cord} {c : Nat} (hc : ∀ x, (f x).cid = x.cid) (hl : ∀ x, (f x).live = x.live)
    (hg : ∀ x, s.findCord c = some x → g (f x) = g x) : KeepsLive g s (s.onCord c f) := by
  intro j x hx
  rw [findCord_onCord c j f s hc hl]
  split
  next e =>
    subst e
    exact ⟨f x, by rw [hx]; rfl, hg x hx⟩
  next => exact ⟨x, hx, rfl⟩

section
variable (hdue : ∀ x e d, g (x.setEye e { x.eye e with due := d }) = g x)
include hdue

theorem setDue (c e : Nat) (s : State) : KeepsLive g s (s.setDue c e) := by
  unfold State.setDue
  split
  · exact refl s
  next x hx => exact onCord (fun _ => rfl) (fun _ => rfl) fun y hy => by rw [Option.some.inj (hx.symm.trans hy), hdue]

theorem sendFill (c e tok : Nat) (s : State) : KeepsLive g s (s.sendFill c e tok) := by
  unfold State.sendFill
  split
  · exact refl s
  · exact (setDue hdue c e s).trans (of_cords_eq rfl rfl)

theorem sendReads (c tok : Nat) (r : Refresh) (s : State) : KeepsLive g s (s.sendReads c tok r) := by
  unfold State.sendReads
  split
  · exact refl s
  · extract_lets lines least t
    have ht : KeepsLive g s t := foldl_keeps (KeepsLive g s) _ _ (fun u f h => h.trans (setDue hdue c f.1 u)) s (refl s)
    exact ht.trans (of_cords_eq rfl rfl)

variable (hops : ∀ x ops, g { x with ops := ops } = g x)
include hops

omit hdue in
theorem setOp (c : Nat) (o : Op) (left : Nat) (k : OpKind) (s : State) : KeepsLive g s (s.setOp c o left k) := by
  unfold State.setOp
  exact onCord (fun _ => rfl) (fun _ => rfl) fun x _ => hops x _

theorem resendRun (c : Nat) (x : Cord) (o : Op) (s : State) : KeepsLive g s (s.resendRun c x o) := by
  unfold State.resendRun
  split
  · extract_lets es asked
    split
    · exact refl s
    · have hc : KeepsLive g s (s.cancel asked) := of_cords_eq rfl rfl
      exact (hc.trans (setOp hops c o 1 _ _)).trans (sendReads hdue c o.tok _ _)
  · exact refl s

theorem resendFills (c : Nat) (s : State) : KeepsLive g s (s.resendFills c) := by
  unfold State.resendFills
  extract_lets filling fills opens jobs gone t u
  have ht : KeepsLive g s t := foldl_keeps (KeepsLive g s) _ _ (fun v f h => h.trans (sendFill hdue c f.1 f.2 v)) _ (of_cords_eq rfl rfl)
  have hu : KeepsLive g s u := foldl_keeps (KeepsLive g s) _ _ (fun v j h => h.trans (sendReads hdue c j.1 _ v)) t ht
  split
  · exact hu
  next x _ => exact foldl_keeps (KeepsLive g s) _ _ (fun v o h => h.trans (resendRun hdue hops c x o v)) u hu

/-- The start of an acquire changes of a cord its epoch, its forms, and from when on its fills may end (R203). -/
theorem beginAcquire (hepoch : ∀ x n, g { x with epoch := n } = g x) (c tok : Nat) (s : State) : KeepsLive g s (s.beginAcquire c tok) := by
  have h1 : KeepsLive g s (s.onCord c Cord.advanced) := onCord (fun _ => rfl) (fun _ => rfl) fun x _ => hepoch x _
  have h2 := h1.trans (resendFills hdue hops c _)
  unfold State.beginAcquire State.beginAcquireOf
  dsimp only
  split
  · exact h2
  · exact h2.trans (sendReads hdue _ _ _ _)

end

/-- What a cord has, when it is the one in the focus. -/
theorem focus (h : KeepsLive g s t) (hl : s.cord.live = true) (hcid : t.cord.cid = s.cord.cid)
    (hlive : t.cord.live = s.cord.live) : g t.cord = g s.cord := by
  have find (v : State) (hv : v.cord.live = true) : v.findCord v.cord.cid = some v.cord := by simp [State.findCord, hv]
  obtain ⟨y, hy, hg⟩ := h s.cord.cid s.cord (find s hl)
  rw [← hcid, find t (hlive.trans hl)] at hy
  exact Option.some.inj hy ▸ hg

end KeepsLive

/-- What of a cord the start of an acquire leaves alone: the count of its loads, and its eyelets but for the time of their fills. -/
def Cord.bindings (x : Cord) : Nat × (Nat → Eyelet) := (x.ldcnt, fun e => { x.eye e with due := 0 })

theorem bindings_setEye (x : Cord) (e d : Nat) : (x.setEye e { x.eye e with due := d }).bindings = x.bindings := by
  unfold Cord.bindings
  refine Prod.ext rfl (funext fun j => ?_)
  simp only [eye_setEye]
  split
  next h => rw [h]
  next => rfl

theorem ldcnt_of_bindings {x y : Cord} (h : y.bindings = x.bindings) : y.ldcnt = x.ldcnt := congrArg (·.1) h

theorem eye_of_bindings {x y : Cord} (h : y.bindings = x.bindings) (e : Nat) : y.eye e = { x.eye e with due := (y.eye e).due } :=
  congrArg (fun z : Eyelet => { z with due := (y.eye e).due }) (congrFun (congrArg (·.2) h) e)

theorem keepsLive_beginAcquire (c tok : Nat) (s : State) : KeepsLive Cord.bindings s (s.beginAcquire c tok) :=
  .beginAcquire bindings_setEye (fun _ _ => rfl) (fun _ _ => rfl) c tok s

theorem bindings_beginAcquire {tok : Nat} {s : State} (hl : s.cord.live = true) :
    (s.beginAcquire s.cord.cid tok).cord.bindings = s.cord.bindings := by
  have h := (steady_beginAcquire s.cord.cid tok s).cord
  rw [show (s.onCord s.cord.cid Cord.advanced).cord = s.cord.advanced from if_pos rfl] at h
  exact (keepsLive_beginAcquire s.cord.cid tok s).focus hl (congrArg (·.1) h) (congrArg (·.2.1) h)

/-! Outstanding forms (R81). -/

theorem findCord_eq_some {s : State} {c : Nat} {x : Cord} (h : Runs s c x) : s.findCord c = some x := findCord_of_cordRec h.1 h.2

theorem cid_of_cordRec {s : State} {c : Nat} {x : Cord} (h : s.cordRec c = some x) : x.cid = c := by simpa using List.find?_some h

/-- A part of the form of a token has ended. -/
def Cord.partDone (tok : Nat) (x : Cord) : Cord := { x with ops := x.ops.map fun p => if p.tok = tok then { p with left := p.left - 1 } else p }

section
variable {s : State} {c tok : Nat} {x : Cord} {o : Op} (hx : s.cordRec c = some x) (ho : x.ops.find? (·.tok == tok) = some o) (h1 : o.left ≤ 1)
include hx ho h1

/-- The last part of an openv's fills asks for the version word again (R218). -/
theorem opPart_asks {first n k v1 : Nat} {dead : Bool} (hk : o.kind = .versioned first n (k + 1) v1 dead) :
    s.opPart c tok = (s.onCord c (Cord.partDone tok)).askVersion c o first := by
  unfold State.opPart
  simp only [hx, ho, hk, if_neg (Nat.not_lt.2 h1)]
  rfl

/-- The last part of an atomic's acquire ends the form (R212). -/
theorem opPart_ends_atom {line : Nat} {cells : List (Nat × Byte)} (hk : o.kind = .atom line cells) :
    s.opPart c tok = (s.onCord c (Cord.partDone tok)).onCord c fun x => x.endOp o := by
  unfold State.opPart
  simp only [hx, ho, hk, if_neg (Nat.not_lt.2 h1)]
  rfl

end

theorem onCord_self (c : Nat) (s : State) : s.onCord c (fun x => x) = s := by simp [State.onCord, State.mapCords]

/-- An acquire that has made all its reads and is due lands what it brings, and its form goes on (R156, R202). -/
theorem exec_acquireComplete_lands {s : State} {c tok : Nat} {x : Cord} {o : Op} {lines : List (Nat × Nat × List Byte)}
    (hn : s.now = some (.acquireComplete c tok ⟨some [], [], [], [], [], lines⟩)) (hx : Runs s c x)
    (ho : x.ops.find? (·.tok == tok) = some o) (hd : o.due ≤ s.cycle) :
    exec .acquireComplete s = .next (State.opPart c tok (lines.foldl (fun s l => s.landLine c l) s)) := by
  have hid : x.cid = c := cid_of_cordRec hx.1
  change execAcquireComplete s = _
  unfold execAcquireComplete
  simp only [hn, State.ifCord, findCord_eq_some hx]
  unfold State.acquireStep
  simp [gathering, hid, ho, Nat.not_lt.2 hd, onCord_self]

end Sys2Proof.Machine
end

section
/-! Versioned opens (R218): the issue of openv, what an attempt reads and fills, and how a run ends. -/

namespace Sys2Proof.Machine

open Claims

/-! Binding eyelets that no read is in flight for (R146, R152). -/

/-- A cord whose openv, if one was filling an eyelet, is ended. -/
def Cord.runKilled (e : Nat) (x : Cord) : Cord := if (x.eye e).st = .filling then x.killRun (x.eye e).tok else x

theorem of_acquireOf {c : Nat} {d : Due} {j : Nat × Refresh} (h : acquireOf c d = some j) : d.what = .acquireComplete c j.1 j.2 := by
  unfold acquireOf at h
  split at h
  next c' t r hw =>
    split at h
    next hc =>
      cases h
      rw [hw, hc]
    next => cases h
  next => cases h

/-- Acquires that open no line into an eyelet have none to drop. -/
theorem onAcquires_dropFill {s : State} {c e : Nat} (h : ∀ d ∈ s.agenda, ∀ k r, d.what = .acquireComplete c k r →
    (∀ f ∈ r.fills, f.1 ≠ e) ∧ ∀ l ∈ r.lines, l.1 ≠ e) : State.onAcquires c (dropFill e) s = s := by
  have hmap : (State.onAcquires c (dropFill e) s).agenda = s.agenda := by
    refine (List.map_congr_left fun d hd => ?_).trans (List.map_id _)
    obtain ⟨at_, what⟩ := d
    cases what
    case acquireComplete c' t r =>
      dsimp only
      split
      next hc =>
        obtain ⟨hf, hl⟩ := h _ hd t r (by rw [hc])
        rw [dropFill, List.filter_eq_self.2 fun f hm => by simpa using hf f hm, List.filter_eq_self.2 fun l hm => by simpa using hl l hm]
        rfl
      next => rfl
    all_goals rfl
  change { s with agenda := (State.onAcquires c (dropFill e) s).agenda } = s
  rw [hmap]

theorem dropReads_noRead {s : State} {c e : Nat} (h : NoRead s c e) : s.dropReads c e = s.onCord c (Cord.runKilled e) := by
  have hread : ∀ d ∈ s.agenda, readOf c e d.what = none := fun d hd =>
    Option.eq_none_iff_forall_not_mem.2 fun t ht => h d hd t (.inl ht)
  have hopen : ∀ d ∈ s.agenda, ∀ k r, d.what = .acquireComplete c k r →
      (∀ f ∈ r.fills, f.1 ≠ e) ∧ ∀ l ∈ r.lines, l.1 ≠ e := fun d hd k r hr =>
    ⟨fun f hf he => h d hd f.2 (.inr ⟨k, r, hr, .inl (he ▸ hf)⟩), fun l hl he => h d hd l.2.1 (.inr ⟨k, r, hr, .inr ⟨l.2.2, he ▸ hl⟩⟩)⟩
  have hcancel : s.cancel (fun i => (readOf c e i).isSome) = s := by
    have : s.agenda.filter (fun d => !(readOf c e d.what).isSome) = s.agenda :=
      List.filter_eq_self.2 fun d hd => by simp [hread d hd]
    rw [State.cancel, this]
  have htoks : ((s.agenda.filterMap fun d => readOf c e d.what).eraseDups ++ (s.agenda.filterMap (acquireOf c)).flatMap fun j =>
      (j.2.fills ++ j.2.lines.map fun l => (l.1, l.2.1)).filterMap fun f => if f.1 = e then some f.2 else none) = [] := by
    rw [List.filterMap_eq_nil_iff.2 hread, List.eraseDups_nil, List.nil_append, List.flatMap_eq_nil_iff]
    intro j hj
    obtain ⟨d, hd, hj⟩ := List.mem_filterMap.1 hj
    obtain ⟨hfills, hlines⟩ := hopen d hd j.1 j.2 (of_acquireOf hj)
    refine List.filterMap_eq_nil_iff.2 fun f hf => if_neg ?_
    rcases List.mem_append.1 hf with hf | hf
    · exact hfills f hf
    · obtain ⟨l, hl, rfl⟩ := List.mem_map.1 hf
      exact hlines l hl
  unfold State.dropReads
  simp only [htoks, hcancel, onAcquires_dropFill hopen]
  rfl

/-- Between s and t eyelets of the focused cord were bound: nothing was sent or cancelled, and the cord's counts are as they were. -/
structure Binds (s t : State) : Prop where
  cycle : t.cycle = s.cycle
  agenda : t.agenda = s.agenda
  cid : t.cord.cid = s.cord.cid
  live : t.cord.live = s.cord.live
  ldcnt : t.cord.ldcnt = s.cord.ldcnt
  epoch : t.cord.epoch = s.cord.epoch

theorem Binds.refl (s : State) : Binds s s := ⟨rfl, rfl, rfl, rfl, rfl, rfl⟩

theorem Binds.trans {s t u : State} (h : Binds s t) (k : Binds t u) : Binds s u :=
  ⟨k.cycle.trans h.cycle, k.agenda.trans h.agenda, k.cid.trans h.cid, k.live.trans h.live, k.ldcnt.trans h.ldcnt, k.epoch.trans h.epoch⟩

theorem Binds.noRead {s t : State} (h : Binds s t) {e : Nat} (hr : NoRead s s.cord.cid e) : NoRead t t.cord.cid e := by
  rw [h.cid]
  exact fun d hd => hr d (h.agenda ▸ hd)

/-- An eyelet waits for the line of an address, for the form of a token. -/
def Eyelet.Awaits (y : Eyelet) (va tok : Nat) : Prop := y.st = .filling ∧ y.vla = va / 128 ∧ y.tok = tok

theorem bindEye_noRead {s : State} {e : Nat} (va : Nat) (p : Page) (tok : Nat) (tol : Option Word) (h : NoRead s s.cord.cid e) :
    Binds s (s.bindEye e va p tok tol) ∧
      ∃ y : Eyelet, y.Awaits va tok ∧ ∀ j, (s.bindEye e va p tok tol).cord.eye j = if j = e then y else s.cord.eye j := by
  have hkilled : (s.onCord s.cord.cid (Cord.runKilled e)).cord = s.cord.runKilled e := if_pos rfl
  have hops : ∃ ops, s.cord.runKilled e = { s.cord with ops := ops } := by
    unfold Cord.runKilled
    split
    · exact ⟨_, rfl⟩
    · exact ⟨_, rfl⟩
  obtain ⟨ops, hops⟩ := hops
  unfold State.bindEye
  simp only [dropReads_noRead h, State.onSelf, hkilled, hops]
  exact ⟨⟨rfl, rfl, rfl, rfl, rfl, rfl⟩, _, ⟨rfl, rfl, rfl⟩, fun j => eye_setEye ..⟩

/-- Eyelets bound one after another, each with the address and the page of its line. -/
def State.bindAll (tok : Nat) (tol : Option Word) (es : List (Nat × Nat × Page)) (s : State) : State :=
  es.foldl (fun s x => s.bindEye x.1 x.2.1 x.2.2 tok tol) s

/-- Distinct eyelets that no read is in flight for all wait in the end, and no other eyelet changes (R146, R147). -/
theorem bindAll_noRead (tok : Nat) (tol : Option Word) {es : List (Nat × Nat × Page)} (hn : (es.map (·.1)).Nodup) {s : State}
    (h : ∀ x ∈ es, NoRead s s.cord.cid x.1) : Binds s (s.bindAll tok tol es) ∧
      (∀ x ∈ es, ((s.bindAll tok tol es).cord.eye x.1).Awaits x.2.1 tok) ∧
      ∀ e, (∀ x ∈ es, x.1 ≠ e) → (s.bindAll tok tol es).cord.eye e = s.cord.eye e := by
  induction es generalizing s with
  | nil => exact ⟨.refl s, by simp, fun _ _ => rfl⟩
  | cons x es ih =>
    rw [List.map_cons, List.nodup_cons] at hn
    obtain ⟨hfirst, y, hy, heye⟩ := bindEye_noRead x.2.1 x.2.2 tok tol (h x List.mem_cons_self)
    obtain ⟨hrest, hbound, hother⟩ := ih hn.2 fun z hz => hfirst.noRead (h z (List.mem_cons_of_mem _ hz))
    refine ⟨hfirst.trans hrest, fun z hz => ?_, fun e he => ?_⟩
    · rcases List.mem_cons.1 hz with rfl | hz
      · have := hother z.1 fun w hw e => hn.1 (e ▸ List.mem_map_of_mem hw)
        rw [heye, if_pos rfl] at this
        exact this ▸ hy
      · exact hbound z hz
    · exact (hother e fun w hw => he w (List.mem_cons_of_mem _ hw)).trans ((heye e).trans (if_neg fun e' => he x List.mem_cons_self e'.symm))

/-! The issue of openv. -/

theorem toNat_pair64 (lo hi : Word) : (pair64 lo hi).toNat = lo.toNat + hi.toNat * 2 ^ 32 := by
  rw [pair64, BitVec.toNat_append, Nat.shiftLeft_eq, ← Nat.shiftLeft_eq, ← Nat.shiftLeft_add_eq_or_of_lt lo.isLt, Nat.shiftLeft_eq, Nat.add_comm]

theorem lanesOf_ne_nil {m : Word} (h : m ≠ 0) : lanesOf m ≠ [] := by
  intro hn
  refine h (BitVec.eq_of_getLsbD_eq fun l hl => ?_)
  have : l ∉ lanesOf m := by simp [hn]
  simpa [mem_lanesOf, hl, bit] using this

/-- The eyelets of an openv with the addresses and pages of their lines. -/
def openvEyes (d v n : Nat) (ps : List Page) : List (Nat × Nat × Page) :=
  (((List.range n).map fun i => (v / 128 + i) * 128 % 2 ^ 64).zip ps).zipIdx.map fun x => (d + x.2, x.1.1, x.1.2)

/-- The state in which the form of an openv is outstanding, its lines are counted and its eyelets are bound. -/
def State.openvBound (d v n : Nat) (ps : List Page) (s : State) : State :=
  State.bindAll s.fresh none (openvEyes d v n ps) (State.onSelf (fun c => { c with ldcnt := c.ldcnt + n })
    (s.open_ { tok := 0, flag := some s.cord.flag, left := 1, ld := n, kind := .versioned d n 0 0 false }))

theorem exec_openv {d : Eye} {a b : Rd} {s : State} {v : Nat} {ps : List Page}
    (hc : Form.check { lat := .v, vecs := rdVecs a 1 ++ rdVecs b 1 } s = none) (hact : s.cord.act ≠ 0)
    (hv : ∀ l, l < 32 → bit s.cord.act l = true → (s.cord.rd a l).toNat + (s.cord.rd b l).toNat * 2 ^ 32 = v)
    (h0 : v / 16 % 8 = 0) (hspan : d.val + (v % 16 + 1) ≤ 16) (hroom : s.cord.ldcnt + (v % 16 + 1) ≤ 255)
    (hit : Hits s .r ((List.range (v % 16 + 1)).map fun i => (v / 128 + i) * 128 % 2 ^ 64) ps) :
    exec (.openv d a b) s = .next (Form.issued { lat := .v, vecs := rdVecs a 1 ++ rdVecs b 1 }
      (State.beginAcquire s.cord.cid s.fresh ((translated s).openvBound d.val v (v % 16 + 1) ps))) := by
  have hall : ∀ y ∈ s.cord.addrs a b (lanesOf s.cord.act), y = v := by
    intro y hy
    obtain ⟨l, hl, rfl⟩ := List.mem_map.1 hy
    obtain ⟨hl, hb⟩ := mem_lanesOf.1 hl
    rw [toNat_pair64, hv l hl hb]
  have hne : s.cord.addrs a b (lanesOf s.cord.act) ≠ [] := by simpa [Cord.addrs] using lanesOf_ne_nil hact
  have hhead : (s.cord.addrs a b (lanesOf s.cord.act)).headD 0 = v := by
    obtain ⟨y, ys, hys⟩ := List.exists_cons_of_ne_nil hne
    rw [hys] at hall ⊢
    exact hall y List.mem_cons_self
  have hcord : (translated s).cord = s.cord := translated_keeps (·.cord) (fun _ _ => rfl) s
  have hfresh : (translated s).fresh = s.fresh := translated_keeps (·.fresh) (fun _ _ => rfl) s
  change execOpenv d a b s = _
  refine runForm_done hc ?_
  simp only [hhead]
  rw [if_neg, if_neg, if_neg, withPages_hits hit]
  · simp only [State.openvBound, State.bindAll, openvEyes, List.foldl_map, hcord, hfresh]
  · simpa [Cord.roomLd] using hroom
  · omega
  · simpa using hall

theorem openvEyes_keys (d v n : Nat) {ps : List Page} (hl : ps.length = n) : (openvEyes d v n ps).map (·.1) = (List.range n).map (d + ·) := by
  have h : ((((List.range n).map fun i => (v / 128 + i) * 128 % 2 ^ 64).zip ps).zipIdx.map fun x => x.2) = List.range n := by
    rw [List.zipIdx_map_snd, List.range_eq_range']
    simp [hl]
  rw [openvEyes, List.map_map]
  exact (List.map_map (f := fun x : (Nat × Page) × Nat => x.2) (g := (d + ·))).symm.trans (congrArg _ h)

theorem mem_openvEyes {d v n : Nat} {ps : List Page} (hl : ps.length = n) {i : Nat} (hi : i < n) :
    ∃ p, (d + i, (v / 128 + i) * 128 % 2 ^ 64, p) ∈ openvEyes d v n ps := by
  refine ⟨ps[i], List.mem_map.2 ⟨(((v / 128 + i) * 128 % 2 ^ 64, ps[i]), i), List.mk_mem_zipIdx_iff_getElem?.2 ?_, rfl⟩⟩
  simp [hi, hl]

/-- The eyelets of an openv wait for its lines, its lines are counted, and its acquire is sent. -/
theorem openv_begins {s : State} {d v n : Nat} {ps : List Page} (hl : s.cord.live = true) (hps : ps.length = n)
    (hr : ∀ i < n, NoRead s s.cord.cid (d + i)) :
    let t := State.beginAcquire s.cord.cid s.fresh (s.openvBound d v n ps)
    t.cord.ldcnt = s.cord.ldcnt + n ∧ t.cord.epoch = s.cord.epoch + 1 ∧ (∃ r, Sends s t 0 (.acquireComplete s.cord.cid s.fresh r)) ∧
      ∀ i < n, (t.cord.eye (d + i)).Awaits ((v / 128 + i) * 128 % 2 ^ 64) s.fresh := by
  have hkeys := openvEyes_keys d v n hps
  obtain ⟨hb, hbound, -⟩ := bindAll_noRead s.fresh none (es := openvEyes d v n ps) (by rw [hkeys]; exact nodup_run d n)
    (s := State.onSelf (fun c => { c with ldcnt := c.ldcnt + n })
      (s.open_ { tok := 0, flag := some s.cord.flag, left := 1, ld := n, kind := .versioned d n 0 0 false })) fun x hx => by
    obtain ⟨i, hi, he⟩ := mem_run.1 (hkeys ▸ List.mem_map_of_mem (f := fun x : Nat × Nat × Page => x.1) hx)
    rw [he]
    exact hr i hi
  change Binds _ (s.openvBound d v n ps) at hb
  have hlive : (s.openvBound d v n ps).cord.live = true := hb.live.trans hl
  have hcid : (s.openvBound d v n ps).cord.cid = s.cord.cid := hb.cid
  obtain ⟨hepoch, -, r, hsent⟩ := beginAcquire_focus (tok := s.fresh) hlive
  have hkeep := bindings_beginAcquire (tok := s.fresh) hlive
  rw [hcid] at hepoch hsent hkeep
  refine ⟨(ldcnt_of_bindings hkeep).trans hb.ldcnt, hepoch.trans (congrArg (· + 1) hb.epoch), ⟨r, sends_of_cycle hsent hb.cycle⟩, fun i hi => ?_⟩
  obtain ⟨p, hp⟩ := mem_openvEyes (d := d) (v := v) hps hi
  rw [eye_of_bindings hkeep]
  exact hbound _ hp

end Sys2Proof.Machine
end

section
/-! The attempts of an openv and its end (R218). -/

namespace Sys2Proof.Machine

open Claims

/-- A running cord still runs, and stands as it did, when only reads were sent. -/
theorem Steady.runs {s t : State} (hst : Steady s t) {c : Nat} {x : Cord} (hx : Runs s c x) : ∃ y, Runs t c y ∧ y.stand = x.stand := by
  have hstand := hst.cordRec c
  rw [hx.1, Option.map_some, Option.map_eq_some_iff] at hstand
  obtain ⟨y, hy, hyx⟩ := hstand
  exact ⟨y, ⟨hy, (congrArg (·.2.1) hyx).trans hx.2⟩, hyx⟩

theorem KeepsLive.runs {β : Type} {g : Cord → β} {s t : State} (h : KeepsLive g s t) (hst : Steady s t) {c : Nat} {x : Cord} (hx : Runs s c x) :
    ∃ y, Runs t c y ∧ g y = g x := by
  obtain ⟨y, hy, -⟩ := hst.runs hx
  obtain ⟨z, hz, hg⟩ := h c x (findCord_eq_some hx)
  obtain rfl : y = z := Option.some.inj ((findCord_eq_some hy).symm.trans hz)
  exact ⟨y, hy, hg⟩

theorem runs_onCord {s : State} {c : Nat} {x : Cord} {f : Cord → Cord} (hc : ∀ y, (f y).cid = y.cid) (hl : ∀ y, (f y).live = y.live)
    (hx : Runs s c x) : Runs (s.onCord c f) c (f x) :=
  ⟨by rw [cordRec_onCord c c f s hc, if_pos rfl, hx.1]; rfl, (hl x).trans hx.2⟩

/-! The version word is asked for. -/

theorem askVersion_asks {s : State} {c : Nat} {x : Cord} (o : Op) (first : Nat) (hx : Runs s c x) :
    Runs (s.askVersion c o first) c x ∧ Sends s (s.askVersion c o first) 0 (.openvAttemptEnd c o.tok) := by
  unfold State.askVersion
  rw [findCord_eq_some hx]
  refine ⟨hx, ?_⟩
  obtain ⟨d, hd, he, hle⟩ := sends_afterPath x.core (s.homeOf (x.eye first).pla) (s.leastOpen x.core (x.eye first).pla / 2) (.openvAttemptEnd c o.tok) s
  exact ⟨d, hd, he, by omega⟩

/-- The form of an openv goes on as another kind. -/
def Cord.withKind (o : Op) (left : Nat) (k : OpKind) (x : Cord) : Cord :=
  { x with ops := x.ops.map fun p => if p.tok = o.tok then { o with left := left, kind := k } else p }

theorem tok_of_find {x : Cord} {tok : Nat} {o : Op} (ho : x.ops.find? (·.tok == tok) = some o) : o.tok = tok := by
  simpa using List.find?_some ho

theorem opKind_withKind {x : Cord} {tok left : Nat} {o : Op} {k : OpKind} (ho : x.ops.find? (·.tok == tok) = some o) :
    (x.withKind o left k).opKind tok = k := by
  have htok := tok_of_find ho
  have hsame : ((fun p : Op => p.tok == tok) ∘ fun p => if p.tok = o.tok then { o with left := left, kind := k } else p) = (·.tok == tok) := by
    funext p
    rw [Function.comp_apply]
    split
    next h => rw [h]
    next => rfl
  rw [Cord.opKind, Cord.withKind, List.find?_map, hsame, ho]
  simp

/-! An attempt fills what is left of its run. -/

/-- The lines of a run that no close or recall took from it: they are filled by its next attempt. -/
def Cord.runEyes (x : Cord) (tok first n : Nat) : List Nat := ((List.range n).map (first + ·)).filter fun e => (x.eye e).tok == tok

theorem mem_runEyes {x : Cord} {tok first n e : Nat} : e ∈ x.runEyes tok first n ↔ (∃ i < n, e = first + i) ∧ (x.eye e).tok = tok := by
  rw [Cord.runEyes, List.mem_filter, mem_run, beq_iff_eq]

/-- An eyelet whose line is on its way again. -/
def Eyelet.refilling (y : Eyelet) : Eyelet := { y with st := .filling, reason := .none }

def Cord.refill (x : Cord) (e : Nat) : Cord := x.setEye e (x.eye e).refilling

theorem refills_keep (es : List Nat) (x : Cord) : (es.foldl Cord.refill x).cid = x.cid ∧ (es.foldl Cord.refill x).live = x.live ∧
    (es.foldl Cord.refill x).ldcnt = x.ldcnt ∧ (es.foldl Cord.refill x).ops = x.ops :=
  foldl_keeps (fun y : Cord => y.cid = x.cid ∧ y.live = x.live ∧ y.ldcnt = x.ldcnt ∧ y.ops = x.ops) Cord.refill es (fun _ _ h => h) x ⟨rfl, rfl, rfl, rfl⟩

/-- The attempt of a run, its lines about to be read. -/
def State.runRefilled (c : Nat) (o : Op) (k : OpKind) (es : List Nat) (s : State) : State :=
  (s.onCord c (Cord.withKind o 1 k)).onCord c fun x => es.foldl Cord.refill x

theorem fillRun_eq {s : State} {c first n t v1 : Nat} {x : Cord} {o : Op} (hx : Runs s c x) : s.fillRun c o first n t v1 false =
    let es := x.runEyes o.tok first n
    let u := s.runRefilled c o (.versioned first n t v1 false) es
    if es.isEmpty then u.askVersion c o first else u.sendReads c o.tok ⟨none, es.map fun e => (e, o.tok), [], [], [], []⟩ := by
  have hall : (fun e => (x.eye e).tok == o.tok && ((x.eye e).st == .filling || !false)) = fun e => (x.eye e).tok == o.tok := by
    funext e
    simp
  unfold State.fillRun
  rw [findCord_eq_some hx]
  dsimp only
  rw [hall]
  rfl

/-- What of a cord the reads of an attempt leave alone. -/
def Cord.attempting (x : Cord) : (Nat × (Nat → Eyelet)) × List Op := (x.bindings, x.ops)

/-- An attempt reads all that is left of its run at once. -/
theorem fillRun_fills {s : State} {c tok first n t v1 : Nat} {x : Cord} {o : Op} (hx : Runs s c x) (ho : x.ops.find? (·.tok == tok) = some o) :
    let u := s.fillRun c o first n t v1 false
    ∃ y, Runs u c y ∧ y.ldcnt = x.ldcnt ∧ y.opKind tok = .versioned first n t v1 false ∧
      (∀ e ∈ x.runEyes tok first n, (y.eye e).st = .filling) ∧
      (x.runEyes tok first n ≠ [] → Sends s u 0 (.acquireComplete c tok ⟨none, (x.runEyes tok first n).map fun e => (e, tok), [], [], [], []⟩)) := by
  have htok := tok_of_find ho
  rw [fillRun_eq hx, htok]
  generalize hes : x.runEyes tok first n = es
  generalize hk : OpKind.versioned first n t v1 false = k
  dsimp only
  have hn : es.Nodup := hes ▸ (nodup_run first n).filter _
  have hrun : Runs (s.runRefilled c o k es) c (es.foldl Cord.refill (x.withKind o 1 k)) :=
    runs_onCord (fun y => (refills_keep es y).1) (fun y => (refills_keep es y).2.1) (runs_onCord (fun _ => rfl) (fun _ => rfl) hx)
  obtain ⟨-, -, hld, hops⟩ := refills_keep es (x.withKind o 1 k)
  have heye (e : Nat) (he : e ∈ es) : ((es.foldl Cord.refill (x.withKind o 1 k)).eye e).st = .filling := by
    rw [eye_foldl (f := Cord.refill) (g := Eyelet.refilling) (p := fun _ => True) (fun _ _ _ => trivial) (fun x e j _ => eye_setEye ..) hn trivial e,
      if_pos he]
    rfl
  have hkind : (es.foldl Cord.refill (x.withKind o 1 k)).opKind tok = k := by
    rw [Cord.opKind, hops]
    exact opKind_withKind ho
  split
  next hempty =>
    exact ⟨_, (askVersion_asks o first hrun).1, hld, hkind, heye, fun h => absurd (List.isEmpty_iff.1 hempty) h⟩
  next =>
    obtain ⟨y, hy, hg⟩ := (KeepsLive.sendReads (g := Cord.attempting) (fun x e d => Prod.ext (bindings_setEye x e d) rfl) c tok
      ⟨none, es.map fun e => (e, tok), [], [], [], []⟩ (s.runRefilled c o k es)).runs (Steady.sendReads ..) hrun
    obtain ⟨hbind, hsame⟩ := Prod.ext_iff.1 hg
    refine ⟨y, hy, (ldcnt_of_bindings hbind).trans hld, ?_, fun e he => ?_, fun _ => ?_⟩
    · rw [Cord.opKind, show y.ops = _ from hsame]
      exact hkind
    · rw [eye_of_bindings hbind]
      exact heye e he
    · exact sends_sendReads (by rw [findCord_eq_some hrun]; rfl)

section
variable {s : State} {c tok : Nat} {x : Cord} {o : Op} (hnow : s.now = some (.openvAttemptEnd c tok)) (hx : Runs s c x)
  (ho : x.ops.find? (·.tok == tok) = some o)
include hnow hx ho

theorem exec_attempt_fills {first n k : Nat} (hk : o.kind = .version first n k false) : exec .openvAttemptEnd s =
    .next (s.fillRun c o first n k (leNat (s.homeBytes ((x.eye first).pla * 128) 8)) false) := by
  change execOpenvAttemptEnd s = _
  unfold execOpenvAttemptEnd
  simp [hnow, State.ifCord, findCord_eq_some hx, ho, hk]

theorem exec_closed_run_ends {first n k : Nat} (hk : o.kind = .version first n (k + 2) true) (hstale : x.staleRun o = false) :
    exec .openvAttemptEnd s = .next (s.endRun c o first n (k + 1) false) := by
  change execOpenvAttemptEnd s = _
  unfold execOpenvAttemptEnd
  simp [hnow, State.ifCord, findCord_eq_some hx, ho, hk, hstale]

section
variable {first n k v1 : Nat} (hk : o.kind = .versioned first n k v1 false)
include hk

theorem exec_run_ends (h : (v1 % 2 = 0 ∧ v1 = leNat (s.homeBytes ((x.eye first).pla * 128) 8)) ∨ 16 ≤ k) : exec .openvAttemptEnd s =
    .next (s.endRun c o first n k (v1 % 2 == 0 && v1 == leNat (s.homeBytes ((x.eye first).pla * 128) 8))) := by
  change execOpenvAttemptEnd s = _
  unfold execOpenvAttemptEnd
  simp only [hnow, State.ifCord, findCord_eq_some hx, ho, hk, Bool.not_false, Bool.and_true]
  rw [if_neg]
  rintro ⟨-, hbad, hlt⟩
  rcases h with h | h
  · simp [h.1, ← h.2] at hbad
  · omega

theorem exec_run_retries (hbad : ¬(v1 % 2 = 0 ∧ v1 = leNat (s.homeBytes ((x.eye first).pla * 128) 8))) (hlt : k < 16) :
    exec .openvAttemptEnd s = .next (s.attempt c o first n (k + 1) false) := by
  change execOpenvAttemptEnd s = _
  unfold execOpenvAttemptEnd
  simp only [hnow, State.ifCord, findCord_eq_some hx, ho, hk]
  rw [if_pos]
  refine ⟨rfl, ?_, hlt⟩
  rw [Bool.not_eq_true', Bool.eq_false_iff, ne_eq, Bool.and_eq_true, beq_iff_eq, beq_iff_eq]
  exact hbad

end
end

/-! The end of a run. -/

/-- An eyelet that the end of an openv opens, if it was filling for it. -/
def Eyelet.settled (tok : Nat) (epoch : BitVec 8) (t : Nat) (ok : Bool) (y : Eyelet) : Eyelet :=
  if y.st = .filling ∧ y.tok = tok then { y with st := .opened, own := 0, fep := epoch, vok := ok, vtry := t } else y

def Cord.settle (tok t : Nat) (ok : Bool) (x : Cord) (e : Nat) : Cord :=
  let y := x.eye e
  if y.st = .filling ∧ y.tok = tok then x.setEye e { y with st := .opened, own := 0, fep := x.epoch, vok := ok, vtry := t } else x

theorem eye_settle (tok t : Nat) (ok : Bool) (x : Cord) (e j : Nat) :
    (x.settle tok t ok e).eye j = if j = e then (x.eye e).settled tok x.epoch t ok else x.eye j := by
  unfold Cord.settle Eyelet.settled
  dsimp only
  split
  · exact eye_setEye ..
  · split
    next h => rw [h]
    next => rfl

/-- What of a cord the opening of its eyelets leaves alone. -/
def Cord.unsettled (x : Cord) : Nat × Nat × BitVec 8 := (x.cid, x.ldcnt, x.epoch)

theorem settle_keeps (tok t : Nat) (ok : Bool) (x : Cord) (e : Nat) : (x.settle tok t ok e).unsettled = x.unsettled := by
  unfold Cord.settle
  dsimp only
  split <;> rfl

theorem settles_keep (tok t : Nat) (ok : Bool) (es : List Nat) (x : Cord) : (es.foldl (Cord.settle tok t ok) x).unsettled = x.unsettled :=
  foldl_keeps (fun y : Cord => y.unsettled = x.unsettled) _ es (fun y e h => (settle_keeps tok t ok y e).trans h) x rfl

/-- The end of a form that is no atomic takes its loads from the count, and changes no eyelet. -/
theorem endOp_reads {o : Op} (hk : ∀ line cells, o.kind ≠ .atom line cells) (x : Cord) :
    (x.endOp o).ldcnt = x.ldcnt - o.ld ∧ (x.endOp o).eyes = x.eyes := by
  unfold Cord.endOp
  split
  next line cells h => exact absurd h (hk line cells)
  next => cases o.flag <;> exact ⟨congrArg (· - o.ld) (applyAll_ldcnt x o.writes), applyAll_eyes x o.writes⟩

/-- The end of an openv opens what is left of its run, and returns its lines together (R196, R218). -/
theorem endRun_opens {s : State} {c : Nat} {x : Cord} {o : Op} (first n t : Nat) (ok : Bool) (hx : Runs s c x)
    (hk : ∀ line cells, o.kind ≠ .atom line cells) : ∃ y, (s.endRun c o first n t ok).cordRec c = some y ∧ y.ldcnt = x.ldcnt - o.ld ∧
      ∀ i < n, y.eye (first + i) = (x.eye (first + i)).settled o.tok x.epoch t ok := by
  obtain ⟨hld, heyes⟩ := endOp_reads hk (((List.range n).map (first + ·)).foldl (Cord.settle o.tok t ok) x)
  have hkeep (y : Cord) := settles_keep o.tok t ok ((List.range n).map (first + ·)) y
  have hrec := cordRec_onCord c c (fun y => (((List.range n).map (first + ·)).foldl (Cord.settle o.tok t ok) y).endOp o) s fun y =>
    (endOp_cid ..).trans (congrArg (·.1) (hkeep y))
  rw [if_pos rfl, hx.1] at hrec
  refine ⟨_, hrec, hld.trans (congrArg (·.2.1 - o.ld) (hkeep x)), fun i hi => ?_⟩
  have hsettled := eye_foldl (f := Cord.settle o.tok t ok) (g := Eyelet.settled o.tok x.epoch t ok) (p := fun y => y.epoch = x.epoch)
    (fun y e h => (congrArg (·.2.2) (settle_keeps o.tok t ok y e)).trans h) (fun y e j h => h ▸ eye_settle ..) (nodup_run first n) rfl (first + i)
  rw [if_pos (mem_run.2 ⟨i, hi, rfl⟩)] at hsettled
  rw [Cord.eye, heyes]
  exact hsettled

/-! The fills of an attempt arrive. -/

/-- A line that arrives in its eyelet, which opens, or waits for the end of its openv. -/
def Cord.landTo (e tok : Nat) (bs : List Byte) (x : Cord) : Cord :=
  let y := { (x.eye e).arrive (bs.take 64) (bs.drop 64) 0 with fep := x.epoch }
  x.setEye e (if (x.opKind tok).versionedRun then y else { y with st := .opened, own := 0 })

theorem eye_landTo_run {x : Cord} {e tok : Nat} {bs : List Byte} (hk : (x.opKind tok).versionedRun = true) :
    (x.landTo e tok bs).eye e = { (x.eye e).arrive (bs.take 64) (bs.drop 64) 0 with fep := x.epoch } := by
  rw [Cord.landTo, eye_setEye, if_pos rfl, if_pos hk]

theorem readEnded_run {s : State} {c tok : Nat} {x : Cord} (hx : Runs s c x) (hk : (x.opKind tok).versionedRun = true) :
    s.readEnded c tok = s := by
  unfold State.readEnded
  rw [findCord_eq_some hx]
  exact if_pos hk

theorem landLine_run {s : State} {c e tok : Nat} {x : Cord} {bs : List Byte} (hx : Runs s c x) (hk : (x.opKind tok).versionedRun = true) :
    Runs (s.landLine c (e, tok, bs)) c (x.landTo e tok bs) ∧ (s.landLine c (e, tok, bs)).cycle = s.cycle := by
  have hland : Runs (s.onCord c (Cord.landTo e tok bs)) c (x.landTo e tok bs) := runs_onCord (fun _ => rfl) (fun _ => rfl) hx
  change Runs (State.readEnded c tok (s.onCord c (Cord.landTo e tok bs))) c _ ∧ (State.readEnded c tok (s.onCord c (Cord.landTo e tok bs))).cycle = _
  rw [readEnded_run hland hk]
  exact ⟨hland, rfl⟩

theorem versionedRun_of_find {x : Cord} {tok first n k v1 : Nat} {dead : Bool} {o : Op} (ho : x.ops.find? (·.tok == tok) = some o)
    (hk : o.kind = .versioned first n k v1 dead) : (x.opKind tok).versionedRun = true := by
  simp [Cord.opKind, ho, hk, OpKind.versionedRun]

/-- With the last fill of an attempt the version word is asked for again (R218). -/
theorem exec_last_fill {s : State} {c tok e : Nat} {x : Cord} {o : Op} {first n k v1 : Nat} {dead : Bool} {bs : List Byte}
    (hnow : s.now = some (.acquireComplete c tok ⟨some [], [], [], [], [], [(e, tok, bs)]⟩)) (hx : Runs s c x)
    (ho : x.ops.find? (·.tok == tok) = some o) (hd : o.due ≤ s.cycle) (hk : o.kind = .versioned first n (k + 1) v1 dead) (h1 : o.left = 1) :
    ∃ t, exec .acquireComplete s = .next t ∧ Runs t c ((x.landTo e tok bs).partDone tok) ∧ Sends s t 0 (.openvAttemptEnd c tok) := by
  obtain ⟨hland, hcycle⟩ := landLine_run (e := e) (bs := bs) hx (versionedRun_of_find ho hk)
  have hexec := exec_acquireComplete_lands hnow hx ho hd
  rw [List.foldl_cons, List.foldl_nil, opPart_asks (x := x.landTo e tok bs) hland.1 ho (Nat.le_of_eq h1) hk] at hexec
  obtain ⟨hy, hsent⟩ := askVersion_asks o first (runs_onCord (f := Cord.partDone tok) (fun _ => rfl) (fun _ => rfl) hland)
  rw [tok_of_find ho] at hsent
  exact ⟨_, hexec, hy, sends_of_cycle hsent hcycle⟩

end Sys2Proof.Machine

namespace Sys2Proof

open Machine Claims

/-- Settles O30, clause by clause: the issue (`openv_begins`), the reads of an attempt (`fillRun_fills`), their arrival, and the
end of a run (`endRun_opens`). -/
theorem versionedOpens : Obligations.VersionedOpens := by
  unfold Obligations.VersionedOpens
  refine ⟨fun d a b s v ps => ?_, fun s c tok x o first n k hnow hx ho hk => ?_,
    fun s c tok e x o first n k v1 dead bs hnow hx hb ho hd hk h1 => ?_, fun s c tok x o first n k hnow hx ho hk hstale hld => ?_, fun s c tok x o first n k v1 hnow hx ho hk hld hrun => ?_⟩
  · intro f n hc hl hact hv h0 hspan hroom hit hread
    have hcord : (translated s).cord = s.cord := translated_keeps (·.cord) (fun _ _ => rfl) s
    have hagenda : (translated s).agenda = s.agenda := translated_keeps (·.agenda) (fun _ _ => rfl) s
    have hfresh : (translated s).fresh = s.fresh := translated_keeps (·.fresh) (fun _ _ => rfl) s
    have hbegins := openv_begins (s := translated s) (d := d.val) (v := v) (n := n) (ps := ps) (hcord ▸ hl) (by simpa using hit.1.symm)
      (by rw [hcord]; unfold NoRead; rw [hagenda]; exact hread)
    rw [hcord, hfresh] at hbegins
    obtain ⟨hcnt, hepoch, ⟨r, hsent⟩, hwait⟩ := hbegins
    refine ⟨_, r, exec_openv hc hact hv h0 hspan hroom hit, hcnt, hepoch, sends_of_cycle hsent (translated_cycle s), fun i hi => ?_⟩
    obtain ⟨hst, hvla, htok⟩ := hwait i hi
    exact ⟨hst, hvla.trans (by omega), htok⟩
  · obtain ⟨y, hy, hcnt, hkind, hfill, hsent⟩ := fillRun_fills (first := first) (n := n) (t := k)
      (v1 := leNat (s.homeBytes ((x.eye first).pla * 128) 8)) hx ho
    have hmem {i : Nat} (hi : i < n) (ht : (x.eye (first + i)).tok = tok) : first + i ∈ x.runEyes tok first n := mem_runEyes.2 ⟨⟨i, hi, rfl⟩, ht⟩
    exact ⟨_, y, exec_attempt_fills hnow hx ho hk, hy.1, hcnt, hkind, _, fun ⟨i, hi, ht⟩ => hsent (List.ne_nil_of_mem (hmem hi ht)),
      fun i hi ht => ⟨hfill _ (hmem hi ht), List.mem_map_of_mem (hmem hi ht)⟩⟩
  · obtain ⟨t, ht, hy, hsent⟩ := exec_last_fill hnow hx ho hd hk h1
    have heye : ((x.landTo e tok bs).partDone tok).eye e = { (x.eye e).arrive (bs.take 64) (bs.drop 64) 0 with fep := x.epoch } :=
      eye_landTo_run (versionedRun_of_find ho hk)
    refine ⟨t, _, ht, hy.1, rfl, ?_, ?_, fun i hi => ?_, hsent⟩
    · rw [heye]
      rfl
    · rw [heye]
    · rw [heye]
      exact get_arrive (x.eye e) hb hi
  · obtain ⟨y, hy, hcnt, heye⟩ := endRun_opens first n (k + 1) false hx (o := o) (by simp [hk])
    exact ⟨_, y, exec_closed_run_ends hnow hx ho hk hstale, hy, hld ▸ hcnt, heye⟩
  · dsimp only
    constructor
    · intro h
      obtain ⟨y, hy, hcnt, heye⟩ := endRun_opens first n k (v1 % 2 == 0 && v1 == leNat (s.homeBytes ((x.eye first).pla * 128) 8)) hx (o := o) (by simp [hk])
      refine ⟨_, y, exec_run_ends hnow hx ho hk h, hy, hld ▸ hcnt, fun i hi => ?_⟩
      obtain ⟨hst, ht⟩ := hrun i hi
      rw [heye i hi, Eyelet.settled, if_pos ⟨hst, ht.trans (tok_of_find ho).symm⟩]
      refine ⟨rfl, rfl, rfl, ?_, rfl⟩
      rw [Bool.and_eq_true, beq_iff_eq, beq_iff_eq]
      rfl
    · intro hbad hlt
      have hrun' := runs_onCord (s := s) (f := Cord.withKind o 0 (.version first n (k + 1) false)) (fun _ => rfl) (fun _ => rfl) hx
      obtain ⟨hy, hsent⟩ := askVersion_asks o first hrun'
      rw [tok_of_find ho] at hsent
      exact ⟨_, _, exec_run_retries hnow hx ho hk hbad hlt, hy.1, rfl, rfl, opKind_withKind ho, hsent⟩

end Sys2Proof
end

section
/-! The operations of an atomic's lanes, one after another (R209, R213): what `atomRun` makes of the bytes of a line. -/

namespace Sys2Proof.Machine

open Claims

/-! Numbers and their bytes (R21). -/

/-- The bytes of a number that bytes hold are these bytes. -/
theorem byte_leNat : ∀ (bs : List Byte) {i : Nat}, i < bs.length → BitVec.ofNat 8 (leNat bs / 2 ^ (8 * i)) = bs.getD i 0
  | b :: bs, 0, _ => by
    refine BitVec.eq_of_toNat_eq ?_
    have := b.isLt
    rw [BitVec.toNat_ofNat, leNat]
    change (b.toNat + 256 * leNat bs) / 1 % 2 ^ 8 = b.toNat
    omega
  | b :: bs, i + 1, h => by
    have := b.isLt
    have hdiv : (b.toNat + 256 * leNat bs) / 2 ^ (8 * (i + 1)) = leNat bs / 2 ^ (8 * i) := by
      rw [Nat.mul_succ, Nat.add_comm (8 * i), pow_add, ← Nat.div_div_eq_div_mul]
      exact congrArg (· / 2 ^ (8 * i)) (by omega)
    rw [leNat, hdiv, byte_leNat bs (Nat.lt_of_succ_lt_succ h), List.getD_cons_succ]

/-- The number that z bytes hold, as a doubleword. -/
def wide (z : Nat) (byte : Nat → Byte) : Dword := BitVec.ofNat 64 (leNat ((List.range z).map byte))

theorem toNat_wide {z : Nat} (hz : z ≤ 8) (byte : Nat → Byte) : (wide z byte).toNat = leNat ((List.range z).map byte) := by
  refine Nat.mod_eq_of_lt (Nat.lt_of_lt_of_le (leNat_lt _) ?_)
  rw [List.length_map, List.length_range]
  exact Nat.pow_le_pow_right (by decide) hz

theorem byte_wide {z i : Nat} (hz : z ≤ 8) (byte : Nat → Byte) (hi : i < z) : BitVec.ofNat 8 ((wide z byte).toNat / 2 ^ (8 * i)) = byte i := by
  rw [toNat_wide hz, byte_leNat _ (by simpa using hi)]
  simp [hi]

theorem leBytes_getD {x z i : Nat} (hi : i < z) : (leBytes x z).getD i 0 = BitVec.ofNat 8 (x / 2 ^ (8 * i)) := by
  simp [leBytes, hi, Nat.shiftRight_eq_div_pow]

theorem mem_leCells {a x z o : Nat} {b : Byte} : (o, b) ∈ cellsAt a (leBytes x z) ↔
    (a ≤ o ∧ o < a + z) ∧ b = BitVec.ofNat 8 (x / 2 ^ (8 * (o - a))) := by
  rw [mem_cellsAt, length_leBytes]
  constructor
  · rintro ⟨i, hi, h⟩
    obtain ⟨rfl, rfl⟩ := Prod.mk.inj h
    rw [leBytes_getD hi, Nat.add_sub_cancel_left]
    exact ⟨⟨Nat.le_add_right _ _, by omega⟩, rfl⟩
  · rintro ⟨⟨h1, h2⟩, rfl⟩
    exact ⟨o - a, by omega, by rw [leBytes_getD (by omega), Nat.add_sub_cancel' h1]⟩

theorem wide_leBytes {x : Dword} {z : Nat} (hx : x.toNat < 2 ^ (8 * z)) : wide z (fun i => BitVec.ofNat 8 (x.toNat >>> (8 * i))) = x := by
  change BitVec.ofNat 64 (leNat (leBytes x.toNat z)) = x
  rw [leNat_leBytes, Nat.mod_eq_of_lt hx, BitVec.ofNat_toNat, BitVec.setWidth_eq]

theorem atomBytes_le (ty : Nat) : atomBytes ty ≤ 8 := by
  unfold atomBytes
  split <;> decide

/-! One lane's turn. -/

/-- An offset is in a lane's place. -/
def Names (x : AtomLane) (z o : Nat) : Prop := x.off ≤ o ∧ o < x.off + z

/-- What an offset holds under cells: the first cell of it, or what was read. -/
def under (cells : List (Nat × Byte)) (read : Nat → Byte) (o : Nat) : Byte := ((cells.find? fun k => k.1 == o).map (·.2)).getD (read o)

/-- A lane's turn on old values and changed bytes, as `atomRun` takes it. -/
def atomTurn (r : AtomReq) (read : Nat → Byte) (p : List (Nat × Dword) × List (Nat × Byte)) (x : AtomLane) : List (Nat × Dword) × List (Nat × Byte) :=
  let z := atomBytes r.ty
  let old := wide z fun i => under p.2 read (x.off + i)
  let new := leBytes (atomResult r x old).toNat z
  let kept := p.2.filter fun c => !(decide (x.off ≤ c.1) && decide (c.1 < x.off + z))
  (p.1 ++ [(x.lane, old)], if r.kind = 1 ∧ old ≠ x.cmp then p.2 else kept ++ cellsAt x.off new)

theorem atomRun_eq (r : AtomReq) (read : Nat → Byte) : atomRun r read = r.lanes.foldl (atomTurn r read) ([], []) := rfl

/-- The same turn on old values and all bytes. -/
def byteTurn (r : AtomReq) (p : List (Nat × Dword) × (Nat → Byte)) (x : AtomLane) : List (Nat × Dword) × (Nat → Byte) :=
  let z := atomBytes r.ty
  let old := wide z fun i => p.2 (x.off + i)
  (p.1 ++ [(x.lane, old)], fun o => if x.off ≤ o ∧ o < x.off + z then BitVec.ofNat 8 ((atomResult r x old).toNat / 2 ^ (8 * (o - x.off))) else p.2 o)

/-- An offset is changed by lanes with these old values: by one that does not fail. -/
def Changes (r : AtomReq) (ls : List AtomLane) (olds : List (Nat × Dword)) (o : Nat) : Prop :=
  ∃ p ∈ ls.zip olds, (r.kind = 1 → p.2.2 = p.1.cmp) ∧ Names p.1 (atomBytes r.ty) o

theorem changes_append {r : AtomReq} {ls : List AtomLane} {olds : List (Nat × Dword)} (hl : olds.length = ls.length) (x : AtomLane) (old : Nat × Dword)
    (o : Nat) : Changes r (ls ++ [x]) (olds ++ [old]) o ↔ Changes r ls olds o ∨ ((r.kind = 1 → old.2 = x.cmp) ∧ Names x (atomBytes r.ty) o) := by
  unfold Changes
  rw [List.zip_append hl.symm]
  simp [or_and_right, exists_or]

/-- After the turns of some lanes: the old values agree, the cells are the changed offsets with what they hold, and the others are as read. -/
structure Turns (r : AtomReq) (read : Nat → Byte) (ls : List AtomLane) (m : List (Nat × Dword) × List (Nat × Byte))
    (q : List (Nat × Dword) × (Nat → Byte)) : Prop where
  olds : m.1 = q.1
  length : q.1.length = ls.length
  cells : ∀ o b, (o, b) ∈ m.2 ↔ Changes r ls q.1 o ∧ b = q.2 o
  rest : ∀ o, ¬Changes r ls q.1 o → q.2 o = read o

namespace Turns
variable {r : AtomReq} {read : Nat → Byte} {ls : List AtomLane} {m : List (Nat × Dword) × List (Nat × Byte)} {q : List (Nat × Dword) × (Nat → Byte)}

/-- What the next lane finds is the same to both. -/
theorem under_eq (h : Turns r read ls m q) (o : Nat) : under m.2 read o = q.2 o := by
  unfold under
  cases hf : m.2.find? fun k => k.1 == o with
  | some k =>
    obtain rfl : k.1 = o := by simpa using List.find?_some hf
    exact ((h.cells k.1 k.2).1 (List.mem_of_find?_eq_some hf)).2
  | none =>
    refine (h.rest o fun hc => ?_).symm
    exact absurd (List.find?_eq_none.1 hf _ ((h.cells o _).2 ⟨hc, rfl⟩)) (by simp)

/-- A lane that fails leaves every byte. -/
theorem byteTurn_fails {x : AtomLane} (hf : r.kind = 1 ∧ wide (atomBytes r.ty) (fun i => q.2 (x.off + i)) ≠ x.cmp) (o : Nat) :
    (byteTurn r q x).2 o = q.2 o := by
  unfold byteTurn
  dsimp only
  split
  next hn =>
    rw [atomResult, if_pos hf.1, if_neg hf.2, byte_wide (atomBytes_le _) _ (by omega), Nat.add_sub_cancel' hn.1]
  next => rfl

theorem step (h : Turns r read ls m q) (x : AtomLane) : Turns r read (ls ++ [x]) (atomTurn r read m x) (byteTurn r q x) := by
  have hold : (wide (atomBytes r.ty) fun i => under m.2 read (x.off + i)) = wide (atomBytes r.ty) fun i => q.2 (x.off + i) := by
    simp only [h.under_eq]
  have hch (o : Nat) := changes_append h.length x (x.lane, wide (atomBytes r.ty) fun i => q.2 (x.off + i)) o (r := r)
  refine ⟨?_, ?_, fun o b => ?_, fun o hn => ?_⟩
  · simp only [atomTurn, byteTurn, hold, h.olds]
  · simp [byteTurn, h.length]
  · have hcell := h.cells o b
    change _ ↔ Changes r (ls ++ [x]) (q.1 ++ _) o ∧ _
    rw [hch]
    simp only [atomTurn, hold]
    split
    next hf =>
      rw [byteTurn_fails hf, hcell]
      simp [hf.1, hf.2]
    next hf =>
      have hok : r.kind = 1 → wide (atomBytes r.ty) (fun i => q.2 (x.off + i)) = x.cmp := fun h1 => by_contra fun h2 => hf ⟨h1, h2⟩
      have hkept : (o, b) ∈ (m.2.filter fun c => !(decide (x.off ≤ c.1) && decide (c.1 < x.off + atomBytes r.ty))) ↔
          (Changes r ls q.1 o ∧ b = q.2 o) ∧ ¬Names x (atomBytes r.ty) o := by
        rw [List.mem_filter, hcell, Names, Bool.not_eq_true', Bool.eq_false_iff, ne_eq, Bool.and_eq_true, decide_eq_true_eq, decide_eq_true_eq]
      rw [List.mem_append, hkept, mem_leCells]
      unfold byteTurn
      dsimp only
      split
      next hn => simpa [Names, hn] using fun _ => Or.inr hok
      next hn => simp [Names, hn]
  · obtain ⟨hbefore, hnow⟩ := not_or.1 ((not_congr (hch o)).1 hn)
    by_cases hf : r.kind = 1 ∧ wide (atomBytes r.ty) (fun i => q.2 (x.off + i)) ≠ x.cmp
    · rw [byteTurn_fails hf, h.rest o hbefore]
    · have hplace : ¬Names x (atomBytes r.ty) o := fun hp => hnow ⟨fun h1 => by_contra fun h2 => hf ⟨h1, h2⟩, hp⟩
      exact (if_neg hplace).trans (h.rest o hbefore)

end Turns

/-- The turns of all lanes. -/
theorem turns (r : AtomReq) (read : Nat → Byte) (ls : List AtomLane) :
    Turns r read ls (ls.foldl (atomTurn r read) ([], [])) (ls.foldl (byteTurn r) ([], read)) := by
  induction ls using List.reverseRecOn with
  | nil => exact ⟨rfl, rfl, fun o b => by simp [Changes], fun _ _ => rfl⟩
  | append_singleton ls x ih =>
    rw [List.foldl_concat, List.foldl_concat]
    exact ih.step x

end Sys2Proof.Machine
end

section
/-! An atomic at its home and its result (R209, R211 to R215): the update, the values, and the end of the form. -/

namespace Sys2Proof.Machine

open Claims

/-! The update of the line (R199, R209). -/

/-- The cells of an update at their addresses. -/
def atLine (line : Nat) (cells : List (Nat × Byte)) : List (Nat × Byte) := cells.map fun k => (line * 128 + k.1, k.2)

section
variable {s : State} {r : AtomReq} {olds : List (Nat × Dword)} {cells : List (Nat × Byte)}

/-- No home but memory takes the cells, and no owner of the line hears of it. -/
structure Plain (s : State) (r : AtomReq) : Prop where
  epochs : s.epochs = []
  owners : ∀ o ∈ s.owners, o.1 / 32 ≠ r.line
  window : (s.isLocal (r.line * 128) && inWindow (r.line * 128)) = false

theorem Plain.window_at (h : Plain s r) {o : Nat} (ho : o < 128) : (s.isLocal (r.line * 128 + o) && inWindow (r.line * 128 + o)) = false := by
  have hdev : devOf (r.line * 128 + o) = devOf (r.line * 128) := by unfold devOf; omega
  have hwin : inWindow (r.line * 128 + o) = inWindow (r.line * 128) := by
    unfold inWindow localOf
    rw [Bool.eq_iff_iff]
    simp only [Bool.and_eq_true, decide_eq_true_eq]
    omega
  have hlocal : s.isLocal (r.line * 128 + o) = s.isLocal (r.line * 128) := by rw [State.isLocal, State.isLocal, hdev]
  rw [hlocal, hwin]
  exact h.window

/-- What the home sends once it has written the cells: to a core of another device, or, unless the form is a reduction, the result. -/
def State.atomAnswered (r : AtomReq) (olds : List (Nat × Dword)) (cells : List (Nat × Byte)) (s : State) : State :=
  if isRemote r.core then s.sendOut (remoteDev r.core) (if r.kind = 2 then .done r.line else .olds r.line olds)
  else
    let s := s.stDown r.cord 1
    if r.kind = 2 then s
    else
      let cells := layCells cells (s.inFlight r.cord r.line)
      (s.patchReads r.cord r.line cells).afterFree ((s.leastRow r.core r.line).1 / 2) (.atomicResult r olds cells)

theorem atomDone_plain (h : Plain s r) (h128 : ∀ k ∈ cells, k.1 < 128) (again : Event) :
    s.atomDone r again (olds, cells) = (s.poke (atLine r.line cells)).atomAnswered r olds cells := by
  have hhead : ∀ w ∈ (atLine r.line cells).head?, (s.isLocal w.1 && inWindow w.1) = false := fun w hw => by
    obtain ⟨k, hk, rfl⟩ := List.mem_map.1 (List.mem_of_mem_head? hw)
    exact h.window_at (h128 k hk)
  unfold State.atomDone
  rw [owedNotices_none none _ h.owners]
  unfold State.atomPerformed
  rw [takeOwner_none _ h.owners]
  exact congrArg (State.atomAnswered r olds cells) (performWrite_poke (s.agentOfCord r.cord) h.epochs hhead)

theorem atomAnswered_byte (r : AtomReq) (olds : List (Nat × Dword)) (cells : List (Nat × Byte)) (s : State) (a : Nat) :
    (s.atomAnswered r olds cells).byte a = s.byte a := by
  unfold State.atomAnswered
  split
  · rfl
  · dsimp only
    split <;> rfl

theorem atomAnswered_remote (hr : 1000 ≤ r.core) : (r.core / 1000 - 1, if r.kind = 2 then OutMsg.done r.line else .olds r.line olds) ∈
    (s.atomAnswered r olds cells).outbox := by
  rw [State.atomAnswered, if_pos (by simpa [isRemote] using hr)]
  exact List.mem_append_right _ (List.mem_singleton.2 rfl)

theorem inFlight_stDown (c line : Nat) (s : State) : (s.stDown c 1).inFlight c line = s.inFlight c line := by
  have hrels : (((s.stDown c 1).cordRec c).map (·.rels)) = (s.cordRec c).map (·.rels) := by
    unfold State.stDown
    rw [cordRec_onCord c c (fun x => { x with stcnt := x.stcnt - 1 }) s fun _ => rfl, if_pos rfl, Option.map_map]
    rfl
  unfold State.inFlight State.storesOf
  rw [hrels]
  rfl

/-- The bytes that captured reads take leave every cord's stores counted. -/
theorem patchReads_stcnt (c line : Nat) (bs : List (Nat × Byte)) (s : State) : KeepsOf (·.stcnt) s (s.patchReads c line bs) := by
  unfold State.patchReads
  extract_lets holds half patch reads op
  have h1 : KeepsOf (·.stcnt) s { s with agenda := s.agenda.map fun d => { d with what := patch d.what } } := .of_cords_eq rfl rfl
  have h2 := h1.trans (KeepsOf.onCord c _ (f := fun x => { x with ops := x.ops.map op }) (fun _ => rfl) fun _ => rfl)
  exact h2.trans (KeepsOf.of_cords_eq rfl rfl)

section
variable (hr : r.core < 1000)
include hr

theorem atomAnswered_result (hk : r.kind ≠ 2) : Sends s (s.atomAnswered r olds cells) 0
    (.atomicResult r olds (layCells cells (s.inFlight r.cord r.line))) := by
  rw [State.atomAnswered, if_neg (by simpa [isRemote] using hr)]
  dsimp only
  rw [if_neg hk, inFlight_stDown]
  obtain ⟨d, hd, he, hle⟩ := sends_afterFree (((s.stDown r.cord 1).leastRow r.core r.line).1 / 2)
    (.atomicResult r olds (layCells cells (s.inFlight r.cord r.line)))
    ((s.stDown r.cord 1).patchReads r.cord r.line (layCells cells (s.inFlight r.cord r.line)))
  exact ⟨d, hd, he, Nat.le_trans (Nat.le_add_right s.cycle _) hle⟩

theorem atomAnswered_stcnt {x : Cord} (hx : s.cordRec r.cord = some x) :
    ∃ y, (s.atomAnswered r olds cells).cordRec r.cord = some y ∧ y.stcnt = x.stcnt - 1 := by
  have hdown : (s.stDown r.cord 1).cordRec r.cord = some { x with stcnt := x.stcnt - 1 } := by
    unfold State.stDown
    rw [cordRec_onCord r.cord r.cord (fun x => { x with stcnt := x.stcnt - 1 }) s fun _ => rfl, if_pos rfl, hx]
    rfl
  rw [State.atomAnswered, if_neg (by simpa [isRemote] using hr)]
  dsimp only
  split
  · exact ⟨_, hdown, rfl⟩
  · exact patchReads_stcnt r.cord r.line _ (s.stDown r.cord 1) r.cord _ hdown

end
end

/-! The host's adapter (R215). -/

theorem settleAdapter_sends (line : Nat) (e : Event) (s : State) :
    (s.settleAdapter line e).mem = s.mem ∧ Sends s (s.settleAdapter line e) 0 e := by
  unfold State.settleAdapter
  split
  · exact ⟨rfl, _, List.mem_cons_self, rfl, Nat.le_refl _⟩
  · exact ⟨rfl, _, List.mem_cons_of_mem _ List.mem_cons_self, rfl, Nat.le_refl _⟩

section
variable {s : State} {r : AtomReq}

theorem exec_atomicAtHome_here (hn : s.now = some (.atomicAtHome r)) (hu : s.unreachable r.line = false)
    (hl : s.loadAhead r.core r.cord r.line r.tok = none) (hh : isHostLine r.line = false) : exec .atomicAtHome s =
      .next (s.atomDone r (.atomicAtHome r) (atomRun r fun o => s.byte (r.line * 128 + o))) := by
  change execAtomicAtHome s = _
  simp [execAtomicAtHome, hn, hu, hl, hh]

theorem exec_atomicAtHome_host (hn : s.now = some (.atomicAtHome r)) (hu : s.unreachable r.line = false)
    (hl : s.loadAhead r.core r.cord r.line r.tok = none) (hh : isHostLine r.line = true) : exec .atomicAtHome s =
      .next (s.settleAdapter r.line (.adapterAtomic r none)) := by
  change execAtomicAtHome s = _
  simp [execAtomicAtHome, hn, hu, hl, hh]

theorem exec_adapterAtomic_first (hn : s.now = some (.adapterAtomic r none)) : exec .adapterAtomic s = .next (
    let x := atomRun r fun o => s.byte (r.line * 128 + o)
    if r.sysAtomic then s.atomDone r (.adapterAtomic r none) x else s.afterFree 1 (.adapterAtomic r (some x.1))) := by
  change execAdapterAtomic s = _
  simp [execAdapterAtomic, hn]

theorem exec_adapterAtomic_second {o : List (Nat × Dword)} (hn : s.now = some (.adapterAtomic r (some o))) : exec .adapterAtomic s =
    .next (s.atomDone r (.adapterAtomic r (some o)) (atomRun r (adapterBefore r o))) := by
  change execAdapterAtomic s = _
  simp [execAdapterAtomic, hn]

end

/-! The values (R211, R213). -/

/-- A choice made by a strict or by a weak order is the same where a tie makes no difference. -/
theorem ite_of_tie {α : Type} {p q : Prop} [Decidable p] [Decidable q] {x y : α} (hpq : p → q) (htie : q → ¬p → x = y) :
    (if p then x else y) = if q then x else y := by
  by_cases hp : p
  · rw [if_pos hp, if_pos (hpq hp)]
  · rw [if_neg hp]
    split
    next hq => exact (htie hq hp).symm
    next => rfl

/-- The order of the operands of an integer atomic. -/
def AtMost (sg : Bool) {n : Nat} (p q : BitVec n) : Prop := if sg then p.toInt ≤ q.toInt else p.toNat ≤ q.toNat

theorem atMost_of_less {sg : Bool} {n : Nat} {p q : BitVec n} (h : (if sg then p.slt q else p.ult q) = true) : AtMost sg p q := by
  cases sg with
  | true => exact Int.le_of_lt (BitVec.slt_iff_toInt_lt.1 h)
  | false => exact Nat.le_of_lt (BitVec.ult_iff_toNat_lt.1 h)

theorem eq_of_atMost {sg : Bool} {n : Nat} {p q : BitVec n} (h : AtMost sg p q) (hn : ¬(if sg then p.slt q else p.ult q) = true) : p = q := by
  cases sg with
  | true => exact BitVec.eq_of_toInt_eq (Int.le_antisymm h (Int.not_lt.1 (mt BitVec.slt_iff_toInt_lt.2 hn)))
  | false => exact BitVec.eq_of_toNat_eq (Nat.le_antisymm h (Nat.not_lt.1 (mt BitVec.ult_iff_toNat_lt.2 hn)))

theorem atomInt_eq {n : Nat} (sg : Bool) (op : Nat) (o b : BitVec n) [Decidable (if sg then o.toInt ≤ b.toInt else o.toNat ≤ b.toNat)] :
    atomInt sg op o b = if op = 0 then o + b
      else if op = 1 then (if (if sg then o.toInt ≤ b.toInt else o.toNat ≤ b.toNat) then o else b)
      else if op = 2 then (if (if sg then o.toInt ≤ b.toInt else o.toNat ≤ b.toNat) then b else o)
      else if op = 3 then o &&& b else if op = 4 then o ||| b else if op = 5 then o ^^^ b else b := by
  match op with
  | 0 => rfl
  | 1 => exact ite_of_tie atMost_of_less eq_of_atMost
  | 2 => exact ite_of_tie atMost_of_less fun h hn => (eq_of_atMost h hn).symm
  | 3 => rfl
  | 4 => rfl
  | 5 => rfl
  | op + 6 => rfl

theorem atomF32_eq (op : Nat) (o b : Word) : atomF32 op o b =
    if op = 0 then BitVec.ofNat 32 (fp32.op2 false false Machine.Num.add o.toNat b.toNat)
    else if op = 1 then BitVec.ofNat 32 (fp32.minmax false o.toNat b.toNat)
    else if op = 2 then BitVec.ofNat 32 (fp32.minmax true o.toNat b.toNat) else b := by
  match op with
  | 0 => rfl
  | 1 => rfl
  | 2 => rfl
  | op + 3 => rfl

theorem lo32_setWidth (x : Word) : lo32 (x.setWidth 64) = x := by
  rw [lo32, BitVec.setWidth_setWidth_of_le _ (by decide), BitVec.setWidth_eq]

section
variable {r : AtomReq} (x : AtomLane) (old : Dword)

theorem atomResult_cas (hk : r.kind = 1) : atomResult r x old = if old = x.cmp then x.b else old := if_pos hk

theorem atomResult_int32 (hk : r.kind ≠ 1) (ht : r.ty = 4 ∨ r.ty = 5) :
    lo32 (atomResult r x old) = atomInt (decide (r.ty = 4)) r.op (lo32 old) (lo32 x.b) := by
  have hbytes : atomBytes r.ty = 4 := if_neg (by omega)
  rw [atomResult, if_neg hk, if_neg (show r.ty ≠ 10 by omega), hbytes, if_neg (by decide), lo32_setWidth]
  rfl

theorem atomResult_int64 (hk : r.kind ≠ 1) (ht : r.ty = 6 ∨ r.ty = 7) : atomResult r x old = atomInt (decide (r.ty = 6)) r.op old x.b := by
  have hbytes : atomBytes r.ty = 8 := if_pos ht
  rw [atomResult, if_neg hk, if_neg (show r.ty ≠ 10 by omega), hbytes, if_pos rfl]
  rfl

theorem atomResult_f32 (hk : r.kind ≠ 1) (ht : r.ty = 10) : lo32 (atomResult r x old) = atomF32 r.op (lo32 old) (lo32 x.b) := by
  rw [atomResult, if_neg hk, if_pos ht, lo32_setWidth]

end

end Sys2Proof.Machine
end

section
/-! What an atomic leaves at its home, and in its cord when its form ends (R209, R212). -/

namespace Sys2Proof.Machine

open Claims

/-! The bytes of the line. -/

theorem poke_line_cell {s : State} {line : Nat} {cells : List (Nat × Byte)} (hf : ∀ p ∈ cells, ∀ q ∈ cells, p.1 = q.1 → p = q)
    {k : Nat × Byte} (hk : k ∈ cells) : (s.poke (atLine line cells)).byte (line * 128 + k.1) = k.2 := by
  rw [State.byte, poke_mem]
  refine SMap.get_setAll_of_mem 0 (ws := atLine line cells) s.mem ?_ (w := (line * 128 + k.1, k.2)) (List.mem_map_of_mem hk)
  intro p hp q hq e
  obtain ⟨i, hi, rfl⟩ := List.mem_map.1 hp
  obtain ⟨j, hj, rfl⟩ := List.mem_map.1 hq
  rw [hf i hi j hj (Nat.add_left_cancel e)]

theorem poke_line_other {s : State} {line : Nat} {cells : List (Nat × Byte)} {a : Nat} (h : ∀ k ∈ cells, line * 128 + k.1 ≠ a) :
    (s.poke (atLine line cells)).byte a = s.byte a := by
  refine byte_poke_ne _ s a fun w hw => ?_
  obtain ⟨k, hk, rfl⟩ := List.mem_map.1 hw
  exact h k hk

theorem mem_layCells {cells newer : List (Nat × Byte)} {o : Nat} {b : Byte} : (o, b) ∈ layCells cells newer ↔
    ∃ b', (o, b') ∈ cells ∧ b = ((newer.reverse.find? fun n => n.1 == o).map (·.2)).getD b' := by
  unfold layCells
  rw [List.mem_map]
  constructor
  · rintro ⟨k, hk, h⟩
    obtain ⟨rfl, rfl⟩ := Prod.mk.inj h
    exact ⟨k.2, hk, rfl⟩
  · rintro ⟨b', hb, rfl⟩
    exact ⟨(o, b'), hb, rfl⟩

namespace Turns
variable {s : State} {r : AtomReq} {read : Nat → Byte} {ls : List AtomLane} {m : List (Nat × Dword) × List (Nat × Byte)}
  {q : List (Nat × Dword) × (Nat → Byte)} (h : Turns r read ls m q)
include h

theorem cells_agree : ∀ p ∈ m.2, ∀ p' ∈ m.2, p.1 = p'.1 → p = p' := by
  rintro ⟨o, b⟩ hp ⟨o', b'⟩ hp' e
  dsimp only at e
  subst e
  rw [((h.cells o b).1 hp).2, ((h.cells o b').1 hp').2]

theorem cells_lt (hl : ∀ x ∈ ls, x.off + atomBytes r.ty ≤ 128) : ∀ k ∈ m.2, k.1 < 128 := fun k hk => by
  obtain ⟨p, hp, -, hn⟩ := ((h.cells k.1 k.2).1 hk).1
  exact Nat.lt_of_lt_of_le hn.2 (hl p.1 (List.of_mem_zip hp).1)

/-- The line holds what the turns leave of it. -/
theorem byte_poke (hread : ∀ o, read o = s.byte (r.line * 128 + o)) (o : Nat) : (s.poke (atLine r.line m.2)).byte (r.line * 128 + o) = q.2 o := by
  by_cases hc : Changes r ls q.1 o
  · exact poke_line_cell h.cells_agree ((h.cells o _).2 ⟨hc, rfl⟩)
  · rw [poke_line_other, h.rest o hc, hread]
    intro k hk e
    obtain rfl : k.1 = o := Nat.add_left_cancel e
    exact hc ((h.cells k.1 k.2).1 hk).1

end Turns

/-- What the home of an atomic does at once when the turns of its lanes leave these old values and bytes. -/
def AtomUpdates (s : State) (r : AtomReq) (all : List (Nat × Dword) × (Nat → Byte)) (t : State) : Prop :=
  (∀ o < 128, t.byte (r.line * 128 + o) = all.2 o) ∧ (∀ a, a / 128 ≠ r.line → t.byte a = s.byte a) ∧
  (r.core < 1000 →
    (r.kind ≠ 2 → ∃ cells, Sends s t 0 (.atomicResult r all.1 cells) ∧ ∀ o b, (o, b) ∈ cells ↔
      Changes r r.lanes all.1 o ∧ b = (((s.inFlight r.cord r.line).reverse.find? fun k => k.1 == o).map (·.2)).getD (all.2 o)) ∧
    ∀ x, Runs s r.cord x → ∃ y, t.cordRec r.cord = some y ∧ y.stcnt = x.stcnt - 1) ∧
  (1000 ≤ r.core → (r.core / 1000 - 1, if r.kind = 2 then .done r.line else .olds r.line all.1) ∈ t.outbox)

theorem inFlight_poke (c line : Nat) (ws : List (Nat × Byte)) (s : State) : (s.poke ws).inFlight c line = s.inFlight c line := by
  simp only [State.inFlight, State.storesOf, State.cordRec, poke_agenda, poke_cord, poke_cords]

theorem cordRec_poke (c : Nat) (ws : List (Nat × Byte)) (s : State) : (s.poke ws).cordRec c = s.cordRec c := by
  simp only [State.cordRec, poke_cord, poke_cords]

theorem atomDone_updates {s : State} {r : AtomReq} (hp : Plain s r) (hl : ∀ x ∈ r.lanes, x.off + atomBytes r.ty ≤ 128) (again : Event) :
    AtomUpdates s r (r.lanes.foldl (byteTurn r) ([], fun o => s.byte (r.line * 128 + o)))
      (s.atomDone r again (atomRun r fun o => s.byte (r.line * 128 + o))) := by
  have h := turns r (fun o => s.byte (r.line * 128 + o)) r.lanes
  rw [← atomRun_eq] at h
  generalize atomRun r (fun o => s.byte (r.line * 128 + o)) = m at h ⊢
  generalize r.lanes.foldl (byteTurn r) ([], fun o => s.byte (r.line * 128 + o)) = q at h ⊢
  obtain ⟨olds, cells⟩ := m
  have hlt := h.cells_lt hl
  obtain rfl : olds = q.1 := h.olds
  rw [atomDone_plain hp hlt]
  refine ⟨fun o _ => ?_, fun a ha => ?_, fun hr => ⟨fun hk =>
    ⟨layCells cells ((s.poke (atLine r.line cells)).inFlight r.cord r.line), ?_, fun o b => ?_⟩, fun x hx => ?_⟩, fun hr => atomAnswered_remote hr⟩
  · exact (atomAnswered_byte ..).trans (h.byte_poke (fun _ => rfl) o)
  · refine (atomAnswered_byte ..).trans (poke_line_other fun k hk e => ha ?_)
    have := hlt k hk
    omega
  · exact sends_of_cycle (atomAnswered_result hr hk) (poke_cycle ..)
  · rw [mem_layCells, inFlight_poke]
    constructor
    · rintro ⟨b', hb, rfl⟩
      obtain ⟨hc, rfl⟩ := (h.cells o b').1 hb
      exact ⟨hc, rfl⟩
    · rintro ⟨hc, rfl⟩
      exact ⟨_, (h.cells o _).2 ⟨hc, rfl⟩, rfl⟩
  · exact atomAnswered_stcnt hr ((cordRec_poke ..).trans hx.1)

/-! The adapter's later write (R215). -/

section
variable {r : AtomReq} {x : AtomLane} {old : Dword} (hx : r.lanes = [x])
include hx

theorem adapterBefore_one {i : Nat} (hi : i < atomBytes r.ty) :
    adapterBefore r [(x.lane, old)] (x.off + i) = BitVec.ofNat 8 (old.toNat >>> (8 * i)) := by
  unfold adapterBefore
  simp [hx, hi]

/-- The one lane finds the old value that its adapter has read. -/
theorem wide_adapterBefore (hold : old.toNat < 2 ^ (8 * atomBytes r.ty)) :
    (wide (atomBytes r.ty) fun i => adapterBefore r [(x.lane, old)] (x.off + i)) = old := by
  refine Eq.trans ?_ (wide_leBytes hold)
  exact congrArg (fun bs => BitVec.ofNat 64 (leNat bs)) (List.map_congr_left fun i hi => adapterBefore_one hx (List.mem_range.1 hi))

theorem mem_adapterCells (hold : old.toNat < 2 ^ (8 * atomBytes r.ty)) (o : Nat) (b : Byte) :
    (o, b) ∈ (atomRun r (adapterBefore r [(x.lane, old)])).2 ↔ ((r.kind = 1 → old = x.cmp) ∧ Names x (atomBytes r.ty) o) ∧
      b = BitVec.ofNat 8 ((atomResult r x old).toNat / 2 ^ (8 * (o - x.off))) := by
  have h := (turns r (adapterBefore r [(x.lane, old)]) r.lanes).cells o b
  rw [← atomRun_eq, hx, List.foldl_cons, List.foldl_nil, byteTurn] at h
  simp only [wide_adapterBefore hx hold] at h
  rw [h]
  have hch : Changes r [x] [(x.lane, old)] o ↔ (r.kind = 1 → old = x.cmp) ∧ Names x (atomBytes r.ty) o := by simp [Changes]
  rw [List.nil_append, hch]
  refine and_congr_right fun hn => ?_
  rw [if_pos (show x.off ≤ o ∧ o < x.off + atomBytes r.ty from hn.2)]

theorem adapter_writes {s : State} (hp : Plain s r) (hl : x.off + atomBytes r.ty ≤ 128) (hold : old.toNat < 2 ^ (8 * atomBytes r.ty))
    (again : Event) (a : Nat) : (s.atomDone r again (atomRun r (adapterBefore r [(x.lane, old)]))).byte a =
      if (r.kind = 1 → old = x.cmp) ∧ r.line * 128 + x.off ≤ a ∧ a < r.line * 128 + x.off + atomBytes r.ty then
        BitVec.ofNat 8 ((atomResult r x old).toNat / 2 ^ (8 * (a - (r.line * 128 + x.off)))) else s.byte a := by
  have hcells := mem_adapterCells hx hold
  have hturns := turns r (adapterBefore r [(x.lane, old)]) r.lanes
  rw [← atomRun_eq] at hturns
  have hlt := hturns.cells_lt (by simpa [hx] using hl)
  have hagree := hturns.cells_agree
  generalize atomRun r (adapterBefore r [(x.lane, old)]) = m at hcells hlt hagree ⊢
  obtain ⟨olds, cells⟩ := m
  rw [atomDone_plain hp hlt, atomAnswered_byte]
  split
  next h =>
    obtain ⟨hok, h1, h2⟩ := h
    have hcell := (hcells (a - r.line * 128) _).2 ⟨⟨hok, by unfold Names; omega⟩, rfl⟩
    have hbyte := poke_line_cell (s := s) (line := r.line) hagree hcell
    rw [Nat.add_sub_cancel' (by omega), Nat.sub_sub] at hbyte
    exact hbyte
  next h =>
    refine poke_line_other fun k hk e => h ?_
    obtain ⟨⟨hok, hn⟩, -⟩ := (hcells k.1 k.2).1 hk
    unfold Names at hn
    exact ⟨hok, by omega⟩

end

/-! The end of an atomic's form (R209, R212). -/

theorem bit_wordsOf {offs : List Nat} {o : Nat} (ho : o ∈ offs) (h : o < 128) : bit (wordsOf offs) (o / 4) = true := by
  rw [wordsOf, bit_maskOf _ (by omega), List.contains_iff_mem, List.mem_filter, List.mem_range, List.any_eq_true]
  exact ⟨by omega, o, ho, beq_self_eq_true _⟩

/-- An eyelet that holds the cells of an atomic, which its cord does not own. -/
def Eyelet.HoldsCells (y : Eyelet) (cells : List (Nat × Byte)) : Prop :=
  ∀ p ∈ cells, SMap.get 0 y.data p.1 = p.2 ∧ (p.1 < 128 → bit y.own (p.1 / 4) = false)

theorem atomCopy_holds {x : Cord} {line e : Nat} {cells : List (Nat × Byte)} (hf : ∀ p ∈ cells, ∀ q ∈ cells, p.1 = q.1 → p = q)
    (hst : (x.eye e).st = .opened) (hpla : (x.eye e).pla = line) : ((x.atomCopy line cells).eye e).HoldsCells cells := by
  have heye : (x.atomCopy line cells).eye e = { x.eye e with
      data := SMap.setAll 0 (x.eye e).data cells, own := (x.eye e).own &&& ~~~wordsOf (cells.map (·.1)) } := by
    refine (SMap.get_map {} (fun y : Eyelet => if y.st = .opened ∧ y.pla = line then
      { y with data := SMap.setAll 0 y.data cells, own := y.own &&& ~~~wordsOf (cells.map (·.1)) } else y) rfl x.eyes e).trans ?_
    exact if_pos ⟨hst, hpla⟩
  rw [heye]
  intro p hp
  refine ⟨SMap.get_setAll_of_mem 0 _ hf hp, fun h => ?_⟩
  have hw := bit_wordsOf (List.mem_map_of_mem (f := (·.1)) hp) h
  unfold bit at hw ⊢
  simp [hw]

/-- The registers after a list of writes do not depend on the outstanding forms. -/
theorem applyAll_withOps (ops : List Op) (ws : List RegWrite) (x : Cord) : Cord.applyAll { x with ops := ops } ws = { x.applyAll ws with ops := ops } := by
  induction ws generalizing x with
  | nil => rfl
  | cons w ws ih =>
    have hw : Cord.apply { x with ops := ops } w = { x.apply w with ops := ops } := by cases w <;> rfl
    change Cord.applyAll (Cord.apply { x with ops := ops } w) ws = _
    rw [hw, ih]
    rfl

section
variable {o : Op} {line : Nat} {cells : List (Nat × Byte)} (hk : o.kind = .atom line cells) (x : Cord)
include hk

theorem endOp_atom : (x.endOp o).v = (x.applyAll o.writes).v ∧ (x.endOp o).ldcnt = x.ldcnt - o.ld ∧
    (x.endOp o).eyes = ((x.applyAll o.writes).atomCopy line cells).eyes := by
  unfold Cord.endOp
  simp only [hk]
  have hld : ((x.applyAll o.writes).atomCopy line cells).ldcnt = x.ldcnt := applyAll_ldcnt x o.writes
  cases o.flag <;> exact ⟨rfl, congrArg (· - o.ld) hld, rfl⟩

theorem endOp_atom_flag {f : Flag} (hf : o.flag = some f) : (x.endOp o).flagOf f.val = x.flagOf f.val - 1 := by
  have hflag : ((x.applyAll o.writes).atomCopy line cells).f = x.f := applyAll_f x o.writes
  have hdown := flagOf_flagDown ((x.applyAll o.writes).atomCopy line cells) f.val
  unfold Cord.endOp
  simp only [hk, hf]
  exact hdown.trans (congrArg (SMap.get 0 · f.val - 1) hflag)

theorem endOp_atom_holds {e : Nat} (hf : ∀ p ∈ cells, ∀ q ∈ cells, p.1 = q.1 → p = q)
    (hst : (x.eye e).st = .opened) (hpla : (x.eye e).pla = line) : ((x.endOp o).eye e).HoldsCells cells := by
  have heye : (x.applyAll o.writes).eye e = x.eye e := congrArg (SMap.get ({} : Eyelet) · e) (applyAll_eyes x o.writes)
  have heyes : (x.endOp o).eye e = ((x.applyAll o.writes).atomCopy line cells).eye e :=
    congrArg (SMap.get ({} : Eyelet) · e) (endOp_atom hk x).2.2
  rw [heyes]
  exact atomCopy_holds hf (heye ▸ hst) (heye ▸ hpla)

end

theorem cordRec_endOp {s : State} {c : Nat} {x : Cord} (o : Op) (hx : s.cordRec c = some x) :
    (s.onCord c fun x => x.endOp o).cordRec c = some (x.endOp o) := by
  rw [cordRec_onCord c c (fun x => x.endOp o) s fun y => endOp_cid y o, if_pos rfl, hx]
  rfl

/-- The last part of an atomic's acquire writes the destination and brings the eyelets up to date (R209, R212). -/
theorem exec_atom_acquired {s : State} {c tok line : Nat} {x : Cord} {o : Op} {cells : List (Nat × Byte)}
    (hn : s.now = some (.acquireComplete c tok ⟨some [], [], [], [], [], []⟩)) (hx : Runs s c x) (ho : x.ops.find? (·.tok == tok) = some o)
    (hd : o.due ≤ s.cycle) (hk : o.kind = .atom line cells) (h1 : o.left = 1) :
    ∃ t, exec .acquireComplete s = .next t ∧ t.cordRec c = some ((x.partDone tok).endOp o) := by
  have hexec := exec_acquireComplete_lands hn hx ho hd
  rw [List.foldl_nil, opPart_ends_atom hx.1 ho (Nat.le_of_eq h1) hk] at hexec
  exact ⟨_, hexec, cordRec_endOp o (runs_onCord (f := Cord.partDone tok) (fun _ => rfl) (fun _ => rfl) hx).1⟩

/-! The result at its cord (R212). -/

/-- The register writes of a result with a vector destination. -/
theorem atomWrites_v {r : AtomReq} {d : Vec} (hd : r.dst = some (.v d)) (olds : List (Nat × Dword)) : atomWrites r olds =
    olds.flatMap fun o => RegWrite.v (r.wb + d.val) o.1 (lo32 o.2) ::
      if r.ty = 6 ∨ r.ty = 7 then [.v (r.wb + d.val + 1) o.1 (hi32 o.2)] else [] := by
  have hlo (x : Dword) : BitVec.ofNat 32 x.toNat = lo32 x := rfl
  have hhi (x : Dword) : BitVec.ofNat 32 (x.toNat / 4294967296) = hi32 x := by
    change BitVec.ofNat 32 (x.toNat / 2 ^ 32) = hi32 x
    rw [← Nat.shiftRight_eq_div_pow, ← BitVec.toNat_ushiftRight]
    rfl
  unfold atomWrites atomBytes
  simp only [hd]
  by_cases h : r.ty = 6 ∨ r.ty = 7
  · simp [h, loadWrites, ldWords, hlo, hhi]
  · simp [h, loadWrites, ldWords, hlo]

/-- The form of a result that came without an acquire, or whose acquire is still to be made. -/
def atomOp (r : AtomReq) (olds : List (Nat × Dword)) (cells : List (Nat × Byte)) (tok : Nat) : Op :=
  { tok := tok, flag := r.flag, left := 1, ld := 1, kind := .atom r.line cells, writes := atomWrites r olds }

/-- A form is outstanding. -/
def Cord.withOp (o : Op) (x : Cord) : Cord := { x with ops := x.ops ++ [o] }

section
variable {s : State} {r : AtomReq} {olds : List (Nat × Dword)} {cells : List (Nat × Byte)} {x : Cord}
  (hn : s.now = some (.atomicResult r olds cells)) (hx : Runs s r.cord x)
include hn hx

theorem exec_atomicResult_ends (ha : r.acq = false) : exec .atomicResult s = .next (s.onCord r.cord fun c => c.endOp (atomOp r olds cells s.fresh)) := by
  change execAtomicResult s = _
  simp only [execAtomicResult, hn, State.ifCord, findCord_eq_some hx, ha, atomOp, Bool.false_eq_true, ↓reduceIte]

theorem exec_atomicResult_acquires (ha : r.acq = true) : exec .atomicResult s = .next (State.beginAcquire r.cord s.fresh
    (State.tick (s.onCord r.cord (Cord.withOp (atomOp r olds cells s.fresh))))) := by
  change execAtomicResult s = _
  simp only [execAtomicResult, hn, State.ifCord, findCord_eq_some hx, ha, ↓reduceIte]
  rfl

end

/-- A cord that acquires has the next epoch, and else what it had but for the times of its reads. -/
theorem beginAcquire_advances {s : State} {c : Nat} {x : Cord} (tok : Nat) (hx : Runs s c x) :
    ∃ y, (s.beginAcquire c tok).cordRec c = some y ∧ y.epoch = x.epoch + 1 ∧ y.bindings = x.bindings := by
  obtain ⟨y, hy, hstand⟩ := (steady_beginAcquire c tok s).runs (runs_onCord (f := Cord.advanced) (fun _ => rfl) (fun _ => rfl) hx)
  obtain ⟨z, hz, hbind⟩ := keepsLive_beginAcquire c tok s c x (findCord_eq_some hx)
  obtain rfl : y = z := Option.some.inj ((findCord_eq_some hy).symm.trans hz)
  exact ⟨y, hy.1, congrArg (·.2.2.2) hstand, hbind⟩

end Sys2Proof.Machine

namespace Sys2Proof

open Machine Claims

/-- Settles O34: the update at the home from the invariant of the lanes' turns (`turns`, `atomDone_updates`, `adapter_writes`), the
values, and the two ends of the form (`exec_atom_acquired`, `endOp_atom`). -/
theorem atomicsAtHome : Obligations.AtomicsAtHome := by
  unfold Obligations.AtomicsAtHome
  refine ⟨fun s r => ?_, fun r x old => ?_, fun s c tok line x o cells hn hx ho hd hk h1 hf => ?_, fun s r olds cells x d f hn hx hdst hflag hf => ?_⟩
  · intro z turn all changed updates hlanes hepochs howners hwindow hahead
    have hp : Plain s r := ⟨hepochs, howners, hwindow⟩
    have hl (x : AtomLane) (hx : x ∈ r.lanes) : x.off + atomBytes r.ty ≤ 128 := (hlanes x hx).2
    refine ⟨fun hn hu hh => ⟨_, exec_atomicAtHome_here hn hu hahead hh, atomDone_updates hp hl _⟩, fun hn hu hh => ?_, fun hn => ?_,
      fun x old hn hx hold => ⟨_, exec_adapterAtomic_second hn, adapter_writes hx hp (hl x (by simp [hx])) hold _⟩⟩
    · obtain ⟨hmem, hsent⟩ := settleAdapter_sends r.line (.adapterAtomic r none) s
      exact ⟨_, exec_atomicAtHome_host hn hu hahead hh, hmem, hsent⟩
    · refine ⟨_, exec_adapterAtomic_first hn, ?_⟩
      dsimp only
      split
      · exact atomDone_updates hp hl _
      · have holds : (atomRun r fun o => s.byte (r.line * 128 + o)).1 = all.1 := (turns r (fun o => s.byte (r.line * 128 + o)) r.lanes).olds
        rw [holds]
        exact ⟨rfl, sends_afterFree ..⟩
  · intro int
    refine ⟨atomResult_cas x old, fun hk ht => (atomResult_int32 x old hk ht).trans (atomInt_eq ..),
      fun hk ht => (atomResult_int64 x old hk ht).trans (atomInt_eq ..), fun hk ht => (atomResult_f32 x old hk ht).trans (atomF32_eq ..)⟩
  · obtain ⟨t, ht, hy⟩ := exec_atom_acquired hn hx ho hd hk h1
    refine ⟨t, _, ht, hy, ?_, fun e hst hpla => endOp_atom_holds hk (x.partDone tok) hf hst hpla⟩
    rw [(endOp_atom hk _).1, Cord.partDone, applyAll_withOps]
  · intro ws
    have hws : atomWrites r olds = ws := atomWrites_v hdst olds
    cases ha : r.acq with
    | false =>
      obtain ⟨hv, hld, -⟩ := endOp_atom (o := atomOp r olds cells s.fresh) rfl x
      refine ⟨_, _, exec_atomicResult_ends hn hx ha, cordRec_endOp _ hx.1, fun _ => ⟨?_, hld, endOp_atom_flag rfl x hflag,
        fun e hst hpla => endOp_atom_holds rfl x hf hst hpla⟩, by simp⟩
      rw [hv, ← hws]
      rfl
    | true =>
      have hx' : Runs (State.tick (s.onCord r.cord (Cord.withOp (atomOp r olds cells s.fresh)))) r.cord (x.withOp (atomOp r olds cells s.fresh)) :=
        runs_onCord (s := s) (fun _ => rfl) (fun _ => rfl) hx
      obtain ⟨y, hy, hepoch, hbind⟩ := beginAcquire_advances s.fresh hx'
      obtain ⟨g, hsent⟩ := sends_beginAcquire (tok := s.fresh) (by rw [findCord_eq_some hx']; rfl)
      refine ⟨_, y, exec_atomicResult_acquires hn hx ha, hy, by simp, fun _ => ⟨hepoch, fun e => ?_, g, hsent⟩⟩
      rw [eye_of_bindings hbind]
      exact ⟨rfl, rfl⟩

end Sys2Proof
end
